-- ==== Sys2Proof/Word.lean ====
section
/-! DEFINITION. The word types of the Icwen Puthar panel (R85, R24, R40). -/

namespace Sys2Proof

/-- A workspace register, a doubleword, a CSR (R85, R121). -/
abbrev Word := BitVec 64
/-- The program counter: 48 bits (R86). -/
abbrev PC := BitVec 48
/-- One byte of memory. -/
abbrev Byte := BitVec 8
/-- A workspace register number W0 to W15 (R26). -/
abbrev Reg := BitVec 4
/-- A 32-bit scalar instruction word (R24). -/
abbrev IWord := BitVec 32
/-- A 256-bit command word (R40). -/
abbrev CWord := BitVec 256

end Sys2Proof
end

