-- ==== Sys2Proof/Syntax.lean ====
section
/-! DEFINITION. The syntax: one constructor of `Instr` per row of spec/opcode_table.json, scalar
instructions (R25 to R38), engine commands (R40, R41) and the panel's own events
(spec/95_what_each_step_holds.md). -/

namespace Sys2Proof

/-- Access size, the sz code of R32: 1, 2, 4 or 8 bytes. -/
inductive Size where | b | h | w | d
deriving DecidableEq, Repr

/-- Source width of SEXT and ZEXT, the x code of R29. -/
inductive SrcWidth where | b | h | w
deriving DecidableEq, Repr

/-- Ordering of an AMO, the ord code of R33. -/
inductive AmoOrd where | plain | acq | rel | ar
deriving DecidableEq, Repr

/-- Scope of a FENCE (R34, R173). -/
inductive Scope where | tile | seg | mod | panel | sys
deriving DecidableEq, Repr

/-- Precision of a scalar floating-point operation (R36): .S or .D. -/
inductive Prec where | s | d
deriving DecidableEq, Repr

/-- Integer type of FCVT.I and FCVT.F (R36). -/
inductive IntTy where | w | wu | l | lu
deriving DecidableEq, Repr

/-- Rounding mode (R36, R109): RNE, RTZ, RDN, RUP. -/
inductive Rm where | rne | rtz | rdn | rup
deriving DecidableEq, Repr

/-- Operand fields shared by every AMO (R33): old value to d, address in a, operand in b. -/
structure AmoForm where
  d : Reg
  a : Reg
  b : Reg
  size : Size
  trig : Bool
  ord : AmoOrd
deriving DecidableEq, Repr

/-- The envelope of a command word with the CWA of R269: CMPL, PRIO and the completion word's address. -/
structure Envelope where
  cmpl : Bool
  prio : BitVec 2
  cwa : BitVec 48
deriving DecidableEq, Repr

/-- Body of a command word: R274, CPY. -/
structure CpyCmd where
  dst : BitVec 48
  src : BitVec 48
  len : BitVec 32
deriving DecidableEq, Repr

/-- Body of a command word: R274, CPY2 (strides signed). -/
structure Cpy2Cmd where
  dst : BitVec 48
  src : BitVec 48
  dstride : BitVec 24
  sstride : BitVec 24
  nrows : BitVec 16
  rowlen : BitVec 20
deriving DecidableEq, Repr

/-- Body of a command word: R274, GATH. -/
structure GathCmd where
  dst : BitVec 48
  tbl : BitVec 48
  idx : BitVec 48
  nidx : BitVec 16
  iw : BitVec 1
  rowlen : BitVec 20
deriving DecidableEq, Repr

/-- Body of a command word: R274, SCAT. -/
structure ScatCmd where
  tbl : BitVec 48
  src : BitVec 48
  idx : BitVec 48
  nidx : BitVec 16
  iw : BitVec 1
  rowlen : BitVec 20
deriving DecidableEq, Repr

/-- Body of a command word: R274, FILL. -/
structure FillCmd where
  dst : BitVec 48
  len : BitVec 32
  pattern : BitVec 64
deriving DecidableEq, Repr

/-- Body of a command word: R276, the body shared by CALLR, CAGTH and CRSCT. -/
structure CollCmd where
  dst : BitVec 48
  src : BitVec 48
  grp : BitVec 16
  seq : BitVec 32
  count : BitVec 28
  fmt : BitVec 5
  op : BitVec 3
deriving DecidableEq, Repr

/-- Body of a command word: R282, MMA. -/
structure MmaCmd where
  aaddr : BitVec 48
  astride : BitVec 24
  ct : BitVec 7
  boff : BitVec 17
  bcol : BitVec 6
  m1 : BitVec 6
  n1 : BitVec 6
  g : BitVec 12
  ck : BitVec 1
  zc : BitVec 1
deriving DecidableEq, Repr

/-- Body of a command word: R282, MMAP. -/
structure MmapCmd where
  aaddr : BitVec 48
  astride : BitVec 24
  ct : BitVec 7
  boff : BitVec 17
  bcol : BitVec 6
  m1 : BitVec 6
  n1 : BitVec 6
  g : BitVec 12
  init : BitVec 1
  iv : BitVec 32
deriving DecidableEq, Repr

/-- Body of a command word: R282, BLOAD. -/
structure BloadCmd where
  src : BitVec 48
  sstride : BitVec 24
  boff : BitVec 17
  bcol : BitVec 6
  n1 : BitVec 6
  len32 : BitVec 13
deriving DecidableEq, Repr

/-- Body of a command word: R282, MRED. -/
structure MredCmd where
  maddr : BitVec 48
  mstride : BitVec 24
  dt : BitVec 7
  ns : BitVec 3
  s0 : BitVec 7
  s1 : BitVec 7
  s2 : BitVec 7
  s3 : BitVec 7
  m1 : BitVec 6
  n1 : BitVec 6
  mmode : BitVec 2
deriving DecidableEq, Repr

/-- Body of a command word: sparse command bodies, SPMM. -/
structure SpmmCmd where
  smd : BitVec 48
  xaddr : BitVec 48
  xstride : BitVec 24
  ct : BitVec 7
  row0 : BitVec 16
  m1 : BitVec 6
  n1 : BitVec 6
  zc : BitVec 1
deriving DecidableEq, Repr

/-- Body of a command word: sparse command bodies, SDDMM. -/
structure SddmmCmd where
  smd : BitVec 48
  paddr : BitVec 48
  qaddr : BitVec 48
  row0 : BitVec 16
  m1 : BitVec 6
  g : BitVec 12
deriving DecidableEq, Repr

/-- Body of a command word: sparse command bodies, SPGATH. -/
structure SpgathCmd where
  dst : BitVec 48
  tbl : BitVec 48
  idx : BitVec 48
  nidx : BitVec 16
  iw : BitVec 1
  rowlen : BitVec 13
deriving DecidableEq, Repr

/-- Body of a command word: sparse command bodies, SEGRED. -/
structure SegredCmd where
  keys : BitVec 48
  vals : BitVec 48
  dst : BitVec 48
  n : BitVec 16
  rowlen : BitVec 13
  op : BitVec 3
deriving DecidableEq, Repr

/-- Body of a command word: sparse command bodies, SORTKV. -/
structure SortkvCmd where
  src : BitVec 48
  dst : BitVec 48
  n : BitVec 13
  kt : BitVec 2
  desc : BitVec 1
deriving DecidableEq, Repr

/-- Body of a command word: sparse command bodies, TOPK. -/
structure TopkCmd where
  src : BitVec 48
  oidx : BitVec 48
  oval : BitVec 48
  nrows : BitVec 16
  l : BitVec 13
  k : BitVec 7
deriving DecidableEq, Repr

/-- Body of a command word: attention command bodies, ATTN and ADEC. -/
structure AttnCmd where
  adesc : BitVec 48
  qaddr : BitVec 48
  oaddr : BitVec 48
  layer : BitVec 8
  nq1 : BitVec 6
  qpos : BitVec 24
  causal : BitVec 1
deriving DecidableEq, Repr

/-- Body of a command word: attention command bodies, KVAPP. -/
structure KvappCmd where
  adesc : BitVec 48
  ksrc : BitVec 48
  vsrc : BitVec 48
  layer : BitVec 8
  entry : BitVec 12
  slot0 : BitVec 5
  nt : BitVec 6
  rot : BitVec 1
  ext : BitVec 1
deriving DecidableEq, Repr

/-- Body of a command word: attention command bodies, KVDEV. -/
structure KvdevCmd where
  adesc : BitVec 48
  fresh : BitVec 48
  devout : BitVec 48
  entry : BitVec 12
  slot0 : BitVec 5
  nt : BitVec 6
deriving DecidableEq, Repr

/-- Body of a command word: attention command bodies, AROT. -/
structure ArotCmd where
  addr : BitVec 48
  stride : BitVec 24
  pos0 : BitVec 24
  nrows : BitVec 16
  dh : BitVec 9
  nh1 : BitVec 6
deriving DecidableEq, Repr

/-- Body of a command word: R317, the body shared by VBIN, VUN, VFMA and VSEL. -/
structure VeltCmd where
  dst : BitVec 48
  a : BitVec 48
  b : BitVec 48
  n : BitVec 24
  op : BitVec 6
  bs : BitVec 1
deriving DecidableEq, Repr

/-- Body of a command word: R321, VRED. -/
structure VredCmd where
  dst : BitVec 48
  src : BitVec 48
  sstride : BitVec 24
  n : BitVec 24
  nrows : BitVec 16
  op : BitVec 3
deriving DecidableEq, Repr

/-- Body of a command word: R322, VSCAN. -/
structure VscanCmd where
  dst : BitVec 48
  src : BitVec 48
  n : BitVec 24
  op : BitVec 3
  excl : BitVec 1
deriving DecidableEq, Repr

/-- Body of a command word: R323, VCVT. -/
structure VcvtCmd where
  dst : BitVec 48
  src : BitVec 48
  rowlen : BitVec 24
  nrows : BitVec 24
deriving DecidableEq, Repr

/-- Body of a command word: R324, VNORM. -/
structure VnormCmd where
  dst : BitVec 48
  src : BitVec 48
  prm : BitVec 48
  n : BitVec 13
  nrows : BitVec 16
  mode : BitVec 1
deriving DecidableEq, Repr

/-- Body of a command word: R325, VTRN. -/
structure VtrnCmd where
  dst : BitVec 48
  src : BitVec 48
  rows : BitVec 16
  cols : BitVec 16
  sstride : BitVec 24
  dstride : BitVec 24
deriving DecidableEq, Repr

/-- Body of a command word: R326, VIDX. -/
structure VidxCmd where
  dst : BitVec 48
  src : BitVec 48
  base : BitVec 32
  step : BitVec 32
  n : BitVec 24
  mode : BitVec 2
deriving DecidableEq, Repr

/-- A site command as its event brings it (R365, R432): the site, and whether it comes through the management port with a signature that
verifies. -/
structure SiteReq where
  site : Nat
  signed : Bool
deriving DecidableEq, Repr

/-- A cause of a site's loss (R367); the FAIL code is that of R365. -/
inductive LossCause where | sensePin | contacts | links
deriving DecidableEq, Repr

/-- The meter an energy update names (R405): a tile, a zone, a module's converter input. -/
inductive Meter where | tile (t : Nat) | zone (z : Nat) | site (s : Nat)
deriving DecidableEq, Repr

/-- The reader that a 32-bit read of an energy counter's low half latches for (R406). -/
inductive Reader where | core (c : Nat) | ethernet | i3c
deriving DecidableEq, Repr

/-- A store that a patrol scrubber passes over (R156, R425). -/
inductive ScrubStore where | tlm (t : Nat) | acc (t : Nat) | top (t : Nat) | hbm (m : Nat)
deriving DecidableEq, Repr

/-- PCIe completion status (R199). -/
inductive CplStatus where | ok | ur | ca
deriving DecidableEq, Repr

/-- A router output (R383): a mesh direction or the rim link. -/
inductive Dir where | east | west | north | south | rim
deriving DecidableEq, Repr

/-- What the PMC found while carrying out the bring-up stage it completes (R422, R423). -/
structure BootReport where
  /-- the signature of flash slot A, then of slot B, verifies -/
  slotA : Bool
  slotB : Bool
  /-- segments whose image was rejected or that missed the limit of stage 4 -/
  failedSegs : List Nat
  /-- the flash configuration of stage 2: the panel's number, and the fabric table by panel number (R385) -/
  config : Option (Nat × List (Nat × BitVec 64))
deriving DecidableEq, Repr

/-- One step of a collective that reaches a tile from another member's engine (R276, R372, R384): a block of element bytes
from one rank for the member core `toCore`, or the start step of a member of another panel for the descriptor at `desc`. -/
inductive PeerStep where
  | block (grp seq fromMember toCore : Nat) (data : List Byte)
  | start (desc member seq count fmt op : Nat)
deriving DecidableEq, Repr

/-- The fields of one defect-map line (R14): the dark tile, and whether its router is dead too. -/
structure Defect where
  tile : Nat
  routerDead : Bool
deriving DecidableEq, Repr

/-- One constructor per row of spec/opcode_table.json. Scalar instructions act on the executing core;
commands name a whole engine command; events carry the queue position, unit or measured value they
concern. Those without operands that the policy or the decoder needs no tag for stand last. -/
inductive Instr where
  | add (d a b : Reg)
  | sub (d a b : Reg)
  | and (d a b : Reg)
  | or (d a b : Reg)
  | xor (d a b : Reg)
  | andn (d a b : Reg)
  | orn (d a b : Reg)
  | sll (d a b : Reg)
  | srl (d a b : Reg)
  | sra (d a b : Reg)
  | slt (d a b : Reg)
  | sltu (d a b : Reg)
  | min (d a b : Reg)
  | max (d a b : Reg)
  | minu (d a b : Reg)
  | maxu (d a b : Reg)
  | addw (d a b : Reg)
  | subw (d a b : Reg)
  | sllw (d a b : Reg)
  | srlw (d a b : Reg)
  | sraw (d a b : Reg)
  | clz (d a : Reg)
  | ctz (d a : Reg)
  | popc (d a : Reg)
  | sext (d a : Reg) (x : SrcWidth)
  | zext (d a : Reg) (x : SrcWidth)
  | brev (d a : Reg)
  | addi (d a : Reg) (imm : BitVec 18)
  | andi (d a : Reg) (imm : BitVec 18)
  | ori (d a : Reg) (imm : BitVec 18)
  | xori (d a : Reg) (imm : BitVec 18)
  | slti (d a : Reg) (imm : BitVec 18)
  | sltiu (d a : Reg) (imm : BitVec 18)
  | addiw (d a : Reg) (imm : BitVec 18)
  | slli (d a : Reg) (sh : BitVec 6)
  | srli (d a : Reg) (sh : BitVec 6)
  | srai (d a : Reg) (sh : BitVec 6)
  | lui (d : Reg) (imm : BitVec 22)
  | auipc (d : Reg) (imm : BitVec 22)
  | mul (d a b : Reg)
  | mulh (d a b : Reg)
  | mulhu (d a b : Reg)
  | mulhsu (d a b : Reg)
  | div (d a b : Reg)
  | divu (d a b : Reg)
  | rem (d a b : Reg)
  | remu (d a b : Reg)
  | beq (a b : Reg) (off : BitVec 15)
  | bne (a b : Reg) (off : BitVec 15)
  | blt (a b : Reg) (off : BitVec 15)
  | bge (a b : Reg) (off : BitVec 15)
  | bltu (a b : Reg) (off : BitVec 15)
  | bgeu (a b : Reg) (off : BitVec 15)
  | jal (d : Reg) (off : BitVec 22)
  | jalr (d a : Reg) (imm : BitVec 18)
  | ld (d a : Reg) (sz : Size) (off : BitVec 14)
  | ldAcq (d a : Reg) (sz : Size) (off : BitVec 14)
  | ldu (d a : Reg) (sz : Size) (off : BitVec 14)
  | lduAcq (d a : Reg) (sz : Size) (off : BitVec 14)
  | st (d a : Reg) (sz : Size) (off : BitVec 14)
  | stRel (d a : Reg) (sz : Size) (off : BitVec 14)
  | ldf (d a : Reg)
  | stf (a b : Reg)
  | sete (a : Reg)
  | waita (d a b x : Reg)
  | amoSwap (f : AmoForm)
  | amoAdd (f : AmoForm)
  | amoAnd (f : AmoForm)
  | amoOr (f : AmoForm)
  | amoXor (f : AmoForm)
  | amoMin (f : AmoForm)
  | amoMax (f : AmoForm)
  | amoMinu (f : AmoForm)
  | amoMaxu (f : AmoForm)
  | amoCas (f : AmoForm) (x : Reg)
  | fenceAcq (scope : Scope)
  | fenceRel (scope : Scope)
  | fenceFull (scope : Scope)
  | hld (d a : Reg) (sz : Size)
  | hst (a b : Reg) (sz : Size)
  | fadd (p : Prec) (d a b : Reg)
  | fsub (p : Prec) (d a b : Reg)
  | fmul (p : Prec) (d a b : Reg)
  | fdiv (p : Prec) (d a b : Reg)
  | fsqrt (p : Prec) (d a : Reg)
  | fmin (p : Prec) (d a b : Reg)
  | fmax (p : Prec) (d a b : Reg)
  | fsgnj (p : Prec) (d a b : Reg)
  | fsgnjn (p : Prec) (d a b : Reg)
  | feq (p : Prec) (d a b : Reg)
  | flt (p : Prec) (d a b : Reg)
  | fle (p : Prec) (d a b : Reg)
  | fclass (p : Prec) (d a : Reg)
  | fcvtI (p : Prec) (d a : Reg) (ty : IntTy) (rm : Rm)
  | fcvtF (p : Prec) (d a : Reg) (ty : IntTy)
  | fcvtSd (p : Prec) (d a : Reg)
  | fmadd (p : Prec) (d a b x : Reg)
  | fmsub (p : Prec) (d a b x : Reg)
  | fnmadd (p : Prec) (d a b x : Reg)
  | fnmsub (p : Prec) (d a b x : Reg)
  | spawn (d a b : Reg)
  | spawna (d a : Reg)
  | join (a : Reg)
  | prio (d a : Reg)
  | migrate (d a b : Reg)
  | self (d a : Reg)
  | rgnnew (d a : Reg)
  | rgnend (d a : Reg)
  | bar (d : Reg)
  | barck (d : Reg)
  | chanOut (d a b : Reg)
  | chanIn (d a b : Reg)
  | outw (d a b : Reg)
  | inw (d a : Reg)
  | sel (d a b : Reg)
  | selF (d a b : Reg)
  | chinit (d a b : Reg)
  | chclr (d a : Reg)
  | rbinit (d a : Reg)
  | rbclaim (d a b : Reg)
  | rbclaimNb (d a b : Reg)
  | rbcommit (a b : Reg)
  | rbawait (d a : Reg)
  | rbawaitNb (d a : Reg)
  | rbretire (a b : Reg)
  | rbpeek (d a b : Reg)
  | enq (d a b : Reg)
  | jwait (d a : Reg)
  | jpoll (d a : Reg)
  | jdrop (d a : Reg)
  | acfg (d a : Reg)
  | apf (a : Reg)
  | ard (d a : Reg)
  | awr (a b : Reg)
  | aclr (a : Reg)
  | csrr (d : Reg) (csr : BitVec 12)
  | csrw (d a : Reg) (csr : BitVec 12)
  | csrs (d a : Reg) (csr : BitVec 12)
  | csrc (d a : Reg) (csr : BitVec 12)
  | tkreq (d a : Reg)
  | tkrel (d : Reg)
  | tkstat (d : Reg)
  | kmap (d a b : Reg)
  | kunmap (d a b : Reg)
  | ksplice (d a b : Reg)
  | ktag (d a b : Reg)
  | krepair (a b : Reg)
  | krdone (a b : Reg)
  | cgjoin (d a b : Reg)
  | cgleave (d a b : Reg)
  | cgstat (d a b : Reg)
  | plxl (d a : Reg)
  | trap (a : Reg)
  | resume (d a b : Reg)
  | killp (d a : Reg)
  | jrnl (d a b : Reg)
  | rgnsusp (d a : Reg)
  | rgnresm (d a : Reg)
  | cpy (env : Envelope) (c : CpyCmd)
  | cpy2 (env : Envelope) (c : Cpy2Cmd)
  | gath (env : Envelope) (c : GathCmd)
  | scat (env : Envelope) (c : ScatCmd)
  | fill (env : Envelope) (c : FillCmd)
  | callr (env : Envelope) (c : CollCmd)
  | cagth (env : Envelope) (c : CollCmd)
  | crsct (env : Envelope) (c : CollCmd)
  | mma (env : Envelope) (c : MmaCmd)
  | mmap (env : Envelope) (c : MmapCmd)
  | bload (env : Envelope) (c : BloadCmd)
  | mred (env : Envelope) (c : MredCmd)
  | spmm (env : Envelope) (c : SpmmCmd)
  | sddmm (env : Envelope) (c : SddmmCmd)
  | spgath (env : Envelope) (c : SpgathCmd)
  | segred (env : Envelope) (c : SegredCmd)
  | sortkv (env : Envelope) (c : SortkvCmd)
  | topk (env : Envelope) (c : TopkCmd)
  | attn (env : Envelope) (c : AttnCmd)
  | adec (env : Envelope) (c : AttnCmd)
  | kvapp (env : Envelope) (c : KvappCmd)
  | kvdev (env : Envelope) (c : KvdevCmd)
  | arot (env : Envelope) (c : ArotCmd)
  | vbin (env : Envelope) (c : VeltCmd)
  | vun (env : Envelope) (c : VeltCmd)
  | vfma (env : Envelope) (c : VeltCmd)
  | vred (env : Envelope) (c : VredCmd)
  | vscan (env : Envelope) (c : VscanCmd)
  | vcvt (env : Envelope) (c : VcvtCmd)
  | vsel (env : Envelope) (c : VeltCmd)
  | vnorm (env : Envelope) (c : VnormCmd)
  | vtrn (env : Envelope) (c : VtrnCmd)
  | vidx (env : Envelope) (c : VidxCmd)
  | illop (word : IWord)
  | fetchFault (target : PC)
  | granuleIssue (tile q slot : Nat)
  | granuleBoundary (tile q slot : Nat)
  | jobResume (tile q : Nat)
  | jobDone (tile q slot : Nat)
  | channelStep (i : Nat)
  | claimRetry (i : Nat)
  | channelTransferDone (i : Nat)
  | selectDeadline (wptr : Nat)
  | foghornProbeSend (wptr : Nat)
  | foghornProbeHop (i : Nat)
  | foghornConfirm (i : Nat)
  | regionStall (rcb : Nat)
  | spawnArrival (i : Nat)
  | migrateArrival (i : Nat)
  | dispatch (core : Nat)
  | timesliceExpiry (core : Nat)
  | wfiWake (core : Nat)
  | watchNotice (i : Nat)
  | waitaDeadline (wptr : Nat)
  | storeLeavesBuffer (core : Nat)
  | postedStoreArrival (i : Nat)
  | postedStoreAck (i : Nat)
  | postedStoreRefusal (i : Nat)
  | asyncTrapDelivery (wptr : Nat)
  | trapRecordOffer (tile : Nat)
  | spillRetry (i : Nat)
  | pageFaultMessage (i : Nat)
  | faultMessageResend (i : Nat)
  | shootdownComplete (seg : Nat)
  | deviceRegWrite (core : Nat)
  | launchRecord (q : Nat) (status : CplStatus)
  | launchCompletion (i : Nat)
  | collectiveStartStep (i : Nat)
  | collectivePeerStep (i : Nat)
  | collectiveLossStep (i : Nat)
  | siteQuiesced (s : Nat)
  | drainDeadline (s : Nat)
  | mapFreeze (seg : Nat)
  | mapCommit (seg : Nat)
  | mapThaw (seg : Nat)
  | controlInterval (seg : Nat)
  | revocationDeadline (tile : Nat)
  | phaseWindowEnd (seg : Nat)
  | rollback (rcb : Nat)
  | siteLoss (s : Nat) (cause : LossCause)
  | siteAdmit (q : SiteReq)
  | siteDrain (q : SiteReq) (notice : BitVec 32)
  | siteRelease (q : SiteReq)
  | siteRetest (q : SiteReq)
  | jobDequeue (tile q : Nat)
  | shootdownStart (seg : Nat) (sdctl : Word)
  | watchroomReplyMapped (w entry : Nat)
  | watchroomReplyRefused (w entry : Nat)
  | pcieCompletion (core : Nat) (status : CplStatus) (data : Word)
  | pcieCompletionTimeout (core : Nat)
  | hostWrite (link pa : Nat) (data : List Byte)
  | hostRead (link pa n : Nat)
  | energyLowRead (r : Reader) (pa : Nat)
  | doorbell (q : Nat) (tail : BitVec 32)
  | wqEnable (q : Nat) (value : Word)
  | peerFrame (port : Nat) (crcOk : Bool) (step : PeerStep)
  | peerPortDown (port : Nat)
  | linkDead (tile : Nat) (dir : Dir)
  | siteSeated (s : Nat) (contactsOk : Bool)
  | sitePowered (s : Nat)
  | siteAttested (s : Nat) (serial : Word) (defects : List Defect)
  | siteLinked (s : Nat)
  | siteStepFail (s : Nat)
  | sensePinOpen (s : Nat)
  | contactEvent (seg group : Nat)
  | routeInstall (tile : Nat) (entries : List Word)
  | arbiterStep (m : Nat) (measuredMw : Nat) (coreMw : Nat)
  | powerSample (tile : Nat) (milliwatts : Nat)
  | currentSample (seg : Nat) (milliamps : Nat)
  | thermalSample (seg : Nat) (samples : List (Option Int))
  | phaseFailure (seg : Nat)
  | tokenFault (seg : Nat)
  | energyUpdate (m : Meter) (amount : Nat)
  | scrubPass (store : ScrubStore)
  | powerOn
  | bootStage (r : BootReport)
  | mgmtRead (port : Reader) (pa : Nat)
  | firmwareUpload (image : List Byte) (signed : Bool)
  | panelidWrite (value : Word) (signed : Bool)
  | fabricTableWrite (n : Nat) (value : Word) (signed : Bool)
  | telemetrySample (inlet outlet flow : Nat)
  | coolantAlert
  | coolantAlertClear
  | endp
  | yield
  | brk
  | timeTick
  | wfi
deriving DecidableEq, Repr

end Sys2Proof
end

