-- ==== Sys2Proof/WellFormed.lean ====
section
/-! DEFINITION. Which terms of `Instr` are instructions that some word encodes. -/

namespace Sys2Proof

/-- The CSR numbers of the catalogue (R121). -/
def csrPresent (n : BitVec 12) : Bool :=
  let k := n.toNat
  k ≤ 0x00B || (0x100 ≤ k && k ≤ 0x10A) || k == 0x110 || (0x118 ≤ k && k ≤ 0x11F)
    || (0x180 ≤ k && k ≤ 0x184) || (0x200 ≤ k && k ≤ 0x207) || (0x280 ≤ k && k ≤ 0x282)
    || (0x300 ≤ k && k ≤ 0x311)

/-- LDU has no doubleword size (R32). -/
def Size.unsignedLoad : Size → Bool
  | .d => false
  | _ => true

/-- AMO sizes are .W and .D (R33). -/
def AmoForm.wf (f : AmoForm) : Bool :=
  match f.size with
  | .w => true
  | .d => true
  | _ => false

/-- CWA is must-be-zero when CMPL is 0 (R269). -/
def Envelope.wf (e : Envelope) : Bool := e.cmpl || e.cwa == 0

/-- WAITA with a = 0 and x = 0 raises ILLOP at decode (R208). -/
def waitaWf (a x : Reg) : Bool := !(a == 0 && x == 0)

/-- Well-formed instructions: those that a word encodes. Events have no words and are always well formed. -/
def Instr.wf : Instr → Bool
  | .ldu _ _ sz _ => sz.unsignedLoad
  | .lduAcq _ _ sz _ => sz.unsignedLoad
  | .waita _ a _ x => waitaWf a x
  | .amoSwap f => f.wf
  | .amoAdd f => f.wf
  | .amoAnd f => f.wf
  | .amoOr f => f.wf
  | .amoXor f => f.wf
  | .amoMin f => f.wf
  | .amoMax f => f.wf
  | .amoMinu f => f.wf
  | .amoMaxu f => f.wf
  | .amoCas f _ => f.wf
  | .csrr _ csr => csrPresent csr
  | .csrw _ _ csr => csrPresent csr
  | .csrs _ _ csr => csrPresent csr
  | .csrc _ _ csr => csrPresent csr
  | .cpy env _ => env.wf
  | .cpy2 env _ => env.wf
  | .gath env _ => env.wf
  | .scat env _ => env.wf
  | .fill env _ => env.wf
  | .callr env _ => env.wf
  | .cagth env _ => env.wf
  | .crsct env _ => env.wf
  | .mma env _ => env.wf
  | .mmap env _ => env.wf
  | .bload env _ => env.wf
  | .mred env _ => env.wf
  | .spmm env _ => env.wf
  | .sddmm env _ => env.wf
  | .spgath env _ => env.wf
  | .segred env _ => env.wf
  | .sortkv env _ => env.wf
  | .topk env _ => env.wf
  | .attn env _ => env.wf
  | .adec env _ => env.wf
  | .kvapp env _ => env.wf
  | .kvdev env _ => env.wf
  | .arot env _ => env.wf
  | .vbin env _ => env.wf
  | .vun env _ => env.wf
  | .vfma env _ => env.wf
  | .vred env _ => env.wf
  | .vscan env _ => env.wf
  | .vcvt env _ => env.wf
  | .vsel env _ => env.wf
  | .vnorm env _ => env.wf
  | .vtrn env _ => env.wf
  | .vidx env _ => env.wf
  | _ => true

end Sys2Proof
end

