-- ==== Sys2Proof/Decode.lean ====
section
/-! DEFINITION. Decoding of scalar words (R25 to R39) and of command words (R40 to R42), total on any bits, and
after it the encoder, written from the same tables. -/

namespace Sys2Proof

/-- Why a word is no instruction: the first three checks of R39, and the first three of R42. -/
inductive DecodeError where
  /-- R39 step 1: the major opcode is reserved (R27) -/
  | reservedOp
  /-- R39 step 2: a function, condition, size, ordering, kind, scope, shift or x code is reserved, or a CSR
  number is absent -/
  | reservedCode
  /-- R39 step 3: a must-be-zero field is nonzero -/
  | mustBeZero
  /-- the bytes end before the word does -/
  | tooShort
  /-- R42 step 1: EOP absent from the EOP map -/
  | unknownEop
  /-- R42 step 2: KIND is not the one the EOP map gives -/
  | wrongKind
  /-- R42 step 3: a reserved or must-be-zero bit of a command word is nonzero -/
  | commandMbz
deriving DecidableEq, Repr

/-! ### Fields of a scalar word (R25) -/

def fOp (w : IWord) : Nat := (w.extractLsb' 26 6).toNat
def fD (w : IWord) : Reg := w.extractLsb' 22 4
def fA (w : IWord) : Reg := w.extractLsb' 18 4
def fB (w : IWord) : Reg := w.extractLsb' 14 4
def fFn (w : IWord) : BitVec 10 := w.extractLsb' 4 10
def fX (w : IWord) : Reg := w.extractLsb' 0 4
def fImm18 (w : IWord) : BitVec 18 := w.extractLsb' 0 18
def fImm22 (w : IWord) : BitVec 22 := w.extractLsb' 0 22
def fSz (w : IWord) : BitVec 2 := w.extractLsb' 16 2
def fOrd (w : IWord) : BitVec 2 := w.extractLsb' 14 2
def fOff14 (w : IWord) : BitVec 14 := w.extractLsb' 0 14
def fCond (w : IWord) : BitVec 3 := w.extractLsb' 15 3
def fOff15 (w : IWord) : BitVec 15 := w.extractLsb' 0 15

/-- Accept `i` when the must-be-zero fields are zero (R28, R39 step 3). -/
def needZero (ok : Bool) (i : Instr) : Except DecodeError Instr :=
  if ok then .ok i else .error .mustBeZero

/-- The size of an sz code (R32). -/
def sizeOf2 (sz : BitVec 2) : Size :=
  match sz.toNat with
  | 0 => .b
  | 1 => .h
  | 2 => .w
  | _ => .d

/-- OPR (R29). -/
def decodeOpr (fn : BitVec 10) (d a b x : Reg) : Except DecodeError Instr :=
  let bin (i : Instr) := needZero (x == 0) i
  let un (i : Instr) := needZero (b == 0 && x == 0) i
  let ext (mk : SrcWidth → Instr) : Except DecodeError Instr :=
    match x.toNat with
    | 0 => needZero (b == 0) (mk .b)
    | 1 => needZero (b == 0) (mk .h)
    | 2 => needZero (b == 0) (mk .w)
    | _ => .error .reservedCode
  match fn.toNat with
  | 0 => bin (.add d a b)
  | 1 => bin (.sub d a b)
  | 2 => bin (.and d a b)
  | 3 => bin (.or d a b)
  | 4 => bin (.xor d a b)
  | 5 => bin (.andn d a b)
  | 6 => bin (.orn d a b)
  | 7 => bin (.sll d a b)
  | 8 => bin (.srl d a b)
  | 9 => bin (.sra d a b)
  | 10 => bin (.slt d a b)
  | 11 => bin (.sltu d a b)
  | 12 => bin (.min d a b)
  | 13 => bin (.max d a b)
  | 14 => bin (.minu d a b)
  | 15 => bin (.maxu d a b)
  | 16 => bin (.addw d a b)
  | 17 => bin (.subw d a b)
  | 18 => bin (.sllw d a b)
  | 19 => bin (.srlw d a b)
  | 20 => bin (.sraw d a b)
  | 0x20 => un (.clz d a)
  | 0x21 => un (.ctz d a)
  | 0x22 => un (.popc d a)
  | 0x23 => ext (.sext d a)
  | 0x24 => ext (.zext d a)
  | 0x25 => un (.brev d a)
  | _ => .error .reservedCode

/-- SHI (R30): kind in imm[17:16], imm[15:6] zero, the amount in imm[5:0]. -/
def decodeShi (w : IWord) : Except DecodeError Instr :=
  let d := fD w
  let a := fA w
  let sh : BitVec 6 := w.extractLsb' 0 6
  let z := w.extractLsb' 6 10 == (0 : BitVec 10)
  match (fSz w).toNat with
  | 0 => needZero z (.slli d a sh)
  | 1 => needZero z (.srli d a sh)
  | 2 => needZero z (.srai d a sh)
  | _ => .error .reservedCode

/-- MULDIV (R31). -/
def decodeMulDiv (fn : BitVec 10) (d a b x : Reg) : Except DecodeError Instr :=
  let bin (i : Instr) := needZero (x == 0) i
  match fn.toNat with
  | 0 => bin (.mul d a b)
  | 1 => bin (.mulh d a b)
  | 2 => bin (.mulhu d a b)
  | 3 => bin (.mulhsu d a b)
  | 4 => bin (.div d a b)
  | 5 => bin (.divu d a b)
  | 6 => bin (.rem d a b)
  | 7 => bin (.remu d a b)
  | _ => .error .reservedCode

/-- BR (R31): in F-B the fields a and b stand in bits [25:22] and [21:18]. -/
def decodeBr (w : IWord) : Except DecodeError Instr :=
  let a := fD w
  let b := fA w
  let off := fOff15 w
  match (fCond w).toNat with
  | 0 => .ok (.beq a b off)
  | 1 => .ok (.bne a b off)
  | 2 => .ok (.blt a b off)
  | 3 => .ok (.bge a b off)
  | 4 => .ok (.bltu a b off)
  | 5 => .ok (.bgeu a b off)
  | _ => .error .reservedCode

/-- LD, LDU and ST (R32). -/
def decodeLd (w : IWord) : Except DecodeError Instr :=
  match (fOrd w).toNat with
  | 0 => .ok (.ld (fD w) (fA w) (sizeOf2 (fSz w)) (fOff14 w))
  | 1 => .ok (.ldAcq (fD w) (fA w) (sizeOf2 (fSz w)) (fOff14 w))
  | _ => .error .reservedCode

def decodeLdu (w : IWord) : Except DecodeError Instr :=
  if (sizeOf2 (fSz w)).unsignedLoad then
    match (fOrd w).toNat with
    | 0 => .ok (.ldu (fD w) (fA w) (sizeOf2 (fSz w)) (fOff14 w))
    | 1 => .ok (.lduAcq (fD w) (fA w) (sizeOf2 (fSz w)) (fOff14 w))
    | _ => .error .reservedCode
  else .error .reservedCode

def decodeSt (w : IWord) : Except DecodeError Instr :=
  match (fOrd w).toNat with
  | 0 => .ok (.st (fD w) (fA w) (sizeOf2 (fSz w)) (fOff14 w))
  | 2 => .ok (.stRel (fD w) (fA w) (sizeOf2 (fSz w)) (fOff14 w))
  | _ => .error .reservedCode

/-- FE (R33, fields of R204's table). WAITA with a = 0 and x = 0 raises ILLOP at decode (R208). -/
def decodeFe (fn : BitVec 10) (d a b x : Reg) : Except DecodeError Instr :=
  match fn.toNat with
  | 0 => needZero (b == 0 && x == 0) (.ldf d a)
  | 1 => needZero (d == 0 && x == 0) (.stf a b)
  | 2 => needZero (d == 0 && b == 0 && x == 0) (.sete a)
  | 3 => if waitaWf a x then .ok (.waita d a b x) else .error .reservedCode
  | _ => .error .reservedCode

/-- The ord code of an AMO (R33). -/
def amoOrdOf (o : BitVec 2) : AmoOrd :=
  match o.toNat with
  | 0 => .plain
  | 1 => .acq
  | 2 => .rel
  | _ => .ar

/-- AMO (R33). -/
def decodeAmo (fn : BitVec 10) (d a b x : Reg) : Except DecodeError Instr :=
  let f : AmoForm := ⟨d, a, b, sizeOf2 (fn.extractLsb' 7 2), fn.getLsbD 6, amoOrdOf (fn.extractLsb' 4 2)⟩
  let z := !fn.getLsbD 9
  let plain (i : Instr) := needZero (z && x == 0) i
  if f.wf then
    match (fn.extractLsb' 0 4).toNat with
    | 0 => plain (.amoSwap f)
    | 1 => plain (.amoAdd f)
    | 2 => plain (.amoAnd f)
    | 3 => plain (.amoOr f)
    | 4 => plain (.amoXor f)
    | 5 => plain (.amoMin f)
    | 6 => plain (.amoMax f)
    | 7 => plain (.amoMinu f)
    | 8 => plain (.amoMaxu f)
    | 9 => needZero z (.amoCas f x)
    | _ => .error .reservedCode
  else .error .reservedCode

/-- FENCE (R34). -/
def decodeFence (w : IWord) : Except DecodeError Instr :=
  let z := fD w == 0 && fA w == 0 && w.extractLsb' 8 10 == (0 : BitVec 10)
  let kind (s : Scope) : Except DecodeError Instr :=
    match (fX w).toNat with
    | 1 => needZero z (.fenceAcq s)
    | 2 => needZero z (.fenceRel s)
    | 3 => needZero z (.fenceFull s)
    | _ => .error .reservedCode
  match (w.extractLsb' 4 4).toNat with
  | 0 => kind .tile
  | 1 => kind .seg
  | 2 => kind .mod
  | 3 => kind .panel
  | 4 => kind .sys
  | _ => .error .reservedCode

/-- HMEM (R35, R215): x[1:0] the size, x[3:2] zero. -/
def decodeHmem (fn : BitVec 10) (d a b x : Reg) : Except DecodeError Instr :=
  let sz := sizeOf2 (x.extractLsb' 0 2)
  let z := x.extractLsb' 2 2 == (0 : BitVec 2)
  match fn.toNat with
  | 0 => needZero (z && b == 0) (.hld d a sz)
  | 1 => needZero (z && d == 0) (.hst a b sz)
  | _ => .error .reservedCode

/-- The integer type of x[3:2] and the rounding of x[1:0] (R36). -/
def intTyOf (t : BitVec 2) : IntTy :=
  match t.toNat with
  | 0 => .w
  | 1 => .wu
  | 2 => .l
  | _ => .lu

def rmOf (r : BitVec 2) : Rm :=
  match r.toNat with
  | 0 => .rne
  | 1 => .rtz
  | 2 => .rdn
  | _ => .rup

/-- FP (R36): fn[9:1] the operation, fn[0] the precision. -/
def decodeFp (fn : BitVec 10) (d a b x : Reg) : Except DecodeError Instr :=
  let p : Prec := if fn.getLsbD 0 then .d else .s
  let bin (i : Instr) := needZero (x == 0) i
  let un (i : Instr) := needZero (b == 0 && x == 0) i
  match (fn.extractLsb' 1 9).toNat with
  | 0 => bin (.fadd p d a b)
  | 1 => bin (.fsub p d a b)
  | 2 => bin (.fmul p d a b)
  | 3 => bin (.fdiv p d a b)
  | 4 => un (.fsqrt p d a)
  | 5 => bin (.fmin p d a b)
  | 6 => bin (.fmax p d a b)
  | 7 => bin (.fsgnj p d a b)
  | 8 => bin (.fsgnjn p d a b)
  | 9 => bin (.feq p d a b)
  | 10 => bin (.flt p d a b)
  | 11 => bin (.fle p d a b)
  | 12 => un (.fclass p d a)
  | 13 => needZero (b == 0) (.fcvtI p d a (intTyOf (x.extractLsb' 2 2)) (rmOf (x.extractLsb' 0 2)))
  | 14 => needZero (b == 0 && x.extractLsb' 0 2 == (0 : BitVec 2)) (.fcvtF p d a (intTyOf (x.extractLsb' 2 2)))
  | 15 => un (.fcvtSd p d a)
  | _ => .error .reservedCode

/-- FMA (R36, R115): fn[1:0] the operation, fn[2] the precision, fn[9:3] zero, x the third source. -/
def decodeFma (fn : BitVec 10) (d a b x : Reg) : Except DecodeError Instr :=
  let p : Prec := if fn.getLsbD 2 then .d else .s
  let z := fn.extractLsb' 3 7 == (0 : BitVec 7)
  match (fn.extractLsb' 0 2).toNat with
  | 0 => needZero z (.fmadd p d a b x)
  | 1 => needZero z (.fmsub p d a b x)
  | 2 => needZero z (.fnmadd p d a b x)
  | _ => needZero z (.fnmsub p d a b x)

/-- PROC (R37; fields by the entries of R223 to R240). -/
def decodeProc (fn : BitVec 10) (d a b x : Reg) : Except DecodeError Instr :=
  let da (i : Instr) := needZero (b == 0 && x == 0) i
  let dab (i : Instr) := needZero (x == 0) i
  match fn.toNat with
  | 0 => dab (.spawn d a b)
  | 1 => da (.spawna d a)
  | 2 => needZero (d == 0 && a == 0 && b == 0 && x == 0) .endp
  | 3 => needZero (d == 0 && a == 0 && b == 0 && x == 0) .yield
  | 4 => needZero (d == 0 && b == 0 && x == 0) (.join a)
  | 5 => da (.prio d a)
  | 6 => dab (.migrate d a b)
  | 7 => da (.self d a)
  | 8 => da (.rgnnew d a)
  | 9 => da (.rgnend d a)
  | 10 => needZero (a == 0 && b == 0 && x == 0) (.bar d)
  | 11 => needZero (a == 0 && b == 0 && x == 0) (.barck d)
  | _ => .error .reservedCode

/-- CHAN (R37): x[0] selects SEL.F. -/
def decodeChan (fn : BitVec 10) (d a b x : Reg) : Except DecodeError Instr :=
  let dab (i : Instr) := needZero (x == 0) i
  match fn.toNat with
  | 0 => dab (.chanOut d a b)
  | 1 => dab (.chanIn d a b)
  | 2 => dab (.outw d a b)
  | 3 => needZero (b == 0 && x == 0) (.inw d a)
  | 4 => if x == 0 then .ok (.sel d a b) else needZero (x == 1) (.selF d a b)
  | 5 => dab (.chinit d a b)
  | 6 => needZero (b == 0 && x == 0) (.chclr d a)
  | _ => .error .reservedCode

/-- RING (R37, R330): x[0] selects .NB on RBCLAIM and RBAWAIT. -/
def decodeRing (fn : BitVec 10) (d a b x : Reg) : Except DecodeError Instr :=
  match fn.toNat with
  | 0 => needZero (b == 0 && x == 0) (.rbinit d a)
  | 1 => if x == 0 then .ok (.rbclaim d a b) else needZero (x == 1) (.rbclaimNb d a b)
  | 2 => needZero (d == 0 && x == 0) (.rbcommit a b)
  | 3 => if x == 0 then needZero (b == 0) (.rbawait d a) else needZero (x == 1 && b == 0) (.rbawaitNb d a)
  | 4 => needZero (d == 0 && x == 0) (.rbretire a b)
  | 5 => needZero (x == 0) (.rbpeek d a b)
  | _ => .error .reservedCode

/-- ENGQ (R37, R262, R272). -/
def decodeEngq (fn : BitVec 10) (d a b x : Reg) : Except DecodeError Instr :=
  let da (i : Instr) := needZero (b == 0 && x == 0) i
  match fn.toNat with
  | 0 => needZero (x == 0) (.enq d a b)
  | 1 => da (.jwait d a)
  | 2 => da (.jpoll d a)
  | 3 => da (.jdrop d a)
  | _ => .error .reservedCode

/-- ACCF (R37, table of R145). -/
def decodeAccf (fn : BitVec 10) (d a b x : Reg) : Except DecodeError Instr :=
  match fn.toNat with
  | 0 => needZero (b == 0 && x == 0) (.acfg d a)
  | 1 => needZero (d == 0 && b == 0 && x == 0) (.apf a)
  | 2 => needZero (b == 0 && x == 0) (.ard d a)
  | 3 => needZero (d == 0 && x == 0) (.awr a b)
  | 4 => needZero (d == 0 && b == 0 && x == 0) (.aclr a)
  | _ => .error .reservedCode

/-- CSR (R38): the operation in imm[17:16], imm[15:12] zero, the number in imm[11:0]. -/
def decodeCsr (w : IWord) : Except DecodeError Instr :=
  let csr : BitVec 12 := w.extractLsb' 0 12
  let z := w.extractLsb' 12 4 == (0 : BitVec 4)
  if csrPresent csr then
    match (fSz w).toNat with
    | 0 => needZero (z && fA w == 0) (.csrr (fD w) csr)
    | 1 => needZero z (.csrw (fD w) (fA w) csr)
    | 2 => needZero z (.csrs (fD w) (fA w) csr)
    | _ => needZero z (.csrc (fD w) (fA w) csr)
  else .error .reservedCode

/-- TOKN (R37, R403). -/
def decodeTokn (fn : BitVec 10) (d a b x : Reg) : Except DecodeError Instr :=
  match fn.toNat with
  | 0 => needZero (b == 0 && x == 0) (.tkreq d a)
  | 1 => needZero (a == 0 && b == 0 && x == 0) (.tkrel d)
  | 2 => needZero (a == 0 && b == 0 && x == 0) (.tkstat d)
  | _ => .error .reservedCode

/-- KVM (R37, R356). -/
def decodeKvm (fn : BitVec 10) (d a b x : Reg) : Except DecodeError Instr :=
  match fn.toNat with
  | 0 => needZero (x == 0) (.kmap d a b)
  | 1 => needZero (x == 0) (.kunmap d a b)
  | 2 => needZero (x == 0) (.ksplice d a b)
  | 3 => needZero (x == 0) (.ktag d a b)
  | 4 => needZero (d == 0 && x == 0) (.krepair a b)
  | 5 => needZero (d == 0 && x == 0) (.krdone a b)
  | _ => .error .reservedCode

/-- PLCG (R37, R374, R380). -/
def decodePlcg (fn : BitVec 10) (d a b x : Reg) : Except DecodeError Instr :=
  match fn.toNat with
  | 0 => needZero (x == 0) (.cgjoin d a b)
  | 1 => needZero (x == 0) (.cgleave d a b)
  | 2 => needZero (x == 0) (.cgstat d a b)
  | 3 => needZero (b == 0 && x == 0) (.plxl d a)
  | _ => .error .reservedCode

/-- SYS (R37, R130). -/
def decodeSys (fn : BitVec 10) (d a b x : Reg) : Except DecodeError Instr :=
  let da (i : Instr) := needZero (b == 0 && x == 0) i
  match fn.toNat with
  | 0 => needZero (d == 0 && b == 0 && x == 0) (.trap a)
  | 1 => needZero (d == 0 && a == 0 && b == 0 && x == 0) .brk
  | 2 => needZero (d == 0 && a == 0 && b == 0 && x == 0) .wfi
  | 3 => needZero (x == 0) (.resume d a b)
  | 4 => da (.killp d a)
  | 5 => needZero (x == 0) (.jrnl d a b)
  | 6 => da (.rgnsusp d a)
  | 7 => da (.rgnresm d a)
  | _ => .error .reservedCode

/-- Decode one scalar word by the major opcode map (R27), in the order of R39. -/
def decodeWord (w : IWord) : Except DecodeError Instr :=
  let d := fD w
  let a := fA w
  let b := fB w
  let x := fX w
  let fn := fFn w
  match fOp w with
  | 0x01 => decodeOpr fn d a b x
  | 0x02 => .ok (.addi d a (fImm18 w))
  | 0x03 => .ok (.andi d a (fImm18 w))
  | 0x04 => .ok (.ori d a (fImm18 w))
  | 0x05 => .ok (.xori d a (fImm18 w))
  | 0x06 => .ok (.slti d a (fImm18 w))
  | 0x07 => .ok (.sltiu d a (fImm18 w))
  | 0x08 => decodeShi w
  | 0x09 => .ok (.addiw d a (fImm18 w))
  | 0x0A => .ok (.lui d (fImm22 w))
  | 0x0B => .ok (.auipc d (fImm22 w))
  | 0x0C => decodeMulDiv fn d a b x
  | 0x10 => decodeBr w
  | 0x11 => .ok (.jal d (fImm22 w))
  | 0x12 => .ok (.jalr d a (fImm18 w))
  | 0x14 => decodeLd w
  | 0x15 => decodeLdu w
  | 0x16 => decodeSt w
  | 0x17 => decodeFe fn d a b x
  | 0x18 => decodeAmo fn d a b x
  | 0x19 => decodeFence w
  | 0x1A => decodeHmem fn d a b x
  | 0x20 => decodeFp fn d a b x
  | 0x21 => decodeFma fn d a b x
  | 0x24 => decodeProc fn d a b x
  | 0x25 => decodeChan fn d a b x
  | 0x26 => decodeRing fn d a b x
  | 0x27 => decodeEngq fn d a b x
  | 0x28 => decodeAccf fn d a b x
  | 0x29 => decodeCsr w
  | 0x2A => decodeTokn fn d a b x
  | 0x2B => decodeKvm fn d a b x
  | 0x2C => decodePlcg fn d a b x
  | 0x2D => decodeSys fn d a b x
  | _ => .error .reservedOp

/-! ### Command words (R40 to R42) -/

def cEop (w : CWord) : Nat := (w.extractLsb' 248 8).toNat
def cKind (w : CWord) : Nat := (w.extractLsb' 245 3).toNat
def cCmpl (w : CWord) : Bool := w.getLsbD 244
def cPrio (w : CWord) : BitVec 2 := w.extractLsb' 242 2
def cCwa (w : CWord) : BitVec 48 := w.extractLsb' 192 48
def cEnv (w : CWord) : Envelope := ⟨cCmpl w, cPrio w, cCwa w⟩

/-- Fields of a body: R274, CPY. -/
def cpyOf (w : CWord) : CpyCmd :=
  ⟨w.extractLsb' 144 48,
   w.extractLsb' 96 48,
   w.extractLsb' 64 32⟩

/-- Bits of the word that no field names (R40): R274, CPY. -/
def cpyMbz : CWord := 0x000300000000000000000000000000000000000000000000ffffffffffffffff#256

/-- Bits of a body from its fields: R274, CPY. -/
def cpyBits (c : CpyCmd) : CWord :=
  (c.dst.setWidth 256 <<< 144) |||
  (c.src.setWidth 256 <<< 96) |||
  (c.len.setWidth 256 <<< 64)

/-- Fields of a body: R274, CPY2 (strides signed). -/
def cpy2Of (w : CWord) : Cpy2Cmd :=
  ⟨w.extractLsb' 144 48,
   w.extractLsb' 96 48,
   w.extractLsb' 72 24,
   w.extractLsb' 48 24,
   w.extractLsb' 32 16,
   w.extractLsb' 12 20⟩

/-- Bits of the word that no field names (R40): R274, CPY2 (strides signed). -/
def cpy2Mbz : CWord := 0x0003000000000000000000000000000000000000000000000000000000000fff#256

/-- Bits of a body from its fields: R274, CPY2 (strides signed). -/
def cpy2Bits (c : Cpy2Cmd) : CWord :=
  (c.dst.setWidth 256 <<< 144) |||
  (c.src.setWidth 256 <<< 96) |||
  (c.dstride.setWidth 256 <<< 72) |||
  (c.sstride.setWidth 256 <<< 48) |||
  (c.nrows.setWidth 256 <<< 32) |||
  (c.rowlen.setWidth 256 <<< 12)

/-- Fields of a body: R274, GATH. -/
def gathOf (w : CWord) : GathCmd :=
  ⟨w.extractLsb' 144 48,
   w.extractLsb' 96 48,
   w.extractLsb' 48 48,
   w.extractLsb' 32 16,
   w.extractLsb' 31 1,
   w.extractLsb' 10 20⟩

/-- Bits of the word that no field names (R40): R274, GATH. -/
def gathMbz : CWord := 0x00030000000000000000000000000000000000000000000000000000400003ff#256

/-- Bits of a body from its fields: R274, GATH. -/
def gathBits (c : GathCmd) : CWord :=
  (c.dst.setWidth 256 <<< 144) |||
  (c.tbl.setWidth 256 <<< 96) |||
  (c.idx.setWidth 256 <<< 48) |||
  (c.nidx.setWidth 256 <<< 32) |||
  (c.iw.setWidth 256 <<< 31) |||
  (c.rowlen.setWidth 256 <<< 10)

/-- Fields of a body: R274, SCAT. -/
def scatOf (w : CWord) : ScatCmd :=
  ⟨w.extractLsb' 144 48,
   w.extractLsb' 96 48,
   w.extractLsb' 48 48,
   w.extractLsb' 32 16,
   w.extractLsb' 31 1,
   w.extractLsb' 10 20⟩

/-- Bits of the word that no field names (R40): R274, SCAT. -/
def scatMbz : CWord := 0x00030000000000000000000000000000000000000000000000000000400003ff#256

/-- Bits of a body from its fields: R274, SCAT. -/
def scatBits (c : ScatCmd) : CWord :=
  (c.tbl.setWidth 256 <<< 144) |||
  (c.src.setWidth 256 <<< 96) |||
  (c.idx.setWidth 256 <<< 48) |||
  (c.nidx.setWidth 256 <<< 32) |||
  (c.iw.setWidth 256 <<< 31) |||
  (c.rowlen.setWidth 256 <<< 10)

/-- Fields of a body: R274, FILL. -/
def fillOf (w : CWord) : FillCmd :=
  ⟨w.extractLsb' 144 48,
   w.extractLsb' 112 32,
   w.extractLsb' 0 64⟩

/-- Bits of the word that no field names (R40): R274, FILL. -/
def fillMbz : CWord := 0x000300000000000000000000000000000000ffffffffffff0000000000000000#256

/-- Bits of a body from its fields: R274, FILL. -/
def fillBits (c : FillCmd) : CWord :=
  (c.dst.setWidth 256 <<< 144) |||
  (c.len.setWidth 256 <<< 112) |||
  (c.pattern.setWidth 256 <<< 0)

/-- Fields of a body: R276, the body shared by CALLR, CAGTH and CRSCT. -/
def collOf (w : CWord) : CollCmd :=
  ⟨w.extractLsb' 144 48,
   w.extractLsb' 96 48,
   w.extractLsb' 80 16,
   w.extractLsb' 48 32,
   w.extractLsb' 20 28,
   w.extractLsb' 15 5,
   w.extractLsb' 12 3⟩

/-- Bits of the word that no field names (R40): R276, the body shared by CALLR, CAGTH and CRSCT. -/
def collMbz : CWord := 0x0003000000000000000000000000000000000000000000000000000000000fff#256

/-- Bits of a body from its fields: R276, the body shared by CALLR, CAGTH and CRSCT. -/
def collBits (c : CollCmd) : CWord :=
  (c.dst.setWidth 256 <<< 144) |||
  (c.src.setWidth 256 <<< 96) |||
  (c.grp.setWidth 256 <<< 80) |||
  (c.seq.setWidth 256 <<< 48) |||
  (c.count.setWidth 256 <<< 20) |||
  (c.fmt.setWidth 256 <<< 15) |||
  (c.op.setWidth 256 <<< 12)

/-- Fields of a body: R282, MMA. -/
def mmaOf (w : CWord) : MmaCmd :=
  ⟨w.extractLsb' 144 48,
   w.extractLsb' 120 24,
   w.extractLsb' 113 7,
   w.extractLsb' 96 17,
   w.extractLsb' 90 6,
   w.extractLsb' 84 6,
   w.extractLsb' 78 6,
   w.extractLsb' 66 12,
   w.extractLsb' 65 1,
   w.extractLsb' 64 1⟩

/-- Bits of the word that no field names (R40): R282, MMA. -/
def mmaMbz : CWord := 0x000300000000000000000000000000000000000000000000ffffffffffffffff#256

/-- Bits of a body from its fields: R282, MMA. -/
def mmaBits (c : MmaCmd) : CWord :=
  (c.aaddr.setWidth 256 <<< 144) |||
  (c.astride.setWidth 256 <<< 120) |||
  (c.ct.setWidth 256 <<< 113) |||
  (c.boff.setWidth 256 <<< 96) |||
  (c.bcol.setWidth 256 <<< 90) |||
  (c.m1.setWidth 256 <<< 84) |||
  (c.n1.setWidth 256 <<< 78) |||
  (c.g.setWidth 256 <<< 66) |||
  (c.ck.setWidth 256 <<< 65) |||
  (c.zc.setWidth 256 <<< 64)

/-- Fields of a body: R282, MMAP. -/
def mmapOf (w : CWord) : MmapCmd :=
  ⟨w.extractLsb' 144 48,
   w.extractLsb' 120 24,
   w.extractLsb' 113 7,
   w.extractLsb' 96 17,
   w.extractLsb' 90 6,
   w.extractLsb' 84 6,
   w.extractLsb' 78 6,
   w.extractLsb' 66 12,
   w.extractLsb' 65 1,
   w.extractLsb' 32 32⟩

/-- Bits of the word that no field names (R40): R282, MMAP. -/
def mmapMbz : CWord := 0x00030000000000000000000000000000000000000000000100000000ffffffff#256

/-- Bits of a body from its fields: R282, MMAP. -/
def mmapBits (c : MmapCmd) : CWord :=
  (c.aaddr.setWidth 256 <<< 144) |||
  (c.astride.setWidth 256 <<< 120) |||
  (c.ct.setWidth 256 <<< 113) |||
  (c.boff.setWidth 256 <<< 96) |||
  (c.bcol.setWidth 256 <<< 90) |||
  (c.m1.setWidth 256 <<< 84) |||
  (c.n1.setWidth 256 <<< 78) |||
  (c.g.setWidth 256 <<< 66) |||
  (c.init.setWidth 256 <<< 65) |||
  (c.iv.setWidth 256 <<< 32)

/-- Fields of a body: R282, BLOAD. -/
def bloadOf (w : CWord) : BloadCmd :=
  ⟨w.extractLsb' 144 48,
   w.extractLsb' 120 24,
   w.extractLsb' 103 17,
   w.extractLsb' 97 6,
   w.extractLsb' 91 6,
   w.extractLsb' 78 13⟩

/-- Bits of the word that no field names (R40): R282, BLOAD. -/
def bloadMbz : CWord := 0x000300000000000000000000000000000000000000003fffffffffffffffffff#256

/-- Bits of a body from its fields: R282, BLOAD. -/
def bloadBits (c : BloadCmd) : CWord :=
  (c.src.setWidth 256 <<< 144) |||
  (c.sstride.setWidth 256 <<< 120) |||
  (c.boff.setWidth 256 <<< 103) |||
  (c.bcol.setWidth 256 <<< 97) |||
  (c.n1.setWidth 256 <<< 91) |||
  (c.len32.setWidth 256 <<< 78)

/-- Fields of a body: R282, MRED. -/
def mredOf (w : CWord) : MredCmd :=
  ⟨w.extractLsb' 144 48,
   w.extractLsb' 120 24,
   w.extractLsb' 113 7,
   w.extractLsb' 110 3,
   w.extractLsb' 103 7,
   w.extractLsb' 96 7,
   w.extractLsb' 89 7,
   w.extractLsb' 82 7,
   w.extractLsb' 76 6,
   w.extractLsb' 70 6,
   w.extractLsb' 68 2⟩

/-- Bits of the word that no field names (R40): R282, MRED. -/
def mredMbz : CWord := 0x00030000000000000000000000000000000000000000000fffffffffffffffff#256

/-- Bits of a body from its fields: R282, MRED. -/
def mredBits (c : MredCmd) : CWord :=
  (c.maddr.setWidth 256 <<< 144) |||
  (c.mstride.setWidth 256 <<< 120) |||
  (c.dt.setWidth 256 <<< 113) |||
  (c.ns.setWidth 256 <<< 110) |||
  (c.s0.setWidth 256 <<< 103) |||
  (c.s1.setWidth 256 <<< 96) |||
  (c.s2.setWidth 256 <<< 89) |||
  (c.s3.setWidth 256 <<< 82) |||
  (c.m1.setWidth 256 <<< 76) |||
  (c.n1.setWidth 256 <<< 70) |||
  (c.mmode.setWidth 256 <<< 68)

/-- Fields of a body: sparse command bodies, SPMM. -/
def spmmOf (w : CWord) : SpmmCmd :=
  ⟨w.extractLsb' 144 48,
   w.extractLsb' 96 48,
   w.extractLsb' 72 24,
   w.extractLsb' 65 7,
   w.extractLsb' 49 16,
   w.extractLsb' 43 6,
   w.extractLsb' 37 6,
   w.extractLsb' 36 1⟩

/-- Bits of the word that no field names (R40): sparse command bodies, SPMM. -/
def spmmMbz : CWord := 0x0003000000000000000000000000000000000000000000000000000fffffffff#256

/-- Bits of a body from its fields: sparse command bodies, SPMM. -/
def spmmBits (c : SpmmCmd) : CWord :=
  (c.smd.setWidth 256 <<< 144) |||
  (c.xaddr.setWidth 256 <<< 96) |||
  (c.xstride.setWidth 256 <<< 72) |||
  (c.ct.setWidth 256 <<< 65) |||
  (c.row0.setWidth 256 <<< 49) |||
  (c.m1.setWidth 256 <<< 43) |||
  (c.n1.setWidth 256 <<< 37) |||
  (c.zc.setWidth 256 <<< 36)

/-- Fields of a body: sparse command bodies, SDDMM. -/
def sddmmOf (w : CWord) : SddmmCmd :=
  ⟨w.extractLsb' 144 48,
   w.extractLsb' 96 48,
   w.extractLsb' 48 48,
   w.extractLsb' 32 16,
   w.extractLsb' 26 6,
   w.extractLsb' 14 12⟩

/-- Bits of the word that no field names (R40): sparse command bodies, SDDMM. -/
def sddmmMbz : CWord := 0x0003000000000000000000000000000000000000000000000000000000003fff#256

/-- Bits of a body from its fields: sparse command bodies, SDDMM. -/
def sddmmBits (c : SddmmCmd) : CWord :=
  (c.smd.setWidth 256 <<< 144) |||
  (c.paddr.setWidth 256 <<< 96) |||
  (c.qaddr.setWidth 256 <<< 48) |||
  (c.row0.setWidth 256 <<< 32) |||
  (c.m1.setWidth 256 <<< 26) |||
  (c.g.setWidth 256 <<< 14)

/-- Fields of a body: sparse command bodies, SPGATH. -/
def spgathOf (w : CWord) : SpgathCmd :=
  ⟨w.extractLsb' 144 48,
   w.extractLsb' 96 48,
   w.extractLsb' 48 48,
   w.extractLsb' 32 16,
   w.extractLsb' 31 1,
   w.extractLsb' 18 13⟩

/-- Bits of the word that no field names (R40): sparse command bodies, SPGATH. -/
def spgathMbz : CWord := 0x000300000000000000000000000000000000000000000000000000000003ffff#256

/-- Bits of a body from its fields: sparse command bodies, SPGATH. -/
def spgathBits (c : SpgathCmd) : CWord :=
  (c.dst.setWidth 256 <<< 144) |||
  (c.tbl.setWidth 256 <<< 96) |||
  (c.idx.setWidth 256 <<< 48) |||
  (c.nidx.setWidth 256 <<< 32) |||
  (c.iw.setWidth 256 <<< 31) |||
  (c.rowlen.setWidth 256 <<< 18)

/-- Fields of a body: sparse command bodies, SEGRED. -/
def segredOf (w : CWord) : SegredCmd :=
  ⟨w.extractLsb' 144 48,
   w.extractLsb' 96 48,
   w.extractLsb' 48 48,
   w.extractLsb' 32 16,
   w.extractLsb' 19 13,
   w.extractLsb' 16 3⟩

/-- Bits of the word that no field names (R40): sparse command bodies, SEGRED. -/
def segredMbz : CWord := 0x000300000000000000000000000000000000000000000000000000000000ffff#256

/-- Bits of a body from its fields: sparse command bodies, SEGRED. -/
def segredBits (c : SegredCmd) : CWord :=
  (c.keys.setWidth 256 <<< 144) |||
  (c.vals.setWidth 256 <<< 96) |||
  (c.dst.setWidth 256 <<< 48) |||
  (c.n.setWidth 256 <<< 32) |||
  (c.rowlen.setWidth 256 <<< 19) |||
  (c.op.setWidth 256 <<< 16)

/-- Fields of a body: sparse command bodies, SORTKV. -/
def sortkvOf (w : CWord) : SortkvCmd :=
  ⟨w.extractLsb' 144 48,
   w.extractLsb' 96 48,
   w.extractLsb' 83 13,
   w.extractLsb' 81 2,
   w.extractLsb' 80 1⟩

/-- Bits of the word that no field names (R40): sparse command bodies, SORTKV. -/
def sortkvMbz : CWord := 0x00030000000000000000000000000000000000000000ffffffffffffffffffff#256

/-- Bits of a body from its fields: sparse command bodies, SORTKV. -/
def sortkvBits (c : SortkvCmd) : CWord :=
  (c.src.setWidth 256 <<< 144) |||
  (c.dst.setWidth 256 <<< 96) |||
  (c.n.setWidth 256 <<< 83) |||
  (c.kt.setWidth 256 <<< 81) |||
  (c.desc.setWidth 256 <<< 80)

/-- Fields of a body: sparse command bodies, TOPK. -/
def topkOf (w : CWord) : TopkCmd :=
  ⟨w.extractLsb' 144 48,
   w.extractLsb' 96 48,
   w.extractLsb' 48 48,
   w.extractLsb' 32 16,
   w.extractLsb' 19 13,
   w.extractLsb' 12 7⟩

/-- Bits of the word that no field names (R40): sparse command bodies, TOPK. -/
def topkMbz : CWord := 0x0003000000000000000000000000000000000000000000000000000000000fff#256

/-- Bits of a body from its fields: sparse command bodies, TOPK. -/
def topkBits (c : TopkCmd) : CWord :=
  (c.src.setWidth 256 <<< 144) |||
  (c.oidx.setWidth 256 <<< 96) |||
  (c.oval.setWidth 256 <<< 48) |||
  (c.nrows.setWidth 256 <<< 32) |||
  (c.l.setWidth 256 <<< 19) |||
  (c.k.setWidth 256 <<< 12)

/-- Fields of a body: attention command bodies, ATTN and ADEC. -/
def attnOf (w : CWord) : AttnCmd :=
  ⟨w.extractLsb' 144 48,
   w.extractLsb' 96 48,
   w.extractLsb' 48 48,
   w.extractLsb' 40 8,
   w.extractLsb' 34 6,
   w.extractLsb' 10 24,
   w.extractLsb' 9 1⟩

/-- Bits of the word that no field names (R40): attention command bodies, ATTN and ADEC. -/
def attnMbz : CWord := 0x00030000000000000000000000000000000000000000000000000000000001ff#256

/-- Bits of a body from its fields: attention command bodies, ATTN and ADEC. -/
def attnBits (c : AttnCmd) : CWord :=
  (c.adesc.setWidth 256 <<< 144) |||
  (c.qaddr.setWidth 256 <<< 96) |||
  (c.oaddr.setWidth 256 <<< 48) |||
  (c.layer.setWidth 256 <<< 40) |||
  (c.nq1.setWidth 256 <<< 34) |||
  (c.qpos.setWidth 256 <<< 10) |||
  (c.causal.setWidth 256 <<< 9)

/-- Fields of a body: attention command bodies, KVAPP. -/
def kvappOf (w : CWord) : KvappCmd :=
  ⟨w.extractLsb' 144 48,
   w.extractLsb' 96 48,
   w.extractLsb' 48 48,
   w.extractLsb' 40 8,
   w.extractLsb' 28 12,
   w.extractLsb' 23 5,
   w.extractLsb' 17 6,
   w.extractLsb' 16 1,
   w.extractLsb' 15 1⟩

/-- Bits of the word that no field names (R40): attention command bodies, KVAPP. -/
def kvappMbz : CWord := 0x0003000000000000000000000000000000000000000000000000000000007fff#256

/-- Bits of a body from its fields: attention command bodies, KVAPP. -/
def kvappBits (c : KvappCmd) : CWord :=
  (c.adesc.setWidth 256 <<< 144) |||
  (c.ksrc.setWidth 256 <<< 96) |||
  (c.vsrc.setWidth 256 <<< 48) |||
  (c.layer.setWidth 256 <<< 40) |||
  (c.entry.setWidth 256 <<< 28) |||
  (c.slot0.setWidth 256 <<< 23) |||
  (c.nt.setWidth 256 <<< 17) |||
  (c.rot.setWidth 256 <<< 16) |||
  (c.ext.setWidth 256 <<< 15)

/-- Fields of a body: attention command bodies, KVDEV. -/
def kvdevOf (w : CWord) : KvdevCmd :=
  ⟨w.extractLsb' 144 48,
   w.extractLsb' 96 48,
   w.extractLsb' 48 48,
   w.extractLsb' 36 12,
   w.extractLsb' 31 5,
   w.extractLsb' 25 6⟩

/-- Bits of the word that no field names (R40): attention command bodies, KVDEV. -/
def kvdevMbz : CWord := 0x0003000000000000000000000000000000000000000000000000000001ffffff#256

/-- Bits of a body from its fields: attention command bodies, KVDEV. -/
def kvdevBits (c : KvdevCmd) : CWord :=
  (c.adesc.setWidth 256 <<< 144) |||
  (c.fresh.setWidth 256 <<< 96) |||
  (c.devout.setWidth 256 <<< 48) |||
  (c.entry.setWidth 256 <<< 36) |||
  (c.slot0.setWidth 256 <<< 31) |||
  (c.nt.setWidth 256 <<< 25)

/-- Fields of a body: attention command bodies, AROT. -/
def arotOf (w : CWord) : ArotCmd :=
  ⟨w.extractLsb' 144 48,
   w.extractLsb' 120 24,
   w.extractLsb' 96 24,
   w.extractLsb' 80 16,
   w.extractLsb' 71 9,
   w.extractLsb' 65 6⟩

/-- Bits of the word that no field names (R40): attention command bodies, AROT. -/
def arotMbz : CWord := 0x000300000000000000000000000000000000000000000001ffffffffffffffff#256

/-- Bits of a body from its fields: attention command bodies, AROT. -/
def arotBits (c : ArotCmd) : CWord :=
  (c.addr.setWidth 256 <<< 144) |||
  (c.stride.setWidth 256 <<< 120) |||
  (c.pos0.setWidth 256 <<< 96) |||
  (c.nrows.setWidth 256 <<< 80) |||
  (c.dh.setWidth 256 <<< 71) |||
  (c.nh1.setWidth 256 <<< 65)

/-- Fields of a body: R317, the body shared by VBIN, VUN, VFMA and VSEL. -/
def veltOf (w : CWord) : VeltCmd :=
  ⟨w.extractLsb' 144 48,
   w.extractLsb' 96 48,
   w.extractLsb' 48 48,
   w.extractLsb' 24 24,
   w.extractLsb' 18 6,
   w.extractLsb' 17 1⟩

/-- Bits of the word that no field names (R40): R317, the body shared by VBIN, VUN, VFMA and VSEL. -/
def veltMbz : CWord := 0x000300000000000000000000000000000000000000000000000000000001ffff#256

/-- Bits of a body from its fields: R317, the body shared by VBIN, VUN, VFMA and VSEL. -/
def veltBits (c : VeltCmd) : CWord :=
  (c.dst.setWidth 256 <<< 144) |||
  (c.a.setWidth 256 <<< 96) |||
  (c.b.setWidth 256 <<< 48) |||
  (c.n.setWidth 256 <<< 24) |||
  (c.op.setWidth 256 <<< 18) |||
  (c.bs.setWidth 256 <<< 17)

/-- Fields of a body: R321, VRED. -/
def vredOf (w : CWord) : VredCmd :=
  ⟨w.extractLsb' 144 48,
   w.extractLsb' 96 48,
   w.extractLsb' 72 24,
   w.extractLsb' 48 24,
   w.extractLsb' 32 16,
   w.extractLsb' 29 3⟩

/-- Bits of the word that no field names (R40): R321, VRED. -/
def vredMbz : CWord := 0x000300000000000000000000000000000000000000000000000000001fffffff#256

/-- Bits of a body from its fields: R321, VRED. -/
def vredBits (c : VredCmd) : CWord :=
  (c.dst.setWidth 256 <<< 144) |||
  (c.src.setWidth 256 <<< 96) |||
  (c.sstride.setWidth 256 <<< 72) |||
  (c.n.setWidth 256 <<< 48) |||
  (c.nrows.setWidth 256 <<< 32) |||
  (c.op.setWidth 256 <<< 29)

/-- Fields of a body: R322, VSCAN. -/
def vscanOf (w : CWord) : VscanCmd :=
  ⟨w.extractLsb' 144 48,
   w.extractLsb' 96 48,
   w.extractLsb' 72 24,
   w.extractLsb' 69 3,
   w.extractLsb' 68 1⟩

/-- Bits of the word that no field names (R40): R322, VSCAN. -/
def vscanMbz : CWord := 0x00030000000000000000000000000000000000000000000fffffffffffffffff#256

/-- Bits of a body from its fields: R322, VSCAN. -/
def vscanBits (c : VscanCmd) : CWord :=
  (c.dst.setWidth 256 <<< 144) |||
  (c.src.setWidth 256 <<< 96) |||
  (c.n.setWidth 256 <<< 72) |||
  (c.op.setWidth 256 <<< 69) |||
  (c.excl.setWidth 256 <<< 68)

/-- Fields of a body: R323, VCVT. -/
def vcvtOf (w : CWord) : VcvtCmd :=
  ⟨w.extractLsb' 144 48,
   w.extractLsb' 96 48,
   w.extractLsb' 72 24,
   w.extractLsb' 48 24⟩

/-- Bits of the word that no field names (R40): R323, VCVT. -/
def vcvtMbz : CWord := 0x0003000000000000000000000000000000000000000000000000ffffffffffff#256

/-- Bits of a body from its fields: R323, VCVT. -/
def vcvtBits (c : VcvtCmd) : CWord :=
  (c.dst.setWidth 256 <<< 144) |||
  (c.src.setWidth 256 <<< 96) |||
  (c.rowlen.setWidth 256 <<< 72) |||
  (c.nrows.setWidth 256 <<< 48)

/-- Fields of a body: R324, VNORM. -/
def vnormOf (w : CWord) : VnormCmd :=
  ⟨w.extractLsb' 144 48,
   w.extractLsb' 96 48,
   w.extractLsb' 48 48,
   w.extractLsb' 35 13,
   w.extractLsb' 19 16,
   w.extractLsb' 18 1⟩

/-- Bits of the word that no field names (R40): R324, VNORM. -/
def vnormMbz : CWord := 0x000300000000000000000000000000000000000000000000000000000003ffff#256

/-- Bits of a body from its fields: R324, VNORM. -/
def vnormBits (c : VnormCmd) : CWord :=
  (c.dst.setWidth 256 <<< 144) |||
  (c.src.setWidth 256 <<< 96) |||
  (c.prm.setWidth 256 <<< 48) |||
  (c.n.setWidth 256 <<< 35) |||
  (c.nrows.setWidth 256 <<< 19) |||
  (c.mode.setWidth 256 <<< 18)

/-- Fields of a body: R325, VTRN. -/
def vtrnOf (w : CWord) : VtrnCmd :=
  ⟨w.extractLsb' 144 48,
   w.extractLsb' 96 48,
   w.extractLsb' 80 16,
   w.extractLsb' 64 16,
   w.extractLsb' 40 24,
   w.extractLsb' 16 24⟩

/-- Bits of the word that no field names (R40): R325, VTRN. -/
def vtrnMbz : CWord := 0x000300000000000000000000000000000000000000000000000000000000ffff#256

/-- Bits of a body from its fields: R325, VTRN. -/
def vtrnBits (c : VtrnCmd) : CWord :=
  (c.dst.setWidth 256 <<< 144) |||
  (c.src.setWidth 256 <<< 96) |||
  (c.rows.setWidth 256 <<< 80) |||
  (c.cols.setWidth 256 <<< 64) |||
  (c.sstride.setWidth 256 <<< 40) |||
  (c.dstride.setWidth 256 <<< 16)

/-- Fields of a body: R326, VIDX. -/
def vidxOf (w : CWord) : VidxCmd :=
  ⟨w.extractLsb' 144 48,
   w.extractLsb' 96 48,
   w.extractLsb' 64 32,
   w.extractLsb' 32 32,
   w.extractLsb' 8 24,
   w.extractLsb' 6 2⟩

/-- Bits of the word that no field names (R40): R326, VIDX. -/
def vidxMbz : CWord := 0x000300000000000000000000000000000000000000000000000000000000003f#256

/-- Bits of a body from its fields: R326, VIDX. -/
def vidxBits (c : VidxCmd) : CWord :=
  (c.dst.setWidth 256 <<< 144) |||
  (c.src.setWidth 256 <<< 96) |||
  (c.base.setWidth 256 <<< 64) |||
  (c.step.setWidth 256 <<< 32) |||
  (c.n.setWidth 256 <<< 8) |||
  (c.mode.setWidth 256 <<< 6)

/-- The KIND that the EOP map gives an EOP (R41), none for an EOP that is absent. -/
def kindOfEop (e : Nat) : Option Nat :=
  if 0x01 ≤ e && e ≤ 0x05 then some 0
  else if 0x10 ≤ e && e ≤ 0x13 then some 1
  else if 0x20 ≤ e && e ≤ 0x25 then some 2
  else if 0x30 ≤ e && e ≤ 0x34 then some 3
  else if 0x40 ≤ e && e ≤ 0x49 then some 4
  else if 0x50 ≤ e && e ≤ 0x52 then some 5
  else none

/-- Accept a command whose reserved and must-be-zero bits are zero (R42 step 3, R269). -/
def needClear (mbz : CWord) (w : CWord) (i : Instr) : Except DecodeError Instr :=
  if (w &&& mbz) == 0 && (cEnv w).wf then .ok i else .error .commandMbz

/-- The first three dequeue checks of R42 and the fields of the body. -/
def decodeCmd (w : CWord) : Except DecodeError Instr :=
  let e := cEnv w
  match kindOfEop (cEop w) with
  | none => .error .unknownEop
  | some k =>
    if cKind w == k then
      match cEop w with
      | 0x01 => needClear cpyMbz w (.cpy e (cpyOf w))
      | 0x02 => needClear cpy2Mbz w (.cpy2 e (cpy2Of w))
      | 0x03 => needClear gathMbz w (.gath e (gathOf w))
      | 0x04 => needClear scatMbz w (.scat e (scatOf w))
      | 0x05 => needClear fillMbz w (.fill e (fillOf w))
      | 0x50 => needClear collMbz w (.callr e (collOf w))
      | 0x51 => needClear collMbz w (.cagth e (collOf w))
      | 0x52 => needClear collMbz w (.crsct e (collOf w))
      | 0x10 => needClear mmaMbz w (.mma e (mmaOf w))
      | 0x11 => needClear mmapMbz w (.mmap e (mmapOf w))
      | 0x12 => needClear bloadMbz w (.bload e (bloadOf w))
      | 0x13 => needClear mredMbz w (.mred e (mredOf w))
      | 0x20 => needClear spmmMbz w (.spmm e (spmmOf w))
      | 0x21 => needClear sddmmMbz w (.sddmm e (sddmmOf w))
      | 0x22 => needClear spgathMbz w (.spgath e (spgathOf w))
      | 0x23 => needClear segredMbz w (.segred e (segredOf w))
      | 0x24 => needClear sortkvMbz w (.sortkv e (sortkvOf w))
      | 0x25 => needClear topkMbz w (.topk e (topkOf w))
      | 0x30 => needClear attnMbz w (.attn e (attnOf w))
      | 0x31 => needClear attnMbz w (.adec e (attnOf w))
      | 0x32 => needClear kvappMbz w (.kvapp e (kvappOf w))
      | 0x33 => needClear kvdevMbz w (.kvdev e (kvdevOf w))
      | 0x34 => needClear arotMbz w (.arot e (arotOf w))
      | 0x40 => needClear veltMbz w (.vbin e (veltOf w))
      | 0x41 => needClear veltMbz w (.vun e (veltOf w))
      | 0x42 => needClear veltMbz w (.vfma e (veltOf w))
      | 0x43 => needClear vredMbz w (.vred e (vredOf w))
      | 0x44 => needClear vscanMbz w (.vscan e (vscanOf w))
      | 0x45 => needClear vcvtMbz w (.vcvt e (vcvtOf w))
      | 0x46 => needClear veltMbz w (.vsel e (veltOf w))
      | 0x47 => needClear vnormMbz w (.vnorm e (vnormOf w))
      | 0x48 => needClear vtrnMbz w (.vtrn e (vtrnOf w))
      | 0x49 => needClear vidxMbz w (.vidx e (vidxOf w))
      | _ => .error .unknownEop
    else .error .wrongKind

/-! ### Bytes -/

/-- Four bytes, lowest address first, as a word (R24). -/
def wordOfBytes (b0 b1 b2 b3 : Byte) : IWord := b3 ++ b2 ++ b1 ++ b0

/-- Decode the first instruction of a byte sequence; the rest of the sequence comes back. -/
def decodeBytes : List Byte → Except DecodeError (Instr × List Byte)
  | b0 :: b1 :: b2 :: b3 :: rest =>
    match decodeWord (wordOfBytes b0 b1 b2 b3) with
    | .ok i => .ok (i, rest)
    | .error e => .error e
  | _ => .error .tooShort

/-- The instruction of an opcode-table word: bit 0 is the least significant bit of the first word. A scalar row
has 32 bits; a command word has 256, laid out from the lowest byte (R24, R40). -/
def decodeTableWord (nbits w : Nat) : Option Instr :=
  if nbits ≤ 32 then
    let v := BitVec.ofNat 32 w
    match decodeBytes [v.extractLsb' 0 8, v.extractLsb' 8 8, v.extractLsb' 16 8, v.extractLsb' 24 8] with
    | .ok (i, _) => some i
    | .error _ => none
  else if nbits ≤ 256 then
    match decodeCmd (BitVec.ofNat 256 w) with
    | .ok i => some i
    | .error _ => none
  else none

/-! ### The encoder -/

/-- F-R (R25). -/
def encR (op : BitVec 6) (d a b : Reg) (fn : BitVec 10) (x : Reg) : IWord := op ++ d ++ a ++ b ++ fn ++ x
/-- F-I (R25). -/
def encI (op : BitVec 6) (d a : Reg) (imm : BitVec 18) : IWord := op ++ d ++ a ++ imm
/-- F-M (R25). -/
def encM (op : BitVec 6) (d a : Reg) (sz ord : BitVec 2) (off : BitVec 14) : IWord := op ++ d ++ a ++ sz ++ ord ++ off
/-- F-B (R25). -/
def encB (op : BitVec 6) (a b : Reg) (cond : BitVec 3) (off : BitVec 15) : IWord := op ++ a ++ b ++ cond ++ off
/-- F-J and F-U (R25). -/
def encJ (op : BitVec 6) (d : Reg) (imm : BitVec 22) : IWord := op ++ d ++ imm

/-- The sz code (R32). -/
def Size.code : Size → BitVec 2
  | .b => 0
  | .h => 1
  | .w => 2
  | .d => 3

def SrcWidth.code : SrcWidth → Reg
  | .b => 0
  | .h => 1
  | .w => 2

def AmoOrd.code : AmoOrd → BitVec 2
  | .plain => 0
  | .acq => 1
  | .rel => 2
  | .ar => 3

def Scope.code : Scope → BitVec 4
  | .tile => 0
  | .seg => 1
  | .mod => 2
  | .panel => 3
  | .sys => 4

def Prec.code : Prec → BitVec 1
  | .s => 0
  | .d => 1

def IntTy.code : IntTy → BitVec 2
  | .w => 0
  | .wu => 1
  | .l => 2
  | .lu => 3

def Rm.code : Rm → BitVec 2
  | .rne => 0
  | .rtz => 1
  | .rdn => 2
  | .rup => 3

/-- fn of an AMO (R33). -/
def AmoForm.fn (f : AmoForm) (op : BitVec 4) : BitVec 10 :=
  (0 : BitVec 1) ++ f.size.code ++ BitVec.ofBool f.trig ++ f.ord.code ++ op

/-- The word of an AMO (R33). -/
def encAmo (f : AmoForm) (op : BitVec 4) (x : Reg) : IWord := encR 0x18 f.d f.a f.b (f.fn op) x

/-- fn of an FP operation (R36). -/
def fpFn (op : BitVec 9) (p : Prec) : BitVec 10 := op ++ p.code

/-- fn of an FMA operation (R36). -/
def fmaFn (p : Prec) (op : BitVec 2) : BitVec 10 := (0 : BitVec 7) ++ p.code ++ op

/-- FENCE (R34). -/
def encFence (s : Scope) (kind : BitVec 4) : IWord := encI 0x19 0 0 ((0 : BitVec 10) ++ s.code ++ kind)

/-- SHI (R30). -/
def encShi (d a : Reg) (kind : BitVec 2) (sh : BitVec 6) : IWord := encI 0x08 d a (kind ++ (0 : BitVec 10) ++ sh)

/-- CSR (R38). -/
def encCsr (d a : Reg) (op : BitVec 2) (csr : BitVec 12) : IWord := encI 0x29 d a (op ++ (0 : BitVec 4) ++ csr)

/-- The word of a scalar instruction; none for a command or an event. -/
def encodeWord : Instr → Option IWord
  | .add d a b => some (encR 0x01 d a b 0x000 0)
  | .sub d a b => some (encR 0x01 d a b 0x001 0)
  | .and d a b => some (encR 0x01 d a b 0x002 0)
  | .or d a b => some (encR 0x01 d a b 0x003 0)
  | .xor d a b => some (encR 0x01 d a b 0x004 0)
  | .andn d a b => some (encR 0x01 d a b 0x005 0)
  | .orn d a b => some (encR 0x01 d a b 0x006 0)
  | .sll d a b => some (encR 0x01 d a b 0x007 0)
  | .srl d a b => some (encR 0x01 d a b 0x008 0)
  | .sra d a b => some (encR 0x01 d a b 0x009 0)
  | .slt d a b => some (encR 0x01 d a b 0x00A 0)
  | .sltu d a b => some (encR 0x01 d a b 0x00B 0)
  | .min d a b => some (encR 0x01 d a b 0x00C 0)
  | .max d a b => some (encR 0x01 d a b 0x00D 0)
  | .minu d a b => some (encR 0x01 d a b 0x00E 0)
  | .maxu d a b => some (encR 0x01 d a b 0x00F 0)
  | .addw d a b => some (encR 0x01 d a b 0x010 0)
  | .subw d a b => some (encR 0x01 d a b 0x011 0)
  | .sllw d a b => some (encR 0x01 d a b 0x012 0)
  | .srlw d a b => some (encR 0x01 d a b 0x013 0)
  | .sraw d a b => some (encR 0x01 d a b 0x014 0)
  | .clz d a => some (encR 0x01 d a 0 0x020 0)
  | .ctz d a => some (encR 0x01 d a 0 0x021 0)
  | .popc d a => some (encR 0x01 d a 0 0x022 0)
  | .brev d a => some (encR 0x01 d a 0 0x025 0)
  | .sext d a x => some (encR 0x01 d a 0 0x023 x.code)
  | .zext d a x => some (encR 0x01 d a 0 0x024 x.code)
  | .addi d a imm => some (encI 0x02 d a imm)
  | .andi d a imm => some (encI 0x03 d a imm)
  | .ori d a imm => some (encI 0x04 d a imm)
  | .xori d a imm => some (encI 0x05 d a imm)
  | .slti d a imm => some (encI 0x06 d a imm)
  | .sltiu d a imm => some (encI 0x07 d a imm)
  | .addiw d a imm => some (encI 0x09 d a imm)
  | .jalr d a imm => some (encI 0x12 d a imm)
  | .slli d a sh => some (encShi d a 0 sh)
  | .srli d a sh => some (encShi d a 1 sh)
  | .srai d a sh => some (encShi d a 2 sh)
  | .lui d imm => some (encJ 0x0A d imm)
  | .auipc d imm => some (encJ 0x0B d imm)
  | .jal d imm => some (encJ 0x11 d imm)
  | .mul d a b => some (encR 0x0C d a b 0 0)
  | .mulh d a b => some (encR 0x0C d a b 1 0)
  | .mulhu d a b => some (encR 0x0C d a b 2 0)
  | .mulhsu d a b => some (encR 0x0C d a b 3 0)
  | .div d a b => some (encR 0x0C d a b 4 0)
  | .divu d a b => some (encR 0x0C d a b 5 0)
  | .rem d a b => some (encR 0x0C d a b 6 0)
  | .remu d a b => some (encR 0x0C d a b 7 0)
  | .beq a b off => some (encB 0x10 a b 0 off)
  | .bne a b off => some (encB 0x10 a b 1 off)
  | .blt a b off => some (encB 0x10 a b 2 off)
  | .bge a b off => some (encB 0x10 a b 3 off)
  | .bltu a b off => some (encB 0x10 a b 4 off)
  | .bgeu a b off => some (encB 0x10 a b 5 off)
  | .ld d a sz off => some (encM 0x14 d a sz.code 0 off)
  | .ldAcq d a sz off => some (encM 0x14 d a sz.code 1 off)
  | .ldu d a sz off => some (encM 0x15 d a sz.code 0 off)
  | .lduAcq d a sz off => some (encM 0x15 d a sz.code 1 off)
  | .st d a sz off => some (encM 0x16 d a sz.code 0 off)
  | .stRel d a sz off => some (encM 0x16 d a sz.code 2 off)
  | .ldf d a => some (encR 0x17 d a 0 0 0)
  | .stf a b => some (encR 0x17 0 a b 1 0)
  | .sete a => some (encR 0x17 0 a 0 2 0)
  | .waita d a b x => some (encR 0x17 d a b 3 x)
  | .amoSwap f => some (encAmo f 0 0)
  | .amoAdd f => some (encAmo f 1 0)
  | .amoAnd f => some (encAmo f 2 0)
  | .amoOr f => some (encAmo f 3 0)
  | .amoXor f => some (encAmo f 4 0)
  | .amoMin f => some (encAmo f 5 0)
  | .amoMax f => some (encAmo f 6 0)
  | .amoMinu f => some (encAmo f 7 0)
  | .amoMaxu f => some (encAmo f 8 0)
  | .amoCas f x => some (encAmo f 9 x)
  | .fenceAcq s => some (encFence s 1)
  | .fenceRel s => some (encFence s 2)
  | .fenceFull s => some (encFence s 3)
  | .hld d a sz => some (encR 0x1A d a 0 0 ((0 : BitVec 2) ++ sz.code))
  | .hst a b sz => some (encR 0x1A 0 a b 1 ((0 : BitVec 2) ++ sz.code))
  | .fadd p d a b => some (encR 0x20 d a b (fpFn 0 p) 0)
  | .fsub p d a b => some (encR 0x20 d a b (fpFn 1 p) 0)
  | .fmul p d a b => some (encR 0x20 d a b (fpFn 2 p) 0)
  | .fdiv p d a b => some (encR 0x20 d a b (fpFn 3 p) 0)
  | .fsqrt p d a => some (encR 0x20 d a 0 (fpFn 4 p) 0)
  | .fmin p d a b => some (encR 0x20 d a b (fpFn 5 p) 0)
  | .fmax p d a b => some (encR 0x20 d a b (fpFn 6 p) 0)
  | .fsgnj p d a b => some (encR 0x20 d a b (fpFn 7 p) 0)
  | .fsgnjn p d a b => some (encR 0x20 d a b (fpFn 8 p) 0)
  | .feq p d a b => some (encR 0x20 d a b (fpFn 9 p) 0)
  | .flt p d a b => some (encR 0x20 d a b (fpFn 10 p) 0)
  | .fle p d a b => some (encR 0x20 d a b (fpFn 11 p) 0)
  | .fclass p d a => some (encR 0x20 d a 0 (fpFn 12 p) 0)
  | .fcvtI p d a ty rm => some (encR 0x20 d a 0 (fpFn 13 p) (ty.code ++ rm.code))
  | .fcvtF p d a ty => some (encR 0x20 d a 0 (fpFn 14 p) (ty.code ++ (0 : BitVec 2)))
  | .fcvtSd p d a => some (encR 0x20 d a 0 (fpFn 15 p) 0)
  | .fmadd p d a b x => some (encR 0x21 d a b (fmaFn p 0) x)
  | .fmsub p d a b x => some (encR 0x21 d a b (fmaFn p 1) x)
  | .fnmadd p d a b x => some (encR 0x21 d a b (fmaFn p 2) x)
  | .fnmsub p d a b x => some (encR 0x21 d a b (fmaFn p 3) x)
  | .spawn d a b => some (encR 0x24 d a b 0 0)
  | .spawna d a => some (encR 0x24 d a 0 1 0)
  | .endp => some (encR 0x24 0 0 0 2 0)
  | .yield => some (encR 0x24 0 0 0 3 0)
  | .join a => some (encR 0x24 0 a 0 4 0)
  | .prio d a => some (encR 0x24 d a 0 5 0)
  | .migrate d a b => some (encR 0x24 d a b 6 0)
  | .self d a => some (encR 0x24 d a 0 7 0)
  | .rgnnew d a => some (encR 0x24 d a 0 8 0)
  | .rgnend d a => some (encR 0x24 d a 0 9 0)
  | .bar d => some (encR 0x24 d 0 0 10 0)
  | .barck d => some (encR 0x24 d 0 0 11 0)
  | .chanOut d a b => some (encR 0x25 d a b 0 0)
  | .chanIn d a b => some (encR 0x25 d a b 1 0)
  | .outw d a b => some (encR 0x25 d a b 2 0)
  | .inw d a => some (encR 0x25 d a 0 3 0)
  | .sel d a b => some (encR 0x25 d a b 4 0)
  | .selF d a b => some (encR 0x25 d a b 4 1)
  | .chinit d a b => some (encR 0x25 d a b 5 0)
  | .chclr d a => some (encR 0x25 d a 0 6 0)
  | .rbinit d a => some (encR 0x26 d a 0 0 0)
  | .rbclaim d a b => some (encR 0x26 d a b 1 0)
  | .rbclaimNb d a b => some (encR 0x26 d a b 1 1)
  | .rbcommit a b => some (encR 0x26 0 a b 2 0)
  | .rbawait d a => some (encR 0x26 d a 0 3 0)
  | .rbawaitNb d a => some (encR 0x26 d a 0 3 1)
  | .rbretire a b => some (encR 0x26 0 a b 4 0)
  | .rbpeek d a b => some (encR 0x26 d a b 5 0)
  | .enq d a b => some (encR 0x27 d a b 0 0)
  | .jwait d a => some (encR 0x27 d a 0 1 0)
  | .jpoll d a => some (encR 0x27 d a 0 2 0)
  | .jdrop d a => some (encR 0x27 d a 0 3 0)
  | .acfg d a => some (encR 0x28 d a 0 0 0)
  | .apf a => some (encR 0x28 0 a 0 1 0)
  | .ard d a => some (encR 0x28 d a 0 2 0)
  | .awr a b => some (encR 0x28 0 a b 3 0)
  | .aclr a => some (encR 0x28 0 a 0 4 0)
  | .csrr d csr => some (encCsr d 0 0 csr)
  | .csrw d a csr => some (encCsr d a 1 csr)
  | .csrs d a csr => some (encCsr d a 2 csr)
  | .csrc d a csr => some (encCsr d a 3 csr)
  | .tkreq d a => some (encR 0x2A d a 0 0 0)
  | .tkrel d => some (encR 0x2A d 0 0 1 0)
  | .tkstat d => some (encR 0x2A d 0 0 2 0)
  | .kmap d a b => some (encR 0x2B d a b 0 0)
  | .kunmap d a b => some (encR 0x2B d a b 1 0)
  | .ksplice d a b => some (encR 0x2B d a b 2 0)
  | .ktag d a b => some (encR 0x2B d a b 3 0)
  | .krepair a b => some (encR 0x2B 0 a b 4 0)
  | .krdone a b => some (encR 0x2B 0 a b 5 0)
  | .cgjoin d a b => some (encR 0x2C d a b 0 0)
  | .cgleave d a b => some (encR 0x2C d a b 1 0)
  | .cgstat d a b => some (encR 0x2C d a b 2 0)
  | .plxl d a => some (encR 0x2C d a 0 3 0)
  | .trap a => some (encR 0x2D 0 a 0 0 0)
  | .brk => some (encR 0x2D 0 0 0 1 0)
  | .wfi => some (encR 0x2D 0 0 0 2 0)
  | .resume d a b => some (encR 0x2D d a b 3 0)
  | .killp d a => some (encR 0x2D d a 0 4 0)
  | .jrnl d a b => some (encR 0x2D d a b 5 0)
  | .rgnsusp d a => some (encR 0x2D d a 0 6 0)
  | .rgnresm d a => some (encR 0x2D d a 0 7 0)
  | _ => none

/-- The envelope of a command word (R40) with the CWA of R269. -/
def encEnv (eop : BitVec 8) (kind : BitVec 3) (e : Envelope) : CWord :=
  (eop ++ kind ++ BitVec.ofBool e.cmpl ++ e.prio ++ (0 : BitVec 2) ++ e.cwa ++ (0 : BitVec 192) : BitVec 256)

/-- The command word of an engine command; none for a scalar instruction or an event. -/
def encodeCmd : Instr → Option CWord
  | .cpy e c => some (encEnv 0x01 0 e ||| cpyBits c)
  | .cpy2 e c => some (encEnv 0x02 0 e ||| cpy2Bits c)
  | .gath e c => some (encEnv 0x03 0 e ||| gathBits c)
  | .scat e c => some (encEnv 0x04 0 e ||| scatBits c)
  | .fill e c => some (encEnv 0x05 0 e ||| fillBits c)
  | .callr e c => some (encEnv 0x50 5 e ||| collBits c)
  | .cagth e c => some (encEnv 0x51 5 e ||| collBits c)
  | .crsct e c => some (encEnv 0x52 5 e ||| collBits c)
  | .mma e c => some (encEnv 0x10 1 e ||| mmaBits c)
  | .mmap e c => some (encEnv 0x11 1 e ||| mmapBits c)
  | .bload e c => some (encEnv 0x12 1 e ||| bloadBits c)
  | .mred e c => some (encEnv 0x13 1 e ||| mredBits c)
  | .spmm e c => some (encEnv 0x20 2 e ||| spmmBits c)
  | .sddmm e c => some (encEnv 0x21 2 e ||| sddmmBits c)
  | .spgath e c => some (encEnv 0x22 2 e ||| spgathBits c)
  | .segred e c => some (encEnv 0x23 2 e ||| segredBits c)
  | .sortkv e c => some (encEnv 0x24 2 e ||| sortkvBits c)
  | .topk e c => some (encEnv 0x25 2 e ||| topkBits c)
  | .attn e c => some (encEnv 0x30 3 e ||| attnBits c)
  | .adec e c => some (encEnv 0x31 3 e ||| attnBits c)
  | .kvapp e c => some (encEnv 0x32 3 e ||| kvappBits c)
  | .kvdev e c => some (encEnv 0x33 3 e ||| kvdevBits c)
  | .arot e c => some (encEnv 0x34 3 e ||| arotBits c)
  | .vbin e c => some (encEnv 0x40 4 e ||| veltBits c)
  | .vun e c => some (encEnv 0x41 4 e ||| veltBits c)
  | .vfma e c => some (encEnv 0x42 4 e ||| veltBits c)
  | .vred e c => some (encEnv 0x43 4 e ||| vredBits c)
  | .vscan e c => some (encEnv 0x44 4 e ||| vscanBits c)
  | .vcvt e c => some (encEnv 0x45 4 e ||| vcvtBits c)
  | .vsel e c => some (encEnv 0x46 4 e ||| veltBits c)
  | .vnorm e c => some (encEnv 0x47 4 e ||| vnormBits c)
  | .vtrn e c => some (encEnv 0x48 4 e ||| vtrnBits c)
  | .vidx e c => some (encEnv 0x49 4 e ||| vidxBits c)
  | _ => none

/-- The bytes of an instruction, lowest address first (R24, R40); none for an event. -/
def encode (i : Instr) : List Byte :=
  match encodeWord i with
  | some w => (List.range 4).map fun k => w.extractLsb' (8 * k) 8
  | none =>
    match encodeCmd i with
    | some w => (List.range 32).map fun k => w.extractLsb' (8 * k) 8
    | none => []

end Sys2Proof
end

