-- ==== Sys2Proof/Config.lean ====
section
/-! DEFINITION. What the manual leaves open: opaque constants, so that no proof can see their values.
Each is named in the assumption log. -/

namespace Sys2Proof.Config

/-- A choice the manual leaves to the implementation (R179, R435: whether a copy a cache may still hold
serves a plain load, whether a fetch before a shootdown sees the old or the new word, R24), fresh for each
value of the model's own counter `State.nonce`. Log entry 3. -/
opaque choice : Nat → Bool

/-- A byte of host memory as the host left it, by link-window address: host memory is outside the panel
and the manual gives it no contents. Log entry 4. -/
opaque hostByte : Nat → BitVec 8

/-- The address W13 takes at a spawn whose entry lies in no image that the loader recorded: the manual
speaks only of images (R53, R222). Log entry 5. -/
opaque gpOutsideImages : BitVec 48 → Nat → BitVec 64

/-- The correctly rounded value of an SFU function whose rounding the model's interval evaluation does
not decide within its fuel (R304): no such FP32 input is known to exist. The arguments are the function's
op number and the input's encoding. Log entry 6. -/
opaque sfuValue : Nat → BitVec 32 → BitVec 32

/-- Clocks that congestion adds to the latency of a message (LATMSG.LAT, R18, R408), by the counter. Log entry 8. -/
opaque latency : Nat → BitVec 32

/-- What a read of a field that the manual makes write-only returns (CMD of R365, OP of R378, TAIL of R337), fresh
for each value of the counter. Log entry 21. -/
opaque writeOnly : Nat → BitVec 32

/-- Set of a cache's line or block (R435: 1,024 sets, an index function that the manual does not give), by the cache (its core, or
50,176 plus its slice's tile) and the address; and the place in a full set of what a fill replaces, by the counter. Log entry 61. -/
opaque cacheSet : Nat → Nat → Nat
opaque cacheVictim : Nat → Nat

/-- A line that hardware prefetches at a tick of time, if any (R435): core and address, by the counter. Log entry 61. -/
opaque prefetch : Nat → Option (Nat × Nat)

/-- A soft error: a correctable (false) or uncorrectable (true) error in a memory word, in a line of a core's L1, or in the doubleword of a
workspace that a register-cache slot holds; an error in a block of a segment's L2 or in a word of an instruction cache; residue checks in a
row that a core's arithmetic is about to fail; or a bit of the accumulator element (row, column) that a tile's matrix array is about to
compute wrongly. -/
inductive SoftError where
  | cell (pa : Nat) (double : Bool)
  | line (core pa : Nat) (double : Bool)
  | slot (core pa : Nat) (double : Bool)
  | block (seg pa : Nat)
  | code (core pa : Nat)
  | result (core times : Nat)
  | array (tile row col bit : Nat)
deriving DecidableEq, Repr

/-- The soft errors that arise at a tick of time (R83, R98, R154, R156, R158, R425), by the counter. Log entry 18. -/
opaque softErrors : Nat → List SoftError

/-- Tiles that a hole-map broadcast under way reaches at a tick of time (R161, R162), by the counter. Log entry 34. -/
opaque holeReach : Nat → List Nat

/-- Contact groups (segment and group) whose drop is back under 1.5 times its baseline at a tick of time (R368), by the counter. Log
entry 80. -/
opaque contactClears : Nat → List (Nat × Nat)

/-- A segment and the tenant that the PMC gives it at a tick of time, if any (R381), by the counter. Log entry 81. -/
opaque tenantGrant : Nat → Option (Nat × Nat)

/-- The routing table that the PMC computes for a router (R383), by the counter and the router's tile. Log entry 82. -/
opaque routeTable : Nat → Nat → List (BitVec 64)

/-- The link through which a host's write of a work-queue register comes (R197), by the counter. Log entry 88. -/
opaque bellLink : Nat → Nat

/-- The row of the west edge whose router a PCIe link attaches to, by the link (LATMSG of messages to a host, R7, R408). Log entry 88. -/
opaque hostRow : Nat → Nat

/-- The lowest core-rail voltage, in millivolts, that the calibration table of a module gives a tile for a point and a band (R398), by the
module's SERIAL, the tile, the point and the band. Log entry 83. -/
opaque calibration : BitVec 64 → Nat → Nat → Nat → Nat

/-- What the image of a segment places and starts (R15, R422): bytes at offsets of the TLM of the segment's first tile, the spawn records of
the system processes of its reserved core, and the offsets there of its pager's channel and of its default fault handler's. -/
structure SegImage where
  bytes : List (Nat × List (BitVec 8))
  procs : List (List (BitVec 64))
  pager : Option Nat
  handler : Option Nat
deriving DecidableEq, Repr

/-- The image of a segment in the firmware image that the PMC runs; none says what it holds is not known. Log entry 89. -/
opaque segImage : List (BitVec 8) → Nat → Option SegImage

/-- Tenants to which the PMC has granted memory on a memory module (R382), by its site. Log entry 55. -/
opaque granted : Nat → List Nat

/-- Where in its tile's window store an attention job keeps what it stages and its running values (R312), by the counter. Log entry 74. -/
opaque windowPlace : Nat → Nat

/-- TVAL of a trap for which the manual states no TVAL (ECCU at a load, PROT and FAR of ACCF, PROT of a place), by the
counter. Log entry 22. -/
opaque trapValue : Nat → BitVec 64

end Sys2Proof.Config
end

