-- ==== Sys2Proof/Machine/State.lean ====
section
/-! DEFINITION. The state of the panel as plain data (INVENTORY.md, '## State'), its reset value, and the
reasons a step can stop. Units are held in sparse lists keyed by their number: a unit that is not listed
has its reset value. -/

namespace Sys2Proof.Machine

/-- A sparse table keyed by number. -/
abbrev AMap (α : Type) := List (Nat × α)

/-- Bytes of memory at physical addresses, strictly rising addresses, no zero byte listed: every store of
the panel is zero at reset (R84, R151), so an unlisted address reads as zero. -/
abbrev Memory := List Host.Cell

/-- Trap causes (R129). -/
inductive Cause where
  | illop | priv | align | page | prot | far | bound | chan | peerlost | deadlock | postref | sitelost | hole
  | eccu | engfault | stalekv | reporder | ringsize | swtrap | brk | ckfail | tenant | tokenflt | contact
  | memberLost
deriving DecidableEq, Repr

/-- One occupied slot of a register cache (R93): W1 to W15 (index 0 unused and zero), the twelve
per-process CSRs in the order of R124, a dirty bit for each, and when its process last ran. -/
structure Slot where
  wptr : Nat
  regs : Vector Word 16
  csrs : Vector Word 12
  dirtyR : BitVec 16
  dirtyC : BitVec 12
  /-- registers and CSRs whose doubleword in the slot is uncorrectable (R425) -/
  badR : BitVec 16
  badC : BitVec 12
  stamp : Nat
deriving DecidableEq, Repr

/-- The process a core runs (R217, RUNNING): its identity (WPTR), mode, priority, XC, PC and the clocks left
of its timeslice (R218). -/
structure Running where
  wptr : Nat
  sm : Bool
  hp : Bool
  xc : Bool
  pc : PC
  rcb : Nat
  slice : Nat
  /-- the instruction at the PC has issued and is held at issue (R181, R201), with the record it has read (R223) -/
  held : Bool
  seen : List Word
deriving DecidableEq, Repr

/-- Kinds of buffered and journaled stores (R346, KIND). -/
inductive StKind where | st | rel | stf | sete
deriving DecidableEq, Repr

/-- A store in a core's store buffer (R202) or on its way home. -/
structure StoreEnt where
  pa : Nat
  va : Nat
  n : Nat
  data : Word
  kind : StKind
  wptr : Nat
  tenant : Nat
  sm : Bool
  /-- the dirty line that held it was found uncorrectable: its write-back is poisoned (R158, R426) -/
  poison : Bool
deriving DecidableEq, Repr

/-- An occupied entry of a posted-store journal (R192, R346), with its age and whether its POSTREF has been
delivered. -/
structure JEnt where
  store : StoreEnt
  rf : Bool
  cause : Cause
  age : Nat
  delivered : Bool
deriving DecidableEq, Repr

/-- A cached translation (R166): tenant, page base and size, frame, and the permissions of its leaf. -/
structure TlbEnt where
  tenant : Nat
  vbase : Nat
  size : Nat
  pbase : Nat
  flags : BitVec 16
deriving DecidableEq, Repr

/-- A copy of memory held by a cache (R158, R159): address, bytes, and the fill's place in the model's own
order of fills. -/
structure Copy where
  addr : Nat
  bytes : List Byte
  filled : Nat
deriving DecidableEq, Repr

/-- An entry of a core's page-wait table (R167). -/
structure PageWait where
  wptr : Nat
  tenant : Nat
  page : Nat
deriving DecidableEq, Repr

/-- Why a core's running process has stopped issue while it awaits a reply (R199, R223, R231). -/
inductive Stall where
  | spawn
  | migrate
  /-- a load from a host window: the address it named and the physical one, destination, size, form (R199) -/
  | pcieLoad (ea : Word) (pa : Nat) (d : Reg) (n : Nat) (signed acq : Bool)
  /-- an AtomicOp to a host window, with its operands (R212) -/
  | pcieAmo (ea : Word) (pa : Nat) (d : Reg) (n op : Nat) (b x : Word) (acq : Bool)
  /-- zero-length reads of a system-scope release: links still to answer (R197) -/
  | pcieRelease (links : BitVec 4)
  /-- a fetch from a host window; `nc` tells whether its page is uncached (R199) -/
  | pcieFetch (pa : Nat) (nc : Bool)
  /-- a channel step on its way, or a rendezvous that moves inline: destination, instruction code, word, W[b] and the offered length
  (R245, R246) -/
  | chan (d : Reg) (fn word : Nat) (v : Word) (n : Nat)
  /-- a select that visits its alternatives (R249): destination, form, table -/
  | sel (d : Reg) (first : Bool) (table : Nat)
  /-- KILLP awaits the end of a process (R133, R135): destination, process -/
  | kill (d : Reg) (wptr : Nat)
  /-- a KILLP behind an earlier one of the same process (R138) -/
  | killNext (d : Reg) (wptr : Nat)
  /-- the process itself is named by KILLP and has stopped at its boundary: what it has begun completes before it ends (R135) -/
  | ending
deriving DecidableEq, Repr

/-- An ACCF instruction held by a busy or read-held accumulator tile, with its operands (R141, R144). -/
inductive AccOp where
  | apf (off : Nat)
  | ard (d : Reg) (off : Nat)
  | awr (off : Nat) (v : Word)
  | aclr (j : Nat)
deriving DecidableEq, Repr

/-- State of one core: its register cache, running process, queues and CSRs (R84, R121, R216). -/
structure Core where
  slots : Vector (Option Slot) 4
  run : Option Running
  wfi : Bool
  stall : Option Stall
  highQ : List Nat
  lowQ : List Nat
  sbuf : List StoreEnt
  journal : AMap JEnt
  prefetch : List Nat
  /-- the process that ran last, 0 before any has (R143) -/
  lastRan : Nat
  /-- issue is stalled on a full store buffer (R202, R407) -/
  bufStall : Bool
  /-- the word of uncached host code that a completion has brought for the next instruction: its address and bytes (R157, R199) -/
  hostWord : Option (Nat × List Byte)
  pwait : List PageWait
  tlb : List TlbEnt
  l1d : List Copy
  l1i : List Copy
  /-- the model's order at the core's last acquire of any scope, of segment scope or wider, of module scope or wider, and of panel
  or system scope (R180, R189) -/
  acqTile : Nat
  acqSeg : Nat
  acqMod : Nat
  acqPanel : Nat
  /-- words that jobs write, each with the place in coherence order that the core's loads have reached (R174, R189) -/
  jobSeen : AMap Nat
  /-- residue checks in a row that the core's arithmetic is about to fail (R98; log entry 18) -/
  upset : Nat
  cycleOff : Word
  instret : Word
  tslice : Word
  fgwait : Word
  opreq : Word
  latmsg : Word
  vidsel : Word
  hpmctl : Word
  hpm : Vector Word 8
  tcause : Word
  tval : Word
  tpc : Word
  tseq : Word
  /-- the token request of the core with the region recorded (R389) -/
  request : Option (Nat × Nat)
  /-- the high half latched by a 32-bit read of an energy counter (R406): the counter's address and bits [63:32] -/
  latch : Option (Nat × BitVec 32)
  /-- links that carry a store of this core not yet followed by a zero-length read (R197) -/
  linksUsed : BitVec 4
  /-- remainders of the clocks this core receives and of those suppressed, in fortieths of a clock (R394, R396) -/
  clkRem : Nat
  supRem : Nat
deriving DecidableEq, Repr

/-- A trap that is pending for a process (R342): its cause, sub-reason, TVAL and the AUX word of its record. -/
structure PendTrap where
  cause : Cause
  sub : Nat
  tval : Word
  aux : Word
deriving DecidableEq, Repr

/-- What a waiting process waits for, beyond its WAIT word (R90, R217). -/
inductive WaitInfo where
  | none
  /-- LDF: destination -/
  | ldf (d : Reg)
  /-- WAITA: destination, value waited on, deadline -/
  | waita (d : Reg) (old : Word) (deadline : Option Word)
  /-- JOIN on a counter -/
  | join
  /-- the instruction re-executes at the first notice (rings, KVM; R331, R350) -/
  | retry
  /-- on a channel word: destination, instruction code, word -/
  | chan (d : Reg) (fn : Nat) (word : Nat)
  /-- in a select over a table -/
  | sel (d : Reg) (first : Bool) (table : Nat)
  /-- JWAIT: destination, queue entry and its GEN -/
  | job (d : Reg) (key : Nat) (gen : Nat)
  /-- at a barrier; with BARCK or BAR -/
  | barrier (d : Reg) (ck : Bool)
  /-- in RGNEND on a region -/
  | rgnend (d : Reg) (rcb : Nat)
  /-- on time alone (WAITA with a = 0) -/
  | time (d : Reg) (val deadline : Word)
  /-- KSPLICE or KUNMAP holding LOCK on a map: destination, which of the two, W[b] and the KVMODEL of the issue -/
  | lock (map : Nat) (d : Reg) (splice : Bool) (arg model : Word)
  /-- ENQ for an entry of queue 4 * tile + Q (WQUEUE, ARG Q), or for a guard of a tile (ARG 3, with the entry it holds) -/
  | queue (k : Nat)
  | guard (tile key : Nat)
  /-- an ACCF instruction held by a busy or held accumulator tile, with the order of its issue (R141) -/
  | acc (tile : Nat) (op : AccOp) (turn : Nat)
  /-- a load of a busy accumulator tile through space 0x1: tile and accumulator tile, destination, address, form, and the order of its
  issue (R141, R149) -/
  | accLd (tile j : Nat) (d : Reg) (pa : Nat) (acq : Bool) (turn : Nat)
  /-- an ACCF instruction or an ENQ that ACFG holds (R148) -/
  | accCfg (tile : Nat)
  /-- ACFG waiting for its turn and for the file to be free (R148): destination, configuration, file, arrival, and whether its turn
  has come -/
  | acfg (d : Reg) (cfg : Word) (tile turn : Nat) (begun : Bool)
  /-- place resolution during a freeze of the root's map (R378) -/
  | frozen (root : Nat)
  /-- a watch entry of a full table (R204) -/
  | watchFull (tile : Nat)
  /-- a mapped page (R167), or an entry of the page-wait table -/
  | page
  | pageFull
  /-- RGNSUSP (R136): destination and region -/
  | susp (d : Reg) (rcb : Nat)
  /-- RGNSUSP or RGNRESM behind a suspension or a rollback of a region (R138, R431) -/
  | suspNext (rcb : Nat)
deriving DecidableEq, Repr

/-- What the home tile keeps with the workspace marks of a process (R92, R227): its region, its join counter
and the tenant of its address, its core, and what it waits for; with the traps pending for it (R342) and
the clocks of its present wait (R258). -/
structure Proc where
  rcb : Nat
  join : Option Nat
  core : Nat
  wait : WaitInfo
  keptArg : Nat
  pend : List PendTrap
  waitClocks : Nat
  slice : Option Nat
  /-- its region has been aborted: it ends when the transfer it is a party of has completed (R135, R256) -/
  dying : Bool
  /-- KILLP names it: it issues no more, and ends when its stores are performed and its rendezvous is complete (R135) -/
  killed : Bool
  /-- the context map whose LOCK it awaits, with its arrival, from its wait to its next attempt (R358, R364) -/
  lockTurn : Option (Nat × Nat)
deriving DecidableEq, Repr

/-- A guard of a TLM port (R264): the physical interval and the queue entry of its job. -/
structure Guard where
  lo : Nat
  hi : Nat
  key : Nat
deriving DecidableEq, Repr

/-- A watch-table entry of a TLM port (R204): the waiting process, the watched address and the number of bytes
watched: a doubleword, or a ring control block (R331). -/
structure Watch where
  wptr : Nat
  pa : Nat
  len : Nat
deriving DecidableEq, Repr

/-- A binding-table entry (R253): writer and reader identities, 0 for an end that is not bound. -/
structure Binding where
  word : Nat
  writer : Nat
  reader : Nat
deriving DecidableEq, Repr

/-- A trap record or cycle report in a trap-queue slot (R343, R344): eight or sixteen doublewords and the
region whose handler receives it. -/
structure TrapSlot where
  words : List Word
  rcb : Nat
  /-- the segment whose default fault handler receives it: where an uncorrectable error was consumed (R342, R427) -/
  dflt : Option Nat
  offered : Bool
deriving DecidableEq, Repr

/-- A collective group-table entry of a copy engine (R373). -/
structure GroupEnt where
  grp : Nat
  core : Nat
  desc : Nat
  member : Nat
  next : BitVec 32
  leave : Option (BitVec 32)
deriving DecidableEq, Repr

/-- A pending revocation (R392): the new holding, the deadline, and whether it is a current-limit one. -/
structure Revocation where
  pendh : Nat
  deadline : Nat
  urgent : Bool
deriving DecidableEq, Repr

/-- One side of a rendezvous (R246): a process with its virtual buffer, an OUTW value, an INW head word, a trap-queue slot,
or a unit that outputs words of its own: Watchroom `src` below 24 (R168), else a record for the default fault handler of
segment `src` − 24 (R342). -/
inductive ChanEnd where
  | buf (wptr : Nat) (va : Nat) (len : Nat)
  | value (wptr : Nat) (v : Word)
  | head (wptr : Nat) (d : Reg)
  | slot (tile k : Nat)
  | unit (src : Nat) (words : List Word)
deriving DecidableEq, Repr

/-- A rendezvous transfer in progress (R246, R247): the word, both ends with the address spaces and modes they are read
and written in, the byte count and the bytes moved, and the tile of the second party, which moves them. -/
structure Transfer where
  word : Nat
  writer : ChanEnd
  reader : ChanEnd
  wSpace : Option Nat
  rSpace : Option Nat
  wSm : Bool
  rSm : Bool
  n : Nat
  done : Nat
  tile : Nat
  viaCopy : Bool
  /-- waiting for a page of the writer's buffer (true) or of the reader's (false) (R167) -/
  parked : Option Bool
  /-- the region whose suspension spilled this transfer, when one did (R256, R348) -/
  spilled : Option Nat
  /-- the tile whose spill ring holds the record it is replayed from: records of one ring are performed in their order (R348) -/
  replay : Option Nat
  /-- the second party's core, the place in the order of captures, and that of its last parking: what the copy engine's choice sees
  (R246, R267) -/
  core : Nat
  order : Nat
  parkOrder : Nat
  /-- the copy engine has begun it and is held at a granule (R261, R264) -/
  moving : Bool
deriving DecidableEq, Repr

/-- An access held at a TLM port (R264): a posted store of a core's journal, the head of a core's store buffer, a core's instruction, a
job's granule, a host's write through a link, a transfer on a channel word, or a decrement of a join counter. -/
inductive HeldBy where
  | store (core idx : Nat)
  | own (core : Nat)
  | instr (core : Nat)
  | job (key : Nat)
  | host (link : Nat)
  | move (word : Nat)
  | dec (turn : Nat)
deriving DecidableEq, Repr

/-- A held access: who makes it, its bytes and its mode. -/
structure HeldAcc where
  by_ : HeldBy
  lo : Nat
  len : Nat
  sm : Bool
deriving DecidableEq, Repr

/-- State of one tile: tokens, guards, tables of the TLM port, queues in its system area, CSRs (R84, R121,
R151, R216). -/
structure Tile where
  tkheld : Nat
  tkneed : Nat
  demandPrio : Nat
  revoke : Option Revocation
  skip : Nat
  /-- power monitor: armed; 100 ns samples in a row above 1.1 times the holding, below it, and without excess (R394) -/
  monArmed : Bool
  monOver : Nat
  monUnder : Nat
  monCalm : Nat
  guards : List Guard
  gstall : Nat
  energy : Word
  cecnt : BitVec 32
  trigBase : Word
  trigArm : BitVec 32
  trigSys : BitVec 32
  tenant : Word
  ptroot : Word
  wrevtab : Word
  accLive : Nat
  accType : BitVec 8
  accOwner : Option Nat
  bindings : List Binding
  watches : List Watch
  /-- accesses held at the port, in arrival order (R264) -/
  held : List HeldAcc
  /-- firings of trigger entries whose join counter a guard holds, in their order, each with the mode of its arming (R264, R412) -/
  firing : List (Nat × Bool)
  trapQ : Vector (Option TrapSlot) 8
  trapOrder : List Nat
  spill : List Transfer
  tlb : List TlbEnt
  groups : List GroupEnt
  /-- undo-log entries appended in the open interval (R429) -/
  undo : Nat
  routes : Vector Word 32
  /-- tenants, besides 0 and the tile's own, that this router admits (R382) -/
  admits : List Nat
  dark : Bool
  routerDead : Bool
  deadLinks : List Dir
  /-- site and segment bits of this tile's hole map that a broadcast under way has reached: they differ from the panel's (R161, R162) -/
  holeAhead : BitVec 12
  holeSegAhead : BitVec 192
  /-- merges into uncorrectable words, counted at their home (R203) -/
  uecnt : Nat
  /-- row, column and bit of the accumulator elements that the matrix array's next granule computes wrongly (R83; log entry 18) -/
  engUpset : List (Nat × Nat × Nat)
deriving DecidableEq, Repr

/-- A shootdown at work (R171): its tenant and SCOPE, and the virtual ranges of the page it names and of the entries it removed. -/
structure Shot where
  tid : Nat
  scope : Nat
  ranges : List (Nat × Nat)
deriving DecidableEq, Repr

/-- State of one segment (zone): sensors, pool, ceilings, phases, shootdown and map registers (R121, R170,
R378, R386 to R401). -/
structure Seg where
  therm : Vector Word 16
  zenergy : Word
  /-- tokens lent to other zones and borrowed from them, newest first: zone and amount (R395) -/
  lent : List (Nat × Nat)
  borrowed : List (Nat × Nat)
  /-- recalled tokens that return to their lenders as they free: zone and amount (R395) -/
  owed : List (Nat × Nat)
  /-- tokens lent from the module's core allowance (R20, R395) -/
  allowance : Nat
  /-- allowance tokens recalled and still held by tiles (R20, R395) -/
  allowOwed : Nat
  free : Nat
  pool : Nat
  cl : Nat
  clQuarter : Bool
  /-- rail-current samples of the present interval: above the limit, at or above 90 % of it, any (R399) -/
  clOver : Bool
  clHigh : Bool
  clSeen : Bool
  th : Nat
  thRise : Nat
  boost : Nat
  /-- a ceiling was active at some instant of the present interval, and of the one before (R397) -/
  ceilingSeen : Bool
  ceilingPrev : Bool
  band : Nat
  failed : Nat
  window : Option Nat
  sdva : Word
  sdctl : Word
  shot : Option Shot
  /-- the model's order at the last shootdown in whose scope the segment lies: no older block of its L2 serves code (R24) -/
  shotAt : Nat
  mapRcb : Word
  newMap : Word
  mapOp : Word
  powered : Bool
  /-- the panel's clock count when the segment powered up: its cores count clocks from there (R127) -/
  clock0 : Word
  /-- one more than the host work queue that the segment's command processor served last (R337) -/
  lastWq : Nat
  defaultHandler : Nat
  contactBad : List Nat
deriving DecidableEq, Repr

/-- States of a site (R365). -/
inductive SiteState where
  | empty | seated | powered | attested | linked | admitted | draining | quiesced | released | lost
deriving DecidableEq, Repr

/-- One site register block and the sensed pins of the site (R365, R366). -/
structure Site where
  st : SiteState
  fail : Nat
  agen : BitVec 32
  deadline : Word
  serial : Word
  stime : Word
  busy : Bool
  /-- the command being carried out (CMD) -/
  cmd : Nat
  cst : Nat
  notice : BitVec 32
  clampClosed : Bool
  clampLocked : Bool
  pinClosed : Bool
  powerOn : Bool
  menergy : Word
  defects : List Defect
  /-- a loss has been detected and its hole bits are not yet set (R367) -/
  losing : Bool
  /-- the panel's clock count when the site was admitted (R127) -/
  clock0 : Word
deriving DecidableEq, Repr

/-- Who waits on a Watchroom entry (R168): the processes of a core that wait on the page, a parked job, a trigger firing, or a
transfer of a tile's engine. -/
inductive FaultSrc where
  | core (c : Nat)
  | job (key : Nat)
  /-- with the mode of the entry's arming (R412) -/
  | trigger (tile entry : Nat) (sm : Bool)
  /-- the transfer on a channel word -/
  | transfer (word : Nat)
deriving DecidableEq, Repr

/-- A Watchroom entry in use (R168). -/
structure WrEntry where
  tenant : Nat
  page : Nat
  who : List FaultSrc
deriving DecidableEq, Repr

/-- One Watchroom (R168): its 64 entries, the pager's channel assigned to its row, and requests not yet
taken by the pager. -/
structure Watchroom where
  entries : AMap WrEntry
  pager : Nat
  out : List (List Word)
deriving DecidableEq, Repr

/-- One host work queue (R337). -/
structure WorkQueue where
  base : Word
  en : Bool
  err : Bool
  errc : Nat
  tenant : Nat
  log : Nat
  tail : BitVec 32
  head : BitVec 32
deriving DecidableEq, Repr

/-- A launch taken by a command processor and not yet completed (R340, R341). -/
structure Launch where
  q : Nat
  tag : BitVec 32
  msie : Bool
  vec : Nat
  cmpa : Nat
  rcb : Nat
  /-- decided already: status and DETAIL -/
  status : Option (Nat × Nat)
deriving DecidableEq, Repr

/-- States of a job (R266). -/
inductive JobSt where | queued | running | parked | ready
deriving DecidableEq, Repr

/-- Why a job is parked or asked to park (R266). -/
inductive ParkWhy where | suspended | page | level | peer
deriving DecidableEq, Repr

/-- A captured command with its state (R263, R266): the 32 bytes, the registers captured with them, the
issuer, progress in granules, and what its completion value will hold. -/
structure Job where
  cmd : CWord
  fmta : Word
  fmtb : Word
  fmtc : Word
  cellp : Word
  genctr : Word
  kvmodel : Word
  kvthr : Word
  kvchkl : Word
  kvrope : Word
  cls : Nat
  prio : Nat
  wptr : Nat
  core : Nat
  rcb : Nat
  tenant : Nat
  sm : Bool
  st : JobSt
  why : Option ParkWhy
  order : Nat
  parkOrder : Nat
  gran : Nat
  /-- a granule has been issued and its boundary has not yet come -/
  inFlight : Bool
  accW : BitVec 128
  accR : BitVec 128
  rx : Bool
  ml : Bool
  fault : Nat
  scalegen : Nat
  /-- pairings of unequal generations counted so far: container address, container and scale word (R78) -/
  paired : List (Nat × Nat × Nat)
  unck : Nat
  /-- running values kept by the entry: partial results, sort buffer, running m, l and o (R298, R312) -/
  scratch : List Word
  shadow : List (BitVec 32)
  /-- an attention job's staged bytes of the entry that its next granule visits, by their addresses (R312) -/
  staged : List (Nat × List Byte)
  mapRef : Option Nat
  started : Bool
  /-- every granule is done, or the job has failed: only its end remains (R270) -/
  last : Bool
  /-- physical ranges that the body names for reading and for writing, fixed at capture (R302), and the context map
  named (R359) -/
  reads : List (Nat × Nat)
  writes : List (Nat × Nat)
  mapName : Option Nat
  /-- the issuer has ended: no process is trapped for the job (R271) -/
  orphan : Bool
  /-- an MMA's checks are over: only its end remains (R286) -/
  checked : Bool
  /-- pieces of guarded ranges whose pages were not mapped at the capture: virtual address and length (R188; log entry 27) -/
  late : List (Nat × Nat)
  /-- collective: the fixed membership as member numbers, and blocks received, by member (R276, R372) -/
  members : Option (List Nat)
  blocks : AMap (List Byte)
deriving DecidableEq, Repr

/-- One entry of an engine queue (R261, R265): use count, occupying job, result latch, forward to the entry
a map commit carried it to (R378). -/
structure QEntry where
  gen : BitVec 16
  /-- the process whose ENQ took the entry and waits for guards (R262) -/
  taken : Option Nat
  job : Option Job
  result : Option Word
  fwd : Option Nat
  /-- the region of the last job, to which the kept result belongs (R272) -/
  rcb : Nat
deriving DecidableEq, Repr

/-- One engine queue (R267): its entries by slot, and per priority the source core served last. -/
structure Queue where
  entries : AMap QEntry
  last : Vector Nat 4
deriving DecidableEq, Repr

/-- An alternative of an armed select (R248, R249): its index, and where its entry of the table lies. -/
structure SelAlt where
  idx : Nat
  pa : Nat
  word : Nat
  output : Bool
  buf : Nat
  len : Nat
  linked : Bool
deriving DecidableEq, Repr

/-- A select in progress or waiting (R248): its process, destination, form, alternatives still to visit and
those armed. -/
structure Select where
  wptr : Nat
  d : Reg
  first : Bool
  n : Nat
  deadline : Option Word
  poll : Bool
  todo : List SelAlt
  armed : List SelAlt
deriving DecidableEq, Repr

/-- A barrier participant at a checkpoint opening (R428), whose workspace stands in the undo logs: its identity, its core and its join
counter. -/
structure CkSave where
  wptr : Nat
  core : Nat
  join : Option Nat
deriving DecidableEq, Repr

/-- An open checkpoint interval (R240, R428): LIVE, BARR and BINST at the opening, the participants, and the entries that the logged
workspaces take at the bottom of each tile's undo log. -/
structure Interval where
  live : Nat
  barr : Nat
  binst : Nat
  saved : List CkSave
  base : AMap Nat
deriving DecidableEq, Repr

/-- What the hardware keeps of a region beyond its RCB (R239, R240, R260, R378, R428). -/
structure Region where
  frozen : Bool
  arrivals : List (Nat × Bool)
  stallClocks : Nat
  stallSent : Bool
  interval : Option Interval
  undoFull : Bool
  spawned : List Nat
  abortDetail : Nat
  /-- the counter named by JOIN, at its home (R235) -/
  join : Option Nat
  /-- an uncorrectable error was consumed in the region and the firmware has not yet acted (R427) -/
  eccu : Bool
  /-- a rollback is in progress (R431) -/
  rollingBack : Bool
  /-- a suspension is in progress (R136, R138) -/
  suspending : Bool
deriving DecidableEq, Repr

/-- A marked area of TLM that is no workspace: an RCB, a select table, a place map, an undo log, a system area
(R92, R233, R248, R344, R377, R429). -/
inductive AreaKind where | rcb | sel | placeMap | undoLog | sysArea
deriving DecidableEq, Repr

structure Area where
  lo : Nat
  len : Nat
  kind : AreaKind
  owner : Nat
deriving DecidableEq, Repr

/-- An image the loader placed (R53): the entry addresses it covers, and the address of its .tlm section on each
tile. -/
structure Image where
  tenant : Nat
  lo : Nat
  hi : Nat
  tlm : List (Nat × Word)
deriving DecidableEq, Repr

/-- The party that a channel step carries (R245). -/
inductive Party where
  /-- a process at OUT, IN, OUTW or INW: its end, and whether it writes -/
  | plain (e : ChanEnd) (writer : Bool)
  /-- an alternative of a select table -/
  | alt (table idx : Nat)
deriving DecidableEq, Repr

/-- A spawn in flight (R223, R226). -/
structure SpawnMsg where
  /-- the process that awaits the reply, with its destination; none for a launch -/
  reply : Option (Nat × Reg)
  /-- the tile the message left -/
  source : Nat
  spawna : Bool
  tile : Nat
  core : Nat
  rcb : Nat
  sm : Bool
  words : List Word
  joinPa : Option Nat
deriving DecidableEq, Repr

/-- A migrating head in flight (R231). -/
structure MigMsg where
  core : Nat
  d : Reg
  wptr : Nat
  tile : Nat
  target : Nat
  wslot : Nat
deriving DecidableEq, Repr

/-- A page-fault message (R167, R168). -/
structure FaultMsg where
  w : Nat
  tenant : Nat
  page : Nat
  kind : Nat
  malformed : Bool
  who : FaultSrc
  refused : Bool
deriving DecidableEq, Repr

/-- Messages in flight between the panel's agents, delivered one per event. -/
inductive Msg where
  | chan (word : Nat) (p : Party) (claimBusy : Bool) (held : Bool)
  /-- a channel step in the middle of a claim of two selects, whose claim words hold 0xFF (R252): the visiting select, and the table it
  has met -/
  | claim (word : Nat) (p : Party) (mine theirs : Nat)
  | spawn (m : SpawnMsg)
  | migrate (m : MigMsg)
  | store (core idx : Nat)
  | ack (core idx : Nat)
  | refuse (core idx : Nat) (cause : Cause)
  | notice (wptr pa : Nat) (value : Word) (full rel : Bool)
  | fault (m : FaultMsg)
  /-- a Foghorn probe: originator and WSEQ, members recorded, the process it travels to (R258) -/
  | probe (orig : Nat) (wseq : BitVec 32) (hops : List (Nat × BitVec 32)) (target : Nat)
  /-- a Foghorn confirmation around the recorded members -/
  | confirm (orig : Nat) (members : List (Nat × BitVec 32))
  /-- a collective start step of the job in an entry (R372) -/
  | start (key : Nat)
  | peer (p : PeerStep)
  /-- a loss step for the group with descriptor `desc`: the members given leave (R375) -/
  | loss (desc : Nat) (members : List Nat)
deriving DecidableEq, Repr

/-- One start of a collective operation recorded at its descriptor's home (R276, R372). -/
structure CollStart where
  desc : Nat
  seq : BitVec 32
  member : Nat
  /-- the starting job's entry; none for a member of another panel -/
  key : Option Nat
  count : Nat
  fmt : Nat
  op : Nat
deriving DecidableEq, Repr

/-- A collective operation that has failed: two of its starts differ (R276). -/
structure CollOp where
  desc : Nat
  seq : BitVec 32
deriving DecidableEq, Repr

/-- The membership of an operation as HSEQ's move past its number fixed it (R372). -/
structure CollFixed where
  desc : Nat
  seq : BitVec 32
  members : List Nat
deriving DecidableEq, Repr

/-- A member that a loss step gave an LSEQ (R375, R420): what it decides of operations that survivors start afterwards. -/
structure CollLoss where
  desc : Nat
  member : Nat
  lseq : BitVec 32
deriving DecidableEq, Repr

/-- A decrement of a join counter that its home port holds (R227, R238, R264): its place in the order of arrivals, the counter, and the
region and mode of the process that makes it. -/
structure HeldDec where
  turn : Nat
  pa : Nat
  rcb : Nat
  sm : Bool
deriving DecidableEq, Repr

/-- The panel management controller (R384, R385, R422 to R424, R432, R433). -/
structure Pmc where
  inputGood : Bool
  stage : Nat
  slot : Nat
  fault : Nat
  adm : BitVec 12
  darkseg : Nat
  flashA : List Byte
  flashB : List Byte
  /-- the image that the PMC runs, from the slot that booted (R423) -/
  image : List Byte
  panelid : Nat
  fabric : AMap Word
  portsDown : BitVec 12
  alert : Bool
  telemetry : Option (Nat × Nat × Nat)
  thermLog : List (Nat × Word)
  zenergyLog : List (Nat × Word)
  menergyLog : List (Nat × Word)
  latchEth : Option (Nat × BitVec 32)
  latchI3c : Option (Nat × BitVec 32)
  /-- answers given on the management port, newest first -/
  replies : List (BitVec 32)
  /-- statuses of management requests, newest first -/
  csts : List Nat
  /-- segments whose reboot by stages 4 and 5 is under way, oldest first (R427) -/
  reboots : List Nat
  /-- TOKENFLT records with SUB 3 that segments have raised to the PMC, newest first (R427) -/
  faults : List (Nat × List Word)
  /-- segments that have the image which the PMC delivered over VC3 (R422) -/
  images : List Nat
  /-- reports of the coolant alert's standing that the PMC has made on its ports, newest first (R433) -/
  reports : List (Reader × Bool)
  /-- the tenant of each segment that one has (R381) -/
  tenants : AMap Nat
  /-- routing tables computed and not yet installed: router and entries (R366, R383) -/
  tables : List (Nat × List Word)
  /-- power of each module and its core share as last measured, in milliwatts -/
  modPower : AMap Nat
deriving DecidableEq, Repr

/-- The hosts as the panel sees them (R196, R197, R337, R341). -/
structure Hosts where
  /-- host memory by window address where the panel, the loader or an event wrote it; any other byte is open (log
  entry 4) -/
  mem : AMap Byte
  /-- MSI-X vectors raised, newest first -/
  msix : List Nat
  /-- replies to host reads, newest first -/
  replies : List Word
  /-- the atomic or read requests that await completions: core and window address -/
  pending : List (Nat × Nat)
  /-- posted writes of hosts that have arrived and are not performed, oldest first: link, address, bytes (R197, R264) -/
  writes : List (Nat × Nat × List Byte)
deriving DecidableEq, Repr

/-- The old value of a word that a job has written, which a plain load may still return (R189): the word, the value before the
write, the write's place in the model's order, the job's entry, the home of its completion word, and when it left its entry. -/
structure JobOld where
  addr : Nat
  old : Word
  wrote : Nat
  key : Nat
  home : Option Nat
  done : Option Nat
deriving DecidableEq, Repr

/-- What moves next: a core issues, or an event occurs. -/
inductive Turn where
  | core (c : Nat)
  | event (i : Instr)
  /-- the engine command whose 32 bytes stand at a TLM address is executed whole (log entry 15) -/
  | command (pa : Nat)
deriving DecidableEq, Repr

/-- The panel. -/
structure State where
  mem : Memory
  /-- TLM words (8-aligned addresses, rising) whose full/empty bit is full (R156) -/
  full : List Nat
  /-- words with uncorrectable, and with correctable, check bits: 8-aligned addresses, or 16-aligned in
  HBM (R154, R156, R203) -/
  bad : List Nat
  weak : List Nat
  /-- words (8-aligned) whose last write was a release, so that WAITA synchronises with it (R184, R208) -/
  rels : List Nat
  /-- old values of words that jobs have written, newest first (R189) -/
  jobOld : List JobOld
  /-- TLM words that channel instructions have operated on: no cache holds them (R244) -/
  chanWords : List Nat
  /-- pages of context maps whose 64 KiB frames do not follow that of the header: by the header's address, the frames of the map's further
  pages (R350; log entry 51) -/
  mapPages : AMap (List Nat)
  /-- corrected errors counted by each stack controller: 8 * module + stack (R154, R425) -/
  stackCe : AMap Nat
  /-- the hole map of the 12 sites and 192 segments, as the PMC's last complete broadcast left it; a tile's own map may differ in the
  bits that a broadcast under way has reached (R161; log entry 34) -/
  holeSites : BitVec 12
  holeSegs : BitVec 192
  cores : AMap Core
  procs : AMap Proc
  tiles : AMap Tile
  segs : AMap Seg
  sites : AMap Site
  queues : AMap Queue
  regions : AMap Region
  areas : List Area
  selects : AMap Select
  transfers : List Transfer
  msgs : List Msg
  l2 : AMap (List Copy)
  watchrooms : AMap Watchroom
  workQueues : AMap WorkQueue
  launches : List Launch
  collStarts : List CollStart
  collOps : List CollOp
  collFixed : List CollFixed
  collLosses : List CollLoss
  /-- sites (below 12) and segments (12 and up) that have been lost or powered down and whose detours are not yet installed: boundary
  routers hold the messages whose routes enter them (R383) -/
  detours : List Nat
  pmc : Pmc
  /-- steps sent through peer ports, newest first: the port and the step (R384, R385) -/
  peerOut : List (Nat × PeerStep)
  hosts : Hosts
  images : List Image
  /-- records of the handler-only class that no process receives, sent by the PMC, Tenders and arbiters to
  default fault handlers: segment and record (R342, R366, R401) -/
  records : List (Nat × List Word)
  time : Word
  /-- clocks of a core at P5 that no skipping affects (R127, R396) -/
  clocks : Word
  /-- the model's own counters: order of fills, captures and arrivals; and fresh values for `Config` -/
  order : Nat
  nonce : Nat
  /-- decrements of join counters that their ports hold (R264) -/
  decs : List HeldDec
  /-- events that the policy has chosen (log entry 2) -/
  turns : Nat
  /-- the executing core, and the turns the environment has fixed -/
  cur : Nat
  agenda : List Turn
  /-- set when the executing core could not complete its instruction: an event moves next -/
  yielded : Bool
deriving DecidableEq, Repr

/-- Reasons a step stops the machine. -/
inductive Fault where
  /-- Raised by `step` when a turn names a core the panel does not have (R7 to R13: 12,544 tiles of four
  cores). Safe: the machine stops where no hardware exists. -/
  | noSuchCore (c : Nat)
deriving DecidableEq, Repr

/-- Reasons an instruction has no meaning. -/
inductive Refusal where
  /-- Raised by an arm of `exec` whose instruction has no meaning yet. Safe: the machine stops. -/
  | notModelled (mnemonic : String)
deriving DecidableEq, Repr

/-- A core after reset (R84, R121): nothing resident, queues empty, CSRs at their reset values. -/
def Core.reset : Core where
  slots := Vector.replicate 4 none
  run := none
  wfi := false
  stall := none
  highQ := []
  lowQ := []
  sbuf := []
  journal := []
  prefetch := []
  lastRan := 0
  bufStall := false
  hostWord := none
  pwait := []
  tlb := []
  l1d := []
  l1i := []
  acqTile := 0
  acqSeg := 0
  acqMod := 0
  acqPanel := 0
  jobSeen := []
  upset := 0
  cycleOff := 0
  instret := 0
  tslice := 16384
  fgwait := 4194304
  opreq := 5
  latmsg := 0
  vidsel := 0
  hpmctl := 0
  hpm := Vector.replicate 8 0
  tcause := 0
  tval := 0
  tpc := 0
  tseq := 0
  request := none
  latch := none
  linksUsed := 0
  clkRem := 0
  supRem := 0

/-- A tile after reset (R84, R121, R151): no tokens, nothing live, tables empty. -/
def Tile.reset : Tile where
  tkheld := 0
  tkneed := 0
  demandPrio := 0
  revoke := none
  skip := 0
  monArmed := false
  monOver := 0
  monUnder := 0
  monCalm := 0
  guards := []
  gstall := 0
  energy := 0
  cecnt := 0
  trigBase := 0
  trigArm := 0
  trigSys := 0
  tenant := 0
  ptroot := 0
  wrevtab := 0
  accLive := 0
  accType := 0
  accOwner := none
  bindings := []
  watches := []
  held := []
  firing := []
  trapQ := Vector.replicate 8 none
  trapOrder := []
  spill := []
  tlb := []
  groups := []
  undo := 0
  routes := Vector.replicate 32 0
  admits := []
  dark := false
  routerDead := false
  deadLinks := []
  holeAhead := 0
  holeSegAhead := 0
  uecnt := 0
  engUpset := []

/-- A segment after reset (R121, R170, R378, R386): 4,600 tokens, all free, every ceiling inactive (P7). -/
def Seg.reset : Seg where
  therm := Vector.replicate 16 0
  zenergy := 0
  lent := []
  borrowed := []
  owed := []
  allowance := 0
  allowOwed := 0
  free := 4600
  pool := 4600
  cl := 7
  clQuarter := false
  clOver := false
  clHigh := false
  clSeen := false
  th := 7
  thRise := 0
  boost := 0
  ceilingSeen := false
  ceilingPrev := false
  band := 0
  failed := 0
  window := none
  sdva := 0
  sdctl := 0
  shot := none
  shotAt := 0
  mapRcb := 0
  newMap := 0
  mapOp := 0
  powered := false
  clock0 := 0
  lastWq := 0
  defaultHandler := 0
  contactBad := []

/-- A site after reset: EMPTY, as sensed with nothing fitted (R365). -/
def Site.reset : Site where
  st := .empty
  fail := 0
  agen := 0
  deadline := 0
  serial := 0
  stime := 0
  busy := false
  cmd := 0
  cst := 0
  notice := 0
  clampClosed := false
  clampLocked := false
  pinClosed := false
  powerOn := false
  menergy := 0
  defects := []
  losing := false
  clock0 := 0

/-- A host work queue after reset: disabled, all fields zero (R337). -/
def WorkQueue.reset : WorkQueue where
  base := 0
  en := false
  err := false
  errc := 0
  tenant := 0
  log := 0
  tail := 0
  head := 0

/-- A Watchroom after reset: no entry in use (R151). -/
def Watchroom.reset : Watchroom where
  entries := []
  pager := 0
  out := []

/-- An unused engine-queue entry (R265). -/
def QEntry.reset : QEntry where
  gen := 0
  taken := none
  job := none
  result := none
  fwd := none
  rcb := 0

/-- An empty engine queue (R216). -/
def Queue.reset : Queue where
  entries := []
  last := Vector.replicate 4 0

/-- What the hardware keeps of a region that has just been created. -/
def Region.reset : Region where
  frozen := false
  arrivals := []
  stallClocks := 0
  stallSent := false
  interval := none
  undoFull := false
  spawned := []
  abortDetail := 0
  join := none
  eccu := false
  rollingBack := false
  suspending := false

/-- The PMC in reset, before the 50 V input is good (R422, R424, R385). -/
def Pmc.reset : Pmc where
  inputGood := false
  stage := 0
  slot := 0
  fault := 0
  adm := 0
  darkseg := 0
  flashA := []
  flashB := []
  image := []
  panelid := 0
  fabric := []
  portsDown := 0
  alert := false
  telemetry := none
  thermLog := []
  zenergyLog := []
  menergyLog := []
  latchEth := none
  latchI3c := none
  replies := []
  csts := []
  reboots := []
  faults := []
  images := []
  reports := []
  tenants := []
  tables := []
  modPower := []

/-- The hosts before anything has happened. -/
def Hosts.reset : Hosts where
  mem := []
  msix := []
  replies := []
  pending := []
  writes := []

/-- The panel right after reset (R84, R151, R216, R349, R404, R422): every store zero, every word empty, no
process, no site admitted, TIME zero. -/
def State.reset : State where
  mem := []
  full := []
  bad := []
  weak := []
  rels := []
  jobOld := []
  chanWords := []
  mapPages := []
  stackCe := []
  holeSites := BitVec.allOnes 12
  holeSegs := BitVec.allOnes 192
  cores := []
  procs := []
  tiles := []
  segs := []
  sites := []
  queues := []
  regions := []
  areas := []
  selects := []
  transfers := []
  msgs := []
  l2 := []
  watchrooms := []
  workQueues := []
  launches := []
  collStarts := []
  collOps := []
  collFixed := []
  collLosses := []
  detours := []
  pmc := Pmc.reset
  peerOut := []
  hosts := Hosts.reset
  images := []
  records := []
  time := 0
  clocks := 0
  order := 0
  nonce := 0
  decs := []
  turns := 0
  cur := 0
  agenda := []
  yielded := false

end Sys2Proof.Machine
end

