-- ==== Sys2Proof/Machine/Bits.lean ====
section
/-! DEFINITION. Bit fields, sparse tables, bytes of memory and their order (R3, R6, R12). -/

namespace Sys2Proof.Machine

/-! ### Sparse tables -/

/-- The entry of key `k`. -/
def amGet {α : Type} : AMap α → Nat → Option α
  | [], _ => none
  | (j, v) :: t, k => if j = k then some v else amGet t k

/-- Set the entry of key `k`, keeping the keys rising. -/
def amSet {α : Type} : AMap α → Nat → α → AMap α
  | [], k, v => [(k, v)]
  | (j, w) :: t, k, v =>
    if k < j then (k, v) :: (j, w) :: t
    else if k = j then (k, v) :: t
    else (j, w) :: amSet t k v

/-- Remove the entry of key `k`. -/
def amErase {α : Type} : AMap α → Nat → AMap α
  | [], _ => []
  | (j, w) :: t, k => if j = k then amErase t k else (j, w) :: amErase t k

/-- Insert `k` into a rising list of numbers. -/
def setInsert : List Nat → Nat → List Nat
  | [], k => [k]
  | j :: t, k => if k < j then k :: j :: t else if k = j then j :: t else j :: setInsert t k

/-- Remove `k` from a list of numbers. -/
def setErase (l : List Nat) (k : Nat) : List Nat := l.filter (· != k)

/-- Insert `x` before the first element that `le` puts after it. -/
def insertBy {α : Type} (le : α → α → Bool) (x : α) : List α → List α
  | [] => [x]
  | y :: t => if le x y then x :: y :: t else y :: insertBy le x t

/-- Stable sort by insertion. -/
def sortBy {α : Type} (le : α → α → Bool) (l : List α) : List α := l.foldr (insertBy le) []

/-! ### Bit fields -/

/-- bits(v, hi, lo) of R6, as a number. -/
def bits (v : Word) (hi lo : Nat) : Nat := (v.toNat >>> lo) % 2 ^ (hi + 1 - lo)

/-- `v` with bits [hi:lo] replaced by the low bits of `x`. -/
def setBits (v : Word) (hi lo x : Nat) : Word :=
  let m := 2 ^ (hi + 1 - lo)
  BitVec.ofNat 64 (v.toNat - (bits v hi lo) * 2 ^ lo + (x % m) * 2 ^ lo)

def bit (v : Word) (i : Nat) : Bool := v.getLsbD i

/-- 1 or 0. -/
def b2n (b : Bool) : Nat := if b then 1 else 0

def word (n : Nat) : Word := BitVec.ofNat 64 n

/-- The low `w` bits of `n` read as two's complement (SignExtend, R6). -/
def sx (n w : Nat) : Int :=
  let m := n % 2 ^ w
  if m < 2 ^ (w - 1) then (m : Int) else (m : Int) - (2 ^ w : Nat)

/-- The 64-bit pattern of an integer. -/
def ofI (z : Int) : Word := BitVec.ofInt 64 z

/-- The width-`w` pattern of an integer, as a number. -/
def patI (z : Int) (w : Nat) : Nat := (z % ((2 ^ w : Nat) : Int)).toNat

/-! ### Bytes -/

/-- The byte at `a`; zero where nothing is listed (R84, R151). -/
def memGet : Memory → Nat → Byte
  | [], _ => 0
  | (j, v) :: t, a => if j = a then v else memGet t a

/-- Unlist the byte at `a`: it reads as zero. -/
def memDrop (m : Memory) (a : Nat) : Memory := m.filter fun c => c.1 != a

/-- List byte `v` at `a`, keeping addresses rising. -/
def memIns : Memory → Nat → Byte → Memory
  | [], a, v => [(a, v)]
  | (j, w) :: t, a, v =>
    if a < j then (a, v) :: (j, w) :: t
    else if a = j then (a, v) :: t
    else (j, w) :: memIns t a v

/-- Write a byte, keeping addresses rising and zero bytes unlisted. -/
def memSet (m : Memory) (a : Nat) (v : Byte) : Memory := if v = 0 then memDrop m a else memIns m a v

/-- Addresses above `lo` in rising order, no zero byte. -/
def memWfFrom : Nat → Memory → Bool
  | _, [] => true
  | lo, (j, v) :: t => decide (lo ≤ j) && (v != 0) && memWfFrom (j + 1) t

/-- The canonical form of memory. -/
def Memory.wf (m : Memory) : Bool := memWfFrom 0 m

/-- `n` bytes from `a` as a number, the lowest address least significant (R3). -/
def memLE (m : Memory) (a : Nat) : Nat → Nat
  | 0 => 0
  | n + 1 => (memGet m a).toNat + 256 * memLE m (a + 1) n

/-- Write the low `n` bytes of `v` from `a` upwards (R3). -/
def memPut (m : Memory) (a : Nat) : Nat → Nat → Memory
  | 0, _ => m
  | n + 1, v => memPut (memSet m a (BitVec.ofNat 8 v)) (a + 1) n (v / 256)

/-- Bytes of a number, lowest first. -/
def bytesOf : Nat → Nat → List Byte
  | 0, _ => []
  | n + 1, v => BitVec.ofNat 8 v :: bytesOf n (v / 256)

/-- The number of a list of bytes, lowest first. -/
def ofBytes : List Byte → Nat
  | [] => 0
  | b :: t => b.toNat + 256 * ofBytes t

/-- Fold over 0 … n − 1, ascending. -/
def forUp {α : Type} (n : Nat) (f : Nat → α → α) (a : α) : α := (List.range n).foldl (fun a i => f i a) a

end Sys2Proof.Machine
end

