-- ==== Sys2Proof/Machine/Float.lean ====
section
/-! DEFINITION. Exact values of the IEEE formats and their rounding (R58 to R60, R108, R111): every operation is
formed exactly on dyadic numbers and rounded once. -/

namespace Sys2Proof.Machine

/-- A binary format: exponent and fraction widths. -/
structure Fmt where
  eb : Nat
  fb : Nat
deriving DecidableEq, Repr

def fp64 : Fmt := ⟨11, 52⟩
def fp32 : Fmt := ⟨8, 23⟩
def fp16 : Fmt := ⟨5, 10⟩
def bf16 : Fmt := ⟨8, 7⟩

/-- Rounding modes of FSTAT.RM (R109). -/
def rmOfNat (n : Nat) : Rm :=
  match n % 4 with
  | 0 => .rne | 1 => .rtz | 2 => .rdn | _ => .rup

/-- A decoded number: a NaN (signalling or not), an infinity, or (−1)^s · m · 2^e. -/
inductive FV where
  | nan (signalling : Bool)
  | inf (s : Bool)
  | fin (s : Bool) (m : Nat) (e : Int)
deriving DecidableEq, Repr

def fWidth (f : Fmt) : Nat := f.eb + f.fb + 1

/-- Exponent of the last place of subnormals. -/
def fUlp (f : Fmt) : Int := 2 - (2 ^ (f.eb - 1) : Nat) - (f.fb : Int)

/-- Decode a pattern (R58). -/
def fDecode (f : Fmt) (v : Nat) : FV :=
  let s := v / 2 ^ (f.eb + f.fb) % 2 == 1
  let e := v / 2 ^ f.fb % 2 ^ f.eb
  let m := v % 2 ^ f.fb
  if e == 2 ^ f.eb - 1 then
    (if m == 0 then .inf s else .nan (m / 2 ^ (f.fb - 1) == 0))
  else if e == 0 then .fin s m (fUlp f)
  else .fin s (m + 2 ^ f.fb) (fUlp f + (e : Int) - 1)

def fSign (f : Fmt) (s : Bool) : Nat := if s then 2 ^ (f.eb + f.fb) else 0
def fInf (f : Fmt) (s : Bool) : Nat := fSign f s + (2 ^ f.eb - 1) * 2 ^ f.fb
/-- The canonical quiet NaN (R59). -/
def fNaN (f : Fmt) : Nat := (2 ^ f.eb - 1) * 2 ^ f.fb + 2 ^ (f.fb - 1)
def fMax (f : Fmt) (s : Bool) : Nat := fSign f s + (2 ^ f.eb - 1) * 2 ^ f.fb - 1
def fZero (f : Fmt) (s : Bool) : Nat := fSign f s

/-- Exceptional conditions, as bits of FSTAT (R109). -/
def flagNV : Nat := 16
def flagDZ : Nat := 8
def flagOF : Nat := 4
def flagUF : Nat := 2
def flagNX : Nat := 1

/-- Bits needed for `m`. -/
def bitLen (m : Nat) : Nat := if m = 0 then 0 else Nat.log2 m + 1

/-- m · 2^k rounded to an integer magnitude in mode `rm`, and whether it is inexact. -/
def roundShift (rm : Rm) (s : Bool) (m : Nat) (k : Int) : Nat × Bool :=
  if 0 ≤ k then (m * 2 ^ k.toNat, false)
  else
    let d := 2 ^ (-k).toNat
    let q := m / d
    let r := m % d
    if r == 0 then (q, false)
    else
      let up := match rm with
        | .rne => decide (d < 2 * r) || (2 * r == d && q % 2 == 1)
        | .rtz => false
        | .rdn => s
        | .rup => !s
      (if up then q + 1 else q, true)

/-- Overflowed result (R111). -/
def fOverflow (f : Fmt) (rm : Rm) (s : Bool) : Nat :=
  match rm with
  | .rne => fInf f s
  | .rtz => fMax f s
  | .rdn => if s then fInf f s else fMax f s
  | .rup => if s then fMax f s else fInf f s

/-- Round (−1)^s · m · 2^e to a format (R108, R110, R111): the pattern and the flags OF, UF, NX. -/
def fRound (f : Fmt) (rm : Rm) (s : Bool) (m : Nat) (e : Int) : Nat × Nat :=
  if m == 0 then (fZero f s, 0)
  else
    let p := f.fb + 1
    let un : Int := e + (bitLen m : Int) - (p : Int)
    let ulp := max un (fUlp f)
    let (q, inexact) := roundShift rm s m (e - ulp)
    let (q, ulp) := if q == 2 ^ p then (q / 2, ulp + 1) else (q, ulp)
    let exp := (ulp - fUlp f + 1).toNat
    if 2 ^ f.fb ≤ q && 2 ^ f.eb - 1 ≤ exp then (fOverflow f rm s, flagOF + flagNX)
    else
      let pat := fSign f s + (if q < 2 ^ f.fb then q else exp * 2 ^ f.fb + (q - 2 ^ f.fb))
      let (qu, _) := roundShift rm s m (e - un)
      let tiny := decide ((bitLen qu : Int) + un < (p : Int) + fUlp f)
      (pat, (if inexact then flagNX else 0) + (if inexact && tiny then flagUF else 0))

/-- Exact sum of signed dyadics: numerator and exponent. -/
def dyAdd (s1 : Bool) (m1 : Nat) (e1 : Int) (s2 : Bool) (m2 : Nat) (e2 : Int) : Int × Int :=
  let e := min e1 e2
  let a : Int := (m1 * 2 ^ (e1 - e).toNat : Nat)
  let b : Int := (m2 * 2 ^ (e2 - e).toNat : Nat)
  ((if s1 then -a else a) + (if s2 then -b else b), e)

/-- Round an exact signed dyadic; an exact zero takes the sign `zs`. -/
def fRoundInt (f : Fmt) (rm : Rm) (z e : Int) (zs : Bool) : Nat × Nat :=
  if z = 0 then (fZero f zs, 0) else fRound f rm (decide (z < 0)) z.natAbs e

/-- Sign of an exact zero sum (R111). -/
def zeroSign (rm : Rm) (s1 s2 : Bool) : Bool := if s1 == s2 then s1 else (match rm with | .rdn => true | _ => false)

def isSig : FV → Bool
  | .nan s => s
  | _ => false

def isNan : FV → Bool
  | .nan _ => true
  | _ => false

def nv (b : Bool) : Nat := if b then flagNV else 0

/-- A + B (R113). -/
def fAddV (f : Fmt) (rm : Rm) (a b : FV) : Nat × Nat :=
  if isNan a || isNan b then (fNaN f, nv (isSig a || isSig b))
  else
    match a, b with
    | .inf s, .inf t => if s == t then (fInf f s, 0) else (fNaN f, flagNV)
    | .inf s, _ => (fInf f s, 0)
    | _, .inf t => (fInf f t, 0)
    | .fin s1 m1 e1, .fin s2 m2 e2 =>
      let (z, e) := dyAdd s1 m1 e1 s2 m2 e2
      fRoundInt f rm z e (if m1 == 0 && m2 == 0 then zeroSign rm s1 s2 else (match rm with | .rdn => true | _ => false))
    | _, _ => (fNaN f, 0)

def fNegV : FV → FV
  | .nan s => .nan s
  | .inf s => .inf !s
  | .fin s m e => .fin (!s) m e

/-- A × B (R113). -/
def fMulV (f : Fmt) (rm : Rm) (a b : FV) : Nat × Nat :=
  if isNan a || isNan b then (fNaN f, nv (isSig a || isSig b))
  else
    match a, b with
    | .inf s, .inf t => (fInf f (s != t), 0)
    | .inf s, .fin t m _ => if m == 0 then (fNaN f, flagNV) else (fInf f (s != t), 0)
    | .fin s m _, .inf t => if m == 0 then (fNaN f, flagNV) else (fInf f (s != t), 0)
    | .fin s m e, .fin t n g => fRound f rm (s != t) (m * n) (e + g)
    | _, _ => (fNaN f, 0)

/-- A quotient with a sticky last bit, of more bits than any format keeps. -/
def divSticky (m n : Nat) : Nat × Int :=
  let k := 70 + bitLen n
  let q := m * 2 ^ k / n
  (2 * q + b2n (m * 2 ^ k % n != 0), -(k : Int) - 1)

/-- A / B (R113). -/
def fDivV (f : Fmt) (rm : Rm) (a b : FV) : Nat × Nat :=
  if isNan a || isNan b then (fNaN f, nv (isSig a || isSig b))
  else
    match a, b with
    | .inf _, .inf _ => (fNaN f, flagNV)
    | .inf s, .fin t _ _ => (fInf f (s != t), 0)
    | .fin s _ _, .inf t => (fZero f (s != t), 0)
    | .fin s m e, .fin t n g =>
      if n == 0 then (if m == 0 then (fNaN f, flagNV) else (fInf f (s != t), flagDZ))
      else
        let (q, k) := divSticky m n
        fRound f rm (s != t) q (e - g + k)
    | _, _ => (fNaN f, 0)

/-- Integer square root by bits, highest first. -/
def isqrtFrom : Nat → Nat → Nat → Nat
  | 0, _, r => r
  | k + 1, n, r => let t := r + 2 ^ k; isqrtFrom k n (if t * t ≤ n then t else r)

def isqrt (n : Nat) : Nat := isqrtFrom (bitLen n / 2 + 1) n 0

/-- √A (R113). -/
def fSqrtV (f : Fmt) (rm : Rm) (a : FV) : Nat × Nat :=
  match a with
  | .nan s => (fNaN f, nv s)
  | .inf s => if s then (fNaN f, flagNV) else (fInf f false, 0)
  | .fin s m e =>
    if m == 0 then (fZero f s, 0)
    else if s then (fNaN f, flagNV)
    else
      let k : Nat := 140 + (e % 2).toNat
      let n := m * 2 ^ k
      let r := isqrt n
      fRound f rm false (2 * r + b2n (r * r != n)) ((e - (k : Int)) / 2 - 1)

/-- A × B + C with one rounding (R115). -/
def fFmaV (f : Fmt) (rm : Rm) (a b c : FV) : Nat × Nat :=
  let zi := match a, b with
    | .inf _, .fin _ m _ => m == 0
    | .fin _ m _, .inf _ => m == 0
    | _, _ => false
  if isNan a || isNan b || isNan c || zi then (fNaN f, nv (isSig a || isSig b || isSig c || zi))
  else
    let ps := match a, b with
      | .inf s, .inf t => some (s != t)
      | .inf s, .fin t _ _ => some (s != t)
      | .fin s _ _, .inf t => some (s != t)
      | _, _ => none
    match ps, c with
    | some p, .inf t => if p == t then (fInf f p, 0) else (fNaN f, flagNV)
    | some p, _ => (fInf f p, 0)
    | none, .inf t => (fInf f t, 0)
    | none, .fin s3 m3 e3 =>
      match a, b with
      | .fin s1 m1 e1, .fin s2 m2 e2 =>
        let (z, e) := dyAdd (s1 != s2) (m1 * m2) (e1 + e2) s3 m3 e3
        fRoundInt f rm z e (if m1 * m2 == 0 && m3 == 0 then zeroSign rm (s1 != s2) s3 else (match rm with | .rdn => true | _ => false))
      | _, _ => (fNaN f, 0)
    | none, _ => (fNaN f, 0)

/-- Order of two numbers that are no NaNs: −1, 0 or 1; zeros are equal. -/
def fCmp (a b : FV) : Int :=
  match a, b with
  | .inf s, .inf t => if s == t then 0 else if s then -1 else 1
  | .inf s, _ => if s then -1 else 1
  | _, .inf t => if t then 1 else -1
  | .fin s1 m1 e1, .fin s2 m2 e2 =>
    let z := (dyAdd s1 m1 e1 (!s2) m2 e2).1
    if z < 0 then -1 else if z = 0 then 0 else 1
  | _, _ => 0

def fNegative : FV → Bool
  | .inf s => s
  | .fin s _ _ => s
  | .nan _ => false

/-- a precedes b with −0 below +0 (R113). -/
def fBelow (a b : FV) : Bool := fCmp a b == -1 || (fCmp a b == 0 && fNegative a && !fNegative b)

/-- Convert a decoded number to a format. -/
def fConvert (f : Fmt) (rm : Rm) (a : FV) : Nat × Nat :=
  match a with
  | .nan s => (fNaN f, nv s)
  | .inf s => (fInf f s, 0)
  | .fin s m e => fRound f rm s m e

/-- Round to an integer. -/
def fToInt (rm : Rm) (s : Bool) (m : Nat) (e : Int) : Int × Bool :=
  let (q, x) := roundShift rm s m e
  ((if s then -(q : Int) else (q : Int)), x)

/-- An integer rounded to a format. -/
def intToF (f : Fmt) (rm : Rm) (z : Int) : Nat × Nat := fRoundInt f rm z 0 false

end Sys2Proof.Machine
end

