-- ==== Sys2Proof/Machine/Place.lean ====
section
/-! DEFINITION. Where everything is: the tile grid, kinds, segments, modules (R7 to R15), PLACE (R125), the mesh (R16
to R18) and the physical map (R152, R153, R434). -/

namespace Sys2Proof.Machine

/-- Grid tiles are numbered 0 to 12,287 and rim tiles up to 12,543 (R8, R10). -/
def gridTiles : Nat := 12288
def allTiles : Nat := 12544

def isGrid (t : Nat) : Bool := decide (t < gridTiles)
def isRim (t : Nat) : Bool := decide (gridTiles ≤ t) && decide (t < allTiles)

/-- Memory module of a rim tile, and its index i (R10). -/
def rimModule (t : Nat) : Nat := (t - gridTiles) / 32
def rimIndex (t : Nat) : Nat := (t - gridTiles) % 32

/-- x of a tile (R8, R10). -/
def tileX (t : Nat) : Nat :=
  if t < gridTiles then t % 128
  else (if rimModule t < 4 then 32 * rimModule t + rimIndex t else 32 * (rimModule t - 4) + rimIndex t)

/-- y of a tile: −1 and 96 on the rims (R10). -/
def tileY (t : Nat) : Int :=
  if t < gridTiles then ((t / 128 : Nat) : Int)
  else (if rimModule t < 4 then -1 else 96)

/-- The grid tile at (x, y). -/
def tileAt (x y : Nat) : Nat := 128 * y + x

/-- The kinds of a segment's positions, row by row (R11): 0 D, 1 S, 2 A, 3 V. -/
def kindRows : List (List Nat) :=
  [[3,1,0,0,2,0,0,1], [0,0,2,0,3,0,1,0], [1,0,0,2,0,0,3,2], [0,2,0,1,0,0,0,3],
   [1,0,3,0,0,2,0,1], [0,0,1,0,2,3,0,0], [2,0,0,3,0,1,0,2], [0,3,0,2,0,0,1,0]]

/-- Kind of a tile: R11, or 4 for a rim tile (R377). -/
def tileKind (t : Nat) : Nat :=
  if t < gridTiles then (kindRows.getD (t / 128 % 8) []).getD (t % 8) 0 else 4

/-- Panel segment of a grid tile (R9). -/
def gridSeg (t : Nat) : Nat := 16 * (t / 128 / 8) + t % 128 / 8

/-- Segment of a tile; rim tiles belong to none. -/
def segOf (t : Nat) : Option Nat := if t < gridTiles then some (gridSeg t) else none

/-- The segment that a rim tile faces, or a grid tile's own (R167, R225). -/
def faceSeg (t : Nat) : Nat :=
  if t < gridTiles then gridSeg t
  else (if rimModule t < 4 then 0 else 16 * 11) + tileX t / 8

/-- Wafer module of a segment. -/
def segModule (g : Nat) : Nat := 2 * (g / 16 / 6) + g % 16 / 8

/-- Local tile (0, 0) of a segment. -/
def segTile (g : Nat) : Nat := tileAt (8 * (g % 16)) (8 * (g / 16))

/-- Site of a tile: 0 to 3 for WM0 to WM3, 4 + m for MMm (R365). -/
def siteOf (t : Nat) : Nat :=
  if t < gridTiles then 2 * (t / 128 / 48) + t % 128 / 64 else 4 + rimModule t

/-- Tiles of a segment. -/
def segTiles (g : Nat) : List Nat :=
  (List.range 8).flatMap fun y => (List.range 8).map fun x => segTile g + 128 * y + x

/-- Segments of a wafer module. -/
def moduleSegs (m : Nat) : List Nat := (List.range 192).filter fun g => segModule g == m

/-- Tiles of a site. -/
def siteTiles (s : Nat) : List Nat :=
  if s < 4 then (moduleSegs s).flatMap segTiles else (List.range 32).map fun i => gridTiles + 32 * (s - 4) + i

def allSegs : List Nat := List.range 192
def tileList : List Nat := List.range allTiles

/-- Executing core number: tile and index. -/
def coreTile (c : Nat) : Nat := c / 4
def coreIdx (c : Nat) : Nat := c % 4
def coreNo (t i : Nat) : Nat := 4 * t + i

def isMemCore (c : Nat) : Bool := isRim (coreTile c)

/-- The reserved system core of R15. -/
def isSystemCore (t i : Nat) : Bool := isGrid t && i == 3 && t % 8 == 0 && t / 128 % 8 == 0

/-- PLACE of a core (R125). -/
def placeOf (c : Nat) : Word :=
  let t := coreTile c
  let m := if t < gridTiles then siteOf t else 8 + rimModule t
  let g := if t < gridTiles then gridSeg t else 0xFF
  word (m * 2 ^ 27 + g * 2 ^ 19 + b2n (isRim t) * 2 ^ 18 + coreIdx c * 2 ^ 16
    + patI (tileY t) 8 * 2 ^ 8 + tileX t)

/-- Watchroom of a tile's row (R9, R167). -/
def watchroomOf (t : Nat) : Nat :=
  let g := faceSeg t
  2 * (g / 16) + g % 16 / 8

/-! ### The physical map -/

/-- Space of a physical address: bits [51:48]. -/
def spaceOf (pa : Nat) : Nat := pa / 2 ^ 48

def tlmBytes : Nat := 0x300000
def tlmWindow : Nat := 0x400000

/-- Offset within the space. -/
def spaceOff (pa : Nat) : Nat := pa % 2 ^ 48

def spaceBase (k : Nat) : Nat := k * 2 ^ 48

def inTlm (pa : Nat) : Bool := spaceOf pa == 0

/-- Rim tile and core that serve an HBM address (R153). -/
def hbmHome (off : Nat) : Nat × Nat :=
  let m := off / 0x8000000000
  let q := off % 0x8000000000 / 256 % 512
  (gridTiles + 32 * m + 4 * (q / 64) + q % 64 / 16, q % 16 / 4)

/-- Home tile of an address (R172); the PMC and the links are served for the row's west edge and have none. -/
def homeTile (pa : Nat) : Option Nat :=
  let o := spaceOff pa
  match spaceOf pa with
  | 0 => some (o / tlmWindow)
  | 1 => some (o / 0x200000)
  | 2 => some (o / 0x800000)
  | 4 => some (hbmHome o).1
  | _ => none

/-- PCIe link of a host window address (R152). -/
def linkOf (pa : Nat) : Nat := spaceOff pa / 2 ^ 46

/-- Ranges of space 0xF (R434), by offset. -/
inductive DevReg where
  | sdva (g : Nat)
  | sdctl (g : Nat)
  | map (g : Nat) (i : Nat)
  | watchroom (w : Nat)
  | wq (q i : Nat)
  | site (s i : Nat)
  | route (t i : Nat)
  | energy (t : Nat)
  | cecnt (t : Nat)
  | zenergy (z : Nat)
  | menergy (s : Nat)
  | bootst
  | panelid
  | fabric (n : Nat)
deriving DecidableEq, Repr

/-- The doubleword register at an offset of space 0xF, or none where R434 lists no range. -/
def devReg (off : Nat) : Option DevReg :=
  let o := off / 8 * 8
  let blk := o / 2 ^ 32
  let r := o % 2 ^ 32
  match blk with
  | 0 =>
    let g := r / 0x100000
    let k := r % 0x100000
    if g < 192 then
      if k == 0x100 then some (.sdva g)
      else if k == 0x108 then some (.sdctl g)
      else if k == 0x200 || k == 0x208 || k == 0x210 then some (.map g ((k - 0x200) / 8))
      else none
    else none
  | 0x100 => if r % 0x1000 == 0 && r / 0x1000 < 24 then some (.watchroom (r / 0x1000)) else none
  | 0x200 => if r / 0x40 < 32768 then some (.wq (r / 0x40) (r % 0x40 / 8)) else none
  | 0x300 => if r / 0x40 < 12 then some (.site (r / 0x40) (r % 0x40 / 8)) else none
  | 0x400 => if r / 0x400 < allTiles && r % 0x400 < 256 then some (.route (r / 0x400) (r % 0x400 / 8)) else none
  | 0x500 => if r / 8 < allTiles then some (.energy (r / 8)) else none
  | 0x506 => if r / 8 < allTiles then some (.cecnt (r / 8)) else none
  | 0x508 => if r / 8 < 192 then some (.zenergy (r / 8)) else none
  | 0x50A => if r / 8 < 12 then some (.menergy (r / 8)) else none
  | 0x600 => if r == 0 then some .bootst else if r == 0x10 then some .panelid else none
  | 0x700 => if r / 8 < 256 then some (.fabric (r / 8)) else none
  | _ => none

/-- R152: no module could ever populate the address. Tiles that are dark count as such (`dark`). -/
def neverPopulated (dark : Nat → Bool) (pa : Nat) : Bool :=
  let o := spaceOff pa
  match spaceOf pa with
  | 0 => let t := o / tlmWindow
    decide (allTiles ≤ t) || decide (tlmBytes ≤ o % tlmWindow) || dark t
  | 1 => let t := o / 0x200000
    decide (gridTiles ≤ t) || dark t
  | 2 => let t := o / 0x800000
    decide (gridTiles ≤ t) || dark t || (tileKind t != 0 && tileKind t != 2)
  | 4 => decide (8 ≤ o / 0x8000000000) || decide (0x7800000000 ≤ o % 0x8000000000)
  | 8 => false
  | 15 => (devReg o).isNone
  | _ => true

/-! ### The mesh -/

/-- A message's route so far. -/
structure Path where
  hops : Nat
  cross : Nat
  reinject : Nat
deriving DecidableEq, Repr

/-- Hops of rim tiles: to or from the grid tile of their column through the even rim tile (R17). -/
def rimGate (t : Nat) : Nat × Nat × Nat :=
  let i := rimIndex t
  let x := tileX t - i % 2
  (tileAt x (if rimModule t < 4 then 0 else 95), 1 + i % 2, 1)

end Sys2Proof.Machine
end

