-- ==== Sys2Proof/Machine/Memory.lean ====
section
/-! DEFINITION. The units of the panel, memory as every party reads and writes it: the snoop of resident workspaces
(R94), marks (R92), full bits (R156), error codes (R203), watches (R204), undo logs (R429) and address holes (R161). -/

namespace Sys2Proof.Machine

/-! ### Units -/

def getCore (s : State) (c : Nat) : Core := (amGet s.cores c).getD Core.reset
def putCore (s : State) (c : Nat) (k : Core) : State := { s with cores := amSet s.cores c k }
def modCore (s : State) (c : Nat) (f : Core → Core) : State := putCore s c (f (getCore s c))

def getTile (s : State) (t : Nat) : Tile := (amGet s.tiles t).getD Tile.reset
def putTile (s : State) (t : Nat) (k : Tile) : State := { s with tiles := amSet s.tiles t k }
def modTile (s : State) (t : Nat) (f : Tile → Tile) : State := putTile s t (f (getTile s t))

def getSeg (s : State) (g : Nat) : Seg := (amGet s.segs g).getD Seg.reset
def modSeg (s : State) (g : Nat) (f : Seg → Seg) : State := { s with segs := amSet s.segs g (f (getSeg s g)) }

def getSite (s : State) (n : Nat) : Site := (amGet s.sites n).getD Site.reset
def modSite (s : State) (n : Nat) (f : Site → Site) : State := { s with sites := amSet s.sites n (f (getSite s n)) }

/-- Queues are keyed by 4 * tile + Q. -/
def getQueue (s : State) (k : Nat) : Queue := (amGet s.queues k).getD Queue.reset
def modQueue (s : State) (k : Nat) (f : Queue → Queue) : State := { s with queues := amSet s.queues k (f (getQueue s k)) }

def getRegion (s : State) (r : Nat) : Region := (amGet s.regions r).getD Region.reset
def modRegion (s : State) (r : Nat) (f : Region → Region) : State := { s with regions := amSet s.regions r (f (getRegion s r)) }

def getProc (s : State) (w : Nat) : Option Proc := amGet s.procs w
def putProc (s : State) (w : Nat) (p : Proc) : State := { s with procs := amSet s.procs w p }
def modProc (s : State) (w : Nat) (f : Proc → Proc) : State :=
  match amGet s.procs w with
  | some p => putProc s w (f p)
  | none => s

def getWq (s : State) (q : Nat) : WorkQueue := (amGet s.workQueues q).getD WorkQueue.reset
def modWq (s : State) (q : Nat) (f : WorkQueue → WorkQueue) : State := { s with workQueues := amSet s.workQueues q (f (getWq s q)) }

def getWatchroom (s : State) (w : Nat) : Watchroom := (amGet s.watchrooms w).getD Watchroom.reset
def modWatchroom (s : State) (w : Nat) (f : Watchroom → Watchroom) : State :=
  { s with watchrooms := amSet s.watchrooms w (f (getWatchroom s w)) }

def pushMsg (s : State) (m : Msg) : State := { s with msgs := s.msgs ++ [m] }

/-- The next value of the model's order counter. -/
def tick (s : State) : State := { s with order := s.order + 1 }

/-! ### Register-cache slots and the snoop (R93, R94) -/

def slotAt (k : Core) (i : Nat) : Option Slot := (k.slots[i]?).getD none

/-- The slot of a core that holds a process. -/
def slotOf (k : Core) (w : Nat) : Option Nat :=
  [0, 1, 2, 3].find? fun i => match slotAt k i with | some sl => sl.wptr == w | none => false

/-- The core and slot of a tile that hold a process. -/
def residentOf (s : State) (w : Nat) : Option (Nat × Nat) :=
  let t := w / tlmWindow
  [0, 1, 2, 3].findSome? fun i =>
    match slotOf (getCore s (coreNo t i)) w with
    | some j => some (coreNo t i, j)
    | none => none

/-- The resume word of a running process (R89). -/
def resumeWord (sm hp xc : Bool) (pc : PC) : Word :=
  word (b2n sm * 2 ^ 63 + b2n hp * 2 ^ 62 + b2n xc * 2 ^ 61 + pc.toNat / 4 * 4)

/-- The workspaces that may cover an address: that of the head it would lie in, and that of the control block. -/
def headBase (pa : Nat) : Nat := pa / 128 * 128
def ctrlBase (pa : Nat) : Nat := (pa / 128 + 1) * 128

/-- What the snoop of R94 serves: a register of a slot, a CSR of a slot, or the resume word of a running
process. -/
inductive Snoop where
  | reg (c i r : Nat)
  | csr (c i n : Nat)
  | resume (c : Nat)
deriving DecidableEq, Repr

/-- Whether an 8-aligned TLM address is a word that a resident process serves (R94). -/
def snoopOf (s : State) (a : Nat) : Option Snoop :=
  if inTlm a then
    match residentOf s (headBase a) with
    | some (c, i) =>
      if a == headBase a then
        match (getCore s c).run with
        | some r => if r.wptr == a then some (.resume c) else none
        | none => none
      else some (.reg c i ((a - headBase a) / 8))
    | none =>
      match residentOf s (ctrlBase a) with
      | some (c, i) =>
        let n := (a + 128 - ctrlBase a) / 8
        if n < 12 then some (.csr c i n) else none
      | none => none
  else none

def slotReg (s : State) (c i r : Nat) : Word :=
  match slotAt (getCore s c) i with
  | some sl => (sl.regs[r]?).getD 0
  | none => 0

def slotCsr (s : State) (c i n : Nat) : Word :=
  match slotAt (getCore s c) i with
  | some sl => (sl.csrs[n]?).getD 0
  | none => 0

/-! ### Fields of a workspace that read as zero (R89, R90, R124) -/

/-- Bits of a per-process CSR that keep what is written (R125, R126). -/
def pcsrMask (n : Nat) : Word :=
  match n with
  | 0 => 3
  | 1 => 0x7F
  | 5 => 0xF
  | 6 => 0x7FFFFFFFF
  | 7 => 0xF
  | 8 => 0xFFFF
  | 9 => 0xFFFF
  | 10 => 0xFF
  | 11 => 0xFFFFFFFF00000003
  | _ => BitVec.allOnes 64

/-- Bits of the resume word (R89) and of the WAIT word (R90) that are not fixed at zero. -/
def resumeMask : Word := 0xE000FFFFFFFFFFFC
def waitMask : Word := 0xFFFFFFFF0000FF0F

/-- Bits that a write of the 8-aligned doubleword `a` can set: in a process's workspace the fields that R89, R90 and R121 fix at zero
stay zero, elsewhere every bit is kept. -/
def workMask (s : State) (a : Nat) : Word :=
  if inTlm a then
    if (getProc s (headBase a)).isSome then (if a == headBase a then resumeMask else BitVec.allOnes 64)
    else if (getProc s (ctrlBase a)).isSome then
      let o := a + 128 - ctrlBase a
      if o < 96 then pcsrMask (o / 8) else if o == 120 then waitMask else BitVec.allOnes 64
    else BitVec.allOnes 64
  else BitVec.allOnes 64

def setSlot (k : Core) (i : Nat) (sl : Option Slot) : Core := { k with slots := k.slots.setIfInBounds i sl }

/-- Write a register of a slot and set its dirty bit (R93); W0 is never written (R85). -/
def putSlotReg (s : State) (c i r : Nat) (v : Word) : State :=
  match slotAt (getCore s c) i with
  | some sl =>
    if r == 0 then s
    else modCore s c fun k => setSlot k i (some { sl with
      regs := sl.regs.setIfInBounds r v, dirtyR := sl.dirtyR ||| (1 <<< r), badR := sl.badR &&& ~~~(1#16 <<< r) })
  | none => s

/-- XC of a process, running or not (R89, R91). -/
def xcOf (s : State) (c w : Nat) : Bool :=
  match (getCore s c).run with
  | some r => if r.wptr == w then r.xc else bit (word (memLE s.mem w 8)) 61
  | none => bit (word (memLE s.mem w 8)) 61

/-- Set XC (R91). -/
def setXc (s : State) (c w : Nat) : State :=
  let inMem : State := { s with mem := memPut s.mem w 8 (setBits (word (memLE s.mem w 8)) 61 61 1).toNat }
  match (getCore s c).run with
  | some r => if r.wptr == w then modCore s c fun k => { k with run := some { r with xc := true } } else inMem
  | none => inMem

/-- Write a CSR of a slot and set its dirty bit (R93). The first write, by whichever party, sets XC, and the extension then receives
all twelve (R91; log entry 25). -/
def putSlotCsr (s : State) (c i n : Nat) (v : Word) : State :=
  match slotAt (getCore s c) i with
  | some sl =>
    let dirty := if xcOf s c sl.wptr then sl.dirtyC ||| (1 <<< n) else BitVec.allOnes 12
    setXc (modCore s c fun k => setSlot k i (some { sl with
      csrs := sl.csrs.setIfInBounds n v, dirtyC := dirty, badC := sl.badC &&& ~~~(1#12 <<< n) })) c sl.wptr
  | none => s

/-- Write the resume word of a running process: priority, XC and the PC of its next instruction; its mode is fixed while it is RUNNING (R89,
R94, R120; log entry 84). -/
def putRunWord (s : State) (c : Nat) (v : Word) : State :=
  modCore s c fun k => match k.run with
    | some r => { k with run := some { r with hp := bit v 62, xc := bit v 61, pc := BitVec.ofNat 48 (bits v 47 2 * 4) } }
    | none => k

/-- The 8-aligned doubleword at `a` as any party reads it (R94). -/
def dwAt (s : State) (a : Nat) : Word :=
  match snoopOf s a with
  | some (.reg c i r) => slotReg s c i r
  | some (.csr c i n) => slotCsr s c i n
  | some (.resume c) =>
    match (getCore s c).run with
    | some r => resumeWord r.sm r.hp r.xc r.pc
    | none => 0
  | none => word (memLE s.mem a 8)

/-- Write an 8-aligned doubleword, into the slot or the resume word that serves it or into memory (R94). -/
def putDw (s : State) (a : Nat) (v : Word) : State :=
  let x := v &&& workMask s a
  match snoopOf s a with
  | some (.reg c i r) => putSlotReg s c i r x
  | some (.csr c i n) => putSlotCsr s c i n x
  | some (.resume c) => putRunWord s c x
  | none => { s with mem := memPut s.mem a 8 x.toNat }

/-- One byte as any party reads it. -/
def byteAt (s : State) (a : Nat) : Byte := BitVec.ofNat 8 ((dwAt s (a / 8 * 8)).toNat >>> (8 * (a % 8)))

/-- `n` bytes from `a`, the lowest address least significant. -/
def rdN (s : State) (a : Nat) : Nat → Nat
  | 0 => 0
  | n + 1 => (byteAt s a).toNat + 256 * rdN s (a + 1) n

def bytesAt (s : State) (a n : Nat) : List Byte := (List.range n).map fun i => byteAt s (a + i)

/-- Replace one byte of a doubleword. -/
def withByte (v : Word) (i : Nat) (b : Byte) : Word := setBits v (8 * i + 7) (8 * i) b.toNat

def putByte (s : State) (a : Nat) (b : Byte) : State :=
  putDw s (a / 8 * 8) (withByte (dwAt s (a / 8 * 8)) (a % 8) b)

/-- Write the low `n` bytes of `v` from `a` upwards, with no further effect. -/
def putN (s : State) (a : Nat) : Nat → Nat → State
  | 0, _ => s
  | n + 1, v => putN (putByte s a (BitVec.ofNat 8 v)) (a + 1) n (v / 256)

def rdW (s : State) (a : Nat) : Word := dwAt s a

/-- Memory the hardware keeps for itself at 8-aligned addresses of control words, RCBs and tables. -/
def hw (s : State) (a : Nat) : Word := word (memLE s.mem a 8)
def putHw (s : State) (a : Nat) (v : Word) : State := { s with mem := memPut s.mem a 8 v.toNat }

/-! ### Marks and full bits (R92, R156) -/

inductive Mark where | ctrl | head
deriving DecidableEq, Repr

/-- The permanently marked system area at the top of each TLM: trap queue and spill ring (R344, R348). -/
def sysAreaOff : Nat := 0x2EF000

/-- The workspace mark of a TLM address (R92): control block and head word 0, or head words 1 to 15; RCBs and the
other marked areas are refused as the control block is. -/
def markAt (s : State) (pa : Nat) : Option Mark :=
  if inTlm pa then
    if decide (sysAreaOff ≤ pa % tlmWindow) then some .ctrl
    else if s.areas.any (fun m => decide (m.lo ≤ pa) && decide (pa < m.lo + m.len)) then some .ctrl
    else if (getProc s (headBase pa)).isSome then (if pa < headBase pa + 8 then some .ctrl else some .head)
    else if (getProc s (ctrlBase pa)).isSome then some .ctrl
    else none
  else none

/-- Any word of an interval is marked. -/
def anyMark (s : State) (lo len : Nat) : Bool :=
  (List.range ((len + 7) / 8)).any fun i => (markAt s (lo + 8 * i)).isSome

/-- The full bit of a TLM word; marked words read as full (R92). -/
def isFull (s : State) (a : Nat) : Bool := s.full.contains a || (markAt s a).isSome

/-! ### Regions as their control blocks hold them (R233) -/

def rcbField (s : State) (rcb off hi lo : Nat) : Nat := bits (hw s (rcb + off)) hi lo
def putRcb (s : State) (rcb off hi lo v : Nat) : State := putHw s (rcb + off) (setBits (hw s (rcb + off)) hi lo v)

def rcbParent (s : State) (r : Nat) : Nat := rcbField s r 0 51 8 * 256
def rcbState (s : State) (r : Nat) : Nat := rcbField s r 8 63 60
def rcbCkpt (s : State) (r : Nat) : Nat := rcbField s r 8 25 24
def rcbDclass (s : State) (r : Nat) : Nat := rcbField s r 8 22 20
def rcbPrio (s : State) (r : Nat) : Nat := rcbField s r 8 17 16
def rcbTenant (s : State) (r : Nat) : Nat := if r == 0 then 0 else rcbField s r 8 11 0
def rcbOrgX (s : State) (r : Nat) : Nat := rcbField s r 16 55 48
def rcbOrgY (s : State) (r : Nat) : Nat := rcbField s r 16 47 40
def rcbLW (s : State) (r : Nat) : Nat := rcbField s r 16 15 8 + 1
def rcbLH (s : State) (r : Nat) : Nat := rcbField s r 16 7 0 + 1
def rcbPmap (s : State) (r : Nat) : Nat := rcbField s r 24 51 0
def rcbTokcap (s : State) (r : Nat) : Nat := rcbField s r 32 15 0
def rcbHandler (s : State) (r : Nat) : Nat := rcbField s r 40 51 0
def rcbLive (s : State) (r : Nat) : Nat := rcbField s r 48 31 0
def rcbJoin (s : State) (r : Nat) : Nat := rcbField s r 56 47 0
def rcbNchild (s : State) (r : Nat) : Nat := rcbField s r 64 31 0
def rcbBinst (s : State) (r : Nat) : Nat := rcbField s r 72 63 32
def rcbBarr (s : State) (r : Nat) : Nat := rcbField s r 72 31 0

/-- The address carries the marks of an RCB. -/
def isRcb (s : State) (r : Nat) : Bool := s.areas.any fun m => m.lo == r && m.kind == .rcb

/-- A live region: its RCB is marked and its STATE is LIVE or SUSPENDED. -/
def liveRegion (s : State) (r : Nat) : Bool := isRcb s r && decide (rcbState s r < 2)

/-- Chain of parents from a region upwards, itself first. -/
def ancestors (s : State) : Nat → Nat → List Nat
  | 0, _ => []
  | f + 1, r => if r == 0 then [] else r :: ancestors s f (rcbParent s r)

def ancestorsOf (s : State) (r : Nat) : List Nat := ancestors s (s.areas.length + 1) r

/-- `r` is `top` or lies below it. -/
def inTree (s : State) (top r : Nat) : Bool := (ancestorsOf s r).contains top

/-- Regions with a marked RCB. -/
def allRcbs (s : State) : List Nat := (s.areas.filter fun m => m.kind == .rcb).map (·.lo)

/-- A region and every region below it. -/
def treeOf (s : State) (top : Nat) : List Nat := (allRcbs s).filter fun r => inTree s top r

/-- Root of a region, and the region's origin in the root's grid (R233, R377). -/
def rootOrigin (s : State) (r : Nat) : Nat × Nat × Nat :=
  (ancestorsOf s r).foldl (fun (acc : Nat × Nat × Nat) q =>
    if rcbParent s q == 0 then (q, acc.2.1, acc.2.2) else (q, acc.2.1 + rcbOrgX s q, acc.2.2 + rcbOrgY s q)) (r, 0, 0)

/-- Address of the map word of logical (lx, ly) of a region (R377). -/
def mapWordAddr (s : State) (r lx ly : Nat) : Nat :=
  let (root, ox, oy) := rootOrigin s r
  rcbPmap s root + 4 * ((oy + ly) * rcbLW s root + ox + lx)

/-- The map word of logical (lx, ly). -/
def mapWord (s : State) (r lx ly : Nat) : BitVec 32 := BitVec.ofNat 32 (memLE s.mem (mapWordAddr s r lx ly) 4)

def mapTile (w : BitVec 32) : Nat := w.toNat % 2 ^ 14

/-- Logical coordinates of a region's grid, row by row. -/
def logicalGrid (lw lh : Nat) : List (Nat × Nat) :=
  (List.range lh).flatMap fun y => (List.range lw).map fun x => (x, y)

/-- Tiles of a region, row by row. -/
def regionTiles (s : State) (r : Nat) : List Nat :=
  (logicalGrid (rcbLW s r) (rcbLH s r)).map fun p => mapTile (mapWord s r p.1 p.2)

/-- Logical coordinates of a tile in a region. -/
def logicalOf (s : State) (r t : Nat) : Option (Nat × Nat) :=
  (logicalGrid (rcbLW s r) (rcbLH s r)).find? fun p => mapTile (mapWord s r p.1 p.2) == t

/-- The anchor tile: the tile whose TLM holds the RCB (R233). -/
def anchorTile (r : Nat) : Nat := r / tlmWindow

/-! ### Undo logs (R428, R429) -/

def undoOff : Nat := 0x2AF000
def undoCap : Nat := 3276

/-- The region whose open checkpoint interval logs the writes of a tile. -/
def intervalRegion (s : State) (t : Nat) : Option Nat :=
  (s.regions.find? fun p => p.2.interval.isSome && (regionTiles s p.1).contains t).map (·.1)

/-- Tile whose undo log covers an address: TLM and accumulator files are logged. -/
def undoTile (pa : Nat) : Option Nat :=
  match spaceOf pa with
  | 0 => some (pa / tlmWindow)
  | 1 => some (spaceOff pa / 0x200000)
  | _ => none

/-- The granule is in the log of the tile already. -/
def undoHas (s : State) (t g : Nat) : Bool :=
  (List.range (getTile s t).undo).any fun k => memLE s.mem (t * tlmWindow + undoOff + 80 * k) 8 == g

/-- Close the checkpoint interval of a region (R428). -/
def closeInterval (s : State) (r : Nat) : State := modRegion s r fun g => { g with interval := none }

/-- Append an entry to a tile's log: an address, 64 old bytes and 8 zero bytes. A log that is full closes the interval. -/
def undoPush (s : State) (t r addr old : Nat) : State :=
  let n := (getTile s t).undo
  if n < undoCap then
    let e := t * tlmWindow + undoOff + 80 * n
    let m := memPut s.mem e 8 addr
    let m := memPut m (e + 8) 64 old
    let m := memPut m (e + 72) 8 0
    modTile { s with mem := m } t fun k => { k with undo := n + 1 }
  else closeInterval (modRegion s r fun x => { x with undoFull := true }) r

/-- Append an entry for the 64-byte granule at `g`. -/
def undoAppend (s : State) (t g r : Nat) : State := undoPush s t r g (rdN s g 64)

/-- The first write in an interval to each granule is logged (R429). -/
def undoLog (s : State) (pa n : Nat) : State :=
  match undoTile pa with
  | some t =>
    match intervalRegion s t with
    | some r =>
      (List.range ((pa + n - 1) / 64 - pa / 64 + 1)).foldl (fun s i =>
        let g := (pa / 64 + i) * 64
        if undoHas s t g then s else undoAppend s t g r) s
    | none => s
  | none => s

/-- The address doubleword of an entry for the binding of a channel word, and of one for the trigger arming of a tile: no physical address
(R429; log entry 85). -/
def undoBinding (word_ : Nat) : Nat := 2 ^ 63 + word_
def undoArming (t : Nat) : Nat := 2 ^ 62 + t

/-- The first change in an interval of a table entry of tile `t` is logged as a write is (R429). -/
def undoTable (s : State) (t key old : Nat) : State :=
  match intervalRegion s t with
  | some r => if undoHas s t key then s else undoPush s t r key old
  | none => s

/-- The binding of a channel word is about to change. -/
def logBinding (s : State) (t word_ : Nat) : State :=
  undoTable s t (undoBinding word_) (match (getTile s t).bindings.find? (·.word == word_) with
    | some b => b.writer % 2 ^ 64 + 2 ^ 64 * (b.reader % 2 ^ 64) + 2 ^ 128
    | none => 0)

/-- The trigger arming of a tile is about to change. -/
def logArming (s : State) (t : Nat) : State :=
  undoTable s t (undoArming t) ((getTile s t).trigArm.toNat + 2 ^ 64 * (getTile s t).trigSys.toNat)

/-- A write by a party of region `r` at a home outside its map, or to a host window, closes its interval
(R428). -/
def intervalTouch (s : State) (r pa : Nat) : State :=
  if (getRegion s r).interval.isSome then
    match homeTile pa with
    | some t => if (regionTiles s r).contains t then s else closeInterval s r
    | none => if spaceOf pa == 8 then closeInterval s r else s
  else s

/-! ### Error codes (R154, R156, R203) -/

/-- The unit of a check code: 8 bytes, or 16 in HBM. -/
def codeUnit (pa : Nat) : Nat := if spaceOf pa == 4 then 16 else 8

/-- Check codes that an interval touches. -/
def codesOf (pa n : Nat) : List Nat :=
  let u := codeUnit pa
  (List.range ((pa + n - 1) / u - pa / u + 1)).map fun i => (pa / u + i) * u

/-- The doubleword that a slot serves at `a` is uncorrectable there; none where no slot serves the address (R94, R425). -/
def slotBad (s : State) (a : Nat) : Option Bool :=
  match snoopOf s a with
  | some (.reg c i r) => some (match slotAt (getCore s c) i with | some sl => sl.badR.getLsbD r | none => false)
  | some (.csr c i n) => some (match slotAt (getCore s c) i with | some sl => sl.badC.getLsbD n | none => false)
  | some (.resume _) => some false
  | none => none

/-- The doubleword that a slot serves at `a` becomes uncorrectable there. -/
def spoilSlot (s : State) (a : Nat) : State :=
  match snoopOf s a with
  | some (.reg c i r) => modCore s c fun k => match slotAt k i with
      | some sl => setSlot k i (some { sl with badR := sl.badR ||| (1 <<< r) })
      | none => k
  | some (.csr c i n) => modCore s c fun k => match slotAt k i with
      | some sl => setSlot k i (some { sl with badC := sl.badC ||| (1 <<< n) })
      | none => k
  | _ => s

/-- The code at `a` is uncorrectable as a party meets it: in the slot that serves it, or in its store. -/
def codeBad (s : State) (a : Nat) : Bool := (slotBad s a).getD (s.bad.contains a)

/-- A read of the bytes meets an uncorrectable word. -/
def uncorrectable (s : State) (pa n : Nat) : Bool := (codesOf pa n).any (codeBad s)

/-- Count a corrected error of tile `t` in CECNT (R407). -/
def addCe (s : State) (t : Nat) : State :=
  modTile s t fun k => { k with cecnt := if k.cecnt = BitVec.allOnes 32 then k.cecnt else k.cecnt + 1 }

/-- Stack controller of an HBM address (R153): 8 stacks a module. -/
def stackOf (pa : Nat) : Nat := 8 * (spaceOff pa / 0x8000000000) + spaceOff pa % 0x8000000000 / 256 % 512 / 64

/-- A corrected error is counted in CECNT of its tile, or in the stack controller's count for HBM (R154, R425). -/
def countCe (s : State) (pa : Nat) : State :=
  if spaceOf pa == 4 then { s with stackCe := amSet s.stackCe (stackOf pa) ((amGet s.stackCe (stackOf pa)).getD 0 + 1) }
  else match homeTile pa with
    | some t => addCe s t
    | none => s

/-- Reading corrects and counts every correctable error met (R154, R156, R201). -/
def countCorrected (s : State) (pa n : Nat) : State :=
  (codesOf pa n).foldl (fun s a => if s.weak.contains a && (slotBad s a).isNone then countCe { s with weak := setErase s.weak a } a else s) s

/-- A merge into an uncorrectable word is counted at its home (R203). -/
def countMerge (s : State) (pa : Nat) : State :=
  match homeTile pa with
  | some t => modTile s t fun k => { k with uecnt := k.uecnt + 1 }
  | none => s

/-- A write of all bytes of a code leaves valid check bits; a partial one reads the old value to merge, so that a correctable error is
corrected and counted, and an uncorrectable code stays poisoned and is counted (R156, R203). -/
def writeCodes (s : State) (pa n : Nat) : State :=
  let u := codeUnit pa
  let isWhole (a : Nat) : Bool := decide (pa ≤ a) && decide (a + u ≤ pa + n)
  let whole := (codesOf pa n).filter isWhole
  let parts := (codesOf pa n).filter fun a => !isWhole a
  let s := parts.foldl (fun s a => if codeBad s a then countMerge s a else countCorrected s a u) s
  { s with bad := s.bad.filter (fun a => !whole.contains a), weak := s.weak.filter (fun a => !whole.contains a) }

/-! ### Writes performed at their home -/

/-- Notices to the watches of the home that the write overlaps (R204). -/
def sendNotices (s : State) (pa n : Nat) (rel : Bool) : State :=
  match homeTile pa with
  | some t =>
    (getTile s t).watches.foldl (fun s w =>
      if decide (w.pa < pa + n) && decide (pa < w.pa + w.len)
      then pushMsg s (.notice w.wptr w.pa (dwAt s w.pa) (isFull s w.pa) rel) else s) s
  | none => s

/-- Copies in a segment's L2 that a write by one of its cores makes stale (R174, R179). -/
def dropL2 (s : State) (g pa : Nat) : State :=
  { s with l2 := amSet s.l2 g (((amGet s.l2 g).getD []).filter fun x => x.addr != pa / 256 * 256) }

/-- The directory of a home in a segment invalidates the lines of the segment's cores that a write touches, before the write is performed
(R158). -/
def dirInvalidate (s : State) (pa n : Nat) : State :=
  match homeTile pa with
  | some t =>
    if inTlm pa && (segOf t).isSome then
      { s with cores := s.cores.map fun e => (e.1, if segOf (coreTile e.1) == segOf t then
          { e.2 with l1d := e.2.l1d.filter fun x => decide (x.addr + 32 ≤ pa) || decide (pa + n ≤ x.addr) } else e.2) }
    else s
  | none => s

/-- Old values of a word that a write of another party than a job ends (R174, R189). -/
def endOld (s : State) (pa n : Nat) : State :=
  { s with jobOld := s.jobOld.filter fun e => decide (e.addr + 8 ≤ pa) || decide (pa + n ≤ e.addr) }

/-- Doublewords in slots that a partial write leaves poisoned (R203). -/
def spoiledParts (s : State) (pa n : Nat) : List Nat :=
  (codesOf pa n).filter fun a => slotBad s a == some true && !(decide (pa ≤ a) && decide (a + 8 ≤ pa + n))

/-- A write performed at its home: the directory's invalidations, undo log, bytes, check codes, full bit, notices. `full` sets or clears
the full bit of the word; `r` is the writer's region, `rel` whether the write is a release. -/
def performWrite (s : State) (pa n v : Nat) (full : Option Bool) (rel : Bool) (r : Nat) : State :=
  let s := intervalTouch s r pa
  let s := undoLog s pa n
  let s := if n == 0 then s else dirInvalidate (endOld s pa n) pa n
  let s := if n == 0 then s else writeCodes s pa n
  let s := if n == 0 then s else (spoiledParts s pa n).foldl spoilSlot (putN s pa n v)
  let old := s.rels.filter fun a => n == 0 || decide (a + 8 ≤ pa) || decide (pa + n ≤ a)
  let s := { s with rels := if rel then setInsert old (pa / 8 * 8) else old }
  let s := match full with
    | some true => { s with full := setInsert s.full (pa / 8 * 8) }
    | some false => { s with full := setErase s.full (pa / 8 * 8) }
    | none => s
  sendNotices s pa (if n == 0 then 8 else n) rel

/-! ### Address holes (R161) -/

inductive HoleAns where | clear | hole | lost
deriving DecidableEq, Repr

/-- The hole map of tile `src` (R161): the panel's, with the bits that a broadcast under way has reached there changed. -/
def holeSitesOf (s : State) (src : Nat) : BitVec 12 := s.holeSites ^^^ (getTile s src).holeAhead
def holeSegsOf (s : State) (src : Nat) : BitVec 192 := s.holeSegs ^^^ (getTile s src).holeSegAhead

/-- The hole bits for the site and segment of tile `t` in the map of tile `src`. -/
def holeBit (s : State) (src t : Nat) : Bool :=
  (holeSitesOf s src).getLsbD (siteOf t) || (isGrid t && (holeSegsOf s src).getLsbD (gridSeg t))

/-- A message of tile `src` enters the site of tile `t` from outside while its loss is detected and not yet carried out (R367). -/
def siteLosing (s : State) (src t : Nat) : Bool := (getSite s (siteOf t)).losing && siteOf src != siteOf t

/-- An access leaving tile `src` for the home of `pa` (R161); spaces without a home tile are no ranges. Once a loss is detected the
boundary routers of the site answer what enters it from outside (R367). -/
def holeCheck (s : State) (src pa : Nat) : HoleAns :=
  if spaceOf pa == 15 then .clear
  else
    match homeTile pa with
    | some t =>
      if t == src then .clear
      else if holeBit s src t then .hole
      else if siteLosing s src t then .lost
      else .clear
    | none => .clear

/-- ADMITTED, DRAINING or QUIESCED: the states in which a site's ranges are no hole (R161). -/
def siteIn (st : SiteState) : Bool := st == .admitted || st == .draining || st == .quiesced

/-- The segment of a tile is powered down on a site that is in (R368). -/
def segDark (s : State) (t : Nat) : Bool := isGrid t && siteIn (getSite s (siteOf t)).st && !(getSeg s (gridSeg t)).powered

/-- The tile is lost: its site is LOST, or its segment is powered down, with the same effects (R368, R370). -/
def siteLost (s : State) (t : Nat) : Bool := (getSite s (siteOf t)).st == .lost || segDark s t

/-- The router of a tile admits a tenant's messages (R382). -/
def admits (s : State) (t tenant : Nat) : Bool :=
  tenant == 0 || (isGrid t && bits (getTile s t).tenant 11 0 == tenant)
    || (isRim t && (getTile s t).admits.contains tenant)

/-- A tile is dark for R152: its module's defect map lists it (R14). A segment that is powered down counts as dark for place maps
(`mapDark`), while an access to its ranges meets a hole (R161; log entry 60). -/
def isDark (s : State) (t : Nat) : Bool := (getTile s t).dark

/-- A tile that no place map may name (R14, R21): listed in its module's defect map, or in a segment without power. -/
def mapDark (s : State) (t : Nat) : Bool := isDark s t || (isGrid t && !(getSeg s (gridSeg t)).powered)

/-! ### Guards (R264) -/

/-- The job in an entry of an engine queue: key = (4 * tile + Q) * 32 + slot. -/
def jobAt (s : State) (key : Nat) : Option Job :=
  match amGet (getQueue s (key / 32)).entries (key % 32) with
  | some e => e.job
  | none => none

def entryAt (s : State) (key : Nat) : QEntry := (amGet (getQueue s (key / 32)).entries (key % 32)).getD QEntry.reset

def putEntry (s : State) (key : Nat) (e : QEntry) : State :=
  modQueue s (key / 32) fun q => { q with entries := amSet q.entries (key % 32) e }

def modJob (s : State) (key : Nat) (f : Job → Job) : State :=
  let e := entryAt s key
  match e.job with
  | some j => putEntry s key { e with job := some (f j) }
  | none => s

/-- A word of the interval belongs to the workspace of a process whose instruction awaits a reply: a write to it waits for the
boundary (R94, R211). -/
def midInstr (s : State) (pa n : Nat) : Bool :=
  inTlm pa && [0, 1, 2, 3].any fun i =>
    let k := getCore s (coreNo (pa / tlmWindow) i)
    match k.run with
    | some r => k.stall.isSome && decide (r.wptr - 128 < pa + n) && decide (pa < r.wptr + 128)
    | none => false

/-- A write that waits at its home: it overlaps a guard that holds it (R264), or a workspace in the middle of an instruction (R94). `own`
is the writing job's key, if a job writes; `sm` marks a system-mode access, which a guard of a job parked by suspension does not
hold; the guards of `but` do not hold it either. -/
def guardHoldsBut (s : State) (pa n : Nat) (own : Option Nat) (sm : Bool) (but : Guard → Bool) : Bool :=
  midInstr s pa n ||
  match homeTile pa with
  | some t =>
    inTlm pa && (getTile s t).guards.any fun g =>
      decide (g.lo < pa + n) && decide (pa < g.hi) && !but g &&
        (match jobAt s g.key with
         | none => false
         | some j =>
           !(sm && j.st == .parked && j.why == some .suspended) &&
           (match own with
            | some k =>
              if k == g.key then false
              else if k / 32 == g.key / 32 then
                match jobAt s k with
                | some me => decide (j.order < me.order)
                | none => true
              else true
            | none => true))
  | none => false

/-- `guardHoldsBut` with no guard left out. -/
def guardHolds (s : State) (pa n : Nat) (own : Option Nat) (sm : Bool) : Bool := guardHoldsBut s pa n own sm fun _ => false

end Sys2Proof.Machine
end

