-- ==== Sys2Proof/Machine/Route.lean ====
section
/-! DEFINITION. Routes over the mesh and LATMSG (R16 to R18, R383, R408). -/

namespace Sys2Proof.Machine

/-- A grid tile's neighbour through a router port: 0 east, 1 west, 2 north, 3 south (R383). -/
def neighbour (t port : Nat) : Option Nat :=
  let x := t % 128
  let y := t / 128
  match port with
  | 0 => if x < 127 then some (tileAt (x + 1) y) else none
  | 1 => if 0 < x then some (tileAt (x - 1) y) else none
  | 2 => if 0 < y then some (tileAt x (y - 1)) else none
  | 3 => if y < 95 then some (tileAt x (y + 1)) else none
  | _ => none

/-- The rim tile linked to a grid tile: even rim tiles at y = 0 and y = 95 (R17). -/
def rimNeighbour (t : Nat) : Option Nat :=
  let x := t % 128
  let y := t / 128
  if x % 2 == 1 then none
  else if y == 0 then some (gridTiles + x)
  else if y == 95 then some (gridTiles + 128 + x)
  else none

/-- A table entry matches a destination (R383). -/
def routeMatches (e : Word) (dst : Nat) : Bool :=
  let x : Int := (tileX dst : Nat)
  let y := tileY dst
  bit e 63 && decide ((bits e 7 0 : Int) ≤ x) && decide (x ≤ (bits e 15 8 : Int))
    && decide (sx (bits e 23 16) 8 ≤ y) && decide (y ≤ sx (bits e 31 24) 8)

/-- The first entry of a router that matches, waypoints only when `wp` (a reinjected message is routed afresh from
the router that took it in). -/
def routeEntry (s : State) (t dst : Nat) (wp : Bool) : Option Word :=
  (getTile s t).routes.toList.find? fun e => routeMatches e dst && (wp || !bit e 35)

/-- One XY step of a message at a grid tile towards a tile (R17, R383): east or west until x matches the column of the
rim link or the tile, then north or south. -/
def xyStep (t dst : Nat) : Option Nat :=
  let x := t % 128
  let y := t / 128
  let gx := if isGrid dst then dst % 128 else tileX dst - rimIndex dst % 2
  let gy := if isGrid dst then dst / 128 else (if rimModule dst < 4 then 0 else 95)
  if x < gx then neighbour t 0
  else if gx < x then neighbour t 1
  else if y < gy then neighbour t 3
  else if gy < y then neighbour t 2
  else if isGrid dst then none
  else rimNeighbour t

/-- The link crosses the substrate between modules (R18). -/
def crosses (a b : Nat) : Bool := siteOf a != siteOf b

/-- A rim tile's neighbour through a router port: along its module's chain, or through the rim link of an even one (R17, R383). -/
def rimPort (t port : Nat) : Option Nat :=
  match port with
  | 0 => if rimIndex t < 31 then some (t + 1) else none
  | 1 => if 0 < rimIndex t then some (t - 1) else none
  | 4 => if rimIndex t % 2 == 0 then some (rimGate t).1 else none
  | _ => none

/-- The neighbour that a routing table's PORT names (R383). -/
def portHop (t port : Nat) : Option Nat := if isRim t then rimPort t port else if port == 4 then rimNeighbour t else neighbour t port

/-- One step from a rim tile without a table entry: along the chain within the module, else to the grid (R17). -/
def rimStep (t dst : Nat) : Option Nat :=
  if isRim dst && rimModule dst == rimModule t then some (if rimIndex dst < rimIndex t then t - 1 else t + 1)
  else if rimIndex t % 2 == 1 then some (t - 1)
  else some (rimGate t).1

def plainStep (t dst : Nat) : Option Nat := if isRim t then rimStep t dst else xyStep t dst

/-- The next router of a message at `t`, and whether it was reinjected there: by the router's table, else by the default order (R383). -/
def nextHop (s : State) (t dst : Nat) : Option (Nat × Bool) :=
  match routeEntry s t dst true with
  | some e =>
    if bit e 35 then
      match routeEntry s t dst false with
      | some e2 => (portHop t (bits e2 34 32)).map (·, true)
      | none => (plainStep t dst).map (·, true)
    else (portHop t (bits e 34 32)).map (·, false)
  | none => (plainStep t dst).map (·, false)

/-- Follow a message's route (R17, R383). -/
def routeFrom (s : State) : Nat → Nat → Nat → Path → Path
  | 0, _, _, p => p
  | f + 1, t, dst, p =>
    if t == dst then p
    else
      match nextHop s t dst with
      | some (u, re) => routeFrom s f u dst ⟨p.hops + 1, p.cross + b2n (crosses t u), p.reinject + b2n re⟩
      | none => p

def route (s : State) (src dst : Nat) : Path := routeFrom s 1024 src dst ⟨0, 0, 0⟩

/-- Some router of a message's route satisfies `p`. -/
def routeMeets (s : State) (p : Nat → Bool) : Nat → Nat → Nat → Bool
  | 0, _, _ => false
  | f + 1, t, dst =>
    p t || (t != dst && match nextHop s t dst with
      | some (u, _) => routeMeets s p f u dst
      | none => false)

/-- The tile lies in an area that messages are still to be routed around (R383): site n is area n, segment z area 12 + z. -/
def inDetour (s : State) (t : Nat) : Bool :=
  s.detours.any fun a => if a < 12 then siteOf t == a else isGrid t && gridSeg t == a - 12

/-- A message between two tiles is held at a boundary: its route enters a lost area, and it is not addressed into it (R383). -/
def detourHolds (s : State) (src dst : Nat) : Bool :=
  !s.detours.isEmpty && src != dst && !inDetour s dst && routeMeets s (inDetour s) 1024 src dst

/-- A routing-table entry that the PMC may write: must-be-zero bits zero, and a port that leads to a live router (R383). -/
def routeOk (s : State) (t : Nat) (e : Word) : Bool :=
  bits e 62 36 == 0 && (bit e 35 || match portHop t (bits e 34 32) with
    | some u => !(getTile s u).routerDead
    | none => false)

/-- The tables that the PMC computes for routers (R383; log entry 82): what it chooses is not the manual's, only the form of it. -/
def computeTables (s : State) (ts : List Nat) : State :=
  let new := ts.filterMap fun t =>
    let es := (Config.routeTable s.nonce t).take 32
    if es.isEmpty || !es.all (routeOk s t) then none else some (t, es)
  { s with nonce := s.nonce + 1, pmc := { s.pmc with tables := new ++ s.pmc.tables.filter fun x => !ts.contains x.1 } }

/-- A router's 32 entries. -/
def putRoutes (s : State) (t : Nat) (entries : List Word) : State :=
  modTile s t fun k => { k with routes := Vector.ofFn fun (i : Fin 32) => entries.getD i.val 0 }

/-- The tables computed for routers that `p` selects are installed. -/
def installTables (s : State) (p : Nat → Bool) : State :=
  let now := s.pmc.tables.filter fun x => p x.1
  now.foldl (fun s x => putRoutes s x.1 x.2) { s with pmc := { s.pmc with tables := s.pmc.tables.filter fun x => !p x.1 } }

/-- LATMSG after the destination's router accepted a message of core `c` (R18, R126, R408): the latency is that of the route, with
whatever congestion adds, which the model does not time (log entry 8). -/
def noteMsg (s : State) (c dst : Nat) : State :=
  if coreTile c == dst then s
  else
    let p := route s (coreTile c) dst
    let s1 := modCore s c fun k => { k with
      latmsg := word ((2 * p.hops + 6 * p.cross + 4 * p.reinject + (Config.latency s.nonce).toNat) % 2 ^ 32 * 2 ^ 32 + p.cross % 256 * 2 ^ 16 + p.hops % 2 ^ 16) }
    { s1 with nonce := s1.nonce + 1 }

/-- The router that a PCIe link attaches to, on the west edge (log entry 88). -/
def hostRouter (link : Nat) : Nat := tileAt 0 (Config.hostRow link % 96)

/-- The message of core `c` to the home of an address, or to the link of a host window. -/
def noteAt (s : State) (c pa : Nat) : State :=
  if spaceOf pa == 8 then noteMsg s c (hostRouter (linkOf pa))
  else match homeTile pa with
    | some t => noteMsg s c t
    | none => s

end Sys2Proof.Machine
end

