-- ==== Sys2Proof/Machine/Procs.lean ====
section
/-! DEFINITION. Processes: their states, registers and queues (R84 to R94, R217, R218), waiter queues of channels
(R241 to R243), stores arriving at their homes (R193, R264), the end of processes and regions (R135, R227, R236,
R238, R239) and the trap queue (R344, R345). -/

namespace Sys2Proof.Machine

/-! ### Event counters (R407) -/

/-- Add `n` to every HPM counter that selects `code`. -/
def countEvent (code n : Nat) (k : Core) : Core :=
  if k.hpmctl = 0 then k
  else { k with hpm := k.hpm.mapIdx fun i v => if bits k.hpmctl (8 * i + 7) (8 * i) == code then v + word n else v }

def countAt (s : State) (c code n : Nat) : State := modCore s c (countEvent code n)

/-- An instruction retires (R127): INSTRET and event 0x02. -/
def retireCount (k : Core) : Core := countEvent 2 1 { k with instret := k.instret + 1 }

/-! ### Scopes (R173) -/

/-- A location homed at tile `t` (none: host, PMC) lies within a scope of core `c`. -/
def inScope (c : Nat) (sc : Scope) (pa : Nat) : Bool :=
  let t := coreTile c
  match sc with
  | .sys => true
  | .panel => spaceOf pa != 8
  | .mod => match homeTile pa with | some u => siteOf u == siteOf t | none => false
  | .seg => match homeTile pa with
    | some u => u == t || (segOf t).isSome && segOf u == segOf t
    | none => false
  | .tile => homeTile pa == some t

/-- The home lies where R177 applies: the core's segment, or a memory core's own tile. -/
def inSegment (c pa : Nat) : Bool := inScope c .seg pa

/-- An acquire of scope `sc` is performed (R180): the lines homed within the scope and outside the segment go, and blocks of the L2 and
old values of jobs' words are too old from here on (R189). -/
def acquireDone (s : State) (c : Nat) (sc : Scope) : State :=
  let s := tick s
  modCore s c fun k =>
    let k := { k with acqTile := s.order }
    match sc with
    | .tile => k
    | .seg => { k with acqSeg := s.order }
    | .mod => { k with
        acqSeg := s.order, acqMod := s.order, l1d := k.l1d.filter (fun x => !inScope c .mod x.addr || inSegment c x.addr) }
    | _ => { k with
        acqSeg := s.order, acqMod := s.order, acqPanel := s.order, l1d := k.l1d.filter (fun x => inSegment c x.addr) }

/-! ### WAIT and resume words (R89, R90) -/

def waitAt (s : State) (w : Nat) : Word := hw s (w - 8)
def pstate (s : State) (w : Nat) : Nat := bits (waitAt s w) 3 0
def parg (s : State) (w : Nat) : Nat := bits (waitAt s w) 15 8
def wseqOf (s : State) (w : Nat) : BitVec 32 := (waitAt s w).extractLsb' 32 32

def setPstate (s : State) (w st arg : Nat) : State :=
  putHw s (w - 8) (setBits (setBits (waitAt s w) 3 0 st) 15 8 arg)

def bumpWseq (s : State) (w : Nat) : State := putHw s (w - 8) (waitAt s w + word (2 ^ 32))

def isWaiting (st : Nat) : Bool := decide (2 ≤ st) && decide (st ≤ 9)

def resumeAt (s : State) (w : Nat) : Word := hw s w
def resumePc (s : State) (w : Nat) : PC := BitVec.ofNat 48 (bits (resumeAt s w) 47 2 * 4)
def setResumePc (s : State) (w : Nat) (pc : PC) : State := putHw s w (setBits (resumeAt s w) 47 0 pc.toNat)

/-- Mode of a process that is not running. -/
def resumeSm (s : State) (w : Nat) : Bool := bit (resumeAt s w) 63

/-! ### Registers and per-process CSRs (R85, R91, R93) -/

/-- W[d] of process `w` on core `c`: from its slot, or from its head. -/
def regRd (s : State) (c w : Nat) (d : Reg) : Word :=
  if d = 0 then 0
  else match slotOf (getCore s c) w with
    | some i => slotReg s c i d.toNat
    | none => hw s (w + 8 * d.toNat)

/-- Write W[d]; W0 discards (R85). -/
def regWr (s : State) (c w : Nat) (d : Reg) (v : Word) : State :=
  if d = 0 then s
  else match slotOf (getCore s c) w with
    | some i => putSlotReg s c i d.toNat v
    | none => putHw s (w + 8 * d.toNat) v

/-- Reset value of per-process CSR `n` (R121). -/
def csrReset (n : Nat) : Word := if n == 9 then 0x7C00 else 0

/-- Per-process CSR `n` of process `w` on core `c`. -/
def pcsrRd (s : State) (c w n : Nat) : Word :=
  match slotOf (getCore s c) w with
  | some i => slotCsr s c i n
  | none => if xcOf s c w then hw s (w + 8 * n - 128) &&& pcsrMask n else csrReset n

/-- Write a per-process CSR: the first write sets XC, and the extension then receives all twelve (R91, R124; log entry 25). -/
def pcsrWr (s : State) (c w n : Nat) (v : Word) : State :=
  match slotOf (getCore s c) w with
  | some i => putSlotCsr s c i n v
  | none =>
    let s := if xcOf s c w then s
      else (List.range 12).foldl (fun s i => putHw s (w + 8 * i - 128) (csrReset i)) s
    setXc (putHw s (w + 8 * n - 128) v) c w

/-- Doublewords that evicting a slot writes back (R93 step 4): its dirty registers and CSRs, and the resume word. -/
def writeBacks (k : Core) (i : Nat) : Nat :=
  match slotAt k i with
  | some sl => ((List.range 16).countP fun n => sl.dirtyR.getLsbD n) + ((List.range 12).countP fun n => sl.dirtyC.getLsbD n) + 1
  | none => 0

/-- A doubleword written back: with valid check bits, or with the poisoned code when it was uncorrectable (R426). -/
def writeBack (s : State) (a : Nat) (v : Word) (spoiled : Bool) : State :=
  let s := putHw s a v
  { s with bad := if spoiled then setInsert s.bad a else setErase s.bad a, weak := setErase s.weak a }

/-- Write back a slot's dirty registers and CSRs (R93), as its process's workspace. -/
def flushSlot (s : State) (sl : Slot) : State :=
  let s := (List.range 16).foldl (fun s n =>
    if sl.dirtyR.getLsbD n then writeBack s (sl.wptr + 8 * n) ((sl.regs[n]?).getD 0) (sl.badR.getLsbD n) else s) s
  (List.range 12).foldl (fun s n =>
    if sl.dirtyC.getLsbD n then writeBack s (sl.wptr + 8 * n - 128) ((sl.csrs[n]?).getD 0) (sl.badC.getLsbD n) else s) s

/-- Write back a slot's dirty registers and CSRs and empty it (R93); what is written back is counted (R407). -/
def evictSlot (s : State) (c i : Nat) : State :=
  match slotAt (getCore s c) i with
  | none => s
  | some sl =>
    let n := writeBacks (getCore s c) i
    flushSlot (modCore s c fun k => countEvent 0x0A n (setSlot k i none)) sl

/-! ### Run queues (R216, R218) -/

/-- Write the LINK words of a run queue (R88). -/
def writeLinks (s : State) : List Nat → State
  | [] => s
  | [w] => putHw s (w - 32) 0
  | w :: v :: t => writeLinks (putHw s (w - 32) (word v)) (v :: t)

def runQueue (k : Core) (hp : Bool) : List Nat := if hp then k.highQ else k.lowQ

def putRunQueue (s : State) (c : Nat) (hp : Bool) (q : List Nat) : State :=
  writeLinks (modCore s c fun k => if hp then { k with highQ := q } else { k with lowQ := q }) q

/-- The core of a process. -/
def procCore (s : State) (w : Nat) : Nat := match getProc s w with | some p => p.core | none => coreNo (w / tlmWindow) 0

/-- A VC2 or VC3 message arrives for a core: WFI ends (R132). -/
def wakeCore (s : State) (c : Nat) : State := modCore s c fun k => { k with wfi := false }

/-- Tail of the queue that HP selects (R217); a wakeup ends WFI (R132). -/
def enqueueTail (s : State) (w : Nat) : State :=
  let c := procCore s w
  let hp := bit (resumeAt s w) 62
  wakeCore (putRunQueue s c hp (runQueue (getCore s c) hp ++ [w])) c

def enqueueHead (s : State) (w : Nat) : State :=
  let c := procCore s w
  let hp := bit (resumeAt s w) 62
  putRunQueue s c hp (w :: runQueue (getCore s c) hp)

def offRunQueues (s : State) (w : Nat) : State :=
  let c := procCore s w
  let k := getCore s c
  let s := if k.highQ.contains w then putRunQueue s c true (setErase k.highQ w) else s
  if k.lowQ.contains w then putRunQueue s c false (setErase k.lowQ w) else s

/-- A held access is given up (R264). -/
def dropHeldAcc (s : State) (who : HeldBy) : State :=
  if s.tiles.any fun p => p.2.held.any (·.by_ == who) then
    { s with tiles := s.tiles.map fun p => (p.1, { p.2 with held := p.2.held.filter (·.by_ != who) }) }
  else s

/-- A channel step of a plain party that is process `w`. -/
def chanMsgOf (w : Nat) : Msg → Bool
  | .chan _ (.plain (.buf v _ _) _) _ _ => v == w
  | .chan _ (.plain (.value v _) _) _ _ => v == w
  | .chan _ (.plain (.head v _) _) _ _ => v == w
  | _ => false

/-- The running process of a core leaves it with its resume word written (R89, R93): PC `pc`. What its instruction awaited it awaits no
more. The prefetch queue goes when another process comes (R143, `runProc`). -/
def leaveCore (s : State) (c : Nat) (pc : PC) : State :=
  match (getCore s c).run with
  | some r =>
    let s := putHw (dropHeldAcc s (.instr c)) r.wptr (resumeWord r.sm r.hp r.xc pc)
    modCore s c fun k => { k with run := none, wfi := false, stall := none, bufStall := false, hostWord := none }
  | none => s

/-- A process in a stalled state (R260). -/
def stalledProc (s : State) (w : Nat) (p : Proc) : Bool :=
  match pstate s w with
  | 2 => true
  | 3 => (match p.wait with
    | .sel _ _ tb => (match amGet s.selects tb with | some e => e.deadline.isNone | none => false)
    | _ => false)
  | 5 => true
  | 6 => parg s w == 0 && (match p.wait with | .waita _ _ (some _) => false | _ => true)
  | 7 => true
  | _ => false

/-- A process leaves a stalled state: its region's count of stalled clocks starts again, and its report is armed again (R260). -/
def unstall (s : State) (w : Nat) : State :=
  match getProc s w with
  | none => s
  | some p =>
    let g := getRegion s p.rcb
    if stalledProc s w p && (g.stallClocks != 0 || g.stallSent) then
      modRegion s p.rcb fun g => { g with stallClocks := 0, stallSent := false }
    else s

/-- A waiting process enters READY; a suspended one keeps its state and will be READY at RGNRESM (R217, R237). -/
def wake (s : State) (w : Nat) : State :=
  match getProc s w with
  | none => s
  | some _ =>
    let s := modProc (unstall s w) w fun p => { p with wait := .none, waitClocks := 0 }
    let st := pstate s w
    if isWaiting st then enqueueTail (setPstate (bumpWseq s w) w 1 0) w
    else if st == 11 then setPstate s w 11 1
    else s

/-- A notice on its way to process `w` (R204). -/
def noticeTo (w : Nat) : Msg → Bool
  | .notice v _ _ _ _ => v == w
  | _ => false

/-- The watch entries of a process free, at every port, and no notice of theirs arrives any more (R204). -/
def dropWatches (s : State) (w : Nat) : State :=
  { s with
    tiles := s.tiles.map fun p => (p.1, { p.2 with watches := p.2.watches.filter fun x => x.wptr != w })
    msgs := s.msgs.filter fun m => !noticeTo w m }

/-- The page-wait entry of a process frees (R167). -/
def dropPageWait (s : State) (w : Nat) : State :=
  modCore s (procCore s w) fun k => { k with pwait := k.pwait.filter (·.wptr != w) }

/-- The waiting instruction of `w` completes: W[d] = v, PC past the instruction, READY (R217). -/
def finishWait (s : State) (w : Nat) (d : Reg) (v : Word) : State :=
  let c := procCore s w
  let s := dropWatches s w
  let s := regWr s c w d v
  let s := setResumePc s w (resumePc s w + 4)
  let s := modCore s c retireCount
  wake s w

/-- A waiting instruction that is an acquire of panel scope completes (R180, R184). -/
def finishAcq (s : State) (w : Nat) (d : Reg) (v : Word) : State :=
  finishWait (acquireDone s (procCore s w) .panel) w d v

/-- The waiting instruction of `w` is to re-execute from the start. -/
def retryWait (s : State) (w : Nat) : State := wake (dropWatches s w) w

/-- Wake, for re-execution, every process whose wait `p` selects; in the order of their identities. -/
def retryWhere (s : State) (p : WaitInfo → Bool) : State :=
  s.procs.foldl (fun s e => if p e.2.wait && isWaiting (pstate s e.1) then retryWait s e.1 else s) s

/-- Processes that wait for a watch entry or for an entry of their core's page-wait table re-execute once one is free (R167,
R204). -/
def retryFull (s : State) : State :=
  s.procs.foldl (fun s e =>
    let free := match e.2.wait with
      | .watchFull t => decide ((getTile s t).watches.length < 64)
      | .pageFull => decide ((getCore s e.2.core).pwait.length < 4)
      | _ => false
    if free && isWaiting (pstate s e.1) then retryWait s e.1 else s) s

/-- The running process of a core stands at an instruction boundary: its next instruction has not issued, or KILLP has stopped it there
(R135, R200). -/
def betweenInstrs (k : Core) : Bool :=
  (k.stall.isNone || k.stall == some .ending) && match k.run with | some r => !r.held | none => false

/-- A high-priority process has become READY on a core that runs a low-priority one: it is pre-empted at its next boundary (R200,
R217). -/
def preempt (s : State) (c : Nat) : State :=
  let k := getCore s c
  match k.run with
  | some r =>
    if !r.hp && !k.highQ.isEmpty && betweenInstrs k then
      let s := leaveCore s c r.pc
      let s := modProc s r.wptr fun p => { p with slice := some r.slice }
      enqueueHead (setPstate s r.wptr 1 0) r.wptr
    else s
  | none => s

/-! ### Waiter queues of channels (R241 to R243) -/

def chanHead (v : Word) : Nat := bits v 51 0
def chanSt (v : Word) : Nat := bits v 63 62
def chanLost (v : Word) : Bool := bit v 61

/-- A channel word that R242 calls malformed by itself. -/
def chanMalformed (v : Word) : Bool :=
  let st := chanSt v
  let h := chanHead v
  (st == 0 && h != 0) || (st != 0 && h == 0) || ((st == 1 || st == 2) && h % 2 == 1)
    || (st == 3 && h % 2 == 0) || bits v 59 52 != 0

/-- The memory word of a link: select entries carry bit 0 (R243). -/
def linkAddr (l : Nat) : Nat := l / 2 * 2

/-- Link words from `l` on, at most `fuel`. -/
def chainFrom (s : State) : Nat → Nat → List Nat
  | 0, _ => []
  | f + 1, l => if l == 0 then [] else l :: chainFrom s f (bits (hw s (linkAddr l)) 51 0)

/-- More links than any well-formed queue can hold. -/
def chainFuel (s : State) : Nat := s.procs.length + 8 * s.selects.length + 8 * s.tiles.length + 8

def chainOf (s : State) (word : Nat) : List Nat := chainFrom s (chainFuel s) (chanHead (hw s word))

/-- Table and index of a select entry's link (R248). -/
def selEntryOf (s : State) (l : Nat) : Option (Nat × SelAlt) :=
  s.selects.findSome? fun e => (e.2.armed.find? fun a => a.pa == linkAddr l).map fun a => (e.1, a)

/-- A trap-queue slot's link (R344): tile and slot. -/
def slotLinkOf (l : Nat) : Option (Nat × Nat) :=
  let o := l % tlmWindow
  if decide (0x2EF060 ≤ o) && decide (o < 0x2EF860) && (o - 0x2EF060) % 256 == 0 then
    some (l / tlmWindow, (o - 0x2EF060) / 256) else none

def slotLink (t k : Nat) : Nat := t * tlmWindow + 0x2EF060 + 256 * k

/-- Direction of a waiter: true for writers (R241, R245). -/
def linkIsWriter (s : State) (l : Nat) : Bool :=
  if l % 2 == 1 then
    match selEntryOf s l with
    | some (_, a) => a.output
    | none => false
  else if (slotLinkOf l).isSome then true
  else bit (hw s (l + 32 - 16)) 63

/-- Write a channel word's queue: HEAD, ST and the link words (R243). -/
def setChain (s : State) (w : Nat) (q : List Nat) : State :=
  let rec links (s : State) : List Nat → State
    | [] => s
    | [l] => putHw (undoLog s (linkAddr l) 8) (linkAddr l) 0
    | l :: m :: t => links (putHw (undoLog s (linkAddr l) 8) (linkAddr l) (word m)) (m :: t)
  let s := undoLog s w 8
  let s := links s q
  let v := hw s w
  match q with
  | [] => putHw s w (setBits (setBits v 63 62 0) 51 0 0)
  | l :: _ =>
    let st := if l % 2 == 1 then 3 else if linkIsWriter s l then 1 else 2
    putHw s w (setBits (setBits v 63 62 st) 51 0 l)

/-- Unlink one waiter by the walk of R243. -/
def unlink (s : State) (w l : Nat) : State :=
  let q := chainOf s w
  if q.contains l then
    let s := setChain s w (setErase q l)
    putHw (undoLog s (linkAddr l) 8) (linkAddr l) 0
  else s

/-- Unlink the first waiter, which takes no walk: HEAD becomes its link (R243). -/
def unlinkFirst (s : State) (w l : Nat) : State :=
  let m := bits (hw s (linkAddr l)) 51 0
  let st := if m == 0 then 0 else if m % 2 == 1 then 3 else if linkIsWriter s m then 1 else 2
  let s := undoLog (undoLog s w 8) (linkAddr l) 8
  putHw (putHw s w (setBits (setBits (hw s w) 63 62 st) 51 0 m)) (linkAddr l) 0

/-- Append a waiter at the tail (R243). -/
def appendWaiter (s : State) (w l : Nat) : State := setChain s w (chainOf s w ++ [l])

/-- Remove an area's marks. -/
def unmark (s : State) (lo : Nat) : State := { s with areas := s.areas.filter fun m => m.lo != lo }

def mark (s : State) (m : Area) : State := { s with areas := s.areas ++ [m] }

/-- The alternatives of a select that wait in a channel's queue have their step on its way no more (R249). -/
def dropSteps (s : State) (table : Nat) : State :=
  { s with msgs := s.msgs.filter fun m => match m with | .chan _ (.alt t _) _ _ => t != table | _ => true }

/-- Disarm a select: every entry still linked is unlinked, the table's marks clear, CLAIM is free again (R249, R342; log
entry 24). The entries of a lost table stay linked: the steps that meet them find the loss (R251, R256). -/
def disarm (s : State) (table : Nat) : State :=
  match amGet s.selects table with
  | some e =>
    if siteLost s (table / tlmWindow) then
      let s := dropSteps s table
      { s with selects := amErase s.selects table, areas := s.areas.filter fun m => !(m.kind == .sel && m.owner == e.wptr) }
    else
    let s := dropSteps (e.armed.foldl (fun s a => unlink s a.word (a.pa + 1)) s) table
    putHw { s with
      selects := amErase s.selects table
      areas := s.areas.filter fun m => !(m.kind == .sel && m.owner == e.wptr) } (table + 16) 0
  | none => s

/-- The select that a process has in progress. -/
def selectOf (s : State) (w : Nat) : Option Nat := (s.selects.find? fun e => e.2.wptr == w).map (·.1)

/-! ### Accumulator tiles in use (R141) -/

/-- Jobs in the queues of a tile, with their keys. -/
def tileJobs (s : State) (t : Nat) : List (Nat × Job) :=
  [0, 1, 2].flatMap fun q => (getQueue s (4 * t + q)).entries.filterMap fun e =>
    e.2.job.map fun j => ((4 * t + q) * 32 + e.1, j)

/-- Every job on the panel. -/
def allJobs (s : State) : List (Nat × Job) :=
  s.queues.flatMap fun q => q.2.entries.filterMap fun e => e.2.job.map fun j => (q.1 * 32 + e.1, j)

def accBusy (s : State) (t j : Nat) : Bool := (tileJobs s t).any fun p => p.2.accW.getLsbD j
def accHeld (s : State) (t j : Nat) : Bool := (tileJobs s t).any fun p => p.2.accR.getLsbD j

/-- The region is suspended, or its RGNEND waits while a region above it is. -/
def suspendedRegion (s : State) (r : Nat) : Bool :=
  r != 0 && (rcbState s r == 1 || (rcbState s r == 2 && (ancestorsOf s r).any fun q => rcbState s q == 1))

/-- A job that has run and stands parked. -/
def isParked (j : Job) : Bool := j.st == .parked || j.st == .ready

/-- Busy for an access through space 0x1 (R149): a tile whose only writers are parked jobs of suspended regions is not held. -/
def accBusySys (s : State) (t j : Nat) : Bool :=
  (tileJobs s t).any fun p => p.2.accW.getLsbD j && !(isParked p.2 && suspendedRegion s p.2.rcb)

/-- The accumulator tile of a held access, and whether it writes. -/
def accOpTile : AccOp → Nat × Bool
  | .apf off => (off / 16384, false)
  | .ard _ off => (off / 16384, false)
  | .awr off _ => (off / 16384, true)
  | .aclr j => (j, true)

/-- An access of accumulator tile `j` that waited is held no more and has not yet been served; it was issued before `turn` (R141). -/
def accDue (s : State) (t j turn : Nat) : Bool :=
  s.procs.any fun e => match e.2.wait with
    | .acc u op n => u == t && (accOpTile op).1 == j && decide (n < turn) && isWaiting (pstate s e.1) && !accBusy s t j
        && !((accOpTile op).2 && accHeld s t j)
    | .accLd u i _ _ _ n => u == t && i == j && decide (n < turn) && isWaiting (pstate s e.1) && !accBusySys s t j
    | _ => false

/-! ### Accesses held at a port (R264) -/

/-- The job that makes a held access, if one does. -/
def heldJob : HeldBy → Option Nat
  | .job k => some k
  | _ => none

/-- A large transfer captured in the copy queue before a guard's job is not held by it (R246, R264). -/
def moveExempt (s : State) (who : HeldBy) (g : Guard) : Bool :=
  match who with
  | .move w =>
    s.transfers.any fun t => t.word == w && t.viaCopy && g.key / 32 == 4 * t.tile &&
      (match jobAt s g.key with | some j => decide (t.order < j.order) | none => false)
  | _ => false

/-- Whether a write by `who` waits for a guard or for an instruction boundary (R94, R264). -/
def guardHoldsFor (s : State) (pa n : Nat) (who : HeldBy) (sm : Bool) : Bool :=
  guardHoldsBut s pa n (heldJob who) sm (moveExempt s who)

/-- An access that arrived earlier, overlaps and waits only for its turn, or for whatever this one waits for. -/
def heldBefore (s : State) (t : Nat) (who : HeldBy) (lo n : Nat) : Bool :=
  let q := (getTile s t).held
  let mine := q.any (·.by_ == who)
  (q.takeWhile (·.by_ != who)).any fun h =>
    decide (h.lo < lo + n) && decide (lo < h.lo + h.len) && (mine || !guardHoldsFor s h.lo h.len h.by_ h.sm)

/-- A write by `who` must wait at its home: a guard, a workspace in the middle of an instruction, or a write held before it (R94,
R264). -/
def portHolds (s : State) (pa n : Nat) (who : HeldBy) (sm : Bool) : Bool :=
  guardHoldsFor s pa n who sm ||
    match homeTile pa with
    | some t => inTlm pa && heldBefore s t who pa n
    | none => false

/-- The access is held at its port: it keeps the place of its arrival (R264). -/
def noteHeld (s : State) (pa n : Nat) (who : HeldBy) (sm : Bool) : State :=
  match homeTile pa with
  | some t =>
    if (getTile s t).held.any fun h => h.by_ == who && h.lo == pa then s
    else modTile s t fun k => { k with held := k.held ++ [⟨who, pa, n, sm⟩] }
  | none => s

/-! ### Posted stores at their homes (R192, R193, R264) -/

/-- Region of a process, 0 when it has none or has ended. -/
def procRegion (s : State) (w : Nat) : Nat := match getProc s w with | some p => p.rcb | none => 0

/-- Full-bit effect of a store (R191). -/
def kindFull : StKind → Option Bool
  | .stf => some true
  | .sete => some false
  | _ => none

def kindRel : StKind → Bool
  | .rel => true
  | .stf => true
  | _ => false

/-- Bytes that a store writes: SETE writes none (R207). -/
def storeBytes (e : StoreEnt) : Nat := if e.kind == .sete then 0 else e.n

/-- Codes that a write-back of uncorrectable data leaves poisoned (R426). -/
def poisonCodes (s : State) (pa n : Nat) : State :=
  (codesOf pa n).foldl (fun s a => if (slotBad s a).isSome then spoilSlot s a
    else { s with bad := setInsert s.bad a, weak := setErase s.weak a }) s

/-- A store performed at its home; the writer's segment drops its L2 copy (R174). -/
def performStore (s : State) (e : StoreEnt) (core : Nat) : State :=
  let s := performWrite s e.pa (storeBytes e) e.data.toNat (kindFull e.kind) (kindRel e.kind) (procRegion s e.wptr)
  let s := if e.poison && storeBytes e != 0 then poisonCodes s e.pa e.n else s
  match segOf (coreTile core) with
  | some g => dropL2 s g e.pa
  | none => s

/-- Bytes of a store that its port compares: SETE acts on its word. -/
def storeSpan (e : StoreEnt) : Nat := if e.kind == .sete then 8 else e.n

/-- When a store was issued, among the accesses of an accumulator tile: one in its buffer comes after those that wait (R141). -/
def storeTurn (s : State) : HeldBy → Nat
  | .store c i => match amGet (getCore s c).journal i with | some e => e.age | none => s.order + 1
  | _ => s.order + 1

/-- A store by `who` that must wait at its home: a guard, a busy or held accumulator tile, or an access of that tile issued before it (R141,
R149, R202, R264). -/
def storeHeld (s : State) (e : StoreEnt) (who : HeldBy) : Bool :=
  portHolds s e.pa (storeSpan e) who e.sm
    || (spaceOf e.pa == 1 &&
        let t := spaceOff e.pa / 0x200000
        let j := spaceOff e.pa % 0x200000 / 16384
        accBusySys s t j || accHeld s t j || accDue s t j (storeTurn s who))

/-- The boundary router of a site that is not in answers SITELOST to what comes from another site: its loss has been detected, or it is
lost, released or not yet admitted (R161, R162, R367). -/
def siteGone (s : State) (src t : Nat) : Bool :=
  siteLost s t || (siteOf src != siteOf t && ((getSite s (siteOf t)).losing || !siteIn (getSite s (siteOf t)).st))

/-- A store of accumulator tile `j` through space 0x1 that waited is held no more and has not yet been performed; it was issued before
`turn` (R141). -/
def storeDue (s : State) (t j turn : Nat) : Bool :=
  (getTile s t).held.any fun h => spaceOf h.lo == 1 && spaceOff h.lo % 0x200000 / 16384 == j && decide (storeTurn s h.by_ < turn)
    && !accBusySys s t j && !accHeld s t j

/-- Refusal of a posted store of a core at its home (R193): the boundary router of a site that is not in (R161, R367), the router's tenant
check, then the marks. -/
def storeRefusal (s : State) (e : StoreEnt) (core : Nat) : Option Cause :=
  match homeTile e.pa with
  | none => none
  | some t =>
    if siteGone s (coreTile core) t then some .sitelost
    else if !admits s t e.tenant then some .tenant
    else if e.sm then none
    else
      match markAt s e.pa with
      | some .ctrl => some .prot
      | some .head => if e.kind == .stf || e.kind == .sete then some .prot else none
      | none => none

/-- A posted store reaches its home: refused, held, or performed and acknowledged. -/
def storeArrives (s : State) (core idx : Nat) : State :=
  match amGet (getCore s core).journal idx with
  | none => s
  | some je =>
    let e := je.store
    match storeRefusal s e core with
    | some c => pushMsg (dropHeldAcc s (.store core idx)) (.refuse core idx c)
    | none =>
      if storeHeld s e (.store core idx) then noteHeld s e.pa (storeSpan e) (.store core idx) e.sm
      else pushMsg (performStore (dropHeldAcc s (.store core idx)) e core) (.ack core idx)

/-- The counter is uncorrectable: an AMO leaves it unchanged (R211). -/
def counterBad (s : State) (pa : Option Nat) : Bool :=
  match pa with
  | some a => uncorrectable s a 8
  | none => false

/-- A counter decremented at its home by a releasing AMO, notices included, on behalf of a process of region `r` or of none (R227, R236,
R238). -/
def decNow (s : State) (pa : Option Nat) (r : Nat) : State :=
  match pa with
  | some a =>
    if uncorrectable s a 8 then s
    else
      let s := countCorrected s a 8
      performWrite s a 8 ((dwAt s a).toNat + 2 ^ 64 - 1) none true r
  | none => s

/-- A held decrement is tried again at its home (R264). -/
def decArrives (s : State) (turn : Nat) : State :=
  match s.decs.find? (·.turn == turn) with
  | none => s
  | some d =>
    if portHolds s d.pa 8 (.dec turn) d.sm then s
    else
      let s := dropHeldAcc s (.dec turn)
      decNow { s with decs := s.decs.filter (·.turn != turn) } (some d.pa) d.rcb

/-- `decNow` at the counter's port, in the mode `sm` of the AMO: one that the port holds keeps the place of its arrival (R264). -/
def decCounter (s : State) (pa : Option Nat) (r : Nat) (sm : Bool) : State :=
  match pa with
  | some a =>
    let s := tick s
    if portHolds s a 8 (.dec s.order) sm then noteHeld { s with decs := s.decs ++ [⟨s.order, a, r, sm⟩] } a 8 (.dec s.order) sm
    else decNow s (some a) r
  | none => s

/-- The posted stores and the decrements held at a tile that nothing holds any more are served in arrival order (R264). -/
def serveHeld (s : State) (t : Nat) : State :=
  (getTile s t).held.foldl (fun s h => match h.by_ with
    | .store c i => storeArrives s c i
    | .dec n => decArrives s n
    | _ => s) s

/-- Free the journal entries of a process that were refused (R346). -/
def dropRefused (s : State) (c w : Nat) : State :=
  modCore s c fun k => { k with journal := k.journal.filter fun e => !(e.2.rf && e.2.store.wptr == w) }

/-! ### Jobs leaving their entries (R264, R266) -/

/-- Release a job's guards at every tile and its read holds; held stores proceed, and ENQs waiting for a guard
retry. -/
def releaseGuards (s : State) (key : Nat) : State :=
  let ts := (s.tiles.filter fun p => p.2.guards.any fun g => g.key == key).map (·.1)
  let s := modJob s key fun j => { j with accR := 0, late := [] }
  let s := ts.foldl (fun s t => modTile s t fun k => { k with guards := k.guards.filter fun g => g.key != key }) s
  let s := ts.foldl serveHeld s
  ts.foldl (fun s t => retryWhere s fun i => match i with | .guard u _ => u == t | _ => false) s

/-- CALLR, CAGTH and CRSCT (R276). -/
def isCollective (w : CWord) : Bool := cEop w == 0x50 || cEop w == 0x51 || cEop w == 0x52

/-- A collective that sent its start step leaves its entry; when it has reached DONE its core's next sequence number advances, and an
entry whose CGLEAVE has come due goes (R278, R374). -/
def collAdvance (s : State) (key : Nat) (done : Bool) : State :=
  match (entryAt s key).job with
  | some j =>
    if isCollective j.cmd && j.started then
      let g := (collOf j.cmd).grp.toNat
      let s := { s with
        collStarts := s.collStarts.map (fun (x : CollStart) => if x.key == some key then { x with key := none } else x)
        msgs := s.msgs.filter (· != .start key) }
      let up (e : GroupEnt) : GroupEnt := if e.grp == g && e.core == j.core % 4 then { e with next := e.next + 1 } else e
      if !done then s else modTile s (key / 128) fun k => { k with groups := (k.groups.map up).filter (fun e => e.leave != some e.next) }
    else s
  | none => s

/-- The forwarding to an entry that a map commit set up ends with its job (R378). -/
def endForward (s : State) (key : Nat) : State :=
  if s.queues.any fun q => q.2.entries.any fun e => e.2.fwd == some key then
    { s with queues := s.queues.map fun (q : Nat × Queue) => (q.1, { q.2 with
        entries := q.2.entries.map fun (e : Nat × QEntry) => (e.1, if e.2.fwd == some key then { e.2 with fwd := none } else e.2) }) }
  else s

/-- Old values of words that the job wrote: from here on an acquire of a scope that holds its completion word ends them (R189). -/
def oldDone (s : State) (key : Nat) : State :=
  if s.jobOld.isEmpty then s
  else
    let s := tick s
    { s with jobOld := s.jobOld.map fun e => if e.key == key && e.done.isNone then { e with done := some s.order } else e }

/-- Free an entry, DONE or not; ENQs waiting for one re-execute (R262). -/
def leaveEntry (s : State) (key : Nat) (result : Option Word) (done : Bool) : State :=
  let s := oldDone (endForward (collAdvance (dropHeldAcc s (.job key)) key done) key) key
  let e := entryAt s key
  let s := putEntry s key { e with taken := none, job := none, result := result }
  let s := retryWhere s fun i => match i with | .queue k => k == key / 32 | _ => false
  serveHeld s (key / 32 / 4)

/-- Free the entry of a job that has reached DONE, or one that an ENQ held. -/
def freeEntry (s : State) (key : Nat) (result : Option Word) : State := leaveEntry s key result true

/-- A job is discarded: no completion word, no trap (R266). -/
def discardJob (s : State) (key : Nat) : State := leaveEntry (releaseGuards s key) key none false

def regionJobs (s : State) (r : Nat) : List Nat := ((allJobs s).filter fun p => p.2.rcb == r).map (·.1)

/-! ### Barriers (R239, R240) -/

/-- A resident process's registers and CSRs are written back, and its slot is clean (R428). -/
def writeBackSlot (s : State) (w : Nat) : State :=
  let c := procCore s w
  match slotOf (getCore s c) w with
  | some i =>
    match slotAt (getCore s c) i with
    | some sl =>
      let n := writeBacks (getCore s c) i
      modCore (flushSlot s sl) c fun k => countEvent 0x0A n (setSlot k i (some { sl with dirtyR := 0, dirtyC := 0 }))
    | none => s
  | none => s

/-- The four granules of a workspace are appended to its tile's undo log (R428). -/
def logWorkspace (s : State) (r w : Nat) : State :=
  [0, 1, 2, 3].foldl (fun s i => undoAppend s (w / tlmWindow) (w - 128 + 64 * i) r) s

/-- Open a checkpoint interval over the participants just released (R428): fresh logs on every tile of the map, the participants' registers
written back, and their workspaces logged. -/
def openInterval (s : State) (r : Nat) (ws : List (Nat × Reg)) : State :=
  let ps := ws.map (·.1)
  let saved := ps.map fun w => ⟨w, procCore s w, match getProc s w with | some q => q.join | none => none⟩
  let v : Interval := ⟨rcbLive s r, rcbBarr s r, rcbBinst s r, saved, []⟩
  let s := (regionTiles s r).foldl (fun s t => modTile s t fun k => { k with undo := 0 }) s
  let s := modRegion (ps.foldl writeBackSlot s) r fun g => { g with interval := some v, undoFull := false, spawned := [] }
  let s := ps.foldl (fun s w => logWorkspace s r w) s
  let base := (regionTiles s r).map fun t => (t, (getTile s t).undo)
  modRegion s r fun g => { g with interval := g.interval.map fun v => { v with base := base } }

def barrierDest : WaitInfo → Reg
  | .barrier d _ => d
  | _ => 0

/-- Close the open instance when BARR equals LIVE (R239); with CKPT 1 and a BARCK among the arrivals, only once no job
of the region remains (R428). -/
def barrierCheck (s : State) (r : Nat) : State :=
  let g := getRegion s r
  let ck := g.arrivals.any (·.2) && rcbCkpt s r == 1
  if r != 0 && rcbBarr s r == rcbLive s r && !g.arrivals.isEmpty && !(ck && !(regionJobs s r).isEmpty) then
    let inst := rcbBinst s r
    let who := g.arrivals.map fun a => (a.1, match getProc s a.1 with | some p => barrierDest p.wait | none => 0)
    let s := putRcb (putRcb s r 72 63 32 (inst + 1)) r 72 31 0 0
    let s := modRegion s r fun x => { x with arrivals := [] }
    let s := who.foldl (fun s p => finishAcq s p.1 p.2 (word inst)) s
    if ck then openInterval s r who else s
  else s

/-- Withdraw the arrival of a process at an open instance (R239). -/
def withdrawArrival (s : State) (w : Nat) : State :=
  let r := procRegion s w
  let g := getRegion s r
  if g.arrivals.any (·.1 == w) then
    putRcb (modRegion s r fun x => { x with arrivals := x.arrivals.filter (·.1 != w) }) r 72 31 0 (rcbBarr s r - 1)
  else s

/-! ### The end of a region (R236) -/

/-- A decrement of a join counter waits at its home, in the mode `sm` of the AMO (R264). -/
def counterHeld (s : State) (pa : Option Nat) (sm : Bool) : Bool :=
  match pa with
  | some a => guardHolds s a 8 none sm
  | none => false

/-- A counter incremented at its home (R223). -/
def incCounter (s : State) (pa : Option Nat) (r : Nat) : State :=
  match pa with
  | some a =>
    let s := countCorrected s a 8
    performWrite s a 8 ((dwAt s a).toNat + 1) none false r
  | none => s

/-- A region in ENDING has ended: LIVE and NCHILD zero and no job left. -/
def regionDone (s : State) (r : Nat) : Bool :=
  isRcb s r && rcbState s r == 2 && rcbLive s r == 0 && rcbNchild s r == 0 && (regionJobs s r).isEmpty

/-- Clear the trigger bits that a region owns, at every tile of its map (R411). -/
def clearTriggers (s : State) (r : Nat) : State :=
  (regionTiles s r).foldl (fun s t =>
    let k := getTile s t
    let base := t * tlmWindow + bits k.trigBase 21 10 * 1024
    let own := (List.range 32).filter fun i => k.trigArm.getLsbD i && bits (hw s (base + 32 * i + 16)) 51 8 * 256 == r
    if own.isEmpty then s
    else modTile (logArming s t) t fun k => { k with trigArm := own.foldl (fun a i => a &&& ~~~(1#32 <<< i)) k.trigArm }) s

/-- The token requests of a region end with it (R389). -/
def endRequests (s : State) (r : Nat) : State :=
  { s with cores := s.cores.map fun e => (e.1, match e.2.request with
    | some (_, q) => if q == r then { e.2 with request := none } else e.2
    | none => e.2) }

/-- Areas that a region's control block keeps marked: the RCB, a root's place map, the undo logs. -/
def clearRegionMarks (s : State) (r : Nat) : State :=
  { s with areas := s.areas.filter fun m => !(m.owner == r && m.kind != .sel && m.kind != .sysArea) && m.lo != r }

/-- A command processor ends its region once LIVE, NCHILD and the region's jobs are zero: until then the launched processes spawn
into it (R236, R340, R414; log entry 32). -/
def launchEnding (s : State) (r : Nat) : State :=
  if s.launches.any (fun l => l.rcb == r && l.status.isNone) && isRcb s r && rcbState s r == 0 && rcbLive s r == 0 && rcbNchild s r == 0
      && (regionJobs s r).isEmpty then putRcb s r 8 63 60 2 else s

/-- Mode of the AMO on a region's JOIN counter: that of the processes in RGNEND on it; a command processor's is system mode (R236, R264; log
entry 32). -/
def endMode (s : State) (r : Nat) : Bool :=
  !s.procs.any fun e => match e.2.wait with | .rgnend _ q => q == r && !resumeSm s e.1 | _ => false

/-- The processes in RGNEND on a region that has ended complete (R236), and so do those on the parents that this lets
end; an uncorrectable JOIN counter is an ECCU of theirs (R211). -/
def rgnEndCheck (s : State) : Nat → Nat → State
  | 0, _ => s
  | f + 1, r =>
    let s := launchEnding s r
    let join := (getRegion s r).join
    let sm := endMode s r
    if regionDone s r && !counterHeld s join sm then
      let parent := rcbParent s r
      let s := clearTriggers s r
      let s := putRcb s r 8 63 60 3
      let s := clearRegionMarks s r
      let s := if parent == 0 then s else putRcb s parent 64 31 0 (rcbNchild s parent - 1)
      let s := if parent == 0 then s else closeInterval s parent
      let bad := counterBad s join
      let s := endRequests (decCounter s join 0 sm) r
      let s := s.procs.foldl (fun s e =>
        match e.2.wait with
        | .rgnend d q =>
          if q != r then s
          else if bad then modProc s e.1 fun p => { p with pend := p.pend ++ [⟨.eccu, 0, 0, 0⟩] }
          else finishWait s e.1 d 0
        | _ => s) s
      let s := { s with launches := s.launches.map fun l =>
        if l.rcb == r && l.status.isNone then { l with status := some (0, 0) } else l }
      if parent == 0 then s else rgnEndCheck s f parent
    else s

def regionEnds (s : State) (r : Nat) : State := rgnEndCheck s (s.areas.length + 1) r

/-! ### The end of a process (R135, R227) -/

/-- Free the entries that an ENQ of the process holds while it waits for guards (R262). -/
def dropTaken (s : State) (w : Nat) : State :=
  s.queues.foldl (fun s q => q.2.entries.foldl (fun s e =>
    if e.2.taken == some w then freeEntry s (q.1 * 32 + e.1) e.2.result else s) s) s

/-- Clear LOCK of the map at `m` (R359). -/
def clearLock (s : State) (m r : Nat) : State := performWrite s m 8 ((dwAt s m).toNat % 2 ^ 63) none false r

/-- What a process holds while it waits is given back: an ENQ's entry, a map's LOCK (R262, R359). -/
def dropHeld (s : State) (w : Nat) : State :=
  let s := dropTaken s w
  match getProc s w with
  | some p => match p.wait with
    | .lock m _ _ _ _ => clearLock s m p.rcb
    | _ => s
  | none => s

/-- Claims of two selects under way that involve a table end: the other word is free again, and a visitor that lives on repeats its
step (R252). -/
def undoClaims (s : State) (tb : Nat) : State :=
  s.msgs.foldl (fun s m =>
    match m with
    | .claim wd p mine theirs =>
      if mine == tb then putHw { s with msgs := s.msgs.erase m } (theirs + 16) 0
      else if theirs == tb then putHw { s with msgs := s.msgs.map fun x => if x == m then .chan wd p false false else x } (mine + 16) 0
      else s
    | _ => s) s

/-- A process's channel step on its way is given up, and its select is disarmed (R135, R249). -/
def leaveStep (s : State) (w : Nat) : State :=
  let s := { s with msgs := s.msgs.filter fun m => !chanMsgOf w m }
  match selectOf s w with
  | some tb => disarm (undoClaims s tb) tb
  | none => s

/-- Take a process out of everything it waits in: waiter queues, selects, watches, page waits, arrivals (R135, R342). -/
def leaveWait (s : State) (w : Nat) : State :=
  match getProc s w with
  | none => s
  | some p =>
    let s := match p.wait with
      | .chan _ _ wd => unlink s wd (w - 32)
      | _ => s
    let s := dropPageWait (dropWatches (dropHeld (leaveStep s w) w) w) w
    withdrawArrival s w

/-- Jobs of a process that ends: no later process of its workspace is their issuer (R271). -/
def orphanJobs (s : State) (w : Nat) : State :=
  (allJobs s).foldl (fun s p => if p.2.wptr == w then modJob s p.1 fun j => { j with orphan := true } else s) s

/-- What the end of a process does to its join counter: nothing, the AMO of an ENDP that its port has let pass, or an AMO in the mode of the
process (R227, R238, R264). -/
inductive JoinDec where | none | now | port
deriving DecidableEq, Repr

/-- End a process in any state: off every queue, marks cleared, slot freed without write-back, LIVE − 1; `dec` tells what becomes of its
join counter (R135, R227, R238). -/
def endProcWith (s : State) (w : Nat) (dec : JoinDec) : State :=
  match getProc s w with
  | none => s
  | some p =>
    let c := p.core
    let sm := match (getCore s c).run with | some r => if r.wptr == w then r.sm else resumeSm s w | none => resumeSm s w
    let s := offRunQueues (leaveWait (unstall s w) w) w
    let s := match (getCore s c).run with
      | some r => if r.wptr == w then dropHeldAcc s (.instr c) else s
      | none => s
    let s := modCore s c fun k =>
      let k := match k.run with | some r => if r.wptr == w then { k with run := none, wfi := false, stall := none, bufStall := false, hostWord := none, prefetch := [], lastRan := 0 } else k | none => k
      match slotOf k w with | some i => setSlot k i none | none => k
    let s := if isWaiting (pstate s w) then bumpWseq s w else s
    let s := setPstate s w 12 0
    let s := match dec with
      | .none => s
      | .now => decNow s p.join p.rcb
      | .port => decCounter s p.join p.rcb sm
    let s := orphanJobs { s with procs := amErase s.procs w } w
    if p.rcb == 0 || p.dying then s
    else
      let s := putRcb s p.rcb 48 31 0 (rcbLive s p.rcb - 1)
      regionEnds (barrierCheck s p.rcb) p.rcb

/-- `endProcWith` for KILLP (`dec`) and for an abort. -/
def endProc (s : State) (w : Nat) (dec : Bool) : State := endProcWith s w (if dec then .port else .none)

/-- End a process by KILLP or an abort: its refused stores leave the journal (R135, R346). -/
def killProc (s : State) (w : Nat) (dec : Bool) : State := endProc (dropRefused s (procCore s w) w) w dec

/-! ### Suspension (R136, R237) -/

/-- The waits that a suspended process keeps: channels, selects and barriers (R237, R239). -/
def keepsWait : WaitInfo → Bool
  | .chan _ _ _ => true
  | .sel _ _ _ => true
  | .barrier _ _ => true
  | _ => false

/-- The process gives up its place among those that await a map's LOCK (R364). -/
def noTurn (s : State) (w : Nat) : State := modProc s w fun p => { p with lockTurn := none }

/-- What the core's instruction waits for stands behind a guard that a suspension keeps set until RGNRESM (R264): a suspension gives the
instruction up (log entry 86). -/
def heldForGood (s : State) (c : Nat) : Bool :=
  let mine : HeldBy → Bool
    | .instr k => k == c
    | .own k => k == c
    | .store k _ => k == c
    | _ => false
  s.tiles.any fun p => p.2.held.any fun h => mine h.by_ && p.2.guards.any fun g =>
    decide (g.lo < h.lo + h.len) && decide (h.lo < g.hi) &&
      match jobAt s g.key with | some j => j.st == .parked && j.why == some .suspended | none => false

/-- Suspend one process at an instruction boundary (R237): WSEQ rises. One whose instruction has issued is not at a boundary. What is left of
a pre-empted process's timeslice stays with it (R218; log entry 87). -/
def suspendProc (s : State) (w : Nat) : State :=
  match getProc s w with
  | none => s
  | some p =>
    let k := getCore s p.core
    let evict (s : State) : State := match slotOf (getCore s p.core) w with | some i => evictSlot s p.core i | none => s
    let st := pstate s w
    match k.run with
    | some r =>
      if r.wptr == w then
        if betweenInstrs k || (k.stall.isNone && heldForGood s p.core) then
          setPstate (bumpWseq (evict (leaveCore (noTurn s w) p.core r.pc)) w) w 11 0
        else s
      else other s p evict st
    | none => other s p evict st
where
  other (s : State) (p : Proc) (evict : State → State) (st : Nat) : State :=
    if st == 1 then setPstate (bumpWseq (evict (offRunQueues (noTurn s w) w)) w) w 11 1
    else if isWaiting st then
      let s := unstall s w
      let s := if keepsWait p.wait then modProc s w fun p => { p with keptArg := parg s w }
        else
          modProc (dropPageWait (dropWatches (dropHeld (noTurn s w) w) w) w) w fun p => { p with wait := .none, waitClocks := 0 }
      setPstate (bumpWseq (evict s) w) w 11 st
    else s

/-- Park a job at a granule boundary (R266). -/
def parkJob (s : State) (key : Nat) (why : ParkWhy) : State :=
  let s := tick s
  let s := modJob s key fun j => { j with st := .parked, why := some why, parkOrder := s.order, inFlight := false }
  if why == .suspended then serveHeld s (key / 32 / 4) else s

def endWptr : ChanEnd → Nat
  | .buf w _ _ => w
  | .value w _ => w
  | .head w _ => w
  | .slot _ _ => 0
  | .unit _ _ => 0

/-- A completed rendezvous, moving or spilled, satisfies `p` (R246, R348). -/
def anyMeeting (s : State) (p : Transfer → Bool) : Bool := s.transfers.any p || s.tiles.any fun e => e.2.spill.any p

/-- The process is a party of a rendezvous that is complete and whose data has not moved. -/
def inTransfer (s : State) (w : Nat) : Bool := anyMeeting s fun t => endWptr t.writer == w || endWptr t.reader == w

/-- The trap-queue slot is the writer of such a rendezvous. -/
def slotMoves (s : State) (t k : Nat) : Bool := anyMeeting s fun x => x.writer == .slot t k

/-- A party of the transfer is a process of the tree under `r`. -/
def transferTouches (s : State) (r : Nat) (t : Transfer) : Bool :=
  [t.writer, t.reader].any fun e =>
    match getProc s (endWptr e) with
    | some p => inTree s r p.rcb
    | none => false

/-- Suspend whatever of the tree under `r` stands at a boundary. -/
def suspendTree (s : State) (r : Nat) : State :=
  let s := s.procs.foldl (fun s e => if inTree s r e.2.rcb then suspendProc s e.1 else s) s
  (allJobs s).foldl (fun s p =>
    if inTree s r p.2.rcb && p.2.st == .running && !p.2.inFlight && !p.2.last then parkJob s p.1 .suspended else s) s

/-- The suspension of the tree under `r` is complete (R136). -/
def suspDone (s : State) (r : Nat) : Bool :=
  (s.procs.all fun e => !inTree s r e.2.rcb || decide (10 ≤ pstate s e.1))
    && (allJobs s).all (fun p => !inTree s r p.2.rcb || p.2.st != .running)
    && s.transfers.all (fun t => !transferTouches s r t)

/-- Carry on every suspension at work, whether or not its RGNSUSP still waits; that retires with status 0 once all is complete, and what waits
behind it re-executes (R136, R138). -/
def suspProgress (s : State) : State :=
  s.regions.foldl (fun s g =>
    if (getRegion s g.1).suspending then
      let s := suspendTree s g.1
      if suspDone s g.1 then
        let s := modRegion s g.1 fun x => { x with suspending := false }
        let s := s.procs.foldl (fun s e => match e.2.wait with
          | .susp d r => if r == g.1 then finishWait s e.1 d 0 else s
          | _ => s) s
        retryWhere s fun i => i == .suspNext g.1
      else s
    else s) s

/-! ### Trap queues and aborts (R238, R344, R345) -/

/-- Reset state of a tile's accumulator file (R140, R145). -/
def resetAcc (s : State) (t : Nat) : State :=
  let base := spaceBase 1 + t * 0x200000
  let out (a : Nat) : Bool := !(decide (base ≤ a) && decide (a < base + 0x200000))
  let s := { s with mem := s.mem.filter (fun c => out c.1), bad := s.bad.filter out, weak := s.weak.filter out }
  modTile s t fun k => { k with accLive := 0, accType := 0, accOwner := none }

/-- The handler channel of a region: HANDLER, or the default fault handler of the segment that holds or faces the
anchor tile (R234, R344). -/
def handlerOf (s : State) (rcb : Nat) : Nat :=
  if rcbHandler s rcb == 0 then (getSeg s (faceSeg (anchorTile rcb))).defaultHandler else rcbHandler s rcb

/-- The channel a trap-queue slot of tile `t` is offered on. -/
def slotHandler (s : State) (t : Nat) (x : TrapSlot) : Nat :=
  match x.dflt with
  | some g => (getSeg s g).defaultHandler
  | none => if x.rcb == 0 then (getSeg s (faceSeg t)).defaultHandler else handlerOf s x.rcb

/-- Take a trap-queue slot off its handler channel. -/
def unlinkSlot (s : State) (t k : Nat) : State :=
  let l := slotLink t k
  match (getTile s t).trapQ[k]? with
  | some (some x) =>
    if x.offered then unlink s (slotHandler s t x) l
    else s
  | _ => s

/-- An offer of a trap-queue slot on its way. -/
def offerOf (t k : Nat) : Msg → Bool
  | .chan _ (.plain (.slot u i) _) _ _ => u == t && i == k
  | _ => false

/-- Empty a trap-queue slot: off its handler's channel, its offer gone, its place in the order gone (R344, R345). -/
def clearSlot (s : State) (t k : Nat) : State :=
  let s := unlinkSlot s t k
  modTile { s with msgs := s.msgs.filter fun m => !offerOf t k m } t fun q => { q with
    trapQ := q.trapQ.setIfInBounds k none, trapOrder := setErase q.trapOrder k }

/-- Remove from a tile's trap queue the slots that `p` selects; one whose rendezvous moves completes it first. -/
def dropSlots (s : State) (t : Nat) (p : TrapSlot → Bool) : State :=
  (List.range 8).foldl (fun s k =>
    match ((getTile s t).trapQ[k]?).getD none with
    | some x =>
      if p x && !slotMoves s t k then clearSlot s t k else s
    | none => s) s

/-- The region that owns a trigger record (R411). -/
def trigOwner (s : State) (t i : Nat) : Nat := bits (dwAt s (t * tlmWindow + bits (getTile s t).trigBase 21 10 * 1024 + 32 * i + 16)) 51 8 * 256

/-- A region's firings that wait for a page or for a guard are dropped with it (R413). -/
def dropFirings (s : State) (r : Nat) : State :=
  let mine : FaultSrc → Bool
    | .trigger t i _ => trigOwner s t i == r
    | _ => false
  { s with
    tiles := s.tiles.map fun p => (p.1, { p.2 with firing := p.2.firing.filter fun x => trigOwner s p.1 x.1 != r })
    watchrooms := s.watchrooms.map fun p => (p.1, { p.2 with
      entries := p.2.entries.map fun e => (e.1, { e.2 with who := e.2.who.filter (!mine ·) }) })
    msgs := s.msgs.filter fun m => match m with | .fault f => !mine f.who | _ => true }

/-- A process of a region that is aborted ends; a party of a transfer in progress once that has completed (R135, R238, R256). -/
def abortProc (s : State) (r w : Nat) : State :=
  if inTransfer s w then
    let s := modProc (noTurn s w) w fun p => { p with dying := true, pend := [] }
    putRcb s r 48 31 0 (rcbLive s r - 1)
  else killProc s w false

/-- Abort one region (R238), whose STATE is ABORTED already. -/
def abortOne (s : State) (r detail : Nat) : State :=
  let ps := (s.procs.filter fun e => e.2.rcb == r).map (·.1)
  let s := modRegion s r fun g => { g with interval := none, arrivals := [], frozen := false, abortDetail := detail, eccu := false, rollingBack := false, suspending := false }
  let s := { s with tiles := s.tiles.map fun (p : Nat × Tile) => (p.1, { p.2 with spill := p.2.spill.filter (·.spilled != some r) }) }
  let s := ps.foldl (fun s w => abortProc s r w) s
  let s := (regionJobs s r).foldl discardJob s
  let s := s.tiles.foldl (fun s p => dropSlots s p.1 fun x => x.rcb == r) s
  let s := clearTriggers s r
  let s := (s.tiles.filter fun p => p.2.accOwner == some r).foldl (fun s p => resetAcc s p.1) s
  let parent := rcbParent s r
  let s := clearRegionMarks s r
  let s := if parent == 0 then s else closeInterval (putRcb s parent 64 31 0 (rcbNchild s parent - 1)) parent
  let s := dropFirings (endRequests (decCounter s (getRegion s r).join 0 true) r) r
  let s := s.procs.foldl (fun s e =>
    match e.2.wait with
    | .rgnend d q => if q == r then finishWait s e.1 d 6 else s
    | .susp d q => if q == r then finishWait s e.1 d 2 else s
    | _ => s) s
  let s := { s with launches := s.launches.map fun l =>
    if l.rcb == r && l.status.isNone then { l with status := some (1, detail) } else l }
  let s := retryWhere s fun i => i == .suspNext r
  if parent == 0 then s else regionEnds s parent

/-- Abort a region and every region below it (R238), deepest first: none of them can end or take a process any more. -/
def abortRegion (s : State) (r detail : Nat) : State :=
  if isRcb s r then
    let rs := (treeOf s r).filter fun q => q != r
    let deep := sortBy (fun a b => decide ((ancestorsOf s b).length ≤ (ancestorsOf s a).length)) rs
    let all := (deep ++ [r]).filter (isRcb s)
    let s := all.foldl (fun s q => putRcb s q 8 63 60 4) s
    all.foldl (fun s q => if isRcb s q then abortOne s q detail else s) s
  else s

def freeSlots (s : State) (t : Nat) : List Nat :=
  (List.range 8).filter fun k => (((getTile s t).trapQ[k]?).getD none).isNone

/-- Queue a record in the tile's next slots (R344); an overflow discards it and aborts its region (R345). -/
def queueRecords (s : State) (t : Nat) (xs : List TrapSlot) (rcb : Nat) : State :=
  let free := freeSlots s t
  if xs.length ≤ free.length then
    (xs.zip free).foldl (fun (s : State) (p : TrapSlot × Nat) => modTile s t fun k => { k with
      trapQ := k.trapQ.setIfInBounds p.2 (some p.1), trapOrder := k.trapOrder ++ [p.2] }) s
  else abortRegion s rcb 3

end Sys2Proof.Machine
end

