-- ==== Sys2Proof/Machine/KvMap.lean ====
section
/-! DEFINITION. Context maps as memory holds them, and the rewrites of a splice and of an unmapping (R350 to R360). A map is named by
the physical address of its header; entry `i` lies 64 + 64 · i bytes above it in the map's virtual pages (log entry 51). -/

namespace Sys2Proof.Machine

/-- A map's header (R350). -/
structure KvHead where
  lock : Bool
  gen : Nat
  cap : Nat
  lastx : Nat
  firstx : Nat
  nuse : Nat
  ntok : Nat
  bad : Bool
deriving DecidableEq, Repr

def kvHead (s : State) (m : Nat) : KvHead :=
  let w (i : Nat) : Word := dwAt s (m + 8 * i)
  let cap := bits (w 1) 44 32
  let first := bits (w 1) 12 0
  let last := bits (w 1) 28 16
  let nuse := bits (w 2) 36 24
  ⟨bit (w 0) 63, bits (w 0) 31 0, cap, last, first, nuse, bits (w 2) 23 0,
    bits (w 1) 63 45 != 0 || [3, 4, 5, 6, 7].any (fun i => w i != 0) || cap == 0 || decide (4096 < cap) || decide (cap < first)
      || decide (cap < last) || decide (cap < nuse)⟩

/-- A context-map entry (R351). -/
structure KvEnt where
  obase : Nat
  rbase : Nat
  ls : Nat
  tag : Word
  delta : Int
  pbase : Nat
  count : Nat
  first : Nat
  ro : Nat
  lc : Nat
  rmask : Nat
  st : Nat
  next : Nat
deriving DecidableEq, Repr

def kvEntOf (w : Nat → Word) : KvEnt :=
  ⟨bits (w 0) 47 0, bits (w 1) 47 0, bits (w 2) 39 0, w 3, sx (bits (w 4) 63 40) 24, bits (w 4) 39 16, bits (w 4) 15 10, bits (w 4) 4 0,
    bits (w 5) 47 40, bits (w 5) 39 32, bits (w 5) 31 0, bits (w 6) 63 62, bits (w 6) 12 0⟩

/-- Physical address of entry `i`. -/
def kvEntry (s : State) (m i : Nat) : Nat :=
  match amGet s.mapPages m with
  | none => m + 64 + 64 * i
  | some ps =>
    let o := m % 2 ^ 16 + 64 + 64 * i
    if o < 2 ^ 16 then m + 64 + 64 * i else ps.getD (o / 2 ^ 16 - 1) 0 + o % 2 ^ 16

def kvEnt (s : State) (m i : Nat) : KvEnt := kvEntOf fun k => dwAt s (kvEntry s m i + 8 * k)

/-- 64 KiB pages that follow the header's page in a map. -/
def mapSpan (s : State) (m : Nat) : Nat :=
  let h := kvHead s m
  if h.bad then 0 else (m % 2 ^ 16 + 64 + 64 * h.cap - 1) / 2 ^ 16

/-- The frames of the map's further pages, kept where they do not simply follow the header's. -/
def setMapPages (s : State) (m : Nat) (ps : List Nat) : State :=
  let flat := (List.range ps.length).map fun k => (m / 2 ^ 16 + k + 1) * 2 ^ 16
  { s with mapPages := if ps == flat then amErase s.mapPages m else amSet s.mapPages m ps }

def kvWords (e : KvEnt) : List Nat :=
  [e.obase, e.rbase, e.ls, e.tag.toNat, patI e.delta 24 * 2 ^ 40 + e.pbase * 2 ^ 16 + e.count * 2 ^ 10 + e.first,
    e.ro * 2 ^ 40 + e.lc * 2 ^ 32 + e.rmask, e.st * 2 ^ 62 + e.next, 0]

/-- Write an entry where it differs, for a writer of region `r`. -/
def putKvEnt (s : State) (m i r : Nat) (e : KvEnt) : State :=
  (kvWords e).zipIdx.foldl (fun s p =>
    let a := kvEntry s m i + 8 * p.2
    if (dwAt s a).toNat == p.1 then s else performWrite s a 8 p.1 none false r) s

def putKvHead (s : State) (m r : Nat) (h : KvHead) : State :=
  let s := performWrite s (m + 8) 8 (h.cap * 2 ^ 32 + h.lastx * 2 ^ 16 + h.firstx) none false r
  let s := performWrite s (m + 16) 8 (h.nuse * 2 ^ 24 + h.ntok) none false r
  performWrite s m 8 (b2n h.lock * 2 ^ 63 + h.gen % 2 ^ 32) none false r

/-- An entry that has been freed (R351). -/
def kvFree : KvEnt := ⟨0, 0, 0, 0, 0, 0, 0, 0, 0xFF, 0xFF, 0, 0, 0⟩

/-- Indices along NEXT from an index plus one, at most `fuel`. -/
def kvChain (s : State) (m cap : Nat) : Nat → Nat → List Nat
  | 0, _ => []
  | f + 1, x => if x == 0 || decide (cap < x) then [] else (x - 1) :: kvChain s m cap f (kvEnt s m (x - 1)).next

/-- The entries in use, in map order (R352, R360): at most NUSE members. -/
def kvInUse (s : State) (m : Nat) : List Nat := let h := kvHead s m; kvChain s m h.cap h.nuse h.firstx

/-! ### Provenance (R353 to R355) -/

/-- Slots of the lookup from `k` probes on: MINV, or none. -/
def wrevProbe (s : State) (base h doc : Nat) : List Nat → Option Nat
  | [] => none
  | k :: t =>
    let v := dwAt s (base + 16 * ((h + k) % 1024))
    if !bit v 63 then none
    else if bits v 39 16 == doc then some (bits v 15 0)
    else wrevProbe s base h doc t

/-- The minimum valid version that the tile's withdrawn-document table gives a document. -/
def wrevLookup (s : State) (t doc : Nat) : Option Nat :=
  let v := (getTile s t).wrevtab
  if bit v 0 then
    wrevProbe s (bits v 51 14 * 2 ^ 14) ((doc ^^^ (doc / 2 ^ 10) ^^^ (doc / 2 ^ 20)) % 1024) doc (List.range 8)
  else none

/-- Why a tag is stale: 0 valid, 1 model, 2 withdrawn with its MINV. -/
def tagStale (s : State) (t : Nat) (model tag : Word) : Nat × Nat :=
  if tag = 0 then (0, 0)
  else if bits tag 63 48 != bits model 15 0 then (1, 0)
  else
    match wrevLookup s t (bits tag 47 24) with
    | some v => if bits tag 23 8 < v then (2, v) else (0, 0)
    | none => (0, 0)

/-! ### Splices (R358) -/

def deltaOk (d : Int) : Bool := decide (-(2 ^ 23) ≤ d) && decide (d < 2 ^ 23)

/-- RMASK restricted to the slots used. -/
def maskTo (first count m : Nat) : Nat := m &&& (2 ^ count - 1) * 2 ^ first

/-- The staged chain from CHAIN, none when it is malformed (status 2). -/
def stagedChain (s : State) (m cap : Nat) : Nat → Nat → Option (List Nat)
  | 0, _ => none
  | f + 1, i =>
    let e := kvEnt s m i
    if e.st != 1 then none
    else if e.next == 0 then some [i]
    else if cap < e.next then none
    else (stagedChain s m cap f (e.next - 1)).map (i :: ·)

/-- A splice that has passed its checks: the chain, and the entry to split. -/
structure SplicePlan where
  p : Nat
  chain : List Nat
  split : Option Nat
  spare : Nat
  lsum : Nat
deriving DecidableEq, Repr

/-- The checks of R358: a status, or the plan. `t` is the issuer's tile, `model` its KVMODEL at issue. -/
def spliceCheck (s : State) (m t : Nat) (arg model : Word) : Nat ⊕ SplicePlan :=
  let h := kvHead s m
  let p := bits arg 23 0
  let c := bits arg 43 32
  let spare := bits arg 59 48
  if h.bad then .inl 5
  else if h.ntok < p then .inl 7
  else if h.cap ≤ c then .inl 1
  else
    match stagedChain s m h.cap h.cap c with
    | none => .inl 2
    | some chain =>
      if chain.any (fun i => (tagStale s t model (kvEnt s m i).tag).1 != 0) then .inl 6
      else
        let used := kvInUse s m
        let lsum : Nat := (chain.map fun i => (kvEnt s m i).count).foldl (· + ·) 0
        let split := used.find? fun i => let e := kvEnt s m i; decide (e.pbase < p) && decide (p < e.pbase + e.count)
        if split.isSome && (!bit arg 63 || decide (h.cap ≤ spare) || (kvEnt s m spare).st != 0) then .inl 3
        else
          let news := (chain.foldl (fun (acc : Nat × List Int) i =>
            let e := kvEnt s m i
            (acc.1 + e.count, acc.2 ++ [e.delta + (acc.1 : Int) - (e.pbase : Int)])) (p, [])).2
          let moved := (used.filter fun i => let e := kvEnt s m i; decide (p ≤ e.pbase) || split == some i).map fun i => (kvEnt s m i).delta + (lsum : Int)
          if decide (2 ^ 24 - 1 < h.ntok + lsum) || !(news ++ moved).all deltaOk then .inl 4
          else .inr ⟨p, chain, split, spare, lsum⟩

/-- Move an entry by `n` positions and discard its repair; the count of discarded repairs rises. -/
def moveEnt (n : Int) (e : KvEnt) : KvEnt × Nat :=
  ({ e with pbase := ((e.pbase : Int) + n).toNat, delta := e.delta + n, lc := 0xFF, ro := 0xFF }, b2n (e.lc != 0xFF || e.ro != 0xFF))

/-- Write the entries in use in their new order, linked, and the header with LOCK clear and GEN raised (R358, R360). -/
def kvRelink (s : State) (m r : Nat) (es : List (Nat × KvEnt)) (ntok : Nat) : State :=
  let nexts := (es.drop 1).map (·.1 + 1) ++ [0]
  let s := (es.zip nexts).foldl (fun s x => putKvEnt s m x.1.1 r { x.1.2 with next := x.2, st := 2 }) s
  let h := kvHead s m
  putKvHead s m r { h with
    lock := false, gen := h.gen + 1, firstx := (es.head?.map (·.1 + 1)).getD 0, lastx := (es.getLast?.map (·.1 + 1)).getD 0
    nuse := es.length, ntok := ntok }

/-- The rewrite step of KSPLICE (R358): the status word. -/
def spliceRewrite (s : State) (m r : Nat) (pl : SplicePlan) : State × Word :=
  let h := kvHead s m
  let used := (kvInUse s m).map fun i => (i, kvEnt s m i)
  let before := used.filterMap fun x =>
    if pl.split == some x.1 then
      let k := pl.p - x.2.pbase
      some (x.1, { x.2 with count := k, rmask := maskTo x.2.first k x.2.rmask })
    else if x.2.pbase < pl.p then some x else none
  let mid := (pl.chain.foldl (fun (acc : Nat × List (Nat × KvEnt)) i =>
    let e := kvEnt s m i
    (acc.1 + e.count, acc.2 ++ [(i, { e with delta := e.delta + (acc.1 : Int) - (e.pbase : Int), pbase := acc.1 })])) (pl.p, [])).2
  let after := used.filterMap fun x =>
    if pl.split == some x.1 then
      let k := pl.p - x.2.pbase
      some (pl.spare, { x.2 with first := x.2.first + k, count := x.2.count - k, pbase := pl.p, rmask := maskTo (x.2.first + k) (x.2.count - k) x.2.rmask })
    else if pl.p ≤ x.2.pbase then some x else none
  let moved := after.map fun x => (x.1, moveEnt pl.lsum x.2)
  let n : Nat := (moved.map fun x => x.2.2).foldl (· + ·) 0
  let es := before ++ mid ++ moved.map fun x => (x.1, x.2.1)
  (kvRelink s m r es (h.ntok + pl.lsum), word (n * 2 ^ 16))

/-- KUNMAP's rewrite of an entry in use (R360): the status word. -/
def unmapRewrite (s : State) (m r i : Nat) : State × Word :=
  let h := kvHead s m
  let e := kvEnt s m i
  let used := ((kvInUse s m).filter (· != i)).map fun k => (k, kvEnt s m k)
  let moved := used.map fun x => if e.pbase < x.2.pbase then (x.1, moveEnt (-(e.count : Int)) x.2) else (x.1, x.2, 0)
  if !(moved.all fun x => deltaOk x.2.1.delta) then (clearLock s m r, 4)
  else
    let n : Nat := (moved.map fun x => x.2.2).foldl (· + ·) 0
    let s := kvRelink s m r (moved.map fun x => (x.1, x.2.1)) (h.ntok - e.count)
    (putKvEnt s m i r kvFree, word (n * 2 ^ 16))

/-- Generation references to a map (R359). -/
def mapRefs (s : State) (m : Nat) : Bool := (allJobs s).any fun p => p.2.mapRef == some m

/-- The step that ends a KSPLICE or KUNMAP that holds LOCK: the checks again, then the rewrite. -/
def lockedStep (s : State) (m t r : Nat) (splice : Bool) (arg model : Word) : State × Word :=
  if splice then
    match spliceCheck s m t arg model with
    | .inl st => (clearLock s m r, word st)
    | .inr pl => spliceRewrite s m r pl
  else
    let i := bits arg 11 0
    if (kvHead s m).bad then (clearLock s m r, 5)
    else if (kvEnt s m i).st == 2 && (kvInUse s m).contains i then unmapRewrite s m r i
    else (clearLock s m r, 1)

/-- The header, or one of the entries given that the map has, is uncorrectable. -/
def mapBad (s : State) (m : Nat) (is : List Nat) : Bool :=
  uncorrectable s m 64 ||
    (let h := kvHead s m
     !h.bad && is.any fun i => decide (i < h.cap) && uncorrectable s (kvEntry s m i) 64)

/-- Entries that a rewrite touches: those in use, and what a splice adds (R358, R360). -/
def rewriteEntries (s : State) (m t : Nat) (splice : Bool) (arg model : Word) : List Nat :=
  kvInUse s m ++
    (if splice then
      match spliceCheck s m t arg model with
      | .inr pl => pl.chain ++ (if pl.split.isSome then [pl.spare] else [])
      | .inl _ => []
    else [])

/-- A rewrite of the map by a process in mode `sm` waits: a guard holds its header or one of the entries (R211, R264, R356). -/
def mapGuarded (s : State) (m : Nat) (is : List Nat) (sm : Bool) : Bool :=
  guardHolds s m 64 none sm || is.any fun i => guardHolds s (kvEntry s m i) 64 none sm

/-- Every KSPLICE and KUNMAP whose map has no reference left proceeds (R358, R359). -/
def lockServe (s : State) : State :=
  s.procs.foldl (fun s e =>
    match getProc s e.1 with
    | some q =>
      match q.wait with
      | .lock m d splice arg model =>
        let t := e.1 / tlmWindow
        let is := rewriteEntries s m t splice arg model
        if mapRefs s m || !isWaiting (pstate s e.1) || mapGuarded s m is (resumeSm s e.1) then s
        else if mapBad s m is then modProc s e.1 fun p => { p with pend := p.pend ++ [⟨.eccu, 0, 0, 0⟩] }
        else
          let (s, v) := lockedStep s m t q.rcb splice arg model
          finishWait (noTurn s e.1) e.1 d v
      | _ => s
    | none => s) s

/-! ### Turns at a map's LOCK (R358, R364) -/

/-- Another process awaits the map's LOCK that arrived before process `w`, or before it if `w` has no turn yet. -/
def turnBefore (s : State) (m w : Nat) : Bool :=
  let mine := match getProc s w with
    | some p => (match p.lockTurn with | some (x, t) => if x == m then some t else none | none => none)
    | none => none
  s.procs.any fun e => e.1 != w &&
    match e.2.lockTurn with
    | some (x, t) => x == m && (match mine with | some u => decide (t < u) | none => true)
    | none => false

/-- LOCK as the instruction of process `w` finds it: set, or due to a process before it. -/
def lockTaken (s : State) (m w : Nat) : Bool := (kvHead s m).lock || turnBefore s m w

/-- A process takes its place among those that await the map's LOCK. -/
def takeTurn (s : State) (m w : Nat) : State :=
  let s := tick s
  modProc s w fun p => { p with lockTurn := match p.lockTurn with
    | some (x, t) => some (if x == m then (x, t) else (m, s.order))
    | none => some (m, s.order) }

/-- The first process that awaits a LOCK that is clear examines it again. -/
def serveTurns (s : State) : State :=
  s.procs.foldl (fun s e =>
    match getProc s e.1 with
    | some p =>
      match p.lockTurn with
      | some (m, _) => if p.wait == .retry && isWaiting (pstate s e.1) && !lockTaken s m e.1 then retryWait s e.1 else s
      | none => s
    | none => s) s
end Sys2Proof.Machine
end

