-- ==== Sys2Proof/Machine/Ops.lean ====
section
/-! DEFINITION. The shared operations of every instruction: taking a trap and resuming from it (R128, R134, R342),
waiting, address checks and translation (R155, R163 to R167, R198, R199), loads through buffers and copies (R177 to
R180, R201), stores, releases and acquires (R181), place resolution (R23). -/

namespace Sys2Proof.Machine

/-! ### Traps -/

/-- Codes of R129. -/
def causeCode : Cause → Nat
  | .illop => 0x01 | .priv => 0x02 | .align => 0x03 | .page => 0x04 | .prot => 0x05 | .far => 0x06 | .bound => 0x07
  | .chan => 0x08 | .peerlost => 0x09 | .deadlock => 0x0A | .postref => 0x0B | .sitelost => 0x0C | .hole => 0x0D
  | .eccu => 0x0E | .engfault => 0x0F | .stalekv => 0x10 | .reporder => 0x11 | .ringsize => 0x12 | .swtrap => 0x13
  | .brk => 0x14 | .ckfail => 0x15 | .tenant => 0x16 | .tokenflt => 0x17 | .contact => 0x18 | .memberLost => 0x19

/-- The precise class of R342: AS 0. -/
def isPrecise (c : Cause) (sub : Nat) : Bool :=
  match c with
  | .illop => true | .priv => true | .align => true | .prot => true | .far => true | .bound => true | .hole => true
  | .tenant => true | .page => true | .swtrap => true | .brk => true | .ringsize => true | .reporder => true
  | .chan => sub == 1 || sub == 4
  | _ => false

/-- TCAUSE and word 0 of a record without SEQ (R126, R343). -/
def causeWord (c : Cause) (sub : Nat) : Word :=
  word (b2n (!isPrecise c sub) * 2 ^ 16 + sub % 256 * 2 ^ 8 + causeCode c)

/-- A trap record (R343). -/
def trapRecord (seq : Word) (c : Cause) (sub proc : Nat) (pc : PC) (tval place : Word) (rcb : Nat) (aux time : Word) : List Word :=
  [word (seq.toNat % 2 ^ 32 * 2 ^ 32) ||| causeWord c sub, word proc, pc.setWidth 64, tval, place, word rcb, aux, time]

/-- A record of the handler-only class, which no process raises (R342, R343). -/
def handlerRecord (s : State) (c : Cause) (sub : Nat) (tval : Word) : List Word :=
  [causeWord c sub ||| word (2 ^ 16), 0, 0, tval, 0, 0, 0, s.time]

/-- A record of the handler-only class, to the default fault handler of a segment, raised by the PMC, a Tender or an
arbiter (R342, R343). -/
def sendRecord (s : State) (seg : Nat) (c : Cause) (sub : Nat) (tval : Word) : State :=
  { s with records := s.records ++ [(seg, handlerRecord s c sub tval)] }

/-- The PC at which a process stands. -/
def pcAt (s : State) (w : Nat) : PC :=
  match (getCore s (procCore s w)).run with
  | some r => if r.wptr == w then r.pc else resumePc s w
  | none => resumePc s w

def isRunning (s : State) (w : Nat) : Bool :=
  match (getCore s (procCore s w)).run with
  | some r => r.wptr == w
  | none => false

/-- The segment whose default fault handler receives a record: where an uncorrectable error was consumed, by an instruction of tile `t` or by
the job that TVAL names (R342, R427). -/
def consumedAt (t : Nat) (c : Cause) (sub : Nat) (tval : Word) : Option Nat :=
  if c == .eccu then some (faceSeg t) else if c == .engfault && sub == 9 then some (faceSeg (bits tval 49 36)) else none

/-- TAKING A TRAP (R128, R342 to R345): process `w` of a core becomes TRAPPED. The trap registers of its core are
written, its wait ends as KILLP would end it, the resume word holds the instruction's own PC, or the next one for
SWTRAP and BREAK (`next`), and the record takes a slot of the tile's trap queue, with `more` in the slots after it (R344). -/
def takeTrapWith (s : State) (w : Nat) (cause : Cause) (sub : Nat) (tval aux : Word) (next : Bool) (more : List TrapSlot) : State :=
  let c := procCore s w
  let t := coreTile c
  let rcb := procRegion s w
  let pc := pcAt s w
  let k := getCore s c
  let back := if next then pc + 4 else pc
  let s := if isRunning s w then leaveCore (dropTaken (leaveStep s w) w) c back
    else
      let s := setResumePc (offRunQueues (leaveWait (unstall (wakeCore s c) w) w) w) w back
      if isWaiting (pstate s w) then bumpWseq s w else s
  let s := modProc (setPstate s w 10 0) w fun p => { p with wait := .none, waitClocks := 0, lockTurn := none }
  let s := modCore s c fun k => countEvent 0x12 1 { k with
    tcause := causeWord cause sub, tval := tval, tpc := pc.setWidth 64, tseq := word ((k.tseq.toNat + 1) % 2 ^ 32) }
  let rec0 := trapRecord k.tseq cause sub w pc tval (placeOf c) rcb aux s.time
  queueRecords s t (⟨rec0, rcb, consumedAt t cause sub tval, false⟩ :: more) rcb

/-- A trap of one record. -/
def takeTrap (s : State) (w : Nat) (cause : Cause) (sub : Nat) (tval aux : Word) (next : Bool) : State :=
  takeTrapWith s w cause sub tval aux next []

/-- TVAL of a trap that the manual gives none (log entry 22). -/
def openTval (s : State) : Word × State := (Config.trapValue s.nonce, { s with nonce := s.nonce + 1 })

/-- A region in which an uncorrectable error was consumed waits for the firmware's decision (R427); one that is being rolled back is aborted
(R431). -/
def regionHit (s : State) (r : Nat) : State :=
  if (getRegion s r).rollingBack then abortRegion s r 2 else modRegion s r fun g => { g with eccu := true }

/-- An error consumed by a process without a region, when it lives, ends it; the PMC receives a TOKENFLT record with SUB 3 and reboots the
segment (R427). -/
def systemHit (s : State) (w seg : Nat) : State :=
  let s := if (getProc s w).isSome then killProc s w true else s
  { s with pmc := { s.pmc with reboots := s.pmc.reboots ++ [seg], faults := (seg, handlerRecord s .tokenflt 3 0) :: s.pmc.faults } }

/-- An uncorrectable error consumed by a process (R342, R427): its record goes to the default fault handler and its
region waits for the firmware's decision; a process without a region ends. -/
def takeEccu (s : State) (w : Nat) (tv : Option Word) : State :=
  let (tval, s) := match tv with
    | some v => (v, s)
    | none => openTval s
  let r := procRegion s w
  if r == 0 then systemHit s w (faceSeg (coreTile (procCore s w)))
  else
    let s := regionHit s r
    if (getProc s w).isSome then takeTrap s w .eccu 0 tval 0 false else s

/-- A trap that is asynchronous waits for the process's next boundary (R342). -/
def pendTrap (s : State) (w : Nat) (p : PendTrap) : State := modProc s w fun q => { q with pend := q.pend ++ [p] }

/-- RETURNING FROM A TRAP (R134): a TRAPPED process becomes READY at the tail of its queue, at a new PC when one is
given; SUSPENDED while its region is. -/
def resumeProc (s : State) (w : Nat) (newPc : Option PC) : State :=
  let s := match newPc with
    | some p => setResumePc s w p
    | none => s
  let r := procRegion s w
  if suspendedRegion s r then setPstate (wakeCore s (procCore s w)) w 11 1
  else enqueueTail (setPstate s w 1 0) w

/-! ### The executing process -/

/-- The running process of the executing core, when that core can issue. -/
def issuer (s : State) : Option Running :=
  let k := getCore s s.cur
  match k.run with
  | some r => if k.wfi || k.stall.isSome then none else some r
  | none => none

/-- Run a meaning on the executing core: a core that has nothing to issue stands still (log entry 1). -/
def onCore (s : State) (f : Nat → Running → State) : Host.Outcome State Fault Refusal :=
  match issuer s with
  | some r => .next (f s.cur r)
  | none => .next s

/-- Put the PC of the running process. -/
def putPc (s : State) (c : Nat) (pc : PC) : State :=
  modCore s c fun k => match k.run with
    | some r => { k with run := some { r with pc := pc, held := false, seen := [] }, bufStall := false, hostWord := none }
    | none => k

/-- The instruction retires and the PC goes to `pc` (R87, R127). -/
def retireTo (s : State) (c : Nat) (pc : PC) : State :=
  modCore s c fun k => match k.run with
    | some r => retireCount { k with run := some { r with pc := pc, held := false, seen := [] }, bufStall := false, hostWord := none }
    | none => k

/-- The instruction retires and the PC advances by 4. -/
def retire (s : State) (c : Nat) (r : Running) : State := retireTo s c (r.pc + 4)

/-- Write W[d] and retire: the common end of most instructions. -/
def finish (s : State) (c : Nat) (r : Running) (d : Reg) (v : Word) : State := retire (regWr s c r.wptr d v) c r

/-- Source registers of the executing process. -/
def src (s : State) (c : Nat) (r : Running) (d : Reg) : Word := regRd s c r.wptr d

/-- A trap at the executing instruction. -/
def trapHere (s : State) (r : Running) (cause : Cause) (tval : Word) : State := takeTrap s r.wptr cause 0 tval 0 false

/-- A trap at the executing instruction whose TVAL the manual does not state (log entry 22). -/
def trapOpen (s : State) (r : Running) (cause : Cause) : State :=
  let (v, s) := openTval s
  trapHere s r cause v

/-- The executing process waits at its instruction (R217): state, ARG, and what it waits for. -/
def waitHere (s : State) (c : Nat) (r : Running) (st arg : Nat) (i : WaitInfo) : State :=
  let s := leaveCore s c r.pc
  modProc (setPstate s r.wptr st arg) r.wptr fun p => { p with wait := i, waitClocks := 0 }

/-- The instruction cannot complete before an event of the panel: it has issued and stays at issue, and an event moves next (log
entry 2). -/
def holdHere (s : State) : State :=
  modCore { s with yielded := true } s.cur fun k => match k.run with
    | some r => { k with run := some { r with held := true } }
    | none => k

/-- Issue stalls at a boundary: the instruction has not issued, and an event moves next. -/
def stallIssue (s : State) : State := { s with yielded := true }

/-- System-only instruction: PRIV in region mode (R39 step 4). TVAL is the word. -/
def systemOnly (s : State) (r : Running) (w : IWord) (f : State) : State :=
  if r.sm then f else trapHere s r .priv (w.setWidth 64)

/-! ### Residue checks (R98, R119) -/

/-- A residue check of the core's arithmetic has failed: a corrected error is counted, and `left` failures are still to come. -/
def residueFails (s : State) (c left : Nat) : State :=
  addCe (modCore s c fun k => countEvent 0x10 1 { k with upset := left }) (coreTile c)

/-- An instruction whose result carries the mod-3 residue check (R98, R119; log entry 18): a check that fails re-executes it once; a
second failure takes ECCU with TVAL the instruction's word, and the instruction has no effect. -/
def residue (s : State) (c : Nat) (r : Running) (i : Instr) (k : State → State) : State :=
  match (getCore s c).upset with
  | 0 => k s
  | 1 => k (residueFails s c 0)
  | n + 2 => takeEccu (residueFails s c n) r.wptr (some (((encodeWord i).getD 0).setWidth 64))

/-! ### Address spaces and translation (R155, R163 to R166) -/

/-- The space an access of the executing process translates in: none is physical (R155). -/
def addrSpace (s : State) (c : Nat) (r : Running) : Option Nat :=
  let tn := rcbTenant s r.rcb
  let v := (getCore s c).vidsel
  if !r.sm then some tn
  else if bit v 12 then some (bits v 11 0)
  else if tn != 0 then some tn
  else none

/-- The tenant that the messages of an access carry (R382). -/
def accessTenant (s : State) (c : Nat) (r : Running) : Nat := (addrSpace s c r).getD 0

/-- PTROOT of a tenant as the executing tile sees it: its own when it is the tenant's, else that of the tenant's first
tile. -/
def ptrootOf (s : State) (t tenant : Nat) : Word :=
  let k := getTile s t
  if bits k.tenant 11 0 == tenant then k.ptroot
  else
    match s.tiles.find? fun p => bits p.2.tenant 11 0 == tenant && bit p.2.ptroot 0 with
    | some p => p.2.ptroot
    | none => k.ptroot

/-- A leaf found by a walk: page base and size, frame, flags. -/
structure Leaf where
  vbase : Nat
  size : Nat
  pbase : Nat
  flags : BitVec 16
deriving DecidableEq, Repr

inductive Walk where
  | leaf (l : Leaf)
  /-- a missing entry, or a malformed one -/
  | fault (malformed : Bool)
  /-- a page-table entry is uncorrectable -/
  | ecc
deriving DecidableEq, Repr

/-- Malformed entries (R165); `level` 1 to 3; C on a pointer is not tested (log entry 76). -/
def pteMalformed (e : Word) (level : Nat) : Bool :=
  let pa := bits e 51 16 * 2 ^ 16
  let l := bit e 1
  bits e 55 52 != 0 || bits e 15 12 != 0 || bits e 9 8 != 0 || bit e 6 || decide (2 ≤ bits e 11 10)
    || (level == 1 && l) || (level == 3 && !l)
    || (bit e 7 && l && pa % (if level == 3 then 2 ^ 21 else 2 ^ 30) != 0)
    || (bit e 3 && !bit e 2) || (!bit e 5 && bit e 3 && bit e 4)
    || (!l && spaceOf pa != 0)

/-- Read one page-table entry from the walker of tile `t` (R161, R166). -/
def pteAt (s : State) (t a : Nat) : Option Word :=
  match holeCheck s t a with
  | .clear => some (dwAt s a)
  | _ => none

/-- The walk of R163; a 512 MiB leaf adds the offset within its range to the frame it holds (log entry 75). -/
def walk (s : State) (t tenant va : Nat) : Walk :=
  let root := ptrootOf s t tenant
  if !bit root 0 then .fault false
  else
    let a1 := bits root 51 9 * 512 + va / 2 ^ 42 % 64 * 8
    match pteAt s t a1 with
    | none => .fault true
    | some e1 =>
      if s.bad.contains a1 then .ecc
      else if !bit e1 0 then .fault false
      else if pteMalformed e1 1 then .fault true
      else
        let a2 := bits e1 51 16 * 2 ^ 16 + va / 2 ^ 29 % 8192 * 8
        match pteAt s t a2 with
        | none => .fault true
        | some e2 =>
          if s.bad.contains a2 then .ecc
          else if !bit e2 0 then .fault false
          else if pteMalformed e2 2 then .fault true
          else if bit e2 1 then
            let sz := if bit e2 7 then 2 ^ 30 else 2 ^ 29
            .leaf ⟨va / sz * sz, sz, bits e2 51 16 * 2 ^ 16, e2.setWidth 16⟩
          else
            let a3 := bits e2 51 16 * 2 ^ 16 + va / 2 ^ 16 % 8192 * 8
            match pteAt s t a3 with
            | none => .fault true
            | some e3 =>
              if s.bad.contains a3 then .ecc
              else if !bit e3 0 then .fault false
              else if pteMalformed e3 3 then .fault true
              else
                let sz := if bit e3 7 then 2 ^ 21 else 2 ^ 16
                .leaf ⟨va / sz * sz, sz, bits e3 51 16 * 2 ^ 16, e3.setWidth 16⟩

/-- Addresses of the entries that the walk of R163 reads. -/
def walkReads (s : State) (t tenant va : Nat) : List Nat :=
  let root := ptrootOf s t tenant
  let next (a level : Nat) : Option Nat :=
    match pteAt s t a with
    | some e => if s.bad.contains a || !bit e 0 || pteMalformed e level || bit e 1 then none else some (bits e 51 16 * 2 ^ 16)
    | none => none
  if !bit root 0 then []
  else
    let a1 := bits root 51 9 * 512 + va / 2 ^ 42 % 64 * 8
    match next a1 1 with
    | none => [a1]
    | some b2 =>
      let a2 := b2 + va / 2 ^ 29 % 8192 * 8
      match next a2 2 with
      | none => [a1, a2]
      | some b3 => [a1, a2, b3 + va / 2 ^ 16 % 8192 * 8]

/-- A walk corrects and counts the correctable errors of the entries it reads (R156). -/
def countWalk (s : State) (t tenant va : Nat) : State :=
  (walkReads s t tenant va).foldl (fun s a => if holeCheck s t a == .clear then countCorrected s a 8 else s) s

def tlbHit (l : List TlbEnt) (tenant va : Nat) : Option TlbEnt :=
  l.find? fun e => e.tenant == tenant && decide (e.vbase ≤ va) && decide (va < e.vbase + e.size)

def leafOf (e : TlbEnt) : Leaf := ⟨e.vbase, e.size, e.pbase, e.flags⟩

/-- A fresh truth value that the manual leaves to the implementation (log entry 3). -/
def freshChoice (s : State) : Bool × State := (Config.choice s.nonce, { s with nonce := s.nonce + 1 })

/-- An entry enters a TLB of `sets` sets and `ways` ways; the set of a page and what a full set gives up are open (R166; log entry 61). -/
def tlbPlace (nonce tlb sets ways : Nat) (e : TlbEnt) (l : List TlbEnt) : List TlbEnt :=
  let rest := l.filter (· != e)
  let setOf (y : TlbEnt) : Nat := Config.cacheSet tlb y.vbase % sets
  let same := rest.filter fun y => setOf y == setOf e
  match if same.length < ways then none else same[Config.cacheVictim nonce % same.length]? with
  | some v => e :: rest.filter (· != v)
  | none => e :: rest

/-- Install a leaf in a tile's TLB (R166): 1,024 entries, 8-way. -/
def tileTlbFill (s : State) (t tenant : Nat) (l : Leaf) : State :=
  let e : TlbEnt := ⟨tenant, l.vbase, l.size, l.pbase, l.flags⟩
  let s1 := modTile s t fun k => { k with tlb := tlbPlace s.nonce (5 * allTiles + t) 128 8 e k.tlb }
  { s1 with nonce := s1.nonce + 1 }

/-- Install a leaf in the core's TLB, fully associative with 64 entries, and in its tile's (R166). -/
def tlbFill (s : State) (c tenant : Nat) (l : Leaf) : State :=
  let e : TlbEnt := ⟨tenant, l.vbase, l.size, l.pbase, l.flags⟩
  let s1 := modCore s c fun k => { k with tlb := tlbPlace s.nonce (6 * allTiles + c) 1 64 e k.tlb }
  tileTlbFill { s1 with nonce := s1.nonce + 1 } (coreTile c) tenant l

/-- Translate through the TLBs and a walk (R166). An entry that differs from a fresh walk serves when the
implementation still holds it (log entry 3). -/
def translate (s : State) (c tenant va : Nat) : State × Walk :=
  let t := coreTile c
  let fresh := walk s t tenant va
  let inCore := tlbHit (getCore s c).tlb tenant va
  let hit := match inCore with
    | some e => some e
    | none => tlbHit (getTile s t).tlb tenant va
  let s := if inCore.isNone then countAt s c 5 1 else s
  let s := if hit.isNone then countAt s c 6 1 else s
  match hit with
  | some e =>
    if fresh == .leaf (leafOf e) then (if inCore.isNone then tlbFill s c tenant (leafOf e) else s, fresh)
    else
      let (keep, s) := freshChoice s
      if keep then (s, .leaf (leafOf e))
      else
        let s := modCore s c fun k => { k with tlb := k.tlb.filter (· != e) }
        let s := countWalk (modTile s t fun k => { k with tlb := k.tlb.filter (· != e) }) t tenant va
        match fresh with
        | .leaf l => (tlbFill s c tenant l, fresh)
        | _ => (s, fresh)
  | none =>
    let s := countWalk s t tenant va
    match fresh with
    | .leaf l => (tlbFill s c tenant l, fresh)
    | _ => (s, fresh)

/-! ### Checks of an access (R198, R199) -/

inductive Kind where | read | write | fetch
deriving DecidableEq, Repr

/-- Which row of the table of R199 an access follows. -/
inductive Row where
  | ldst
  | store
  | amo (host : Bool)
  /-- LDF, STF, SETE, WAITA, JOIN -/
  | fe
  /-- records, templates, descriptors and tables that other instructions read or write (log entry 19) -/
  | block
  | fetch
  | hmem
deriving DecidableEq, Repr

/-- Step 3 of R165 with the table of R199; `n` is the access size. -/
def spaceDenied (sm : Bool) (row : Row) (n pa : Nat) : Option Cause :=
  let sp := spaceOf pa
  if !sm && (sp == 1 || sp == 2 || sp == 15) then some .prot
  else if row == .hmem then (if sp == 4 then none else if sp == 0 || sp == 1 || sp == 2 || sp == 8 || sp == 15 then some .far else none)
  else if sp == 4 then some .far
  else if sp == 1 then
    match row with
    | .ldst => if n == 8 then none else some .prot
    | .store => if n == 8 then none else some .prot
    | _ => some .prot
  else if sp == 2 then some .prot
  else if sp == 8 then
    match row with
    | .ldst => none
    | .store => none
    | .amo h => if h then none else some .prot
    | .fetch => none
    | _ => some .prot
  else if sp == 15 then
    match row with
    | .ldst => if n == 4 || n == 8 then none else some .prot
    | .store => if n == 4 || n == 8 then none else some .prot
    | _ => some .prot
  else none

/-- Outcome of the checks of an access. -/
inductive Chk where
  /-- physical address, and whether the page is uncached (NC) -/
  | ok (pa : Nat) (nc : Bool)
  | trap (c : Cause)
  | lost
  | fault (tenant : Nat) (malformed : Bool)
  | ecc
deriving DecidableEq, Repr

/-- Steps 1 and 2 of R165. -/
def permDenied (sm : Bool) (kind : Kind) (f : BitVec 16) : Bool :=
  (!sm && f.getLsbD 5) ||
  (match kind with
   | .read => !f.getLsbD 2
   | .write => !f.getLsbD 3
   | .fetch => !f.getLsbD 4)

/-- Marks that refuse the access precisely (R92). -/
def markDenied (s : State) (c : Nat) (sm : Bool) (row : Row) (kind : Kind) (pa : Nat) : Bool :=
  if sm then false
  else match row with
    | .fe => (kind == .read || holeCheck s (coreTile c) pa == .clear) && (markAt s pa).isSome
    | .amo _ => markAt s pa == some .ctrl
    | .store => homeTile pa == some (coreTile c) && markAt s pa == some .ctrl
    | _ => kind == .write && markAt s pa == some .ctrl

/-- Steps 3 to 5 of R165 and the refusals at the home (R92, R382) for a physical address; a posted store meets what its home refuses there
(R193), and an HST is posted but for its hole (R215). -/
def afterTranslation (s : State) (c : Nat) (sm : Bool) (tenant : Nat) (row : Row) (kind : Kind) (posted : Bool) (n pa : Nat) (nc : Bool) : Chk :=
  match spaceDenied sm row n pa with
  | some x => .trap x
  | none =>
    if neverPopulated (isDark s) pa then .trap .bound
    else
      let remote := match homeTile pa with
        | some t => if t == coreTile c || posted || (row == Row.hmem && kind == Kind.write) || admits s t tenant then none else some Chk.trap
        | none => none
      match (if posted then HoleAns.clear else holeCheck s (coreTile c) pa) with
      | .hole => .trap .hole
      | .lost => .lost
      | .clear =>
        if remote.isSome then .trap .tenant
        else if markDenied s c sm row kind pa then .trap .prot
        else .ok pa nc

/-- MemCheck of R198: high bits, alignment, translation, checks after it. -/
def memCheck (s : State) (c : Nat) (r : Running) (ea : Word) (n : Nat) (kind : Kind) (row : Row) (posted : Bool) : State × Chk :=
  let tn := accessTenant s c r
  match addrSpace s c r with
  | none =>
    if bits ea 63 52 != 0 then (s, .trap .bound)
    else if ea.toNat % n != 0 then (s, .trap .align)
    else (s, afterTranslation s c r.sm tn row kind posted n ea.toNat false)
  | some tenant =>
    if bits ea 63 48 != 0 then (s, .trap .bound)
    else if ea.toNat % n != 0 then (s, .trap .align)
    else
      match translate s c tenant ea.toNat with
      | (s, .leaf l) =>
        if permDenied r.sm kind l.flags then (s, .trap .prot)
        else (s, afterTranslation s c r.sm tn row kind posted n (l.pbase + (ea.toNat - l.vbase)) (l.flags.getLsbD 10))
      | (s, .fault m) => (s, .fault tenant m)
      | (s, .ecc) => (s, .ecc)

/-- Kind codes of a Watchroom request (R168). -/
def kindCode : Kind → Nat
  | .read => 1
  | .write => 2
  | .fetch => 3

/-- A page fault of the executing process (R167): it waits in WADDR with ARG 0x50 and its core sends a fault message; 0x51
while the page-wait table is full. -/
def pageWait (s : State) (c : Nat) (r : Running) (ea : Word) (tenant : Nat) (kind : Kind) (malformed : Bool) : State :=
  let page := ea.toNat / 2 ^ 16 * 2 ^ 16
  let s := countAt s c 0x0F 1
  if (getCore s c).pwait.length < 4 then
    let s := waitHere s c r 6 0x50 .page
    let s := modProc s r.wptr fun p => { p with keptArg := ea.toNat }
    let s := modCore s c fun k => { k with pwait := k.pwait ++ [⟨r.wptr, tenant, page⟩] }
    pushMsg s (.fault ⟨watchroomOf (coreTile c), tenant, page, kindCode kind, malformed, .core c, false⟩)
  else waitHere s c r 6 0x51 .pageFull

/-- An access by the executing instruction: checks, and what follows when they pass. -/
def access (s : State) (c : Nat) (r : Running) (ea : Word) (n : Nat) (kind : Kind) (row : Row) (posted : Bool)
    (k : State → Nat → Bool → State) : State :=
  match memCheck s c r ea n kind row posted with
  | (s, .ok pa nc) => k s pa nc
  | (s, .trap x) => trapHere s r x ea
  | (s, .lost) => takeTrap s r.wptr .sitelost 0 ea 0 false
  | (s, .fault tn m) => pageWait s c r ea tn kind m
  | (s, .ecc) => takeEccu s r.wptr none

/-! ### Writes at a port -/

/-- A write of `n` bytes by the executing instruction, performed by `k` at its home unless the port holds it (R94, R211, R264). -/
def atPort (s : State) (c : Nat) (r : Running) (pa n : Nat) (k : State → State) : State :=
  if portHolds s pa n (.instr c) r.sm then noteHeld (holdHere s) pa n (.instr c) r.sm else k (dropHeldAcc s (.instr c))

/-! ### Stores in flight -/

/-- TVAL of POSTREF (R346). -/
def journalRef (c idx : Nat) : Word := word (coreTile c * 2 ^ 16 + coreIdx c * 2 ^ 8 + idx)

def sizeCode (n : Nat) : Nat := match n with | 1 => 0 | 2 => 1 | 4 => 2 | _ => 3

def stKindCode : StKind → Nat
  | .st => 0 | .rel => 1 | .stf => 2 | .sete => 3

/-- Word 0 of a journal entry (R346). -/
def journalWord0 (e : JEnt) : Word :=
  word (2 ^ 63 + b2n e.rf * 2 ^ 62 + sizeCode e.store.n * 2 ^ 60 + stKindCode e.store.kind * 2 ^ 58
    + (if e.rf then causeCode e.cause else 0) * 2 ^ 48 + e.store.va % 2 ^ 48)

/-- A store of the core has left its buffer and is not yet performed at its home. -/
def inFlight (s : State) (c idx : Nat) : Bool :=
  s.msgs.contains (.store c idx) || s.tiles.any fun p => p.2.held.any (·.by_ == .store c idx)

/-- Every store of the core homed in its segment that has left the buffer is performed (R177). -/
def segStoresDone (s : State) (c : Nat) : Bool :=
  !(getCore s c).journal.any fun e => !e.2.rf && inSegment c e.2.store.pa && inFlight s c e.1

/-- A refused store of the process within scope whose POSTREF is not yet delivered (R194). -/
def refusedIn (s : State) (c w : Nat) (sc : Scope) : Option (Nat × JEnt) :=
  (getCore s c).journal.find? fun e => e.2.rf && !e.2.delivered && e.2.store.wptr == w && inScope c sc e.2.store.pa

/-- A store of the process within scope awaits its acknowledgement. -/
def unackedIn (s : State) (c w : Nat) (sc : Scope) : Bool :=
  (getCore s c).journal.any fun e => !e.2.rf && e.2.store.wptr == w && inScope c sc e.2.store.pa

def markDelivered (s : State) (c idx : Nat) : State :=
  modCore s c fun k => match amGet k.journal idx with
    | some e => { k with journal := amSet k.journal idx { e with delivered := true } }
    | none => k

/-- Deliver POSTREF for a journal entry at the process's instruction (R193, R194). -/
def deliverPostref (s : State) (c w idx : Nat) (e : JEnt) : State :=
  let s := modProc s w fun p => { p with pend := p.pend.filter fun x => !(x.cause == .postref && x.tval == journalRef c idx) }
  takeTrap (markDelivered s c idx) w .postref 0 (journalRef c idx) (journalWord0 e) false

/-- The wait of a release of scope `sc` (R181): a refused store in scope is delivered at the release (R194); stores
outstanding hold the instruction; else `k`. -/
def releaseWait (s : State) (c : Nat) (r : Running) (sc : Scope) (k : State → State) : State :=
  match refusedIn s c r.wptr sc with
  | some (i, e) => deliverPostref s c r.wptr i e
  | none =>
    if !(getCore s c).sbuf.isEmpty || unackedIn s c r.wptr sc then holdHere s
    else k s

/-- Put a store in the buffer (R202); the caller has checked that it is not full. -/
def bufferPush (s : State) (c : Nat) (e : StoreEnt) : State := modCore s c fun k => { k with sbuf := k.sbuf ++ [e] }

def bufferFull (s : State) (c : Nat) : Bool := decide (16 ≤ (getCore s c).sbuf.length)

/-! ### Loads (R177, R179, R201) -/

def storeHas (e : StoreEnt) (a : Nat) : Bool := e.kind != .sete && decide (e.pa ≤ a) && decide (a < e.pa + e.n)

/-- The byte a store put at `a`. -/
def storeByte (e : StoreEnt) (a : Nat) : Byte := BitVec.ofNat 8 (e.data.toNat >>> (8 * (a - e.pa)))

/-- Youngest store in a list, oldest first, that holds the byte. -/
def youngest (l : List StoreEnt) (a : Nat) : Option Byte :=
  ((l.filter fun e => storeHas e a).getLast?).map fun e => storeByte e a

/-- Stores of a core that have left the buffer and are not performed or refused, oldest first. -/
def outstanding (s : State) (c : Nat) : List StoreEnt :=
  (sortBy (fun a b => decide (a.2.age ≤ b.2.age)) ((getCore s c).journal.filter fun e => !e.2.rf && inFlight s c e.1)).map (·.2.store)

/-- Bytes under the core's own outstanding stores (R174, R177). -/
def overlay (l : List StoreEnt) (a : Nat) : List Byte → List Byte
  | [] => []
  | b :: t => (youngest l a).getD b :: overlay l (a + 1) t

/-- How far the store buffer covers a load (R201). -/
def covered (l : List StoreEnt) (pa n : Nat) : Bool := (List.range n).all fun i => (youngest l (pa + i)).isSome
def uncovered (l : List StoreEnt) (pa n : Nat) : Bool := (List.range n).all fun i => (youngest l (pa + i)).isNone

/-! ### Old values of words that jobs write (R189) -/

/-- The core has performed an acquire since the job was done whose scope holds the home of the job's completion word. -/
def oldEnded (k : Core) (c : Nat) (e : JobOld) : Bool :=
  match e.done with
  | none => false
  | some d =>
    decide (d < k.acqPanel) ||
      match e.home with
      | some h =>
        let t := coreTile c
        (decide (d < k.acqMod) && siteOf h == siteOf t) || (decide (d < k.acqSeg) && (segOf h).isSome && segOf h == segOf t)
          || (decide (d < k.acqTile) && h == t)
      | none => false

/-- The old values of a doubleword that a plain load of the core may still return, newest first; a marked word is served as it stands (R94). -/
def oldsOf (s : State) (c a : Nat) : List JobOld :=
  let k := getCore s c
  if (markAt s a).isSome then []
  else s.jobOld.filter fun e => e.addr == a && decide ((amGet k.jobSeen a).getD 0 < e.wrote) && !oldEnded k c e

/-- An old value, or the present one. -/
def pickOld (s : State) : List JobOld → State × Option JobOld
  | [] => (s, none)
  | e :: t =>
    match freshChoice s with
    | (true, s) => (s, some e)
    | (false, s) => pickOld s t

/-- The core has read the doubleword `a` as it stood at the order `upTo`: it reads no older value any more (R174). -/
def sawWord (s : State) (c upTo a : Nat) : State :=
  match s.jobOld.find? fun e => e.addr == a && decide (e.wrote ≤ upTo) with
  | some e => modCore s c fun k => { k with jobSeen := amSet k.jobSeen a e.wrote }
  | none => s

/-- Aligned doublewords that an interval touches. -/
def dwordsOf (pa n : Nat) : List Nat := (List.range ((pa + n + 7) / 8 - pa / 8)).map fun i => (pa / 8 + i) * 8

/-- A read by core `c` of the current values corrects and counts the correctable errors it meets, at the tile and in event 0x10 (R156,
R201, R407), and ends the old values of the words for the core (R174). -/
def correctAt (s : State) (c pa n : Nat) : State :=
  let s := countCorrected (countAt s c 0x10 ((codesOf pa n).countP fun a => s.weak.contains a)) pa n
  if s.jobOld.isEmpty then s else (dwordsOf pa n).foldl (fun s a => sawWord s c s.order a) s

/-- The bytes of an aligned load at its home: for a doubleword that jobs have written, an old value or the new one (R189). -/
def plainBytes (s : State) (c pa n : Nat) : State × List Byte :=
  let a := pa / 8 * 8
  match pickOld s (oldsOf s c a) with
  | (s, some e) => (sawWord s c (e.wrote - 1) a, ((bytesOf 8 e.old.toNat).drop (pa % 8)).take n)
  | (s, none) => (correctAt s c pa n, bytesAt s pa n)

/-! ### Caches (R157 to R159, R179, R435) -/

/-- Bytes that no cache holds: marked words and channel words (R94, R244). -/
def neverCached (s : State) (lo n : Nat) : Bool := anyMark s lo n || s.chanWords.any fun a => decide (lo ≤ a) && decide (a < lo + n)

/-- A copy may still serve a location: filled since the last acquire whose scope covers it (R179). -/
def copyUsable (k : Core) (c : Nat) (x : Copy) : Bool :=
  decide (k.acqPanel < x.filled) && (!inScope c .mod x.addr || decide (k.acqMod < x.filled))

def copyBytes (x : Copy) (pa n : Nat) : List Byte := (x.bytes.drop (pa - x.addr)).take n

/-- A fill of a cache with `ways` ways and 1,024 sets (R435; log entry 61). -/
def fillSet (nonce cache ways : Nat) (x : Copy) (l : List Copy) : List Copy :=
  let rest := l.filter (·.addr != x.addr)
  let setOf (y : Copy) : Nat := Config.cacheSet cache y.addr % 1024
  let same := rest.filter fun y => setOf y == setOf x
  match if same.length < ways then none else same[Config.cacheVictim nonce % same.length]? with
  | some v => x :: rest.filter (·.addr != v.addr)
  | none => x :: rest

/-- The tile of a segment whose L2 slice holds a block (R159). -/
def sliceTile (g pa : Nat) : Nat := segTile g + 128 * (pa / 2 ^ 11 % 8) + pa / 2 ^ 8 % 8

def keepL1 (s : State) (c : Nat) (x : Copy) : State :=
  let s1 := modCore s c fun k => { k with l1d := fillSet s.nonce c 12 x k.l1d }
  { s1 with nonce := s1.nonce + 1 }

def keepL2 (s : State) (g : Nat) (x : Copy) : State :=
  let l := (amGet s.l2 g).getD []
  let t := sliceTile g x.addr
  let mine (y : Copy) : Bool := sliceTile g y.addr == t
  { s with l2 := amSet s.l2 g (fillSet s.nonce (4 * allTiles + t) 16 x (l.filter mine) ++ l.filter (!mine ·)), nonce := s.nonce + 1 }

/-- Fill the line of an L1 from the home, under the core's own stores on their way (R158, R179); a line that cannot be filled leaves no older
copy (R174). -/
def fillLine (s : State) (c pa : Nat) : State :=
  let line := pa / 32 * 32
  if neverCached s line 32 || uncorrectable s line 32 then modCore s c fun k => { k with l1d := k.l1d.filter (·.addr != line) }
  else
    let s := tick (countCorrected s line 32)
    keepL1 s c ⟨line, overlay (outstanding s c) line (bytesAt s line 32), s.order⟩

/-- Fill the block of a segment's L2 from the home (R159); one that cannot be filled leaves no older copy (R174). -/
def fillBlock (s : State) (g pa : Nat) : State :=
  let blk := pa / 256 * 256
  if neverCached s blk 256 || uncorrectable s blk 256 then dropL2 s g pa
  else
    let s := tick (countCorrected s blk 256)
    keepL2 s g ⟨blk, bytesAt s blk 256, s.order⟩

/-- Fill the caches of a core on the path to a home beyond its segment. -/
def fillCopies (s : State) (c pa : Nat) : State :=
  match segOf (coreTile c) with
  | some g => fillLine (fillBlock s g pa) c pa
  | none => fillLine s c pa

/-- Copies that an access performed at a home beyond the segment makes the core and its segment's L2 drop (R174, R211). -/
def dropOwnCopies (s : State) (c pa : Nat) : State :=
  if inSegment c pa then s
  else
    let s := modCore s c fun k => { k with l1d := k.l1d.filter fun x => x.addr != pa / 32 * 32 }
    match segOf (coreTile c) with
    | some g => dropL2 s g pa
    | none => s

/-- Every cache drops its copies of an interval (R94, R158, R244). -/
def dropAllCopies (s : State) (lo n : Nat) : State :=
  let keep (x : Copy) : Bool := decide (x.addr + x.bytes.length ≤ lo) || decide (lo + n ≤ x.addr)
  { s with
    cores := s.cores.map fun p => (p.1, { p.2 with l1d := p.2.l1d.filter keep, l1i := p.2.l1i.filter keep })
    l2 := s.l2.map fun p => (p.1, p.2.filter keep) }

/-- A channel instruction operates on the word: no cache holds it (R244). -/
def asChannel (s : State) (word_ : Nat) : State :=
  if s.chanWords.contains word_ then s else dropAllCopies { s with chanWords := setInsert s.chanWords word_ } word_ 8

/-- A copy of the location serves: when it differs from the home, when the implementation still holds it (log entry 3). -/
def copyServes (s : State) (own : List StoreEnt) (x : Copy) (pa n : Nat) : Bool × State :=
  if overlay own pa (copyBytes x pa n) == overlay own pa (bytesAt s pa n) then (true, s) else freshChoice s

/-- The load is served from a copy: no value older than the copy's is read any more (R174). -/
def fromCopy (s : State) (c : Nat) (own : List StoreEnt) (x : Copy) (pa n : Nat) : State × List Byte :=
  (if s.jobOld.isEmpty then s else sawWord s c x.filled (pa / 8 * 8), overlay own pa (copyBytes x pa n))

/-- Outcome of a load at its home. -/
inductive LoadRes where
  | bytes (b : List Byte)
  | ecc
deriving DecidableEq, Repr

/-- A read at the home, after which `fill` fills caches. -/
def loadAt (s : State) (c : Nat) (own : List StoreEnt) (pa n : Nat) (fill : State → State) : State × LoadRes :=
  if uncorrectable s pa n then (s, .ecc)
  else
    let (s, b) := plainBytes s c pa n
    (fill s, .bytes (overlay own pa b))

/-- A plain load from the L2 of the core's segment, or from the home (R159, R179). -/
def loadL2 (s : State) (c : Nat) (own : List StoreEnt) (pa n : Nat) : State × LoadRes :=
  match segOf (coreTile c) with
  | none => loadAt (match homeTile pa with | some t => noteMsg s c t | none => s) c own pa n (fillLine · c pa)
  | some g =>
    let s := noteMsg s c (sliceTile g pa)
    let home (s : State) : State × LoadRes := loadAt (countAt s c 4 1) c own pa n (fillCopies · c pa)
    match ((amGet s.l2 g).getD []).find? fun x => x.addr == pa / 256 * 256 && copyUsable (getCore s c) c x with
    | none => home s
    | some x =>
      match copyServes s own x pa n with
      | (true, s) =>
        let (s, b) := fromCopy s c own x pa n
        let line := pa / 32 * 32
        (keepL1 s c ⟨line, overlay own line (copyBytes x line 32), x.filled⟩, .bytes b)
      | (false, s) => home s

/-- A plain load beyond the segment (R179): a copy that may serve, or the home. -/
def loadBeyond (s : State) (c : Nat) (own : List StoreEnt) (pa n : Nat) : State × LoadRes :=
  let k := getCore s c
  match k.l1d.find? fun x => x.addr == pa / 32 * 32 && copyUsable k c x with
  | none => loadL2 (countAt s c 3 1) c own pa n
  | some x =>
    match copyServes s own x pa n with
    | (true, s) =>
      let (s, b) := fromCopy s c own x pa n
      (s, .bytes b)
    | (false, s) => loadL2 (countAt s c 3 1) c own pa n

/-- A plain load of another tile of the segment: from the coherent line of the L1, or from the home (R157, R158, R177). -/
def loadNear (s : State) (c t : Nat) (own : List StoreEnt) (pa n : Nat) : State × LoadRes :=
  if (getCore s c).l1d.any (·.addr == pa / 32 * 32) then
    let (s, b) := plainBytes s c pa n
    (s, .bytes (overlay own pa b))
  else loadAt (noteMsg (countAt s c 3 1) c t) c own pa n (fillLine · c pa)

/-- A load from TLM or an accumulator file that its buffer neither covers nor partly covers (R157, R177, R179, R201): at its home when
it is an acquire beyond the segment, uncached, or of a word that no cache holds; else through the caches. -/
def loadHome (s : State) (c pa n : Nat) (acq nc : Bool) : State × LoadRes :=
  let own := outstanding s c
  match homeTile pa with
  | none => (s, .ecc)
  | some t =>
    if acq then
      if uncorrectable s pa n then (s, .ecc)
      else
        let s := correctAt s c pa n
        let s := if inSegment c pa && (getCore s c).l1d.any (·.addr == pa / 32 * 32) then s else dropOwnCopies (noteMsg s c t) c pa
        (s, .bytes (overlay own pa (bytesAt s pa n)))
    else if t == coreTile c then loadAt s c own pa n id
    else if nc || neverCached s (pa / 8 * 8) 8 || spaceOf pa != 0 then loadAt (noteMsg s c t) c own pa n (dropOwnCopies · c pa)
    else if inSegment c pa then loadNear s c t own pa n
    else loadBeyond s c own pa n

/-- A store that leaves the buffer updates the copy of its line in the core's L1 (R179). -/
def storeToL1 (s : State) (c : Nat) (e : StoreEnt) : State :=
  if e.kind == .sete then s
  else modCore s c fun k => { k with l1d := k.l1d.map fun x =>
    if x.addr == e.pa / 32 * 32 then { x with bytes := overlay [e] x.addr x.bytes } else x }

/-! ### Places (R21 to R24) -/

inductive Resolved where
  | ok (tile core : Nat)
  | bound
  | reserved
deriving DecidableEq, Repr

/-- ResolvePlace of R23 in the grid of region `rcb` from logical (lx, ly); `core` is the index that CV = 0 names; a use that
needs no core passes `none`. -/
def resolveFrom (s : State) (rcb : Nat) (lx ly : Nat) (pw : Word) (core : Option Nat) (sm : Bool) : Resolved :=
  if bits pw 63 19 != 0 then .bound
  else
    let x : Int := (lx : Int) + sx (bits pw 7 0) 8
    let y : Int := (ly : Int) + sx (bits pw 15 8) 8
    if x < 0 || (rcbLW s rcb : Int) ≤ x || y < 0 || (rcbLH s rcb : Int) ≤ y then .bound
    else
      let t := mapTile (mapWord s rcb x.toNat y.toNat)
      match core with
      | none => .ok t 0
      | some me =>
        let i := if bit pw 18 then bits pw 17 16 else me
        if !sm && isSystemCore t i then .reserved else .ok t i

/-- ResolvePlace for a process or job of region `rcb` on tile `t`; without a region, or on a tile that its map does not name, there is
no MyLx and MyLy, and the place gives BOUND (log entry 65). -/
def resolvePlace (s : State) (rcb t : Nat) (pw : Word) (core : Option Nat) (sm : Bool) : Resolved :=
  if rcb == 0 then .bound
  else
    match logicalOf s rcb t with
    | some (lx, ly) => resolveFrom s rcb lx ly pw core sm
    | none => .bound

/-- The region's map is frozen (R378). -/
def mapFrozen (s : State) (rcb : Nat) : Bool := rcb != 0 && (getRegion s (rootOrigin s rcb).1).frozen

/-- An instruction that resolves a place waits during a freeze in WADDR with ARG 0x5F (R378). -/
def unlessFrozen (s : State) (c : Nat) (r : Running) (k : State) : State :=
  if mapFrozen s r.rcb then waitHere s c r 6 0x5F (.frozen (rootOrigin s r.rcb).1) else k

/-- Energy class of the executing process (R126, R263). -/
def procClass (s : State) (c : Nat) (r : Running) : Nat :=
  let e := pcsrRd s c r.wptr 5
  if bit e 3 then bits e 2 0 else (if r.rcb == 0 then 0 else rcbDclass s r.rcb)

/-! ### The accumulator file's configuration (R145, R148) -/

/-- A region-mode process outside the owner's tree is refused (R145). -/
def ownerRefuses (s : State) (t rcb : Nat) (sm : Bool) : Bool :=
  match (getTile s t).accOwner with
  | some o => !sm && !inTree s o rcb
  | none => false

/-- Zero `n` bytes of memory at `a`, logged as every write is (R429). -/
def zeroRange (s : State) (a n : Nat) : State :=
  let s := undoLog s a n
  { s with
    mem := s.mem.filter fun c => !(decide (a ≤ c.1) && decide (c.1 < a + n))
    bad := s.bad.filter fun x => !(decide (a ≤ x) && decide (x < a + n))
    weak := s.weak.filter fun x => !(decide (a ≤ x) && decide (x < a + n)) }

/-- Address of the accumulator file of a tile (R149). -/
def accBase (t : Nat) : Nat := spaceBase 1 + t * 0x200000

/-- No job names the file and every prefetch queue of the tile is empty (R148). -/
def fileFree (s : State) (t : Nat) : Bool :=
  (tileJobs s t).all (fun p => p.2.accW == 0 && p.2.accR == 0) &&
    [0, 1, 2, 3].all fun i => (getCore s (coreNo t i)).prefetch.isEmpty

/-- ACFG's change of the file (R148); the file of a process without a region has no owner (R145; log entry 87). -/
def configureFile (s : State) (t : Nat) (cfg : Word) (rcb : Nat) : State :=
  let n := bits cfg 7 0
  let live := (getTile s t).accLive
  let s := if live < n then zeroRange s (accBase t + 16384 * live) (16384 * (n - live)) else s
  modTile s t fun k => { k with
    accLive := n, accType := BitVec.ofNat 8 (bits cfg 15 8), accOwner := if n == 0 || rcb == 0 then none else some rcb }

/-- LIVE and TYPE as ACFG returns them. -/
def fileConfig (s : State) (t : Nat) : Word :=
  let k := getTile s t
  word (k.accLive % 256 + k.accType.toNat * 2 ^ 8)

/-- ACFGs waiting on a file, by arrival: turn, process, its core, whether its turn has come. -/
def acfgWaiters (s : State) (t : Nat) : List (Nat × Nat × Nat × Bool) :=
  sortBy (fun a b => decide (a.1 ≤ b.1)) (s.procs.filterMap fun e =>
    match e.2.wait with | .acfg _ _ u turn begun => if u == t then some (turn, e.1, e.2.core, begun) else none | _ => none)

end Sys2Proof.Machine
end

