-- ==== Sys2Proof/Machine/Operands.lean ====
section
/-! DEFINITION. Operand forms: sizes, immediates, shift amounts, branch conditions, values of the integer, multiply and
atomic operations (R26, R32, R33, R100 to R105, R210). -/

namespace Sys2Proof.Machine

/-- Bytes of a size (R32). -/
def sizeBytes : Size → Nat
  | .b => 1 | .h => 2 | .w => 4 | .d => 8

/-- SignExtend(imm18, 18) (R101). -/
def imm18 (i : BitVec 18) : Word := i.signExtend 64
/-- SignExtend(imm22, 22) · 4,096 (R103). -/
def upperImm (i : BitVec 22) : Word := i.signExtend 64 <<< 12
/-- SignExtend(off14, 14) · 2^sz (R26, R201). -/
def off14 (i : BitVec 14) (sz : Size) : Word := i.signExtend 64 * word (sizeBytes sz)
/-- SignExtend(off15, 15) · 4 (R105). -/
def off15 (i : BitVec 15) : PC := i.signExtend 48 <<< 2
/-- SignExtend(off22, 22) · 4 (R106). -/
def off22 (i : BitVec 22) : PC := i.signExtend 48 <<< 2

/-- Shift amount of the 64-bit and of the W forms (R100). -/
def sh6 (b : Word) : Nat := b.toNat % 64
def sh5 (b : Word) : Nat := b.toNat % 32

/-- The low 32 bits sign-extended. -/
def sext32 (v : Word) : Word := (v.setWidth 32).signExtend 64

/-- The low `8n` bits, sign-extended or zero-extended (R201). -/
def extendN (signed : Bool) (n v : Nat) : Word := if signed then ofI (sx v (8 * n)) else word (v % 2 ^ (8 * n))

def boolW (b : Bool) : Word := if b then 1 else 0

/-- Zero bits above the highest set bit (R100). -/
def clz64 (v : Word) : Word := word (if v.toNat = 0 then 64 else 63 - Nat.log2 v.toNat)

/-- Zero bits below the lowest set bit (R100). -/
def ctz64 (v : Word) : Word := word ((List.range 64).find? (fun i => v.getLsbD i) |>.getD 64)

/-- Set bits (R100). -/
def popc64 (v : Word) : Word := word ((List.range 64).countP fun i => v.getLsbD i)

/-- Byte i of the result is byte 7 − i (R100). -/
def brev64 (v : Word) : Word :=
  v.extractLsb' 0 8 ++ v.extractLsb' 8 8 ++ v.extractLsb' 16 8 ++ v.extractLsb' 24 8
    ++ v.extractLsb' 32 8 ++ v.extractLsb' 40 8 ++ v.extractLsb' 48 8 ++ v.extractLsb' 56 8

/-- SEXT and ZEXT (R100). -/
def sextTo (x : SrcWidth) (v : Word) : Word :=
  match x with
  | .b => (v.setWidth 8).signExtend 64
  | .h => (v.setWidth 16).signExtend 64
  | .w => (v.setWidth 32).signExtend 64

def zextTo (x : SrcWidth) (v : Word) : Word :=
  match x with
  | .b => (v.setWidth 8).setWidth 64
  | .h => (v.setWidth 16).setWidth 64
  | .w => (v.setWidth 32).setWidth 64

/-- High halves of the products (R104). -/
def mulhV (a b : Word) : Word := ofI (a.toInt * b.toInt / 2 ^ 64)
def mulhuV (a b : Word) : Word := word (a.toNat * b.toNat / 2 ^ 64)
def mulhsuV (a b : Word) : Word := ofI (a.toInt * (b.toNat : Int) / 2 ^ 64)

/-- DIV and REM (R104): a zero divisor gives all ones and the dividend; −2^63 / −1 gives −2^63 and 0. -/
def divV (a b : Word) : Word :=
  if b = 0 then BitVec.allOnes 64
  else if a.toInt = -(2 ^ 63) ∧ b.toInt = -1 then a
  else ofI (Int.tdiv a.toInt b.toInt)

def divuV (a b : Word) : Word := if b = 0 then BitVec.allOnes 64 else word (a.toNat / b.toNat)

def remV (a b : Word) : Word :=
  if b = 0 then a
  else if a.toInt = -(2 ^ 63) ∧ b.toInt = -1 then 0
  else ofI (Int.tmod a.toInt b.toInt)

def remuV (a b : Word) : Word := if b = 0 then a else word (a.toNat % b.toNat)

/-- AMO operations (R210), by op code. -/
inductive AmoFn where | swap | add | and | or | xor | min | max | minu | maxu | cas
deriving DecidableEq, Repr

/-- AmoValue of R210 on `w`-bit values: the new value, and whether it is written. -/
def amoValue (f : AmoFn) (w old b e : Nat) : Nat × Bool :=
  match f with
  | .swap => (b, true)
  | .add => ((old + b) % 2 ^ w, true)
  | .and => (old &&& b, true)
  | .or => (old ||| b, true)
  | .xor => (old ^^^ b, true)
  | .min => (if sx old w ≤ sx b w then old else b, true)
  | .max => (if sx b w ≤ sx old w then old else b, true)
  | .minu => (if old ≤ b then old else b, true)
  | .maxu => (if b ≤ old then old else b, true)
  | .cas => if old = e then (b, true) else (old, false)

/-- The AMO may be sent to a host window (R212). -/
def amoToHost (f : AmoFn) (trig : Bool) : Bool :=
  !trig && (match f with | .swap => true | .add => true | .cas => true | _ => false)

def ordAcq : AmoOrd → Bool
  | .acq => true | .ar => true | _ => false

def ordRel : AmoOrd → Bool
  | .rel => true | .ar => true | _ => false

end Sys2Proof.Machine
end

