-- ==== Sys2Proof/Machine/Flags.lean ====
section
/-! DEFINITION. FSTAT and the values and flags of the scalar floating-point instructions (R107 to R118). -/

namespace Sys2Proof.Machine

def fmtOf : Prec → Fmt
  | .s => fp32
  | .d => fp64

/-- F(W[a], p): FP32 ignores bits [63:32] (R107). -/
def fRead (p : Prec) (v : Word) : FV :=
  match p with
  | .s => fDecode fp32 (v.toNat % 2 ^ 32)
  | .d => fDecode fp64 v.toNat

/-- Pack(v, p): FP32 results have bits [63:32] zero (R107). -/
def fPack (n : Nat) : Word := word n

/-- FSTAT.RM (R109). -/
def fstatRm (v : Word) : Rm := rmOfNat (bits v 6 5)

/-- Binary and unary arithmetic (R113). -/
inductive FpOp where | add | sub | mul | div | sqrt | min | max
deriving DecidableEq, Repr

/-- FMIN and FMAX (R113, R114). -/
def fMinMax (f : Fmt) (hi : Bool) (pa pb : Nat) (a b : FV) : Nat × Nat :=
  let fl := nv (isSig a || isSig b)
  if isNan a && isNan b then (fNaN f, fl)
  else if isNan a then (pb, fl)
  else if isNan b then (pa, fl)
  else if hi then (if fBelow a b then pb else pa, fl)
  else (if fBelow b a then pb else pa, fl)

/-- FpValue of R113: pattern and flags. -/
def fpValue (op : FpOp) (p : Prec) (rm : Rm) (x y : Word) : Nat × Nat :=
  let f := fmtOf p
  let a := fRead p x
  let b := fRead p y
  match op with
  | .add => fAddV f rm a b
  | .sub => fAddV f rm a (fNegV b)
  | .mul => fMulV f rm a b
  | .div => fDivV f rm a b
  | .sqrt => fSqrtV f rm a
  | .min => fMinMax f false (x.toNat % 2 ^ fWidth f) (y.toNat % 2 ^ fWidth f) a b
  | .max => fMinMax f true (x.toNat % 2 ^ fWidth f) (y.toNat % 2 ^ fWidth f) a b

/-- FMA group (R115): `np` negates the product, `nc` the addend. -/
def fmaValue (p : Prec) (rm : Rm) (np nc : Bool) (x y z : Word) : Nat × Nat :=
  let a := fRead p x
  let c := fRead p z
  fFmaV (fmtOf p) rm (if np then fNegV a else a) (fRead p y) (if nc then fNegV c else c)

/-- FSGNJ and FSGNJN (R113, R114). -/
def fsgnjValue (p : Prec) (invert : Bool) (x y : Word) : Word :=
  match p with
  | .s => word (x.toNat % 2 ^ 31 + (if y.getLsbD 31 != invert then 2 ^ 31 else 0))
  | .d => word (x.toNat % 2 ^ 63 + (if y.getLsbD 63 != invert then 2 ^ 63 else 0))

inductive FpCmp where | eq | lt | le
deriving DecidableEq, Repr

/-- FEQ, FLT, FLE (R110, R113). -/
def fcmpValue (op : FpCmp) (p : Prec) (x y : Word) : Bool × Nat :=
  let a := fRead p x
  let b := fRead p y
  if isNan a || isNan b then (false, nv (if op == .eq then isSig a || isSig b else true))
  else
    let c := fCmp a b
    (match op with
     | .eq => c == 0
     | .lt => c == -1
     | .le => c != 1, 0)

/-- FCLASS (table of R114). -/
def fclassValue (p : Prec) (x : Word) : Word :=
  let f := fmtOf p
  match fRead p x with
  | .nan s => if s then 512 else 256
  | .inf s => if s then 128 else 8
  | .fin s m _ =>
    if m == 0 then (if s then 16 else 1)
    else if m < 2 ^ f.fb then (if s then 32 else 2)
    else (if s then 64 else 4)

/-- Range of an integer type (R116). -/
def intRange : IntTy → Int × Int
  | .w => (-(2 ^ 31), 2 ^ 31 - 1)
  | .wu => (0, 2 ^ 32 - 1)
  | .l => (-(2 ^ 63), 2 ^ 63 - 1)
  | .lu => (0, 2 ^ 64 - 1)

/-- FCVT.I (R116): a NaN gives 0, a value outside the range its nearer limit. -/
def fcvtIValue (p : Prec) (ty : IntTy) (rm : Rm) (x : Word) : Word × Nat :=
  let (lo, hi) := intRange ty
  match fRead p x with
  | .nan _ => (0, flagNV)
  | .inf s => (ofI (if s then lo else hi), flagNV)
  | .fin s m e =>
    let (z, inexact) := fToInt rm s m e
    if z < lo then (ofI lo, flagNV)
    else if hi < z then (ofI hi, flagNV)
    else (ofI z, if inexact then flagNX else 0)

/-- The integer that FCVT.F reads (R117). -/
def intRead (ty : IntTy) (v : Word) : Int :=
  match ty with
  | .w => sx v.toNat 32
  | .wu => (v.toNat % 2 ^ 32 : Nat)
  | .l => v.toInt
  | .lu => (v.toNat : Nat)

/-- FCVT.F (R117). -/
def fcvtFValue (p : Prec) (ty : IntTy) (rm : Rm) (x : Word) : Nat × Nat := intToF (fmtOf p) rm (intRead ty x)

/-- FCVT.SD (R118): to precision `p` from the other. -/
def fcvtSdValue (p : Prec) (rm : Rm) (x : Word) : Nat × Nat :=
  match p with
  | .d => fConvert fp64 rm (fRead .s x)
  | .s => fConvert fp32 rm (fRead .d x)

/-- Set flags in FSTAT; an instruction that sets none does not write it (R109). -/
def raiseFlags (s : State) (c w fl : Nat) : State :=
  if fl = 0 then s else pcsrWr s c w 1 (pcsrRd s c w 1 ||| word fl)

end Sys2Proof.Machine
end

