-- ==== Sys2Proof/Machine/Fetch.lean ====
section
/-! DEFINITION. Instruction fetch (R24, R86, R199), ILLOP and FETCH_FAULT, and what a program placed at a PC is: the
image of a process that stands ready to issue (log entry 16). -/

namespace Sys2Proof.Machine

inductive FetchRes where
  | word (w : IWord)
  | fails
deriving DecidableEq, Repr

/-- A copy of a word held by a core's instruction cache. -/
def l1iCopy (k : Core) (pa : Nat) : Option Copy := k.l1i.find? fun x => x.addr == pa

/-- 64 KiB of 4-byte copies (R11, R151). -/
def fillL1i (s : State) (c pa : Nat) (b : List Byte) : State :=
  modCore (tick s) c fun k => { k with l1i := (⟨pa, b, s.order + 1⟩ :: k.l1i.filter (·.addr != pa)).take 16384 }

def wordOf (b : List Byte) : FetchRes := .word (BitVec.ofNat 32 (ofBytes b))

/-- Code in the L2 of the core's segment, filled since the last shootdown in whose scope the core lies (R24, R159). -/
def l2Code (s : State) (c pa : Nat) : Option Copy :=
  match segOf (coreTile c) with
  | none => none
  | some g =>
    if inSegment c pa then none
    else ((amGet s.l2 g).getD []).find? fun x =>
      decide (x.addr ≤ pa) && decide (pa + 4 ≤ x.addr + x.bytes.length) && decide ((getSeg s g).shotAt < x.filled)

/-- The message of a miss in the instruction cache: to the L2 slice, or to the home (R157, R159). -/
def fetchMsg (s : State) (c pa : Nat) : State :=
  match segOf (coreTile c) with
  | some g => if inSegment c pa then noteAt s c pa else noteMsg s c (sliceTile g pa)
  | none => noteAt s c pa

/-- A word of code fetched at its home fills the instruction cache, and the L2 beyond the segment, unless no cache holds it. -/
def fetchHome (s : State) (c pa : Nat) (nc : Bool) : State × FetchRes :=
  if uncorrectable s pa 4 then (s, .fails)
  else
    let b := bytesAt s pa 4
    let s := correctAt s c pa 4
    if nc || neverCached s (pa / 8 * 8) 8 then (s, wordOf b)
    else
      match segOf (coreTile c) with
      | some g => (fillL1i (if inSegment c pa then s else fillBlock s g pa) c pa b, wordOf b)
      | none => (fillL1i s c pa b, wordOf b)

/-- A fetch past the instruction cache: from the L2, or from the home. Host memory is fetched by FETCH_FAULT, which awaits the
completion (R199). -/
def fetchMiss (s : State) (c pa : Nat) : State × FetchRes :=
  match l2Code s c pa with
  | some x =>
    let b := copyBytes x pa 4
    if spaceOf pa == 8 || b == bytesAt s pa 4 then (fillL1i (fetchMsg s c pa) c pa b, wordOf b)
    else
      let (keep, s) := freshChoice (fetchMsg s c pa)
      if keep then (fillL1i s c pa b, wordOf b) else fetchHome s c pa false
  | none => if spaceOf pa == 8 then (s, .fails) else fetchHome (fetchMsg s c pa) c pa false

/-- The word fetched from a translated address (R157, R199): until a shootdown a cached word that differs from memory is either the
old or the new one (R24, log entry 3). -/
def fetchAt (s : State) (c pa : Nat) (nc : Bool) : State × FetchRes :=
  if nc then
    if spaceOf pa != 8 then fetchHome (noteAt s c pa) c pa true
    else match (getCore s c).hostWord with
      | some (a, b) => if a == pa then (s, wordOf b) else (s, .fails)
      | none => (s, .fails)
  else
    match l1iCopy (getCore s c) pa with
    | some x =>
      if spaceOf pa == 8 || x.bytes == bytesAt s pa 4 then (s, wordOf x.bytes)
      else
        let (keep, s) := freshChoice s
        if keep then (s, wordOf x.bytes) else fetchMiss s c pa
    | none => fetchMiss s c pa

/-- Host code that a completion brings serves the fetch that awaited it; of a page that is not NC it is held in the instruction cache and in
the L2 (R157, R199). -/
def keepHostCode (s : State) (c pa : Nat) (b : List Byte) (nc : Bool) : State :=
  if nc then modCore s c fun k => { k with hostWord := some (pa, b) }
  else
  let s := fillL1i s c pa b
  match segOf (coreTile c) with
  | some g => keepL2 s g ⟨pa, b, s.order⟩
  | none => s

/-- Fetch the word at the running process's PC. -/
def fetch (s : State) (c : Nat) (r : Running) : State × FetchRes :=
  match memCheck s c r (r.pc.setWidth 64) 4 .fetch .fetch false with
  | (s, .ok pa nc) => fetchAt s c pa nc
  | (s, _) => (s, .fails)

/-- The instruction a word stands for: a word that no row encodes raises ILLOP (R39). -/
def instrOf (w : IWord) : Instr :=
  match decodeWord w with
  | .ok i => i
  | .error _ => .illop w

/-- ILLOP (R39): precise, TVAL holds the word. -/
def execIllop (w : IWord) (s : State) : Host.Outcome State Fault Refusal :=
  onCore s fun _ r => trapHere s r .illop (w.setWidth 64)

/-- FETCH_FAULT (R86, R167, R199): the fetch at the PC fails; the branch that led there has completed. TPC and TVAL hold
the fetched address; a page fault waits, a fetch from host memory awaits its completion. -/
def execFetchFault (target : PC) (s : State) : Host.Outcome State Fault Refusal :=
  onCore s fun c r =>
    if target = r.pc then
      access s c r (r.pc.setWidth 64) 4 .fetch .fetch false fun s pa nc =>
        if spaceOf pa == 8 && (if nc then (getCore s c).hostWord.all (·.1 != pa) else (l1iCopy (getCore s c) pa).isNone && (l2Code s c pa).isNone) then
          modCore (noteAt s c pa) c fun k => { k with stall := some (.pcieFetch pa nc) }
        else if uncorrectable s pa 4 then takeEccu s r.wptr (some (r.pc.setWidth 64))
        else s
    else s

/-! ### Uncorrectable doublewords of a slot (R425, R427) -/

/-- Registers that a word's instruction reads, by the formats of R25 and R27. -/
def sourceRegs (w : IWord) : List Reg :=
  let op := fOp w
  if op == 0x10 || op == 0x16 then [fD w, fA w]
  else if op == 0x01 || op == 0x0C || op == 0x1A || op == 0x20 || (0x24 ≤ op && op ≤ 0x28) || (0x2A ≤ op && op ≤ 0x2D) then [fA w, fB w]
  else if op == 0x17 || op == 0x18 || op == 0x21 then [fA w, fB w, fX w]
  else if (0x02 ≤ op && op ≤ 0x09) || op == 0x12 || op == 0x14 || op == 0x15 || op == 0x29 then [fA w]
  else []

/-- Per-process CSRs that a word's instruction reads, by their order in R124: the one that CSRR, CSRS and CSRC name, FSTAT of an FP instruction,
and what ENQ captures (R263). -/
def sourceCsrs (w : IWord) : List Nat :=
  let op := fOp w
  if op == 0x29 then (if fSz w == 1 then [] else [(w.extractLsb' 0 12).toNat])
  else if op == 0x20 || op == 0x21 then [1]
  else if op == 0x27 && fFn w == 0 then [2, 3, 4, 5, 6, 7, 8, 9, 10, 11]
  else []

/-- The instruction at the PC of the running process reads a doubleword of its slot that is uncorrectable (R427). -/
def spoiledSource (s : State) (c : Nat) (r : Running) : Bool :=
  match (slotOf (getCore s c) r.wptr).bind (slotAt (getCore s c)) with
  | none => false
  | some sl =>
    (sl.badR != 0 || sl.badC != 0) &&
      match (fetch s c r).2 with
      | .word w => (sourceRegs w).any (fun n => sl.badR.getLsbD n.toNat) || (sourceCsrs w).any fun n => sl.badC.getLsbD n
      | .fails => false

/-! ### A process that stands at an instruction -/

/-- The tile whose engine an instruction needs, for `withFetchWord`: a D, S, A or V tile for a command of that KIND (R11, R41), else
tile 1. -/
def bootTile (nbits w : Nat) : Nat :=
  if nbits ≤ 32 then 1
  else
    match cKind (BitVec.ofNat 256 w) with
    | 1 => 2
    | 2 => 1
    | 3 => 4
    | 4 => 0
    | _ => 1

/-- Workspace and code of the process that `withFetchWord` makes ready on core c0 of a tile, in system mode, in no region, with
physical addresses. -/
def bootWptr (t : Nat) : Nat := t * tlmWindow + 0x8000
def bootPc (t : Nat) : Nat := t * tlmWindow + 0x10000

/-- Where the command that `withFetchWord` places stands. -/
def bootCmd (t : Nat) : Nat := t * tlmWindow + 0x20000

def bootSlot (t : Nat) : Slot where
  wptr := bootWptr t
  regs := Vector.replicate 16 0
  csrs := Vector.replicate 12 0
  dirtyR := 0
  dirtyC := 0
  badR := 0
  badC := 0
  stamp := 0

def bootRun (t : Nat) : Running where
  wptr := bootWptr t
  sm := true
  hp := false
  xc := false
  pc := BitVec.ofNat 48 (bootPc t)
  rcb := 0
  slice := 16384
  held := false
  seen := []

def bootProc (t : Nat) : Proc where
  rcb := 0
  join := none
  core := coreNo t 0
  wait := .none
  keptArg := 0
  pend := []
  waitClocks := 0
  slice := none
  dying := false
  killed := false
  lockTurn := none

/-- A system process RUNNING on core c0 of tile `t`. -/
def withBootProc (s : State) (t : Nat) : State :=
  let s := putProc s (bootWptr t) (bootProc t)
  let s := modCore s (coreNo t 0) fun k => { k with
    run := some (bootRun t), stall := none, wfi := false, slots := k.slots.setIfInBounds 0 (some (bootSlot t)) }
  { s with cur := coreNo t 0, agenda := [], yielded := false }

end Sys2Proof.Machine
end

