-- ==== Sys2Proof/Machine/Device.lean ====
section
/-! DEFINITION. Device space 0xF as every reader and writer sees it (R434): shootdown and map registers (R170, R378),
host work queues (R337, R338), site blocks (R365), routing tables (R383), energy counters (R406), BOOTST (R424), PANELID and
the fabric table (R385). -/

namespace Sys2Proof.Machine

/-- The state codes of R365. -/
def siteCode : SiteState → Nat
  | .empty => 0 | .seated => 1 | .powered => 2 | .attested => 3 | .linked => 4 | .admitted => 5 | .draining => 6
  | .quiesced => 7 | .released => 8 | .lost => 9

/-- A field that only writes reach, as a read returns it (log entry 21). -/
def openField (s : State) (w : Nat) : Nat × State :=
  ((Config.writeOnly s.nonce).toNat % 2 ^ w, { s with nonce := s.nonce + 1 })

/-- BOOTST (R424). -/
def bootst (p : Pmc) : Word :=
  word (p.adm.toNat * 2 ^ 48 + p.darkseg % 256 * 2 ^ 32 + p.fault % 256 * 2 ^ 8 + p.slot % 16 * 16 + p.stage % 16)

/-- Word +0x08 of a work queue (R337). -/
def wqControl (q : WorkQueue) : Word :=
  word (b2n q.en * 2 ^ 63 + b2n q.err * 2 ^ 62 + q.errc % 16 * 2 ^ 56 + q.tenant % 4096 * 2 ^ 16 + q.log % 16)

/-- The doubleword a device register holds, as a read returns it. -/
def devValue (s : State) (r : DevReg) : Word × State :=
  match r with
  | .sdva g => ((getSeg s g).sdva, s)
  | .sdctl g => ((getSeg s g).sdctl, s)
  | .map g 0 => ((getSeg s g).mapRcb, s)
  | .map g 1 => ((getSeg s g).newMap, s)
  | .map g _ =>
    let (o, s') := openField s 2
    (setBits (getSeg s g).mapOp 1 0 o, s')
  | .watchroom _ => (0, s)
  | .wq q 0 => ((getWq s q).base, s)
  | .wq q 1 => (wqControl (getWq s q), s)
  | .wq _ 2 =>
    let (o, s') := openField s 32
    (word o, s')
  | .wq q 3 => ((getWq s q).head.setWidth 64, s)
  | .wq _ _ => (0, s)
  | .site n 0 =>
    let k := getSite s n
    (word (k.fail % 256 * 2 ^ 48 + k.agen.toNat * 2 ^ 16 + (if n < 4 then 0 else 2 ^ 8) + siteCode k.st), s)
  | .site n 1 => ((getSite s n).deadline, s)
  | .site n 2 => ((getSite s n).serial, s)
  | .site n 3 => ((getSite s n).stime, s)
  | .site n 4 =>
    let k := getSite s n
    let (o, s') := openField s 4
    (word (b2n k.busy * 2 ^ 63 + k.cst % 256 * 2 ^ 48 + k.notice.toNat * 2 ^ 16 + o), s')
  | .site _ _ => (0, s)
  | .route t i => (((getTile s t).routes[i]?).getD 0, s)
  | .energy t => ((getTile s t).energy, s)
  | .cecnt t => ((getTile s t).cecnt.setWidth 64, s)
  | .zenergy z => ((getSeg s z).zenergy, s)
  | .menergy n => ((getSite s n).menergy, s)
  | .bootst => (bootst s.pmc, s)
  | .panelid => (word (s.pmc.panelid % 256), s)
  | .fabric n => ((amGet s.pmc.fabric n).getD 0, s)

/-- The energy counters, whose 32-bit reads go through a latch (R406). -/
def isEnergy : DevReg → Bool
  | .energy _ => true
  | .zenergy _ => true
  | .menergy _ => true
  | _ => false

/-- The latch of a reader, and a new one for it (R406). -/
def latchOf (s : State) (r : Reader) : Option (Nat × BitVec 32) :=
  match r with
  | .core c => (getCore s c).latch
  | .ethernet => s.pmc.latchEth
  | .i3c => s.pmc.latchI3c

def setLatch (s : State) (r : Reader) (l : Nat × BitVec 32) : State :=
  match r with
  | .core c => modCore s c fun k => { k with latch := some l }
  | .ethernet => { s with pmc := { s.pmc with latchEth := some l } }
  | .i3c => { s with pmc := { s.pmc with latchI3c := some l } }

/-- A 32-bit read of an energy counter's half by a reader (R406): the low half latches the high one. -/
def energyHalf (s : State) (rd : Reader) (pa : Nat) (v : Word) : BitVec 32 × State :=
  if pa % 8 == 0 then (v.setWidth 32, setLatch s rd (pa, v.extractLsb' 32 32))
  else
    match latchOf s rd with
    | some (a, h) => if a == pa - 4 then (h, s) else (v.extractLsb' 32 32, s)
    | none => (v.extractLsb' 32 32, s)

/-- A read of 4 or 8 bytes of device space by a reader. -/
def devRead (s : State) (rd : Reader) (pa n : Nat) : Nat × State :=
  match devReg (spaceOff pa) with
  | none => (0, s)
  | some r =>
    let (v, s1) := devValue s r
    if n == 8 then (v.toNat, s1)
    else if isEnergy r then
      let (h, s2) := energyHalf s1 rd pa v
      (h.toNat, s2)
    else ((v.toNat >>> (8 * (pa % 8))) % 2 ^ 32, s1)

/-! ### Writes -/

/-- A doubleword with 4 or 8 bytes replaced. -/
def mergeHalf (old : Word) (pa n v : Nat) : Word :=
  if n == 8 then word v else setBits old (8 * (pa % 8) + 31) (8 * (pa % 8)) v

/-- A TLB entry overlaps the page that a shootdown names (R171). -/
def overlapsPage (e : TlbEnt) (tid lo sz : Nat) (whole : Bool) : Bool :=
  e.tenant == tid && (whole || (decide (e.vbase < lo + sz) && decide (lo < e.vbase + e.size)))

/-- Tiles in the scope of a shootdown by segment `g` (R170): SCOPE 1 segment, 2 wafer module, 3 panel. -/
def inShootScope (g scope t : Nat) : Bool :=
  match scope with
  | 1 => segOf t == some g
  | 2 => isGrid t && siteOf t == segModule g
  | _ => true

def shootSize (code : Nat) : Nat :=
  match code with
  | 0 => 2 ^ 16 | 1 => 2 ^ 21 | 2 => 2 ^ 30 | _ => 2 ^ 48

/-- Virtual ranges that a shootdown concerns: the page it names, and that of every entry it removes (R171). -/
def shotRanges (s : State) (inside : Nat → Bool) (tid va size : Nat) : List (Nat × Nat) :=
  let sz := shootSize size
  let lo := va / sz * sz
  let gone (l : List TlbEnt) : List (Nat × Nat) :=
    (l.filter fun e => overlapsPage e tid lo sz (size == 3)).map fun e => (e.vbase, e.vbase + e.size)
  (lo, lo + sz) :: (s.cores.flatMap (fun p => if inside (coreTile p.1) then gone p.2.tlb else [])
    ++ s.tiles.flatMap fun p => if inside p.1 then gone p.2.tlb else [])

/-- Segments in the scope of a shootdown by segment `g`. -/
def shootSegs (g scope : Nat) : List Nat :=
  match scope with
  | 1 => [g]
  | 2 => moduleSegs (segModule g)
  | _ => allSegs

/-- Invalidate TLB entries and instruction caches in scope (R24, R171). -/
def invalidate (s : State) (inside : Nat → Bool) (segs : List Nat) (tid va size : Nat) : State :=
  let sz := shootSize size
  let lo := va / sz * sz
  let keep (e : TlbEnt) : Bool := !overlapsPage e tid lo sz (size == 3)
  let s := tick { s with
    cores := s.cores.map fun p => (p.1, if inside (coreTile p.1) then { p.2 with tlb := p.2.tlb.filter keep, l1i := [] } else p.2)
    tiles := s.tiles.map fun p => (p.1, if inside p.1 then { p.2 with tlb := p.2.tlb.filter keep } else p.2) }
  segs.foldl (fun s g => modSeg s g fun k => { k with shotAt := s.order }) s

/-- A store to SDCTL with BUSY clear (R170, R171): a reserved scope, or a must-be-zero field that is not zero in SDVA or in SDCTL itself
(log entry 62), does nothing and sets ERR; else BUSY is set and every TLB entry and instruction cache in scope is invalidated. -/
def startShootdown (s : State) (g : Nat) (v : Word) : State :=
  let old := getSeg s g
  if bit old.sdctl 63 then s
  else
    let body := setBits (setBits v 63 62 0) 63 62 0
    let scope := bits v 21 20
    if scope == 0 || bits old.sdva 63 48 != 0 || bits v 61 22 != 0 || bits v 17 12 != 0 then
      modSeg s g fun k => { k with sdctl := setBits body 62 62 1 }
    else
      let inside := inShootScope g scope
      let va := bits old.sdva 47 0
      let ranges := shotRanges s inside (bits v 11 0) va (bits v 19 18)
      let s := modSeg s g fun k => { k with sdctl := setBits body 63 63 1, shot := some ⟨bits v 11 0, scope, ranges⟩ }
      invalidate s inside (shootSegs g scope) (bits v 11 0) va (bits v 19 18)

/-- A store to +0x210 (R378): OP 0 is no operation, and any other sets BUSY until its event has carried it out. -/
def startMapOp (s : State) (g : Nat) (v : Word) : State :=
  let op := bits v 1 0
  if op == 0 then s
  else modSeg s g fun k => { k with mapOp := setBits (setBits k.mapOp 63 63 1) 1 0 op }

/-- A write of TAIL (R338): a doorbell overrun stops the queue. -/
def setTail (s : State) (q : Nat) (tail : BitVec 32) : State :=
  modWq s q fun k =>
    if decide (2 ^ k.log < (tail - k.head).toNat) then { k with tail := tail, err := true, errc := 1 }
    else { k with tail := tail }

/-- A write of word +0x08 (R337, R338): EN from 0 to 1 clears ERR and ERRC and zeroes HEAD and TAIL; LOG and TENANT change
only while EN is 0, TENANT for system mode alone. -/
def setWqControl (s : State) (q : Nat) (v : Word) (sm : Bool) : State :=
  modWq s q fun k =>
    if k.en then { k with en := bit v 63 }
    else
      let k := { k with log := bits v 3 0, tenant := if sm then bits v 27 16 else k.tenant }
      if bit v 63 then { k with en := true, err := false, errc := 0, head := 0, tail := 0 } else k

/-- A write of BASE: dropped while EN is 1 (R338). -/
def setWqBase (s : State) (q : Nat) (v : Word) : State :=
  modWq s q fun k => if k.en then k else { k with base := v &&& word (2 ^ 52 - 64) }

/-- A store to +0x20 of a site block (R365): NOTICE is written and the PMC takes the command. -/
def setSiteCmd (s : State) (n : Nat) (v : Word) : State :=
  let c := bits v 3 0
  modSite s n fun k =>
    let k := { k with notice := v.extractLsb' 16 32 }
    if 1 ≤ c && c ≤ 4 then { k with busy := true, cmd := c } else { k with cst := 1 }

/-- The reply of a pager to Watchroom `w` with a doubleword (R169): entry and outcome. -/
def watchroomEntry (v : Word) : Nat := bits v 5 0

/-- A store is held at its register while BUSY is set (R170, R365, R378). -/
def devHeld (s : State) (pa : Nat) : Bool :=
  match devReg (spaceOff pa) with
  | some (.sdctl g) => bit (getSeg s g).sdctl 63
  | some (.map g _) => bit (getSeg s g).mapOp 63
  | some (.site n 4) => (getSite s n).busy
  | _ => false

/-- A store of 4 or 8 bytes performed at a device register. `sm` marks a store of system mode, else a host's; `reply` is
the pager's answer to a Watchroom. The half of a reply register that a .W store leaves out counts as zero (log entry 63), and the
must-be-zero bits of a routing-table entry are kept and ignored (log entry 64). -/
def devWrite (s : State) (pa n v : Nat) (sm : Bool) (reply : State → Nat → Word → State) : State :=
  match devReg (spaceOff pa) with
  | none => s
  | some r =>
    match r with
    | .sdva g => if sm then modSeg s g fun k => { k with sdva := mergeHalf k.sdva pa n v } else s
    | .sdctl g => if sm then startShootdown s g (mergeHalf (getSeg s g).sdctl pa n v) else s
    | .map g 0 => if sm then modSeg s g fun k => { k with mapRcb := mergeHalf k.mapRcb pa n v &&& word (2 ^ 52 - 256) } else s
    | .map g 1 => if sm then modSeg s g fun k => { k with newMap := mergeHalf k.newMap pa n v &&& word (2 ^ 52 - 64) } else s
    | .map g _ => if sm && !(n == 4 && pa % 8 == 4) then startMapOp s g (word v) else s
    | .watchroom w => if sm then reply s w (mergeHalf 0 pa n v) else s
    | .wq q 0 => setWqBase s q (mergeHalf (getWq s q).base pa n v)
    | .wq q 1 => setWqControl s q (mergeHalf (wqControl (getWq s q)) pa n v) sm
    | .wq q 2 => if n == 4 && pa % 8 == 4 then s else setTail s q (BitVec.ofNat 32 v)
    | .wq _ _ => s
    | .site m 4 => if sm then
        (if n == 4 && pa % 8 == 4 then modSite s m fun k => { k with notice := (k.notice &&& 0xFFFF) ||| BitVec.ofNat 32 (v % 2 ^ 16 * 2 ^ 16) }
         else setSiteCmd s m (mergeHalf ((getSite s m).notice.setWidth 64 <<< 16) pa n v))
      else s
    | .site _ _ => s
    | .route t i => if sm then modTile s t fun k => { k with
        routes := k.routes.setIfInBounds i (mergeHalf ((k.routes[i]?).getD 0) pa n v) } else s
    | _ => s

/-- The range's home, for a device store or load of a tile (R434): none for the PMC. -/
def devHome (r : DevReg) : Option Nat :=
  match r with
  | .sdva g => some (segTile g)
  | .sdctl g => some (segTile g)
  | .map g _ => some (segTile g)
  | .watchroom w => some (segTile (8 * (w % 2) + 16 * (w / 2)))
  | .route t _ => some t
  | .energy t => some t
  | .cecnt t => some t
  | .zenergy z => some (segTile z)
  | _ => none

end Sys2Proof.Machine
end

