-- ==== Sys2Proof/Machine/Spawning.lean ====
section
/-! DEFINITION. Spawn records and their checks (R221 to R226), the workspace a spawn writes (R222), accesses of a tile's
engines and port (R165, R167), and trigger firings (R213, R410 to R412). -/

namespace Sys2Proof.Machine

/-! ### Accesses on behalf of a tile -/

/-- Translate for an engine of tile `t` (R166); its walks correct and count as a core's do (R156). -/
def tileTranslate (s : State) (t tenant va : Nat) : State × Walk :=
  let fresh := walk s t tenant va
  match tlbHit (getTile s t).tlb tenant va with
  | some e =>
    if fresh == .leaf (leafOf e) then (s, fresh)
    else
      let (keep, s) := freshChoice s
      if keep then (s, .leaf (leafOf e))
      else
        let s := countWalk (modTile s t fun k => { k with tlb := k.tlb.filter (· != e) }) t tenant va
        match fresh with
        | .leaf l => (tileTlbFill s t tenant l, fresh)
        | _ => (s, fresh)
  | none =>
    let s := countWalk s t tenant va
    match fresh with
    | .leaf l => (tileTlbFill s t tenant l, fresh)
    | _ => (s, fresh)

/-- MemCheck for an engine of tile `t`: `space` is the tenant space, none for physical addresses (R155). -/
def tileMemCheck (s : State) (t : Nat) (space : Option Nat) (sm : Bool) (ea : Word) (n : Nat) (kind : Kind) (row : Row) : State × Chk :=
  match space with
  | none =>
    if bits ea 63 52 != 0 then (s, .trap .bound)
    else if ea.toNat % n != 0 then (s, .trap .align)
    else (s, afterTranslation s (coreNo t 0) sm 0 row kind false n ea.toNat false)
  | some tenant =>
    if bits ea 63 48 != 0 then (s, .trap .bound)
    else if ea.toNat % n != 0 then (s, .trap .align)
    else
      match tileTranslate s t tenant ea.toNat with
      | (s, .leaf l) =>
        if permDenied sm kind l.flags then (s, .trap .prot)
        else (s, afterTranslation s (coreNo t 0) sm tenant row kind false n (l.pbase + (ea.toNat - l.vbase)) (l.flags.getLsbD 10))
      | (s, .fault m) => (s, .fault tenant m)
      | (s, .ecc) => (s, .ecc)

/-- Address space of a system or region-mode party of region `rcb` (R155), without VIDSEL. -/
def regionSpace (s : State) (rcb : Nat) (sm : Bool) : Option Nat :=
  let tn := rcbTenant s rcb
  if sm && tn == 0 then none else some tn

/-- Report a missing page to the Watchroom for a party of tile `t` (R167). -/
def reportPage (s : State) (t tenant va kind : Nat) (malformed : Bool) (who : FaultSrc) : State :=
  pushMsg s (.fault ⟨watchroomOf t, tenant, va / 2 ^ 16 * 2 ^ 16, kind, malformed, who, false⟩)

/-! ### Addresses of jobs -/

/-- The space a job translates in (R155, R263). -/
def jobSpace (j : Job) : Option Nat := if j.sm && j.tenant == 0 then none else some j.tenant

/-- Pieces of an interval, each in one 64 KiB page. -/
def pagePieces (va n : Nat) : List (Nat × Nat) :=
  if n == 0 then []
  else (List.range ((va + n - 1) / 65536 - va / 65536 + 1)).map fun i =>
    let lo := max va ((va / 65536 + i) * 65536)
    (lo, min (va + n) ((va / 65536 + i + 1) * 65536) - lo)

/-- Physical address by a walk, with no effect; none where the address does not translate. -/
def peekPa (s : State) (t : Nat) (j : Job) (va : Nat) : Option Nat :=
  if 2 ^ 48 ≤ va then none
  else
    match jobSpace j with
    | none => some va
    | some tenant =>
      match walk s t tenant va with
      | .leaf l => some (l.pbase + (va - l.vbase))
      | _ => none

/-! ### Blocks that an instruction reads -/

/-- The core still holds stores to the bytes, in its buffer or on their way. -/
def ownStoresOver (s : State) (c pa n : Nat) : Bool :=
  let covers (e : StoreEnt) : Bool := decide (e.pa < pa + n) && decide (pa < e.pa + e.n)
  (getCore s c).sbuf.any covers ||
    (getCore s c).journal.any fun e => !e.2.rf && covers e.2.store && inFlight s c e.1

/-- Copies of an interval beyond the segment that an access at its home makes the core and its segment's L2 drop (R174). -/
def dropCopiesOver (s : State) (c pa n : Nat) : State :=
  (List.range ((pa + n + 31) / 32 - pa / 32)).foldl (fun s i => dropOwnCopies s c (pa / 32 * 32 + 32 * i)) s

/-- Read the `n` bytes at a checked address for the executing instruction, at their home, once the core's own earlier stores
to them are performed. -/
def readBlock (s : State) (c : Nat) (r : Running) (pa n : Nat) (k : State → State) : State :=
  if ownStoresOver s c pa n then holdHere s
  else if uncorrectable s pa n then takeEccu s r.wptr none
  else
    let s := correctAt s c pa n
    k (match homeTile pa with | some t => if t == coreTile c then s else dropCopiesOver (noteMsg s c t) c pa n | none => s)

/-- Doublewords at a physical address. -/
def wordsAt (s : State) (pa n : Nat) : List Word := (List.range n).map fun i => dwAt s (pa + 8 * i)

/-! ### Spawn records (R221) -/

def recW (ws : List Word) (i : Nat) : Word := ws.getD i 0
def recWslot (ws : List Word) : Nat := bits (recW ws 0) 62 48
def recPc (ws : List Word) : Nat := bits (recW ws 0) 47 0
def recRgn (ws : List Word) : Nat := bits (recW ws 1) 51 8 * 256
def recPri (ws : List Word) : Nat := bits (recW ws 2) 63 62
def recCv (ws : List Word) : Bool := bit (recW ws 2) 61
def recClass (ws : List Word) : Nat := bits (recW ws 2) 60 58
def recJoin (ws : List Word) : Nat := bits (recW ws 2) 47 0

/-- WPTR offsets of a workspace slot (R221, R231). -/
def slotValid (w : Nat) : Bool := decide (1 ≤ w) && decide (w ≤ 24574)

/-- A record that gives status 2 (R223). -/
def recMalformed (ws : List Word) : Bool :=
  bit (recW ws 0) 63 || bits (recW ws 1) 63 52 != 0 || bits (recW ws 1) 7 0 != 0 || recPri ws == 3
    || bits (recW ws 2) 57 48 != 0 || !slotValid (recWslot ws) || recPc ws % 4 != 0

/-- The region that a record names, for a spawner of region `own`. -/
def recRegion (ws : List Word) (own : Nat) : Nat := if recRgn ws == 0 then own else recRgn ws

/-- CheckRecord of R223: statuses 2 and 3, or 0. -/
def checkRecord (s : State) (ws : List Word) (own : Nat) (sm : Bool) : Nat :=
  let rgn := recRegion ws own
  if recMalformed ws then 2
  else if !liveRegion s rgn || (!sm && !inTree s own rgn) then 3
  else 0

/-- SpawnPlace (R224): the region whose grid resolves the place word, and the resolution. -/
def spawnGrid (s : State) (own rgn : Nat) : Nat :=
  if !liveRegion s rgn || inTree s own rgn then own else rgn

def spawnPlace (s : State) (own rgn t core : Nat) (pw : Word) (sm : Bool) : Resolved :=
  if spawnGrid s own rgn == own then resolvePlace s own t pw (some core) sm
  else resolveFrom s rgn 0 0 pw (some 0) sm

/-- The workspace slot of a target is marked: its control block or its head. -/
def slotMarked (s : State) (t wslot : Nat) : Bool := anyMark s (t * tlmWindow + 128 * wslot - 128) 256

/-- Tokens that class `k` needs per tile (R387). -/
def classNeed (k : Nat) : Nat := [0, 20, 40, 80, 120, 160, 200, 220].getD k 0

/-- Processes READY or RUNNING on a core (R225). -/
def coreLoad (k : Core) : Nat := k.highQ.length + k.lowQ.length + b2n k.run.isSome

/-- A zone where SPAWNA may place work (R225): no thermal ceiling, no skipping and no current-limit ceiling. -/
def zoneEligible (s : State) (t : Nat) : Bool :=
  match segOf t with
  | some g => (getSeg s g).th == 7 && (getSeg s g).cl == 7 && !((segTiles g).any fun u => (getTile s u).skip != 0)
  | none => true

/-- Eligible cores among tiles (R225). -/
def eligibleCores (s : State) (ts : List Nat) (wslot : Nat) : List Nat :=
  ts.flatMap fun t =>
    if slotMarked s t wslot || !zoneEligible s t then []
    else ([0, 1, 2, 3].filter fun i => !isSystemCore t i).map (coreNo t)

/-- Key of R225: FREE below the need, load, tile, core. -/
def spawnKey (s : State) (need c : Nat) : Nat × Nat × Nat :=
  let short := match segOf (coreTile c) with
    | some g => decide ((getSeg s g).free < need)
    | none => false
  (b2n short, coreLoad (getCore s c), c)

def keyLt (a b : Nat × Nat × Nat) : Bool :=
  decide (a.1 < b.1) || (a.1 == b.1 && (decide (a.2.1 < b.2.1) || (a.2.1 == b.2.1 && decide (a.2.2 < b.2.2))))

def bestCore (s : State) (need : Nat) : List Nat → Option Nat
  | [] => none
  | c :: t =>
    match bestCore s need t with
    | some b => if keyLt (spawnKey s need b) (spawnKey s need c) then some b else some c
    | none => some c

/-- Distribute (R225): the distributor of the spawner's segment, then that of the anchor's. -/
def distribute (s : State) (t rgn : Nat) (ws : List Word) : Option Nat :=
  let need := classNeed (if recCv ws then recClass ws else rcbDclass s rgn)
  let all := regionTiles s rgn
  let near := all.filter fun u => segOf u == some (faceSeg t)
  match bestCore s need (eligibleCores s near (recWslot ws)) with
  | some c => some c
  | none => bestCore s need (eligibleCores s all (recWslot ws))

/-- W13 of a spawned process: its image's .tlm address on the target tile (R53, R222). -/
def gpFor (s : State) (tenant pc t : Nat) : Word :=
  match s.images.find? fun i => i.tenant == tenant && decide (i.lo ≤ pc) && decide (pc < i.hi) with
  | some i => (amGet i.tlm t).getD (Config.gpOutsideImages (BitVec.ofNat 48 pc) t)
  | none => Config.gpOutsideImages (BitVec.ofNat 48 pc) t

/-- Write `ws` to consecutive doublewords. -/
def putWords (s : State) (a : Nat) : List Word → State
  | [] => s
  | w :: t => putWords (putHw s a w) (a + 8) t

/-- The initial workspace of R222 and its marks. No cache holds the workspace from here on (R94), and the child's first instruction observes
what its spawner released (R184). -/
def freshProc (s : State) (c rgn : Nat) (sm hp : Bool) (gp : Word) (ws : List Word) (join : Option Nat) : State :=
  let w := coreTile c * tlmWindow + 128 * recWslot ws
  let head := [resumeWord sm hp false (BitVec.ofNat 48 (recPc ws)), recW ws 3, recW ws 4, recW ws 5, recW ws 6, recW ws 7,
    0, 0, 0, 0, 0, 0, 0, gp, 0, word (w - 128)]
  let s := undoLog (acquireDone (dropAllCopies s (w - 128) 256) c .panel) (w - 128) 256
  let s := putWords s w head
  let s := putWords s (w - 32) [0, 0, 0, 1]
  putProc s w ⟨rgn, join, c, .none, 0, [], 0, none, false, false, none⟩

/-- A spawned process: its initial workspace, its entry in its core's run queue, and LIVE (R222). -/
def installProc (s : State) (c rgn : Nat) (sm : Bool) (ws : List Word) (join : Option Nat) : State :=
  let t := coreTile c
  let w := t * tlmWindow + 128 * recWslot ws
  let hp := recPri ws == 1 || (recPri ws == 2 && decide (2 ≤ rcbPrio s rgn))
  let ec := recCv ws && recClass ws != rcbDclass s rgn
  let s := freshProc s c rgn sm hp (gpFor s (rcbTenant s rgn) (recPc ws) t) ws join
  let s := if ec then pcsrWr s c w 5 (word (8 + recClass ws)) else s
  let s := putRcb s rgn 48 31 0 (rcbLive s rgn + 1)
  let s := if (getRegion s rgn).interval.isSome then modRegion s rgn fun g => { g with spawned := g.spawned ++ [w] } else s
  if rcbState s rgn == 1 then setPstate s w 11 1 else enqueueTail s w

/-- A spawn at its target (R222, R226): status 4, 1 or 3, or the process. -/
def spawnApply (s : State) (source c rgn : Nat) (sm : Bool) (ws : List Word) (join : Option Nat) : State × Nat :=
  let t := coreTile c
  if t != source && holeCheck s source (t * tlmWindow) != .clear then (s, 4)
  else if slotMarked s t (recWslot ws) then (s, 1)
  else if !liveRegion s rgn then (s, 3)
  else (installProc s c rgn sm ws join, 0)

/-- A spawn's effect with its join counter taken back when no child exists (R223, R226). -/
def spawnAtTarget (s : State) (m : SpawnMsg) : State × Nat :=
  let (s, st) := spawnApply s m.source (coreNo m.tile m.core) m.rcb m.sm m.words m.joinPa
  (if st == 0 then s else decCounter s m.joinPa 0 m.sm, st)

/-- W[d] of SPAWN and SPAWNA (R223). -/
def spawnResult (m : SpawnMsg) (st : Nat) : Word :=
  word (st + (if m.spawna && st == 0 then m.tile * 2 ^ 16 + m.core * 2 ^ 8 else 0))

/-! ### Triggers (R410 to R413) -/

def trigTable (s : State) (t : Nat) : Nat := t * tlmWindow + bits (getTile s t).trigBase 21 10 * 1024
def trigWord (s : State) (t i j : Nat) : Word := dwAt s (trigTable s t + 32 * i + 8 * j)

/-- A must-be-zero field of an entry (R410). -/
def trigMalformed (s : State) (t i : Nat) : Bool :=
  bits (trigWord s t i 0) 63 52 != 0 || bits (trigWord s t i 0) 1 0 != 0
    || bits (trigWord s t i 3) 63 18 != 0 || bits (trigWord s t i 3) 7 0 != 0

/-- Write STAT of an entry (R412). -/
def setTrigStat (s : State) (t i st : Nat) : State :=
  let a := trigTable s t + 32 * i + 24
  performWrite s a 8 (setBits (dwAt s a) 15 8 st).toNat none false 0

/-- The spawn of a firing (R412): `sm` is the mode recorded at arming. A page to be mapped is reported to the Watchroom, and
the firing proceeds from there; a join counter under a guard holds the firing at its port (R264). -/
def fireSpawn (s : State) (t i : Nat) (sm : Bool) : State :=
  let owner := trigOwner s t i
  let core := bits (trigWord s t i 3) 17 16
  let tn := bits (getTile s t).tenant 11 0
  let space := if sm && tn == 0 then none else some tn
  if trigMalformed s t i then setTrigStat s t i 2
  else
    let srec := word (bits (trigWord s t i 1) 47 0)
    match tileMemCheck s t space sm srec 64 .read .block with
    | (s, .fault tenant m) => reportPage s t tenant srec.toNat 4 m (.trigger t i sm)
    | (s, .ok pa _) =>
      if uncorrectable s pa 64 then setTrigStat s t i 6
      else
        let ws := wordsAt s pa 8
        let rgn := recRegion ws owner
        let st := checkRecord s ws owner sm
        if st != 0 then setTrigStat s t i st
        else if !(regionTiles s rgn).contains t || (!sm && isSystemCore t core) then setTrigStat s t i 6
        else if recJoin ws == 0 then
          let (s, st) := spawnApply s t (coreNo t core) rgn sm ws none
          setTrigStat s t i st
        else
          match tileMemCheck s t space sm (word (recJoin ws)) 8 .write (.amo false) with
          | (s, .ok ja _) =>
            if guardHolds s ja 8 none sm then modTile s t fun k => { k with firing := k.firing ++ [(i, sm)] }
            else if uncorrectable s ja 8 then setTrigStat s t i 6
            else
              let s := incCounter s (some ja) owner
              let (s, st) := spawnApply s t (coreNo t core) rgn sm ws (some ja)
              setTrigStat (if st == 0 then s else decCounter s (some ja) owner sm) t i st
          | (s, .fault tenant m) => reportPage s t tenant (recJoin ws) 5 m (.trigger t i sm)
          | (s, _) => setTrigStat s t i 6
    | (s, _) => setTrigStat s t i 6

/-- Entries of tile `t` that an AMO.T writing zero at `pa` matches (R412). -/
def trigMatches (s : State) (t pa : Nat) : List Nat :=
  let k := getTile s t
  if bit k.trigBase 0 then
    (List.range 32).filter fun i => k.trigArm.getLsbD i && bits (trigWord s t i 0) 51 2 == pa / 4 % 2 ^ 50
  else []

/-- Fire every matching entry in ascending order (R213, R412). -/
def fireTriggers (s : State) (pa : Nat) : State :=
  match homeTile pa with
  | some t =>
    (trigMatches s t pa).foldl (fun s i =>
      let sm := (getTile s t).trigSys.getLsbD i
      fireSpawn (modTile (logArming s t) t fun k => { k with trigArm := k.trigArm &&& ~~~(1#32 <<< i) }) t i sm) s
  | none => s

/-- The firings that a guard held and holds no more proceed (R264, R412). -/
def serveFirings (s : State) : State :=
  s.tiles.foldl (fun s e => (getTile s e.1).firing.foldl (fun s x =>
    fireSpawn (modTile s e.1 fun k => { k with firing := k.firing.erase x }) e.1 x.1 x.2) s) s

end Sys2Proof.Machine
end

