-- ==== Sys2Proof/Machine/LoadStore.lean ====
section
/-! DEFINITION. Loads and stores (R201, R202), full/empty words and WAITA (R204 to R208), HBM access (R215). -/

namespace Sys2Proof.Machine

/-! ### Loads -/

/-- The buffer of the core holds a store to the link of a host window (R196). -/
def linkStores (s : State) (c pa : Nat) : Bool :=
  (getCore s c).sbuf.any fun e => spaceOf e.pa == 8 && linkOf e.pa == linkOf pa

/-- A load's value arrives: acquire, W[d], retire (R201). -/
def loadDone (s : State) (c : Nat) (r : Running) (d : Reg) (n v : Nat) (signed acq : Bool) : State :=
  finish (if acq then acquireDone s c .panel else s) c r d (extendN signed n v)

/-- A load of an accumulator tile that is busy, or behind an access issued before it (R141, R149). -/
def accLoadHeld (s : State) (pa : Nat) : Bool :=
  let t := spaceOff pa / 0x200000
  let j := spaceOff pa % 0x200000 / 16384
  spaceOf pa == 1 && (accBusySys s t j || accDue s t j (s.order + 1) || storeDue s t j (s.order + 1))

/-- A load of TLM or of an accumulator file (R149, R177, R179, R201). -/
def loadMem (s : State) (c : Nat) (r : Running) (d : Reg) (pa n : Nat) (signed acq nc : Bool) : State :=
  let buf := (getCore s c).sbuf
  let beyond := acq && !inSegment c pa
  if (beyond || r.held) && ownStoresOver s c pa n then holdHere s
  else if covered buf pa n && !beyond then
    loadDone s c r d n (ofBytes ((List.range n).map fun i => (youngest buf (pa + i)).getD 0)) signed acq
  else if !uncovered buf pa n then holdHere s
  else if accLoadHeld s pa then
    let s := tick s
    waitHere s c r 4 0xAB (.accLd (spaceOff pa / 0x200000) (spaceOff pa % 0x200000 / 16384) d pa acq s.order)
  else
    match loadHome s c pa n acq nc with
    | (s, .bytes b) => loadDone s c r d n (ofBytes b) signed acq
    | (s, .ecc) => takeEccu s r.wptr none

/-- A load of device space at its home (R434), once the core's earlier device stores are performed. -/
def loadDevice (s : State) (c : Nat) (r : Running) (d : Reg) (pa n : Nat) (signed acq : Bool) : State :=
  if (getCore s c).sbuf.any fun e => spaceOf e.pa == 15 then holdHere s
  else
    let (v, s) := devRead s (.core c) pa n
    loadDone (match homeTile pa with | some t => noteMsg s c t | none => s) c r d n v signed acq

/-- A load from a host window awaits its completion (R196, R199). -/
def loadHost (s : State) (c : Nat) (ea : Word) (pa : Nat) (d : Reg) (n : Nat) (signed acq : Bool) : State :=
  if linkStores s c pa then holdHere s
  else
    let s := modCore (noteAt s c pa) c fun k => { k with stall := some (.pcieLoad ea pa d n signed acq) }
    { s with hosts := { s.hosts with pending := s.hosts.pending ++ [(c, pa)] } }

/-- LD and LDU (R201). -/
def loadInstr (signed acq : Bool) (d a : Reg) (sz : Size) (off : BitVec 14) (s : State) : Host.Outcome State Fault Refusal :=
  onCore s fun c r =>
    let n := sizeBytes sz
    let ea := src s c r a + off14 off sz
    access s c r ea n .read .ldst false fun s pa nc =>
      if spaceOf pa == 8 then loadHost s c ea pa d n signed acq
      else if spaceOf pa == 15 then loadDevice s c r d pa n signed acq
      else loadMem s c r d pa n signed acq nc

/-- LD (R201). -/
def execLd (d a : Reg) (sz : Size) (off : BitVec 14) (s : State) : Host.Outcome State Fault Refusal :=
  loadInstr true false d a sz off s

/-- LD.ACQ (R180, R201). -/
def execLdAcq (d a : Reg) (sz : Size) (off : BitVec 14) (s : State) : Host.Outcome State Fault Refusal :=
  loadInstr true true d a sz off s

/-- LDU (R201). -/
def execLdu (d a : Reg) (sz : Size) (off : BitVec 14) (s : State) : Host.Outcome State Fault Refusal :=
  loadInstr false false d a sz off s

/-- LDU.ACQ (R180, R201). -/
def execLduAcq (d a : Reg) (sz : Size) (off : BitVec 14) (s : State) : Host.Outcome State Fault Refusal :=
  loadInstr false true d a sz off s

/-! ### Stores -/

/-- BufferPush of R202: a full buffer stalls issue, so that the store has not issued (R193). -/
def pushStore (s : State) (c : Nat) (r : Running) (ea : Word) (pa n : Nat) (v : Word) (kind : StKind) : State :=
  if bufferFull s c then modCore (stallIssue s) c fun k => { k with bufStall := true }
  else retire (bufferPush s c ⟨pa, ea.toNat % 2 ^ 48, n, word (v.toNat % 2 ^ (8 * n)), kind, r.wptr, accessTenant s c r, r.sm, false⟩) c r

/-- ST (R202). -/
def storeInstr (rel : Bool) (d a : Reg) (sz : Size) (off : BitVec 14) (s : State) : Host.Outcome State Fault Refusal :=
  onCore s fun c r =>
    let n := sizeBytes sz
    let ea := src s c r a + off14 off sz
    access s c r ea n .write .store true fun s pa _ =>
      if rel then releaseWait s c r .panel fun s => pushStore s c r ea pa n (src s c r d) .rel
      else pushStore s c r ea pa n (src s c r d) .st

/-- ST (R202). -/
def execSt (d a : Reg) (sz : Size) (off : BitVec 14) (s : State) : Host.Outcome State Fault Refusal :=
  storeInstr false d a sz off s

/-- ST.REL (R181, R202). -/
def execStRel (d a : Reg) (sz : Size) (off : BitVec 14) (s : State) : Host.Outcome State Fault Refusal :=
  storeInstr true d a sz off s

/-! ### Full/empty words and WAITA -/

/-- Take a watch entry at the home of a word and wait (R204); the process waits in WADDR with ARG 0x57 while none is
free. `ea` is the address as the instruction named it. -/
def watchAndWait (s : State) (c : Nat) (r : Running) (ea : Word) (pa len st arg : Nat) (i : WaitInfo) : State :=
  match homeTile pa with
  | none => s
  | some t =>
    if 64 ≤ (getTile s t).watches.length then waitHere s c r 6 0x57 (.watchFull t)
    else
      let s := modTile s t fun k => { k with watches := k.watches ++ [⟨r.wptr, pa, len⟩] }
      modProc (waitHere s c r st arg i) r.wptr fun p => { p with keptArg := ea.toNat }

/-- LDF (R205). -/
def execLdf (d a : Reg) (s : State) : Host.Outcome State Fault Refusal :=
  onCore s fun c r =>
    access s c r (src s c r a) 8 .read .fe false fun s pa _ =>
      readBlock s c r pa 8 fun s =>
        if isFull s pa then finish (acquireDone s c .panel) c r d (dwAt s pa)
        else watchAndWait s c r (src s c r a) pa 8 5 0 (.ldf d)

/-- STF (R206): a release store that sets the full bit. -/
def execStf (a b : Reg) (s : State) : Host.Outcome State Fault Refusal :=
  onCore s fun c r =>
    let ea := src s c r a
    access s c r ea 8 .write .fe true fun s pa _ =>
      releaseWait s c r .panel fun s => pushStore s c r ea pa 8 (src s c r b) .stf

/-- SETE (R207): a plain store that clears the full bit and writes no byte. -/
def execSete (a : Reg) (s : State) : Host.Outcome State Fault Refusal :=
  onCore s fun c r =>
    let ea := src s c r a
    access s c r ea 8 .write .fe true fun s pa _ => pushStore s c r ea pa 8 0 .sete

/-- WAITA on time alone (R208, a = 0). -/
def waitTime (s : State) (c : Nat) (r : Running) (d b x : Reg) : State :=
  let v := src s c r b
  if x = 0 then trapHere s r .illop ((encR 0x17 d 0 b 3 x).setWidth 64)
  else if s.time.ult (src s c r x) then waitHere s c r 9 0 (.time d v (src s c r x))
  else finish s c r d v

/-- WAITA (R208). -/
def execWaita (d a b x : Reg) (s : State) : Host.Outcome State Fault Refusal :=
  onCore s fun c r =>
    if a = 0 then waitTime s c r d b x
    else
      access s c r (src s c r a) 8 .read .fe false fun s pa _ =>
        readBlock s c r pa 8 fun s =>
          let v := dwAt s pa
          let dl := if x = 0 then none else some (src s c r x)
          let open_ := match dl with
            | none => true
            | some t => s.time.ult t
          if v == src s c r b && open_ then watchAndWait s c r (src s c r a) pa 8 6 0 (.waita d v dl)
          else finish (if s.rels.contains pa then acquireDone s c .panel else s) c r d v

/-! ### HBM (R215) -/

/-- HLD: the core must be a memory core (R39 step 5). -/
def execHld (d a : Reg) (sz : Size) (s : State) : Host.Outcome State Fault Refusal :=
  onCore s fun c r =>
    let n := sizeBytes sz
    if isMemCore c then
      access s c r (src s c r a) n .read .hmem false fun s pa _ =>
        let buf := (getCore s c).sbuf
        if r.held && ownStoresOver s c pa n then holdHere s
        else if covered buf pa n then
          finish s c r d (extendN true n (ofBytes ((List.range n).map fun i => (youngest buf (pa + i)).getD 0)))
        else if !uncovered buf pa n then holdHere s
        else if uncorrectable s pa n then takeEccu s r.wptr none
        else
          let s := match homeTile pa with | some t => noteMsg s c t | none => s
          let own := outstanding s c
          let (s, b) := plainBytes s c pa n
          finish s c r d (extendN true n (ofBytes (overlay own pa b)))
    else trapHere s r .far ((encR 0x1A d a 0 0 ((0 : BitVec 2) ++ sz.code)).setWidth 64)

/-- HST: a plain store to HBM. -/
def execHst (a b : Reg) (sz : Size) (s : State) : Host.Outcome State Fault Refusal :=
  onCore s fun c r =>
    let n := sizeBytes sz
    if isMemCore c then
      let ea := src s c r a
      access s c r ea n .write .hmem false fun s pa _ => pushStore s c r ea pa n (src s c r b) .st
    else trapHere s r .far ((encR 0x1A 0 a b 1 ((0 : BitVec 2) ++ sz.code)).setWidth 64)

end Sys2Proof.Machine
end

