-- ==== Sys2Proof/Machine/Atomic.lean ====
section
/-! DEFINITION. Atomic operations (R210 to R213) and fences (R182, R183, R214). -/

namespace Sys2Proof.Machine

/-- Write registers with an AMO's old value, acquire and retire (R210). -/
def amoDone (s : State) (c : Nat) (r : Running) (d : Reg) (n old : Nat) (acq : Bool) : State :=
  finish (if acq then acquireDone s c .panel else s) c r d (extendN true n old)

/-- The AMO's step at its home (R210, R211, R213). -/
def amoAtHome (fn : AmoFn) (f : AmoForm) (x : Reg) (s : State) (c : Nat) (r : Running) (pa n : Nat) : State :=
  let w := 8 * n
  let s := correctAt s c pa n
  let old := rdN s pa n
  let b := (src s c r f.b).toNat % 2 ^ w
  let e := (src s c r x).toNat % 2 ^ w
  let (new, wrote) := amoValue fn w old b e
  let s := if wrote then performWrite s pa n new none (ordRel f.ord) r.rcb else s
  let s := if f.trig && wrote && new == 0 then fireTriggers s pa else s
  let s := dropOwnCopies s c pa
  let s := match homeTile pa with | some t => noteMsg s c t | none => s
  amoDone s c r f.d n old (ordAcq f.ord)

/-- AMO (R210): release wait, store buffer drained and its stores to the segment performed, then one step at the home; to a
host window it awaits the completion (R212). -/
def amoInstr (fn : AmoFn) (code : Nat) (f : AmoForm) (x : Reg) (s : State) : Host.Outcome State Fault Refusal :=
  onCore s fun c r =>
    let n := sizeBytes f.size
    access s c r (src s c r f.a) n .write (.amo (amoToHost fn f.trig)) false fun s pa _ =>
      let go (s : State) : State :=
        if !(getCore s c).sbuf.isEmpty || !segStoresDone s c || ownStoresOver s c pa n then holdHere s
        else if spaceOf pa == 8 then
          let s := modCore (noteAt s c pa) c fun k => { k with
            stall := some (.pcieAmo (src s c r f.a) pa f.d n code (src s c r f.b) (src s c r x) (ordAcq f.ord)) }
          { s with hosts := { s.hosts with pending := s.hosts.pending ++ [(c, pa)] } }
        else atPort s c r pa n fun s =>
          if uncorrectable s pa n then takeEccu s r.wptr none else amoAtHome fn f x s c r pa n
      if ordRel f.ord then releaseWait s c r .panel go else go s

/-- AMO.SWAP (R210). -/
def execAmoSwap (f : AmoForm) (s : State) : Host.Outcome State Fault Refusal := amoInstr .swap 0 f 0 s
/-- AMO.ADD (R210). -/
def execAmoAdd (f : AmoForm) (s : State) : Host.Outcome State Fault Refusal := amoInstr .add 1 f 0 s
/-- AMO.AND (R210). -/
def execAmoAnd (f : AmoForm) (s : State) : Host.Outcome State Fault Refusal := amoInstr .and 2 f 0 s
/-- AMO.OR (R210). -/
def execAmoOr (f : AmoForm) (s : State) : Host.Outcome State Fault Refusal := amoInstr .or 3 f 0 s
/-- AMO.XOR (R210). -/
def execAmoXor (f : AmoForm) (s : State) : Host.Outcome State Fault Refusal := amoInstr .xor 4 f 0 s
/-- AMO.MIN (R210). -/
def execAmoMin (f : AmoForm) (s : State) : Host.Outcome State Fault Refusal := amoInstr .min 5 f 0 s
/-- AMO.MAX (R210). -/
def execAmoMax (f : AmoForm) (s : State) : Host.Outcome State Fault Refusal := amoInstr .max 6 f 0 s
/-- AMO.MINU (R210). -/
def execAmoMinu (f : AmoForm) (s : State) : Host.Outcome State Fault Refusal := amoInstr .minu 7 f 0 s
/-- AMO.MAXU (R210). -/
def execAmoMaxu (f : AmoForm) (s : State) : Host.Outcome State Fault Refusal := amoInstr .maxu 8 f 0 s
/-- AMO.CAS (R210): the expected value is in W[x]. -/
def execAmoCas (f : AmoForm) (x : Reg) (s : State) : Host.Outcome State Fault Refusal := amoInstr .cas 9 f x s

/-- Zero-length reads of a system-scope release, on every link that carries an earlier store of the core (R197): a link carries one
until its read completes. -/
def linkFlush (s : State) (c : Nat) (k : State → State) : State :=
  let u := (getCore s c).linksUsed
  if u = 0 then k s else modCore s c fun q => { q with stall := some (.pcieRelease u) }

/-- The wait of a release fence (R181, R182, R197). -/
def fenceWait (s : State) (c : Nat) (r : Running) (sc : Scope) (k : State → State) : State :=
  releaseWait s c r sc fun s => if sc == .sys then linkFlush s c k else k s

/-- FENCE.ACQ (R182): every earlier load has been performed already; then the cache actions of R180. -/
def execFenceAcq (scope : Scope) (s : State) : Host.Outcome State Fault Refusal :=
  onCore s fun c r => retire (acquireDone s c scope) c r

/-- FENCE.REL (R182). -/
def execFenceRel (scope : Scope) (s : State) : Host.Outcome State Fault Refusal :=
  onCore s fun c r => fenceWait s c r scope fun s => retire s c r

/-- FENCE.FULL (R182): a release, then an acquire. -/
def execFenceFull (scope : Scope) (s : State) : Host.Outcome State Fault Refusal :=
  onCore s fun c r => fenceWait s c r scope fun s => retire (acquireDone s c scope) c r

end Sys2Proof.Machine
end

