-- ==== Sys2Proof/Machine/Rendezvous.lean ====
section
/-! DEFINITION. Channel steps, transfers and claims (R241 to R253, R256, R344, R348). A process in a channel step stays on its core
until the step appends it to a queue; then it waits in WCHAN or WSEL (log entry 11). -/

namespace Sys2Proof.Machine

/-- A trap of a process that still exists; one whose region has been aborted ends (R135). -/
def trapIf (s : State) (w : Nat) (cause : Cause) (sub : Nat) (tval aux : Word) : State :=
  match getProc s w with
  | some p => if p.dying then killProc s w false else takeTrap s w cause sub tval aux false
  | none => s

/-! ### The party's process -/

/-- What a process that is a party of a step or of a transfer is doing: on its core, or in its wait. -/
def stepOf (s : State) (w : Nat) : WaitInfo :=
  match getProc s w with
  | none => .none
  | some p =>
    let k := getCore s p.core
    match k.run with
    | some r =>
      if r.wptr != w then p.wait
      else match k.stall with
        | some (.chan d fn word_ _ _) => .chan d fn word_
        | some (.sel d first tb) => .sel d first tb
        | _ => .none
    | none => p.wait

/-- BUFP and LEN of R245. -/
def chanBufp (wptr fn : Nat) (d : Reg) (v : Word) : Word :=
  if fn == 3 then (if d = 0 then 0 else word (wptr + 8 * d.toNat)) else v

def chanLen (fn n : Nat) : Word := word (b2n (fn == 0 || fn == 2) * 2 ^ 63 + b2n (fn == 3) * 2 ^ 62 + b2n (fn == 2) * 2 ^ 61 + n)

/-- A process in a channel step or a select leaves its core and waits in WCHAN or WSEL, with the control words of R245 and R248. -/
def parkChan (s : State) (w : Nat) : State :=
  let c := procCore s w
  let k := getCore s c
  match k.run with
  | none => s
  | some r =>
    if r.wptr != w then s
    else match k.stall with
      | some (.chan d fn word_ v n) =>
        let s := waitHere s c r 2 fn (.chan d fn word_)
        putHw (putHw (putHw s (w - 32) 0) (w - 24) (chanBufp w fn d v)) (w - 16) (chanLen fn n)
      | some (.sel d first tb) =>
        let s := waitHere s c r 3 0 (.sel d first tb)
        putHw (putHw s (w - 24) (word tb)) (w - 16) 0
      | _ => s

/-- The instruction of a party completes: it retires on its core, or ends its wait (R246); a process whose region has been aborted
ends (R135). -/
def completeAt (s : State) (w : Nat) (d : Reg) (v : Word) (acq : Bool) : State :=
  match getProc s w with
  | none => s
  | some p =>
    let waiting : State := if acq then finishAcq s w d v else finishWait s w d v
    if p.dying then killProc s w false
    else match (getCore s p.core).run with
      | some r =>
        if r.wptr == w then
          finish (modCore (if acq then acquireDone s p.core .panel else s) p.core fun k => { k with stall := none }) p.core r d v
        else waiting
      | none => waiting

/-- A hardware word of a table, logged as every write of an interval is (R429). -/
def putTable (s : State) (a : Nat) (v : Word) : State := performWrite s a 8 v.toNat none false 0

/-! ### Selects -/

def claimOf (s : State) (table : Nat) : Nat := bits (hw s (table + 16)) 7 0
def setClaim (s : State) (table v : Nat) : State := putTable s (table + 16) (word v)

/-- Unlink every armed entry and end the visiting: the select is taken (R249). -/
def disarmEntries (s : State) (table : Nat) : State :=
  match amGet s.selects table with
  | some e =>
    let s := e.armed.foldl (fun s a => unlink s a.word (a.pa + 1)) s
    { s with
      selects := amSet s.selects table { e with armed := [], todo := [] }
      msgs := s.msgs.filter fun m => match m with | .chan _ (.alt t _) _ _ => t != table | _ => true }
  | none => s

/-- A select completes with a value in W[d] (R249). -/
def finishSel (s : State) (table : Nat) (v : Word) (acq : Bool) : State :=
  match amGet s.selects table with
  | some e =>
    completeAt (disarm (unstall s e.wptr) table) e.wptr e.d v acq
  | none => s

/-- A select completes with the alternative its CLAIM names and `n` bytes: SEL.F writes START (R249). -/
def finishTaken (s : State) (table n : Nat) (acq : Bool) : State :=
  match amGet s.selects table with
  | some e =>
    let k := claimOf s table
    let s := if e.first then putTable s table (setBits (hw s table) 18 16 (k % e.n)) else s
    finishSel s table (word (n * 2 ^ 32 + (k - 1))) acq
  | none => s

/-- The select goes on to its next alternative, ends as a poll that found nothing, or waits (R249). -/
def selNext (s : State) (table : Nat) : State :=
  match amGet s.selects table with
  | some e =>
    if claimOf s table != 0 then s
    else
      match e.todo with
      | a :: _ => pushMsg s (.chan a.word (.alt table a.idx) false false)
      | [] => if e.poll then finishSel (setClaim s table 0xF0) table 0xF0 false else parkChan s e.wptr
  | none => s

/-- A step of a select's own is on its way. -/
def stepOut (s : State) (table : Nat) : Bool :=
  s.msgs.any fun m => match m with
    | .chan _ (.alt t _) _ _ => t == table
    | .claim _ _ mine _ => mine == table
    | _ => false

/-- A select that a claim since given back had stopped goes on visiting (R252). -/
def selResume (s : State) (table : Nat) : State := if stepOut s table then s else selNext s table

/-- The alternative that has been visited leaves the list of those to visit. -/
def selVisited (s : State) (table idx : Nat) : State :=
  match amGet s.selects table with
  | some e => { s with selects := amSet s.selects table { e with todo := e.todo.filter (·.idx != idx) } }
  | none => s

def altOf (s : State) (table idx : Nat) : Option (Select × SelAlt) :=
  match amGet s.selects table with
  | some e => ((e.todo ++ e.armed).find? (·.idx == idx)).map fun a => (e, a)
  | none => none

/-! ### Parties -/

/-- The end of a plain waiter, from its control words (R245). -/
def plainEnd (s : State) (l : Nat) : ChanEnd :=
  let w := l + 32
  let b := hw s (w - 24)
  let n := hw s (w - 16)
  if bit n 61 then .value w b
  else if bit n 62 then .head w (BitVec.ofNat 4 ((b.toNat - w) / 8))
  else .buf w b.toNat (bits n 20 0)

def slotWords (s : State) (t k : Nat) : List Word :=
  match ((getTile s t).trapQ[k]?).getD none with
  | some x => x.words
  | none => []

/-- The end that a link stands for. -/
def linkEnd (s : State) (l : Nat) : ChanEnd :=
  match slotLinkOf l with
  | some (t, k) => .slot t k
  | none =>
    if l % 2 == 1 then
      match selEntryOf s l with
      | some (tb, a) => .buf (match amGet s.selects tb with | some e => e.wptr | none => 0) a.buf a.len
      | none => .buf 0 0 0
    else plainEnd s l

/-- End, direction and link of an arriving party. -/
def partyEnd (s : State) : Party → ChanEnd
  | .plain e _ => e
  | .alt tb i =>
    match altOf s tb i with
    | some (e, a) => .buf e.wptr a.buf a.len
    | none => .buf 0 0 0

def partyWrites (s : State) : Party → Bool
  | .plain _ wr => wr
  | .alt tb i => match altOf s tb i with | some (_, a) => a.output | none => false

def partyLink (s : State) : Party → Nat
  | .plain (.slot t k) _ => slotLink t k
  | .plain e _ => endWptr e - 32
  | .alt tb i => match altOf s tb i with | some (_, a) => a.pa + 1 | none => 0

/-- Offered length (R245). -/
def endLen (s : State) : ChanEnd → Nat
  | .buf _ _ n => n
  | .value _ _ => 8
  | .head _ _ => 8
  | .slot t k => 8 * (slotWords s t k).length
  | .unit _ ws => 8 * ws.length

def endTile : ChanEnd → Nat
  | .slot t _ => t
  | .unit _ _ => allTiles
  | e => endWptr e / tlmWindow

def endSuspended (s : State) (e : ChanEnd) : Bool :=
  match e with
  | .slot _ _ => false
  | .unit _ _ => false
  | e => pstate s (endWptr e) == 11

/-- A link is valid (R242, R344): a process in WCHAN, suspended ones too (R256), an armed entry of a marked table, or an
offered slot. -/
def linkValid (s : State) (word_ l : Nat) : Bool :=
  match slotLinkOf l with
  | some (t, k) => (match ((getTile s t).trapQ[k]?).getD none with | some x => x.offered | none => false)
  | none =>
    if l % 2 == 1 then (match selEntryOf s l with | some (_, a) => a.word == word_ | none => false)
    else
      (getProc s (l + 32)).isSome &&
        (pstate s (l + 32) == 2 || (pstate s (l + 32) == 11 && parg s (l + 32) == 2))

/-- The walk from HEAD meets valid links of one direction only (R242, R243). -/
def chainValid (s : State) (word_ : Nat) : Bool :=
  let v := hw s word_
  let q := chainOf s word_
  let dir := match q with
    | l :: _ => linkIsWriter s l
    | [] => false
  q.all (fun l => linkValid s word_ l && linkIsWriter s l == dir)
    && (chanSt v == 0 || chanSt v == 3 || dir == (chanSt v == 1)) && decide (q.length < chainFuel s)

/-- The first waiter's link word, which every step that finds one reaches, is valid and of the word's direction (R242). -/
def firstValid (s : State) (word_ l : Nat) : Bool :=
  let v := hw s word_
  linkValid s word_ l && (chanSt v == 3 || linkIsWriter s l == (chanSt v == 1))

/-- The link of a waiter of the word lies in the hole of a site that is not in, or the process of its select was lost with its site (R256). -/
def linkLost (s : State) (word_ l : Nat) : Bool :=
  siteGone s (word_ / tlmWindow) (l / tlmWindow) || (l % 2 == 1 && match selEntryOf s l with
    | some (tb, _) => (match amGet s.selects tb with | some e => (getProc s e.wptr).isNone | none => false)
    | none => false)

/-- BoundEndOk of R245 (R253). -/
def boundOk (s : State) (word_ : Nat) (p : Party) : Bool :=
  match partyEnd s p with
  | .slot _ _ => true
  | .unit _ _ => true
  | e =>
    match (getTile s (word_ / tlmWindow)).bindings.find? (·.word == word_) with
    | some b =>
      let id := if partyWrites s p then b.writer else b.reader
      id == 0 || id == endWptr e
    | none => true

/-! ### Failures -/

/-- The slot's record is discarded and its region aborted, DETAIL 4 (R345). -/
def failSlot (s : State) (t k : Nat) : State :=
  match ((getTile s t).trapQ[k]?).getD none with
  | some x => abortRegion (clearSlot s t k) x.rcb 4
  | none => s

/-- The slot is offered again (R345). -/
def reoffer (s : State) (t k : Nat) : State :=
  modTile s t fun q => { q with trapQ := q.trapQ.setIfInBounds k ((((q.trapQ[k]?).getD none)).map fun x => { x with offered := false }) }

/-- A unit keeps what it could not output. -/
def keepUnit (s : State) (src : Nat) (ws : List Word) : State :=
  if src < 24 then modWatchroom s src fun w => { w with out := ws :: w.out } else { s with records := (src - 24, ws) :: s.records }

/-- A party's instruction fails (R245, R247, R255, R256): a waiter traps, a select after its claim and disarm; a slot is
discarded, or offered again. -/
def failEnd (s : State) (e : ChanEnd) (cause : Cause) (sub : Nat) (tval : Word) : State :=
  match e with
  | .slot t k => if cause == .chan && sub != 1 then reoffer s t k else failSlot s t k
  | .unit src ws => keepUnit s src ws
  | e => trapIf s (endWptr e) cause sub tval 0

/-- CHAN at a channel step: TVAL is not stated (log entry 22). -/
def failChan (s : State) (e : ChanEnd) (sub : Nat) : State :=
  let (v, s) := openTval s
  failEnd s e .chan sub v

/-- A link of a select whose claim is undecided: a claim of it retries, and unlinks nothing (R252). -/
def linkBusy (s : State) (l : Nat) : Bool :=
  l % 2 == 1 && match selEntryOf s l with | some (tb, _) => claimOf s tb == 0xFF | none => false

/-- Set LOST and unlink every waiter of a word with PEERLOST (R256); a select in the middle of a claim stays linked until that is decided
(R252, `serveLost`). -/
def loseWord (s : State) (word_ : Nat) : State :=
  let q := (chainOf s word_).filter fun l => !linkBusy s l
  let stay := (chainOf s word_).filter (linkBusy s)
  let ends := (q.filter fun l => linkValid s word_ l && !linkLost s word_ l).map fun l => (l, linkEnd s l)
  let s := ends.foldl (fun s p => putHw (undoLog s (linkAddr p.1) 8) (linkAddr p.1) 0) s
  let s := if stay.isEmpty then s else setChain s word_ stay
  let v := hw s word_
  let v := if stay.isEmpty then setBits (setBits v 63 62 0) 51 0 0 else v
  let s := performWrite s word_ 8 (setBits v 61 61 1).toNat none false 0
  ends.foldl (fun s p =>
    match selEntryOf s p.1 with
    | some (tb, _) => if claimOf s tb == 0 then failEnd (setClaim s tb 0xF2) p.2 .peerlost 0 (word word_) else s
    | none => if p.1 % 2 == 1 then s else failEnd s p.2 .peerlost 0 (word word_)) s

/-- A select whose claim has been given back meets the loss of a word that it is still linked on (R252, R256). -/
def serveLost (s : State) : State :=
  s.selects.foldl (fun s e =>
    match e.2.armed.find? fun a => chanLost (hw s a.word) && (chainOf s a.word).contains (a.pa + 1) with
    | some a =>
      if claimOf s e.1 == 0 && (getProc s e.2.wptr).isSome then
        failEnd (unlink (setClaim s e.1 0xF2) a.word (a.pa + 1)) (.buf e.2.wptr a.buf a.len) .peerlost 0 (word a.word)
      else s
    | none => s) s

/-! ### Transfers (R246, R247) -/

/-- Space and mode in which a process's buffer is translated (R246). -/
def endSpace (s : State) (e : ChanEnd) : Option Nat × Bool :=
  match e with
  | .slot _ _ => (none, true)
  | .unit _ _ => (none, true)
  | e =>
    let w := endWptr e
    let c := procCore s w
    let sm := match (getCore s c).run with
      | some r => if r.wptr == w then r.sm else resumeSm s w
      | none => resumeSm s w
    let r : Running := ⟨w, sm, false, false, 0, procRegion s w, 0, false, []⟩
    (addrSpace s (procCore s w) r, sm)

/-- The processes of a transfer that cannot move now wait for it (R256, R348). -/
def parkEnds (s : State) (t : Transfer) : State := parkChan (parkChan s (endWptr t.writer)) (endWptr t.reader)

/-- The suspended party whose tile's spill ring takes the step, if any: the writer first. -/
def spillEnd (s : State) (wr rd : ChanEnd) : Option ChanEnd := [wr, rd].find? (endSuspended s)

/-- The transfer of a completed channel step: at once, or to the spill ring of a suspended party's tile (R256, R348). -/
def beginTransfer (s : State) (t : Transfer) : State :=
  match spillEnd s t.writer t.reader with
  | some e =>
    let s := parkEnds s t
    modTile s (endTile e) fun k => { k with spill := k.spill ++ [{ t with spilled := some (procRegion s (endWptr e)), replay := none, parked := none, moving := false }] }
  | none => { s with transfers := s.transfers ++ [{ t with spilled := none }] }

/-- The spill ring that a step would need is full: 1,024 records (R348). -/
def spillFull (s : State) (wr rd : ChanEnd) : Bool :=
  match spillEnd s wr rd with
  | some e => decide (1024 ≤ (getTile s (endTile e)).spill.length)
  | none => false

/-- The transfer between two parties, moved by the second one's tile on behalf of its core, at the model's order (R246). -/
def newTransfer (s : State) (word_ : Nat) (wr rd : ChanEnd) (tile core : Nat) : Transfer :=
  let n := min (endLen s wr) (endLen s rd)
  let (ws, wm) := endSpace s wr
  let (rs, rm) := endSpace s rd
  let slot := match wr with | .slot _ _ => true | .unit _ _ => true | _ => false
  ⟨word_, wr, rd, ws, rs, wm, rm, n, 0, (match wr with | .slot t _ => t | _ => tile), decide (64 < n) && !slot, none, none, none,
    core, s.order, 0, false⟩

/-- Outcome of a transfer's next granules. -/
inductive Moved where
  | done (v : Nat)
  | held
  | fails (writer : Bool) (c : Cause) (va : Nat)
  | page (writer : Bool) (tenant va kind : Nat) (malformed : Bool)
deriving DecidableEq, Repr

/-- Pieces of an interval that lie in one 64 KiB page each. -/
def pieces (va n : Nat) : List (Nat × Nat) :=
  let m := min n (2 ^ 16 - va % 2 ^ 16)
  if m == n then [(va, n)] else [(va, m), (va + m, n - m)]

/-- Physical pieces of an interval of one side. -/
def placePieces (s : State) (tile : Nat) (space : Option Nat) (sm writer : Bool) : List (Nat × Nat) → State × (Moved ⊕ List (Nat × Nat))
  | [] => (s, .inr [])
  | (va, n) :: t =>
    let kind : Kind := if writer then .read else .write
    match tileMemCheck s tile space sm (word va) 1 kind .block with
    | (s, .ok pa _) =>
      if writer && uncorrectable s pa n then (s, .inl (.fails writer .eccu va))
      else
        match placePieces s tile space sm writer t with
        | (s, .inr l) => (s, .inr ((pa, n) :: l))
        | x => x
    | (s, .trap c) => (s, .inl (.fails writer c va))
    | (s, .lost) => (s, .inl (.fails writer .sitelost va))
    | (s, .fault tn m) => (s, .inl (.page writer tn va (if writer then 4 else 5) m))
    | (s, .ecc) => (s, .inl (.fails writer .eccu va))

/-- Bytes of the writer's end from offset `o`. -/
def sourceBytes (s : State) (t : Transfer) (o m : Nat) : State × (Moved ⊕ List Byte) :=
  match t.writer with
  | .value _ v => (s, .inr ((bytesOf 8 v.toNat).drop o |>.take m))
  | .slot tl k => (s, .inr ((((slotWords s tl k).flatMap fun w => bytesOf 8 w.toNat).drop o).take m))
  | .unit _ ws => (s, .inr (((ws.flatMap fun w => bytesOf 8 w.toNat).drop o).take m))
  | .head _ _ => (s, .inr [])
  | .buf _ va _ =>
    match placePieces s t.tile t.wSpace t.wSm true (pieces (va + o) m) with
    | (s, .inl x) => (s, .inl x)
    | (s, .inr l) => (l.foldl (fun s p => countCorrected s p.1 p.2) s, .inr (l.flatMap fun p => bytesAt s p.1 p.2))

/-- Write bytes over physical pieces. -/
def putPieces (s : State) (r : Nat) : List (Nat × Nat) → List Byte → State
  | [], _ => s
  | (pa, n) :: t, b => putPieces (performWrite s pa n (ofBytes (b.take n)) none false r) r t (b.drop n)

/-- Move a transfer granule by granule (R247). -/
def moveGranules (s : State) : Nat → Transfer → State × Transfer × Moved
  | 0, t => (s, t, .done 0)
  | f + 1, t =>
    if t.n ≤ t.done then (s, t, .done 0)
    else
      let m := min 64 (t.n - t.done)
      match sourceBytes s t t.done m with
      | (s, .inl x) => (s, t, x)
      | (s, .inr b) =>
        match t.reader with
        | .buf w va _ =>
          match placePieces s t.tile t.rSpace t.rSm false (pieces (va + t.done) m) with
          | (s, .inl x) => (s, t, x)
          | (s, .inr l) =>
            match l.find? fun p => portHolds s p.1 p.2 (.move t.word) t.rSm with
            | some p => (noteHeld s p.1 p.2 (.move t.word) t.rSm, t, .held)
            | none => moveGranules (putPieces (dropHeldAcc s (.move t.word)) (procRegion s w) l b) f { t with done := t.done + m }
        | _ => (s, { t with done := t.n }, .done (ofBytes b))

/-- PSTAT flags (R246): TW bit 1, TR bit 0. -/
def raisePstat (s : State) (w b : Nat) : State :=
  let c := procCore s w
  pcsrWr s c w 0 (pcsrRd s c w 0 ||| word b)

/-- One end of a completed rendezvous: flags, W[d], retirement or READY; a slot frees (R246, R249, R344). -/
def endDone (s : State) (e : ChanEnd) (reader : Bool) (n other v : Nat) : State :=
  match e with
  | .slot t k => modTile s t fun q => { q with
      trapQ := q.trapQ.setIfInBounds k none, trapOrder := setErase q.trapOrder k }
  | .unit _ _ => s
  | e =>
    let w := endWptr e
    let len := endLen s e
    match getProc s w with
    | none => s
    | some p =>
      let s := countAt s p.core 0x0B 1
      let s := if reader && decide (n < other) then raisePstat s w 1 else s
      let s := if !reader && decide (n < len) then raisePstat s w 2 else s
      match stepOf s w with
      | .chan d fn _ => completeAt s w d (word (if fn == 3 then v else n)) reader
      | .sel _ _ tb => finishTaken s tb n reader
      | _ => if p.dying then killProc s w false else s

/-- The record of an uncorrectable error, on its way to the firmware that decides of the rollback (R427, log entry 35). -/
def bringsEccu (s : State) (e : ChanEnd) : Bool :=
  match e with
  | .slot u k => (match ((getTile s u).trapQ[k]?).getD none with | some x => x.dflt.isSome | none => false)
  | _ => false

/-- A rendezvous completes (R246); between two regions it closes their checkpoint intervals (R428). -/
def completeTransfer (s : State) (t : Transfer) (v : Nat) : State :=
  let other := endLen s t.writer
  let a := match t.writer with
    | .slot u k => (match ((getTile s u).trapQ[k]?).getD none with | some x => x.rcb | none => 0)
    | .unit _ _ => procRegion s (endWptr t.reader)
    | e => procRegion s (endWptr e)
  let b := procRegion s (endWptr t.reader)
  let s := if a != b then closeInterval (if bringsEccu s t.writer then s else closeInterval s a) b else s
  endDone (endDone s t.writer false t.n 0 0) t.reader true t.n other v

/-- A transfer fails: the failing party receives the cause, the other CHAN with sub-reason 3 (R247). -/
def failTransfer (s : State) (t : Transfer) (writer : Bool) (c : Cause) (va : Nat) : State :=
  let (bad, good) := if writer then (t.writer, t.reader) else (t.reader, t.writer)
  let s := if c == .eccu then (if (getProc s (endWptr bad)).isSome then takeEccu s (endWptr bad) (some (word va)) else s)
    else failEnd s bad c 0 (word va)
  failEnd s good .chan 3 (word t.word)

/-- The tile is lost, or the loss of its site has been detected (R367). -/
def siteGoing (s : State) (t : Nat) : Bool := siteLost s t || (getSite s (siteOf t)).losing

/-- A site of the transfer is lost: the survivors receive PEERLOST (R247). -/
def loseTransfer (s : State) (t : Transfer) : State :=
  [t.writer, t.reader].foldl (fun s e => if siteGoing s (endTile e) then s else failEnd s e .peerlost 0 (word t.word)) s

def transferLost (s : State) (t : Transfer) : Bool :=
  siteLost s (endTile t.writer) || siteLost s (endTile t.reader) || siteLost s t.tile

/-- A granule is refused because a site of the transfer is being lost: PEERLOST takes the place of the refusal's cause (R247). -/
def transferGoing (s : State) (t : Transfer) (c : Cause) : Bool :=
  (c == .sitelost || c == .hole) && (siteGoing s (endTile t.writer) || siteGoing s (endTile t.reader) || siteGoing s t.tile)

/-! ### The channel step (R245) -/

/-- Outcome of the claims of a step (R252). -/
inductive Claims where
  | ok
  | busy
  | taken (table : Nat)
deriving DecidableEq, Repr

/-- Test the claim words in ascending order of their tables' addresses. -/
def testClaims (s : State) : List (Nat × Nat) → Claims
  | [] => .ok
  | (tb, _) :: t =>
    let v := claimOf s tb
    if v == 0 then testClaims s t else if v == 0xFF then .busy else .taken tb

/-- Pair the arriving party with the first waiter, whose link is `l`. -/
def pair (s : State) (word_ : Nat) (p : Party) (l : Nat) : State :=
  let me := partyEnd s p
  let h := linkEnd s l
  let s := tick (unlinkFirst s word_ l)
  let (wr, rd) := if partyWrites s p then (me, h) else (h, me)
  let core := match me with | .slot t _ => coreNo t 0 | e => procCore s (endWptr e)
  beginTransfer s (newTransfer s word_ wr rd (endTile me) core)

/-- The arriving alternative is one of a poll, which appends nothing and so walks no queue (R249). -/
def partyPolls (s : State) : Party → Bool
  | .plain _ _ => false
  | .alt tb i => match altOf s tb i with | some (e, _) => e.poll | none => false

/-- Append the arriving party (R243, R249): a process waits in WCHAN from here on; a poll appends nothing, and a select goes on to its
next alternative. -/
def appendParty (s : State) (word_ : Nat) (p : Party) : State :=
  match p with
  | .plain e _ => appendWaiter (match e with | .slot _ _ => s | e => parkChan s (endWptr e)) word_ (partyLink s p)
  | .alt tb i =>
    match altOf s tb i with
    | none => s
    | some (e, a) =>
      if e.poll then selNext (selVisited s tb i) tb
      else
        let s := selVisited s tb i
        let s := match amGet s.selects tb with
          | some e => { s with selects := amSet s.selects tb { e with armed := e.armed ++ [{ a with linked := true }] } }
          | none => s
        selNext (appendWaiter s word_ (a.pa + 1)) tb

/-- A step meets a lost channel: PEERLOST. A select claims itself with 0xF2; one whose claim is undecided retries the step, and one that is
taken has no step any more (R252, R256). -/
def meetsLoss (s : State) (word_ : Nat) (p : Party) : State :=
  match p with
  | .alt tb _ =>
    if claimOf s tb == 0 then failEnd (setClaim s tb 0xF2) (partyEnd s p) .peerlost 0 (word word_)
    else if claimOf s tb == 0xFF then pushMsg s (.chan word_ p true false)
    else s
  | .plain e _ => failEnd s e .peerlost 0 (word word_)

/-- ChanStep of R245 at the word's home: at most `fuel` stale entries are unlinked on the way. A claim of two selects shows both claim
words busy until it is `decided` by the second part of the step (R252). -/
def chanStep (s : State) (word_ : Nat) (p : Party) (decided : Bool) : Nat → State
  | 0 => s
  | f + 1 =>
    let v := hw s word_
    let me := partyEnd s p
    if uncorrectable s word_ 8 then (match me with | .slot t k => failSlot s t k | e => takeEccu s (endWptr e) none)
    else if chanMalformed v then failChan s me 1
    else if chanLost v then meetsLoss s word_ p
    else if !boundOk s word_ p then failChan s me 4
    else
      let l := chanHead v
      if l == 0 then appendParty s word_ p
      else if linkLost s word_ l then meetsLoss (loseWord s word_) word_ p
      else if !firstValid s word_ l then failChan s me 1
      else if linkIsWriter s l == partyWrites s p then
        if partyPolls s p then appendParty s word_ p
        else if (chainOf s word_).any (linkLost s word_) then meetsLoss (loseWord s word_) word_ p
        else if !chainValid s word_ then failChan s me 1
        else appendParty s word_ p
      else if (if partyWrites s p then spillFull s me (linkEnd s l) else spillFull s (linkEnd s l) me) then
        pushMsg (match me with | .slot _ _ => s | e => parkChan s (endWptr e)) (.chan word_ p false true)
      else
        let theirs := match selEntryOf s l with | some (tb, a) => if l % 2 == 1 then [(tb, a.idx + 1)] else [] | none => []
        let mine := match p with | .alt tb i => [(tb, i + 1)] | _ => []
        let claims := sortBy (fun a b => decide (a.1 ≤ b.1)) (theirs ++ mine)
        match testClaims s claims with
        | .busy => pushMsg s (.chan word_ p true false)
        | .taken tb =>
          if mine.any (·.1 == tb) then s
          else chanStep (unlinkFirst s word_ l) word_ p decided f
        | .ok =>
          match mine, theirs with
          | [a], [b] =>
            if decided then take s claims l
            else pushMsg (claims.foldl (fun s c => setClaim s c.1 0xFF) s) (.claim word_ p a.1 b.1)
          | _, _ => take s claims l
where
  /-- The claims succeed: the parties meet. -/
  take (s : State) (claims : List (Nat × Nat)) (l : Nat) : State :=
    let s := claims.foldl (fun s c => setClaim s c.1 c.2) s
    let s := pair s word_ p l
    claims.foldl (fun s c => disarmEntries s c.1) s

/-- A step on the word is in the middle of a claim, which may be one that retries (R244, R252). -/
def wordHeld (s : State) (word_ : Nat) : Bool :=
  s.msgs.any fun m => match m with
    | .claim w _ _ _ => w == word_
    | .chan w _ busy _ => w == word_ && busy
    | _ => false

/-- The second part of a step that claims two selects: the claim words leave 0xFF (R252). -/
def claimEnds (s : State) (word_ : Nat) (p : Party) (mine theirs : Nat) : State :=
  let back (s : State) (tb : Nat) : State := if claimOf s tb == 0xFF then putHw s (tb + 16) 0 else s
  chanStep (back (back s mine) theirs) word_ p true (chainFuel s)

/-- A channel step arrives (R244, R245); one that names a word of a site that is not in meets PEERLOST (R256). -/
def stepArrives (s : State) (word_ : Nat) (p : Party) : State :=
  if siteGone s (endTile (partyEnd s p)) (word_ / tlmWindow) then meetsLoss s word_ p
  else chanStep (asChannel s word_) word_ p false (chainFuel s)

/-- A unit's words go to the first waiting reader of a channel word, which must be sound; none while no reader waits there. -/
def unitOutput (s : State) (word_ src : Nat) (ws : List Word) : Option State :=
  let v := hw s word_
  let l := chanHead v
  if word_ == 0 || spaceOf word_ != 0 || uncorrectable s word_ 8 || chanMalformed v || chanLost v || l == 0 || linkLost s word_ l || !firstValid s word_ l
      || wordHeld s word_ || linkIsWriter s l || spillFull s (.unit src ws) (linkEnd s l) then none
  else
    let go (s : State) : State :=
      let h := linkEnd s l
      let s := tick (unlinkFirst s word_ l)
      beginTransfer s (newTransfer s word_ (.unit src ws) h (word_ / tlmWindow) (coreNo (word_ / tlmWindow) 0))
    match selEntryOf s l with
    | some (tb, a) => if claimOf s tb == 0 then some (disarmEntries (go (setClaim s tb (a.idx + 1))) tb) else none
    | none => some (go s)

/-- Every Watchroom outputs its oldest request on its pager's channel, and the PMC, Tenders and arbiters their records on the
default fault handlers' channels, where readers wait (R168, R342; log entry 13). -/
def serveUnits (s : State) : State :=
  let s := s.watchrooms.foldl (fun s e =>
    match (getWatchroom s e.1).out with
    | ws :: rest => (unitOutput (modWatchroom s e.1 fun w => { w with out := rest }) e.2.pager e.1 ws).getD s
    | [] => s) s
  s.records.foldl (fun s x =>
    (unitOutput { s with records := s.records.erase x } (getSeg s x.1).defaultHandler (x.1 + 24) x.2).getD s) s

/-- Remove the message at a position. -/
def dropMsg (s : State) (i : Nat) : State := { s with msgs := s.msgs.eraseIdx i }

/-- Entries of a copy queue in use: jobs, and ENQs that hold an entry (R261). -/
def usedEntries (s : State) (k : Nat) : Nat := ((getQueue s k).entries.filter fun e => e.2.job.isSome || e.2.taken.isSome).length

/-- Large transfers of a tile, each of which takes an entry of its copy queue (R246, R261; log entry 26). -/
def copyTransfers (s : State) (t : Nat) : Nat := (s.transfers.filter fun x => x.viaCopy && x.tile == t).length

/-- The copy queue has no entry for the transfer at position `i`. -/
def copyQueueFull (s : State) (i t : Nat) : Bool :=
  decide (16 ≤ usedEntries s (4 * t) + ((s.transfers.take i).filter fun x => x.viaCopy && x.tile == t).length)

/-- A transfer has given its entry back: ENQs waiting for one re-execute (R262). -/
def copyFreed (s : State) (t : Transfer) : State :=
  if t.viaCopy then retryWhere s fun w => w == .queue (4 * t.tile) else s

/-- The transfer at position `i` goes on: it completes, fails, waits for a page or for a guard (R246, R247, R264). -/
def runTransfer (s : State) (i : Nat) (t : Transfer) : State :=
  let s0 := { s with transfers := s.transfers.eraseIdx i }
  if transferLost s t then loseTransfer s0 t
  else
    match moveGranules s (t.n / 64 + 1) t with
    | (s1, t1, .done v) => completeTransfer { s1 with transfers := s1.transfers.eraseIdx i } t1 v
    | (s1, t1, .held) =>
      let s1 := parkEnds s1 t1
      { s1 with transfers := s1.transfers.set i { t1 with moving := true } }
    | (s1, t1, .fails wr c va) =>
      let s2 := { s1 with transfers := s1.transfers.eraseIdx i }
      if transferGoing s1 t1 c then loseTransfer s2 t1 else failTransfer s2 t1 wr c va
    | (s1, t1, .page wr tn va kind m) =>
      let s1 := tick (parkEnds s1 t1)
      let s1 := { s1 with transfers := s1.transfers.set i { t1 with parked := some wr, parkOrder := s1.order, moving := false } }
      reportPage s1 t1.tile tn va kind m (.transfer t1.word)

end Sys2Proof.Machine
end

