-- ==== Sys2Proof/Machine/Settle.lean ====
section
/-! DEFINITION. What follows an event: waits that have ended end, in their orders (R141, R144, R148, R167, R193, R204, R217, R236, R264,
R344, R358), and so do processes that KILLP names (R135). -/

namespace Sys2Proof.Machine

/-! ### Held accumulator accesses (R141, R144) and ACFG (R148) -/

/-- The head entry of a prefetch queue is popped when its last doubleword is read (R143). -/
def popPrefetch (k : Core) (off : Nat) : Core :=
  match k.prefetch with
  | h :: t => if h == off / 64 * 64 && off % 64 == 56 then { k with prefetch := t } else k
  | [] => k

/-- A segment enters a core's prefetch queue, the head leaving a full one (R143). -/
def pushPrefetch (k : Core) (off : Nat) : Core :=
  { k with prefetch := (if k.prefetch.length < 8 then k.prefetch else k.prefetch.drop 1) ++ [off] }

/-- An access leaves its hold and takes effect (R144, R147). -/
def accServeOne (s : State) (t w : Nat) (p : Proc) (op : AccOp) : State :=
  match op with
  | .apf off => finishWait (modCore s p.core fun k => pushPrefetch k off) w 0 0
  | .ard d off =>
    let pa := accBase t + off
    if uncorrectable s pa 8 then takeEccu s w none
    else
      let s := correctAt s p.core pa 8
      finishWait (modCore s p.core fun k => popPrefetch k off) w d (dwAt s pa)
  | .awr off v => finishWait (performWrite s (accBase t + off) 8 v.toNat none false p.rcb) w 0 0
  | .aclr j => finishWait (zeroRange s (accBase t + 16384 * j) 16384) w 0 0

/-- A load of an accumulator tile through space 0x1 leaves its hold and returns its value (R149). -/
def accLoadOne (s : State) (w : Nat) (p : Proc) (d : Reg) (pa : Nat) (acq : Bool) : State :=
  if uncorrectable s pa 8 then takeEccu s w none
  else
    let own := outstanding s p.core
    let s := correctAt s p.core pa 8
    let v := word (ofBytes (overlay own pa (bytesAt s pa 8)))
    if acq then finishAcq s w d v else finishWait s w d v

/-- Held accesses whose tile is no longer busy or held, in the order of their issue, the stores through space 0x1 among them (R141,
R149). -/
def accServe (s : State) : State :=
  let l := s.procs.filterMap fun e => match e.2.wait with
    | .acc _ _ turn => some (turn, e.1)
    | .accLd _ _ _ _ _ turn => some (turn, e.1)
    | _ => none
  (sortBy (fun a b => decide (a.1 ≤ b.1)) l).foldl (fun s x =>
    match getProc s x.2 with
    | some p =>
      if !isWaiting (pstate s x.2) then s
      else match p.wait with
        | .acc t op turn =>
          let (j, wr) := accOpTile op
          if accBusy s t j || (wr && accHeld s t j) || storeDue s t j turn then s else accServeOne s t x.2 p op
        | .accLd t j d pa acq turn => if accBusySys s t j || storeDue s t j turn then s else accLoadOne s x.2 p d pa acq
        | _ => s
    | none => s) s

/-- The ACFGs of a file in their order (R148): the first one whose turn has come makes its PROT check, discards its core's queue and holds
what names the file; it is served once the file is free. -/
def acfgServe (s : State) (t : Nat) : Nat → State
  | 0 => s
  | f + 1 =>
    match acfgWaiters s t with
    | [] => s
    | (_, w, c, begun) :: _ =>
      match getProc s w with
      | some p =>
        match p.wait with
        | .acfg d cfg _ turn _ =>
          if !isWaiting (pstate s w) then s
          else if !begun && ownerRefuses s t p.rcb (resumeSm s w) then
            let (v, s) := openTval s
            acfgServe (takeTrap s w .prot 0 v 0 false) t f
          else
            let s := if begun then s
              else modProc (modCore s c fun k => { k with prefetch := [] }) w fun p => { p with wait := .acfg d cfg t turn true }
            if fileFree s t then
              let old := fileConfig s t
              acfgServe (finishWait (configureFile s t cfg p.rcb) w d old) t f
            else s
        | _ => s
      | none => s

def acfgTiles (s : State) : List Nat :=
  s.procs.filterMap fun e => match e.2.wait with | .acfg _ _ u _ _ => some u | _ => none

/-- An ACFG whose turn has come on the file of tile `t` holds its ENQs and the ACCF instructions of other cores than its own (R148). -/
def acfgHolds (s : State) (t : Nat) (core : Option Nat) : Bool := (acfgWaiters s t).any fun x => x.2.2.2 && core != some x.2.2.1

/-- What no ACFG holds any more re-executes (R148). -/
def accRelease (s : State) : State :=
  s.procs.foldl (fun s e =>
    let free := match e.2.wait with
      | .accCfg t => !acfgHolds s t (if pstate s e.1 == 8 then none else some e.2.core)
      | _ => false
    if free && isWaiting (pstate s e.1) then retryWait s e.1 else s) s

/-! ### Traps at waiting instructions (R193, R342) -/

/-- The running process of a core stands at a boundary: its next instruction has not issued (R193, R194). -/
def atBoundary (k : Core) : Bool := k.stall.isNone && match k.run with | some r => !r.held | none => false

/-- The process stands at a boundary or waits, so that a pending trap can be delivered; a rendezvous whose transfer has begun completes
first (R135, R342). -/
def atDelivery (s : State) (w : Nat) : Bool :=
  !inTransfer s w && ((isRunning s w && atBoundary (getCore s (procCore s w))) || isWaiting (pstate s w))

/-- The journal entry that a POSTREF names has had it delivered (R346). -/
def noteDelivered (s : State) (p : PendTrap) : State :=
  if p.cause == .postref then markDelivered s (coreNo (bits p.tval 29 16) (bits p.tval 9 8)) (bits p.tval 4 0) else s

/-- The first pending cause of a process is delivered (R342); with none, the uncorrectable doubleword of its slot that its next instruction
reads (R427). -/
def deliverPend (s : State) (w : Nat) : State :=
  match getProc s w with
  | some p =>
    match p.pend with
    | x :: rest =>
      if atDelivery s w then
        let s := noteDelivered (modProc s w fun p => { p with pend := rest }) x
        if x.cause == .eccu then takeEccu s w none else takeTrap s w x.cause x.sub x.tval x.aux false
      else s
    | [] =>
      match (getCore s p.core).run with
      | some r => if r.wptr == w && atDelivery s w && atBoundary (getCore s p.core) && spoiledSource s p.core r then takeEccu s w none else s
      | none => s
  | none => s

/-- A cause that is pending for a waiting process is delivered at the instruction it waits in (R193, R342). -/
def deliverWaits (s : State) : State :=
  s.procs.foldl (fun s e => if !e.2.pend.isEmpty && isWaiting (pstate s e.1) then deliverPend s e.1 else s) s

/-! ### Trap-queue slots linked on a handler's channel word (R345) -/

/-- A linked slot whose handler channel word is in a hole, has LOST set or is malformed. -/
def slotStuck (s : State) (t : Nat) (x : TrapSlot) : Bool :=
  let h := slotHandler s t x
  x.offered && (spaceOf h != 0 || holeCheck s t h != .clear || chanLost (hw s h) || chanMalformed (hw s h))

def checkSlots (s : State) : State :=
  s.tiles.foldl (fun s e => (List.range 8).foldl (fun s k =>
    match ((getTile s e.1).trapQ[k]?).getD none with
    | some x =>
      if slotStuck s e.1 x && !slotMoves s e.1 k && !s.msgs.any (offerOf e.1 k) then failSlot s e.1 k else s
    | none => s) s) s

/-! ### Guards of pages mapped after the capture (R188, R264) -/

/-- A page of a guarded range has been mapped since the capture: its bytes are guarded from here on, once its port has a free guard of its 16
(R264; log entry 27). -/
def lateOne (s : State) (key : Nat) (j : Job) : State :=
  j.late.foldl (fun s p =>
    let gone (s : State) : State := modJob s key fun j => { j with late := j.late.erase p }
    match peekPa s (key / 128) j p.1 with
    | some pa =>
      if !inTlm pa || neverPopulated (isDark s) pa then gone s
      else if (getTile s (pa / tlmWindow)).guards.length < 16 then
        gone (modTile s (pa / tlmWindow) fun k => { k with guards := k.guards ++ [⟨pa, pa + p.2, key⟩] })
      else s
    | none => s) s

def lateGuards (s : State) : State := (allJobs s).foldl (fun s p => if p.2.late.isEmpty then s else lateOne s p.1 p.2) s

/-! ### KILLP (R135) -/

/-- Stores of process `w` that are not performed yet and can still be (R184): in the buffer of its core while the journal has an entry
that may free, or in the journal and not refused. -/
def storesLeft (s : State) (w : Nat) : Bool :=
  let k := getCore s (procCore s w)
  let stuck := decide (32 ≤ k.journal.length) && k.journal.all fun e => e.2.rf
  k.sbuf.any (fun e => e.wptr == w && !stuck) || k.journal.any fun e => !e.2.rf && e.2.store.wptr == w

/-- Transfers spilled for a process are performed now, those of one ring in their order (R135, R348). -/
def unspill (s : State) (w : Nat) : State :=
  let mine (t : Transfer) : Bool := endWptr t.writer == w || endWptr t.reader == w
  let ts := s.tiles.flatMap fun p => (p.2.spill.filter mine).map fun t => { t with spilled := none, replay := some p.1 }
  if ts.isEmpty then s else { s with
    tiles := s.tiles.map fun p => (p.1, { p.2 with spill := p.2.spill.filter fun t => !mine t })
    transfers := s.transfers ++ ts }

/-- The process is in an instruction that has issued, so not at a boundary; a KILLP of its own is not complete. -/
def midInstruction (s : State) (w : Nat) : Bool :=
  let k := getCore s (procCore s w)
  match k.run with
  | some r => r.wptr == w && (match k.stall with
      | none => r.held
      | some (.kill _ _) => false
      | some (.killNext _ _) => false
      | some .ending => false
      | some _ => true)
  | none => false

/-- A process that KILLP names issues no more: it stays RUNNING on its core, or READY off its run queue, until it ends (R135, R217). -/
def stopProc (s : State) (w : Nat) : State :=
  let c := procCore s w
  match (getCore s c).run with
  | some r => if r.wptr == w then modCore s c fun k => { k with stall := some .ending, wfi := false } else offRunQueues s w
  | none => offRunQueues s w

/-- A process that KILLP names stops at its next boundary, and ends once what it has begun is complete (R135). -/
def killOne (s : State) (w : Nat) : State :=
  if midInstruction s w then s
  else
    let s := unspill s w
    let s := if pstate s w ≤ 1 then stopProc s w else s
    if inTransfer s w || storesLeft s w then s else killProc s w true

/-- Processes that KILLP names end; the KILLP whose process has ended retires with status 0, and one behind it finds the process ENDED
(R133, R138). -/
def serveKills (s : State) : State :=
  let s := s.procs.foldl (fun s e => if e.2.killed && (getProc s e.1).isSome then killOne s e.1 else s) s
  s.cores.foldl (fun s e =>
    let k := getCore s e.1
    match k.run, k.stall with
    | some r, some (.kill d w) =>
      if (getProc s w).isSome then s else finish (modCore s e.1 fun k => { k with stall := none }) e.1 r d 0
    | some r, some (.killNext d w) =>
      if (getProc s w).isSome then s else finish (modCore s e.1 fun k => { k with stall := none }) e.1 r d 1
    | _, _ => s) s

/-! ### Posted writes of hosts (R197, R264) -/

/-- The site of a TLM address takes accesses: it is admitted, draining or quiesced (R161). -/
def siteServes (s : State) (pa : Nat) : Bool :=
  match homeTile pa with
  | some t => siteIn (getSite s (siteOf t)).st && !(isGrid t && !(getSeg s (gridSeg t)).powered)
  | none => false

/-- A TLM interval that a host reaches (R152, R161, R197). -/
def hostReaches (s : State) (pa n : Nat) : Bool :=
  inTlm pa && decide (1 ≤ n) && decide (pa / tlmWindow = (pa + n - 1) / tlmWindow) && !neverPopulated (isDark s) pa
    && !neverPopulated (isDark s) (pa + n - 1) && siteServes s pa

/-- A work-queue register, which hosts reach through BAR 0 (R337). -/
def isWq (pa : Nat) : Bool :=
  spaceOf pa == 15 && (match devReg (spaceOff pa) with | some (.wq _ _) => true | _ => false)

/-- A host's posted write is performed at its home; one that a port holds waits there. Work queues take writes from stage 2 of the bring-up on
(R422). -/
def hostStore (s : State) (link pa : Nat) (data : List Byte) : State × Bool :=
  let n := data.length
  if isWq pa && (n == 4 || n == 8) && pa % n == 0 && decide (s.pmc.stage < 2) then (s, true)
  else if isWq pa && (n == 4 || n == 8) && pa % n == 0 then (devWrite s pa n (ofBytes data) false fun s _ _ => s, true)
  else if !hostReaches s pa n then (s, true)
  else if portHolds s pa n (.host link) false then (noteHeld s pa n (.host link) false, false)
  else (performWrite (dropHeldAcc s (.host link)) pa n (ofBytes data) none false 0, true)

/-- The writes of every link are performed in their order, up to one that a port holds. -/
def serveHosts (s : State) : State :=
  s.hosts.writes.foldl (fun s x =>
    if s.hosts.writes.any (·.1 == x.1) then { s with hosts := { s.hosts with writes := s.hosts.writes ++ [x] } }
    else
      match hostStore s x.1 x.2.1 x.2.2 with
      | (s, true) => s
      | (s, false) => { s with hosts := { s.hosts with writes := s.hosts.writes ++ [x] } }) { s with hosts := { s.hosts with writes := [] } }

/-! ### Settling -/

/-- Regions in ENDING that have ended (R236). -/
def serveEnds (s : State) : State := (allRcbs s).foldl (fun s r => if regionDone s r then regionEnds s r else s) s

/-- What follows an event: suspensions at work proceed, accesses and instructions that nothing holds any more are served in their orders,
pending traps meet the instructions that wait, and a high-priority process that has become READY pre-empts (R217). -/
def settle (s : State) : State :=
  let s := serveUnits (serveLost (s.selects.foldl (fun s e => selResume s e.1) (suspProgress s)))
  let s := accServe s
  let s := accRelease ((acfgTiles s).foldl (fun s t => acfgServe s t s.procs.length) s)
  let s := retryFull (serveTurns (lockServe (serveHosts s)))
  let s := s.tiles.foldl (fun s e => if (getTile s e.1).held.isEmpty then s else serveHeld s e.1) (serveEnds (serveFirings s))
  let s := lateGuards (serveKills (deliverWaits (checkSlots s)))
  let s := accServe s
  let s := accRelease ((acfgTiles s).foldl (fun s t => acfgServe s t s.procs.length) s)
  s.cores.foldl (fun s e => preempt s e.1) s

end Sys2Proof.Machine
end

