-- ==== Sys2Proof/Machine/Acc.lean ====
section
/-! DEFINITION. The accumulator file's instructions: the ACCF group (R139 to R148). -/

namespace Sys2Proof.Machine

/-- FAR on a rim tile; an ACFG whose turn has come holds the ACCF instructions of the tile's other cores (R148). -/
def accInstr (s : State) (c : Nat) (r : Running) (k : State) : State :=
  let t := coreTile c
  if isRim t then trapOpen s r .far
  else if acfgHolds s t (some c) then waitHere s c r 4 0xAC (.accCfg t)
  else k

/-- AccCheck of R146: `tile` is the accumulator tile named. -/
def accCheck (s : State) (c : Nat) (r : Running) (off : Word) (align : Nat) (k : State) : State :=
  let t := coreTile c
  if ownerRefuses s t r.rcb r.sm then trapOpen s r .prot
  else if bits off 63 21 != 0 || decide ((getTile s t).accLive ≤ bits off 20 14) then trapHere s r .bound off
  else if off.toNat % align != 0 then trapHere s r .align off
  else k

/-- Wait in WJOB with ARG 0xAB while the tile is busy, or, for a writing instruction, held, and behind accesses that were issued before and have
not yet been served: it takes effect in its turn (R141, R144). -/
def accHold (s : State) (c : Nat) (r : Running) (op : AccOp) (k : State) : State :=
  let t := coreTile c
  let (j, writes) := accOpTile op
  if accBusy s t j || (writes && accHeld s t j) || accDue s t j (s.order + 1) || storeDue s t j (s.order + 1) then
    let s := tick s
    waitHere s c r 4 0xAB (.acc t op s.order)
  else k

/-- APF (R143, R147). -/
def execApf (a : Reg) (s : State) : Host.Outcome State Fault Refusal :=
  onCore s fun c r =>
    let off := src s c r a
    accInstr s c r <| accCheck s c r off 64 <| accHold s c r (.apf off.toNat) <|
      retire (modCore s c fun k => pushPrefetch k off.toNat) c r

/-- ARD (R144, R147). -/
def execArd (d a : Reg) (s : State) : Host.Outcome State Fault Refusal :=
  onCore s fun c r =>
    let off := src s c r a
    accInstr s c r <| accCheck s c r off 8 <| accHold s c r (.ard d off.toNat) <|
      let pa := accBase (coreTile c) + off.toNat
      if uncorrectable s pa 8 then takeEccu s r.wptr none
      else
        let s := correctAt s c pa 8
        settle (finish (modCore s c fun k => popPrefetch k off.toNat) c r d (dwAt s pa))

/-- AWR (R147). -/
def execAwr (a b : Reg) (s : State) : Host.Outcome State Fault Refusal :=
  onCore s fun c r =>
    let off := src s c r a
    let v := src s c r b
    accInstr s c r <| accCheck s c r off 8 <| accHold s c r (.awr off.toNat v) <|
      retire (performWrite s (accBase (coreTile c) + off.toNat) 8 v.toNat none false r.rcb) c r

/-- ACLR (R147). -/
def execAclr (a : Reg) (s : State) : Host.Outcome State Fault Refusal :=
  onCore s fun c r =>
    let t := coreTile c
    let v := src s c r a
    accInstr s c r <|
      if ownerRefuses s t r.rcb r.sm then trapOpen s r .prot
      else if bits v 63 7 != 0 || decide ((getTile s t).accLive ≤ v.toNat) then trapHere s r .bound v
      else accHold s c r (.aclr v.toNat) <| retire (zeroRange s (accBase t + 16384 * v.toNat) 16384) c r

/-- ACFG (R148): earlier ACFGs of the file first, then its PROT check; it holds what names the file until the file is free. -/
def execAcfg (d a : Reg) (s : State) : Host.Outcome State Fault Refusal :=
  onCore s fun c r =>
    let t := coreTile c
    let cfg := src s c r a
    if isRim t then trapOpen s r .far
    else if bits cfg 63 16 != 0 || decide (128 < bits cfg 7 0) then trapHere s r .bound cfg
    else if !(acfgWaiters s t).isEmpty then wait s c r t cfg false
    else if ownerRefuses s t r.rcb r.sm then trapOpen s r .prot
    else
      let s := modCore s c fun k => { k with prefetch := [] }
      if fileFree s t then settle (finish (configureFile s t cfg r.rcb) c r d (fileConfig s t)) else wait s c r t cfg true
where
  /-- The process waits in WJOB with ARG 0xAC. -/
  wait (s : State) (c : Nat) (r : Running) (t : Nat) (cfg : Word) (begun : Bool) : State :=
    let s := tick s
    settle (waitHere s c r 4 0xAC (.acfg d cfg t s.order begun))

end Sys2Proof.Machine
end

