-- ==== Sys2Proof/Machine/Branch.lean ====
section
/-! DEFINITION. Branches (R105) and jumps (R106). -/

namespace Sys2Proof.Machine

/-- BR (R105): a branch writes no register. -/
def branch (t : Word → Word → Bool) (a b : Reg) (off : BitVec 15) (s : State) : Host.Outcome State Fault Refusal :=
  onCore s fun c r =>
    if t (src s c r a) (src s c r b) then retireTo s c (r.pc + off15 off) else retire s c r

/-- BEQ (R105). -/
def execBeq (a b : Reg) (off : BitVec 15) (s : State) : Host.Outcome State Fault Refusal :=
  branch (fun x y => x == y) a b off s

/-- BNE (R105). -/
def execBne (a b : Reg) (off : BitVec 15) (s : State) : Host.Outcome State Fault Refusal :=
  branch (fun x y => x != y) a b off s

/-- BLT (R105). -/
def execBlt (a b : Reg) (off : BitVec 15) (s : State) : Host.Outcome State Fault Refusal :=
  branch (fun x y => x.slt y) a b off s

/-- BGE (R105). -/
def execBge (a b : Reg) (off : BitVec 15) (s : State) : Host.Outcome State Fault Refusal :=
  branch (fun x y => y.sle x) a b off s

/-- BLTU (R105). -/
def execBltu (a b : Reg) (off : BitVec 15) (s : State) : Host.Outcome State Fault Refusal :=
  branch (fun x y => x.ult y) a b off s

/-- BGEU (R105). -/
def execBgeu (a b : Reg) (off : BitVec 15) (s : State) : Host.Outcome State Fault Refusal :=
  branch (fun x y => y.ule x) a b off s

/-- JAL (R106): the link is the next address, zero-extended. -/
def execJal (d : Reg) (off : BitVec 22) (s : State) : Host.Outcome State Fault Refusal :=
  onCore s fun c r => retireTo (regWr s c r.wptr d ((r.pc + 4).setWidth 64)) c (r.pc + off22 off)

/-- JALR (R106): the adder computes the target, checked by its residue (R98), before W[d] is written; a misaligned target raises ALIGN with
TVAL the target. -/
def execJalr (d a : Reg) (imm : BitVec 18) (s : State) : Host.Outcome State Fault Refusal :=
  onCore s fun c r => residue s c r (.jalr d a imm) fun s =>
    let t : PC := (src s c r a + imm18 imm).setWidth 48
    if t.extractLsb' 0 2 = 0 then retireTo (regWr s c r.wptr d ((r.pc + 4).setWidth 64)) c t
    else trapHere s r .align (t.setWidth 64)

end Sys2Proof.Machine
end

