-- ==== Sys2Proof/Machine/Channels.lean ====
section
/-! DEFINITION. Channel instructions: OUT, IN, OUTW, INW (R245), SEL and SEL.F (R248, R249), CHINIT and CHCLR (R254,
R255). -/

namespace Sys2Proof.Machine

/-- The physical address that an address of the executing process names, with no check. -/
def paOf (s : State) (c : Nat) (r : Running) (ea : Word) : Option Nat :=
  match addrSpace s c r with
  | none => some ea.toNat
  | some tn =>
    match walk s (coreTile c) tn ea.toNat with
    | .leaf l => some (l.pbase + (ea.toNat - l.vbase))
    | _ => none

/-- The site that an address names is LOST. -/
def addrLost (s : State) (c : Nat) (r : Running) (ea : Word) : Bool :=
  match paOf s c r ea with
  | some pa => (match homeTile pa with | some t => siteLost s t | none => false)
  | none => false

/-- Step 2 of R245: the channel address. -/
def channelAddr (s : State) (c : Nat) (r : Running) (ea : Word) (k : State → Nat → State) : State :=
  match memCheck s c r ea 8 .write .block false with
  | (s, .ok pa _) => if spaceOf pa == 0 then k s pa else trapHere s r .prot ea
  | (s, .trap .far) => trapHere s r .prot ea
  | (s, .trap .hole) => if addrLost s c r ea then takeTrap s r.wptr .peerlost 0 ea 0 false else trapHere s r .hole ea
  | (s, .trap x) => trapHere s r x ea
  | (s, .lost) => takeTrap s r.wptr .peerlost 0 ea 0 false
  | (s, .fault tn m) => pageWait s c r ea tn .write m
  | (s, .ecc) => takeEccu s r.wptr none

/-- Step 3 of R245: the first and last bytes of a buffer of nonzero length. -/
def bufferCheck (s : State) (c : Nat) (r : Running) (va : Word) (n : Nat) (output : Bool) (k : State → State) : State :=
  let kind : Kind := if output then .read else .write
  if n == 0 then k s
  else access s c r va 1 kind .block false fun s _ _ =>
    access s c r (va + word (n - 1)) 1 kind .block false fun s _ _ => k s

/-- The channel step leaves (R245 step 5): the process stays on its core until the step has been taken (log entry 11). -/
def chanSend (s : State) (c : Nat) (r : Running) (fn : Nat) (d : Reg) (pa n : Nat) (v : Word) : State :=
  let s := modCore s c fun k => { k with stall := some (.chan d fn pa v n) }
  let e : ChanEnd := if fn == 2 then .value r.wptr v else if fn == 3 then .head r.wptr d else .buf r.wptr v.toNat n
  pushMsg s (.chan pa (.plain e (fn == 0 || fn == 2)) false false)

/-- OUT, IN, OUTW and INW (R245), by fn. -/
def chanInstr (fn : Nat) (d a b : Reg) (s : State) : Host.Outcome State Fault Refusal :=
  onCore s fun c r =>
    let n := if fn < 2 then (src s c r d).toNat else 8
    let ea := src s c r a
    let v := src s c r b
    if decide (fn < 2) && decide (1048576 < n) then trapHere s r .bound (word n)
    else
      channelAddr s c r ea fun s pa =>
        bufferCheck s c r v (if fn < 2 then n else 0) (fn == 0) fun s =>
          if fn == 0 || fn == 2 then releaseWait s c r .panel fun s => chanSend s c r fn d pa n v
          else chanSend s c r fn d pa n v

/-- OUT (R245). -/
def execChanOut (d a b : Reg) (s : State) : Host.Outcome State Fault Refusal := chanInstr 0 d a b s
/-- IN (R245). -/
def execChanIn (d a b : Reg) (s : State) : Host.Outcome State Fault Refusal := chanInstr 1 d a b s
/-- OUTW (R245). -/
def execOutw (d a b : Reg) (s : State) : Host.Outcome State Fault Refusal := chanInstr 2 d a b s
/-- INW (R245). -/
def execInw (d a : Reg) (s : State) : Host.Outcome State Fault Refusal := chanInstr 3 d a 0 s

/-! ### Select (R248, R249) -/

/-- A table header that is malformed (R248), its reserved doubleword included. -/
def tableHeadBad (h rsv : Word) : Bool :=
  decide (8 < bits h 3 0) || bits h 63 19 != 0 || bits h 15 9 != 0 || bits h 7 4 != 0 || rsv != 0 || (bits h 3 0 == 0 && !bit h 8)

/-- An alternative of a table that is malformed: a zero field nonzero, or a length above 1,048,576, which R249 does not list (log entry
90). -/
def entryBad (ch buf len : Word) : Bool :=
  bits ch 62 48 != 0 || bits buf 63 48 != 0 || bits len 63 21 != 0 || decide (1048576 < bits len 20 0)

/-- Words +0x08 to +0x18 of the entry at `pa`. -/
def entryWord (s : State) (pa k : Nat) : Word := dwAt s (pa + 8 * k)

/-- Indices in visiting order from `st` (R249), the enabled ones only. -/
def visitOrder (n st mask : Nat) : List Nat :=
  ((List.range n).map fun j => (st + j) % n).filter fun i => mask.testBit i

/-- Physical addresses of the entries of the table at `ea`, which is aligned to 32: an entry lies in one page, and the table's further
pages are checked as the first is (R198, R248). -/
def tableEntries (c : Nat) (r : Running) (ea : Word) (s : State) (k : State → List (Nat × Nat) → State) : List Nat → State
  | [] => k s []
  | i :: t =>
    access s c r (ea + word (32 + 32 * i)) 32 .write .block false fun s pa _ =>
      readBlock s c r pa 32 fun s => tableEntries c r ea s (fun s l => k s ((i, pa) :: l)) t

/-- Check the channels and buffers of the enabled alternatives, collecting them (R249). -/
def checkAlts (c : Nat) (r : Running) (s : State) (k : State → List SelAlt → State) : List (Nat × Nat) → State
  | [] => k s []
  | (i, e) :: t =>
    let ch := entryWord s e 1
    let buf := entryWord s e 2
    let n := bits (entryWord s e 3) 20 0
    channelAddr s c r (word (bits ch 47 0)) fun s pa =>
      bufferCheck s c r buf n (bit ch 63) fun s =>
        checkAlts c r s (fun s l => k s (⟨i, e, pa, bit ch 63, buf.toNat, n, false⟩ :: l)) t

/-- Two enabled alternatives name one word with different DIR. -/
def altsClash (l : List SelAlt) : Bool := l.any fun a => l.any fun b => a.word == b.word && a.output != b.output

/-- SEL once its table and alternatives are checked: `es` are the entries of the whole table, all of them marked while the select is in
progress. -/
def selStart (s : State) (c : Nat) (r : Running) (first : Bool) (d : Reg) (table mask : Nat) (es : List (Nat × Nat)) (alts : List SelAlt) : State :=
  let h := dwAt s table
  let n := bits h 3 0
  let dlv := bit h 8
  let dl := dwAt s (table + 8)
  if altsClash alts then trapOpen s r .bound
  else releaseWait s c r .panel fun s =>
    if alts.isEmpty && !dlv then finish s c r d 0xFE
    else
      let order := visitOrder n (if first then bits h 18 16 else 0) mask
      let todo := order.filterMap fun i => alts.find? (·.idx == i)
      let s := es.foldl (fun s e => mark s ⟨e.2, 32, .sel, r.wptr⟩) (mark s ⟨table, 32, .sel, r.wptr⟩)
      let e : Select := ⟨r.wptr, d, first, n, if dlv then some dl else none, dlv && dl.ule s.time, todo, []⟩
      let s := modCore { s with selects := amSet s.selects table e } c fun k => { k with stall := some (.sel d first table) }
      settle (selNext (setClaim s table 0) table)

/-- SEL and SEL.F (R248, R249). -/
def selInstr (first : Bool) (d a b : Reg) (s : State) : Host.Outcome State Fault Refusal :=
  onCore s fun c r =>
    let ea := src s c r a
    let mask := (src s c r b).toNat % 256
    let bad := trapHere s r .bound ea
    if ea.toNat % 32 != 0 then bad
    else if (match paOf s c r ea with | some pa => spaceOf pa != 0 | none => false) && bits ea 63 52 == 0 then bad
    else
      access s c r ea 32 .write .block false fun s pa _ =>
        readBlock s c r pa 32 fun s =>
          let h := dwAt s pa
          let n := bits h 3 0
          if tableHeadBad h (dwAt s (pa + 24)) then trapHere s r .bound ea
          else tableEntries c r ea s (fun s es =>
            if es.any fun e => entryBad (entryWord s e.2 1) (entryWord s e.2 2) (entryWord s e.2 3) then trapHere s r .bound ea
            else checkAlts c r s (fun s l => selStart s c r first d pa mask es l) (es.filter fun e => mask.testBit e.1)) (List.range n)

/-- SEL (R249). -/
def execSel (d a b : Reg) (s : State) : Host.Outcome State Fault Refusal := selInstr false d a b s
/-- SEL.F (R249). -/
def execSelF (d a b : Reg) (s : State) : Host.Outcome State Fault Refusal := selInstr true d a b s

/-! ### Set-up and clearing -/

/-- A new binding table for a word (R253, R254); none when it has no free entry of its 256. -/
def newBindings (l : List Binding) (word_ wr rd : Nat) : Option (List Binding) :=
  let rest := l.filter (·.word != word_)
  if wr == 0 && rd == 0 then some rest
  else if rest.length < 256 then some (⟨word_, wr, rd⟩ :: rest)
  else none

/-- CHINIT's step at the word's home. -/
def chinitStep (s : State) (c : Nat) (r : Running) (d : Reg) (pa wr rd : Nat) : State :=
  let s := asChannel s pa
  let v := hw s pa
  let t := pa / tlmWindow
  if wordHeld s pa then holdHere s
  else chinitAt (noteMsg s c t) c r d pa wr rd v t
where
  /-- The step is accepted at the home (R254). -/
  chinitAt (s : State) (c : Nat) (r : Running) (d : Reg) (pa wr rd : Nat) (v : Word) (t : Nat) : State :=
  if uncorrectable s pa 8 then takeEccu s r.wptr none
  else if chanMalformed v then
    let (o, s) := openTval s
    takeTrap s r.wptr .chan 1 o 0 false
  else if chanHead v != 0 then finish s c r d 1
  else
    match newBindings (getTile s t).bindings pa wr rd with
    | none => finish s c r d 2
    | some l =>
      let s := modTile (logBinding s t pa) t fun k => { k with bindings := l }
      finish (performWrite s pa 8 (if wr == 0 && rd == 0 then 0 else 2 ^ 60) none false r.rcb) c r d 0

/-- CHINIT (R254). -/
def execChinit (d a b : Reg) (s : State) : Host.Outcome State Fault Refusal :=
  onCore s fun c r =>
    let ba := src s c r b
    channelAddr s c r (src s c r a) fun s pa =>
      if ba = 0 then chinitStep s c r d pa 0 0
      else access s c r ba 8 .read .block false fun s p0 _ =>
        access s c r (ba + 8) 8 .read .block false fun s p1 _ =>
          readBlock s c r p0 8 fun s => readBlock s c r p1 8 fun s =>
            chinitStep s c r d pa (bits (dwAt s p0) 51 0) (bits (dwAt s p1) 51 0)

/-- Empty a channel's waiter queue (R255): the number of waiters unlinked. -/
def clearWaiters (s : State) (word_ : Nat) : State × Nat :=
  let v := hw s word_
  let keep := (setBits (setBits (setBits v 63 62 0) 51 0 0) 61 61 0) &&& (1 <<< 60)
  if chanMalformed v || !((chainOf s word_).any (linkLost s word_) || chainValid s word_) then (performWrite s word_ 8 keep.toNat none false 0, 0)
  else
    let q := chainOf s word_
    let ends := q.map fun l => (l, linkEnd s l, selEntryOf s l)
    let s := q.foldl (fun s l => if linkLost s word_ l then s else putHw (undoLog s (linkAddr l) 8) (linkAddr l) 0) s
    let s := performWrite s word_ 8 keep.toNat none false 0
    (ends.foldl (fun s p =>
      if linkLost s word_ p.1 then s
      else
        match p.2.2 with
        | some (tb, _) =>
          if p.1 % 2 == 1 && (amGet s.selects tb).isSome && claimOf s tb == 0 then failChan (setClaim s tb 0xF1) p.2.1 2 else s
        | none => failChan s p.2.1 2) s, q.length)

/-- A select with an entry in the word's queue is in the middle of a claim: CHCLR's own claim tries again (R252). -/
def claimBusy (s : State) (word_ : Nat) : Bool :=
  (chainOf s word_).any fun l => match selEntryOf s l with | some (tb, _) => l % 2 == 1 && claimOf s tb == 0xFF | none => false

/-- CHCLR (R255): a rendezvous whose transfer has begun completes first, and so does a claim (R252). -/
def execChclr (d a : Reg) (s : State) : Host.Outcome State Fault Refusal :=
  onCore s fun c r =>
    channelAddr s c r (src s c r a) fun s pa =>
      let s := asChannel s pa
      if s.transfers.any (·.word == pa) || wordHeld s pa || claimBusy s pa then holdHere s
      else if uncorrectable s pa 8 then takeEccu s r.wptr none
      else
        let (s, n) := clearWaiters (noteMsg s c (pa / tlmWindow)) pa
        settle (finish s c r d (word n))

/-! ### Events of channels -/

/-- The core that sent a channel step; a trap record's offer is its tile's (R344, R408). -/
def stepCore (s : State) (p : Party) : Option Nat :=
  match partyEnd s p with
  | .slot _ _ => none
  | .unit _ _ => none
  | e => some (procCore s (endWptr e))

/-- The router of the word's home accepts the step (R408). -/
def noteStep (s : State) (word_ : Nat) (p : Party) : State :=
  match stepCore s p with
  | some c => noteMsg s c (word_ / tlmWindow)
  | none => s

/-- CHANNEL_STEP (R244, R245, R252): the `i`-th message in flight reaches its word's home, or a step's claim of two selects ends. -/
def execChannelStep (i : Nat) (s : State) : Host.Outcome State Fault Refusal :=
  match s.msgs[i]? with
  | some (.chan w p false false) => if wordHeld s w then .next s else .next (settle (stepArrives (noteStep (dropMsg s i) w p) w p))
  | some (.claim w p mine theirs) => .next (settle (claimEnds (dropMsg s i) w p mine theirs))
  | _ => .next s

/-- CLAIM_RETRY (R252). -/
def execClaimRetry (i : Nat) (s : State) : Host.Outcome State Fault Refusal :=
  match s.msgs[i]? with
  | some (.chan w p true _) => if wordHeld (dropMsg s i) w then .next s else .next (settle (stepArrives (dropMsg s i) w p))
  | _ => .next s

/-- SPILL_RETRY (R348). -/
def execSpillRetry (i : Nat) (s : State) : Host.Outcome State Fault Refusal :=
  match s.msgs[i]? with
  | some (.chan w p _ true) => if wordHeld s w then .next s else .next (settle (stepArrives (dropMsg s i) w p))
  | _ => .next s

/-- SELECT_DEADLINE (R250): the select is claimed with 0xF0. -/
def execSelectDeadline (w : Nat) (s : State) : Host.Outcome State Fault Refusal :=
  match getProc s w with
  | some p =>
    match p.wait with
    | .sel _ _ tb =>
      match amGet s.selects tb with
      | some e =>
        match e.deadline with
        | some dl =>
          if pstate s w == 3 && e.todo.isEmpty && claimOf s tb == 0 && dl.ule s.time then
            .next (settle (finishSel (setClaim s tb 0xF0) tb 0xF0 false))
          else .next s
        | none => .next s
      | none => .next s
    | _ => .next s
  | none => .next s

/-- Offer a slot on its handler channel (R344, R345). -/
def offerSlot (s : State) (t k : Nat) (x : TrapSlot) : State :=
  let h := slotHandler s t x
  if h == 0 then s
  else if holeCheck s t h != .clear || spaceOf h != 0 then failSlot s t k
  else
    let s := modTile s t fun q => { q with trapQ := q.trapQ.setIfInBounds k (some { x with offered := true }) }
    pushMsg s (.chan h (.plain (.slot t k) true) false false)

/-- TRAP_RECORD_OFFER (R344): the oldest occupied slot of a tile, once what the trapped process retired before is performed (R184). -/
def execTrapRecordOffer (t : Nat) (s : State) : Host.Outcome State Fault Refusal :=
  match (getTile s t).trapOrder with
  | [] => .next s
  | k :: _ =>
    match ((getTile s t).trapQ[k]?).getD none with
    | some x => if x.offered || storesLeft s (recW x.words 1).toNat then .next s else .next (settle (offerSlot s t k x))
    | none => .next s

end Sys2Proof.Machine
end

