-- ==== Sys2Proof/Machine/Process.lean ====
section
/-! DEFINITION. Processes and regions: the PROC group (R222 to R240). -/

namespace Sys2Proof.Machine

/-- An instruction that resolves a place in the grid of region `g` waits while its map is frozen (R378). -/
def unlessFrozenIn (s : State) (c : Nat) (r : Running) (g : Nat) (k : State) : State :=
  if mapFrozen s g then waitHere s c r 6 0x5F (.frozen (rootOrigin s g).1) else k

/-- The AMO on a join counter that the executing instruction makes at its home (R211, R264), if it names one. -/
def joinPort (s : State) (c : Nat) (r : Running) (join : Option Nat) (k : State → State) : State :=
  match join with
  | some ja => atPort s c r ja 8 fun s =>
    if uncorrectable s ja 8 then takeEccu s r.wptr none else k (match homeTile ja with | some t => noteMsg s c t | none => s)
  | none => k s

/-- SPAWN and SPAWNA of a record that has passed its checks (R223): the release, the join counter, the message. -/
def spawnSend (s : State) (c : Nat) (r : Running) (d : Reg) (spawna : Bool) (tgt rgn : Nat) (ws : List Word) (join : Option Nat) : State :=
  releaseWait s c r .panel fun s =>
    joinPort s c r join fun s => send (incCounter s join r.rcb)
where
  /-- VC2: a target in a hole is met at the source (status 4); else the message leaves and the process awaits its reply. -/
  send (s : State) : State :=
    let t := coreTile tgt
    let m : SpawnMsg := ⟨some (r.wptr, d), coreTile c, spawna, t, coreIdx tgt, rgn, r.sm, ws, join⟩
    if holeCheck s (coreTile c) (t * tlmWindow) == .hole then finish (decCounter s join r.rcb r.sm) c r d (spawnResult m 4)
    else pushMsg (modCore s c fun k => { k with stall := some .spawn }) (.spawn m)

/-- The join counter's address, checked before anything is sent (R223). -/
def withJoin (s : State) (c : Nat) (r : Running) (va : Nat) (k : State → Option Nat → State) : State :=
  if va == 0 then k s none
  else access s c r (word va) 8 .write (.amo false) false fun s pa _ => k s (some pa)

/-- The record of a spawn, read once at issue: an instruction that is held uses what it has read (R223). -/
def withRecord (s : State) (c : Nat) (r : Running) (ea : Word) (k : State → List Word → State) : State :=
  if r.held && !r.seen.isEmpty then k s r.seen
  else access s c r ea 64 .read .block false fun s pa _ =>
    readBlock s c r pa 64 fun s =>
      let ws := wordsAt s pa 8
      k (modCore s c fun q => match q.run with | some x => { q with run := some { x with seen := ws } } | none => q) ws

/-- SPAWN once its record is read (R223, R224). -/
def spawnRec (s : State) (c : Nat) (r : Running) (d b : Reg) (ws : List Word) : State :=
  let rgn := recRegion ws r.rcb
  let pw := src s c r b
  unlessFrozenIn s c r (spawnGrid s r.rcb rgn)
    (match spawnPlace s r.rcb rgn (coreTile c) (coreIdx c) pw r.sm with
     | .bound => trapHere s r .bound pw
     | .reserved => trapOpen s r .prot
     | .ok t i =>
       let st := checkRecord s ws r.rcb r.sm
       if st != 0 then finish s c r d (word st)
       else if !(regionTiles s rgn).contains t then trapHere s r .bound pw
       else withJoin s c r (recJoin ws) fun s ja => spawnSend s c r d false (coreNo t i) rgn ws ja)

/-- SPAWN (R223). -/
def execSpawn (d a b : Reg) (s : State) : Host.Outcome State Fault Refusal :=
  onCore s fun c r =>
    withRecord s c r (src s c r a) fun s ws => spawnRec s c r d b ws

/-- SPAWNA once its record is read (R223, R225). -/
def spawnaRec (s : State) (c : Nat) (r : Running) (d : Reg) (ws : List Word) : State :=
  let rgn := recRegion ws r.rcb
  unlessFrozenIn s c r rgn
    (let st := checkRecord s ws r.rcb r.sm
     if st != 0 then finish s c r d (word st)
     else
       match distribute s (coreTile c) rgn ws with
       | none => finish s c r d 5
       | some tgt => withJoin s c r (recJoin ws) fun s ja => spawnSend s c r d true tgt rgn ws ja)

/-- SPAWNA (R223, R225). -/
def execSpawna (d a : Reg) (s : State) : Host.Outcome State Fault Refusal :=
  onCore s fun c r =>
    withRecord s c r (src s c r a) fun s ws => spawnaRec s c r d ws

/-- ENDP (R227): a release, the releasing AMO on the join counter, and the process ends. -/
def execEndp (s : State) : Host.Outcome State Fault Refusal :=
  onCore s fun c r => releaseWait s c r .panel fun s =>
    joinPort s c r (match getProc s r.wptr with | some p => p.join | none => none) fun s =>
      settle (endProcWith (modCore s c retireCount) r.wptr .now)

/-- The executing process leaves its core for the tail of the queue of its HP, unless it would be dispatched again at once
(R229). -/
def yieldTo (s : State) (c : Nat) (r : Running) : State :=
  let s := retire s c r
  let k := getCore s c
  if (runQueue k r.hp).isEmpty && (r.hp || k.highQ.isEmpty) then s
  else enqueueTail (setPstate (leaveCore s c (r.pc + 4)) r.wptr 1 0) r.wptr

/-- YIELD (R229). -/
def execYield (s : State) : Host.Outcome State Fault Refusal := onCore s fun c r => yieldTo s c r

/-- PRIO (R229). -/
def execPrio (d a : Reg) (s : State) : Host.Outcome State Fault Refusal :=
  onCore s fun c r =>
    let hp := bit (src s c r a) 0
    let s := regWr s c r.wptr d (boolW r.hp)
    if hp == r.hp then retire s c r
    else
      let r := { r with hp := hp }
      yieldTo (modCore s c fun k => { k with run := some r }) c r

/-- JOIN (R228). -/
def execJoin (a : Reg) (s : State) : Host.Outcome State Fault Refusal :=
  onCore s fun c r =>
    access s c r (src s c r a) 8 .read .fe false fun s pa _ =>
      readBlock s c r pa 8 fun s =>
        if dwAt s pa == 0 then retire (acquireDone s c .panel) c r
        else watchAndWait s c r (src s c r a) pa 8 7 0 .join

/-- SELF (R230); the place of a process without a region, or outside its region's grid, is a free value (log entry 22). -/
def execSelf (d a : Reg) (s : State) : Host.Outcome State Fault Refusal :=
  onCore s fun c r =>
    let v := src s c r a
    if v = 0 then finish s c r d (word r.wptr)
    else if v = 1 then
      match if r.rcb = 0 then none else logicalOf s r.rcb (coreTile c) with
      | some (lx, ly) => finish s c r d (word (coreIdx c * 2 ^ 16 + ly * 2 ^ 8 + lx))
      | none =>
        let (o, s) := openTval s
        finish s c r d o
    else if v = 2 then finish s c r d (word r.rcb)
    else trapHere s r .bound v

/-- MIGRATE (R195, R231): a full fence, every journal entry of the process acknowledged, and the head leaves. -/
def execMigrate (d a b : Reg) (s : State) : Host.Outcome State Fault Refusal :=
  onCore s fun c r =>
    let pw := src s c r a
    let ws := src s c r b
    unlessFrozenIn s c r r.rcb
      (match resolvePlace s r.rcb (coreTile c) pw (some (coreIdx c)) r.sm with
       | .bound => trapHere s r .bound pw
       | .reserved => trapOpen s r .prot
       | .ok t i =>
         if !slotValid ws.toNat then trapHere s r .bound ws
         else releaseWait s c r .sys fun s =>
           let s := acquireDone s c .panel
           match holeCheck s (coreTile c) (t * tlmWindow) with
           | .hole => trapOpen s r .hole
           | _ =>
             let s := modCore s c fun k => { k with stall := some .migrate }
             pushMsg s (.migrate ⟨c, d, r.wptr, t, i, ws.toNat⟩))

/-! ### Regions -/

/-- Map words of a root (R377). -/
def mapWordsAt (s : State) (pmap n : Nat) : List (BitVec 32) := (List.range n).map fun i => BitVec.ofNat 32 (memLE s.mem (pmap + 4 * i) 4)

def noRepeats : List Nat → Bool
  | [] => true
  | a :: t => !t.contains a && noRepeats t

/-- A valid map word for a tenant (R377). -/
def mapWordValid (s : State) (tenant : Nat) (w : BitVec 32) : Bool :=
  let v := w.toNat
  let t := mapTile w
  v / 2 ^ 19 == 0 && v / 2 ^ 14 % 4 == 0 && decide (t < allTiles) && !mapDark s t && v / 2 ^ 16 % 8 == tileKind t
    && (if isRim t then tenant == 0 || (getTile s t).admits.contains tenant else bits (getTile s t).tenant 11 0 == tenant)

/-- A valid place map (R377). -/
def mapValid (s : State) (tenant pmap n : Nat) : Bool :=
  pmap % 64 == 0 && spaceOf pmap == 0 && !neverPopulated (isDark s) pmap && !neverPopulated (isDark s) (pmap + 4 * n - 1)
    && (mapWordsAt s pmap n).all (mapWordValid s tenant) && noRepeats ((mapWordsAt s pmap n).map mapTile)

/-- Fields of an RCB template (R233). -/
def tplOvr (t : List Word) (i : Nat) : Bool := bit (recW t 1) (32 + i)
def tplParent (t : List Word) : Nat := bits (recW t 0) 51 8 * 256
def tplOrgX (t : List Word) : Nat := bits (recW t 2) 55 48
def tplOrgY (t : List Word) : Nat := bits (recW t 2) 47 40
def tplLW (t : List Word) : Nat := bits (recW t 2) 15 8 + 1
def tplLH (t : List Word) : Nat := bits (recW t 2) 7 0 + 1
def tplJoin (t : List Word) : Nat := bits (recW t 7) 47 0
def tplOff (t : List Word) : Nat := bits (recW t 10) 21 8

/-- A field that OVR takes from the template, or the parent, or the root's value (R233, R234). -/
def tplField (s : State) (t : List Word) (parent i word_ hi lo rootV : Nat) : Nat :=
  if tplOvr t i then bits (recW t word_) hi lo
  else if parent == 0 then rootV else rcbField s parent (8 * word_) hi lo

/-- A template that gives status 2, apart from the root map (R233, R235). -/
def tplMalformed (t : List Word) (sm : Bool) : Bool :=
  bits (recW t 1) 39 37 != 0 || (tplOvr t 4 && decide (2 ≤ bits (recW t 1) 25 24)) || decide (128 < tplLW t) || decide (96 < tplLH t)
    || decide (12287 < tplOff t) || bits (recW t 11) 63 32 != 0 || (t.drop 12).any (· != 0) || (tplParent t == 0 && !sm)

/-- The 32 doublewords of the new RCB (R233). `tenant`, `pmap` and the joined counter are given. -/
def newRcb (s : State) (t : List Word) (tenant pmap : Nat) : List Word :=
  let p := tplParent t
  let f := tplField s t p
  let cap := f 2 4 15 0 0xFFFF
  let cap := if p == 0 then cap else min cap (rcbTokcap s p)
  [word p,
   word ((recW t 1).toNat / 2 ^ 32 % 2 ^ 8 * 2 ^ 32 + f 4 1 25 24 0 * 2 ^ 24 + f 1 1 22 20 0 * 2 ^ 20 + f 0 1 17 16 0 * 2 ^ 16 + tenant),
   word (tplOrgX t * 2 ^ 48 + tplOrgY t * 2 ^ 40 + (tplLW t - 1) * 2 ^ 8 + (tplLH t - 1)),
   word pmap, word cap, word (f 3 5 51 0 0), 0, word (tplJoin t), 0, 0, word (tplOff t * 2 ^ 8), 0]
   ++ List.replicate 20 0

/-- Undo-log area of a tile (R429). -/
def undoArea (t : Nat) : Nat := t * tlmWindow + undoOff

/-- RGNNEW's work from a template (R235): the status, and when it is 0 the RCB created. `sm` and `own` are the creator's
mode and region, `src` its tile, `join` the checked counter. -/
def rgnNew (s : State) (t : List Word) (own src : Nat) (sm : Bool) (join : Option Nat) : State × Nat × Nat :=
  let p := tplParent t
  if tplMalformed t sm then (s, 2, 0)
  else if p != 0 && (!liveRegion s p || (!sm && !inTree s own p)) then (s, 5, 0)
  else
    let tenant := if p == 0 then bits (recW t 1) 11 0 else rcbTenant s p
    let rootMap := bits (recW t 3) 51 0
    if p == 0 && !mapValid s tenant rootMap (tplLW t * tplLH t) then (s, 2, 0)
    else if p != 0 && (decide (rcbLW s p < tplOrgX t + tplLW t) || decide (rcbLH s p < tplOrgY t + tplLH t)) then (s, 1, 0)
    else
      let wordAddr (x y : Nat) : Nat := if p == 0 then rootMap + 4 * (y * tplLW t + x) else mapWordAddr s p (tplOrgX t + x) (tplOrgY t + y)
      let tileOf (x y : Nat) : Nat := mapTile (BitVec.ofNat 32 (memLE s.mem (wordAddr x y) 4))
      let anchor := tileOf 0 0
      let tiles := (logicalGrid (tplLW t) (tplLH t)).map fun q => tileOf q.1 q.2
      let rcb := anchor * tlmWindow + 256 * tplOff t
      let ck := tplField s t p 4 1 25 24 0 == 1
      if holeCheck s src rcb != .clear then (s, 4, 0)
      else if anyMark s rcb 256 then (s, 3, 0)
      else if ck && tiles.any (fun u => anyMark s (undoArea u) 0x40000) then (s, 6, 0)
      else
        let s1 := putWords s rcb (newRcb s t tenant (wordAddr 0 0))
        let areas := (⟨rcb, 256, .rcb, rcb⟩ : Area) :: s.areas
        let areas := if p == 0 then ⟨rootMap, 4 * tplLW t * tplLH t, .placeMap, rcb⟩ :: areas else areas
        let areas := if ck then (tiles.map fun u => ⟨undoArea u, 0x40000, .undoLog, rcb⟩) ++ areas else areas
        let s1 := { s1 with areas := areas, regions := amSet s1.regions rcb { Region.reset with join := join } }
        let s1 := if p == 0 then s1 else closeInterval (putRcb s1 p 64 31 0 (rcbNchild s1 p + 1)) p
        (incCounter s1 join own, 0, rcb)

/-- RGNNEW (R235): the JOIN counter's address passes its check first, and the counter is reached once every status but 0 is ruled out. -/
def execRgnnew (d a : Reg) (s : State) : Host.Outcome State Fault Refusal :=
  onCore s fun c r =>
    access s c r (src s c r a) 256 .read .block false fun s pa _ =>
      readBlock s c r pa 256 fun s =>
        let t := wordsAt s pa 32
        withJoin s c r (tplJoin t) fun s ja =>
          let (s1, st, _) := rgnNew s t r.rcb (coreTile c) r.sm ja
          if st != 0 then finish s1 c r d (word st)
          else joinPort s c r ja fun s => finish (rgnNew s t r.rcb (coreTile c) r.sm ja).1 c r d 0

/-- An address holds an RCB that RGNEND can name: marked, or ended or aborted and not yet reused (R236). -/
def rcbThere (s : State) (a : Nat) : Bool :=
  inTlm a && a % 256 == 0 && !neverPopulated (isDark s) a && (isRcb s a || rcbState s a == 3 || rcbState s a == 4)

/-- RGNEND's status when it does not wait (R236). -/
def rgnEndStatus (s : State) (a own : Nat) (sm : Bool) : Option Nat :=
  if a != 0 && inTree s a own then some 5
  else if !rcbThere s a || (!sm && !inTree s own a) then some 2
  else if rcbState s a == 2 || rcbState s a == 3 then some 1
  else if rcbState s a == 4 then some 6
  else none

/-- RGNEND (R236). -/
def execRgnend (d a : Reg) (s : State) : Host.Outcome State Fault Refusal :=
  onCore s fun c r =>
    let v := src s c r a
    match rgnEndStatus s v.toNat r.rcb r.sm with
    | some st => finish s c r d (word st)
    | none =>
      let s := putRcb s v.toNat 8 63 60 2
      let join := (getRegion s v.toNat).join
      if regionDone s v.toNat && !counterHeld s join r.sm && !counterBad s join then settle (regionEnds (finish s c r d 0) v.toNat)
      else settle (waitHere s c r 7 0xE0 (.rgnend d v.toNat))

/-- An arrival at the region's barrier (R239): a release, then the process waits in WJOIN with ARG 0xBA. -/
def arrive (ck : Bool) (d : Reg) (s : State) : Host.Outcome State Fault Refusal :=
  onCore s fun c r =>
    releaseWait s c r .panel fun s =>
      if r.rcb == 0 then
        let (o, s) := openTval s
        finish (acquireDone s c .panel) c r d o
      else
        let s := waitHere s c r 7 0xBA (.barrier d ck)
        let s := modRegion s r.rcb fun g => { g with arrivals := g.arrivals ++ [(r.wptr, ck)] }
        settle (barrierCheck (putRcb s r.rcb 72 31 0 (rcbBarr s r.rcb + 1)) r.rcb)

/-- BAR (R239). -/
def execBar (d : Reg) (s : State) : Host.Outcome State Fault Refusal := arrive false d s

/-- BARCK (R240). -/
def execBarck (d : Reg) (s : State) : Host.Outcome State Fault Refusal := arrive true d s

end Sys2Proof.Machine
end

