-- ==== Sys2Proof/Machine/Csr.lean ====
section
/-! DEFINITION. Control and status registers (R121 to R127, R411) and the token instructions (R387, R396, R403). -/

namespace Sys2Proof.Machine

/-! ### Levels and operating points -/

/-- LEVEL of class `k` at a holding (R387). -/
def levelOf (held k : Nat) : Nat := if classNeed k == 0 then 16 else min 16 (16 * held / classNeed k)

/-- Boost counts only in an interval without a ceiling (R396, R397). -/
def boostCounts (g : Seg) : Nat := if g.ceilingSeen || g.cl < 7 || g.th < 7 then 0 else g.boost

/-- Effective ceiling of a zone (R396). -/
def ceilingOf (g : Seg) : Nat := min (min g.cl g.th) (5 + boostCounts g)

/-- Ceiling of a tile: rim tiles belong to no zone. -/
def tileCeiling (s : State) (t : Nat) : Nat :=
  match segOf t with
  | some g => ceilingOf (getSeg s g)
  | none => 7

/-- Operating point of a tile (R396). -/
def tilePoint (s : State) (t : Nat) : Nat :=
  let p := ([0, 1, 2, 3].map fun i => bits (getCore s (coreNo t i)).opreq 2 0).foldl max 0
  min p (tileCeiling s t)

/-- PWRS as a process of class `k` reads it (R125). -/
def pwrs (s : State) (t k : Nat) : Word :=
  let u := getTile s t
  let (notice, pendh, rp) := match u.revoke with
    | some v => (v.deadline - s.time.toNat, v.pendh, true)
    | none => (0, u.tkheld, false)
  let (bg, tc, cl) := match segOf t with
    | some g =>
      let q := getSeg s g
      (decide (0 < boostCounts q), decide (q.th < 7), decide (q.cl < 7))
    | none => (false, false, false)
  let l := levelOf u.tkheld k
  word (notice % 2 ^ 16 * 2 ^ 32 + pendh % 2 ^ 16 * 2 ^ 16 + u.skip % 4 * 2 ^ 11 + b2n bg * 2 ^ 10 + b2n tc * 2 ^ 9
    + b2n cl * 2 ^ 8 + b2n rp * 2 ^ 7 + b2n (decide (16 ≤ l)) * 16 + min 15 l)

/-! ### Access -/

/-- Access that the catalogue grants (R121). -/
def csrGranted (n : Nat) (sm write : Bool) : Bool :=
  if n == 0x10A || n == 0x281 || n == 0x282 then sm
  else if !write then true
  else if n ≤ 0x00B || n == 0x107 || n == 0x110 || (0x118 ≤ n && n ≤ 0x11F) || n == 0x207 then true
  else if n == 0x102 || n == 0x103 || n == 0x105 || n == 0x106 || (0x180 ≤ n && n ≤ 0x183) || n == 0x204 || n == 0x205 || n == 0x206
      || n == 0x280 || n == 0x310 then sm
  else false

/-- JRNLHD (R126, R192). -/
def jrnlhd (k : Core) : Word :=
  let oldest := k.journal.foldl (fun (b : Option (Nat × Nat)) e =>
    match b with
    | some (_, a) => if e.2.age < a then some (e.1, e.2.age) else b
    | none => some (e.1, e.2.age)) none
  word (k.journal.length * 2 ^ 8 + (match oldest with | some (i, _) => i | none => 0))

/-- ACSTAT (R126). -/
def acstat (s : State) (t : Nat) : Word :=
  let u := getTile s t
  word (((List.range 128).countP fun j => accBusy s t j) * 2 ^ 16 + u.accType.toNat * 2 ^ 8 + u.accLive % 256)

/-- A core has power: its segment is up, or the module of its rim tile is in. -/
def corePowered (s : State) (c : Nat) : Bool :=
  match segOf (coreTile c) with
  | some g => (getSeg s g).powered
  | none => siteIn (getSite s (siteOf (coreTile c))).st

/-- CYCLE of a core (R127): the clocks the panel has counted since the core's segment, or a rim core's module, came up, less those the core
did not receive; a core without power receives none. -/
def cycleNow (s : State) (c : Nat) : Word :=
  if !corePowered s c then 0
  else
    match segOf (coreTile c) with
    | some g => s.clocks - (getSeg s g).clock0
    | none => s.clocks - (getSite s (siteOf (coreTile c))).clock0

/-- CsrRead (R122, R123). A rim tile lies in no segment: what its segment CSRs read is open, and they keep nothing (log entry 68). -/
def csrRead (s : State) (c : Nat) (r : Running) (n : Nat) : Word × State :=
  let t := coreTile c
  let k := getCore s c
  let u := getTile s t
  if n == 0x000 then (setBits (pcsrRd s c r.wptr 0) 63 62 (b2n r.sm * 2 + b2n r.hp), s)
  else if n ≤ 0x00B then (pcsrRd s c r.wptr n, s)
  else if n == 0x100 then (word r.wptr, s)
  else if n == 0x101 then (placeOf c, s)
  else if n == 0x102 then (cycleNow s c + k.cycleOff, s)
  else if n == 0x103 then (k.instret, s)
  else if n == 0x104 then (s.time, s)
  else if n == 0x105 then (k.tslice, s)
  else if n == 0x106 then (k.fgwait, s)
  else if n == 0x107 then (k.opreq, s)
  else if n == 0x108 then (k.latmsg, s)
  else if n == 0x109 then (word r.rcb, s)
  else if n == 0x10A then (k.vidsel, s)
  else if n == 0x110 then (k.hpmctl, s)
  else if 0x118 ≤ n && n ≤ 0x11F then ((k.hpm[n - 0x118]?).getD 0, s)
  else if n == 0x180 then (k.tcause, s)
  else if n == 0x181 then (k.tval, s)
  else if n == 0x182 then (k.tpc, s)
  else if n == 0x183 then (k.tseq, s)
  else if n == 0x184 then (jrnlhd k, s)
  else if n == 0x200 then (word u.tkheld, s)
  else if n == 0x201 then (word u.tkneed, s)
  else if n == 0x202 then (pwrs s t (procClass s c r), s)
  else if n == 0x203 then (acstat s t, s)
  else if n == 0x204 then (word (u.gstall % 2 ^ 16 * 2 ^ 16 + u.guards.length % 32), s)
  else if n == 0x205 then (u.energy, s)
  else if n == 0x206 then (u.trigBase, s)
  else if n == 0x207 then (u.trigArm.setWidth 64, s)
  else if n == 0x280 then (u.tenant, s)
  else if n == 0x281 then (u.ptroot, s)
  else if n == 0x282 then (u.wrevtab, s)
  else
    match segOf t with
    | some g =>
      let q := getSeg s g
      if 0x300 ≤ n && n ≤ 0x30F then ((q.therm[n - 0x300]?).getD 0, s)
      else if n == 0x310 then (q.zenergy, s)
      else (word (q.free % 2 ^ 16 * 2 ^ 16 + q.pool % 2 ^ 16), s)
    | none => openTval s

/-- HPMCTL keeps no reserved code (R407). -/
def hpmctlOf (v : Word) : Word :=
  (List.range 8).foldl (fun a i => if bits v (8 * i + 7) (8 * i) ≤ 0x12 then a else setBits a (8 * i + 7) (8 * i) 0) v

/-- A write of TRIGARM (R127, R411): `set` are the bits the instruction writes as 1. -/
def writeTrigArm (s : State) (t : Nat) (r : Running) (v set : Word) : State :=
  let k := getTile s t
  let may := (List.range 32).filter fun i => r.sm || (r.rcb != 0 && trigOwner s t i == r.rcb)
  let arm := may.foldl (fun (a : BitVec 32) i => if bit v i then a ||| (1#32 <<< i) else a &&& ~~~(1#32 <<< i)) k.trigArm
  let mode := may.foldl (fun (a : BitVec 32) i =>
    if bit set i then (if r.sm then a ||| (1#32 <<< i) else a &&& ~~~(1#32 <<< i)) else a) k.trigSys
  modTile s t fun k => { k with trigArm := arm, trigSys := mode }

/-- CsrWrite (R122 to R127): read-only and zero fields keep their values. `set` are the bits written as 1. -/
def csrWrite (s : State) (c : Nat) (r : Running) (n : Nat) (v set : Word) : State :=
  let t := coreTile c
  if n ≤ 0x00B then pcsrWr s c r.wptr n (v &&& pcsrMask n)
  else if n == 0x102 then modCore s c fun k => { k with cycleOff := v - cycleNow s c }
  else if n == 0x103 then modCore s c fun k => { k with instret := v }
  else if n == 0x105 then modCore s c fun k => { k with tslice := word (max 1024 (bits v 31 0)) }
  else if n == 0x106 then modCore s c fun k => { k with fgwait := word (max 4096 (bits v 31 0)) }
  else if n == 0x107 then modCore s c fun k => { k with opreq := v &&& 7 }
  else if n == 0x10A then modCore s c fun k => { k with vidsel := v &&& 0x1FFF }
  else if n == 0x110 then modCore s c fun k => { k with hpmctl := hpmctlOf v }
  else if 0x118 ≤ n && n ≤ 0x11F then modCore s c fun k => { k with hpm := k.hpm.setIfInBounds (n - 0x118) v }
  else if n == 0x180 then modCore s c fun k => { k with tcause := v &&& 0x1FFFF }
  else if n == 0x181 then modCore s c fun k => { k with tval := v }
  else if n == 0x182 then modCore s c fun k => { k with tpc := v &&& 0xFFFFFFFFFFFF }
  else if n == 0x183 then modCore s c fun k => { k with tseq := v &&& 0xFFFFFFFF }
  else if n == 0x204 then modTile s t fun k => { k with gstall := bits v 31 16 }
  else if n == 0x205 then modTile s t fun k => { k with energy := v &&& 0x8000FFFFFFFFFFFF }
  else if n == 0x206 then modTile s t fun k => { k with trigBase := v &&& 0x3FFC01 }
  else if n == 0x207 then writeTrigArm s t r v set
  else if n == 0x280 then modTile s t fun k => { k with tenant := v &&& 0xFFF }
  else if n == 0x281 then modTile s t fun k => { k with ptroot := v &&& 0xFFFFFFFFFFE01 }
  else if n == 0x282 then modTile s t fun k => { k with wrevtab := v &&& 0xFFFFFFFFFC001 }
  else if n == 0x310 then
    (match segOf t with
     | some g => modSeg s g fun k => { k with zenergy := v &&& 0x8000FFFFFFFFFFFF }
     | none => s)
  else s

/-- Operation of a CSR instruction (R122). -/
inductive CsrOp where | read | write | set | clear
deriving DecidableEq, Repr

def csrCode : CsrOp → BitVec 2
  | .read => 0 | .write => 1 | .set => 2 | .clear => 3

/-- A CSR instruction (R122). The number of an absent CSR is not an instruction (R38): such a term raises ILLOP. -/
def csrInstr (op : CsrOp) (d a : Reg) (csr : BitVec 12) (s : State) : Host.Outcome State Fault Refusal :=
  onCore s fun c r =>
    let n := csr.toNat
    let pure_ := op == .read || (op != .write && a == 0)
    let w := (encCsr d a (csrCode op) csr).setWidth 64
    if !csrPresent csr then trapHere s r .illop w
    else if !csrGranted n r.sm (!pure_) then trapHere s r .priv w
    else
      let m := src s c r a
      let (old, s) := csrRead s c r n
      if pure_ then finish s c r d old
      else
        let new := match op with
          | .write => m
          | .set => old ||| m
          | _ => old &&& ~~~m
        let set := match op with
          | .write => m
          | .set => m
          | _ => 0
        finish (csrWrite s c r n new set) c r d old

/-- CSRR (R122). -/
def execCsrr (d : Reg) (csr : BitVec 12) (s : State) : Host.Outcome State Fault Refusal := csrInstr .read d 0 csr s
/-- CSRW (R122). -/
def execCsrw (d a : Reg) (csr : BitVec 12) (s : State) : Host.Outcome State Fault Refusal := csrInstr .write d a csr s
/-- CSRS (R122). -/
def execCsrs (d a : Reg) (csr : BitVec 12) (s : State) : Host.Outcome State Fault Refusal := csrInstr .set d a csr s
/-- CSRC (R122). -/
def execCsrc (d a : Reg) (csr : BitVec 12) (s : State) : Host.Outcome State Fault Refusal := csrInstr .clear d a csr s

/-! ### Tokens (R403) -/

/-- TKREQ (R403). -/
def execTkreq (d a : Reg) (s : State) : Host.Outcome State Fault Refusal :=
  onCore s fun c r =>
    if isRim (coreTile c) then trapOpen s r .far
    else
      let v := src s c r a
      if bits v 63 3 != 0 then trapHere s r .bound v
      else
        let need := classNeed (bits v 2 0)
        let cap := if r.rcb == 0 then 0xFFFF else rcbTokcap s r.rcb
        let s := modCore s c fun k => { k with request := some (need, r.rcb) }
        finish s c r d (word (min need cap * 2 ^ 16 + (getTile s (coreTile c)).tkheld))

/-- TKREL (R403). -/
def execTkrel (d : Reg) (s : State) : Host.Outcome State Fault Refusal :=
  onCore s fun c r =>
    if isRim (coreTile c) then trapOpen s r .far
    else
      let old := match (getCore s c).request with
        | some (n, _) => n
        | none => 0
      finish (modCore s c fun k => { k with request := none }) c r d (word old)

/-- TKSTAT (R403). -/
def execTkstat (d : Reg) (s : State) : Host.Outcome State Fault Refusal :=
  onCore s fun c r =>
    let t := coreTile c
    if isRim t then trapOpen s r .far
    else
      let k := getTile s t
      finish s c r d (word (k.tkheld % 2 ^ 16 + k.tkneed % 2 ^ 16 * 2 ^ 16 + (getSeg s (gridSeg t)).free % 2 ^ 16 * 2 ^ 32
        + tilePoint s t % 16 * 2 ^ 48 + tileCeiling s t % 16 * 2 ^ 52))

end Sys2Proof.Machine
end

