-- ==== Sys2Proof/Machine/Groups.lean ====
section
/-! DEFINITION. Collective groups: descriptors, membership and the tables of the copy engines (R371 to R376). -/

namespace Sys2Proof.Machine

/-- Serial arithmetic modulo 2^32 (R371). -/
def serLe (a b : Nat) : Bool := decide ((b + 2 ^ 32 - a % 2 ^ 32) % 2 ^ 32 < 2 ^ 31)
def serLt (a b : Nat) : Bool := serLe a b && a % 2 ^ 32 != b % 2 ^ 32

/-- A member entry of a descriptor. -/
structure Member where
  isIn : Bool
  lv : Bool
  panel : Nat
  tile : Nat
  core : Nat
  lseq : Nat
  jseq : Nat
  mbz : Bool
deriving DecidableEq, Repr

def gNmax (s : State) (d : Nat) : Nat := bits (dwAt s d) 28 16
def gGrp (s : State) (d : Nat) : Nat := bits (dwAt s d) 15 0
def gGen (s : State) (d : Nat) : Nat := bits (dwAt s (d + 8)) 63 32
def gHseq (s : State) (d : Nat) : Nat := bits (dwAt s (d + 8)) 31 0

def gMember (s : State) (d m : Nat) : Member :=
  let a := dwAt s (d + 0x40 + 16 * m)
  let b := dwAt s (d + 0x48 + 16 * m)
  ⟨bit a 63, bit a 62, bits a 47 40, bits a 29 16, bits a 1 0, bits b 63 32, bits b 31 0,
    bits a 61 48 != 0 || bits a 39 30 != 0 || bits a 15 2 != 0⟩

def gMembers (s : State) (d : Nat) : List (Nat × Member) := (List.range (min (gNmax s d) 4096)).map fun m => (m, gMember s d m)

/-- Two members name one core. -/
def sameCore (a b : Member) : Bool := a.panel == b.panel && a.tile == b.tile && a.core == b.core

/-- A malformed descriptor (R371). -/
def gMalformed (s : State) (d : Nat) : Bool :=
  let ms := (gMembers s d).filter (·.2.isIn)
  bits (dwAt s d) 63 29 != 0 || gNmax s d == 0 || decide (4096 < gNmax s d)
    || [2, 3, 4, 5, 6, 7].any (fun i => dwAt s (d + 8 * i) != 0) || (gMembers s d).any (·.2.mbz)
    || ms.any fun a => ms.any fun b => a.1 != b.1 && sameCore a.2 b.2

/-- Member `m` belongs to operation `q` (R372). -/
def belongs (m : Member) (q : Nat) : Bool := m.isIn && serLe m.jseq q && (!m.lv || serLt q m.lseq)

/-- Members of operation `q`, by ascending number. -/
def gMembersOf (s : State) (d q : Nat) : List Nat := ((gMembers s d).filter fun m => belongs m.2 q).map (·.1)

/-- A member is current (R374). -/
def isCurrent (s : State) (d : Nat) (m : Member) : Bool := m.isIn && (!m.lv || serLt (gHseq s d) m.lseq)

/-- The panel's own number (R371, R385). -/
def ownPanel (s : State) : Nat := s.pmc.panelid % 256

/-- The entry that names a core of this panel. -/
def memberNamed (s : State) (d c : Nat) : Option (Nat × Member) :=
  (gMembers s d).find? fun m => m.2.panel == ownPanel s && m.2.tile == coreTile c && m.2.core == coreIdx c

/-- Entry of a copy engine's table for a group and a core (R373). -/
def groupEntry (s : State) (t grp c : Nat) : Option GroupEnt := (getTile s t).groups.find? fun g => g.grp == grp && g.core == coreIdx c

/-- Number of members that a collective's group has for an operation, as its descriptor stands (R276). -/
def groupSize (s : State) (t grp c q : Nat) : Nat :=
  match groupEntry s t grp c with
  | some g => (gMembersOf s g.desc q).length
  | none => 0

end Sys2Proof.Machine
end

