-- ==== Sys2Proof/Machine/NumFmt.lean ====
section
/-! DEFINITION. The engines' number formats (R56 to R68), containers and scale words (R70 to R76), the accumulation order (R79)
and conversions into the narrow formats (R66, R67, R323). Every value read is an exact `FV`. -/

namespace Sys2Proof.Machine

/-! ### Format codes (R56) -/

/-- Element width in bits, 0 for a reserved code. -/
def fmtWidth (c : Nat) : Nat :=
  match c with
  | 0 => 32 | 1 => 16 | 2 => 16 | 3 => 64 | 4 => 8 | 5 => 32 | 6 => 16 | 7 => 64 | 8 => 8 | 9 => 6 | 10 => 4 | _ => 0

/-- Bytes of an element of a plain format. -/
def fmtBytes (c : Nat) : Nat := fmtWidth c / 8

def isContainer (c : Nat) : Bool := 8 ≤ c && c ≤ 10
def isIntFmt (c : Nat) : Bool := 4 ≤ c && c ≤ 7
def isIeee (c : Nat) : Bool := c < 4
def isPlain (c : Nat) : Bool := c < 8

/-- Elements of a container. -/
def contElems (c : Nat) : Nat := match c with | 8 => 30 | 9 => 40 | _ => 60

/-- The IEEE format of a code. -/
def ieeeOf (c : Nat) : Fmt := match c with | 0 => fp32 | 1 => bf16 | 2 => fp16 | _ => fp64

/-! ### Exact values -/

def fvZero : FV := .fin false 0 0

/-- A signed dyadic as an integer numerator and exponent. -/
def fvInt (z : Int) : FV := .fin (decide (z < 0)) z.natAbs 0

/-- The product of two values, exactly; zero times an infinity is a NaN. -/
def fvMul (a b : FV) : FV :=
  match a, b with
  | .nan _, _ => .nan false
  | _, .nan _ => .nan false
  | .inf s, .inf t => .inf (s != t)
  | .inf s, .fin t m _ => if m == 0 then .nan false else .inf (s != t)
  | .fin s m _, .inf t => if m == 0 then .nan false else .inf (s != t)
  | .fin s m e, .fin t n g => .fin (s != t) (m * n) (e + g)

def fvAbs : FV → FV
  | .nan s => .nan s
  | .inf _ => .inf false
  | .fin _ m e => .fin false m e

/-- Exact sum; infinities of both signs give a NaN, an exact zero is +0 unless both are −0. -/
def fvAdd (a b : FV) : FV :=
  match a, b with
  | .nan _, _ => .nan false
  | _, .nan _ => .nan false
  | .inf s, .inf t => if s == t then .inf s else .nan false
  | .inf s, _ => .inf s
  | _, .inf t => .inf t
  | .fin s m e, .fin t n g =>
    let (z, x) := dyAdd s m e t n g
    if z = 0 then .fin (m == 0 && n == 0 && s && t) 0 0 else .fin (decide (z < 0)) z.natAbs x

def fvFinite : FV → Bool
  | .fin _ _ _ => true
  | _ => false

def fvIsZero : FV → Bool
  | .fin _ m _ => m == 0
  | _ => false

/-- Round to a format (R60). -/
def fvRound (f : Fmt) (v : FV) : FV := fDecode f (fConvert f .rne v).1

/-- The greater by value, −0 below +0; any NaN gives a NaN (R277, R318). -/
def fvMax (a b : FV) : FV := if isNan a || isNan b then .nan false else if fBelow a b then b else a
def fvMin (a b : FV) : FV := if isNan a || isNan b then .nan false else if fBelow b a then b else a

/-- An exact value as an integer, rounded to nearest even and limited to [lo, hi]; NaN gives 0 (R60). -/
def fvToInt (lo hi : Int) (v : FV) : Int :=
  match v with
  | .nan _ => 0
  | .inf s => if s then lo else hi
  | .fin s m e => max lo (min hi (fToInt .rne s m e).1)

/-! ### Tapered formats (R62) -/

/-- Length of the run of bits equal to `b` from bit `i − 1` downwards. -/
def runLen (m : Nat) (b : Nat) : Nat → Nat
  | 0 => 0
  | i + 1 => if m / 2 ^ i % 2 == b then 1 + runLen m b i else 0

/-- DecodeTapered of R62: `w` is the width of the magnitude field. -/
def decodeTapered (code w eb : Nat) : FV :=
  let s := code / 2 ^ w % 2 == 1
  let m := code % 2 ^ w
  if m == 0 then (if s then .nan false else fvZero)
  else
    let b := m / 2 ^ (w - 1) % 2
    let k := runLen m b w
    let reg : Int := if b == 1 then (k : Int) - 1 else -(k : Int)
    let rest := w - k - 1
    let (e, nb) := if eb == 1 && 1 ≤ rest then (m / 2 ^ (rest - 1) % 2, rest - 1) else (0, rest)
    let x : Int := (if eb == 1 then 2 * reg else reg) + (e : Int)
    .fin s (2 ^ nb + m % 2 ^ nb) (x - (nb : Int))

/-- Field width and exponent bits of a tapered code. -/
def taperedShape (c : Nat) : Nat × Nat := if c == 8 then (7, 1) else (5, 0)

/-- Decode an element pattern of any format (R58, R61, R62, R65). -/
def elemValue (c v : Nat) : FV :=
  if isIeee c then fDecode (ieeeOf c) v
  else if c == 8 || c == 9 then decodeTapered v (taperedShape c).1 (taperedShape c).2
  else fvInt (sx v (fmtWidth c))

/-- Encode a value in a plain format (R59, R60). -/
def elemPattern (c : Nat) (v : FV) : Nat :=
  if isIeee c then (fConvert (ieeeOf c) .rne v).1
  else
    let w := fmtWidth c
    patI (fvToInt (-(2 ^ (w - 1) : Nat)) ((2 ^ (w - 1) : Nat) - 1) v) w

/-! ### Conversion into the narrow formats (R66, R67) -/

/-- Compare m · 2^e with n · 2^g: −1, 0, 1. -/
def dyCmp (m : Nat) (e : Int) (n : Nat) (g : Int) : Int :=
  let z := (dyAdd false m e true n g).1
  if z < 0 then -1 else if z = 0 then 0 else 1

/-- Magnitude of field `f` of a tapered format. -/
def tapMag (c f : Nat) : Nat × Int :=
  match decodeTapered f (taperedShape c).1 (taperedShape c).2 with
  | .fin _ m e => (m, e)
  | _ => (0, 0)

/-- Code of x / sc in T8 or T6 (R66); `sc` is a positive scale. -/
def encodeTapered (c : Nat) (x : FV) (scm : Nat) (sce : Int) : Nat :=
  let w := (taperedShape c).1
  match x with
  | .nan _ => 2 ^ w
  | .inf _ => 2 ^ w
  | .fin s m e =>
    if m == 0 then 0
    else
      let top := 2 ^ w - 1
      let le (f : Nat) : Bool := let (n, g) := tapMag c f; dyCmp (n * scm) (g + sce) m e != 1
      let f := ((List.range top).map (· + 1)).foldl (fun best k => if le k then k else best) 0
      let f :=
        if f == 0 then 1
        else if f == top then top
        else
          let (n1, g1) := tapMag c f
          let (n2, g2) := tapMag c (f + 1)
          let (sum, g) := dyAdd false n1 g1 false n2 g2
          let cmp := dyCmp (2 * m) e (sum.natAbs * scm) (g + sce)
          if cmp < 0 then f else if cmp = 0 then (if f % 2 == 0 then f else f + 1) else f + 1
      f + (if s then 2 ^ w else 0)

/-- Numerator over denominator rounded to nearest even. -/
def rneDiv (n d : Nat) : Nat :=
  let q := n / d
  let r := n % d
  if d < 2 * r || (2 * r == d && q % 2 == 1) then q + 1 else q

/-- Code of x / sc in I4 (R67). -/
def encodeI4 (x : FV) (scm : Nat) (sce : Int) : Nat :=
  match x with
  | .nan _ => 0
  | .inf s => if s then 8 else 7
  | .fin s m e =>
    let d := e - sce
    let q := if 0 ≤ d then rneDiv (m * 2 ^ d.toNat) scm else rneDiv m (scm * 2 ^ (-d).toNat)
    if s then (if 8 ≤ q then 8 else (16 - q) % 16) else min q 7

/-- Code of x / sc in a container format; a zero scale writes code 0 (R323). -/
def encodeNarrow (c : Nat) (x : FV) (scm : Nat) (sce : Int) : Nat :=
  if scm == 0 then 0 else if c == 10 then encodeI4 x scm sce else encodeTapered c x scm sce

/-! ### Scale words (R72 to R74) -/

/-- Column codes c(0) to c(23): the 5-bit values with at least two bits set, 30 and 31 unused (R73). -/
def colCodes : List Nat := [3, 5, 6, 7, 9, 10, 11, 12, 13, 14, 15, 17, 18, 19, 20, 21, 22, 23, 24, 25, 26, 27, 28, 29]

/-- XOR of the codes of the data bits that are set. -/
def colXor (d : Nat) : Nat :=
  (List.range 24).foldl (fun x i => if d / 2 ^ i % 2 == 1 then x ^^^ (colCodes.getD i 0) else x) 0

def parityOf (w v : Nat) : Nat := (List.range w).foldl (fun p i => (p + v / 2 ^ i) % 2) 0

/-- CHK of a scale word's data bits (R73). -/
def scaleChk (d : Nat) : Nat :=
  let low := colXor d
  low + 32 * ((parityOf 24 d + parityOf 5 low) % 2)

/-- The value of a scale. -/
inductive Scale where
  | zero
  | nar
  | fin (m : Nat) (e : Int)
deriving DecidableEq, Repr

def scaleOne : Scale := .fin 1 0

/-- Outcome of the check of R74: data bits, and whether an error was corrected; none when uncorrectable. -/
def scaleCheck (v : Nat) : Option (Nat × Bool) :=
  let d := v % 2 ^ 24
  let chk := v / 2 ^ 24 % 64
  let s := colXor d ^^^ (chk % 32)
  let p := (parityOf 24 d + parityOf 6 chk) % 2
  if p == 0 then (if s == 0 then some (d, false) else none)
  else if s == 30 || s == 31 then none
  else
    match colCodes.findIdx? (· == s) with
    | some i => some (d ^^^ 2 ^ i, true)
    | none => some (d, true)

/-- GEN of a scale word's data bits. -/
def scaleGen (d : Nat) : Nat := d / 2 ^ 20 % 16

/-- The scale that the data bits name (R72). -/
def scaleValue (d : Nat) : Scale :=
  let e : Nat := d / 2 ^ 12 % 256
  if e == 0 then .zero else if e == 255 then .nar else .fin (4096 + d % 4096) ((e : Int) - 139)

/-- An element under its scale, exactly (R68, R79): zero under a zero scale, NaR under a NaR scale. -/
def scaled (sc : Scale) (v : FV) : FV :=
  match sc with
  | .zero => fvZero
  | .nar => .nan false
  | .fin m e => fvMul v (.fin false m e)

/-- A scale word from E, M and GEN (R72, R73). -/
def scaleWord (e m gen : Nat) : Nat :=
  let d := gen % 16 * 2 ^ 20 + e * 2 ^ 12 + m
  scaleChk d * 2 ^ 24 + d

/-! ### Containers (R70) -/

/-- Payload of a container's 256 bits. -/
def contPayload (v : Nat) : Nat := v / 2 ^ 16 % 2 ^ 240

def contPar (payload : Nat) : Nat :=
  (List.range 8).foldl (fun p j => p + 2 ^ j * parityOf 30 (payload / 2 ^ (30 * j))) 0

/-- Elements of a payload. -/
def contValues (c payload : Nat) : List FV :=
  (List.range (contElems c)).map fun i => elemValue c (payload / 2 ^ (fmtWidth c * i) % 2 ^ fmtWidth c)

/-- A container from its element codes (R70, R323). -/
def contBits (c gen : Nat) (codes : List Nat) : Nat :=
  let payload := (codes.zipIdx).foldl (fun p (x : Nat × Nat) => p + x.1 * 2 ^ (fmtWidth c * x.2)) 0
  payload * 2 ^ 16 + contPar payload * 256 + gen % 16 * 16 + c

/-! ### Format descriptors (R75, R76) -/

def descFmt (d : Word) : Nat := bits d 4 0
def descSmode (d : Word) : Nat := bits d 6 5
def descSptr (d : Word) : Nat := bits d 63 16

/-- R57 and R76: a reserved code or a malformed descriptor. -/
def descBad (d : Word) : Bool :=
  decide (11 ≤ descFmt d) || bits d 15 7 != 0 || descSmode d == 3
    || (descSmode d != 0 && (!isContainer (descFmt d) || descSptr d % 4 != 0))

/-! ### Granule sums (R79) -/

/-- Exact sum of a list of values (R79): NaN, opposite infinities, an infinity, or the exact number. -/
def fvSum (l : List FV) : FV :=
  if l.any isNan then .nan false
  else
    let pos := l.any fun v => v == .inf false
    let neg := l.any fun v => v == .inf true
    if pos && neg then .nan false
    else if pos then .inf false
    else if neg then .inf true
    else l.foldl fvAdd fvZero

/-- A granule's sum rounded once; an exact zero is +0.0. -/
def granuleSum (f : Fmt) (l : List FV) : FV :=
  let x := fvSum l
  if fvIsZero x then fvZero else fvRound f x

def dotProducts (a b : List FV) : List FV := (a.zip b).map fun p => fvMul p.1 p.2

/-- Rounded addition with the canonical NaN. -/
def addRne (f : Fmt) (a b : FV) : FV := fDecode f (fAddV f .rne a b).1

/-- AddGranule of R79 on FP32 values. -/
def addGranule (acc : FV) (a b : List FV) : FV := addRne fp32 acc (granuleSum fp32 (dotProducts a b))

/-- AddGranule for integer formats: the low 32 bits (R61, R79). -/
def addGranuleInt (acc : Int) (a b : List FV) : Int :=
  sx (patI (acc + ((a.zip b).foldl (fun z p => z + fvToInt (-(2 ^ 63)) (2 ^ 63) (fvMul p.1 p.2)) 0)) 32) 32

/-- Pattern of an FP32 value. -/
def pat32 (v : FV) : Nat := (fConvert fp32 .rne v).1

end Sys2Proof.Machine
end

