-- ==== Sys2Proof/Machine/JobIO.lean ====
section
/-! DEFINITION. What a job's granule can do: accesses of an engine to memory (R153, R160, R264, R270, R271, R303), elements and
containers (R70 to R76), accumulator tiles and the B store (R139, R281). -/

namespace Sys2Proof.Machine

/-- Why a granule does not complete. -/
inductive JErr where
  /-- a job fault, by its code (R271) -/
  | fault (c : Nat)
  /-- a page fault (R167): access kind 4 read, 5 write -/
  | page (tenant va kind : Nat) (malformed : Bool)
  /-- a busy accumulator tile or a B store in use holds the access (R141, R160) -/
  | held
  /-- a write held at its port, with its bytes (R264) -/
  | port (pa n : Nat)
  /-- a collective waits for a peer (R266) -/
  | peer
  /-- the context map is locked: the job is not chosen until it is free (R359) -/
  | locked (m : Nat)
deriving DecidableEq, Repr

/-- Steps of a granule. -/
abbrev JM := ExceptT JErr (StateM State)

/-- The engine that runs a granule: the job's key, its tile, the job as the granule began, whether it reads again containers that the job
has read before (R78), and staged bytes that it reads in place of memory (R312). -/
structure Eng where
  key : Nat
  t : Nat
  j : Job
  again : Bool
  staged : List (Nat × List Byte)
deriving DecidableEq, Repr

def engOf (key : Nat) (j : Job) : Eng := ⟨key, key / 32 / 4, j, false, []⟩

/-- The same engine, where it reads containers again if `b` holds. -/
def Eng.rereads (e : Eng) (b : Bool) : Eng := { e with again := e.again || b }

def jFault {α : Type} (c : Nat) : JM α := throw (.fault c)
def badCmd : Nat := 1
def badFmt : Nat := 2

/-- End the job with a fault where `b` holds. -/
def jCheck (b : Bool) (c : Nat) : JM Unit := if b then jFault c else pure ()

/-- Copy and collective jobs run on queue 0 (R261). -/
def Eng.copy (e : Eng) : Bool := e.key / 32 % 4 == 0

/-- Spaces that an engine reaches (R274, and the kind engines' space 0). -/
def engReaches (e : Eng) (pa : Nat) : Bool :=
  match spaceOf pa with
  | 0 => true
  | 8 => e.copy
  | 4 => e.copy && isRim e.t
  | 1 => e.copy && e.j.sm
  | 2 => e.copy && e.j.sm
  | _ => false

/-- The router at the home admits the job's messages (R382). -/
def engAdmitted (s : State) (e : Eng) (pa : Nat) : Bool :=
  match homeTile pa with
  | some u => u == e.t || admits s u e.j.tenant
  | none => true

/-- An address that the job may not reach (R271, FAR). -/
def engFar (s : State) (e : Eng) (pa : Nat) : Bool :=
  !engReaches e pa || neverPopulated (isDark s) pa || holeCheck s e.t pa != .clear || !engAdmitted s e pa

/-- Physical address by the job's translation, before the checks of what it may reach. -/
def engTranslate (e : Eng) (va : Nat) (write : Bool) : JM Nat := do
  jCheck (decide (2 ^ 48 ≤ va)) 5
  let s ← get
  match jobSpace e.j with
  | none => pure va
  | some tenant =>
    match tileTranslate s e.t tenant va with
    | (s1, .leaf l) => do
      set s1
      jCheck (permDenied e.j.sm (if write then .write else .read) l.flags) 5
      pure (l.pbase + (va - l.vbase))
    | (s1, .fault m) => do
      set s1
      throw (.page tenant va (if write then 5 else 4) m)
    | (s1, .ecc) => do
      set s1
      jFault 9

/-- Physical address of a byte that the job reads or writes. -/
def engPa (e : Eng) (va : Nat) (write : Bool) : JM Nat := do
  let pa ← engTranslate e va write
  let s ← get
  jCheck (engFar s e pa) 5
  pure pa

/-- A byte of host memory (log entry 4). -/
def hostGet (s : State) (pa : Nat) : Byte := (amGet s.hosts.mem pa).getD (Config.hostByte pa)

def hostPut (s : State) (pa : Nat) (b : List Byte) : State :=
  { s with hosts := { s.hosts with mem := (b.zipIdx).foldl (fun (m : AMap Byte) (x : Byte × Nat) => amSet m (pa + x.2) x.1) s.hosts.mem } }

/-- Commands that use the top-tier store of their tile: MMA, MMAP, BLOAD, ATTN, ADEC. -/
def usesTopStore (j : Job) : Bool := [0x10, 0x11, 0x12, 0x30, 0x31].contains (cEop j.cmd)

/-- A system copy of spaces 1 and 2 waits for the jobs that use the tile's file or store (R141, R149, R160). R160 speaks of a copy to the
store: the model holds one that reads it as well (log entry 87). -/
def storeInUse (s : State) (pa n : Nat) (write : Bool) : Bool :=
  match spaceOf pa with
  | 1 => (List.range ((pa + n - 1) / 16384 - pa / 16384 + 1)).any fun i =>
    let a := spaceOff (pa / 16384 * 16384) + 16384 * i
    let u := a / 0x200000
    let k := a % 0x200000 / 16384
    accBusySys s u k || (write && accHeld s u k)
  | 2 => (tileJobs s (spaceOff pa / 0x800000)).any fun p => usesTopStore p.2
  | _ => false

/-- Read `n` bytes of one page. -/
def engReadPage (e : Eng) (va n : Nat) : JM (List Byte) := do
  let pa ← engPa e va false
  let s ← get
  if spaceOf pa == 8 then pure ((List.range n).map fun i => hostGet s (pa + i))
  else if storeInUse s pa n false then throw .held
  else if uncorrectable s pa n then jFault 9
  else
    set (countCorrected s pa n)
    pure (bytesAt s pa n)

/-- Read `n` bytes at a virtual address, where they are not staged. -/
def engRead (e : Eng) (va n : Nat) : JM (List Byte) :=
  match e.staged.find? fun x => x.1 == va && x.2.length == n with
  | some x => pure x.2
  | none => do
    let parts ← (pagePieces va n).mapM fun p => engReadPage e p.1 p.2
    pure parts.flatten

/-- Read `n` bytes as a number, the lowest address least significant. -/
def engReadN (e : Eng) (va n : Nat) : JM Nat := do
  let b ← engRead e va n
  pure (ofBytes b)

/-- The checks of one page's write: its physical address. Marked words refuse region mode with FAR (R92). -/
def engWritePa (e : Eng) (va n : Nat) : JM Nat := do
  let pa ← engPa e va true
  let s ← get
  let marked := !e.j.sm && inTlm pa && (List.range ((pa + n - 1) / 8 - pa / 8 + 1)).any fun i => markAt s ((pa / 8 + i) * 8) == some .ctrl
  jCheck marked 5
  if portHolds s pa n (.job e.key) e.j.sm then throw (.port pa n)
  if storeInUse s pa n true then throw .held
  pure pa

/-- The physical pieces of a list of writes, all checked before any is performed. -/
def engPlace (e : Eng) (ws : List (Nat × List Byte)) : JM (List (Nat × List Byte)) := do
  let parts ← ws.mapM fun w => do
    let ps ← (pagePieces w.1 w.2.length).mapM fun p => do
      let pa ← engWritePa e p.1 p.2
      pure (pa, (w.2.drop (p.1 - w.1)).take p.2)
    pure ps
  pure parts.flatten

/-- Words that a job's write changes keep their old values for plain loads (R189; log entry 73). -/
def keepOld (s s' : State) (key pa n : Nat) : State :=
  let s' := tick s'
  let home := match jobAt s key with
    | some j => if cCmpl j.cmd then (match peekPa s (key / 128) j (cCwa j.cmd).toNat with | some a => homeTile a | none => none) else none
    | none => none
  let news := ((dwordsOf pa n).filter fun a => dwAt s a != dwAt s' a).map fun a => (⟨a, dwAt s a, s'.order, key, home, none⟩ : JobOld)
  { s' with jobOld := news ++ s.jobOld }

/-- Bytes performed at their home by the job in entry `key`, of region `r`. -/
def performBytes (s : State) (key r pa : Nat) (b : List Byte) : State :=
  if spaceOf pa == 8 then hostPut (intervalTouch s r pa) pa b
  else
    let s' := performWrite s pa b.length (ofBytes b) none false r
    if spaceOf pa == 0 || spaceOf pa == 4 then keepOld s s' key pa b.length else s'

/-- The writes of a granule, in order, after all of them have been checked (R303): a granule that fails has written nothing. -/
def engWriteAll (e : Eng) (ws : List (Nat × List Byte)) : JM Unit := do
  let ps ← engPlace e ws
  modify fun s => ps.foldl (fun s p => performBytes s e.key e.j.rcb p.1 p.2) s

/-- Keep a change of the job's own fields. -/
def modMine (e : Eng) (f : Job → Job) : JM Unit := modify fun s => modJob s e.key f

/-! ### Elements -/

/-- `n` elements of a plain format from `va`. -/
def readPlain (e : Eng) (c va n : Nat) : JM (List FV) := do
  let w := fmtBytes c
  let b ← engRead e va (n * w)
  pure ((List.range n).map fun i => elemValue c (ofBytes ((b.drop (i * w)).take w)))

/-- Element patterns of a plain format. -/
def readPatterns (e : Eng) (c va n : Nat) : JM (List Nat) := do
  let w := fmtBytes c
  let b ← engRead e va (n * w)
  pure ((List.range n).map fun i => ofBytes ((b.drop (i * w)).take w))

/-- Bytes of encoded elements of a plain format. -/
def encodePlain (c : Nat) (vs : List FV) : List Byte := vs.flatMap fun v => bytesOf (fmtBytes c) (elemPattern c v)

/-- The scale of a container: its word, corrected, and its value, with R74's check; none without scale words. -/
def readScale (e : Eng) (smode addr : Nat) : JM (Option Nat × Scale) := do
  if smode == 0 then pure (none, scaleOne)
  else
    let v ← engReadN e addr 4
    match scaleCheck v with
    | none => jFault 4
    | some (d, fixed) =>
      if fixed then modify fun s => addCe s e.t
      pure (some d, scaleValue d)

/-- A pairing of the container `v` at `va` with the scale word `d` of another generation is counted and kept. A pairing that the job has
counted already is not counted again when the engine reads the container once more; a new one is (R78). -/
def notePair (e : Eng) (va v d : Nat) : JM Unit := do
  let s ← get
  let seen := e.again && ((jobAt s e.key).map fun j => j.paired.contains (va, v, d)) == some true
  if scaleGen d != v / 16 % 16 && !seen then
    modMine e fun j => { j with scalegen := min 255 (j.scalegen + 1), paired := (va, v, d) :: j.paired }

/-- The elements of the container `v` at `va`, whose scale word is at `saddr` (R70, R71): under their scale, exactly. -/
def checkCont (e : Eng) (c smode va v saddr : Nat) : JM (List FV) := do
  jCheck (v % 16 != c) 3
  let payload := contPayload v
  jCheck (contPar payload != v / 256 % 256) 4
  let (word, sc) ← readScale e smode saddr
  match word with
  | some d => notePair e va v d
  | none => pure ()
  pure ((contValues c payload).map (scaled sc))

/-- The scale word of container `j` of an operand (R76). -/
def scaleAddr (d : Word) (j : Nat) : Nat := if descSmode d == 1 then descSptr d + 4 * j else descSptr d

/-- Container `j` of an operand described by a descriptor. -/
def readCont (e : Eng) (d : Word) (va j : Nat) : JM (List FV) := do
  let v ← engReadN e va 32
  checkCont e (descFmt d) (descSmode d) va v (scaleAddr d j)

/-- `n` elements of a row of containers beginning at `va`, whose first container has index `j`. -/
def readContRow (e : Eng) (d : Word) (va j n : Nat) : JM (List FV) := do
  let per := contElems (descFmt d)
  let cs ← (List.range ((n + per - 1) / per)).mapM fun i => readCont e d (va + 32 * i) (j + i)
  pure (cs.flatten.take n)

/-! ### The accumulator file and the B store -/

/-- Address of element (i, c) of accumulator tile `k` (R139). -/
def accElem (t k i c : Nat) : Nat := accBase t + k * 16384 + i * 256 + 4 * c

/-- The 32 bits of an accumulator element; an uncorrectable word ends the job. -/
def readAcc (e : Eng) (k i c : Nat) : JM Nat := do
  let s ← get
  let pa := accElem e.t k i c
  if uncorrectable s pa 4 then jFault 9
  else
    set (countCorrected s pa 4)
    pure (rdN s pa 4)

def writeAcc (e : Eng) (k i c v : Nat) : JM Unit := modify fun s => performWrite s (accElem e.t k i c) 4 v none false e.j.rcb

/-- The block of an accumulator tile, row by row. -/
def readBlock32 (e : Eng) (k m n : Nat) : JM (List Nat) :=
  ((List.range m).flatMap fun i => (List.range n).map fun c => (i, c)).mapM fun p => readAcc e k p.1 p.2

def writeBlock32 (e : Eng) (k m n : Nat) (vs : List Nat) : JM Unit :=
  modify fun s => ((((List.range m).flatMap fun i => (List.range n).map fun c => (i, c)).zip vs).foldl
    (fun s p => performWrite s (accElem e.t k p.1.1 p.1.2) 4 p.2 none false e.j.rcb) s)

/-- The element type of accumulator tile `k`: INT32 (R140). -/
def accIsInt (s : State) (t k : Nat) : Bool := (getTile s t).accType.getLsbD (k / 16)

def accLiveTile (s : State) (t k : Nat) : Bool := decide (k < (getTile s t).accLive)

/-- Address in the B store of a slice's byte (R281, R152). -/
def bStore (t slice off : Nat) : Nat := spaceBase 2 + t * 0x800000 + slice * 0x20000 + off

def readB (e : Eng) (slice off n : Nat) : JM (List Byte) := do
  let s ← get
  let pa := bStore e.t slice off
  if uncorrectable s pa n then jFault 9
  else
    set (countCorrected s pa n)
    pure (bytesAt s pa n)

end Sys2Proof.Machine
end

