-- ==== Sys2Proof/Machine/JobShape.lean ====
section
/-! DEFINITION. What a command's fields name: guarded ranges (R264, R275, R276, R283, R290 to R299, R310 to R326), ranges written
and read (R302), accumulator tiles (R141) and B-store ranges (R280). ENQ reads these fields and checks nothing (R263). -/

namespace Sys2Proof.Machine

/-- Ranges are pairs of a start and a length. -/
abbrev Ranges := List (Nat × Nat)

def span (a n : Nat) : Ranges := if n == 0 then [] else [(a, n)]

/-- The interval that covers `n` rows of `len` bytes. -/
def rows (a n stride len : Nat) : Ranges := if n == 0 || len == 0 then [] else [(a, (n - 1) * stride + len)]

/-- The same with a signed stride. -/
def rowsS (a n : Nat) (stride : Int) (len : Nat) : Ranges :=
  if n == 0 || len == 0 then []
  else
    let last : Int := (a : Int) + ((n - 1 : Nat) : Int) * stride
    let lo := (min (a : Int) last).toNat
    let hi := (max (a : Int) last).toNat + len
    [(lo, hi - lo)]

def idxBytes (iw : BitVec 1) : Nat := if iw = 1 then 8 else 4

/-- Read index `i` of an index array (R275, R296). -/
def readIdx (e : Eng) (idx : Nat) (iw : BitVec 1) (i : Nat) : JM Nat := engReadN e (idx + i * idxBytes iw) (idxBytes iw)

/-- Bytes of `n` elements from a row's start. -/
def elemBytes (c n : Nat) : Nat :=
  if isContainer c then 32 * ((n + contElems c - 1) / contElems c) else n * fmtBytes c

/-- Scale words of `n` containers under a descriptor (R76). -/
def scaleBytes (d : Word) (n : Nat) : Ranges :=
  match descSmode d with
  | 1 => span (descSptr d) (4 * n)
  | 2 => span (descSptr d) 4
  | _ => []

/-- Containers of `n` elements. -/
def contCount (c n : Nat) : Nat := (n + contElems c - 1) / contElems c

/-! ### The attention descriptor (R305) -/

structure Adesc where
  map : Nat
  rq : Nat
  hg : Nat
  dh : Nat
  sc : Nat
  ostride : Nat
  qstride : Nat
  win : Nat
  bad : Bool
deriving DecidableEq, Repr

/-- The fields of the descriptor's 64 bytes. -/
def adescOf (v : Nat) : Adesc :=
  let w (i : Nat) : Word := word (v / 2 ^ (64 * i) % 2 ^ 64)
  let dh := bits (w 1) 41 33
  ⟨bits (w 0) 47 0, bits (w 1) 47 45 + 1, bits (w 1) 44 42 + 1, dh, bits (w 1) 31 0, bits (w 2) 47 24, bits (w 2) 23 0, bits (w 3) 23 0,
    bits (w 0) 63 48 != 0 || bits (w 1) 63 48 != 0 || bit (w 1) 32 || bits (w 2) 63 48 != 0 || bits (w 3) 63 24 != 0
      || v / 2 ^ 256 != 0 || dh % 2 == 1 || decide (dh < 2) || decide (256 < dh)⟩

/-- Query heads, NH. -/
def Adesc.nh (d : Adesc) : Nat := d.hg * d.rq

/-- Bytes of a row of `h` heads in format `c` (R306, R310). -/
def headBytes (c h dh : Nat) : Nat := if isContainer c then 32 * h * contCount c dh else h * dh * fmtBytes c

/-! ### Reading a descriptor at capture -/

/-- Physical pieces of ranges, of the pages that translate. -/
def peekRanges (s : State) (t : Nat) (j : Job) (rs : Ranges) : Ranges :=
  rs.flatMap fun r => (pagePieces r.1 r.2).filterMap fun p => (peekPa s t j p.1).map fun pa => (pa, p.2)

/-- Pieces of ranges whose pages do not translate yet (log entry 27). -/
def latePieces (s : State) (t : Nat) (j : Job) (rs : Ranges) : Ranges :=
  rs.flatMap fun r => (pagePieces r.1 r.2).filter fun p => decide (p.1 < 2 ^ 48) && (peekPa s t j p.1).isNone

/-- The ADESC of an attention command as it stands at the capture. -/
def peekAdesc (s : State) (t : Nat) (j : Job) (va : Nat) : Option Adesc :=
  match peekPa s t j va with
  | some pa => if pa % 64 == 0 && inTlm pa then some (adescOf (rdN s pa 64)) else none
  | none => none

/-! ### Groups -/

/-- Members of a group as its descriptor's first words tell them (R372). -/
def popCount (w v : Nat) : Nat := (List.range w).countP fun i => v / 2 ^ i % 2 == 1

/-! ### Ranges by command -/

/-- The formats captured with a job. -/
def fa (j : Job) : Nat := descFmt j.fmta
def fb (j : Job) : Nat := descFmt j.fmtb
def fc (j : Job) : Nat := descFmt j.fmtc

/-- Bytes of a granule of one row or column (R283). -/
def granBytes (c : Nat) : Nat := if isContainer c then 32 else 32 * fmtBytes c

/-- Elements of one source of an elementwise command: all, or one under BS. -/
def eltRange (d : Word) (a n : Nat) : Ranges := span a (elemBytes (descFmt d) n)

/-- Guarded ranges of a captured command; `nm` is the member count of a collective's group. -/
def guardRanges (s : State) (t nm : Nat) (j : Job) : Ranges :=
  let w := j.cmd
  match cEop w with
  | 0x01 => let c := cpyOf w; span c.src.toNat c.len.toNat
  | 0x02 => let c := cpy2Of w; rowsS c.src.toNat c.nrows.toNat c.sstride.toInt c.rowlen.toNat
  | 0x03 => let c := gathOf w; span c.idx.toNat (c.nidx.toNat * idxBytes c.iw)
  | 0x04 => let c := scatOf w; span c.idx.toNat (c.nidx.toNat * idxBytes c.iw) ++ span c.src.toNat (c.nidx.toNat * c.rowlen.toNat)
  | 0x10 =>
    let c := mmaOf w
    let m := c.m1.toNat + 1
    rows c.aaddr.toNat m c.astride.toNat (c.g.toNat * granBytes (fa j))
      ++ scaleBytes j.fmta (m * c.g.toNat) ++ scaleBytes j.fmtb ((c.n1.toNat + 1) * c.g.toNat)
  | 0x11 => let c := mmapOf w; rows c.aaddr.toNat (c.m1.toNat + 1) c.astride.toNat (32 * c.g.toNat)
  | 0x12 => let c := bloadOf w; rows c.src.toNat (c.n1.toNat + 1) c.sstride.toNat (32 * c.len32.toNat)
  | 0x13 => let c := mredOf w; if c.mmode = 1 then rows c.maddr.toNat (c.m1.toNat + 1) c.mstride.toNat (4 * (c.n1.toNat + 1)) else []
  | 0x20 => span (spmmOf w).smd.toNat 64
  | 0x21 =>
    let c := sddmmOf w
    let rb := c.g.toNat * granBytes (fa j)
    span c.smd.toNat 64 ++ span (c.paddr.toNat + c.row0.toNat * rb) ((c.m1.toNat + 1) * rb)
  | 0x22 => let c := spgathOf w; span c.idx.toNat (c.nidx.toNat * idxBytes c.iw)
  | 0x23 => let c := segredOf w; span c.keys.toNat (4 * c.n.toNat) ++ span c.vals.toNat (4 * c.n.toNat * c.rowlen.toNat)
  | 0x24 => let c := sortkvOf w; span c.src.toNat (8 * c.n.toNat)
  | 0x25 => let c := topkOf w; span c.src.toNat (c.nrows.toNat * c.l.toNat * fmtBytes (fa j))
  | 0x30 => attn (attnOf w)
  | 0x31 => attn (attnOf w)
  | 0x32 =>
    let c := kvappOf w
    span c.adesc.toNat 64 ++
      (match peekAdesc s t j c.adesc.toNat with
       | some d =>
         let n := d.hg * d.dh * fmtBytes (fa j)
         rows c.ksrc.toNat c.nt.toNat d.qstride n ++ rows c.vsrc.toNat c.nt.toNat d.qstride n
       | none => [])
  | 0x33 =>
    let c := kvdevOf w
    span c.adesc.toNat 64 ++
      (match peekAdesc s t j c.adesc.toNat with
       | some d => rows c.fresh.toNat c.nt.toNat d.qstride (d.hg * d.dh * fmtBytes (fa j))
       | none => [])
  | 0x34 => let c := arotOf w; rows c.addr.toNat c.nrows.toNat c.stride.toNat ((c.nh1.toNat + 1) * c.dh.toNat * fmtBytes (fa j))
  | 0x40 => elt (veltOf w)
  | 0x41 => eltRange j.fmta (veltOf w).a.toNat (veltOf w).n.toNat
  | 0x42 => elt (veltOf w) ++ eltRange j.fmtc (veltOf w).dst.toNat (veltOf w).n.toNat
  | 0x43 => let c := vredOf w; rows c.src.toNat c.nrows.toNat c.sstride.toNat (elemBytes (fa j) c.n.toNat)
  | 0x45 => let c := vcvtOf w; span c.src.toNat (c.nrows.toNat * elemBytes (fa j) c.rowlen.toNat)
  | 0x46 => elt (veltOf w)
  | 0x47 =>
    let c := vnormOf w
    span c.src.toNat (c.nrows.toNat * c.n.toNat * fmtBytes (fa j))
      ++ span c.prm.toNat (4 + 4 * c.n.toNat * (if c.mode = 1 then 2 else 1))
  | 0x48 => let c := vtrnOf w; rows c.src.toNat c.rows.toNat c.sstride.toNat (c.cols.toNat * fmtBytes (fa j))
  | 0x49 => let c := vidxOf w; if c.mode = 1 then eltRange j.fmta c.src.toNat c.n.toNat else []
  | 0x50 => let c := collOf w; span c.src.toNat (c.count.toNat * fmtBytes c.fmt.toNat)
  | 0x51 => let c := collOf w; span c.src.toNat (c.count.toNat * fmtBytes c.fmt.toNat)
  | 0x52 => let c := collOf w; span c.src.toNat (nm * c.count.toNat * fmtBytes c.fmt.toNat)
  | _ => []
where
  /-- ADESC, the query rows and their scale words (R310). -/
  attn (c : AttnCmd) : Ranges :=
    span c.adesc.toNat 64 ++
      (match peekAdesc s t j c.adesc.toNat with
       | some d => rows c.qaddr.toNat (c.nq1.toNat + 1) d.qstride (headBytes (fa j) d.nh d.dh)
           ++ (if isContainer (fa j) then scaleBytes j.fmta ((c.nq1.toNat + 1) * d.nh * contCount (fa j) d.dh) else [])
       | none => [])
  /-- A and B over the elements read (R317). -/
  elt (c : VeltCmd) : Ranges :=
    let n := c.n.toNat
    eltRange j.fmta c.a.toNat n ++ eltRange j.fmtb c.b.toNat (if c.bs = 1 then min n 1 else n)

/-- Scale words of a container operand of `n` elements. -/
def eltScales (d : Word) (n : Nat) : Ranges := if isContainer (descFmt d) then scaleBytes d (contCount (descFmt d) n) else []

/-- Ranges that an attention or vector command reads beyond its guarded ones (R302): scale words, and sources its entry does
not guard. -/
def otherReads (j : Job) : Ranges :=
  let w := j.cmd
  match cEop w with
  | 0x40 => elt (veltOf w)
  | 0x41 => eltScales j.fmta (veltOf w).n.toNat
  | 0x42 => elt (veltOf w)
  | 0x43 => let c := vredOf w; if isContainer (fa j) then scaleBytes j.fmta (c.nrows.toNat * contCount (fa j) c.n.toNat) else []
  | 0x44 => let c := vscanOf w; span c.src.toNat (elemBytes (fa j) c.n.toNat) ++ eltScales j.fmta c.n.toNat
  | 0x45 => let c := vcvtOf w; if isContainer (fa j) then scaleBytes j.fmta (c.nrows.toNat * contCount (fa j) c.rowlen.toNat) else []
  | 0x46 => elt (veltOf w) ++ (if (veltOf w).op = 8 then eltRange j.fmtc (veltOf w).dst.toNat (veltOf w).n.toNat else [])
  | 0x49 => let c := vidxOf w; if c.mode = 1 then eltScales j.fmta c.n.toNat else []
  | _ => []
where
  elt (c : VeltCmd) : Ranges := eltScales j.fmta c.n.toNat ++ eltScales j.fmtb (if c.bs = 1 then 1 else c.n.toNat)

/-- Ranges that an attention or vector command writes (R302); KV blocks are not compared. -/
def writeRanges (s : State) (t : Nat) (j : Job) : Ranges :=
  let w := j.cmd
  match cEop w with
  | 0x30 => attn (attnOf w)
  | 0x31 => attn (attnOf w)
  | 0x33 => let c := kvdevOf w; if c.devout = 0 then [] else span c.devout.toNat (4 * c.nt.toNat)
  | 0x34 => let c := arotOf w; rows c.addr.toNat c.nrows.toNat c.stride.toNat ((c.nh1.toNat + 1) * c.dh.toNat * fmtBytes (fa j))
  | 0x40 => elt (veltOf w)
  | 0x41 => elt (veltOf w)
  | 0x42 => elt (veltOf w)
  | 0x43 => let c := vredOf w; span c.dst.toNat (c.nrows.toNat * fmtBytes (fc j))
  | 0x44 => let c := vscanOf w; span c.dst.toNat (c.n.toNat * fmtBytes (fc j))
  | 0x45 =>
    let c := vcvtOf w
    if isContainer (fc j) then
      span c.dst.toNat (32 * c.nrows.toNat * contCount (fc j) c.rowlen.toNat) ++ scaleBytes j.fmtc (c.nrows.toNat * contCount (fc j) c.rowlen.toNat)
    else span c.dst.toNat (c.nrows.toNat * c.rowlen.toNat * fmtBytes (fc j))
  | 0x46 => elt (veltOf w)
  | 0x47 => let c := vnormOf w; span c.dst.toNat (c.nrows.toNat * c.n.toNat * fmtBytes (fc j))
  | 0x48 => let c := vtrnOf w; rows c.dst.toNat c.cols.toNat c.dstride.toNat (c.rows.toNat * fmtBytes (fa j))
  | 0x49 => let c := vidxOf w; if c.mode = 1 then span c.dst.toNat (8 + 4 * c.n.toNat) else span c.dst.toNat (c.n.toNat * fmtBytes (fc j))
  | _ => []
where
  attn (c : AttnCmd) : Ranges :=
    match peekAdesc s t j c.adesc.toNat with
    | some d => rows c.oaddr.toNat (c.nq1.toNat + 1) d.ostride (d.nh * d.dh * fmtBytes (fc j))
    | none => []
  elt (c : VeltCmd) : Ranges := span c.dst.toNat (c.n.toNat * fmtBytes (fc j))

/-- ADESC address of an attention command that names a context map. -/
def adescAddr (j : Job) : Option Nat :=
  let w := j.cmd
  match cEop w with
  | 0x30 => some (attnOf w).adesc.toNat
  | 0x31 => some (attnOf w).adesc.toNat
  | 0x32 => some (kvappOf w).adesc.toNat
  | 0x33 => some (kvdevOf w).adesc.toNat
  | _ => none

/-- Physical address of the context map that a job names. -/
def peekMap (s : State) (t : Nat) (j : Job) : Option Nat :=
  match adescAddr j with
  | some a =>
    match peekAdesc s t j a with
    | some d => peekPa s t j d.map
    | none => none
  | none => none

/-- Accumulator tiles that a command writes, and those it only reads (R141). -/
def accTiles (w : CWord) : List Nat × List Nat :=
  match cEop w with
  | 0x10 => ([(mmaOf w).ct.toNat], [])
  | 0x11 => ([(mmapOf w).ct.toNat], [])
  | 0x13 =>
    let c := mredOf w
    ([c.dt.toNat], ([c.s0.toNat, c.s1.toNat, c.s2.toNat, c.s3.toNat].take c.ns.toNat).filter (· != c.dt.toNat))
  | 0x20 => ([(spmmOf w).ct.toNat], [])
  | _ => ([], [])

def tileMask (l : List Nat) : BitVec 128 := l.foldl (fun m i => m ||| (1#128 <<< i)) 0

/-- B-store range of a command (R280): first slice, slices, first byte, bytes, and whether it writes. -/
def bRange (j : Job) : Option (Nat × Nat × Nat × Nat × Bool) :=
  let w := j.cmd
  match cEop w with
  | 0x10 => let c := mmaOf w; some (c.bcol.toNat, c.n1.toNat + 1, c.boff.toNat, c.g.toNat * granBytes (fb j), false)
  | 0x11 => let c := mmapOf w; some (c.bcol.toNat, c.n1.toNat + 1, c.boff.toNat, c.g.toNat * 32, false)
  | 0x12 => let c := bloadOf w; some (c.bcol.toNat, c.n1.toNat + 1, c.boff.toNat, c.len32.toNat * 32, true)
  | _ => none

/-- Two intervals share a point: an empty one shares none. -/
def meets (a n b m : Nat) : Bool := decide (0 < n) && decide (0 < m) && decide (a < b + m) && decide (b < a + n)

def rangesMeet (a b : Ranges) : Bool := a.any fun x => b.any fun y => meets x.1 x.2 y.1 y.2

/-- A KVAPP or a KVDEV (R302). -/
def mapWriter (j : Job) : Bool := cEop j.cmd == 0x32 || cEop j.cmd == 0x33

/-- Two jobs of one queue conflict (R280, R302). -/
def conflict (kind : Nat) (a b : Job) : Bool :=
  if kind == 0 || kind == 1 then
    let (wa, ra) := accTiles a.cmd
    let (wb, rb) := accTiles b.cmd
    wa.any (fun x => wb.contains x || rb.contains x) || ra.any (fun x => wb.contains x)
      || (match bRange a, bRange b with
          | some (c1, n1, o1, l1, w1), some (c2, n2, o2, l2, w2) => (w1 || w2) && meets c1 n1 c2 n2 && meets o1 l1 o2 l2
          | _, _ => false)
      || (cEop a.cmd == 0x24 && cEop b.cmd == 0x24)
  else
    rangesMeet a.writes (b.reads ++ b.writes) || rangesMeet b.writes a.reads
      || (a.mapName.isSome && a.mapName == b.mapName && (mapWriter a || mapWriter b))

end Sys2Proof.Machine
end

