-- ==== Sys2Proof/Machine/Engine.lean ====
section
/-! DEFINITION. Engine queues: ENQ with its capture and guards (R261 to R264), job identifiers, waiting, polling and dropping
(R265, R272), the engine's choice (R267, R280, R302, R359), completion and job faults (R269 to R271). -/

namespace Sys2Proof.Machine

/-- A tile has the queue (R261). -/
def hasQueue (t q : Nat) : Bool :=
  match q with
  | 0 => decide (t < allTiles)
  | 1 => isGrid t && decide (tileKind t < 3)
  | 2 => isGrid t && tileKind t == 3
  | _ => false

def queueDepth : Nat → Nat
  | 0 => 16
  | 1 => 8
  | _ => 32

/-- Entries held for a source core: by its jobs, and by ENQs of its processes. -/
def heldByCore (s : State) (k c : Nat) : Nat :=
  ((getQueue s k).entries.filter fun e =>
    (match e.2.job with | some j => j.core == c | none => false)
      || (match e.2.taken with | some w => procCore s w == c | none => false)).length

/-- The queue takes no further entry from a core (R261). -/
def queueFull (s : State) (k c : Nat) : Bool :=
  let q := k % 4
  decide (queueDepth q ≤ usedEntries s k + (if q == 0 then copyTransfers s (k / 4) else 0)) || (q == 2 && decide (8 ≤ heldByCore s k c))

def freeSlotOf (s : State) (k : Nat) : Option Nat :=
  (List.range (queueDepth (k % 4))).find? fun i =>
    match amGet (getQueue s k).entries i with
    | some e => e.job.isNone && e.taken.isNone
    | none => true

/-- The entry that a process's ENQ already holds in a queue (R262). -/
def heldEntry (s : State) (k w : Nat) : Option Nat :=
  ((getQueue s k).entries.find? fun e => e.2.taken == some w).map fun e => k * 32 + e.1

/-- A job identifier (R265). -/
def jobId (key : Nat) (gen : BitVec 16) : Word :=
  word (2 ^ 63 + key / 128 * 2 ^ 36 + key / 32 % 4 * 2 ^ 34 + gen.toNat * 2 ^ 16 + key % 32)

/-! ### The capture (R263) -/

/-- Priority of a job: the smaller of the envelope's and the region's. -/
def jobPrio (s : State) (rcb : Nat) (w : CWord) : Nat := if rcb == 0 then (cPrio w).toNat else min (cPrio w).toNat (rcbPrio s rcb)

/-- A job as the capture forms it, for the process running on core `c`, in queue `k`. -/
def captured (s : State) (c : Nat) (r : Running) (k : Nat) (w : CWord) : Job :=
  let csr (n : Nat) : Word := pcsrRd s c r.wptr n
  { cmd := w, fmta := csr 2, fmtb := csr 3, fmtc := csr 4, cellp := csr 6, genctr := csr 7, kvmodel := csr 8, kvthr := csr 9,
    kvchkl := csr 10, kvrope := csr 11, cls := if k % 4 == 0 then 0 else procClass s c r, prio := jobPrio s r.rcb w, wptr := r.wptr,
    core := c, rcb := r.rcb, tenant := rcbTenant s r.rcb, sm := r.sm, st := .queued, why := none, order := s.order, parkOrder := 0,
    gran := 0, inFlight := false, accW := 0, accR := 0, rx := false, ml := false, fault := 0, scalegen := 0, paired := [], unck := 0, scratch := [],
    shadow := [], staged := [], mapRef := none, started := false, last := false, reads := [], writes := [], mapName := none, orphan := false,
    checked := false, late := [], members := none, blocks := [] }

/-- The guards that a captured command takes: one for each range at each tile whose TLM holds part of it (R264). -/
def guardPlan (s : State) (t key : Nat) (j : Job) : List (Nat × Guard) :=
  let nm := groupSize s t (collOf j.cmd).grp.toNat j.core (collOf j.cmd).seq.toNat
  (guardRanges s t nm j).flatMap fun rg =>
    let ps := (peekRanges s t j [rg]).filter fun p => inTlm p.1 && !neverPopulated (isDark s) p.1
    (ps.map fun p => p.1 / tlmWindow).eraseDups.map fun u =>
      let mine := ps.filter fun p => p.1 / tlmWindow == u
      (u, ⟨mine.foldl (fun lo p => min lo p.1) ((u + 1) * tlmWindow), mine.foldl (fun hi p => max hi (p.1 + p.2)) 0, key⟩)

/-- A tile that lacks free guards for the plan: each port holds 16. -/
def guardShort (s : State) (plan : List (Nat × Guard)) : Option Nat :=
  (plan.map (·.1)).find? fun u => decide (16 < (getTile s u).guards.length + (plan.filter (·.1 == u)).length)

def setGuards (s : State) (plan : List (Nat × Guard)) : State :=
  plan.foldl (fun s p => modTile s p.1 fun k => { k with guards := k.guards ++ [p.2] }) s

/-- GENCTR rises when a VCVT is captured (R263). -/
def bumpGenctr (s : State) (c : Nat) (r : Running) (w : CWord) : State :=
  if cEop w == 0x45 && cKind w == 4 then pcsrWr s c r.wptr 7 (word ((bits (pcsrRd s c r.wptr 7) 3 0 + 1) % 16)) else s

/-- The capture puts a job into its entry, with its guards, busy bits and read holds (R141, R263, R264). -/
def capture (s : State) (c : Nat) (r : Running) (key : Nat) (w : CWord) (plan : List (Nat × Guard)) : State :=
  let t := key / 128
  let s := tick s
  let j := captured s c r (key / 32) w
  let (aw, ar) := if key / 32 % 4 == 1 then accTiles w else ([], [])
  let av := tileKind t == 2 || tileKind t == 3
  let j := { j with
    accW := tileMask aw, accR := tileMask ar
    reads := if av then peekRanges s t j (guardRanges s t 0 j ++ otherReads j) else []
    writes := if av then peekRanges s t j (writeRanges s t j) else []
    mapName := peekMap s t j
    late := latePieces s t j (guardRanges s t (groupSize s t (collOf j.cmd).grp.toNat j.core (collOf j.cmd).seq.toNat) j) }
  let s := putEntry s key { entryAt s key with taken := none, job := some j, result := none, fwd := none, rcb := r.rcb }
  bumpGenctr (setGuards s plan) c r w

/-- TakeEntry (R262): the entry's use count rises. -/
def takeEntry (s : State) (key w : Nat) : State :=
  let e := entryAt s key
  putEntry s key { e with gen := e.gen + 1, taken := some w, result := none, fwd := none }

/-! ### ENQ (R262) -/

/-- An ENQ that traps gives back the entry it holds. -/
def enqTrap (s : State) (r : Running) (cause : Cause) (tval : Word) : State := trapHere (dropTaken s r.wptr) r cause tval

/-- The command names accumulator tiles of a file whose ENQs an ACFG holds (R148). -/
def enqHeld (s : State) (t q : Nat) (w : CWord) : Bool :=
  q == 1 && acfgHolds s t none && (let (a, b) := accTiles w; !(a ++ b).isEmpty)

/-- TakeGuards, Capture and the result (R262). An ENQ counts in GSTALL once, with the attempt that takes its entry (R264). -/
def enqCapture (s : State) (c : Nat) (r : Running) (d : Reg) (key : Nat) (w : CWord) : State :=
  let fresh := (entryAt s key).taken != some r.wptr
  let s := takeNew s
  let plan := guardPlan s (key / 128) key (captured s c r (key / 32) w)
  match guardShort s plan with
  | some u =>
    let s := modTile s (coreTile c) fun k => { k with gstall := if fresh then min (k.gstall + 1) (2 ^ 16 - 1) else k.gstall }
    waitHere s c r 8 3 (.guard u key)
  | none =>
    let s := countAt (capture s c r key w plan) c 0x0D 1
    finish (noteMsg s c (key / 128)) c r d (jobId key (entryAt s key).gen)
where
  takeNew (s : State) : State := if (entryAt s key).taken == some r.wptr then s else takeEntry s key r.wptr

/-- ENQ to queue `q` of tile `t`, once the selector has passed. While an ACFG holds it the ARG of WQUEUE is the queue: R148 names the state
alone (log entry 87). -/
def enqTo (s : State) (c : Nat) (r : Running) (d a : Reg) (sel : Word) (t q : Nat) : State :=
  let ea := src s c r a
  if t != coreTile c && holeBit s (coreTile c) t then enqTrap s r .hole sel
  else if siteLosing s (coreTile c) t then enqTrap s r .sitelost sel
  else
    match memCheck s c r ea 32 .read .block false with
    | (s, .ok pa _) =>
      if spaceOf pa != 0 then enqTrap s r .prot ea
      else
        releaseWait s c r .panel fun s =>
          if uncorrectable s pa 32 then takeEccu (dropTaken s r.wptr) r.wptr none
          else
            let s := correctAt s c pa 32
            let w : CWord := BitVec.ofNat 256 (rdN s pa 32)
            let k := 4 * t + q
            if enqHeld s t q w then waitHere s c r 8 q (.accCfg t)
            else
              match heldEntry s k r.wptr with
              | some key => enqCapture s c r d key w
              | none =>
                if queueFull s k c then waitHere s c r 8 q (.queue k)
                else
                  match freeSlotOf s k with
                  | some i => enqCapture s c r d (k * 32 + i) w
                  | none => waitHere s c r 8 q (.queue k)
    | (s, .trap .far) => enqTrap s r .prot ea
    | (s, .trap x) => enqTrap s r x ea
    | (s, .lost) => takeTrap s r.wptr .sitelost 0 ea 0 false
    | (s, .fault tn m) => pageWait s c r ea tn .read m
    | (s, .ecc) => takeEccu s r.wptr none

/-- ENQ (R262); a vector queue's place names a tile, so that CV and CORE are ignored (R15, R23). -/
def execEnq (d a b : Reg) (s : State) : Host.Outcome State Fault Refusal :=
  onCore s fun c r =>
    let sel := src s c r b
    let t := coreTile c
    let q := bits sel 33 32
    if bits sel 63 34 != 0 || q == 3 then enqTrap s r .bound sel
    else if q == 2 then
      unlessFrozen s c r <|
        match resolvePlace s r.rcb t (word (bits sel 31 0)) none r.sm with
        | .ok u _ => if hasQueue u 2 && isGrid t && segOf u == segOf t then enqTo s c r d a sel u 2 else enqTrap s r .bound sel
        | .bound => enqTrap s r .bound sel
        | .reserved => enqTrap s r .prot sel
    else if bits sel 31 0 != 0 || !hasQueue t q then enqTrap s r .bound sel
    else enqTo s c r d a sel t q

/-! ### Completion (R269 to R271) -/

/-- The completion value (R269). -/
def completionValue (key : Nat) (gen : BitVec 16) (j : Job) : Word :=
  word (2 ^ 63 + b2n j.rx * 2 ^ 62 + b2n j.ml * 2 ^ 61 + j.fault % 256 * 2 ^ 48 + min j.scalegen 255 * 2 ^ 40 + min j.unck 255 * 2 ^ 32
    + gen.toNat * 2 ^ 16 + key % 32)

/-- Cause and sub-reason of a job fault (R271); none for DROPPED. -/
def jobFaultCause (f : Nat) : Option (Cause × Nat) :=
  match f with
  | 0 => none
  | 7 => some (.stalekv, 0)
  | 8 => some (.ckfail, 0)
  | 0x0A => none
  | n => some (.engfault, n)

/-- The issuer of a job has not ended. -/
def issuerLives (s : State) (j : Job) : Bool := !j.orphan && (getProc s j.wptr).isSome

/-- The record of a job fault (R271): pending at the issuer, or sent to the region's handler when the issuer has ended. -/
def jobFaultRecord (s : State) (key : Nat) (gen : BitVec 16) (j : Job) (value : Word) : State :=
  match jobFaultCause j.fault with
  | none => s
  | some (c, sub) =>
    if issuerLives s j then pendTrap s j.wptr ⟨c, sub, jobId key gen, value⟩
    else
      let t := key / 128
      let (pc, s) := openTval s
      let k := getCore s j.core
      let rec0 := trapRecord k.tseq c sub j.wptr (pc.setWidth 48) (jobId key gen) (placeOf j.core) j.rcb value s.time
      let s := modCore s j.core fun k => { k with tseq := word ((k.tseq.toNat + 1) % 2 ^ 32) }
      queueRecords s t [⟨rec0, j.rcb, consumedAt t c sub (jobId key gen), false⟩] j.rcb

/-- JOB_FAULT_TRAP (R271); with FAULT 0x09 the job has consumed an uncorrectable error (R427, R431). -/
def jobFaultTrap (s : State) (key : Nat) (gen : BitVec 16) (j : Job) (value : Word) : State :=
  if j.fault != 9 then jobFaultRecord s key gen j value
  else if j.rcb == 0 then
    if issuerLives s j then systemHit s j.wptr (faceSeg (key / 128)) else s
  else
    let s := regionHit s j.rcb
    if isRcb s j.rcb && decide (rcbState s j.rcb < 4) then jobFaultRecord s key gen j value else s

/-- Where the completion word goes (R270). -/
inductive CwaOut where
  | none
  | far
  | held
  | at (pa : Nat)
deriving DecidableEq, Repr

def cwaPlace (s : State) (key : Nat) (j : Job) : State × CwaOut :=
  if !cCmpl j.cmd then (s, .none)
  else
    match (engPa (engOf key j) (cCwa j.cmd).toNat true).run s with
    | (.ok pa, s1) =>
      if spaceOf pa != 0 || pa % 8 != 0 then (s1, .far)
      else if portHolds s1 pa 8 (.job key) j.sm then (noteHeld s1 pa 8 (.job key) j.sm, .held)
      else (s1, .at pa)
    | (.error _, s1) => (s1, .far)

/-- Every JWAIT on the job returns its completion value (R270). -/
def wakeJwaits (s : State) (key : Nat) (gen : BitVec 16) (v : Word) : State :=
  s.procs.foldl (fun s e =>
    match e.2.wait with
    | .job d k g => if k == key && g == gen.toNat && isWaiting (pstate s e.1) then finishAcq s e.1 d v else s
    | _ => s) s

/-- The end of a job (R270); it stands still while a guard holds the completion word's write. -/
def finishJob (s : State) (key : Nat) : State :=
  match (entryAt s key).job with
  | none => s
  | some j =>
    let s := releaseGuards s key
    let s := modJob s key fun j => { j with accW := 0 }
    match cwaPlace s key j with
    | (s, .held) => s
    | (s, out) =>
      let gen := (entryAt s key).gen
      let j := if out == .far && j.fault == 0 then { j with fault := 5 } else j
      let v := completionValue key gen j
      let s := match out with
        | .at pa => performWrite s pa 8 v.toNat (some true) true j.rcb
        | _ => s
      let s := wakeJwaits (freeEntry s key (some v)) key gen v
      let s := barrierCheck s j.rcb
      regionEnds (jobFaultTrap s key gen j v) j.rcb

/-- A job ends with a fault code, or without one (0). -/
def endJob (s : State) (key fault : Nat) : State :=
  finishJob (modJob s key fun j => { j with fault := fault, last := true, inFlight := false }) key

/-! ### JWAIT, JPOLL and JDROP (R272) -/

/-- The entry an identifier reaches: the one a map commit carried the job to while it is there (R378). -/
def jobKey (s : State) (id : Word) : Nat :=
  let key := (4 * bits id 49 36 + bits id 35 34) * 32 + bits id 4 0
  match (entryAt s key).fwd with
  | some k => k
  | none => key

/-- The entry's current job is the one named. -/
def jobCurrent (s : State) (key : Nat) (id : Word) : Bool := (entryAt s key).gen.toNat == bits id 31 16

/-- The checks of R272; the instruction acts over VC3, which LATMSG does not show (R408). -/
def jobInstr (s : State) (c : Nat) (r : Running) (id : Word) (k : State → Nat → State) : State :=
  let t := bits id 49 36
  let q := bits id 35 34
  if bits id 62 50 != 0 || bits id 33 32 != 0 || bits id 15 5 != 0 || q == 3 || !hasQueue t q || decide (queueDepth q ≤ bits id 4 0) then
    trapHere s r .bound id
  else if t != coreTile c && holeBit s (coreTile c) t then trapHere s r .hole id
  else if siteLosing s (coreTile c) t then trapHere s r .sitelost id
  else
    let key := jobKey s id
    match (entryAt s key).job with
    | some j => if jobCurrent s key id && j.rcb != r.rcb then trapHere s r .prot id else k s key
    | none => if jobCurrent s key id && (entryAt s key).result.isSome && (entryAt s key).rcb != r.rcb then trapHere s r .prot id else k s key

/-- JWAIT (R272). -/
def execJwait (d a : Reg) (s : State) : Host.Outcome State Fault Refusal :=
  onCore s fun c r =>
    let id := src s c r a
    jobInstr s c r id fun s key =>
      let e := entryAt s key
      if !jobCurrent s key id then finish s c r d 0
      else if e.job.isSome then waitHere s c r 4 0 (.job d key (bits id 31 16))
      else
        match e.result with
        | some v => finish (acquireDone s c .panel) c r d v
        | none => finish s c r d 0

/-- JPOLL (R272). -/
def execJpoll (d a : Reg) (s : State) : Host.Outcome State Fault Refusal :=
  onCore s fun c r =>
    let id := src s c r a
    jobInstr s c r id fun s key =>
      let e := entryAt s key
      if !jobCurrent s key id then finish s c r d 0
      else
        match e.job with
        | some j => finish s c r d (match j.st with | .queued => 1 | .running => 2 | _ => 3)
        | none =>
          match e.result with
          | some v => finish (acquireDone s c .panel) c r d v
          | none => finish s c r d 0

/-- JDROP (R272). -/
def execJdrop (d a : Reg) (s : State) : Host.Outcome State Fault Refusal :=
  onCore s fun c r =>
    let id := src s c r a
    jobInstr s c r id fun s key =>
      if !jobCurrent s key id then finish s c r d 2
      else
        match (entryAt s key).job with
        | some j =>
          if j.st == .queued && !j.last then settle (finish (endJob s key 0x0A) c r d 0)
          else if j.st == .queued then finish s c r d 2
          else finish s c r d 1
        | none => finish s c r d 2

/-! ### The engine's choice (R267) -/

/-- Entries of a queue with jobs that can still be chosen. -/
def queueJobs (s : State) (k : Nat) : List (Nat × Job) :=
  (getQueue s k).entries.filterMap fun e => e.2.job.map fun j => (k * 32 + e.1, j)

/-- The engine runs a job, or a rendezvous transfer (R246, R261). -/
def engineBusy (s : State) (k : Nat) : Bool :=
  (queueJobs s k).any (fun p => p.2.st == .running) || (k % 4 == 0 && s.transfers.any fun t => t.viaCopy && t.tile == k / 4 && t.moving)

/-- LEVEL of a class on a tile (R387); class 0 is never gated. -/
def tileLevel (s : State) (t cls : Nat) : Nat := levelOf (getTile s t).tkheld cls

/-- A conflicting job captured earlier on the queue has not reached DONE, or the job's map is locked (R280, R302, R359). -/
def passedOver (s : State) (k : Nat) (j : Job) : Bool :=
  (k % 4 != 0 && (queueJobs s k).any fun p => decide (p.2.order < j.order) && conflict (tileKind (k / 4)) p.2 j)
    || (match j.mapName with
        | some m => j.mapRef.isNone && (kvHead s m).lock
        | none => false)

/-- A parked job that is ready: resumed, mapped, met by its peer, or with its level back. -/
def isReady (s : State) (k : Nat) (j : Job) : Bool :=
  !j.last && (j.st == .ready || (j.st == .parked && j.why == some .level && decide (1 ≤ tileLevel s (k / 4) j.cls)))
    && !suspendedRegion s j.rcb && !passedOver s k j

/-- What an engine can run next: a job, or a large rendezvous transfer, which is among the copy queue's jobs at priority 3 (R246). -/
inductive Pick where
  | job (key : Nat) (j : Job)
  | move (i : Nat) (t : Transfer)
deriving DecidableEq, Repr

def Pick.prio : Pick → Nat
  | .job _ j => j.prio
  | .move _ _ => 3

def Pick.parkOrder : Pick → Nat
  | .job _ j => j.parkOrder
  | .move _ t => t.parkOrder

def Pick.core : Pick → Nat
  | .job _ j => j.core
  | .move _ t => t.core

def Pick.order : Pick → Nat
  | .job _ j => j.order
  | .move _ t => t.order

/-- The transfer at position `i` comes after another: one on its word whose second party arrived before, moving or spilled (R246), or one
before it in the spill ring it is replayed from (R348); or its queue has no entry for it. -/
def moveBehind (s : State) (i : Nat) (t : Transfer) : Bool :=
  anyMeeting s (fun x => x.word == t.word && decide (x.order < t.order))
    || (s.transfers.take i).any (fun x => t.replay.isSome && x.replay == t.replay) || (t.viaCopy && copyQueueFull s i t.tile)

/-- Large transfers that the copy engine of queue `k` has to move. -/
def queueMoves (s : State) (k : Nat) : List Pick :=
  if k % 4 == 0 then
    s.transfers.zipIdx.filterMap fun x =>
      if x.1.viaCopy && x.1.tile == k / 4 && x.1.parked.isNone && !x.1.moving then some (.move x.2 x.1) else none
  else []

/-- What is parked and ready: jobs, and transfers whose page is mapped. -/
def readyPicks (s : State) (k : Nat) : List Pick :=
  ((queueJobs s k).filter fun p => isReady s k p.2).map (fun p => .job p.1 p.2)
    ++ (queueMoves s k).filter fun p => match p with | .move i t => t.parkOrder != 0 && !moveBehind s i t | _ => false

/-- What is QUEUED: jobs of regions that are not suspended, and transfers that have not begun. -/
def queuedPicks (s : State) (k : Nat) : List Pick :=
  ((queueJobs s k).filter fun p => p.2.st == .queued && !p.2.last && !suspendedRegion s p.2.rcb).map (fun p => .job p.1 p.2)
    ++ (queueMoves s k).filter fun p => p.parkOrder == 0

/-- A before B among what is parked and ready: higher priority, older parking. -/
def parkedBefore (a b : Pick) : Bool := decide (b.prio < a.prio) || (a.prio == b.prio && decide (a.parkOrder ≤ b.parkOrder))

/-- The oldest of a priority from a source core. -/
def oldestFrom (ps : List Pick) (prio core : Nat) : Option Pick :=
  (sortBy (fun (a b : Pick) => decide (a.order ≤ b.order)) (ps.filter fun p => p.prio == prio && p.core == core)).head?

/-- Source cores in ascending order, beginning after the one served last at the priority. -/
def coresAfter (ps : List Pick) (last : Nat) : List Nat :=
  let cs := sortBy (fun a b => decide (a ≤ b)) (ps.map (·.core)).eraseDups
  cs.filter (fun c => decide (last ≤ c)) ++ cs.filter (fun c => decide (c < last))

/-- The engine may choose it now. -/
def choosable (s : State) (k : Nat) : Pick → Bool
  | .job _ j => !passedOver s k j
  | .move i t => !moveBehind s i t

/-- What R267 chooses among the QUEUED: `last` holds one more than the core served last. -/
def chooseQueued (s : State) (k : Nat) : Option Pick :=
  let ps := queuedPicks s k
  [3, 2, 1, 0].findSome? fun pr =>
    (coresAfter ps (((getQueue s k).last[pr]?).getD 0)).findSome? fun c => (oldestFrom ps pr c).filter (choosable s k)

/-- What the free engine chooses next. -/
def chooseNext (s : State) (k : Nat) : Option Pick :=
  match (sortBy parkedBefore (readyPicks s k)).head? with
  | some p => some p
  | none => chooseQueued s k

/-- The job the free engine chooses next, if it chooses a job. -/
def chooseJob (s : State) (k : Nat) : Option (Nat × Job) :=
  match chooseNext s k with
  | some (.job key j) => some (key, j)
  | _ => none

/-- The source core of a QUEUED choice has been served at its priority. -/
def served (s : State) (k prio core : Nat) : State := modQueue s k fun q => { q with last := q.last.setIfInBounds prio (core + 1) }

/-- The engine starts a job: it is RUNNING, and its source core was served. -/
def startJob (s : State) (k key : Nat) (j : Job) : State :=
  let s := if j.st == .queued then served s k j.prio j.core else s
  modJob s key fun j => { j with st := .running, why := none, inFlight := false, mapRef := j.mapName }

/-- A job's granule or check did not complete (R266). -/
def jobStops (s : State) (key : Nat) (e : JErr) : State :=
  match e with
  | .fault c => modJob s key fun j => { j with fault := c, last := true, inFlight := false }
  | .page tn va kind m =>
    reportPage (parkJob s key .page) (key / 128) tn va kind m (.job key)
  | .peer => parkJob s key .peer
  | .locked m => modJob s key fun j => { j with st := .queued, mapRef := none, mapName := some m }
  | .held => s
  | .port pa n => noteHeld s pa n (.job key) (match jobAt s key with | some j => j.sm | none => false)

end Sys2Proof.Machine
end

