-- ==== Sys2Proof/Machine/DenseCmd.lean ====
section
/-! DEFINITION. The dense engine's commands MMA, MMAP, BLOAD and MRED (R281 to R290), with checksums (R82, R83). -/

namespace Sys2Proof.Machine

/-- A row of the pairs of R80, and the elements of its granule. -/
def pairOk (a b : Nat) : Bool := a == b && [0, 1, 2, 4, 8, 9, 10].contains a
def granElems (c : Nat) : Nat := if isContainer c then contElems c else 32

/-- Multiples of the alignment that the operand's format asks for. -/
def notMult (n k : Nat) : Bool := n % k != 0

/-- The file of the tile has the tile, of the other type (R80). -/
def wrongType (s : State) (t ct : Nat) (int : Bool) : Bool := accLiveTile s t ct && accIsInt s t ct != int

def mmaCheck (e : Eng) (c : MmaCmd) : JM Unit := do
  let s ← get
  let a := fa e.j
  let m := c.m1.toNat + 1
  let n := c.n1.toNat + 1
  let g := c.g.toNat
  let gb := granBytes a
  jCheck (descBad e.j.fmta || descBad e.j.fmtb || !pairOk a (fb e.j)
    || (isContainer a && (notMult c.aaddr.toNat 16 || notMult c.astride.toNat 16)) || wrongType s e.t c.ct.toNat (a == 4)) badFmt
  jCheck (decide (2 ^ 48 < c.aaddr.toNat + (m - 1) * c.astride.toNat + g * gb) || g == 0 || decide (65536 < g * granElems a)
    || decide (64 < c.bcol.toNat + n) || notMult c.boff.toNat 32 || decide (131072 < c.boff.toNat + g * gb)
    || (!isContainer a && (notMult c.aaddr.toNat (fmtBytes a) || notMult c.astride.toNat (fmtBytes a)))
    || !accLiveTile s e.t c.ct.toNat || e.j.cls == 0) badCmd

/-! ### Checksums (R82) -/

def f64 (v : FV) : Nat := (fConvert fp64 .rne v).1
def add64 (a b : Nat) : Nat := (fAddV fp64 .rne (fDecode fp64 a) (fDecode fp64 b)).1
def mul64 (a : Nat) (b : FV) : Nat := (fMulV fp64 .rne (fDecode fp64 a) (fDecode fp64 (f64 b))).1

/-- Values of an FP32 or INT32 pattern. -/
def accValue (int : Bool) (v : Nat) : FV := if int then fvInt (sx v 32) else fDecode fp32 v

/-- Sum of values in FP64, in order. -/
def sum64 (l : List FV) : Nat := l.foldl (fun a v => add64 a (f64 v)) 0

/-- Column `j` of a block of `n` columns. -/
def column (n j : Nat) (l : List Nat) : List Nat := (l.zipIdx).filterMap fun x => if x.2 % n == j then some x.1 else none

/-- The kept sums of a column at the start: predicted, absolute, and a mark for a column that is not compared. -/
def ckInit (int : Bool) (n : Nat) (cold : List Nat) : List Word :=
  (List.range n).flatMap fun j =>
    let vs := (column n j cold).map (accValue int)
    if int then [word (patI (vs.foldl (fun z v => z + fvToInt (-(2 ^ 63)) (2 ^ 63) v) 0) 32), 0, 0]
    else [word (sum64 vs), word (sum64 (vs.map fvAbs)), boolW (!vs.all fvFinite)]

/-- The sums after a granule with A's rows and B's columns: one sum runs on from that of Cold (R82; log entry 72). -/
def ckGran (int : Bool) (rowsA colsB : List (List FV)) (sums : List Word) : List Word :=
  let len := (rowsA.head?.map List.length).getD 0
  let acol := (List.range len).map fun k => rowsA.map fun r => r.getD k fvZero
  let badA := acol.any fun c => !c.all fvFinite
  (colsB.zipIdx).flatMap fun x =>
    let w (i : Nat) : Word := sums.getD (3 * x.2 + i) 0
    if int then
      let z := (acol.zip x.1).foldl (fun (z : Int) p => z + (p.1.foldl (fun a v => a + fvToInt (-(2 ^ 63)) (2 ^ 63) v) 0) * fvToInt (-(2 ^ 63)) (2 ^ 63) p.2) 0
      [word (patI ((w 0).toInt + z) 32), 0, 0]
    else if badA || !x.1.all fvFinite || w 2 != 0 then [w 0, w 1, 1]
    else
      let (p, a) := (acol.zip x.1).foldl (fun (pa : Nat × Nat) q =>
        (add64 pa.1 (mul64 (sum64 q.1) q.2), add64 pa.2 (mul64 (sum64 (q.1.map fvAbs)) (fvAbs q.2)))) ((w 0).toNat, (w 1).toNat)
      [word p, word a, 0]

/-- |X − P| ≤ nround · 2^−24 · S in FP64 (R82). -/
def ckPass (nround x p a : Nat) : Bool :=
  let d := fvAbs (fDecode fp64 (fAddV fp64 .rne (fDecode fp64 x) (fNegV (fDecode fp64 p))).1)
  let b := fDecode fp64 (fMulV fp64 .rne (.fin false nround (-24)) (fDecode fp64 a)).1
  fCmp d b != 1

/-- Columns not compared, and whether a compared one fails. -/
def ckColumns (int : Bool) (n nround : Nat) (cnew : List Nat) (sums : List Word) : Nat × Bool :=
  (List.range n).foldl (fun (acc : Nat × Bool) j =>
    let w (i : Nat) : Word := sums.getD (3 * j + i) 0
    let vs := (column n j cnew).map (accValue int)
    if int then
      let z := vs.foldl (fun z v => z + fvToInt (-(2 ^ 63)) (2 ^ 63) v) 0
      (acc.1, acc.2 || patI z 32 != patI (w 0).toInt 32)
    else if w 2 != 0 || !vs.all fvFinite then (acc.1 + 1, acc.2)
    else (acc.1, acc.2 || !ckPass nround (sum64 vs) (w 0).toNat (w 1).toNat)) (0, false)

/-! ### MMA (R283 to R286) -/

/-- Set-up: the block zeroed under ZC, and its Cold kept under CK. -/
def mmaStart (e : Eng) (c : MmaCmd) : JM Unit := do
  let m := c.m1.toNat + 1
  let n := c.n1.toNat + 1
  if c.zc = 1 then writeBlock32 e c.ct.toNat m n (List.replicate (m * n) 0)
  if c.ck = 1 then
    let cold ← readBlock32 e c.ct.toNat m n
    modMine e fun j => { j with shadow := cold.map (BitVec.ofNat 32), scratch := ckInit (fa j == 4) n cold }

/-- Granule `g` of row `i` of A. -/
def mmaRow (e : Eng) (aaddr stride gtotal g i : Nat) : JM (List FV) :=
  let a := fa e.j
  if isContainer a then readCont e e.j.fmta (aaddr + i * stride + 32 * g) (i * gtotal + g)
  else readPlain e a (aaddr + i * stride + granBytes a * g) 32

/-- Granule `g` of column `col` of B. -/
def mmaCol (e : Eng) (bcol boff gtotal g col : Nat) : JM (List FV) := do
  let b := fb e.j
  let bytes ← readB e (bcol + col) (boff + granBytes b * g) (granBytes b)
  if isContainer b then checkCont e b (descSmode e.j.fmtb) (bStore e.t (bcol + col) (boff + granBytes b * g)) (ofBytes bytes) (scaleAddr e.j.fmtb (col * gtotal + g))
  else
    let w := fmtBytes b
    pure ((List.range 32).map fun i => elemValue b (ofBytes ((bytes.drop (i * w)).take w)))

/-- What the array gives for a granule's results, an m × n block: soft errors in it turn bits of single elements (R83, R425). -/
def arrayOut (e : Eng) (m n : Nat) (vs : List Nat) : JM (List Nat) := do
  let s ← get
  let bad := ((getTile s e.t).engUpset.filter fun x => decide (x.1 < m) && decide (x.2.1 < n)).map fun x => (x.1 * n + x.2.1, x.2.2 % 32)
  set (modTile s e.t fun k => { k with engUpset := [] })
  pure (vs.zipIdx.map fun v => (bad.filter (·.1 == v.2)).foldl (fun a x => a ^^^ 2 ^ x.2) v.1)

/-- A granule of MMA (R286): every row of A is read before the columns of B (log entry 69). -/
def mmaGran (e : Eng) (c : MmaCmd) : JM Bool := do
  let m := c.m1.toNat + 1
  let n := c.n1.toNat + 1
  let g := e.j.gran
  let int := fa e.j == 4
  let ra ← (List.range m).mapM (mmaRow e c.aaddr.toNat c.astride.toNat c.g.toNat g)
  let cb ← (List.range n).mapM (mmaCol e c.bcol.toNat c.boff.toNat c.g.toNat g)
  let old ← readBlock32 e c.ct.toNat m n
  let new := (old.zip (ra.flatMap fun r => cb.map fun b => (r, b))).map fun x =>
    if int then patI (addGranuleInt (sx x.1 32) x.2.1 x.2.2) 32 else pat32 (addGranule (fDecode fp32 x.1) x.2.1 x.2.2)
  let new ← arrayOut e m n new
  writeBlock32 e c.ct.toNat m n new
  if c.ck = 1 then modMine e fun j => { j with scratch := ckGran int ra cb j.scratch }
  pure (decide (c.g.toNat ≤ g + 1))

/-- The column checks: the job goes on from its Cold once, ends, or ends with CKFAIL (R83). -/
def mmaFinal (e : Eng) (c : MmaCmd) : JM Unit := do
  let m := c.m1.toNat + 1
  let n := c.n1.toNat + 1
  let int := fa e.j == 4
  let new ← readBlock32 e c.ct.toNat m n
  let (unck, bad) := ckColumns int n (2 * m * c.g.toNat) new e.j.scratch
  if bad && !e.j.rx then
    let cold := e.j.shadow.map BitVec.toNat
    writeBlock32 e c.ct.toNat m n cold
    modMine e fun j => { j with rx := true, gran := 0, last := false, scratch := ckInit int n cold }
  else modMine e fun j => { j with unck := unck, fault := if bad then 8 else 0 }

/-! ### MMAP (R288, R289) -/

/-- An op byte of CELLP: OP, X, Y. -/
def cellOp (p : Word) (i : Nat) : Nat × Nat × Nat :=
  let b := bits p (8 * i + 7) (8 * i)
  (b / 16, b / 4 % 4, b % 4)

/-- CELLP is refused (R288). -/
def cellBad (p : Word) : Bool :=
  let n := bits p 34 32
  decide (4 < n) || (List.range 4).any fun i =>
    let (op, _, y) := cellOp p i
    if i < n then decide (10 ≤ op) || (op == 9 && y != 0) else bits p (8 * i + 7) (8 * i) != 0

/-- One cell op on FP32 or INT32 patterns. -/
def cellStep (int : Bool) (op x y t : Nat) : Nat :=
  let fx := fDecode fp32 x
  let fy := fDecode fp32 y
  match op with
  | 0 => if int then x * y % 2 ^ 32 else (fMulV fp32 .rne fx fy).1
  | 1 => if int then (x + y) % 2 ^ 32 else (fAddV fp32 .rne fx fy).1
  | 2 => if int then (x + 2 ^ 32 - y) % 2 ^ 32 else (fAddV fp32 .rne fx (fNegV fy)).1
  | 3 => if int then (if sx x 32 ≤ sx y 32 then x else y) else pat32 (fvMin fx fy)
  | 4 => if int then (if sx x 32 ≤ sx y 32 then y else x) else pat32 (fvMax fx fy)
  | 5 => x &&& y
  | 6 => x ||| y
  | 7 => x ^^^ y
  | 8 => if (if int then decide (sx x 32 < sx y 32) else !isNan fx && !isNan fy && fCmp fx fy == -1) then x else t
  | _ => if int then patI (if sx x 32 < 0 then -(sx x 32) else sx x 32) 32 else pat32 (fvAbs fx)

/-- CellProgram of R288. -/
def cellProgram (int : Bool) (p : Word) (a b s : Nat) : Nat :=
  (List.range (bits p 34 32)).foldl (fun t i =>
    let (op, x, y) := cellOp p i
    let pick (k : Nat) : Nat := match k with | 0 => a | 1 => b | 2 => s | _ => t
    cellStep int op (pick x) (pick y) t) s

def mmapCheck (e : Eng) (c : MmapCmd) : JM Unit := do
  let s ← get
  let a := fa e.j
  let m := c.m1.toNat + 1
  let n := c.n1.toNat + 1
  let g := c.g.toNat
  jCheck (descBad e.j.fmta || descBad e.j.fmtb || a != fb e.j || !(a == 0 || a == 5) || wrongType s e.t c.ct.toNat (a == 5)) badFmt
  jCheck (decide (2 ^ 48 < c.aaddr.toNat + (m - 1) * c.astride.toNat + 32 * g) || g == 0 || decide (65536 < 8 * g)
    || decide (64 < c.bcol.toNat + n) || notMult c.boff.toNat 32 || decide (131072 < c.boff.toNat + 32 * g)
    || notMult c.aaddr.toNat 4 || notMult c.astride.toNat 4 || !accLiveTile s e.t c.ct.toNat || e.j.cls == 0 || cellBad e.j.cellp) badCmd

def mmapGran (e : Eng) (c : MmapCmd) : JM Bool := do
  let m := c.m1.toNat + 1
  let n := c.n1.toNat + 1
  let g := e.j.gran
  let int := fa e.j == 5
  let ra ← (List.range m).mapM fun i => readPatterns e 5 (c.aaddr.toNat + i * c.astride.toNat + 32 * g) 8
  let cb ← (List.range n).mapM fun j => do
    let b ← readB e (c.bcol.toNat + j) (c.boff.toNat + 32 * g) 32
    pure ((List.range 8).map fun i => ofBytes ((b.drop (4 * i)).take 4))
  let old ← if g == 0 && c.init = 1 then pure (List.replicate (m * n) c.iv.toNat) else readBlock32 e c.ct.toNat m n
  let new := (old.zip (ra.flatMap fun r => cb.map fun b => r.zip b)).map fun x =>
    x.2.foldl (fun s p => cellProgram int e.j.cellp p.1 p.2 s) x.1
  writeBlock32 e c.ct.toNat m n new
  pure (decide (c.g.toNat ≤ g + 1))

/-! ### BLOAD (R282) -/

def bloadCheck (e : Eng) (c : BloadCmd) : JM Unit :=
  jCheck (c.len32.toNat == 0 || decide (64 < c.bcol.toNat + c.n1.toNat + 1) || notMult c.boff.toNat 32
    || decide (131072 < c.boff.toNat + 32 * c.len32.toNat) || e.j.cls == 0) badCmd

/-- A granule is 4 KiB of destination, column after column. -/
def bloadGran (e : Eng) (c : BloadCmd) : JM Bool := do
  let len := 32 * c.len32.toNat
  let total := len * (c.n1.toNat + 1)
  let lo := 4096 * e.j.gran
  let hi := min total (lo + 4096)
  let parts := (List.range ((hi - 1) / len - lo / len + 1)).map fun i =>
    let k := lo / len + i
    let a := max lo (k * len)
    (k, a - k * len, min hi ((k + 1) * len) - a)
  let ws ← parts.mapM fun p => do
    let b ← engRead e (c.src.toNat + p.1 * c.sstride.toNat + p.2.1) p.2.2
    pure (bStore e.t (c.bcol.toNat + p.1) (c.boff.toNat + p.2.1), b)
  modify fun s => ws.foldl (fun s w => performBytes s e.key e.j.rcb w.1 w.2) s
  pure (decide (total ≤ hi))

/-! ### MRED (R290) -/

def mredNames (c : MredCmd) : List Nat := c.dt.toNat :: [c.s0.toNat, c.s1.toNat, c.s2.toNat, c.s3.toNat].take c.ns.toNat

def mredCheck (e : Eng) (c : MredCmd) : JM Unit := do
  let s ← get
  let live := (mredNames c).filter (accLiveTile s e.t)
  jCheck (live.any fun k => live.any fun l => accIsInt s e.t k != accIsInt s e.t l) badFmt
  jCheck (decide (4 < c.ns.toNat) || !(mredNames c).all (accLiveTile s e.t) || c.mmode = 3
    || (c.mmode != 0 && (notMult c.maddr.toNat 4 || notMult c.mstride.toNat 4)) || e.j.cls == 0) badCmd

/-- Add of R290. -/
def accAdd (int : Bool) (a b : Nat) : Nat := if int then (a + b) % 2 ^ 32 else (fAddV fp32 .rne (fDecode fp32 a) (fDecode fp32 b)).1

/-- A granule is one row. -/
def mredGran (e : Eng) (c : MredCmd) : JM Bool := do
  let s ← get
  let i := e.j.gran
  let n := c.n1.toNat + 1
  let int := accIsInt s e.t c.dt.toNat
  let row (k : Nat) : JM (List Nat) := (List.range n).mapM fun j => readAcc e k i j
  let tiles ← (mredNames c).mapM row
  let ma := c.maddr.toNat + i * c.mstride.toNat
  let mem ← if c.mmode = 1 then readPatterns e 5 ma n else pure []
  let all := if c.mmode = 1 then tiles ++ [mem] else tiles
  let sums := (all.drop 1).foldl (fun acc r => (acc.zip r).map fun p => accAdd int p.1 p.2) (all.headD [])
  if c.mmode = 2 then engWriteAll e [(ma, sums.flatMap fun v => bytesOf 4 v)]
  modify fun s => (sums.zipIdx).foldl (fun s x => performWrite s (accElem e.t c.dt.toNat i x.2) 4 x.1 none false e.j.rcb) s
  pure (decide (c.m1.toNat ≤ i))

end Sys2Proof.Machine
end

