-- ==== Sys2Proof/Machine/SparseCmd.lean ====
section
/-! DEFINITION. The sparse engine's commands SPMM, SDDMM, SPGATH, SEGRED, SORTKV and TOPK (R291 to R300). -/

namespace Sys2Proof.Machine

/-- A sparse-matrix descriptor (R291). -/
structure Smd where
  lay : Nat
  val : Nat
  idx : Nat
  ptr : Nat
  cptr : Nat
  nk : Nat
  nr : Nat
  mbz : Bool
deriving DecidableEq, Repr

def smdOf (v : Nat) : Smd :=
  let w (i : Nat) : Word := word (v / 2 ^ (64 * i) % 2 ^ 64)
  let lay := bits (w 0) 63 60
  ⟨lay, bits (w 0) 47 0, bits (w 1) 47 0, bits (w 2) 47 0, bits (w 3) 47 0, bits (w 4) 63 32, bits (w 4) 31 0,
    bits (w 0) 59 48 != 0 || [1, 2, 3].any (fun i => bits (w i) 63 48 != 0) || v / 2 ^ 320 != 0 || (lay == 1 && w 2 != 0)⟩

def readSmd (e : Eng) (a : Nat) : JM Smd := do
  let v ← engReadN e a 64
  pure (smdOf v)

/-- The checks of R293 at dequeue; `t8` tells that values are T8. -/
def smdBad (d : Smd) (a : Nat) (t8 : Bool) : Bool :=
  notMult a 64 || d.mbz || decide (1 < d.lay) || (d.lay == 0 && (notMult d.nr 8 || notMult d.nk 8)) || (d.lay == 1 && notMult d.nk 4)
    || (d.cptr != 0) != (d.lay == 0 && t8)

/-- ROW0 and M of a BSR operand (R294), and rows past the operand. -/
def rowsBad (d : Smd) (row0 m : Nat) : Bool := decide (d.nr < row0 + m) || (d.lay == 0 && (notMult row0 8 || notMult m 8))

/-- A row of an operand: the block row's pointer and block count, or the groups of a 2:4 row. -/
structure SpRow where
  base : Nat
  nb : Nat
deriving DecidableEq, Repr

/-- Read what a row needs of PTR (R292, R293). -/
def readRow (e : Eng) (d : Smd) (rho : Nat) : JM SpRow := do
  if d.lay == 0 then
    let br := rho / 8
    let p0 ← engReadN e d.ptr 4
    jCheck (p0 != 0) badCmd
    let a ← engReadN e (d.ptr + 4 * br) 4
    let b ← engReadN e (d.ptr + 4 * (br + 1)) 4
    jCheck (decide (b < a)) badCmd
    pure ⟨a, b - a⟩
  else pure ⟨0, 0⟩

/-- Length of a row's compressed sequence. -/
def rowLen (d : Smd) (r : SpRow) : Nat := if d.lay == 0 then 8 * r.nb else d.nk / 2

/-- Column of position `p` of row `rho` (R292), with the checks of R293 while running. -/
def spCol (e : Eng) (d : Smd) (r : SpRow) (rho p : Nat) : JM Nat := do
  if d.lay == 0 then
    let b := p / 8
    let k ← engReadN e (d.idx + 4 * (r.base + b)) 4
    if b != 0 then
      let before ← engReadN e (d.idx + 4 * (r.base + b - 1)) 4
      jCheck (decide (k ≤ before)) badCmd
    jCheck (decide (d.nk / 8 ≤ k)) badCmd
    pure (8 * k + p % 8)
  else
    let q := p / 2
    let m ← engReadN e (d.idx + rho * (d.nk / 4) + q) 1
    let u := m % 4
    let v := m / 4 % 4
    jCheck (decide (v ≤ u) || m / 16 != 0) badCmd
    pure (4 * q + (if p % 2 == 0 then u else v))

/-- Element index of position `p` for IEEE values (R292). -/
def spIndex (d : Smd) (r : SpRow) (rho p : Nat) : Nat :=
  if d.lay == 0 then 64 * r.base + 8 * r.nb * (rho % 8) + p else rho * (d.nk / 2) + p

/-- Container index of position `p` for T8 values. -/
def spCont (e : Eng) (d : Smd) (r : SpRow) (rho p : Nat) : JM Nat := do
  if d.lay == 0 then
    let c ← engReadN e (d.cptr + 4 * (rho / 8)) 4
    pure (c + (rho % 8) * ((8 * r.nb + 29) / 30) + p / 30)
  else pure (rho * ((d.nk + 59) / 60) + p / 30)

/-! ### SPMM (R294) -/

/-- Formats first, then what the descriptor in memory decides (R42); a misaligned X is BADCMD by R294 (log entry 66). -/
def spmmCheck (e : Eng) (c : SpmmCmd) : JM Unit := do
  let s ← get
  let a := fa e.j
  jCheck (descBad e.j.fmta || descBad e.j.fmtb || a != fb e.j || !(a == 8 || a == 1 || a == 2)
    || (a == 8 && descSmode e.j.fmtb == 1) || wrongType s e.t c.ct.toNat false) badFmt
  let d ← readSmd e c.smd.toNat
  jCheck (a == 8 && notMult d.val 16) badFmt
  let al := if a == 8 then 16 else fmtBytes a
  jCheck (smdBad d c.smd.toNat (a == 8) || !accLiveTile s e.t c.ct.toNat || rowsBad d c.row0.toNat (c.m1.toNat + 1)
    || notMult c.xaddr.toNat al || notMult c.xstride.toNat al || e.j.cls == 0) badCmd

def spmmStart (e : Eng) (c : SpmmCmd) : JM Unit := do
  if c.zc = 1 then writeBlock32 e c.ct.toNat (c.m1.toNat + 1) (c.n1.toNat + 1) (List.replicate ((c.m1.toNat + 1) * (c.n1.toNat + 1)) 0)

/-- The values of positions `ps` of a row, all in one granule. -/
def spValues (e : Eng) (d : Smd) (r : SpRow) (rho : Nat) (ps : List Nat) : JM (List FV) := do
  match ps with
  | [] => pure []
  | p :: _ =>
    if fa e.j == 8 then
      let k ← spCont e d r rho p
      let vs ← readCont e e.j.fmta (d.val + 32 * k) k
      pure (ps.map fun q => vs.getD (q % 30) fvZero)
    else readPlain e (fa e.j) (d.val + fmtBytes (fa e.j) * spIndex d r rho p) ps.length

/-- Row `k` of X over `n` columns. -/
def xRow (e : Eng) (c : SpmmCmd) (n k : Nat) : JM (List FV) :=
  let va := c.xaddr.toNat + k * c.xstride.toNat
  if fb e.j == 8 then do
    let cs ← (List.range ((n + 29) / 30)).mapM fun i => readCont e e.j.fmtb (va + 32 * i) 0
    pure (cs.flatten.take n)
  else readPlain e (fb e.j) va n

/-- Granule `g`: the next 32 or 30 positions of every row, row by row, a row's values before its X (the order in which their faults count:
log entry 69); an X container is read, and counted, for every position that uses it (log entry 67). -/
def spmmGran (e : Eng) (c : SpmmCmd) : JM Bool := do
  let m := c.m1.toNat + 1
  let n := c.n1.toNat + 1
  let g := e.j.gran
  let ge := if fa e.j == 8 then 30 else 32
  let d ← readSmd e c.smd.toNat
  let res ← (List.range m).mapM fun i => do
    let rho := c.row0.toNat + i
    let r ← readRow e d rho
    let len := rowLen d r
    let ps := (List.range (min ge (len - g * ge))).map (g * ge + ·)
    let vs ← spValues e d r rho ps
    let xs ← ps.mapM fun p => do
      let k ← spCol e d r rho p
      xRow e c n k
    let old ← (List.range n).mapM fun j => readAcc e c.ct.toNat i j
    let new := if ps.isEmpty then old
      else old.zipIdx.map fun x => pat32 (addGranule (fDecode fp32 x.1) vs (xs.map fun r => r.getD x.2 fvZero))
    pure (len, new)
  writeBlock32 e c.ct.toNat m n (res.flatMap (·.2))
  pure (res.all fun r => decide (r.1 ≤ ge * (g + 1)))

/-! ### SDDMM (R295) -/

def sddmmCheck (e : Eng) (c : SddmmCmd) : JM Unit := do
  let a := fa e.j
  jCheck (descBad e.j.fmta || descBad e.j.fmtb || !pairOk a (fb e.j) || a == 4
    || (isContainer a && (notMult c.paddr.toNat 16 || notMult c.qaddr.toNat 16))) badFmt
  let d ← readSmd e c.smd.toNat
  jCheck (smdBad d c.smd.toNat false || c.g.toNat == 0 || rowsBad d c.row0.toNat (c.m1.toNat + 1) || e.j.cls == 0) badCmd

/-- Granule `g` of row `r` of an operand along D. -/
def dRow (e : Eng) (desc : Word) (addr gtotal r g : Nat) : JM (List FV) :=
  let f := descFmt desc
  let va := addr + r * (gtotal * granBytes f) + g * granBytes f
  if isContainer f then readCont e desc va (r * gtotal + g) else readPlain e f va 32

/-- A check of a container has ended the job (R71). -/
def contFault : JErr → Bool
  | .fault c => c == 3 || c == 4 || c == 9
  | _ => false

/-- Steps that read containers: when a check of R71 ends the job, `partials` writes what the granules before have accumulated. -/
def orPartial {α : Type} (m : JM α) (partials : JM Unit) : JM α :=
  tryCatch m fun x => do
    if contFault x then partials
    throw x

/-- One D granule for every stored position of one row, P's before Q's in the order of the positions (log entry 69); the row's results are
written after its last, or when a container of a later granule fails (R71). -/
def sddmmGran (e : Eng) (c : SddmmCmd) : JM Bool := do
  let gt := c.g.toNat
  let rho := c.row0.toNat + e.j.gran / gt
  let g := e.j.gran % gt
  let d ← readSmd e c.smd.toNat
  let r ← readRow e d rho
  let ps := List.range (rowLen d r)
  let put (vs : List Nat) : JM Unit := engWriteAll e (vs.zipIdx.map fun x => (d.val + 4 * spIndex d r rho x.2, bytesOf 4 x.1))
  let step : JM (List Nat) := do
    let pv ← dRow e e.j.fmta c.paddr.toNat gt rho g
    ps.mapM fun p => do
      let k ← spCol e d r rho p
      let qv ← dRow e e.j.fmtb c.qaddr.toNat gt k g
      let acc := if g == 0 then fvZero else fDecode fp32 ((e.j.scratch.getD p 0).toNat)
      pure (pat32 (addGranule acc pv qv))
  let new ← orPartial step (if isContainer (fa e.j) && g != 0 then put (e.j.scratch.map (·.toNat)) else pure ())
  if g + 1 == gt then
    put new
    modMine e fun j => { j with scratch := [] }
  else modMine e fun j => { j with scratch := new.map word }
  pure (decide ((c.m1.toNat + 1) * gt ≤ e.j.gran + 1))

/-! ### SPGATH (R296) -/

def isFloatOut (c : Nat) : Bool := c < 3

def spgathCheck (e : Eng) (c : SpgathCmd) : JM Unit := do
  jCheck (descBad e.j.fmta || descBad e.j.fmtc || !isFloatOut (fc e.j) || isIntFmt (fa e.j)
    || (isContainer (fa e.j) && notMult c.tbl.toNat 16)) badFmt
  jCheck (decide (4096 < c.rowlen.toNat) || e.j.cls == 0) badCmd

def spgathGran (e : Eng) (c : SpgathCmd) : JM Bool := do
  let i := e.j.gran
  let n := c.rowlen.toNat
  if i < c.nidx.toNat then
    let k ← readIdx e c.idx.toNat c.iw i
    let f := fa e.j
    let rb := elemBytes f n
    let va := c.tbl.toNat + k * rb
    jCheck (decide (2 ^ 48 ≤ va) || decide (2 ^ 48 < va + rb)) 5
    let vs ← if isContainer f then readContRow e e.j.fmta va (k * contCount f n) n else readPlain e f va n
    engWriteAll e [(c.dst.toNat + i * fmtBytes (fc e.j) * n, encodePlain (fc e.j) vs)]
  pure (decide (c.nidx.toNat ≤ i + 1))

/-! ### SEGRED (R297) -/

/-- Reduction of two elements by OP: 0 sum, 1 min, 2 max (R277), in a plain format. -/
def reduceElem (c op a b : Nat) : Nat :=
  if isIntFmt c then
    let w := fmtWidth c
    match op with
    | 0 => (a + b) % 2 ^ w
    | 1 => if sx a w ≤ sx b w then a else b
    | _ => if sx a w ≤ sx b w then b else a
  else
    let f := ieeeOf c
    let x := fDecode f a
    let y := fDecode f b
    match op with
    | 0 => (fAddV f .rne x y).1
    | 1 => (fConvert f .rne (fvMin x y)).1
    | _ => (fConvert f .rne (fvMax x y)).1

/-- An element as an engine writes it alone: NaNs are canonical (R59). -/
def canonElem (c a : Nat) : Nat := elemPattern c (elemValue c a)

def segredCheck (e : Eng) (c : SegredCmd) : JM Unit := do
  jCheck (descBad e.j.fmta || !(fa e.j == 0 || fa e.j == 5)) badFmt
  jCheck (decide (2 < c.op.toNat) || c.rowlen.toNat == 0 || decide (4096 < c.rowlen.toNat) || notMult c.dst.toNat 8 || e.j.cls == 0) badCmd

/-- The record of segment `i` (R297). -/
def segRecord (c : SegredCmd) (i key : Nat) (vs : List Nat) : Nat × List Byte :=
  (c.dst.toNat + 8 + i * (8 + 4 * c.rowlen.toNat), bytesOf 8 key ++ vs.flatMap fun v => bytesOf 4 v)

/-- A granule is one input pair; the entry keeps the segment's number, key and running row. -/
def segredGran (e : Eng) (c : SegredCmd) : JM Bool := do
  let n := c.n.toNat
  let i := e.j.gran
  if n == 0 then
    engWriteAll e [(c.dst.toNat, bytesOf 8 0)]
    pure true
  else
    let key ← engReadN e (c.keys.toNat + 4 * i) 4
    let row ← readPatterns e (fa e.j) (c.vals.toNat + 4 * i * c.rowlen.toNat) c.rowlen.toNat
    let old := e.j.scratch.map BitVec.toNat
    let seg := old.headD 0
    let same := i != 0 && old.getD 1 0 == key
    let flushed := if i == 0 || same then [] else [segRecord c seg (old.getD 1 0) (old.drop 2)]
    let seg := if i == 0 || same then seg else seg + 1
    let vals := if same then ((old.drop 2).zip row).map fun p => reduceElem (fa e.j) c.op.toNat p.1 p.2 else row.map (canonElem (fa e.j))
    let final := if n ≤ i + 1 then [segRecord c seg key vals, (c.dst.toNat, bytesOf 8 (seg + 1))] else []
    engWriteAll e (flushed ++ final)
    modMine e fun j => { j with scratch := (seg :: key :: vals).map word }
    pure (decide (n ≤ i + 1))

/-! ### SORTKV (R298) -/

def sortkvCheck (e : Eng) (c : SortkvCmd) : JM Unit :=
  jCheck (decide (4096 < c.n.toNat) || c.kt = 3 || notMult c.src.toNat 8 || notMult c.dst.toNat 8 || e.j.cls == 0) badCmd

/-- A key as an integer in its type's order; FP32 in totalOrder. -/
def sortKey (kt : Nat) (v : Word) : Int :=
  let k : Nat := v.toNat % 2 ^ 32
  match kt with
  | 0 => (k : Int)
  | 1 => sx k 32
  | _ => if k < 2 ^ 31 then (k : Int) else -((k - 2 ^ 31 : Nat) : Int) - 1

/-- Reading, the merge passes, and the write phase. -/
def sortkvGran (e : Eng) (c : SortkvCmd) : JM Bool := do
  let n := c.n.toNat
  let g := e.j.gran
  let passes := if n ≤ 1 then 0 else Nat.log2 (n - 1) + 1
  if g == 0 then
    let b ← engRead e c.src.toNat (8 * n)
    modMine e fun j => { j with scratch := (List.range n).map fun i => word (ofBytes ((b.drop (8 * i)).take 8)) }
    modify fun s => releaseGuards s e.key
    pure false
  else if g ≤ passes then pure false
  else
    let key (v : Word) : Int := sortKey c.kt.toNat v
    let out := sortBy (fun a b => if c.desc = 1 then decide (key b ≤ key a) else decide (key a ≤ key b)) e.j.scratch
    engWriteAll e [(c.dst.toNat, out.flatMap fun v => bytesOf 8 v.toNat)]
    pure true

/-! ### TOPK (R299) -/

def topkCheck (e : Eng) (c : TopkCmd) : JM Unit := do
  jCheck (descBad e.j.fmta || !isFloatOut (fa e.j)) badFmt
  jCheck (c.k.toNat == 0 || decide (64 < c.k.toNat) || decide (4096 < c.l.toNat) || decide (c.l.toNat < c.k.toNat) || e.j.cls == 0) badCmd

/-- A ranks at or before B: greater value, every NaN last. -/
def ranksBefore (a b : FV) : Bool := if isNan a then isNan b else isNan b || fCmp b a != 1

def topkGran (e : Eng) (c : TopkCmd) : JM Bool := do
  let r := e.j.gran
  let k := c.k.toNat
  if r < c.nrows.toNat then
    let vs ← readPlain e (fa e.j) (c.src.toNat + r * fmtBytes (fa e.j) * c.l.toNat) c.l.toNat
    let top := (sortBy (fun (a b : FV × Nat) => ranksBefore a.1 b.1) vs.zipIdx).take k
    engWriteAll e [(c.oidx.toNat + 4 * k * r, top.flatMap fun x => bytesOf 4 x.2), (c.oval.toNat + 4 * k * r, top.flatMap fun x => bytesOf 4 (pat32 x.1))]
  pure (decide (c.nrows.toNat ≤ r + 1))

end Sys2Proof.Machine
end

