-- ==== Sys2Proof/Machine/Collective.lean ====
section
/-! DEFINITION. Collectives: CALLR, CAGTH and CRSCT on the copy engine (R276 to R278), start, peer and loss steps (R372, R375,
R385), and the group instructions CGJOIN, CGLEAVE, CGSTAT with PLXL (R374, R380). -/

namespace Sys2Proof.Machine

/-! ### Reaching other panels (R384, R385) -/

/-- A step for a core of another panel leaves through the port that leads there; a port's replay buffer keeps the last 256 that it sent
(R384, R385; log entry 77). -/
def sendPeer (s : State) (port : Nat) (p : PeerStep) : State :=
  let mine := (port, p) :: s.peerOut.filter (·.1 == port)
  { s with peerOut := mine.take 256 ++ s.peerOut.filter (·.1 != port) }

/-- The router that a peer port attaches to (R384). -/
def portTile (k : Nat) : Nat := tileAt 127 (8 * k + 4)

/-- A peer port is up, and so is the router that it attaches to (R384). -/
def portUp (s : State) (k : Nat) : Bool :=
  let t := portTile k
  !s.pmc.portsDown.getLsbD k && !(getTile s t).routerDead && siteIn (getSite s (siteOf t)).st && !segDark s t

/-- The lowest-numbered peer port that is up towards a panel. -/
def portTo (s : State) (panel : Nat) : Option Nat :=
  let e := (amGet s.pmc.fabric panel).getD 0
  if bit e 63 then (List.range 12).find? fun k => bit e k && portUp s k else none

/-- A member that no step can reach: its panel has no port, or its site is lost. -/
def unreachable (s : State) (m : Member) : Bool :=
  if m.panel == ownPanel s then siteLost s m.tile else (portTo s m.panel).isNone

/-! ### The group table -/

def putGroup (s : State) (t : Nat) (g : GroupEnt) : State :=
  modTile s t fun k => { k with groups := g :: k.groups.filter fun e => !(e.grp == g.grp && e.core == g.core) }

/-! ### The descriptor's home -/

def putMember (s : State) (d m r : Nat) (isIn lv : Bool) (lseq jseq : Nat) : State :=
  let a := d + 0x40 + 16 * m
  let w := dwAt s a
  let s := performWrite s a 8 (setBits (setBits w 63 63 (b2n isIn)) 62 62 (b2n lv)).toNat none false r
  performWrite s (a + 8) 8 (lseq % 2 ^ 32 * 2 ^ 32 + jseq % 2 ^ 32) none false r

def putSeqGen (s : State) (d r hseq gen : Nat) : State := performWrite s (d + 8) 8 (gen % 2 ^ 32 * 2 ^ 32 + hseq % 2 ^ 32) none false r

def raiseGen (s : State) (d r : Nat) : State := putSeqGen s d r (gHseq s d) (gGen s d + 1)

/-- A number more than 2^30 below HSEQ. -/
def farBelow (hseq x : Nat) : Bool := serLe x hseq && decide (2 ^ 30 < (hseq + 2 ^ 32 - x) % 2 ^ 32)

/-- Keep every JSEQ and LSEQ within 2^30 below HSEQ (R371). -/
def keepNear (s : State) (d : Nat) : State :=
  let h := gHseq s d
  let lim := (h + 2 ^ 32 - 2 ^ 30) % 2 ^ 32
  (gMembers s d).foldl (fun s x =>
    let m := x.2
    let j := if farBelow h m.jseq then lim else m.jseq
    let l := if farBelow h m.lseq then lim else m.lseq
    if j != m.jseq || l != m.lseq then putMember s d x.1 0 m.isIn m.lv l j else s) s

/-- The operation has failed (R276). -/
def opFailed (s : State) (d q : Nat) : Bool := s.collOps.contains ⟨d, BitVec.ofNat 32 q⟩

/-- The membership of an operation that HSEQ has passed, as it was fixed (R372). -/
def fixedOf (s : State) (d q : Nat) : List Nat :=
  match s.collFixed.find? fun x => x.desc == d && x.seq == BitVec.ofNat 32 q with
  | some x => x.members
  | none => gMembersOf s d q

/-- The membership of an operation includes a member that a loss has taken out after it (R375, R420). -/
def opLost (s : State) (d q : Nat) : Bool :=
  s.collLosses.any fun l => l.desc == d && serLt q l.lseq.toNat && (fixedOf s d q).contains l.member

/-- The membership is fixed for a job: it belongs to the operation and goes on, or ends with BADCMD (R372). -/
def fixJob (s : State) (key member : Nat) (members : List Nat) : State :=
  if members.contains member then
    modJob s key fun j => { j with
      members := some members, st := if j.st == .parked && j.why == some .peer then .ready else j.st }
  else endJob s key badCmd

/-- A job of an operation cut short completes with ML (R278). -/
def endMl (s : State) (key : Nat) : State := endJob (modJob s key fun j => { j with ml := true }) key 0

/-- HSEQ moves past every number that has been started; each membership passed is fixed. -/
def advanceHseq (s : State) (d : Nat) : Nat → State
  | 0 => s
  | f + 1 =>
    let h := gHseq s d
    let here := s.collStarts.filter fun x => x.desc == d && x.seq.toNat == h
    if here.isEmpty then s
    else
      let ms := gMembersOf s d h
      let s := putSeqGen { s with collFixed := ⟨d, BitVec.ofNat 32 h, ms⟩ :: s.collFixed } d 0 (h + 1) (gGen s d)
      let s := here.foldl (fun s x => match x.key with | some k => fixJob s k x.member ms | none => s) s
      advanceHseq s d f

/-- The loss step at the descriptor's home (R375): current members among `lost` leave, and operations in flight that count a lost
member complete with ML, as those do that a survivor starts afterwards (R420). -/
def lossAtHome (s : State) (d : Nat) (lost : List Nat) : State :=
  let h := gHseq s d
  let who := (gMembers s d).filter fun x => lost.contains x.1 && isCurrent s d x.2
  let s := who.foldl (fun s x => putMember s d x.1 0 true true h x.2.jseq) s
  let s := if who.isEmpty then s else raiseGen s d 0
  let s := { s with collLosses := who.map (fun (x : Nat × Member) => (⟨d, x.1, BitVec.ofNat 32 h⟩ : CollLoss)) ++ s.collLosses }
  (s.collStarts.filter fun x => x.desc == d && opLost s d x.seq.toNat).foldl (fun s x =>
    match x.key with
    | some k => endMl s k
    | none => s) s

/-- The job of a start of an operation that HSEQ has passed: it belongs to the membership as fixed and goes on, completes with ML where that
membership has lost a member (R420), or ends with BADCMD (R372). -/
def lateStart (s : State) (d q key member : Nat) : State :=
  if opLost s d q && (fixedOf s d q).contains member then endMl s key else fixJob s key member (fixedOf s d q)

/-- A start of operation `q` by member `m` at the descriptor's home (R276, R372). -/
def startAtHome (s : State) (d m q : Nat) (key : Option Nat) (count fmt op : Nat) : State :=
  let ends (s : State) (f : Nat) : State := match key with | some k => endJob s k f | none => s
  if gMalformed s d then ends s badCmd
  else
    let cut := ((gMembers s d).filter fun x => isCurrent s d x.2 && unreachable s x.2).map (·.1)
    let s := if cut.isEmpty then s else lossAtHome s d cut
    let others := s.collStarts.filter fun x => x.desc == d && x.seq.toNat == q
    let differs := others.any fun x => x.count != count || x.fmt != fmt || x.op != op
    let s := { s with
      collStarts := (s.collStarts.filter fun x => !(x.desc == d && x.member == m)) ++ [⟨d, BitVec.ofNat 32 q, m, key, count, fmt, op⟩]
      collOps := s.collOps.filter fun o => !(o.desc == d && farBelow (gHseq s d) o.seq.toNat)
      collFixed := s.collFixed.filter fun o => !(o.desc == d && farBelow (gHseq s d) o.seq.toNat)
      collLosses := s.collLosses.filter fun o => !(o.desc == d && farBelow (gHseq s d) o.lseq.toNat) }
    let s := if differs && !opFailed s d q then { s with collOps := ⟨d, BitVec.ofNat 32 q⟩ :: s.collOps } else s
    let past := serLt q (gHseq s d)
    let s := keepNear (advanceHseq s d (s.collStarts.length + 1)) d
    if opFailed s d q then
      (s.collStarts.filter fun x => x.desc == d && x.seq.toNat == q).foldl (fun s x => match x.key with | some k => endJob s k badCmd | none => s) s
    else
      match key with
      | some k => if past then lateStart s d q k m else s
      | none => s

/-- Bytes of a descriptor (R371). -/
def descLen (s : State) (d : Nat) : Nat := 64 + 16 * min (gNmax s d) 4096

/-- The descriptor holds a word that its home cannot correct. -/
def groupBad (s : State) (d : Nat) : Bool := uncorrectable s d 64 || uncorrectable s d (descLen s d)

/-- COLLECTIVE_START_STEP (R372): a step that cannot reach the descriptor ends the job with FAR (R375), and one that meets an
uncorrectable word there with ECCU (R428); a guard over the descriptor holds the step at its port (R211). -/
def execCollectiveStartStep (i : Nat) (s : State) : Host.Outcome State Fault Refusal :=
  match s.msgs[i]? with
  | some (.start key) =>
    (match (entryAt s key).job with
    | some j =>
      let c := collOf j.cmd
      (match groupEntry s (key / 128) c.grp.toNat j.core with
       | some g =>
         if holeCheck s (key / 128) g.desc != .clear then .next (settle (endJob (dropMsg s i) key 5))
         else if guardHolds s g.desc (descLen s g.desc) (some key) false then .next s
         else if groupBad s g.desc then .next (settle (endJob (dropMsg s i) key 9))
         else
           .next (settle (startAtHome (countCorrected (dropMsg s i) g.desc (descLen s g.desc)) g.desc g.member c.seq.toNat (some key)
             c.count.toNat c.fmt.toNat c.op.toNat))
       | none => .next (settle (endJob (dropMsg s i) key badCmd)))
    | none => .next (dropMsg s i))
  | some (.peer (.start d m q count fmt op)) =>
    if guardHolds s d (descLen s d) none false then .next s
    else if groupBad s d then .next (dropMsg s i)
    else .next (settle (startAtHome (countCorrected (dropMsg s i) d (descLen s d)) d m q none count fmt op))
  | _ => .next s

/-- The started collective of a core that a step of an operation meets. -/
def collJobFor (s : State) (core grp seq : Nat) : Option (Nat × Job) :=
  (queueJobs s (4 * coreTile core)).find? fun p =>
    isCollective p.2.cmd && p.2.started && !p.2.last && p.2.core == core && (collOf p.2.cmd).grp.toNat == grp && (collOf p.2.cmd).seq.toNat == seq

/-- Every member's block has come. -/
def blocksDone (j : Job) : Bool :=
  match j.members with
  | some ms => ms.all fun m => (amGet j.blocks m).isSome
  | none => false

/-- COLLECTIVE_PEER_STEP (R276): a block reaches the job it belongs to; one for a core on a lost site goes nowhere; a step whose job has
not started waits for it. -/
def execCollectivePeerStep (i : Nat) (s : State) : Host.Outcome State Fault Refusal :=
  match s.msgs[i]? with
  | some (.peer (.block grp seq fromM toC data)) =>
    if siteLost s (coreTile toC) then .next (dropMsg s i)
    else
      match collJobFor s toC grp seq with
      | some (key, _) =>
        .next (settle (modJob (dropMsg s i) key fun j =>
          let j := { j with blocks := amSet j.blocks fromM data }
          { j with st := if blocksDone j && j.st == .parked && j.why == some .peer then .ready else j.st }))
      | none => .next s
  | _ => .next s

/-- Started collectives of the members of a group. -/
def groupJobs (s : State) (d : Nat) : List Nat :=
  ((allJobs s).filter fun p => isCollective p.2.cmd && p.2.started && !p.2.last
    && ((groupEntry s (p.1 / 128) (collOf p.2.cmd).grp.toNat p.2.core).map (·.desc)) == some d).map (·.1)

/-- COLLECTIVE_LOSS_STEP (R375): where the descriptor's own site is the lost one, every member's job ends with FAR. -/
def execCollectiveLossStep (i : Nat) (s : State) : Host.Outcome State Fault Refusal :=
  match s.msgs[i]? with
  | some (.loss d lost) =>
    let s := dropMsg s i
    if (match homeTile d with | some t => siteLost s t || s.holeSites.getLsbD (siteOf t) | none => false) then
      .next (settle ((groupJobs s d).foldl (fun s k => endJob s k 5) s))
    else .next (settle (lossAtHome s d lost))
  | _ => .next s

/-! ### The jobs (R276 to R278) -/

def collFmtOk (f : Nat) : Bool := [0, 1, 2, 3, 5, 7].contains f

def collCheck (e : Eng) (c : CollCmd) : JM Unit := do
  jCheck (!collFmtOk c.fmt.toNat) badFmt
  let s ← get
  match groupEntry s e.t c.grp.toNat e.j.core with
  | none => jFault badCmd
  | some g => jCheck (decide (2 < c.op.toNat) || g.next != c.seq) badCmd

/-- The start step leaves for the descriptor's home. -/
def collStart (e : Eng) : JM Unit := modify fun s => pushMsg s (.start e.key)

/-- Bytes of rank `r`'s part of a list. -/
def partOf (b : List Byte) (r n : Nat) : List Byte := (b.drop (r * n)).take n

/-- Send each other member its block: all of SRC, or for CRSCT the part of that member's rank. -/
def sendBlocks (s : State) (e : Eng) (c : CollCmd) (g : GroupEnt) (ms : List Nat) (src : List Byte) : State :=
  let n := c.count.toNat * fmtBytes c.fmt.toNat
  let part (r : Nat) : List Byte := if cEop e.j.cmd == 0x52 then partOf src r n else src
  (ms.zipIdx).foldl (fun (s : State) (x : Nat × Nat) =>
    if x.1 == g.member then modJob s e.key fun j => { j with blocks := amSet j.blocks x.1 (part x.2) }
    else
      let m := gMember s g.desc x.1
      let step : PeerStep := .block c.grp.toNat c.seq.toNat g.member (coreNo m.tile m.core) (part x.2)
      if m.panel == ownPanel s then pushMsg s (.peer step)
      else match portTo s m.panel with | some k => sendPeer s k step | none => s) s

/-- Elementwise reduction of the members' blocks by ascending rank (R277). -/
def reduceBlocks (f op : Nat) (bs : List (List Byte)) : List Byte :=
  let w := fmtBytes f
  let elems (b : List Byte) : List Nat := (List.range (b.length / w)).map fun i => ofBytes ((b.drop (i * w)).take w)
  match bs with
  | [] => []
  | b :: t =>
    let acc := t.foldl (fun acc x => (acc.zip (elems x)).map fun p => reduceElem f op p.1 p.2) ((elems b).map (canonElem f))
    acc.flatMap (bytesOf w)

/-- Granule 0 reads SRC and sends the blocks; the next ones write 256 bytes of the result each, once every block has come. -/
def collGran (e : Eng) (c : CollCmd) : JM Bool := do
  let s ← get
  match groupEntry s e.t c.grp.toNat e.j.core, e.j.members with
  | some g, some ms =>
    let n := c.count.toNat * fmtBytes c.fmt.toNat
    if e.j.gran == 0 then
      let src ← engRead e c.src.toNat (if cEop e.j.cmd == 0x52 then ms.length * n else n)
      modify fun s => releaseGuards (sendBlocks s e c g ms src) e.key
      pure false
    else if !blocksDone e.j then throw .peer
    else
      let bs := ms.map fun m => (amGet e.j.blocks m).getD []
      let out := if cEop e.j.cmd == 0x51 then bs.flatten else reduceBlocks c.fmt.toNat c.op.toNat bs
      let lo := 256 * (e.j.gran - 1)
      let b := (out.drop lo).take 256
      engWriteAll e (if b.isEmpty then [] else [(c.dst.toNat + lo, b)])
      pure (decide (out.length ≤ lo + 256))
  | some _, none => throw .peer
  | none, _ => jFault badCmd

/-! ### CGJOIN, CGLEAVE, CGSTAT (R374) -/

/-- The checks of W[a]; `k` gets the descriptor's address, and `gone` follows where it lies in a hole or on a lost site. -/
def groupAccess (s : State) (c : Nat) (r : Running) (a : Reg) (gone : Option (State → State)) (k : State → Nat → State) : State :=
  let ea := src s c r a
  match memCheck s c r ea 64 .read .block false with
  | (s, .ok pa _) => if spaceOf pa != 0 then trapHere s r .prot ea else k s pa
  | (s, .trap x) =>
    (match gone with
     | some f => if x == .hole then f s else trapHere s r (if x == .far then .prot else x) ea
     | none => trapHere s r (if x == .far then .prot else x) ea)
  | (s, .lost) => (match gone with | some f => f s | none => takeTrap s r.wptr .sitelost 0 ea 0 false)
  | (s, .fault tn m) => pageWait s c r ea tn .read m
  | (s, .ecc) => takeEccu s r.wptr none

/-- CGJOIN's step at the descriptor's home: the word for W[d]. The table entry of a current member whose CGLEAVE has not come due still goes
when its number reaches LSEQ. -/
def joinStep (s : State) (c rcb desc q : Nat) : State × Word :=
  if gMalformed s desc then (s, 4)
  else
    match memberNamed s desc c with
    | none => (s, 1)
    | some (m, e) =>
      let cur := isCurrent s desc e
      let t := coreTile c
      let grp := gGrp s desc
      if (cur && q != e.jseq) || (!cur && serLt q (gHseq s desc)) then (s, 2)
      else if decide (16 ≤ (getTile s t).groups.length) && (groupEntry s t grp c).isNone then (s, 3)
      else
        let s := if cur then s else raiseGen (putMember s desc m rcb true false e.lseq q) desc rcb
        let leaves := cur && e.lv
        let s := if leaves && serLe e.lseq q then s
          else putGroup s t ⟨grp, coreIdx c, desc, m, BitVec.ofNat 32 q, if leaves then some (BitVec.ofNat 32 e.lseq) else none⟩
        (s, word (m * 2 ^ 16))

/-- CGLEAVE's step. -/
def groupLeave (s : State) (c rcb desc q : Nat) : State × Word :=
  if gMalformed s desc then (s, 4)
  else
    match memberNamed s desc c with
    | none => (s, 1)
    | some (m, e) =>
      if !isCurrent s desc e then (s, 1)
      else if serLt q (gHseq s desc) || serLt q e.jseq then (s, 2)
      else
        let s := raiseGen (putMember s desc m rcb true true q e.jseq) desc rcb
        let t := coreTile c
        match groupEntry s t (gGrp s desc) c with
        | some g =>
          if serLe q g.next.toNat then (modTile s t fun k => { k with groups := k.groups.filter (· != g) }, 0)
          else (putGroup s t { g with leave := some (BitVec.ofNat 32 q) }, 0)
        | none => (s, 0)

/-- CGJOIN and CGLEAVE: a release, then one step at the home, which a guard there holds as it would an AMO; status 5 where the home is in a
hole or lost. -/
def groupChange (d a b : Reg) (stepOf : State → Nat → Nat → Nat → Nat → State × Word) (s : State) : Host.Outcome State Fault Refusal :=
  onCore s fun c r =>
    let v := src s c r b
    let checked (s : State) (k : State → State) : State := if bits v 63 32 != 0 then trapHere s r .bound v else releaseWait s c r .panel k
    groupAccess s c r a (some fun s => checked s fun s => finish s c r d 5) fun s pa =>
      checked s fun s =>
        atPort s c r pa (descLen s pa) fun s =>
          readBlock s c r pa (descLen s pa) fun s =>
            let (s, x) := stepOf s c r.rcb pa (bits v 31 0)
            finish s c r d x

/-- CGJOIN (R374). -/
def execCgjoin (d a b : Reg) (s : State) : Host.Outcome State Fault Refusal := groupChange d a b joinStep s

/-- CGLEAVE (R374). -/
def execCgleave (d a b : Reg) (s : State) : Host.Outcome State Fault Refusal := groupChange d a b groupLeave s

/-- CGSTAT's value (R374). -/
def groupStat (s : State) (c desc sel : Nat) : Word :=
  match sel with
  | 0 => word (gHseq s desc)
  | 1 => word (gGen s desc)
  | 2 => if gMalformed s desc then 0 else word (gMembersOf s desc (gHseq s desc)).length
  | _ =>
    if gMalformed s desc then 0
    else
      match memberNamed s desc c with
      | some (m, e) => word (m + b2n (isCurrent s desc e) * 2 ^ 63)
      | none => 0

/-- CGSTAT (R374). -/
def execCgstat (d a b : Reg) (s : State) : Host.Outcome State Fault Refusal :=
  onCore s fun c r =>
    let v := src s c r b
    groupAccess s c r a none fun s pa =>
      if 3 < v.toNat then trapHere s r .bound v
      else readBlock s c r pa (if v.toNat < 2 then 64 else descLen s pa) fun s => finish s c r d (groupStat s c pa v.toNat)

/-! ### PLXL -/

/-- The word that PLXL gives for a core (R380). -/
def placeWord (t core : Nat) : Word :=
  word (2 ^ 63 + patI (tileY t) 8 * 2 ^ 40 + tileX t * 2 ^ 32 + core * 2 ^ 20 + tileKind t * 2 ^ 16 + t)

/-- PLXL (R380). -/
def execPlxl (d a : Reg) (s : State) : Host.Outcome State Fault Refusal :=
  onCore s fun c r =>
    let pw := src s c r a
    unlessFrozen s c r
      (match resolvePlace s r.rcb (coreTile c) pw (some (coreIdx c)) r.sm with
       | .bound => trapHere s r .bound pw
       | .reserved => trapOpen s r .prot
       | .ok t i => finish s c r d (placeWord t i))

end Sys2Proof.Machine
end

