-- ==== Sys2Proof/Machine/FloatOps.lean ====
section
/-! DEFINITION. Scalar floating point (R113 to R118): the value, the flags into FSTAT, W[d], PC + 4. -/

namespace Sys2Proof.Machine

/-- The common end of an FP instruction (R113). -/
def finishFp (s : State) (c : Nat) (r : Running) (d : Reg) (v : Word) (fl : Nat) : State :=
  let s1 := raiseFlags s c r.wptr fl
  let s2 := regWr s1 c r.wptr d v
  retire s2 c r

/-- FSTAT.RM as it stands at issue (R112). -/
def rmNow (s : State) (c : Nat) (r : Running) : Rm := fstatRm (pcsrRd s c r.wptr 1)

/-- FADD, FSUB, FMUL, FDIV, FMIN, FMAX and FSQRT, with the residue check of R119 (log entry 18). -/
def fpBinary (i : Instr) (op : FpOp) (p : Prec) (d a b : Reg) (s : State) : Host.Outcome State Fault Refusal :=
  onCore s fun c r => residue s c r i fun s =>
    let v := fpValue op p (rmNow s c r) (src s c r a) (src s c r b)
    finishFp s c r d (fPack v.1) v.2

/-- FEQ, FLT and FLE, which no residue checks (R114; log entry 18). -/
def fpCompare (op : FpCmp) (p : Prec) (d a b : Reg) (s : State) : Host.Outcome State Fault Refusal :=
  onCore s fun c r =>
    let v := fcmpValue op p (src s c r a) (src s c r b)
    finishFp s c r d (boolW v.1) v.2

/-- The fused forms, with the residue check of R119 (R115). -/
def fpFused (i : Instr) (np nc : Bool) (p : Prec) (d a b x : Reg) (s : State) : Host.Outcome State Fault Refusal :=
  onCore s fun c r => residue s c r i fun s =>
    let v := fmaValue p (rmNow s c r) np nc (src s c r a) (src s c r b) (src s c r x)
    finishFp s c r d (fPack v.1) v.2

/-- FADD (R113). -/
def execFadd (p : Prec) (d a b : Reg) (s : State) : Host.Outcome State Fault Refusal :=
  fpBinary (.fadd p d a b) .add p d a b s

/-- FSUB (R113). -/
def execFsub (p : Prec) (d a b : Reg) (s : State) : Host.Outcome State Fault Refusal :=
  fpBinary (.fsub p d a b) .sub p d a b s

/-- FMUL (R113). -/
def execFmul (p : Prec) (d a b : Reg) (s : State) : Host.Outcome State Fault Refusal :=
  fpBinary (.fmul p d a b) .mul p d a b s

/-- FDIV (R113). -/
def execFdiv (p : Prec) (d a b : Reg) (s : State) : Host.Outcome State Fault Refusal :=
  fpBinary (.fdiv p d a b) .div p d a b s

/-- FMIN (R114) (R113). -/
def execFmin (p : Prec) (d a b : Reg) (s : State) : Host.Outcome State Fault Refusal :=
  fpBinary (.fmin p d a b) .min p d a b s

/-- FMAX (R114) (R113). -/
def execFmax (p : Prec) (d a b : Reg) (s : State) : Host.Outcome State Fault Refusal :=
  fpBinary (.fmax p d a b) .max p d a b s

/-- FSQRT (R113). -/
def execFsqrt (p : Prec) (d a : Reg) (s : State) : Host.Outcome State Fault Refusal :=
  fpBinary (.fsqrt p d a) .sqrt p d a 0 s

/-- FSGNJ: no flag (R110, R114). -/
def execFsgnj (p : Prec) (d a b : Reg) (s : State) : Host.Outcome State Fault Refusal :=
  onCore s fun c r => finish s c r d (fsgnjValue p false (src s c r a) (src s c r b))

/-- FSGNJN: no flag (R110, R114). -/
def execFsgnjn (p : Prec) (d a b : Reg) (s : State) : Host.Outcome State Fault Refusal :=
  onCore s fun c r => finish s c r d (fsgnjValue p true (src s c r a) (src s c r b))

/-- FEQ (R113). -/
def execFeq (p : Prec) (d a b : Reg) (s : State) : Host.Outcome State Fault Refusal :=
  fpCompare .eq p d a b s

/-- FLT (R113). -/
def execFlt (p : Prec) (d a b : Reg) (s : State) : Host.Outcome State Fault Refusal :=
  fpCompare .lt p d a b s

/-- FLE (R113). -/
def execFle (p : Prec) (d a b : Reg) (s : State) : Host.Outcome State Fault Refusal :=
  fpCompare .le p d a b s

/-- FCLASS: no flag (R110, R114). -/
def execFclass (p : Prec) (d a : Reg) (s : State) : Host.Outcome State Fault Refusal :=
  onCore s fun c r => finish s c r d (fclassValue p (src s c r a))

/-- FCVT.I (R116): rounds by its own field. -/
def execFcvtI (p : Prec) (d a : Reg) (ty : IntTy) (rm : Rm) (s : State) : Host.Outcome State Fault Refusal :=
  onCore s fun c r => residue s c r (.fcvtI p d a ty rm) fun s =>
    let v := fcvtIValue p ty rm (src s c r a)
    finishFp s c r d v.1 v.2

/-- FCVT.F (R117). -/
def execFcvtF (p : Prec) (d a : Reg) (ty : IntTy) (s : State) : Host.Outcome State Fault Refusal :=
  onCore s fun c r => residue s c r (.fcvtF p d a ty) fun s =>
    let v := fcvtFValue p ty (rmNow s c r) (src s c r a)
    finishFp s c r d (fPack v.1) v.2

/-- FCVT.SD (R118). -/
def execFcvtSd (p : Prec) (d a : Reg) (s : State) : Host.Outcome State Fault Refusal :=
  onCore s fun c r => residue s c r (.fcvtSd p d a) fun s =>
    let v := fcvtSdValue p (rmNow s c r) (src s c r a)
    finishFp s c r d (fPack v.1) v.2

/-- FMADD: A × B + C (R115). -/
def execFmadd (p : Prec) (d a b x : Reg) (s : State) : Host.Outcome State Fault Refusal :=
  fpFused (.fmadd p d a b x) false false p d a b x s

/-- FMSUB: A × B − C (R115). -/
def execFmsub (p : Prec) (d a b x : Reg) (s : State) : Host.Outcome State Fault Refusal :=
  fpFused (.fmsub p d a b x) false true p d a b x s

/-- FNMADD: −(A × B) − C (R115). -/
def execFnmadd (p : Prec) (d a b x : Reg) (s : State) : Host.Outcome State Fault Refusal :=
  fpFused (.fnmadd p d a b x) true true p d a b x s

/-- FNMSUB: −(A × B) + C (R115). -/
def execFnmsub (p : Prec) (d a b x : Reg) (s : State) : Host.Outcome State Fault Refusal :=
  fpFused (.fnmsub p d a b x) true false p d a b x s

end Sys2Proof.Machine
end

