-- ==== Sys2Proof/Machine/Flow.lean ====
section
/-! DEFINITION. Events of stores in flight (R177, R178, R192, R193, R202), of watched words and timed waits (R204 to R208), the
delivery of asynchronous traps (R342), and the Foghorn service (R257 to R260). -/

namespace Sys2Proof.Machine

/-! ### Stores in flight -/

/-- The lowest free entry of a core's journal of 32 (R192). -/
def freeJournal (s : State) (c : Nat) : Option Nat := (List.range 32).find? fun i => (amGet (getCore s c).journal i).isNone

/-- A store handed to its link (R196): it is performed, and its link carries a store of the core. -/
def postToHost (s : State) (c : Nat) (e : StoreEnt) : State :=
  let s := hostPut (intervalTouch s (procRegion s e.wptr) e.pa) e.pa (bytesOf (storeBytes e) e.data.toNat)
  modCore s c fun k => { k with linksUsed := k.linksUsed ||| (1#4 <<< linkOf e.pa) }

/-- A store takes a journal entry and leaves for its home, or meets a hole or a site being lost at its source (R161, R192,
R193). -/
def postStore (s : State) (c i : Nat) (e : StoreEnt) : State :=
  let s := tick s
  let s := modCore s c fun k => { k with journal := amSet k.journal i ⟨e, false, .hole, s.order, false⟩ }
  match holeCheck s (coreTile c) e.pa with
  | .hole => pushMsg s (.refuse c i .hole)
  | .lost => pushMsg s (.refuse c i .sitelost)
  | .clear =>
    pushMsg s (.store c i)

/-- The store at the head of a buffer leaves it and updates its core's L1 (R179), when guards, holds, the journal and the stores before it allow (R177, R202). A
store to device space leaves by DEVICE_REG_WRITE. -/
def leaveBuffer (s : State) (c : Nat) (e : StoreEnt) : State :=
  let popped := modCore s c fun k => { k with sbuf := k.sbuf.drop 1 }
  let leaves (s : State) : State := storeToL1 (dropHeldAcc s (.own c)) c e
  if spaceOf e.pa == 8 then postToHost popped c e
  else if spaceOf e.pa == 15 then s
  else if homeTile e.pa == some (coreTile c) then
    if !segStoresDone s c then s
    else if storeHeld s e (.own c) then noteHeld s e.pa (storeSpan e) (.own c) e.sm
    else performStore (leaves popped) e c
  else
    match freeJournal s c with
    | some i => postStore (leaves popped) c i e
    | none => s

/-- STORE_LEAVES_BUFFER (R202). -/
def execStoreLeavesBuffer (c : Nat) (s : State) : Host.Outcome State Fault Refusal :=
  match (getCore s c).sbuf with
  | e :: _ => .next (settle (leaveBuffer s c e))
  | [] => .next s

/-- An earlier store of the core must be performed before this one: both homed in its segment (R177), or both at one home
(R174). -/
def storeBehind (s : State) (c i : Nat) (me : JEnt) : Bool :=
  (getCore s c).journal.any fun e =>
    e.1 != i && !e.2.rf && decide (e.2.age < me.age) && inFlight s c e.1
      && ((inSegment c e.2.store.pa && inSegment c me.store.pa) || homeTile e.2.store.pa == homeTile me.store.pa)

/-- The router of a store's home accepts it (R408), unless the boundary of its site turns it back (R161). -/
def noteStore (s : State) (c : Nat) (e : StoreEnt) : State :=
  match homeTile e.pa with
  | some t => if siteGone s (coreTile c) t then s else noteMsg s c t
  | none => noteAt s c e.pa

/-- POSTED_STORE_ARRIVAL (R193): performed, held, or refused where its home does not take it (R161, R370). -/
def execPostedStoreArrival (i : Nat) (s : State) : Host.Outcome State Fault Refusal :=
  match s.msgs[i]? with
  | some (.store c j) =>
    match amGet (getCore s c).journal j with
    | some me => if storeBehind s c j me then .next s else .next (settle (storeArrives (noteStore (dropMsg s i) c me.store) c j))
    | none => .next (dropMsg s i)
  | _ => .next s

/-- POSTED_STORE_ACK (R192). -/
def execPostedStoreAck (i : Nat) (s : State) : Host.Outcome State Fault Refusal :=
  match s.msgs[i]? with
  | some (.ack c j) => .next (settle (modCore (dropMsg s i) c fun k => { k with journal := amErase k.journal j }))
  | _ => .next s

/-- POSTED_STORE_REFUSAL (R193, R346): the entry is refused and POSTREF is pending at the issuer; without an issuer the entry
frees. -/
def execPostedStoreRefusal (i : Nat) (s : State) : Host.Outcome State Fault Refusal :=
  match s.msgs[i]? with
  | some (.refuse c j cause) =>
    let s := dropMsg s i
    match amGet (getCore s c).journal j with
    | some e =>
      if (getProc s e.store.wptr).isSome then
        let e := { e with rf := true, cause := cause }
        let s := dropOwnCopies (modCore s c fun k => { k with journal := amSet k.journal j e }) c e.store.pa
        .next (settle (pendTrap s e.store.wptr ⟨.postref, 0, journalRef c j, journalWord0 e⟩))
      else .next (settle (modCore (dropOwnCopies s c e.store.pa) c fun k => { k with journal := amErase k.journal j }))
    | none => .next s
  | _ => .next s

/-! ### Watched words and timed waits -/

/-- A notice meets the wait of its process. -/
def takeNotice (s : State) (w : Nat) (p : Proc) (v : Word) (full rel : Bool) : State :=
  match p.wait with
  | .ldf d => if full then finishAcq s w d v else s
  | .waita d old _ => if v = old then s else if rel then finishAcq s w d v else finishWait s w d v
  | .join => if v = 0 then finishAcq s w 0 0 else s
  | .retry => retryWait s w
  | _ => s

/-- WATCH_NOTICE (R204, R205, R208, R228, R331): notices of one home arrive in order. -/
def execWatchNotice (i : Nat) (s : State) : Host.Outcome State Fault Refusal :=
  match s.msgs[i]? with
  | some (.notice w _ v full rel) =>
    if (s.msgs.take i).any (noticeTo w) then .next s
    else
      let s := dropMsg s i
      match getProc s w with
      | some p => if isWaiting (pstate s w) then .next (settle (takeNotice s w p v full rel)) else .next s
      | none => .next s
  | _ => .next s

/-- WAITA_DEADLINE (R208): a notice that reaches the process in the tick of its deadline decides (R209). -/
def execWaitaDeadline (w : Nat) (s : State) : Host.Outcome State Fault Refusal :=
  match getProc s w with
  | some p =>
    if isWaiting (pstate s w) && !s.msgs.any (noticeTo w) then
      match p.wait with
      | .waita d old (some dl) => if dl.ule s.time then .next (settle (finishWait s w d old)) else .next s
      | .time d v dl => if dl.ule s.time then .next (settle (finishWait s w d v)) else .next s
      | _ => .next s
    else .next s
  | none => .next s

/-! ### Asynchronous traps -/

/-- ASYNC_TRAP_DELIVERY (R342): the first pending cause. -/
def execAsyncTrapDelivery (w : Nat) (s : State) : Host.Outcome State Fault Refusal := .next (settle (deliverPend s w))

/-! ### Foghorn -/

/-- The channel word that a process waits on in WCHAN; one that has met its peer waits for no process any more. -/
def waitWord (s : State) (w : Nat) : Option Nat :=
  match getProc s w with
  | some p => match p.wait with
    | .chan _ _ wd => if pstate s w == 2 && !inTransfer s w then some wd else none
    | _ => none
  | none => none

/-- The wait-for edge of a process (R257): the live process that the opposite end of its channel is bound to. -/
def edgeOf (s : State) (w : Nat) : Option Nat :=
  match waitWord s w with
  | some wd =>
    match (getTile s (wd / tlmWindow)).bindings.find? (·.word == wd) with
    | some b =>
      let q := if linkIsWriter s (w - 32) then b.reader else b.writer
      if q != 0 && q != w && (getProc s q).isSome then some q else none
    | none => none
  | none => none

/-- FOGHORN_PROBE_SEND (R258). -/
def execFoghornProbeSend (w : Nat) (s : State) : Host.Outcome State Fault Refusal :=
  match getProc s w with
  | some p =>
    let fg := bits (getCore s p.core).fgwait 31 0
    match edgeOf s w with
    | some q =>
      if fg ≤ p.waitClocks then
        let s := modProc s w fun p => { p with waitClocks := p.waitClocks - fg }
        .next (pushMsg s (.probe w (wseqOf s w) [] q))
      else .next s
    | none => .next s
  | none => .next s

/-- A probe at the home of the process it travels to: back at its originator it becomes a confirmation; else it is dropped or
extended (R258). -/
def probeAt (s : State) (orig : Nat) (wseq : BitVec 32) (hops : List (Nat × BitVec 32)) (r : Nat) : State :=
  if r == orig then pushMsg s (.confirm orig ((orig, wseq) :: hops))
  else
    match edgeOf s r with
    | some q =>
      if decide (r < orig) || decide (16 ≤ hops.length) || siteLost s (r / tlmWindow) then s
      else pushMsg s (.probe orig wseq (hops ++ [(r, wseqOf s r)]) q)
    | none => s

/-- FOGHORN_PROBE_HOP (R258). -/
def execFoghornProbeHop (i : Nat) (s : State) : Host.Outcome State Fault Refusal :=
  match s.msgs[i]? with
  | some (.probe orig wseq hops r) => .next (probeAt (wakeCore (dropMsg s i) (procCore s r)) orig wseq hops r)
  | _ => .next s

/-- Every member still waits with the recorded WSEQ (R258). -/
def cycleHolds (s : State) (ms : List (Nat × BitVec 32)) : Bool :=
  ms.all fun m => (waitWord s m.1).isSome && wseqOf s m.1 == m.2

/-- The cycle report (R259): sixteen doublewords of member identities. -/
def cycleReport (ms : List Nat) : List Word := (List.range 16).map fun i => word (ms.getD i 0)

/-- Every member of a proven cycle receives DEADLOCK; the report follows the originator's record (R259, R344). -/
def proveCycle (s : State) (orig : Nat) (ms : List Nat) : State :=
  ms.foldl (fun s w =>
    match waitWord s w with
    | some wd =>
      let more := if w == orig then [⟨cycleReport ms, procRegion s w, none, false⟩] else []
      takeTrapWith s w .deadlock 0 (word wd) 0 false more
    | none => s) s

/-- FOGHORN_CONFIRM (R258, R259). -/
def execFoghornConfirm (i : Nat) (s : State) : Host.Outcome State Fault Refusal :=
  match s.msgs[i]? with
  | some (.confirm orig ms) =>
    let s := ms.foldl (fun s m => wakeCore s (procCore s m.1)) (dropMsg s i)
    if cycleHolds s ms then .next (settle (proveCycle s orig (ms.map (·.1)))) else .next s
  | _ => .next s

/-- The region is stalled (R260), in ENDING too. -/
def regionStalled (s : State) (r : Nat) : Bool :=
  isRcb s r && decide (1 ≤ rcbLive s r) && s.procs.all (fun e => e.2.rcb != r || stalledProc s e.1 e.2) && (regionJobs s r).isEmpty

/-- REGION_STALL (R260): one record from the anchor tile. -/
def execRegionStall (r : Nat) (s : State) : Host.Outcome State Fault Refusal :=
  let g := getRegion s r
  let c := coreNo (anchorTile r) 0
  let k := getCore s c
  if regionStalled s r && !g.stallSent && decide (bits k.fgwait 31 0 ≤ g.stallClocks) then
    let rec0 := trapRecord k.tseq .deadlock 1 0 0 (word r) (placeOf c) r 0 s.time
    let s := modRegion s r fun g => { g with stallSent := true }
    let s := modCore s c fun k => { k with tseq := word ((k.tseq.toNat + 1) % 2 ^ 32) }
    .next (settle (queueRecords s (anchorTile r) [⟨rec0, r, none, false⟩] r))
  else .next s

end Sys2Proof.Machine
end

