-- ==== Sys2Proof/Machine/Paging.lean ====
section
/-! DEFINITION. Events of paging and of device registers: Watchrooms and their pagers' replies (R167 to R169), shootdowns (R170,
R171), and device stores performed at their homes (R434). -/

namespace Sys2Proof.Machine

/-! ### Watchrooms -/

/-- The 32-byte request to a pager (R168). -/
def pagerRequest (m : FaultMsg) (entry : Nat) : List Word :=
  [word (m.page / 2 ^ 16 % 2 ^ 32 + m.tenant % 4096 * 2 ^ 32 + m.kind % 16 * 2 ^ 44 + m.w % 32 * 2 ^ 48 + entry % 64 * 2 ^ 53
    + b2n m.malformed * 2 ^ 59), 0, 0, 0]

/-- One more waiter of an entry; each firing of a trigger is one of its own. -/
def WrEntry.add (e : WrEntry) (x : FaultSrc) : WrEntry :=
  match x with
  | .trigger _ _ _ => { e with who := e.who ++ [x] }
  | _ => if e.who.contains x then e else { e with who := e.who ++ [x] }

/-- A fault message at its Watchroom: it merges into an entry, takes a new one with a request, or is refused, which leaves it to be
resent; `i` is its place among the messages. -/
def faultAt (s : State) (i : Nat) (m : FaultMsg) : State :=
  let w := getWatchroom s m.w
  match w.entries.find? fun e => e.2.tenant == m.tenant && e.2.page == m.page with
  | some e => modWatchroom (dropMsg s i) m.w fun w => { w with entries := amSet w.entries e.1 (WrEntry.add e.2 m.who) }
  | none =>
    match (List.range 64).find? fun k => (amGet w.entries k).isNone with
    | some k => modWatchroom (dropMsg s i) m.w fun w =>
        { w with entries := amSet w.entries k ⟨m.tenant, m.page, [m.who]⟩, out := w.out ++ [pagerRequest m k] }
    | none => { s with msgs := s.msgs.set i (.fault { m with refused := true }) }

/-- PAGE_FAULT_MESSAGE (R168). -/
def execPageFaultMessage (i : Nat) (s : State) : Host.Outcome State Fault Refusal :=
  match s.msgs[i]? with
  | some (.fault m) => if m.refused then .next s else .next (settle (faultAt s i m))
  | _ => .next s

/-- FAULT_MESSAGE_RESEND (R168). -/
def execFaultMessageResend (i : Nat) (s : State) : Host.Outcome State Fault Refusal :=
  match s.msgs[i]? with
  | some (.fault m) => .next { s with msgs := s.msgs.set i (.fault { m with refused := false }) }
  | _ => .next s

/-- The waiting processes of a core that wait on a page of a tenant. -/
def pageWaiters (s : State) (c tenant page : Nat) : List Nat :=
  ((getCore s c).pwait.filter fun p => p.tenant == tenant && p.page == page).map (·.wptr)

/-- The waiting access of a process is tried again, or traps PAGE with its own virtual address (R169). -/
def pageAnswer (s : State) (w : Nat) (refused : Bool) : State :=
  match getProc s w with
  | some p =>
    let s := dropPageWait s w
    if !(p.wait == .page && isWaiting (pstate s w)) then s
    else if refused then takeTrap s w .page 0 (word p.keptArg) 0 false
    else retryWait s w
  | none => s

/-- Where in a transfer's failing buffer the refused page begins. -/
def transferVa (t : Transfer) (writer : Bool) (page : Nat) : Nat :=
  match (if writer then t.writer else t.reader) with
  | .buf _ va _ => max (va + t.done) page
  | _ => page

/-- What a reply means for one waiter of an entry (R169). -/
def answerTo (s : State) (e : WrEntry) (refused : Bool) (x : FaultSrc) : State :=
  match x with
  | .core c => (pageWaiters s c e.tenant e.page).foldl (fun s w => pageAnswer s w refused) s
  | .job key =>
    match jobAt s key with
    | some j =>
      if !(j.st == .parked && j.why == some .page) then s
      else if refused then endJob s key 6
      else modJob s key fun j => { j with st := .ready, why := none }
    | none => s
  | .trigger t i sm => if refused then setTrigStat s t i 6 else fireSpawn s t i sm
  | .transfer wd =>
    match s.transfers.find? fun t => t.word == wd && t.parked.isSome with
    | some t =>
      let wr := t.parked == some true
      if refused then
        let s := copyFreed { s with transfers := s.transfers.erase t } t
        if transferLost s t then loseTransfer s t else failTransfer s t wr .page (transferVa t wr e.page)
      else { s with transfers := s.transfers.map fun x => if x == t then { t with parked := none } else x }
    | none => s

/-- A pager's reply at Watchroom `w`: entry and outcome; a reply to an entry not in use is dropped (R169). -/
def watchroomReply (s : State) (w : Nat) (v : Word) : State :=
  let k := watchroomEntry v
  match amGet (getWatchroom s w).entries k with
  | some e =>
    let s := modWatchroom s w fun x => { x with entries := amErase x.entries k }
    e.who.foldl (fun s x => answerTo s e (bit v 8) x) s
  | none => s

/-- WATCHROOM_REPLY_MAPPED (R169). -/
def execWatchroomReplyMapped (w entry : Nat) (s : State) : Host.Outcome State Fault Refusal :=
  .next (settle (watchroomReply s w (word (entry % 64))))

/-- WATCHROOM_REPLY_REFUSED (R169). -/
def execWatchroomReplyRefused (w entry : Nat) (s : State) : Host.Outcome State Fault Refusal :=
  .next (settle (watchroomReply s w (word (256 + entry % 64))))

/-! ### Shootdowns -/

/-- SHOOTDOWN_START (R170): a store of `v` to SDCTL of segment `g` with BUSY clear. -/
def execShootdownStart (g : Nat) (v : Word) (s : State) : Host.Outcome State Fault Refusal := .next (startShootdown s g v)

/-- A virtual address of a tenant whose translation the shootdown has removed, or may have (R171). -/
def shotAddr (x : Shot) (tenant va : Nat) : Bool := tenant == x.tid && x.ranges.any fun r => decide (r.1 ≤ va) && decide (va < r.2)

/-- The virtual address that a core's request to a host is made for. -/
def stallVa (r : Running) : Stall → Option Nat
  | .pcieLoad ea _ _ _ _ _ => some (ea.toNat % 2 ^ 48)
  | .pcieAmo ea _ _ _ _ _ _ _ => some (ea.toNat % 2 ^ 48)
  | .pcieFetch _ _ => some r.pc.toNat
  | _ => none

/-- An access of the core under a removed translation is still on its way: a buffered or unacknowledged store, or a request to a
host (R171). -/
def accessOpen (s : State) (x : Shot) (c : Nat) (k : Core) : Bool :=
  let shot (e : StoreEnt) : Bool := shotAddr x e.tenant e.va
  k.sbuf.any shot || k.journal.any (fun e => !e.2.rf && shot e.2.store)
    || (match k.run, k.stall with
        | some r, some st => (match stallVa r st with | some va => shotAddr x (accessTenant s c r) va | none => false)
        | _, _ => false)

/-- One side of a rendezvous that has begun to move reads or writes under a removed translation. -/
def endOpen (x : Shot) (t : Transfer) (space : Option Nat) : ChanEnd → Bool
  | .buf _ va _ => space == some x.tid && x.ranges.any fun r => decide (r.1 < va + t.n) && decide (va < r.2)
  | _ => false

/-- An engine access in progress under a removed translation: a granule that is in flight of a job of the tenant, or a copy that a port
holds (R171). -/
def engineOpen (s : State) (x : Shot) (inside : Nat → Bool) : Bool :=
  (allJobs s).any (fun p => p.2.inFlight && p.2.st == .running && p.2.tenant == x.tid && inside (p.1 / 128))
    || s.transfers.any fun t => t.moving && inside t.tile && (endOpen x t t.wSpace t.writer || endOpen x t t.rSpace t.reader)

/-- Every access in the scope of segment `n`'s shootdown that used a removed translation is performed (R171). -/
def shootdownDone (s : State) (n : Nat) : Bool :=
  match (getSeg s n).shot with
  | some x =>
    let inside := inShootScope n x.scope
    s.cores.all (fun e => !(inside (coreTile e.1) && accessOpen s x e.1 e.2)) && !engineOpen s x inside
  | none => true

/-- SHOOTDOWN_COMPLETE (R171): BUSY clears. -/
def execShootdownComplete (g : Nat) (s : State) : Host.Outcome State Fault Refusal :=
  if bit (getSeg s g).sdctl 63 && shootdownDone s g then .next (modSeg s g fun k => { k with sdctl := setBits k.sdctl 63 63 0, shot := none })
  else .next s

/-! ### Device stores -/

/-- The device store at the head of a core's buffer is performed at its home, unless its register holds it (R170, R365, R378,
R434). -/
def deviceStore (s : State) (c : Nat) (e : StoreEnt) : State :=
  if spaceOf e.pa != 15 || devHeld s e.pa then s
  else
    let s := modCore s c fun k => { k with sbuf := k.sbuf.drop 1 }
    devWrite s e.pa e.n e.data.toNat true watchroomReply

/-- DEVICE_REG_WRITE (R434). -/
def execDeviceRegWrite (c : Nat) (s : State) : Host.Outcome State Fault Refusal :=
  match (getCore s c).sbuf with
  | e :: _ => .next (settle (deviceStore s c e))
  | [] => .next s

end Sys2Proof.Machine
end

