-- ==== Sys2Proof/Machine/HostIO.lean ====
section
/-! DEFINITION. The hosts: completions of reads and AtomicOps (R196, R197, R199, R212), host writes and reads (R197, R337), doorbells
(R338), launches and their completion records (R339 to R341), and the latch of the energy counters (R406). -/

namespace Sys2Proof.Machine

/-! ### Completions -/

/-- The AtomicOp of an AMO function code (R210, R212). -/
def hostAmoFn (op : Nat) : AmoFn := if op == 0 then .swap else if op == 1 then .add else .cas

/-- The core's request to a host is answered. -/
def unstallCore (s : State) (c : Nat) : State :=
  let s := modCore s c fun k => { k with stall := none }
  { s with hosts := { s.hosts with pending := s.hosts.pending.filter fun p => p.1 != c } }

/-- The zero-length read of one link of a system-scope release is done: that link carries no store any more (R197). -/
def linkRead (s : State) (c : Nat) (links : BitVec 4) : State :=
  let rest := links &&& (links - 1)
  let s := noteMsg s c (hostRouter (((List.range 4).find? fun i => links.getLsbD i).getD 0))
  let s := modCore s c fun k => { k with linksUsed := k.linksUsed &&& ~~~(links ^^^ rest) }
  if rest = 0 then unstallCore s c else modCore s c fun k => { k with stall := some (.pcieRelease rest) }

/-- A failed completion, or none within 50 ms: PROT, precise (R199). A zero-length read is done all the same. -/
def pcieFails (s : State) (c : Nat) (r : Running) (st : Stall) : State :=
  match st with
  | .pcieLoad ea _ _ _ _ _ => trapHere (unstallCore s c) r .prot ea
  | .pcieAmo ea _ _ _ _ _ _ _ => trapHere (unstallCore s c) r .prot ea
  | .pcieFetch _ _ => trapHere (unstallCore s c) r .prot (r.pc.setWidth 64)
  | .pcieRelease links => linkRead s c links
  | _ => s

/-- A completion with data: a load's or an AtomicOp's value, the word of a fetch, or one zero-length read (R196, R197). -/
def pcieAnswers (s : State) (c : Nat) (r : Running) (st : Stall) (data : Word) : State :=
  match st with
  | .pcieLoad _ _ d n signed acq => loadDone (unstallCore s c) c r d n (data.toNat % 2 ^ (8 * n)) signed acq
  | .pcieAmo _ pa d n op b x acq =>
    let w := 8 * n
    let old := data.toNat % 2 ^ w
    let (new, wrote) := amoValue (hostAmoFn op) w old (b.toNat % 2 ^ w) (x.toNat % 2 ^ w)
    let s := unstallCore s c
    let s := if wrote then hostPut (intervalTouch s r.rcb pa) pa (bytesOf n new) else s
    amoDone s c r d n old acq
  | .pcieFetch pa nc => keepHostCode (unstallCore s c) c pa (bytesOf 4 data.toNat) nc
  | .pcieRelease links => linkRead s c links
  | _ => s

/-- A completion reaches a core. -/
def pcieReply (s : State) (c : Nat) (data : Option Word) : State :=
  let k := getCore s c
  match k.run, k.stall with
  | some r, some st =>
    match data with
    | some v => pcieAnswers s c r st v
    | none => pcieFails s c r st
  | _, _ => s

/-- PCIE_COMPLETION (R199): UR and CA are errors. -/
def execPcieCompletion (c : Nat) (status : CplStatus) (data : Word) (s : State) : Host.Outcome State Fault Refusal :=
  .next (settle (pcieReply s c (if status = .ok then some data else none)))

/-- PCIE_COMPLETION_TIMEOUT (R199). -/
def execPcieCompletionTimeout (c : Nat) (s : State) : Host.Outcome State Fault Refusal := .next (settle (pcieReply s c none))

/-! ### Host accesses -/

/-- HOST_WRITE (R197, R337): the write arrives behind those of its link that are not performed yet. -/
def execHostWrite (link pa : Nat) (data : List Byte) (s : State) : Host.Outcome State Fault Refusal :=
  .next <| settle <| serveHosts { s with hosts := { s.hosts with writes := s.hosts.writes ++ [(link, pa, data)] } }

/-- A host's read of up to eight bytes of TLM or of a work-queue register. A read of anything else, or of an uncorrectable word,
carries no data. -/
def hostLoad (s : State) (pa n : Nat) : State :=
  let reply (s : State) (v : Nat) : State := { s with hosts := { s.hosts with replies := word v :: s.hosts.replies } }
  if isWq pa && (n == 4 || n == 8) && pa % n == 0 then
    let (v, s) := devRead s (.core 0) pa n
    reply s v
  else if hostReaches s pa n && decide (n ≤ 8) && !uncorrectable s pa n then reply (countCorrected s pa n) (rdN s pa n)
  else s

/-- HOST_READ (R197, R337): a read does not pass the posted writes of its link. -/
def execHostRead (link pa n : Nat) (s : State) : Host.Outcome State Fault Refusal :=
  if s.hosts.writes.any (·.1 == link) then .next s else .next (hostLoad s pa n)

/-- Both flash slots were rejected: the PMC serves nothing but firmware upload (R422). -/
def recovering (s : State) : Bool := s.pmc.stage == 2 && s.pmc.fault == 2

/-- The reader is served: a core's access, or a management port outside recovery. -/
def readServed (s : State) : Reader → Bool
  | .core _ => true
  | _ => !recovering s

/-- ENERGY_LOW_READ (R406): the high half is latched for the reader. -/
def execEnergyLowRead (r : Reader) (pa : Nat) (s : State) : Host.Outcome State Fault Refusal :=
  match devReg (spaceOff pa) with
  | some g => if spaceOf pa == 15 && isEnergy g && pa % 8 == 0 && readServed s r then .next (devRead s r pa 4).2 else .next s
  | none => .next s

/-- A host's write of `n` bytes at offset `off` of queue `q`'s registers, which hosts reach from stage 2 on (R337, R422): performed by `f`
behind the writes of its link that are not performed yet (R197). The event does not name the link (log entry 88). -/
def writeWq (s : State) (q off n v : Nat) (f : State → State) : State :=
  if s.pmc.stage < 2 then s
  else if s.hosts.writes.isEmpty then f s
  else
    let link := Config.bellLink s.nonce % 4
    let s := { s with nonce := s.nonce + 1 }
    if s.hosts.writes.any (·.1 == link) then
      { s with hosts := { s.hosts with writes := s.hosts.writes ++ [(link, 0xF020000000000 + 0x40 * q + off, bytesOf n v)] } }
    else f s

/-- DOORBELL (R338): a host writes TAIL. -/
def execDoorbell (q : Nat) (tail : BitVec 32) (s : State) : Host.Outcome State Fault Refusal :=
  if q < 32768 then .next (writeWq s q 0x10 4 tail.toNat fun s => setTail s q tail) else .next s

/-- WQ_ENABLE (R338): a host writes the doubleword that holds EN and LOG. -/
def execWqEnable (q : Nat) (value : Word) (s : State) : Host.Outcome State Fault Refusal :=
  if q < 32768 then .next (writeWq s q 0x08 8 value.toNat fun s => setWqControl s q value false) else .next s

/-! ### Launches -/

/-- A segment of an admitted site, with power: a site that drains has given its command processors away (R369). -/
def segServes (s : State) (g : Nat) : Bool := (getSite s (segModule g)).st == .admitted && (getSeg s g).powered

/-- Rows of segments, the given one first, then by distance. -/
def rowsFrom (y : Nat) : List Nat := y :: (List.range 11).flatMap fun d => [y + (d + 1), if d + 1 ≤ y then y - (d + 1) else 12].filter (· < 12)

/-- The segment whose command processor serves a queue (R337, R369, R422): that with sx = 0 of the queue's row, or the nearest admitted one
of the row; where the row has none, of the nearest row that has one. -/
def queueSeg (s : State) (q : Nat) : Option Nat :=
  ((rowsFrom (q % 12)).flatMap fun y => (List.range 16).map fun x => 16 * y + x).find? (segServes s)

/-- A record is there to be taken (R338). -/
def recordWaits (w : WorkQueue) : Bool :=
  let n := (w.tail - w.head).toNat
  w.en && w.log != 0 && !w.err && decide (1 ≤ n) && decide (n ≤ 2 ^ w.log)

/-- The queue that the command processor of a segment serves next: the first with a record waiting, after the one served last (R337). -/
def nextWq (s : State) (g : Nat) : Option Nat :=
  let qs := sortBy (fun a b => decide (a ≤ b)) ((s.workQueues.filter fun e => recordWaits e.2 && queueSeg s e.1 == some g).map (·.1))
  match qs.find? fun q => decide ((getSeg s g).lastWq ≤ q) with
  | some q => some q
  | none => qs.head?

/-- A physical interval that the command processor of tile `t` can read. -/
def physReadable (s : State) (t pa n : Nat) : Bool :=
  spaceOf pa == 8 ||
    (inTlm pa && !neverPopulated (isDark s) pa && !neverPopulated (isDark s) (pa + n - 1) && holeCheck s t pa == .clear
      && !uncorrectable s pa n)

/-- Doublewords of TLM or of a host window. -/
def physWords (s : State) (pa n : Nat) : List Word :=
  (List.range n).map fun i =>
    if spaceOf pa == 8 then word (ofBytes ((List.range 8).map fun k => hostGet s (pa + 8 * i + k))) else dwAt s (pa + 8 * i)

/-- Fields of a launch record (R339). -/
def lrNsp (w : List Word) : Nat := bits (recW w 0) 23 20
def lrTenant (w : List Word) : Nat := bits (recW w 0) 11 0
def lrPlace (w : List Word) (i : Nat) : Nat := bits (recW w (4 + i / 2)) (32 * (i % 2) + 31) (32 * (i % 2))

/-- The check of R340 step 1. -/
def lrMalformed (w : List Word) (tenant : Nat) : Bool :=
  bits (recW w 0) 31 24 != 0 || bits (recW w 0) 19 18 != 0 || bits (recW w 0) 15 12 != 0 || bits (recW w 1) 63 52 != 0
    || bits (recW w 3) 63 52 != 0 || bits (recW w 3) 3 0 != 0 || lrNsp w == 0 || decide (8 < lrNsp w) || lrTenant w != tenant

/-- The template as step 2 takes it: PARENT 0, TENANT and PRIO from the record, OVR bit 0 set. -/
def lrTemplate (t : List Word) (w : List Word) : List Word :=
  t.mapIdx fun i v =>
    if i == 0 then setBits v 51 8 0
    else if i == 1 then setBits (setBits (setBits v 32 32 1) 17 16 (bits (recW w 0) 17 16)) 11 0 (lrTenant w)
    else v

/-- A spawn record with its rgn set to the new RCB (R340 step 3). -/
def lrSpawnRec (ws : List Word) (rcb : Nat) : List Word := ws.mapIdx fun i v => if i == 1 then setBits v 51 8 (rcb / 256) else v

/-- One spawn of a launch from tile `t`: its status, and the process (R223 to R226, R340; log entry 33). -/
def launchSpawn (s : State) (t rcb pa pw : Nat) : State × Nat × Nat :=
  if pa % 64 != 0 || !physReadable s t pa 64 then (s, 2, 0)
  else
    let ws := lrSpawnRec (physWords s pa 8) rcb
    let st := checkRecord s ws 0 true
    let tgt : Option Nat ⊕ Unit :=
      if pw == 2 ^ 32 - 1 then .inl (distribute s t rcb ws)
      else match resolveFrom s rcb 0 0 (word pw) (some 0) true with
        | .ok u i => .inl (some (coreNo u i))
        | _ => .inr ()
    match tgt with
    | .inr _ => (s, 2, 0)
    | .inl c =>
      if st != 0 then (s, st, 0)
      else
        match c with
        | none => (s, 5, 0)
        | some c =>
          let ja := recJoin ws
          if ja % 8 != 0 || (ja != 0 && !(physReadable s t ja 8 && inTlm ja)) then (s, 2, 0)
          else
            let join := if ja == 0 then none else some ja
            let (s, st) := spawnAtTarget (incCounter s join 0) ⟨none, t, false, coreTile c, coreIdx c, rcb, true, ws, join⟩
            (s, st, coreTile c * tlmWindow + 128 * recWslot ws)

/-- The spawns of a launch in order, until one fails: its status, and the children. -/
def launchSpawns (s : State) (t rcb spr : Nat) (w : List Word) : List Nat → State × Nat × List Nat
  | [] => (s, 0, [])
  | i :: rest =>
    match launchSpawn s t rcb (spr + 64 * i) (lrPlace w i) with
    | (s, 0, c) =>
      let (s, st, cs) := launchSpawns s t rcb spr w rest
      (s, st, c :: cs)
    | (s, st, _) => (s, st, [])

/-- Steps 1 to 3 of R340 for a record: the launch as it then stands. -/
def launchTake (s : State) (t q : Nat) (w : List Word) : State :=
  let l : Launch := ⟨q, BitVec.ofNat 32 (bits (recW w 0) 63 32), bit (recW w 2) 63, bits (recW w 2) 62 52, bits (recW w 3) 51 4 * 16, 0, none⟩
  let add (s : State) (rcb : Nat) (st : Option (Nat × Nat)) : State :=
    { s with launches := s.launches ++ [{ l with rcb := rcb, status := st }] }
  let rcbt := bits (recW w 1) 51 0
  if lrMalformed w (getWq s q).tenant then add s 0 (some (2, 0))
  else if rcbt % 256 != 0 || !physReadable s t rcbt 256 then add s 0 (some (3, 2))
  else
    let tpl := lrTemplate (physWords s rcbt 32) w
    let ja := tplJoin tpl
    if ja % 8 != 0 || (ja != 0 && !(physReadable s t ja 8 && inTlm ja)) then add s 0 (some (3, 2))
    else
      match rgnNew s tpl 0 t true (if ja == 0 then none else some ja) with
      | (s, 0, rcb) =>
        match launchSpawns s t rcb (bits (recW w 2) 51 0) w (List.range (lrNsp w)) with
        | (s, 0, _) => regionEnds (add s rcb none) rcb
        | (s, st, cs) =>
          let s := add s rcb (some (4, st))
          let s := cs.foldl (fun s c => killProc s c true) s
          regionEnds (putRcb s rcb 8 63 60 2) rcb
      | (s, st, _) => add s 0 (some (3, st))

/-- A join counter that the launch increments is held by a guard: the command processor waits (R264). -/
def launchHeld (s : State) (t : Nat) (w : List Word) : Bool :=
  let rcbt := bits (recW w 1) 51 0
  let joins := (if physReadable s t rcbt 256 then [tplJoin (physWords s rcbt 32)] else [])
    ++ (List.range (lrNsp w)).filterMap fun i =>
      let pa := bits (recW w 2) 51 0 + 64 * i
      if physReadable s t pa 64 then some (recJoin (physWords s pa 8)) else none
  joins.any fun a => a != 0 && guardHolds s a 8 none false

/-- A record is taken from stage 5 on (R422): read, handled, and HEAD + 1; one that cannot be read stops the queue (R338). None while a
guard holds it back. -/
def takeRecord (s : State) (q t : Nat) (status : CplStatus) : Option State :=
  let k := getWq s q
  let pa := k.base.toNat + 64 * (k.head.toNat % 2 ^ k.log)
  if !physReadable s t pa 64 || (spaceOf pa == 8 && status != .ok) then
    some (modWq s q fun k => { k with err := true, errc := 2 })
  else
    let w := physWords s pa 8
    if launchHeld s t w then none else some (launchTake (modWq s q fun k => { k with head := k.head + 1 }) t q w)

/-- LAUNCH_RECORD (R337 to R340): the command processor serves its queues in turn; `status` is the completion of a read of host
memory. -/
def execLaunchRecord (q : Nat) (status : CplStatus) (s : State) : Host.Outcome State Fault Refusal :=
  if q < 32768 && recordWaits (getWq s q) && decide (5 ≤ s.pmc.stage) then
    match queueSeg s q with
    | some g =>
      if nextWq s g != some q then .next s
      else
        match takeRecord s q (segTile g) status with
        | some s1 => .next (settle (modSeg s1 g fun k => { k with lastWq := q + 1 }))
        | none => .next s
    | none => .next s
  else .next s

/-- The completion record (R341). -/
def launchWords (s : State) (l : Launch) (st detail : Nat) : List Word :=
  [word (l.tag.toNat + st % 256 * 2 ^ 32 + detail % 256 * 2 ^ 40), s.time]

/-- LAUNCH_COMPLETION (R341): the record, a release of system scope, MSI-X; a guard over the record's bytes holds it (R264). -/
def execLaunchCompletion (i : Nat) (s : State) : Host.Outcome State Fault Refusal :=
  match s.launches[i]? with
  | some l =>
    match l.status with
    | some (st, detail) =>
      if guardHolds s l.cmpa 16 none false then .next s
      else
        let bs := (launchWords s l st detail).flatMap fun w => bytesOf 8 w.toNat
        let s := { s with launches := s.launches.eraseIdx i }
        let s := if spaceOf l.cmpa == 8 then hostPut s l.cmpa bs
          else if hostReaches s l.cmpa 16 then performWrite s l.cmpa 16 (ofBytes bs) none false 0
          else s
        let s := if l.msie then { s with hosts := { s.hosts with msix := l.vec :: s.hosts.msix } } else s
        .next (settle s)
    | none => .next s
  | none => .next s

end Sys2Proof.Machine
end

