-- ==== Sys2Proof/Machine/Integer.lean ====
section
/-! DEFINITION. Integer instructions: OPR (R100), immediates (R101), shifts (R102), upper immediates (R103), MULDIV
(R104). -/

namespace Sys2Proof.Machine

/-- A binary operation of two registers (R100, R104), as instruction `i`. -/
def opRR (i : Instr) (f : Word → Word → Word) (d a b : Reg) (s : State) : Host.Outcome State Fault Refusal :=
  onCore s fun c r => residue s c r i fun s => finish s c r d (f (src s c r a) (src s c r b))

/-- A unary operation (R100), or one with a constant (R101, R102). -/
def opR (i : Instr) (f : Word → Word) (d a : Reg) (s : State) : Host.Outcome State Fault Refusal :=
  onCore s fun c r => residue s c r i fun s => finish s c r d (f (src s c r a))

/-- A value of the PC alone (R103). -/
def opPc (i : Instr) (f : PC → Word) (d : Reg) (s : State) : Host.Outcome State Fault Refusal :=
  onCore s fun c r => residue s c r i fun s => finish s c r d (f r.pc)

/-- ADD: A + B (R100). -/
def execAdd (d a b : Reg) (s : State) : Host.Outcome State Fault Refusal :=
  opRR (.add d a b) (fun x y => x + y) d a b s

/-- SUB: A − B (R100). -/
def execSub (d a b : Reg) (s : State) : Host.Outcome State Fault Refusal :=
  opRR (.sub d a b) (fun x y => x - y) d a b s

/-- AND (R100). -/
def execAnd (d a b : Reg) (s : State) : Host.Outcome State Fault Refusal :=
  opRR (.and d a b) (fun x y => x &&& y) d a b s

/-- OR (R100). -/
def execOr (d a b : Reg) (s : State) : Host.Outcome State Fault Refusal :=
  opRR (.or d a b) (fun x y => x ||| y) d a b s

/-- XOR (R100). -/
def execXor (d a b : Reg) (s : State) : Host.Outcome State Fault Refusal :=
  opRR (.xor d a b) (fun x y => x ^^^ y) d a b s

/-- ANDN: A AND NOT B (R100). -/
def execAndn (d a b : Reg) (s : State) : Host.Outcome State Fault Refusal :=
  opRR (.andn d a b) (fun x y => x &&& ~~~y) d a b s

/-- ORN: A OR NOT B (R100). -/
def execOrn (d a b : Reg) (s : State) : Host.Outcome State Fault Refusal :=
  opRR (.orn d a b) (fun x y => x ||| ~~~y) d a b s

/-- SLL (R100). -/
def execSll (d a b : Reg) (s : State) : Host.Outcome State Fault Refusal :=
  opRR (.sll d a b) (fun x y => x <<< sh6 y) d a b s

/-- SRL (R100). -/
def execSrl (d a b : Reg) (s : State) : Host.Outcome State Fault Refusal :=
  opRR (.srl d a b) (fun x y => x >>> sh6 y) d a b s

/-- SRA (R100). -/
def execSra (d a b : Reg) (s : State) : Host.Outcome State Fault Refusal :=
  opRR (.sra d a b) (fun x y => x.sshiftRight (sh6 y)) d a b s

/-- SLT (R100). -/
def execSlt (d a b : Reg) (s : State) : Host.Outcome State Fault Refusal :=
  opRR (.slt d a b) (fun x y => boolW (x.slt y)) d a b s

/-- SLTU (R100). -/
def execSltu (d a b : Reg) (s : State) : Host.Outcome State Fault Refusal :=
  opRR (.sltu d a b) (fun x y => boolW (x.ult y)) d a b s

/-- MIN (R100). -/
def execMin (d a b : Reg) (s : State) : Host.Outcome State Fault Refusal :=
  opRR (.min d a b) (fun x y => if x.sle y then x else y) d a b s

/-- MAX (R100). -/
def execMax (d a b : Reg) (s : State) : Host.Outcome State Fault Refusal :=
  opRR (.max d a b) (fun x y => if y.sle x then x else y) d a b s

/-- MINU (R100). -/
def execMinu (d a b : Reg) (s : State) : Host.Outcome State Fault Refusal :=
  opRR (.minu d a b) (fun x y => if x.ule y then x else y) d a b s

/-- MAXU (R100). -/
def execMaxu (d a b : Reg) (s : State) : Host.Outcome State Fault Refusal :=
  opRR (.maxu d a b) (fun x y => if y.ule x then x else y) d a b s

/-- ADDW (R100). -/
def execAddw (d a b : Reg) (s : State) : Host.Outcome State Fault Refusal :=
  opRR (.addw d a b) (fun x y => sext32 (x + y)) d a b s

/-- SUBW (R100). -/
def execSubw (d a b : Reg) (s : State) : Host.Outcome State Fault Refusal :=
  opRR (.subw d a b) (fun x y => sext32 (x - y)) d a b s

/-- SLLW (R100). -/
def execSllw (d a b : Reg) (s : State) : Host.Outcome State Fault Refusal :=
  opRR (.sllw d a b) (fun x y => sext32 (x <<< sh5 y)) d a b s

/-- SRLW (R100). -/
def execSrlw (d a b : Reg) (s : State) : Host.Outcome State Fault Refusal :=
  opRR (.srlw d a b) (fun x y => sext32 ((x.setWidth 32).setWidth 64 >>> sh5 y)) d a b s

/-- SRAW (R100). -/
def execSraw (d a b : Reg) (s : State) : Host.Outcome State Fault Refusal :=
  opRR (.sraw d a b) (fun x y => sext32 ((sext32 x).sshiftRight (sh5 y))) d a b s

/-- CLZ (R100). -/
def execClz (d a : Reg) (s : State) : Host.Outcome State Fault Refusal :=
  opR (.clz d a) clz64 d a s

/-- CTZ (R100). -/
def execCtz (d a : Reg) (s : State) : Host.Outcome State Fault Refusal :=
  opR (.ctz d a) ctz64 d a s

/-- POPC (R100). -/
def execPopc (d a : Reg) (s : State) : Host.Outcome State Fault Refusal :=
  opR (.popc d a) popc64 d a s

/-- SEXT (R100). -/
def execSext (d a : Reg) (x : SrcWidth) (s : State) : Host.Outcome State Fault Refusal :=
  opR (.sext d a x) (sextTo x) d a s

/-- ZEXT (R100). -/
def execZext (d a : Reg) (x : SrcWidth) (s : State) : Host.Outcome State Fault Refusal :=
  opR (.zext d a x) (zextTo x) d a s

/-- BREV (R100). -/
def execBrev (d a : Reg) (s : State) : Host.Outcome State Fault Refusal :=
  opR (.brev d a) brev64 d a s

/-- ADDI: A + I (R101). -/
def execAddi (d a : Reg) (imm : BitVec 18) (s : State) : Host.Outcome State Fault Refusal :=
  opR (.addi d a imm) (fun x => x + imm18 imm) d a s

/-- ANDI (R101). -/
def execAndi (d a : Reg) (imm : BitVec 18) (s : State) : Host.Outcome State Fault Refusal :=
  opR (.andi d a imm) (fun x => x &&& imm18 imm) d a s

/-- ORI (R101). -/
def execOri (d a : Reg) (imm : BitVec 18) (s : State) : Host.Outcome State Fault Refusal :=
  opR (.ori d a imm) (fun x => x ||| imm18 imm) d a s

/-- XORI (R101). -/
def execXori (d a : Reg) (imm : BitVec 18) (s : State) : Host.Outcome State Fault Refusal :=
  opR (.xori d a imm) (fun x => x ^^^ imm18 imm) d a s

/-- SLTI (R101). -/
def execSlti (d a : Reg) (imm : BitVec 18) (s : State) : Host.Outcome State Fault Refusal :=
  opR (.slti d a imm) (fun x => boolW (x.slt (imm18 imm))) d a s

/-- SLTIU: I taken as a 64-bit pattern (R101). -/
def execSltiu (d a : Reg) (imm : BitVec 18) (s : State) : Host.Outcome State Fault Refusal :=
  opR (.sltiu d a imm) (fun x => boolW (x.ult (imm18 imm))) d a s

/-- ADDIW (R101). -/
def execAddiw (d a : Reg) (imm : BitVec 18) (s : State) : Host.Outcome State Fault Refusal :=
  opR (.addiw d a imm) (fun x => sext32 (x + imm18 imm)) d a s

/-- SLLI (R102). -/
def execSlli (d a : Reg) (sh : BitVec 6) (s : State) : Host.Outcome State Fault Refusal :=
  opR (.slli d a sh) (fun x => x <<< sh.toNat) d a s

/-- SRLI (R102). -/
def execSrli (d a : Reg) (sh : BitVec 6) (s : State) : Host.Outcome State Fault Refusal :=
  opR (.srli d a sh) (fun x => x >>> sh.toNat) d a s

/-- SRAI (R102). -/
def execSrai (d a : Reg) (sh : BitVec 6) (s : State) : Host.Outcome State Fault Refusal :=
  opR (.srai d a sh) (fun x => x.sshiftRight sh.toNat) d a s

/-- LUI (R103). -/
def execLui (d : Reg) (imm : BitVec 22) (s : State) : Host.Outcome State Fault Refusal :=
  opPc (.lui d imm) (fun _ => upperImm imm) d s

/-- AUIPC: the sum is not wrapped to 48 bits (R86, R103). -/
def execAuipc (d : Reg) (imm : BitVec 22) (s : State) : Host.Outcome State Fault Refusal :=
  opPc (.auipc d imm) (fun pc => pc.setWidth 64 + upperImm imm) d s

/-- MUL (R104). -/
def execMul (d a b : Reg) (s : State) : Host.Outcome State Fault Refusal :=
  opRR (.mul d a b) (fun x y => x * y) d a b s

/-- MULH (R104). -/
def execMulh (d a b : Reg) (s : State) : Host.Outcome State Fault Refusal :=
  opRR (.mulh d a b) mulhV d a b s

/-- MULHU (R104). -/
def execMulhu (d a b : Reg) (s : State) : Host.Outcome State Fault Refusal :=
  opRR (.mulhu d a b) mulhuV d a b s

/-- MULHSU (R104). -/
def execMulhsu (d a b : Reg) (s : State) : Host.Outcome State Fault Refusal :=
  opRR (.mulhsu d a b) mulhsuV d a b s

/-- DIV (R104). -/
def execDiv (d a b : Reg) (s : State) : Host.Outcome State Fault Refusal :=
  opRR (.div d a b) divV d a b s

/-- DIVU (R104). -/
def execDivu (d a b : Reg) (s : State) : Host.Outcome State Fault Refusal :=
  opRR (.divu d a b) divuV d a b s

/-- REM (R104). -/
def execRem (d a b : Reg) (s : State) : Host.Outcome State Fault Refusal :=
  opRR (.rem d a b) remV d a b s

/-- REMU (R104). -/
def execRemu (d a b : Reg) (s : State) : Host.Outcome State Fault Refusal :=
  opRR (.remu d a b) remuV d a b s

end Sys2Proof.Machine
end

