-- ==== Sys2Proof/Machine/CopyCmd.lean ====
section
/-! DEFINITION. The copy engine's commands CPY, CPY2, GATH, SCAT and FILL (R274, R275). A granule is 256 bytes of destination. -/

namespace Sys2Proof.Machine

/-- Part of a row that a granule moves: where its bytes come from and go to, and whether the row has an address that no space
reaches. -/
structure Seg1 where
  src : Nat
  dst : Nat
  n : Nat
  far : Bool
deriving DecidableEq, Repr

/-- Move a granule's row parts in order, each read and then written, so that a row reads what an earlier one wrote under whatever name; a
row that faults, or has an address at or above 2^48, ends the job with the earlier ones written. -/
def moveSegs (e : Eng) : List Seg1 → JM Unit
  | [] => pure ()
  | x :: t => do
    jCheck x.far 5
    let b ← engRead e x.src x.n
    engWriteAll e [(x.dst, b)]
    moveSegs e t

/-- The rows, with offset and length in each, that bytes [256g, 256g + 256) of a destination of rows of `len` bytes lie in. -/
def granRows (g len total : Nat) : List (Nat × Nat × Nat) :=
  let lo := 256 * g
  let hi := min total (lo + 256)
  if hi ≤ lo || len == 0 then []
  else (List.range ((hi - 1) / len - lo / len + 1)).map fun i =>
    let r := lo / len + i
    let a := max lo (r * len)
    (r, a - r * len, min hi ((r + 1) * len) - a)

/-- Row addresses at `off` as a part of a move. -/
def segAt (src dst : Int) (len off n : Nat) : Seg1 :=
  ⟨(src + (off : Int)).toNat, (dst + (off : Int)).toNat, n,
    decide (src < 0) || decide (dst < 0) || decide ((2 ^ 48 : Int) < src + (len : Int)) || decide ((2 ^ 48 : Int) < dst + (len : Int))⟩

/-- No byte is left after granule `g`. -/
def lastGran (g total : Nat) : Bool := decide (total ≤ 256 * (g + 1))

/-- A write of `m` bytes at `dst` would meet the `n` source bytes at `src`, under these names or under others of the same pages. -/
def cpyOverlaps (s : State) (e : Eng) (src n dst m : Nat) : Bool :=
  rangesMeet (peekRanges s e.t e.j (span src n)) (peekRanges s e.t e.j (span dst m))

/-- A granule of CPY. Before its write meets source bytes that are not yet read, all of those are read and kept with the job, after the
offset of the first: each byte is the one before the job's first write. -/
def cpyGran (e : Eng) (c : CpyCmd) : JM Bool := do
  let n := c.len.toNat
  let lo := 256 * e.j.gran
  let m := min 256 (n - lo)
  if lo < n then
    let b ← match e.j.scratch with
      | [] => engRead e (c.src.toNat + lo) m
      | first :: kept => pure ((((kept.drop ((lo - first.toNat) / 8)).take 32).flatMap fun w => bytesOf 8 w.toNat).take m)
    let s ← get
    if e.j.scratch.isEmpty && decide (lo + m < n) && cpyOverlaps s e (c.src.toNat + lo + m) (n - lo - m) (c.dst.toNat + lo) m then
      let rest ← engRead e (c.src.toNat + lo + m) (n - lo - m)
      modMine e fun j => { j with scratch := word (lo + m) ::
        (List.range ((rest.length + 7) / 8)).map fun i => word (ofBytes ((rest.drop (8 * i)).take 8)) }
    engWriteAll e [(c.dst.toNat + lo, b)]
  pure (lastGran e.j.gran n)

def cpy2Gran (e : Eng) (c : Cpy2Cmd) : JM Bool := do
  let len := c.rowlen.toNat
  let total := len * c.nrows.toNat
  moveSegs e ((granRows e.j.gran len total).map fun p =>
    segAt ((c.src.toNat : Int) + (p.1 : Int) * c.sstride.toInt) ((c.dst.toNat : Int) + (p.1 : Int) * c.dstride.toInt) len p.2.1 p.2.2)
  pure (lastGran e.j.gran total)

def gathGran (e : Eng) (c : GathCmd) : JM Bool := do
  let len := c.rowlen.toNat
  let total := len * c.nidx.toNat
  let segs ← (granRows e.j.gran len total).mapM fun p => do
    let i ← readIdx e c.idx.toNat c.iw p.1
    pure (segAt ((c.tbl.toNat + i * len : Nat) : Int) ((c.dst.toNat + p.1 * len : Nat) : Int) len p.2.1 p.2.2)
  moveSegs e segs
  pure (lastGran e.j.gran total)

def scatGran (e : Eng) (c : ScatCmd) : JM Bool := do
  let len := c.rowlen.toNat
  let total := len * c.nidx.toNat
  let segs ← (granRows e.j.gran len total).mapM fun p => do
    let i ← readIdx e c.idx.toNat c.iw p.1
    pure (segAt ((c.src.toNat + p.1 * len : Nat) : Int) ((c.tbl.toNat + i * len : Nat) : Int) len p.2.1 p.2.2)
  moveSegs e segs
  pure (lastGran e.j.gran total)

def fillGran (e : Eng) (c : FillCmd) : JM Bool := do
  let n := c.len.toNat
  let lo := 256 * e.j.gran
  if lo < n then
    let p := bytesOf 8 c.pattern.toNat
    engWriteAll e [(c.dst.toNat + lo, (List.range (min 256 (n - lo))).map fun i => p.getD (i % 8) 0)]
  pure (lastGran e.j.gran n)

end Sys2Proof.Machine
end

