-- ==== Sys2Proof/Machine/Sfu.lean ====
section
/-! DEFINITION. The special-function unit (R304): each function's exact value enclosed in an interval of fixed-point numbers,
and rounded once when both ends round alike. -/

namespace Sys2Proof.Machine

/-- An interval of reals, both ends in units of 2^−p for the precision p at hand. -/
structure Iv where
  lo : Int
  hi : Int
deriving DecidableEq, Repr

/-- Quotients rounded down and up. -/
def divDown (a : Int) (b : Int) : Int := a.fdiv b
def divUp (a : Int) (b : Int) : Int := -((-a).fdiv b)

def ivAdd (a b : Iv) : Iv := ⟨a.lo + b.lo, a.hi + b.hi⟩
def ivNeg (a : Iv) : Iv := ⟨-a.hi, -a.lo⟩
def ivSub (a b : Iv) : Iv := ivAdd a (ivNeg b)
def ivInt (p : Nat) (z : Int) : Iv := ⟨z * (2 ^ p : Nat), z * (2 ^ p : Nat)⟩

def ivMul (p : Nat) (a b : Iv) : Iv :=
  let c := [a.lo * b.lo, a.lo * b.hi, a.hi * b.lo, a.hi * b.hi]
  let d : Int := (2 ^ p : Nat)
  ⟨divDown (c.foldl min (a.lo * b.lo)) d, divUp (c.foldl max (a.lo * b.lo)) d⟩

/-- Division by a positive integer. -/
def ivDivN (a : Iv) (n : Nat) : Iv := ⟨divDown a.lo n, divUp a.hi n⟩

/-- Reciprocal of an interval of positive numbers. -/
def ivRecip (p : Nat) (a : Iv) : Iv :=
  let one : Int := (2 ^ (2 * p) : Nat)
  ⟨divDown one (max a.hi 1), divUp one (max a.lo 1)⟩

/-- The dyadic (−1)^s · m · 2^e in units of 2^−p. -/
def ivOf (p : Nat) (s : Bool) (m : Nat) (e : Int) : Iv :=
  let k := e + (p : Int)
  let a : Int := if s then -(m : Int) else (m : Int)
  if 0 ≤ k then ⟨a * (2 ^ k.toNat : Nat), a * (2 ^ k.toNat : Nat)⟩
  else ⟨divDown a (2 ^ (-k).toNat : Nat), divUp a (2 ^ (-k).toNat : Nat)⟩

/-- e^y for |y| at most 2^8: the Taylor series at y / 2^16, then sixteen squarings. -/
def ivExp (p : Nat) (y : Iv) : Iv :=
  let q := p + 64
  let z : Iv := ⟨divDown (y.lo * 2 ^ 64) (2 ^ 16), divUp (y.hi * 2 ^ 64) (2 ^ 16)⟩
  let n := q / 6
  let (sum, t) := (List.range n).foldl (fun (acc : Iv × Iv) k =>
    let t := ivDivN (ivMul q acc.2 z) (k + 1)
    (ivAdd acc.1 t, t)) (ivInt q 1, ivInt q 1)
  let r : Int := max t.hi (-t.lo) + 1
  let e0 : Iv := ⟨sum.lo - r, sum.hi + r⟩
  let e := (List.range 16).foldl (fun v _ => ivMul q v v) e0
  ⟨divDown e.lo (2 ^ 64), divUp e.hi (2 ^ 64)⟩

/-- 2 · artanh(a / b) for 0 ≤ a / b ≤ 1/3. -/
def ivAtanh2 (p : Nat) (a b : Nat) : Iv :=
  let z : Iv := ⟨divDown ((a * 2 ^ p : Nat) : Int) b, divUp ((a * 2 ^ p : Nat) : Int) b⟩
  let z2 := ivMul p z z
  let n := p / 3 + 4
  let (sum, t) := (List.range n).foldl (fun (acc : Iv × Iv) k =>
    (ivAdd acc.1 (ivDivN acc.2 (2 * k + 1)), ivMul p acc.2 z2)) (⟨0, 0⟩, z)
  ⟨2 * sum.lo, 2 * sum.hi + 4 * (t.hi + 1)⟩

/-- ln of m · 2^e, m positive. -/
def ivLn (p m : Nat) (e : Int) : Iv :=
  let k := bitLen m - 1
  let ln2 := ivAtanh2 p 1 3
  let f := ivAtanh2 p (m - 2 ^ k) (m + 2 ^ k)
  let n := e + (k : Int)
  let a := n * ln2.lo
  let b := n * ln2.hi
  ⟨min a b + f.lo, max a b + f.hi⟩

/-- arctan(1 / n) for n at least 5. -/
def ivAtanInv (p n : Nat) : Iv :=
  let z : Int := (2 ^ p : Nat)
  let (sum, t) := (List.range (p / 4 + 4)).foldl (fun (acc : Int × Int) (k : Nat) =>
    let term := divDown acc.2 (2 * k + 1 : Nat)
    ((if k % 2 == 0 then acc.1 + term else acc.1 - term), divDown acc.2 (n * n : Nat))) (0, divDown z n)
  let err : Int := (p : Int) + 8 + t
  ⟨sum - err, sum + err⟩

/-- π by Machin's formula. -/
def ivPi (p : Nat) : Iv :=
  let a := ivAtanInv p 5
  let b := ivAtanInv p 239
  ⟨16 * a.lo - 4 * b.hi, 16 * a.hi - 4 * b.lo⟩

/-- sin and cos by their series for |y| at most 1. -/
def ivSinCos (p : Nat) (y : Iv) : Iv × Iv :=
  let y2 := ivMul p y y
  let n := p / 8 + 8
  let series (t0 : Iv) (k0 : Nat) : Iv :=
    let (sum, t) := (List.range n).foldl (fun (acc : Iv × Iv) k =>
      let t := ivNeg (ivDivN (ivMul p acc.2 y2) ((2 * k + k0) * (2 * k + k0 + 1)))
      (ivAdd acc.1 t, t)) (t0, t0)
    let r := max (max t.hi (-t.lo)) 0 + 1
    ⟨sum.lo - r, sum.hi + r⟩
  (series y 2, series (ivInt p 1) 1)

/-- sin and cos of the dyadic (−1)^s · m · 2^e, the argument reduced by multiples of π/2. -/
def ivSinCosOf (p : Nat) (s : Bool) (m : Nat) (e : Int) : Iv × Iv :=
  let big := p + 160
  let half := let a := ivPi big; (⟨divDown a.lo 2, divUp a.hi 2⟩ : Iv)
  let x := ivOf big s m e
  let mid := (half.lo + half.hi) / 2
  let q := (2 * x.lo + mid).fdiv (2 * mid)
  let a := q * half.lo
  let b := q * half.hi
  let r : Iv := ivSub x ⟨min a b, max a b⟩
  let y : Iv := ⟨divDown r.lo (2 ^ 160), divUp r.hi (2 ^ 160)⟩
  let (sn, cs) := ivSinCos p y
  match (q % 4).toNat with
  | 0 => (sn, cs)
  | 1 => (cs, ivNeg sn)
  | 2 => (ivNeg sn, ivNeg cs)
  | _ => (ivNeg cs, sn)

/-- The normal distribution function at the dyadic x, |x| below 16: one half plus the density times the series of odd double
factorials. -/
def ivPhi (p : Nat) (s : Bool) (m : Nat) (e : Int) : Iv :=
  let x := ivOf p false m e
  let x2 := ivMul p x x
  let n := p + 300
  let (sum, t) := (List.range n).foldl (fun (acc : Iv × Iv) k =>
    (ivAdd acc.1 acc.2, ivDivN (ivMul p acc.2 x2) (2 * k + 3))) (⟨0, 0⟩, x)
  let ser : Iv := ⟨sum.lo, sum.hi + 2 * (t.hi + 1)⟩
  let pi := ivPi p
  let two : Iv := ⟨2 * pi.lo, 2 * pi.hi⟩
  let root : Iv := ⟨(isqrt (two.lo.toNat * 2 ^ p) : Nat), (isqrt (two.hi.toNat * 2 ^ p) + 1 : Nat)⟩
  let dens := ivMul p (ivRecip p root) (ivExp p (ivDivN (ivNeg x2) 2))
  let part := ivMul p dens ser
  let halfv : Int := (2 ^ (p - 1) : Nat)
  if s then ⟨halfv - part.hi, halfv - part.lo⟩ else ⟨halfv + part.lo, halfv + part.hi⟩

/-- Functions of R304, numbered as VUN's ops (R320). -/
inductive Sfu where | recip | rsqrt | sqrt | exp | log | sigmoid | silu | gelu | tanh | sin | cos
deriving DecidableEq, Repr

def sfuCode : Sfu → Nat
  | .recip => 2 | .rsqrt => 3 | .sqrt => 4 | .exp => 5 | .log => 6 | .sigmoid => 7 | .silu => 8 | .gelu => 9
  | .tanh => 10 | .sin => 11 | .cos => 12

def sfuOf : Nat → Sfu
  | 2 => .recip | 3 => .rsqrt | 4 => .sqrt | 5 => .exp | 6 => .log | 7 => .sigmoid | 8 => .silu | 9 => .gelu
  | 10 => .tanh | 11 => .sin | _ => .cos

/-- An enclosure of the function at a finite nonzero x, in units of 2^−p, where no shorter argument decides. -/
def sfuIv (f : Sfu) (p : Nat) (s : Bool) (m : Nat) (e : Int) : Iv :=
  let x := ivOf p s m e
  let one := ivInt p 1
  match f with
  | .exp => ivExp p x
  | .log => ivLn p m e
  | .sigmoid => ivRecip p (ivAdd one (ivExp p (ivNeg x)))
  | .silu => ivMul p x (ivRecip p (ivAdd one (ivExp p (ivNeg x))))
  | .gelu => ivMul p x (ivPhi p s m e)
  | .tanh =>
    let u := ivExp p ⟨2 * x.lo, 2 * x.hi⟩
    ivMul p (ivSub u one) (ivRecip p (ivAdd u one))
  | .sin => (ivSinCosOf p s m e).1
  | .cos => (ivSinCosOf p s m e).2
  | _ => x

/-- Both ends round to one FP32 pattern. -/
def ivRound (p : Nat) (v : Iv) : Option Nat :=
  let lo := (fRoundInt fp32 .rne v.lo (-(p : Int)) false).1
  let hi := (fRoundInt fp32 .rne v.hi (-(p : Int)) (decide (v.lo < 0))).1
  if lo == hi then some lo else none

/-- Rounded at rising precisions; a value that stays undecided is open (log entry 6). -/
def sfuRounded (f : Sfu) (x : Nat) (s : Bool) (m : Nat) (e : Int) : Nat :=
  match [400, 800, 1600].findSome? fun p => ivRound p (sfuIv f p s m e) with
  | some v => v
  | none => (Config.sfuValue (sfuCode f) (BitVec.ofNat 32 x)).toNat

/-- |m · 2^e| ≥ 2^k. -/
def dyGe (m : Nat) (e : Int) (k : Int) : Bool := decide (k < e + (bitLen m : Int))

/-- An SFU function on an FP32 pattern (R304). -/
def sfuEval (f : Sfu) (x : Nat) : Nat :=
  let nan := fNaN fp32
  let one := 0x3F800000
  match fDecode fp32 x with
  | .nan _ => nan
  | .inf s =>
    match f with
    | .recip => fZero fp32 s
    | .rsqrt => if s then nan else 0
    | .sqrt => if s then nan else fInf fp32 false
    | .exp => if s then 0 else fInf fp32 false
    | .log => if s then nan else fInf fp32 false
    | .sigmoid => if s then 0 else one
    | .silu => if s then fZero fp32 true else fInf fp32 false
    | .gelu => if s then fZero fp32 true else fInf fp32 false
    | .tanh => if s then one + 2 ^ 31 else one
    | _ => nan
  | .fin s m e =>
    if m == 0 then
      match f with
      | .recip => fInf fp32 s
      | .rsqrt => fInf fp32 s
      | .sqrt => fZero fp32 s
      | .exp => one
      | .log => fInf fp32 true
      | .sigmoid => 0x3F000000
      | .cos => one
      | _ => fZero fp32 s
    else
      match f with
      | .recip => (fDivV fp32 .rne (.fin false 1 0) (.fin s m e)).1
      | .sqrt => (fSqrtV fp32 .rne (.fin s m e)).1
      | .rsqrt =>
        if s then nan
        else
          let k : Nat := 140 + ((-e) % 2).toNat
          let n := 2 ^ (k + 2 * bitLen m) / m
          let r := isqrt n
          (fRound fp32 .rne false (2 * r + 1) ((-e - (k : Int)) / 2 - (bitLen m : Int) - 1)).1
      | .log => if s then nan else if m == 1 && e == 0 || (2 ^ (bitLen m - 1) == m && e + (bitLen m : Int) == 1) then 0 else sfuRounded f x s m e
      | .exp => if dyGe m e 7 then (if s then 0 else fInf fp32 false) else sfuRounded f x s m e
      | .sigmoid => if dyGe m e 7 then (if s then 0 else one) else sfuRounded f x s m e
      | .silu => if dyGe m e 7 then (if s then fZero fp32 true else x) else sfuRounded f x s m e
      | .gelu => if dyGe m e 4 then (if s then fZero fp32 true else x) else sfuRounded f x s m e
      | .tanh => if dyGe m e 5 then (if s then one + 2 ^ 31 else one) else sfuRounded f x s m e
      | _ => sfuRounded f x s m e

/-- SinCos of an exact argument (R309): both rounded to FP32. -/
def sfuSinCos (v : FV) : Nat × Nat :=
  match v with
  | .fin s m e =>
    if m == 0 then (fZero fp32 s, 0x3F800000)
    else
      let go (sel : Iv × Iv → Iv) (code : Nat) : Nat :=
        match [400, 800, 1600].findSome? fun p => ivRound p (sel (ivSinCosOf p s m e)) with
        | some v => v
        | none => (Config.sfuValue code (BitVec.ofNat 32 (fConvert fp32 .rne (.fin s m e)).1)).toNat
      (go (·.1) 11, go (·.2) 12)
  | _ => (fNaN fp32, fNaN fp32)

end Sys2Proof.Machine
end

