-- ==== Sys2Proof/Machine/AttnCmd.lean ====
section
/-! DEFINITION. The attention engine's commands ATTN, ADEC, KVAPP, KVDEV and AROT (R305 to R316). -/

namespace Sys2Proof.Machine

/-! ### Rotation (R309) -/

def ropeMode (v : Word) : Nat := bits v 1 0
def ropeBase (v : Word) : Nat := bits v 63 32

/-- KVROPE as a command that reads it refuses it: MODE 3, or a BASE that is not positive, normal and finite. -/
def ropeBad (v : Word) : Bool :=
  let e := ropeBase v / 2 ^ 23
  ropeMode v == 3 || (ropeMode v != 0 && (e == 0 || decide (255 ≤ e)))

/-- theta of pair `m`. -/
def ropeTheta (v : Word) (dh m : Nat) : FV :=
  let q := fDecode fp32 (fDivV fp32 .rne (.fin (m != 0) (2 * m) 0) (.fin false dh 0)).1
  let l := fDecode fp32 (sfuEval .log (ropeBase v))
  fDecode fp32 (sfuEval .exp (pat32 (fvMul q l)))

/-- Rotate (R309). -/
def rotatePair (x y : FV) (p : Int) (theta : FV) : FV × FV :=
  let (s, c) := sfuSinCos (fvMul (fvInt p) theta)
  let s := fDecode fp32 s
  let c := fDecode fp32 c
  (fvRound fp32 (fvAdd (fvMul x c) (fNegV (fvMul y s))), fvRound fp32 (fvAdd (fvMul x s) (fvMul y c)))

/-- Rotate a head vector by an angle count; p = 0 and MODE 0 leave it as it is. -/
def rotateHead (v : Word) (dh : Nat) (p : Int) (xs : List FV) : List FV :=
  let half := dh / 2
  let at' (i : Nat) : FV := xs.getD i fvZero
  if p = 0 then xs
  else
    match ropeMode v with
    | 1 => (List.range half).flatMap fun m => let r := rotatePair (at' (2 * m)) (at' (2 * m + 1)) p (ropeTheta v dh m); [r.1, r.2]
    | 2 =>
      let rs := (List.range half).map fun m => rotatePair (at' m) (at' (m + half)) p (ropeTheta v dh m)
      rs.map (·.1) ++ rs.map (·.2)
    | _ => xs

/-! ### Descriptors, maps and entries -/

def kvFmtBad (d : Word) : Bool :=
  let f := descFmt d
  !((f == 1 || f == 2) && descSmode d == 0) && !(f == 8 && descSmode d == 1 && descSptr d == 0)

/-- FP32, BF16 or FP16 with SMODE 0. -/
def plainFloatBad (d : Word) : Bool := descBad d || !isFloatOut (descFmt d) || descSmode d != 0

/-- The physical address of a page of the map that the descriptor names, which lies in the tile's own TLM (R305, R310). -/
def mapPage (e : Eng) (va : Nat) : JM Nat := do
  let m ← engTranslate e va false
  jCheck (!inTlm m || m / tlmWindow != e.t) badCmd
  let s ← get
  jCheck (engFar s e m) 5
  pure m

/-- The descriptor and the physical address of its map (R305), whose further pages are translated with it (R350). A job that holds no
reference to the map yet reads nothing of it while LOCK is set (R359). -/
def readAdesc (e : Eng) (a : Nat) : JM (Adesc × Nat) := do
  let v ← engReadN e a 64
  let d := adescOf v
  jCheck (notMult a 64 || d.bad || notMult d.map 64) badCmd
  let m ← mapPage e d.map
  let s ← get
  if e.j.mapRef != some m && (kvHead s m).lock then throw (.locked m)
  jCheck (uncorrectable s m 64) 9
  let ps ← (List.range (mapSpan s m)).mapM fun k => mapPage e ((d.map / 2 ^ 16 + k + 1) * 2 ^ 16)
  modify fun s => setMapPages s m ps
  pure (d, m)

/-- Take the generation reference (R359). -/
def takeMapRef (e : Eng) (m : Nat) : JM Unit := modMine e fun j => { j with mapRef := some m, mapName := some m }

/-- Read an entry in one step at its home. -/
def readEnt (m i : Nat) : JM KvEnt := do
  let s ← get
  if uncorrectable s (kvEntry s m i) 64 then jFault 9 else pure (kvEnt s m i)

/-- A write of the map's header and of an entry waits at its port (R211, R264). -/
def mapPort (e : Eng) (m i : Nat) : JM Unit := do
  let s ← get
  if portHolds s m 64 (.job e.key) e.j.sm then throw (.port m 64)
  if portHolds s (kvEntry s m i) 64 (.job e.key) e.j.sm then throw (.port (kvEntry s m i) 64)

/-- Bytes that an attention job keeps in its tile's window store (R312; log entry 74). -/
def keepWindow (e : Eng) (b : List Byte) : JM Unit := modify fun s =>
  let b := b.take 0x800000
  let pa := bStore e.t 0 (Config.windowPlace s.nonce % (0x800001 - b.length))
  let s := { s with nonce := s.nonce + 1 }
  if b.isEmpty then s else performWrite s pa b.length (ofBytes b) none false e.j.rcb

/-- Bytes of one slot's K row (R306). -/
def rowK (f hg dh : Nat) : Nat := headBytes f hg dh

/-- A block's span. -/
def blockSpan (f hg dh : Nat) : Nat := 64 * rowK f hg dh + (if isContainer f then 4 * 64 * hg * contCount f dh else 0)

/-- An entry's provenance (R308). -/
def tagCheck (e : Eng) (en : KvEnt) : JM Unit := do
  let s ← get
  jCheck ((tagStale s e.t e.j.kvmodel en.tag).1 != 0) 7

/-- The bases and the stride that an entry's visit uses (R306). -/
def baseCheck (f hg dh : Nat) (en : KvEnt) (bases : List Nat) : JM Unit :=
  jCheck (bases.any (fun b => notMult b 64) || notMult en.ls 64 || decide (en.ls < blockSpan f hg dh)) badCmd

/-- Slot `s` of the entry is read from the repair block for layer `l` (R307, R363). -/
def repaired (en : KvEnt) (l s : Nat) : Bool := en.rmask / 2 ^ s % 2 == 1 && en.lc != 0xFF && decide (l ≤ en.lc)

/-- Head `h` of slot `s` of a block at `x`: K, or V (R306). -/
def readHead (e : Eng) (d : Adesc) (x s h : Nat) (v : Bool) : JM (List FV) :=
  let f := fb e.j
  let rb := rowK f d.hg d.dh
  let off := (if v then 32 * rb else 0) + s * rb + h * (rb / d.hg)
  if isContainer f then do
    let n := contCount f d.dh
    let cs ← (List.range n).mapM fun i => do
      let w ← engReadN e (x + off + 32 * i) 32
      checkCont e f 1 (x + off + 32 * i) w (x + 64 * rb + 4 * (off / 32 + i))
    pure (cs.flatten.take d.dh)
  else readPlain e f (x + off) d.dh

/-- K of a slot as the engine uses it, and V: heads by heads (R307, R309). -/
def readSlot (e : Eng) (d : Adesc) (en : KvEnt) (l s : Nat) : JM (List (List FV) × List (List FV)) := do
  let rep := repaired en l s
  let x := (if rep then en.rbase else en.obase) + l * en.ls
  let ks ← (List.range d.hg).mapM fun h => readHead e d x s h false
  let vs ← (List.range d.hg).mapM fun h => readHead e d x s h true
  pure (if rep then ks else ks.map (rotateHead e.j.kvrope d.dh en.delta), vs)

/-! ### ATTN and ADEC (R310 to R312) -/

/-- The checks of R310: T8 queries that are misplaced give BADCMD (log entry 66). -/
def attnCheck (e : Eng) (c : AttnCmd) (dec : Bool) : JM Unit := do
  jCheck (kvFmtBad e.j.fmtb || fa e.j != fb e.j || (fa e.j == 8 && descSmode e.j.fmta == 0) || plainFloatBad e.j.fmtc
    || descBad e.j.fmta || descBad e.j.fmtb) badFmt
  let (d, m) ← readAdesc e c.adesc.toNat
  let al := if isContainer (fa e.j) then 16 else fmtBytes (fa e.j)
  let ol := fmtBytes (fc e.j)
  jCheck ((dec && decide (8 < c.nq1.toNat + 1)) || notMult c.qaddr.toNat al || notMult d.qstride al || notMult c.oaddr.toNat ol
    || notMult d.ostride ol || ropeBad e.j.kvrope || e.j.cls == 0) badCmd
  takeMapRef e m

/-- The running values of one row and head: a mark for a score that was not finite, m, l and o. -/
structure AttnAcc where
  bad : Bool
  m : FV
  l : FV
  o : List FV
deriving DecidableEq, Repr

def accStart (dh : Nat) : AttnAcc := ⟨false, .inf true, fvZero, List.replicate dh fvZero⟩

def accWords (a : AttnAcc) : List Word := boolW a.bad :: ((a.m :: a.l :: a.o).map fun v => word (pat32 v))

def accOfWords (l : List Word) : AttnAcc :=
  let v := (l.drop 1).map fun w => fDecode fp32 w.toNat
  ⟨l.headD 0 != 0, v.getD 0 fvZero, v.getD 1 fvZero, v.drop 2⟩

/-- Token at position `p` is visible to the row at `qp` (R310). -/
def visible (causal : Bool) (win qp p : Nat) : Bool := (!causal || decide (p ≤ qp)) && (win == 0 || decide (qp < p + win))

/-- Dot product by granules along the head dimension (R311). -/
def dotFrom (ge : Nat) : Nat → FV → List FV → List FV → FV
  | 0, acc, _, _ => acc
  | n + 1, acc, a, b => if a.isEmpty then acc else dotFrom ge n (addGranule acc (a.take ge) (b.take ge)) (a.drop ge) (b.drop ge)

def expV (v : FV) : FV := fDecode fp32 (sfuEval .exp (pat32 v))

/-- One block's update of one row and head (R311): scores and values of the visible slots. -/
def attnStep (acc : AttnAcc) (ss : List FV) (vs : List (List FV)) : AttnAcc :=
  if ss.isEmpty then acc
  else if !ss.all fvFinite then { acc with bad := true }
  else
    let r := fvRound fp32
    let mn := ss.foldl fvMax acc.m
    let a := expV (r (fvAdd acc.m (fNegV mn)))
    let l := r (fvMul acc.l a)
    let o := acc.o.map fun x => r (fvMul x a)
    let (l, o) := (ss.zip vs).foldl (fun (lo : FV × List FV) x =>
      let p := expV (r (fvAdd x.1 (fNegV mn)))
      (r (fvAdd lo.1 p), (lo.2.zip x.2).map fun y => r (fvAdd y.1 (fvMul p y.2)))) (l, o)
    ⟨acc.bad, mn, l, o⟩

/-- What the engine reads for head `h` of slot `s` of a block at `x`: K, or V, with the scale words of containers (R306). -/
def headPieces (e : Eng) (d : Adesc) (x s h : Nat) (v : Bool) : List (Nat × Nat) :=
  let f := fb e.j
  let rb := rowK f d.hg d.dh
  let off := (if v then 32 * rb else 0) + s * rb + h * (rb / d.hg)
  if isContainer f then (List.range (contCount f d.dh)).flatMap fun i => [(x + off + 32 * i, 32), (x + 64 * rb + 4 * (off / 32 + i), 4)]
  else [(x + off, d.dh * fmtBytes f)]

/-- The addresses of the blocks that an entry's slots are read from for layer `l`, by slot (R307). -/
def slotBases (en : KvEnt) (l : Nat) : List (Nat × Nat) :=
  (List.range en.count).map fun k => (en.first + k, (if repaired en l (en.first + k) then en.rbase else en.obase) + l * en.ls)

/-- The engine stages an entry's K and V slots for LAYER in the window store (R312). -/
def stageEntry (e : Eng) (d : Adesc) (en : KvEnt) (l : Nat) : JM (List (Nat × List Byte)) := do
  let ps := (slotBases en l).flatMap fun b => (List.range d.hg).flatMap fun h => headPieces e d b.2 b.1 h false ++ headPieces e d b.2 b.1 h true
  let bs ← ps.mapM fun p => do
    let b ← engRead e p.1 p.2
    pure (p.1, b)
  keepWindow e (bs.flatMap (·.2))
  pure bs

/-- Stage the entry that the next granule visits: a fault there is met at its visit. -/
def stageNext (e : Eng) (d : Adesc) (en : KvEnt) (l : Nat) : JM (List (Nat × List Byte)) :=
  tryCatch (do
    baseCheck (fb e.j) d.hg d.dh en ((slotBases en l).map fun b => b.2 - l * en.ls)
    stageEntry e d en l) fun x => match x with
    | .fault _ => pure []
    | x => throw x

/-- The query of row `i`, head `q` (R310). -/
def readQuery (e : Eng) (c : AttnCmd) (d : Adesc) (i q : Nat) : JM (List FV) :=
  let f := fa e.j
  let base := c.qaddr.toNat + i * d.qstride
  if isContainer f then
    let n := contCount f d.dh
    readContRow e e.j.fmta (base + 32 * n * q) ((i * d.nh + q) * n) d.dh
  else readPlain e f (base + q * d.dh * fmtBytes f) d.dh

/-- The next entry, from an index plus one, with a token visible to some row. -/
def nextVisible (e : Eng) (c : AttnCmd) (d : Adesc) (m cap : Nat) : Nat → Nat → JM (Option (Nat × KvEnt))
  | 0, _ => pure none
  | f + 1, x =>
    if x == 0 || decide (cap < x) then pure none
    else do
      let en ← readEnt m (x - 1)
      let seen := (List.range (c.nq1.toNat + 1)).any fun i => (List.range en.count).any fun k =>
        visible (c.causal == 1) d.win (c.qpos.toNat + i) (en.pbase + k)
      if seen then pure (some (x - 1, en)) else nextVisible e c d m cap f en.next

/-- Cursor and running values kept by the entry between granules. -/
def attnKept (j : Job) (first n dh : Nat) : Nat × List AttnAcc :=
  match j.scratch with
  | [] => (first, List.replicate n (accStart dh))
  | w :: t => (w.toNat, (List.range n).map fun k => accOfWords ((t.drop (k * (dh + 3))).take (dh + 3)))

/-- The output of one row and head (R311). -/
def attnOut (a : AttnAcc) : List FV :=
  a.o.map fun x => if a.bad then .nan false else if fvIsZero a.l then fvZero else fDecode fp32 (fDivV fp32 .rne x a.l).1

/-- A granule is one visited entry, for every row and head: it computes from what is staged, and stages the next entry meanwhile; the last
writes the output (R312). What a system copy puts into the window store changes no result, so the values themselves stay with the job. -/
def attnGran (e : Eng) (c : AttnCmd) : JM Bool := do
  let (d, m) ← readAdesc e c.adesc.toNat
  let s ← get
  let h := kvHead s m
  let nq := c.nq1.toNat + 1
  let (cursor, accs) := attnKept e.j h.firstx (nq * d.nh) d.dh
  let found ← nextVisible e c d m h.cap h.cap cursor
  let l := c.layer.toNat
  let (accs, next, ahead) ← match found with
    | none => pure (accs, none, [])
    | some (_, en) => do
      let slots := List.range en.count
      let bases := slots.map fun k => if repaired en l (en.first + k) then en.rbase else en.obase
      tagCheck e en
      baseCheck (fb e.j) d.hg d.dh en bases
      let staged ← if e.j.staged.isEmpty then stageEntry e d en l else pure e.j.staged
      let kv ← slots.mapM fun k => readSlot { e with staged := staged } d en l (en.first + k)
      let qs ← ((List.range nq).flatMap fun i => (List.range d.nh).map fun q => (i, q)).mapM fun p => do
        let v ← readQuery (e.rereads (!e.j.scratch.isEmpty)) c d p.1 p.2
        pure (p, v)
      let ge := granElems (fb e.j)
      let upd := (accs.zip qs).map fun x =>
        let (i, q) := x.2.1
        let hd := q / d.rq
        let seen := (slots.zip kv).filter fun y => visible (c.causal == 1) d.win (c.qpos.toNat + i) (en.pbase + y.1)
        let ss := seen.map fun y =>
          fvRound fp32 (fvMul (dotFrom ge d.dh fvZero x.2.2 (y.2.1.getD hd [])) (fDecode fp32 d.sc))
        attnStep x.1 ss (seen.map fun y => y.2.2.getD hd [])
      let more ← nextVisible e c d m h.cap h.cap en.next
      let ahead ← match more with
        | some (_, e2) => stageNext e d e2 l
        | none => pure []
      pure (upd, if more.isSome then some en.next else none, ahead)
  match next with
  | some n => do
    modMine e fun j => { j with scratch := word n :: accs.flatMap accWords, staged := ahead }
    keepWindow e (accs.flatMap fun a => (a.m :: a.l :: a.o).flatMap fun v => bytesOf 4 (pat32 v))
    pure false
  | none => do
    let w := fmtBytes (fc e.j)
    engWriteAll e (accs.zipIdx.map fun x =>
      (c.oaddr.toNat + x.2 / d.nh * d.ostride + x.2 % d.nh * d.dh * w, encodePlain (fc e.j) (attnOut x.1)))
    pure true

/-! ### KVAPP (R313) -/

/-- Slots SLOT0 … SLOT0 + NT − 1 lie outside the slots used. -/
def slotsOut (en : KvEnt) (slot0 nt : Nat) : Bool := decide (slot0 < en.first) || decide (en.first + en.count < slot0 + nt)

def kvappCheck (e : Eng) (c : KvappCmd) : JM Unit := do
  jCheck (plainFloatBad e.j.fmta || descBad e.j.fmtb || !((fb e.j == 1 || fb e.j == 2) && descSmode e.j.fmtb == 0)) badFmt
  let (_, m) ← readAdesc e c.adesc.toNat
  let s ← get
  let h := kvHead s m
  let i := c.entry.toNat
  jCheck (decide (h.cap ≤ i)) badCmd
  let en ← readEnt m i
  let s0 := c.slot0.toNat
  let nt := c.nt.toNat
  jCheck (en.st != 2 || decide (32 < s0 + nt) || nt == 0
    || (if c.ext = 1 then h.lastx != i + 1 || s0 != en.first + en.count || decide (32 < en.count + nt) else slotsOut en s0 nt)
    || ropeBad e.j.kvrope || e.j.cls == 0) badCmd
  takeMapRef e m

/-- The heads of a row of `hg · dh` values. -/
def headsOf (hg dh : Nat) (vs : List FV) : List (List FV) := (List.range hg).map fun h => (vs.drop (h * dh)).take dh

/-- A granule is one token; with EXT the last raises the entry's count. -/
def kvappGran (e : Eng) (c : KvappCmd) : JM Bool := do
  let (d, m) ← readAdesc e c.adesc.toNat
  let en ← readEnt m c.entry.toNat
  let t := e.j.gran
  let slot := c.slot0.toNat + t
  if t == 0 then tagCheck e en
  baseCheck (fb e.j) d.hg d.dh en [en.obase]
  let n := d.hg * d.dh
  let k ← readPlain e (fa e.j) (c.ksrc.toNat + t * d.qstride) n
  let v ← readPlain e (fa e.j) (c.vsrc.toNat + t * d.qstride) n
  let p : Int := (en.pbase : Int) + (slot : Int) - (en.first : Int) - en.delta
  let k := if c.rot = 1 then (headsOf d.hg d.dh k).flatMap (rotateHead e.j.kvrope d.dh p) else k
  let x := en.obase + c.layer.toNat * en.ls
  let rb := rowK (fb e.j) d.hg d.dh
  engWriteAll e [(x + slot * rb, encodePlain (fb e.j) k), (x + 32 * rb + slot * rb, encodePlain (fb e.j) v)]
  let done := decide (c.nt.toNat ≤ t + 1)
  if done && c.ext = 1 then
    mapPort e m c.entry.toNat
    modify fun s =>
      let now := kvEnt s m c.entry.toNat
      let s := putKvEnt s m c.entry.toNat e.j.rcb { now with count := now.count + c.nt.toNat }
      let h := kvHead s m
      putKvHead s m e.j.rcb { h with ntok := h.ntok + c.nt.toNat }
  pure done

/-! ### KVDEV (R314) -/

def kvdevCheck (e : Eng) (c : KvdevCmd) : JM Unit := do
  jCheck (plainFloatBad e.j.fmta || kvFmtBad e.j.fmtb || descBad e.j.fmtb) badFmt
  let (_, m) ← readAdesc e c.adesc.toNat
  let s ← get
  jCheck (decide ((kvHead s m).cap ≤ c.entry.toNat)) badCmd
  let en ← readEnt m c.entry.toNat
  jCheck (en.st != 2 || c.nt.toNat == 0 || slotsOut en c.slot0.toNat c.nt.toNat || notMult c.devout.toNat 4 || ropeBad e.j.kvrope
    || e.j.cls == 0) badCmd
  takeMapRef e m

/-- SumSq in granules of 32 (R314, R321). -/
def sumSq (xs : List FV) : FV := dotFrom 32 xs.length fvZero xs xs

/-- Deviation of one head. -/
def headDev (f c : List FV) : FV :=
  let diff := (f.zip c).map fun p => fvRound fp32 (fvAdd p.1 (fNegV p.2))
  let qs := sumSq diff
  let rs := sumSq f
  if fvIsZero rs then (if fvIsZero qs then fvZero else .inf false)
  else fDecode fp32 (fSqrtV fp32 .rne (fDecode fp32 (fDivV fp32 .rne qs rs).1)).1

def kvdevGran (e : Eng) (c : KvdevCmd) : JM Bool := do
  let (d, m) ← readAdesc e c.adesc.toNat
  let en ← readEnt m c.entry.toNat
  let t := e.j.gran
  let slot := c.slot0.toNat + t
  if t == 0 then tagCheck e en
  baseCheck (fb e.j) d.hg d.dh en [en.obase]
  let l := bits e.j.kvchkl 7 0
  let x := en.obase + l * en.ls
  let f ← readPlain e (fa e.j) (c.fresh.toNat + t * d.qstride) (d.hg * d.dh)
  let ks ← (List.range d.hg).mapM fun h => readHead e d x slot h false
  let devs := ((headsOf d.hg d.dh f).zip ks).map fun p => headDev p.1 (rotateHead e.j.kvrope d.dh en.delta p.2)
  let dv := (devs.drop 1).foldl fvMax (devs.headD fvZero)
  if c.devout != 0 then engWriteAll e [(c.devout.toNat + 4 * t, bytesOf 4 (pat32 dv))]
  let thr := fDecode fp16 (bits e.j.kvthr 15 0)
  let mark := isNan dv || (!isNan thr && fCmp dv thr == 1)
  let mask := (e.j.scratch.headD 0).toNat ||| (if mark then 2 ^ slot else 0)
  let done := decide (c.nt.toNat ≤ t + 1)
  modMine e fun j => { j with scratch := [word mask] }
  if done then
    mapPort e m c.entry.toNat
    modify fun s =>
      let now := kvEnt s m c.entry.toNat
      putKvEnt s m c.entry.toNat e.j.rcb { now with rmask := now.rmask ||| mask }
  pure done

/-! ### AROT (R315) -/

def arotCheck (e : Eng) (c : ArotCmd) : JM Unit := do
  jCheck (plainFloatBad e.j.fmta) badFmt
  let w := fmtBytes (fa e.j)
  jCheck (c.dh.toNat % 2 == 1 || c.dh.toNat == 0 || decide (256 < c.dh.toNat) || notMult c.addr.toNat w || notMult c.stride.toNat w
    || ropeBad e.j.kvrope || e.j.cls == 0) badCmd

def arotGran (e : Eng) (c : ArotCmd) : JM Bool := do
  let r := e.j.gran
  if ropeMode e.j.kvrope != 0 && r < c.nrows.toNat then
    let nh := c.nh1.toNat + 1
    let dh := c.dh.toNat
    let va := c.addr.toNat + r * c.stride.toNat
    let p := c.pos0.toNat + r
    let vs ← readPlain e (fa e.j) va (nh * dh)
    engWriteAll e [(va, encodePlain (fa e.j) ((headsOf nh dh vs).flatMap (rotateHead e.j.kvrope dh p)))]
  pure (ropeMode e.j.kvrope == 0 || decide (c.nrows.toNat ≤ r + 1))

end Sys2Proof.Machine
end

