-- ==== Sys2Proof/Machine/VectorCmd.lean ====
section
/-! DEFINITION. The vector engine's commands VBIN, VUN, VFMA, VSEL, VRED, VSCAN, VCVT, VNORM, VTRN and VIDX (R317 to R327). -/

namespace Sys2Proof.Machine

/-! ### Work types (R318) -/

inductive Work where | f64 | f32 | i64
deriving DecidableEq, Repr

/-- The work type of the formats used; none for a mixture of integers with others. -/
def workOfFmts (fs : List Nat) : Option Work :=
  if fs.all isIntFmt then some .i64
  else if fs.any isIntFmt then none
  else if fs.contains 3 then some .f64
  else some .f32

def workFmt : Work → Fmt
  | .f64 => fp64
  | _ => fp32

/-- A value rounded to the work type. -/
def toWork (k : Work) (v : FV) : FV := if k == .i64 then v else fvRound (workFmt k) v

/-- An integer value. -/
def fvAsInt (v : FV) : Int := fvToInt (-(2 ^ 128 : Nat)) (2 ^ 128 : Nat) v

def wrap64 (z : Int) : Int := sx (patI z 64) 64

/-- A work value as the doubleword that an entry keeps between granules. -/
def workWord (k : Work) (v : FV) : Word :=
  if k == .i64 then word (patI (fvAsInt v) 64) else word (fConvert (workFmt k) .rne v).1

def ofWorkWord (k : Work) (w : Word) : FV := if k == .i64 then fvInt w.toInt else fDecode (workFmt k) w.toNat

/-- Arithmetic in a work type: 0 ADD, 1 SUB, 2 MUL, 3 DIV, 4 MIN, 5 MAX, 6 AND, 7 OR, 8 XOR (R319). -/
def workBin (k : Work) (op : Nat) (a b : FV) : FV :=
  if k == .i64 then
    let x := fvAsInt a
    let y := fvAsInt b
    let wx : Word := word (patI x 64)
    let wy : Word := word (patI y 64)
    fvInt <| match op with
      | 0 => wrap64 (x + y)
      | 1 => wrap64 (x - y)
      | 2 => wrap64 (x * y)
      | 3 => (divV wx wy).toInt
      | 4 => min x y
      | 5 => max x y
      | 6 => (wx &&& wy).toInt
      | 7 => (wx ||| wy).toInt
      | _ => (wx ^^^ wy).toInt
  else
    let f := workFmt k
    match op with
    | 0 => fDecode f (fAddV f .rne a b).1
    | 1 => fDecode f (fAddV f .rne a (fNegV b)).1
    | 2 => fDecode f (fMulV f .rne a b).1
    | 3 => fDecode f (fDivV f .rne a b).1
    | 4 => fvMin a b
    | _ => fvMax a b

/-- VUN's function (R320). -/
def workUn (k : Work) (op : Nat) (a : FV) : FV :=
  match op, k with
  | 0, .i64 => fvInt (-fvAsInt a)
  | 1, .i64 => fvInt (fvAsInt a).natAbs
  | 0, _ => fNegV a
  | 1, _ => fvAbs a
  | 2, .f64 => fDecode fp64 (fDivV fp64 .rne (.fin false 1 0) a).1
  | 4, .f64 => fDecode fp64 (fSqrtV fp64 .rne a).1
  | _, _ => fDecode fp32 (sfuEval (sfuOf op) (pat32 a))

/-- VSEL's comparison (R319): 0 EQ, 1 NE, 2 LT, 3 LE. -/
def workCmp (op : Nat) (a b : FV) : Bool :=
  let un := isNan a || isNan b
  match op with
  | 0 => !un && fCmp a b == 0
  | 1 => un || fCmp a b != 0
  | 2 => !un && fCmp a b == -1
  | _ => !un && fCmp a b != 1

/-- A·B + D with one rounding, or modulo 2^64. -/
def workFma (k : Work) (a b d : FV) : FV :=
  if k == .i64 then fvInt (wrap64 (fvAsInt a * fvAsInt b + fvAsInt d)) else fDecode (workFmt k) (fFmaV (workFmt k) .rne a b d).1

/-! ### Operands (R317) -/

/-- Elements [lo, lo + n) of a row at `va` whose first container has index `cont`. A container whose first element
lies before `lo` has been read by an earlier granule (R78). -/
def readRun (e : Eng) (d : Word) (va cont lo n : Nat) : JM (List FV) :=
  let f := descFmt d
  if n == 0 then pure []
  else if isContainer f then do
    let per := contElems f
    let first := lo / per
    let cs ← (List.range ((lo + n - 1) / per - first + 1)).mapM fun i =>
      readCont (e.rereads (decide ((first + i) * per < lo))) d (va + 32 * (first + i)) (cont + first + i)
    pure ((cs.flatten.drop (lo - first * per)).take n)
  else readPlain e f (va + lo * fmtBytes f) n

/-- The run in the work type. -/
def readWork (e : Eng) (k : Work) (d : Word) (va lo n : Nat) : JM (List FV) := do
  let vs ← readRun e d va 0 lo n
  pure (vs.map (toWork k))

/-- A container operand whose address is not a multiple of 16 (R71). -/
def contMisplaced (d : Word) (va : Nat) : Bool := isContainer (descFmt d) && notMult va 16

/-- A plain operand whose address is not a multiple of its element width (R317). -/
def plainMisplaced (d : Word) (va : Nat) : Bool := !isContainer (descFmt d) && notMult va (fmtBytes (descFmt d))

/-- FMTC of a command other than VCVT: a plain format. -/
def outBad (d : Word) : Bool := descBad d || isContainer (descFmt d)

/-- Length of granule `g` of 64 elements out of `n`. -/
def granLen (g n : Nat) : Nat := min 64 (n - 64 * g)

def lastOf (g n : Nat) : Bool := decide (n ≤ 64 * (g + 1))

/-! ### VBIN, VUN, VFMA and VSEL -/

/-- The work type of the three operands. -/
def eltWork (e : Eng) : Option Work := workOfFmts [fa e.j, fb e.j, fc e.j]

/-- Checks that VBIN, VFMA and VSEL share; `opBad` judges OP in the work type. -/
def eltCheck (e : Eng) (c : VeltCmd) (opBad : Work → Bool) : JM Unit := do
  jCheck (descBad e.j.fmta || descBad e.j.fmtb || outBad e.j.fmtc || (eltWork e).isNone
    || contMisplaced e.j.fmta c.a.toNat || contMisplaced e.j.fmtb c.b.toNat) badFmt
  jCheck (opBad ((eltWork e).getD .f32) || plainMisplaced e.j.fmta c.a.toNat || plainMisplaced e.j.fmtb c.b.toNat
    || plainMisplaced e.j.fmtc c.dst.toNat || e.j.cls == 0) badCmd

def vbinCheck (e : Eng) (c : VeltCmd) : JM Unit :=
  eltCheck e c fun k => decide (8 < c.op.toNat) || (k != .i64 && decide (5 < c.op.toNat))

def vfmaCheck (e : Eng) (c : VeltCmd) : JM Unit := eltCheck e c fun _ => false

def vselCheck (e : Eng) (c : VeltCmd) : JM Unit := eltCheck e c fun _ => decide (3 < c.op.toNat) && c.op != 8

/-- One granule of an elementwise command with two sources: `f` gives D from A, B and the old D. -/
def eltGran (e : Eng) (c : VeltCmd) (oldD : Bool) (f : Work → FV → FV → FV → FV) : JM Bool := do
  let k := (eltWork e).getD .f32
  let g := e.j.gran
  let n := granLen g c.n.toNat
  if n != 0 then
    let a ← readWork e k e.j.fmta c.a.toNat (64 * g) n
    let b ← if c.bs = 1 then do
        let b ← readWork (e.rereads (g != 0)) k e.j.fmtb c.b.toNat 0 1
        pure (List.replicate n (b.headD fvZero))
      else readWork e k e.j.fmtb c.b.toNat (64 * g) n
    let d ← if oldD then readWork e k e.j.fmtc c.dst.toNat (64 * g) n else pure (List.replicate n fvZero)
    engWriteAll e [(c.dst.toNat + 64 * g * fmtBytes (fc e.j),
      encodePlain (fc e.j) ((a.zip (b.zip d)).map fun p => f k p.1 p.2.1 p.2.2))]
  pure (lastOf g c.n.toNat)

def vbinGran (e : Eng) (c : VeltCmd) : JM Bool := eltGran e c false fun k a b _ => workBin k c.op.toNat a b

def vfmaGran (e : Eng) (c : VeltCmd) : JM Bool := eltGran e c true workFma

def vselGran (e : Eng) (c : VeltCmd) : JM Bool :=
  eltGran e c (c.op == 8) fun _ a b d =>
    if c.op = 8 then (if fvIsZero d then b else a) else fvInt (if workCmp c.op.toNat a b then 1 else 0)

/-- VUN accepts OP in a work type (R320). -/
def vunAccepts (k : Work) (op : Nat) : Bool :=
  match k with
  | .f64 => [0, 1, 2, 4].contains op
  | .i64 => decide (op < 2)
  | .f32 => true

def vunCheck (e : Eng) (c : VeltCmd) : JM Unit := do
  let k := workOfFmts [fa e.j, fc e.j]
  jCheck (descBad e.j.fmta || outBad e.j.fmtc || k.isNone || contMisplaced e.j.fmta c.a.toNat
    || (decide (c.op.toNat < 13) && !vunAccepts (k.getD .f32) c.op.toNat)) badFmt
  jCheck (decide (13 ≤ c.op.toNat) || c.b != 0 || c.bs = 1 || plainMisplaced e.j.fmta c.a.toNat || plainMisplaced e.j.fmtc c.dst.toNat
    || e.j.cls == 0) badCmd

def vunGran (e : Eng) (c : VeltCmd) : JM Bool := do
  let k := (workOfFmts [fa e.j, fc e.j]).getD .f32
  let g := e.j.gran
  let n := granLen g c.n.toNat
  if n != 0 then
    let a ← readWork e k e.j.fmta c.a.toNat (64 * g) n
    engWriteAll e [(c.dst.toNat + 64 * g * fmtBytes (fc e.j), encodePlain (fc e.j) (a.map (workUn k c.op.toNat)))]
  pure (lastOf g c.n.toNat)

/-! ### VRED and VSCAN (R321, R322) -/

/-- The result of an empty row: 0 SUM, 1 MIN, 2 MAX, 3 AMAX, 4 SUMSQ. -/
def redStart (k : Work) (op : Nat) : FV :=
  match op with
  | 1 => if k == .i64 then fvInt (2 ^ 63 - 1) else .inf false
  | 2 => if k == .i64 then fvInt (-(2 ^ 63)) else .inf true
  | _ => fvZero

/-- Granule sums of 32 elements, of x or x·x, added in order (R79). -/
def sumFrom (f : Fmt) (sq : Bool) : Nat → FV → List FV → FV
  | 0, acc, _ => acc
  | n + 1, acc, xs =>
    if xs.isEmpty then acc
    else
      let g := xs.take 32
      sumFrom f sq n (addRne f acc (granuleSum f (if sq then g.map fun x => fvMul x x else g))) (xs.drop 32)

/-- Continue a reduction with more elements of the row. -/
def redMore (k : Work) (op : Nat) (acc : FV) (xs : List FV) : FV :=
  match op, k with
  | 0, .i64 => xs.foldl (fun z x => fvInt (wrap64 (fvAsInt z + fvAsInt x))) acc
  | 4, .i64 => xs.foldl (fun z x => fvInt (wrap64 (fvAsInt z + fvAsInt x * fvAsInt x))) acc
  | 3, .i64 => xs.foldl (fun z x => fvInt (max (fvAsInt z) (fvAsInt x).natAbs)) acc
  | 0, _ => sumFrom (workFmt k) false xs.length acc xs
  | 4, _ => sumFrom (workFmt k) true xs.length acc xs
  | 3, _ => xs.foldl (fun z x => fvMax z (fvAbs x)) acc
  | _, _ => xs.foldl (workBin k (if op == 1 then 4 else 5)) acc

def redWork (e : Eng) : Option Work := workOfFmts [fa e.j, fc e.j]

def vredCheck (e : Eng) (c : VredCmd) : JM Unit := do
  jCheck (descBad e.j.fmta || outBad e.j.fmtc || (redWork e).isNone || contMisplaced e.j.fmta c.src.toNat
    || (decide (1 < c.nrows.toNat) && contMisplaced e.j.fmta c.sstride.toNat)) badFmt
  jCheck (decide (4 < c.op.toNat) || e.j.cls == 0) badCmd

/-- A granule is up to 64 elements of one row, two granules of R79; when a container fails, the result is what the granules of R79 before
it have accumulated (R71). AMAX of the smallest integer is kept beyond INT64 by its sign. -/
def vredGran (e : Eng) (c : VredCmd) : JM Bool := do
  let k := (redWork e).getD .f32
  let n := c.n.toNat
  let op := c.op.toNat
  let parts := max 1 ((n + 63) / 64)
  let r := e.j.gran / parts
  let p := e.j.gran % parts
  if r < c.nrows.toNat then
    let run (e : Eng) (m : Nat) : JM (List FV) := readRun e e.j.fmta (c.src.toNat + r * c.sstride.toNat) (r * contCount (fa e.j) n) (64 * p) m
    let put (v : FV) : JM Unit := engWriteAll e [(c.dst.toNat + r * fmtBytes (fc e.j), encodePlain (fc e.j) [v])]
    let kept := e.j.scratch.headD 0
    let acc := if p == 0 then redStart k op else if k == .i64 && op == 3 then fvInt kept.toNat else ofWorkWord k kept
    let partials : JM Unit := do
      let first ← tryCatch (do let xs ← run (e.rereads true) (min 32 (granLen p n)); pure (some xs)) fun _ => pure none
      match first with
      | some xs => put (redMore k op acc (xs.map (toWork k)))
      | none => if p != 0 then put acc
    let xs ← orPartial (run e (granLen p n)) (if isContainer (fa e.j) then partials else pure ())
    let acc := redMore k op acc (xs.map (toWork k))
    if p + 1 == parts then put acc
    else modMine e fun j => { j with scratch := [workWord k acc] }
  pure (decide (c.nrows.toNat * parts ≤ e.j.gran + 1))

def vscanCheck (e : Eng) (c : VscanCmd) : JM Unit := do
  jCheck (descBad e.j.fmta || outBad e.j.fmtc || (redWork e).isNone || contMisplaced e.j.fmta c.src.toNat) badFmt
  jCheck (decide (2 < c.op.toNat) || e.j.cls == 0) badCmd

/-- Prefix results in order: the last one, and those of the list; `none` before the first element. -/
def scanList (f : FV → FV → FV) : Option FV → List FV → List FV × Option FV
  | y, [] => ([], y)
  | y, x :: t =>
    let z := match y with
      | none => x
      | some v => f v x
    let (l, last) := scanList f (some z) t
    (z :: l, last)

def vscanGran (e : Eng) (c : VscanCmd) : JM Bool := do
  let k := (redWork e).getD .f32
  let op := c.op.toNat
  let g := e.j.gran
  let n := granLen g c.n.toNat
  if n != 0 then
    let xs ← readWork e k e.j.fmta c.src.toNat (64 * g) n
    let y := (e.j.scratch.head?).map (ofWorkWord k)
    let (ys, last) := scanList (workBin k (match op with | 0 => 0 | 1 => 4 | _ => 5)) y xs
    let out := if c.excl = 1 then (y.getD (redStart k op) :: ys).take n else ys
    engWriteAll e [(c.dst.toNat + 64 * g * fmtBytes (fc e.j), encodePlain (fc e.j) out)]
    modMine e fun j => { j with scratch := match last with
      | some v => [workWord k v]
      | none => [] }
  pure (lastOf g c.n.toNat)

/-! ### VCVT (R323) -/

/-- The largest magnitude of a container format's elements. -/
def maxPos (c : Nat) : Nat := match c with | 8 => 4096 | 9 => 16 | _ => 7

/-- A scale as E and M, (0, 0) for zero. -/
abbrev EM := Nat × Nat

/-- The smallest E8M12 value at or above a / b, limited to the normal range. -/
def scaleAbove (a b : Nat) : EM :=
  let t : Int := (bitLen a : Int) - (bitLen b : Int)
  let ge (x : Int) : Bool := if 0 ≤ x then decide (b * 2 ^ x.toNat ≤ a) else decide (b ≤ a * 2 ^ (-x).toNat)
  let k := if ge t then t else t - 1
  let sh := 12 - k
  let num := if 0 ≤ sh then a * 2 ^ sh.toNat else a
  let den := if 0 ≤ sh then b else b * 2 ^ (-sh).toNat
  let n := (num + den - 1) / den
  let (k, n) := if n == 8192 then (k + 1, 4096) else (k, n)
  let e := k + 127
  if e < 1 then (1, 0) else if 254 < e then (254, 4095) else (e.toNat, n - 4096)

/-- The scale of a block of values (R323). -/
def blockScale (c : Nat) (xs : List FV) : EM :=
  let amax := (xs.filter fvFinite).foldl (fun a x => fvMax a (fvAbs x)) fvZero
  match amax with
  | .fin _ m e =>
    if m == 0 then (if xs.any (fun x => !fvFinite x) then (127, 0) else (0, 0))
    else if 0 ≤ e then scaleAbove (m * 2 ^ e.toNat) (maxPos c) else scaleAbove m (maxPos c * 2 ^ (-e).toNat)
  | _ => (127, 0)

/-- A block's container: its codes under a scale. -/
def blockBits (c gen : Nat) (sc : EM) (xs : List FV) : Nat :=
  let m := if sc.1 == 0 then 0 else 4096 + sc.2
  contBits c gen (xs.map fun x => encodeNarrow c x m ((sc.1 : Int) - 139))

def vcvtToCont (e : Eng) : Bool := isContainer (fc e.j)

def vcvtCheck (e : Eng) (c : VcvtCmd) : JM Unit := do
  let a := fa e.j
  jCheck (descBad e.j.fmta || descBad e.j.fmtc || contMisplaced e.j.fmta c.src.toNat || contMisplaced e.j.fmtc c.dst.toNat
    || (vcvtToCont e && (descSmode e.j.fmtc == 0 || !(decide (a < 3) || isContainer a)))) badFmt
  jCheck (e.j.cls == 0) badCmd

/-- Elements [lo, lo + n) of source row `r`. -/
def vcvtRun (e : Eng) (c : VcvtCmd) (r lo n : Nat) : JM (List FV) :=
  let f := fa e.j
  let cont := r * contCount f c.rowlen.toNat
  let va := c.src.toNat + (if isContainer f then 32 * cont else r * c.rowlen.toNat * fmtBytes f)
  readRun e e.j.fmta va cont lo n

/-- Under SMODE 2 the scale of the whole operand is found first. -/
def vcvtStart (e : Eng) (c : VcvtCmd) : JM Unit := do
  if vcvtToCont e && descSmode e.j.fmtc == 2 then
    let rs ← (List.range c.nrows.toNat).mapM fun r => vcvtRun e c r 0 c.rowlen.toNat
    let (x, m) := blockScale (fc e.j) rs.flatten
    modMine e fun j => { j with scratch := [word x, word m] }

def vcvtGran (e : Eng) (c : VcvtCmd) : JM Bool := do
  let n := c.rowlen.toNat
  let out := fc e.j
  let g := e.j.gran
  if vcvtToCont e then
    let per := contCount out n
    let total := c.nrows.toNat * per
    if g < total then
      let lo := g % per * contElems out
      let xs ← vcvtRun (e.rereads (descSmode e.j.fmtc == 2)) c (g / per) lo (min (contElems out) (n - lo))
      let one := descSmode e.j.fmtc == 1
      let sc := if one then blockScale out xs else ((e.j.scratch.getD 0 0).toNat, (e.j.scratch.getD 1 0).toNat)
      let gen := bits e.j.genctr 3 0
      let words := [(c.dst.toNat + 32 * g, bytesOf 32 (blockBits out gen sc xs))]
      let scale := if one || total ≤ g + 1 then [(scaleAddr e.j.fmtc g, bytesOf 4 (scaleWord sc.1 sc.2 gen))] else []
      engWriteAll e (words ++ scale)
    pure (decide (total ≤ g + 1))
  else
    let total := n * c.nrows.toNat
    let lo := 64 * g
    let hi := min total (lo + 64)
    if lo < hi then
      let xs ← (List.range ((hi - 1) / n - lo / n + 1)).mapM fun i => do
        let r := lo / n + i
        let a := max lo (r * n)
        vcvtRun e c r (a - r * n) (min hi ((r + 1) * n) - a)
      engWriteAll e [(c.dst.toNat + lo * fmtBytes out, encodePlain out xs.flatten)]
    pure (decide (total ≤ lo + 64))

/-! ### VNORM (R324) -/

def vnormCheck (e : Eng) (c : VnormCmd) : JM Unit := do
  jCheck (plainFloatBad e.j.fmta || plainFloatBad e.j.fmtc) badFmt
  jCheck (c.n.toNat == 0 || decide (4096 < c.n.toNat) || notMult c.prm.toNat 4 || e.j.cls == 0) badCmd

/-- One row normalised. -/
def normRow (layer : Bool) (eps : FV) (g b x : List FV) : List FV :=
  let r := fvRound fp32
  let n := fvInt x.length
  let div (v : FV) : FV := fDecode fp32 (fDivV fp32 .rne v n).1
  let mu := div (sumFrom fp32 false x.length fvZero x)
  let d := if layer then x.map fun v => r (fvAdd v (fNegV mu)) else x
  let v := div (sumFrom fp32 true d.length fvZero d)
  let rs := fDecode fp32 (sfuEval .rsqrt (pat32 (r (fvAdd v eps))))
  if layer then (d.zip (g.zip b)).map fun p => r (fvAdd (fvMul (r (fvMul p.1 rs)) p.2.1) p.2.2)
  else (d.zip g).map fun p => r (fvMul (r (fvMul p.1 rs)) p.2)

def vnormGran (e : Eng) (c : VnormCmd) : JM Bool := do
  let n := c.n.toNat
  let row := e.j.gran
  if row < c.nrows.toNat then
    let x ← readPlain e (fa e.j) (c.src.toNat + row * n * fmtBytes (fa e.j)) n
    let prm ← readPlain e 0 c.prm.toNat (1 + n + (if c.mode = 1 then n else 0))
    let y := normRow (c.mode == 1) (prm.headD fvZero) ((prm.drop 1).take n) (prm.drop (1 + n)) x
    engWriteAll e [(c.dst.toNat + row * n * fmtBytes (fc e.j), encodePlain (fc e.j) y)]
  pure (decide (c.nrows.toNat ≤ row + 1))

/-! ### VTRN (R325) -/

def vtrnCheck (e : Eng) (c : VtrnCmd) : JM Unit := do
  jCheck (descBad e.j.fmta || descBad e.j.fmtc || isContainer (fa e.j) || fc e.j != fa e.j) badFmt
  let w := fmtBytes (fa e.j)
  jCheck (rangesMeet (rows c.src.toNat c.rows.toNat c.sstride.toNat (c.cols.toNat * w))
    (rows c.dst.toNat c.cols.toNat c.dstride.toNat (c.rows.toNat * w)) || e.j.cls == 0) badCmd

def vtrnGran (e : Eng) (c : VtrnCmd) : JM Bool := do
  let w := fmtBytes (fa e.j)
  let cols := c.cols.toNat
  let total := cols * c.rows.toNat
  let g := e.j.gran
  let ws ← (List.range (granLen g total)).mapM fun i => do
    let x := 64 * g + i
    let b ← engRead e (c.src.toNat + x / cols * c.sstride.toNat + x % cols * w) w
    pure (c.dst.toNat + x % cols * c.dstride.toNat + x / cols * w, b)
  engWriteAll e ws
  pure (lastOf g total)

/-! ### VIDX (R326) -/

def vidxCheck (e : Eng) (c : VidxCmd) : JM Unit := do
  jCheck (if c.mode = 1 then descBad e.j.fmta || contMisplaced e.j.fmta c.src.toNat else outBad e.j.fmtc) badFmt
  jCheck (decide (1 < c.mode.toNat) || (c.mode = 0 && c.src != 0) || (c.mode = 1 && notMult c.dst.toNat 8) || e.j.cls == 0) badCmd

def vidxGran (e : Eng) (c : VidxCmd) : JM Bool := do
  let g := e.j.gran
  let n := granLen g c.n.toNat
  let at' (i : Nat) : Int := c.base.toInt + (i : Int) * c.step.toInt
  let last := lastOf g c.n.toNat
  if c.mode = 1 then
    let xs ← readRun e e.j.fmta c.src.toNat 0 (64 * g) n
    let k := (e.j.scratch.headD 0).toNat
    let hits := (xs.zipIdx.filter fun x => !fvIsZero x.1).map (·.2)
    let ws := hits.zipIdx.map fun x => (c.dst.toNat + 8 + 4 * (k + x.2), bytesOf 4 (patI (at' (64 * g + x.1)) 32))
    engWriteAll e (ws ++ (if last then [(c.dst.toNat, bytesOf 8 (k + hits.length))] else []))
    modMine e fun j => { j with scratch := [word (k + hits.length)] }
  else
    engWriteAll e [(c.dst.toNat + 64 * g * fmtBytes (fc e.j),
      encodePlain (fc e.j) ((List.range n).map fun i => fvInt (at' (64 * g + i))))]
  pure last

end Sys2Proof.Machine
end

