-- ==== Sys2Proof/Machine/Jobs.lean ====
section
/-! DEFINITION. Jobs on their engines: the events of R42, R266, R267, R270 and R279, and every engine command run whole by
the engine of the executing tile (log entry 15). -/

namespace Sys2Proof.Machine

/-! ### Each command's parts -/

/-- The checks of a command's own entry (R42 step 5). -/
def runCheck (e : Eng) (i : Instr) : JM Unit :=
  match i with
  | .cpy _ _ => pure ()
  | .cpy2 _ _ => pure ()
  | .gath _ _ => pure ()
  | .scat _ _ => pure ()
  | .fill _ _ => pure ()
  | .callr _ c => collCheck e c
  | .cagth _ c => collCheck e c
  | .crsct _ c => collCheck e c
  | .mma _ c => mmaCheck e c
  | .mmap _ c => mmapCheck e c
  | .bload _ c => bloadCheck e c
  | .mred _ c => mredCheck e c
  | .spmm _ c => spmmCheck e c
  | .sddmm _ c => sddmmCheck e c
  | .spgath _ c => spgathCheck e c
  | .segred _ c => segredCheck e c
  | .sortkv _ c => sortkvCheck e c
  | .topk _ c => topkCheck e c
  | .attn _ c => attnCheck e c false
  | .adec _ c => attnCheck e c true
  | .kvapp _ c => kvappCheck e c
  | .kvdev _ c => kvdevCheck e c
  | .arot _ c => arotCheck e c
  | .vbin _ c => vbinCheck e c
  | .vun _ c => vunCheck e c
  | .vfma _ c => vfmaCheck e c
  | .vred _ c => vredCheck e c
  | .vscan _ c => vscanCheck e c
  | .vcvt _ c => vcvtCheck e c
  | .vsel _ c => vselCheck e c
  | .vnorm _ c => vnormCheck e c
  | .vtrn _ c => vtrnCheck e c
  | .vidx _ c => vidxCheck e c
  | _ => jFault badCmd

/-- What a command does before its first granule. -/
def runStart (e : Eng) (i : Instr) : JM Unit :=
  match i with
  | .callr _ _ => collStart e
  | .cagth _ _ => collStart e
  | .crsct _ _ => collStart e
  | .mma _ c => mmaStart e c
  | .spmm _ c => spmmStart e c
  | .vcvt _ c => vcvtStart e c
  | _ => pure ()

/-- One granule; true at the last. -/
def runGran (e : Eng) (i : Instr) : JM Bool :=
  match i with
  | .cpy _ c => cpyGran e c
  | .cpy2 _ c => cpy2Gran e c
  | .gath _ c => gathGran e c
  | .scat _ c => scatGran e c
  | .fill _ c => fillGran e c
  | .callr _ c => collGran e c
  | .cagth _ c => collGran e c
  | .crsct _ c => collGran e c
  | .mma _ c => mmaGran e c
  | .mmap _ c => mmapGran e c
  | .bload _ c => bloadGran e c
  | .mred _ c => mredGran e c
  | .spmm _ c => spmmGran e c
  | .sddmm _ c => sddmmGran e c
  | .spgath _ c => spgathGran e c
  | .segred _ c => segredGran e c
  | .sortkv _ c => sortkvGran e c
  | .topk _ c => topkGran e c
  | .attn _ c => attnGran e c
  | .adec _ c => attnGran e c
  | .kvapp _ c => kvappGran e c
  | .kvdev _ c => kvdevGran e c
  | .arot _ c => arotGran e c
  | .vbin _ c => vbinGran e c
  | .vun _ c => vunGran e c
  | .vfma _ c => vfmaGran e c
  | .vred _ c => vredGran e c
  | .vscan _ c => vscanGran e c
  | .vcvt _ c => vcvtGran e c
  | .vsel _ c => vselGran e c
  | .vnorm _ c => vnormGran e c
  | .vtrn _ c => vtrnGran e c
  | .vidx _ c => vidxGran e c
  | _ => jFault badCmd

/-- An MMA with CK is checked after its last granule, and holds its operands until then (R83, R264). -/
def ckOf (w : CWord) : Option MmaCmd := if cEop w == 0x10 && (mmaOf w).ck = 1 then some (mmaOf w) else none

/-! ### The engine's steps -/

/-- KINDs that the engine of a queue runs (R41). -/
def runsKind (k : Nat) (kind : Nat) : Bool :=
  match k % 4 with
  | 0 => kind == 0 || kind == 5
  | 1 => kind == tileKind (k / 4) + 1
  | _ => kind == 4

/-- The checks of R42 and the start of a job that is RUNNING. R42's order names no place for R269's check of CWA: the model makes it with
those of KIND, before the command's own (log entry 87). -/
def beginJob (s : State) (key : Nat) : State :=
  match jobAt s key with
  | none => s
  | some j =>
    let w := j.cmd
    match decodeCmd w with
    | .error _ => endJob s key badCmd
    | .ok i =>
      if !runsKind (key / 32) (cKind w) || (cCmpl w && (cCwa w).toNat % 8 != 0) then endJob s key badCmd
      else
        let e := engOf key j
        match (do runCheck e i; runStart e i : JM Unit).run s with
        | (.ok _, s) => modJob s key fun j => { j with started := true }
        | (.error (.fault c), s) => endJob s key c
        | (.error x, _) => jobStops s key x

/-- A job that stands at a granule boundary parks if something asks it to (R266). -/
def boundaryPark (s : State) (key : Nat) : State :=
  match jobAt s key with
  | none => s
  | some j =>
    if j.last || j.st != .running then s
    else if suspendedRegion s j.rcb then parkJob s key .suspended
    else if tileLevel s (key / 128) j.cls == 0 then parkJob s key .level
    else s

/-- The operands of a job are consumed (R264): under CK not before its check, or the end of its re-execution. -/
def consumed (s : State) (key : Nat) (j : Job) : State := if (ckOf j.cmd).isSome && !j.rx then s else releaseGuards s key

/-- A granule runs to its boundary; one that cannot complete leaves no trace but its fault, its page request or its parking. -/
def doGranule (s : State) (key : Nat) (j : Job) : State :=
  match decodeCmd j.cmd with
  | .error _ => jobStops s key (.fault badCmd)
  | .ok i =>
    match (runGran (engOf key j) i).run s with
    | (.ok last, s) =>
      let s := modJob (dropHeldAcc s (.job key)) key fun j => { j with gran := j.gran + 1, inFlight := false, last := last }
      if last then consumed s key j else boundaryPark s key
    | (.error (.fault c), s) => jobStops s key (.fault c)
    | (.error x, _) => jobStops s key x

/-- The end of a job whose granules are done, or that has failed: an MMA's checks, made once, then R270. -/
def jobEnds (s : State) (key : Nat) (j : Job) : State :=
  match ckOf j.cmd with
  | none => finishJob s key
  | some c =>
    if j.fault != 0 || !j.started || j.checked then finishJob s key
    else
      match (mmaFinal (engOf key j) c).run s with
      | (.ok _, s) => (match jobAt s key with
        | some j => if j.last then finishJob (modJob s key fun j => { j with checked := true }) key else s
        | none => s)
      | (.error (.fault c), s) => endJob s key c
      | (.error _, _) => s

/-! ### Events -/

/-- JOB_DEQUEUE (R42, R267): a free engine takes a QUEUED job and checks it. -/
def execJobDequeue (tile q : Nat) (s : State) : Host.Outcome State Fault Refusal :=
  let k := 4 * tile + q
  if engineBusy s k then .next s
  else
    match chooseJob s k with
    | some (key, j) =>
      if j.st == .queued && decide (1 ≤ tileLevel s tile j.cls) then .next (settle (beginJob (startJob s k key j) key)) else .next s
    | none => .next s

/-- JOB_RESUME (R267): a free engine takes a ready parked job, once the tile's LEVEL for it is 1 or more. -/
def execJobResume (tile q : Nat) (s : State) : Host.Outcome State Fault Refusal :=
  let k := 4 * tile + q
  if engineBusy s k then .next s
  else
    match chooseJob s k with
    | some (key, j) =>
      if j.st == .queued || tileLevel s tile j.cls == 0 then .next s
      else
        let s := startJob s k key j
        .next (settle (if j.started then s else beginJob s key))
    | none => .next s

/-- GRANULE_ISSUE (R279): the spacing wait has expired. -/
def execGranuleIssue (tile q slot : Nat) (s : State) : Host.Outcome State Fault Refusal :=
  let key := (4 * tile + q) * 32 + slot
  match jobAt s key with
  | some j =>
    if j.st == .running && !j.inFlight && !j.last then
      if !j.started then .next (settle (beginJob s key))
      else
        let s := boundaryPark s key
        (match jobAt s key with
         | some j => if j.st == .running then .next (modJob s key fun j => { j with inFlight := true }) else .next (settle s)
         | none => .next s)
    else .next s
  | none => .next s

/-- GRANULE_BOUNDARY (R266). -/
def execGranuleBoundary (tile q slot : Nat) (s : State) : Host.Outcome State Fault Refusal :=
  let key := (4 * tile + q) * 32 + slot
  match jobAt s key with
  | some j => if j.st == .running && j.inFlight && !j.last then .next (settle (doGranule s key j)) else .next s
  | none => .next s

/-- JOB_DONE (R270). -/
def execJobDone (tile q slot : Nat) (s : State) : Host.Outcome State Fault Refusal :=
  let key := (4 * tile + q) * 32 + slot
  match jobAt s key with
  | some j => if j.last then .next (settle (jobEnds s key j)) else .next s
  | none => .next s

/-! ### Rendezvous transfers (R246, R247) -/

/-- The copy engine begins, or carries on, a large transfer: it is what the free engine chooses (R246, R261, R267). -/
def engineMoves (s : State) (i : Nat) (t : Transfer) : Option State :=
  let k := 4 * t.tile
  if !t.viaCopy || t.moving then some s
  else if engineBusy s k then none
  else
    match chooseNext s k with
    | some (.move n _) => if n == i then some (if t.parkOrder == 0 then served s k 3 t.core else s) else none
    | _ => none

/-- A job that waits for its spacing parks at once when its level has fallen to 0 (R279, R387). -/
def levelFalls (s : State) : State :=
  (allJobs s).foldl (fun s p =>
    if p.2.st == .running && !p.2.inFlight && !p.2.last && p.2.cls != 0 && tileLevel s (p.1 / 128) p.2.cls == 0 then parkJob s p.1 .level else s) s

/-- CHANNEL_TRANSFER_DONE (R246, R247): rendezvous on one word, and those replayed from one spill ring, complete in their order; one that a
lost site touches ends, parked or not. -/
def execChannelTransferDone (i : Nat) (s : State) : Host.Outcome State Fault Refusal :=
  match s.transfers[i]? with
  | some t =>
    if transferLost s t then .next (settle (copyFreed (runTransfer s i t) t))
    else if t.parked.isSome || moveBehind s i t then .next s
    else
      match engineMoves s i t with
      | some s => .next (settle (copyFreed (runTransfer s i t) t))
      | none => .next s
  | none => .next s

/-! ### A whole command -/

/-- Carry a job of entry `key` on until it leaves its entry or cannot go on. -/
def driveJob : Nat → State → Nat → State
  | 0, s, _ => s
  | f + 1, s, key =>
    match jobAt s key with
    | none => s
    | some j =>
      if j.last then
        let s' := jobEnds s key j
        (match jobAt s' key with
         | some j' => if j'.last then s' else driveJob f s' key
         | none => s')
      else if j.st == .running && j.started then
        let s' := doGranule s key j
        (match jobAt s' key with
         | some j' => if j'.last || j'.gran != j.gran then driveJob f s' key else s'
         | none => s')
      else s

/-- Queue of a KIND on tile `t`; a tile without the engine takes the command on its copy queue, whose engine refuses it. -/
def queueOfKind (t kind : Nat) : Nat :=
  let q := if kind == 0 || kind == 5 then 0 else if kind == 4 then 2 else 1
  if hasQueue t q then q else 0

/-- Granules that a command can have at most: fuel. -/
def driveFuel : Nat := 2 ^ 64

/-- A command word run by the engine of the executing process's tile: an entry is taken, the command captured with its guards, and
where the engine chooses it, run until it has ended or parked. Without an entry or a guard the command waits. -/
def runCommand (w : CWord) (s : State) : Host.Outcome State Fault Refusal :=
  onCore s fun c r =>
    let t := coreTile c
    let k := 4 * t + queueOfKind t (cKind w)
    if queueFull s k c then stallIssue s
    else
      match freeSlotOf s k with
      | none => stallIssue s
      | some i =>
        let key := k * 32 + i
        let s1 := takeEntry s key r.wptr
        let plan := guardPlan s1 t key (captured s1 c r k w)
        if (guardShort s1 plan).isSome then stallIssue s
        else
          let s1 := capture s1 c r key w plan
          if engineBusy s1 k then s1
          else
            match chooseJob s1 k with
            | some (x, j) =>
              if x == key && decide (1 ≤ tileLevel s1 t j.cls) then settle (driveJob driveFuel (beginJob (startJob s1 k key j) key) key) else s1
            | none => s1

/-- CPY (R275). -/
def execCpy (env : Envelope) (c : CpyCmd) (s : State) : Host.Outcome State Fault Refusal :=
  runCommand (encEnv 0x01 0 env ||| cpyBits c) s

/-- CPY2 (R275). -/
def execCpy2 (env : Envelope) (c : Cpy2Cmd) (s : State) : Host.Outcome State Fault Refusal :=
  runCommand (encEnv 0x02 0 env ||| cpy2Bits c) s

/-- GATH (R275). -/
def execGath (env : Envelope) (c : GathCmd) (s : State) : Host.Outcome State Fault Refusal :=
  runCommand (encEnv 0x03 0 env ||| gathBits c) s

/-- SCAT (R275). -/
def execScat (env : Envelope) (c : ScatCmd) (s : State) : Host.Outcome State Fault Refusal :=
  runCommand (encEnv 0x04 0 env ||| scatBits c) s

/-- FILL (R275). -/
def execFill (env : Envelope) (c : FillCmd) (s : State) : Host.Outcome State Fault Refusal :=
  runCommand (encEnv 0x05 0 env ||| fillBits c) s

/-- CALLR (R276). -/
def execCallr (env : Envelope) (c : CollCmd) (s : State) : Host.Outcome State Fault Refusal :=
  runCommand (encEnv 0x50 5 env ||| collBits c) s

/-- CAGTH (R276). -/
def execCagth (env : Envelope) (c : CollCmd) (s : State) : Host.Outcome State Fault Refusal :=
  runCommand (encEnv 0x51 5 env ||| collBits c) s

/-- CRSCT (R276). -/
def execCrsct (env : Envelope) (c : CollCmd) (s : State) : Host.Outcome State Fault Refusal :=
  runCommand (encEnv 0x52 5 env ||| collBits c) s

/-- MMA (R285). -/
def execMma (env : Envelope) (c : MmaCmd) (s : State) : Host.Outcome State Fault Refusal :=
  runCommand (encEnv 0x10 1 env ||| mmaBits c) s

/-- MMAP (R289). -/
def execMmap (env : Envelope) (c : MmapCmd) (s : State) : Host.Outcome State Fault Refusal :=
  runCommand (encEnv 0x11 1 env ||| mmapBits c) s

/-- BLOAD (R282). -/
def execBload (env : Envelope) (c : BloadCmd) (s : State) : Host.Outcome State Fault Refusal :=
  runCommand (encEnv 0x12 1 env ||| bloadBits c) s

/-- MRED (R290). -/
def execMred (env : Envelope) (c : MredCmd) (s : State) : Host.Outcome State Fault Refusal :=
  runCommand (encEnv 0x13 1 env ||| mredBits c) s

/-- SPMM (R294). -/
def execSpmm (env : Envelope) (c : SpmmCmd) (s : State) : Host.Outcome State Fault Refusal :=
  runCommand (encEnv 0x20 2 env ||| spmmBits c) s

/-- SDDMM (R295). -/
def execSddmm (env : Envelope) (c : SddmmCmd) (s : State) : Host.Outcome State Fault Refusal :=
  runCommand (encEnv 0x21 2 env ||| sddmmBits c) s

/-- SPGATH (R296). -/
def execSpgath (env : Envelope) (c : SpgathCmd) (s : State) : Host.Outcome State Fault Refusal :=
  runCommand (encEnv 0x22 2 env ||| spgathBits c) s

/-- SEGRED (R297). -/
def execSegred (env : Envelope) (c : SegredCmd) (s : State) : Host.Outcome State Fault Refusal :=
  runCommand (encEnv 0x23 2 env ||| segredBits c) s

/-- SORTKV (R298). -/
def execSortkv (env : Envelope) (c : SortkvCmd) (s : State) : Host.Outcome State Fault Refusal :=
  runCommand (encEnv 0x24 2 env ||| sortkvBits c) s

/-- TOPK (R299). -/
def execTopk (env : Envelope) (c : TopkCmd) (s : State) : Host.Outcome State Fault Refusal :=
  runCommand (encEnv 0x25 2 env ||| topkBits c) s

/-- ATTN (R311). -/
def execAttn (env : Envelope) (c : AttnCmd) (s : State) : Host.Outcome State Fault Refusal :=
  runCommand (encEnv 0x30 3 env ||| attnBits c) s

/-- ADEC (R310). -/
def execAdec (env : Envelope) (c : AttnCmd) (s : State) : Host.Outcome State Fault Refusal :=
  runCommand (encEnv 0x31 3 env ||| attnBits c) s

/-- KVAPP (R313). -/
def execKvapp (env : Envelope) (c : KvappCmd) (s : State) : Host.Outcome State Fault Refusal :=
  runCommand (encEnv 0x32 3 env ||| kvappBits c) s

/-- KVDEV (R314). -/
def execKvdev (env : Envelope) (c : KvdevCmd) (s : State) : Host.Outcome State Fault Refusal :=
  runCommand (encEnv 0x33 3 env ||| kvdevBits c) s

/-- AROT (R315). -/
def execArot (env : Envelope) (c : ArotCmd) (s : State) : Host.Outcome State Fault Refusal :=
  runCommand (encEnv 0x34 3 env ||| arotBits c) s

/-- VBIN (R319). -/
def execVbin (env : Envelope) (c : VeltCmd) (s : State) : Host.Outcome State Fault Refusal :=
  runCommand (encEnv 0x40 4 env ||| veltBits c) s

/-- VUN (R320). -/
def execVun (env : Envelope) (c : VeltCmd) (s : State) : Host.Outcome State Fault Refusal :=
  runCommand (encEnv 0x41 4 env ||| veltBits c) s

/-- VFMA (R319). -/
def execVfma (env : Envelope) (c : VeltCmd) (s : State) : Host.Outcome State Fault Refusal :=
  runCommand (encEnv 0x42 4 env ||| veltBits c) s

/-- VRED (R321). -/
def execVred (env : Envelope) (c : VredCmd) (s : State) : Host.Outcome State Fault Refusal :=
  runCommand (encEnv 0x43 4 env ||| vredBits c) s

/-- VSCAN (R322). -/
def execVscan (env : Envelope) (c : VscanCmd) (s : State) : Host.Outcome State Fault Refusal :=
  runCommand (encEnv 0x44 4 env ||| vscanBits c) s

/-- VCVT (R323). -/
def execVcvt (env : Envelope) (c : VcvtCmd) (s : State) : Host.Outcome State Fault Refusal :=
  runCommand (encEnv 0x45 4 env ||| vcvtBits c) s

/-- VSEL (R319). -/
def execVsel (env : Envelope) (c : VeltCmd) (s : State) : Host.Outcome State Fault Refusal :=
  runCommand (encEnv 0x46 4 env ||| veltBits c) s

/-- VNORM (R324). -/
def execVnorm (env : Envelope) (c : VnormCmd) (s : State) : Host.Outcome State Fault Refusal :=
  runCommand (encEnv 0x47 4 env ||| vnormBits c) s

/-- VTRN (R325). -/
def execVtrn (env : Envelope) (c : VtrnCmd) (s : State) : Host.Outcome State Fault Refusal :=
  runCommand (encEnv 0x48 4 env ||| vtrnBits c) s

/-- VIDX (R326). -/
def execVidx (env : Envelope) (c : VidxCmd) (s : State) : Host.Outcome State Fault Refusal :=
  runCommand (encEnv 0x49 4 env ||| vidxBits c) s

end Sys2Proof.Machine
end

