-- ==== Sys2Proof/Machine/Kvm.lean ====
section
/-! DEFINITION. The context-map instructions KMAP, KUNMAP, KSPLICE, KTAG, KREPAIR and KRDONE (R356 to R364). -/

namespace Sys2Proof.Machine

/-- The frames of the map's further pages, checked as the first is (R350, R356). -/
def mapFrames (c : Nat) (r : Running) (ea : Word) (m : Nat) (k : State → Nat → State) : List Nat → List Nat → State → State
  | [], ps, s => k (setMapPages s m ps.reverse) m
  | i :: t, ps, s =>
    let va := word ((ea.toNat / 2 ^ 16 + i + 1) * 2 ^ 16)
    access s c r va 64 .write .block false fun s pa _ => if spaceOf pa != 0 then trapHere s r .prot va else mapFrames c r ea m k t (pa :: ps) s

/-- The check of W[a] (R356): kind WRITE, 64 bytes, space 0x0; then one step at the map's home, ordered as an AMO is (R211). -/
def mapAccess (s : State) (c : Nat) (r : Running) (a : Reg) (k : State → Nat → State) : State :=
  let ea := src s c r a
  match memCheck s c r ea 64 .write .block false with
  | (s, .ok pa _) =>
    if spaceOf pa != 0 then trapHere s r .prot ea
    else if !(getCore s c).sbuf.isEmpty || !segStoresDone s c || ownStoresOver s c pa 64 then holdHere s
    else mapFrames c r ea pa k (List.range (mapSpan s pa)) [] s
  | (s, .trap x) => trapHere s r (if x == .far then .prot else x) ea
  | (s, .lost) => takeTrap s r.wptr .sitelost 0 ea 0 false
  | (s, .fault tn m) => pageWait s c r ea tn .write m
  | (s, .ecc) => takeEccu s r.wptr none

/-- One step at the map's home that reads the entries given: W[d] gets the word it answers, and the process's turn at LOCK is over. -/
def mapStep (s : State) (c : Nat) (r : Running) (d : Reg) (m : Nat) (is : List Nat) (f : State → State × Word) : State :=
  if mapBad s m is then takeEccu s r.wptr none
  else
    let (s, v) := f s
    settle (finish (noTurn (match homeTile m with | some t => noteMsg s c t | none => s) r.wptr) c r d v)

/-- A step that writes the header or entries waits for what holds them at their port (R211, R264). -/
def mapWrite (c : Nat) (r : Running) (m : Nat) (k : State → State) : List Nat → State → State
  | [], s => atPort s c r m 64 k
  | i :: t, s => if portHolds s (kvEntry s m i) 64 (.instr c) r.sm then
      noteHeld (holdHere s) (kvEntry s m i) 64 (.instr c) r.sm
    else mapWrite c r m k t s

/-- The instruction waits for LOCK to clear with a watch on the header, and re-executes at each write to it, in its turn (R350, R358). -/
def lockWait (s : State) (c : Nat) (r : Running) (ea : Word) (m : Nat) : State :=
  watchAndWait (takeTurn s m r.wptr) c r ea m 8 6 0x4B .retry

/-- LOCK is set, and the rewrite follows at once, or when the last generation reference is gone (R358, R359); `ea` is the map's address as the
instruction named it. -/
def lockThen (s : State) (c : Nat) (r : Running) (ea : Word) (d : Reg) (m : Nat) (splice : Bool) (arg model : Word) : State :=
  atPort s c r m 64 fun s =>
    let s := performWrite (noTurn s r.wptr) m 8 ((dwAt s m).toNat % 2 ^ 63 + 2 ^ 63) none false r.rcb
    if mapRefs s m || mapGuarded s m (rewriteEntries s m (coreTile c) splice arg model) r.sm then
      modProc (waitHere s c r 6 0x4B (.lock m d splice arg model)) r.wptr fun p => { p with keptArg := ea.toNat }
    else
      let (s, v) := lockedStep s m (coreTile c) r.rcb splice arg model
      settle (finish s c r d v)

/-! ### KMAP (R357) -/

/-- A malformed entry image. -/
def imageBad (w : Nat → Word) : Bool :=
  let e := kvEntOf w
  let used := (2 ^ e.count - 1) * 2 ^ e.first
  bits (w 0) 63 48 != 0 || bits (w 1) 63 48 != 0 || bits (w 2) 63 40 != 0 || bits (w 4) 9 5 != 0 || bits (w 5) 63 48 != 0
    || bits (w 6) 61 13 != 0 || bits (w 7) 63 17 != 0 || bits (w 7) 15 12 != 0
    || e.count == 0 || decide (32 < e.first + e.count) || e.obase % 64 != 0 || e.rbase % 64 != 0 || e.ls % 64 != 0
    || e.rmask ||| used != used || (bit (w 7) 16 && e.next != 0)

/-- KMAP's step: the status. -/
def kmapStep (s : State) (m rcb : Nat) (w : Nat → Word) : State × Word :=
  let h := kvHead s m
  let ix := bits (w 7) 11 0
  let e := { kvEntOf w with ro := 0xFF, lc := 0xFF }
  if h.bad then (s, 5)
  else if imageBad w then (s, 2)
  else if h.cap ≤ ix || (kvEnt s m ix).st != 0 then (s, 1)
  else if !bit (w 7) 16 then (putKvEnt s m ix rcb { e with st := 1 }, 0)
  else
    let delta := e.delta + (h.ntok : Int) - (e.pbase : Int)
    if decide (2 ^ 24 - 1 < h.ntok + e.count) || !deltaOk delta then (s, 4)
    else
      let s := putKvEnt s m ix rcb { e with st := 2, pbase := h.ntok, delta := delta, next := 0 }
      let s := if h.lastx == 0 then s
        else putKvEnt s m (h.lastx - 1) rcb { kvEnt s m (h.lastx - 1) with next := ix + 1 }
      (putKvHead s m rcb { h with
        firstx := if h.firstx == 0 then ix + 1 else h.firstx, lastx := ix + 1, nuse := h.nuse + 1, ntok := h.ntok + e.count }, 0)

/-- KMAP (R357): an append waits while LOCK is set. -/
def execKmap (d a b : Reg) (s : State) : Host.Outcome State Fault Refusal :=
  onCore s fun c r =>
    mapAccess s c r a fun s m =>
      access s c r (src s c r b) 64 .read .block false fun s ia _ =>
        releaseWait s c r .panel fun s =>
          readBlock s c r ia 64 fun s =>
            let w (i : Nat) : Word := dwAt s (ia + 8 * i)
            let h := kvHead s m
            let is := bits (w 7) 11 0 :: (if bit (w 7) 16 && h.lastx != 0 then [h.lastx - 1] else [])
            if bit (w 7) 16 && lockTaken s m r.wptr then lockWait s c r (src s c r a) m
            else mapWrite c r m (fun s => mapStep s c r d m is fun s => kmapStep s m r.rcb w) (is.filter fun i => decide (i < h.cap)) s

/-! ### KUNMAP and KSPLICE (R358, R360) -/

/-- KUNMAP (R360). -/
def execKunmap (d a b : Reg) (s : State) : Host.Outcome State Fault Refusal :=
  onCore s fun c r =>
    let v := src s c r b
    mapAccess s c r a fun s m =>
      if bits v 63 12 != 0 then trapHere s r .bound v
      else
        releaseWait s c r .panel fun s =>
          let i := v.toNat
          let h := kvHead s m
          if mapBad s m [i] then takeEccu s r.wptr none
          else if h.bad then mapStep s c r d m [] fun s => (s, 5)
          else if h.cap ≤ i then mapStep s c r d m [] fun s => (s, 1)
          else if (kvEnt s m i).st == 1 then mapWrite c r m (fun s => mapStep s c r d m [i] fun s => (putKvEnt s m i r.rcb kvFree, 0)) [i] s
          else if (kvEnt s m i).st != 2 then mapStep s c r d m [] fun s => (s, 1)
          else if lockTaken s m r.wptr then lockWait s c r (src s c r a) m
          else if !(kvInUse s m).contains i then mapStep s c r d m (kvInUse s m) fun s => (s, 1)
          else if mapBad s m (kvInUse s m) then takeEccu s r.wptr none
          else lockThen s c r (src s c r a) d m false v 0

/-- KSPLICE (R358). -/
def execKsplice (d a b : Reg) (s : State) : Host.Outcome State Fault Refusal :=
  onCore s fun c r =>
    let v := src s c r b
    mapAccess s c r a fun s m =>
      if bits v 31 24 != 0 || bits v 47 44 != 0 || bits v 62 60 != 0 then trapHere s r .bound v
      else
        releaseWait s c r .panel fun s =>
          if mapBad s m [] then takeEccu s r.wptr none
          else if lockTaken s m r.wptr then lockWait s c r (src s c r a) m
          else
            let model := pcsrRd s c r.wptr 8
            match spliceCheck s m (coreTile c) v model with
            | .inl st => mapStep s c r d m [] fun s => (s, word st)
            | .inr pl =>
              if mapBad s m (pl.chain ++ kvInUse s m) then takeEccu s r.wptr none
              else lockThen s c r (src s c r a) d m true v model

/-! ### KTAG (R361) -/

/-- KTAG's word. -/
def ktagWord (s : State) (m t i : Nat) (model : Word) : Word :=
  let h := kvHead s m
  let e := kvEnt s m i
  if h.bad then 5
  else if h.cap ≤ i || (e.st != 1 && e.st != 2) then 1
  else
    match tagStale s t model e.tag with
    | (0, _) => 0
    | (1, _) => word (2 ^ 8 + 6)
    | (_, v) => word (v * 2 ^ 16 + 2 * 2 ^ 8 + 6)

/-- KTAG (R361): it changes nothing and orders nothing. -/
def execKtag (d a b : Reg) (s : State) : Host.Outcome State Fault Refusal :=
  onCore s fun c r =>
    let v := src s c r b
    mapAccess s c r a fun s m =>
      if bits v 63 12 != 0 then trapHere s r .bound v
      else mapStep s c r d m [v.toNat] fun s => (s, ktagWord s m (coreTile c) v.toNat (pcsrRd s c r.wptr 8))

/-! ### KREPAIR and KRDONE (R362) -/

/-- What the checks of R362 find. -/
inductive RepChk where
  | bound
  | header
  | order
  | ok (l i : Nat)
deriving DecidableEq, Repr

/-- The next layer to repair. -/
def nextLayer (e : KvEnt) : Nat := if e.lc == 0xFF then 0 else e.lc + 1

/-- The checks in their order. -/
def repairCheck (s : State) (m : Nat) (v : Word) (fin : Bool) : RepChk :=
  let h := kvHead s m
  let l := bits v 7 0
  let i := bits v 27 16
  let e := kvEnt s m i
  if bits v 15 8 != 0 || bits v 63 28 != 0 then .bound
  else if h.bad then .header
  else if h.cap ≤ i || e.st != 2 || l == 255 then .bound
  else if !fin && e.rbase == 0 then .bound
  else if !fin && e.ro != 0xFF then .order
  else if fin && e.ro != l then .order
  else if l != nextLayer e then .order
  else .ok l i

/-- KREPAIR and KRDONE: a release, the checks, one step. -/
def repairInstr (fin : Bool) (a b : Reg) (s : State) : Host.Outcome State Fault Refusal :=
  onCore s fun c r =>
    let v := src s c r b
    mapAccess s c r a fun s m =>
      releaseWait s c r .panel fun s =>
        if bits v 15 8 != 0 || bits v 63 28 != 0 then trapHere s r .bound v
        else if mapBad s m [bits v 27 16] then takeEccu s r.wptr none
        else
          match repairCheck s m v fin with
          | .bound => trapHere s r .bound v
          | .header => trapHere s r .bound (src s c r a)
          | .order => trapHere s r .reporder v
          | .ok l i =>
            mapWrite c r m (fun s =>
              let e := kvEnt s m i
              let s := putKvEnt s m i r.rcb (if fin then { e with lc := l, ro := 0xFF } else { e with ro := l })
              retire (match homeTile m with | some t => noteMsg s c t | none => s) c r) [i] s

/-- KREPAIR (R362). -/
def execKrepair (a b : Reg) (s : State) : Host.Outcome State Fault Refusal := repairInstr false a b s

/-- KRDONE (R362). -/
def execKrdone (a b : Reg) (s : State) : Host.Outcome State Fault Refusal := repairInstr true a b s

end Sys2Proof.Machine
end

