-- ==== Sys2Proof/Machine/Loss.lean ====
section
/-! DEFINITION. The effects of losing tiles, with a site (R370) or with a segment that powers down (R368). -/

namespace Sys2Proof.Machine

/-- A set of tiles being lost. -/
abbrev Gone := Nat → Bool

def goneAddr (g : Gone) (pa : Nat) : Bool :=
  match homeTile pa with
  | some t => g t
  | none => false

/-- The select of a lost process visits nothing more and ends with no one; its entries stay linked, for the steps that meet them to find the
loss (R251, R256). -/
def orphanSelect (w : Nat) (e : Select) : Select :=
  if e.wptr == w then { e with wptr := 0, todo := [], poll := false, deadline := none } else e

/-- A process on a lost tile is gone, with no record and no join decrement; what links to it stays linked, and what it held elsewhere is given
back (R238, R256, R262, R370). -/
def vanish (s : State) (w : Nat) : State :=
  match getProc s w with
  | none => s
  | some p =>
    let s := dropHeld (orphanJobs (unstall s w) w) w
    let s := match selectOf s w with | some tb => dropSteps (undoClaims s tb) tb | none => s
    let s := { s with
      procs := amErase s.procs w
      selects := s.selects.map fun e => (e.1, orphanSelect w e.2)
      areas := s.areas.filter fun a => !(a.kind == .sel && a.owner == w)
      msgs := s.msgs.filter fun m => !chanMsgOf w m && !noticeTo w m }
    if p.rcb == 0 || p.dying then s else putRcb s p.rcb 48 31 0 (rcbLive s p.rcb - 1)

/-- Root regions whose place map names a lost tile (R370). -/
def touchedRoots (s : State) (g : Gone) : List Nat :=
  (allRcbs s).filter fun r => rcbParent s r == 0 && (regionTiles s r).any g

/-- Every region that touches the tiles is aborted, DETAIL 1 (R238, R340). -/
def abortTouched (s : State) (g : Gone) : State := (touchedRoots s g).foldl (fun s r => abortRegion s r 1) s

/-- What a loss gives to an instruction that waits for a lost tile: SITELOST, or HOLE when the tile is not lost with its site (R209). -/
def lossCause (site : Bool) : Cause := if site then .sitelost else .hole

/-- Processes that watch a word on a lost tile (R209), and those that hold LOCK of a map there: LOCK clears with the wait (R359). -/
def loseWatches (s : State) (g : Gone) (site : Bool) : State :=
  let lose (s : State) (w : Nat) : State :=
    match getProc s w with
    | some p => takeTrap s w (lossCause site) 0 (word p.keptArg) 0 false
    | none => s
  let s := (s.tiles.filter fun e => g e.1).foldl (fun s e => e.2.watches.foldl (fun s w => lose s w.wptr) s) s
  s.procs.foldl (fun s e => match e.2.wait with | .lock m _ _ _ _ => if goneAddr g m then lose s e.1 else s | _ => s) s

/-- A rendezvous touches the lost tiles: a party of it, or the engine that carries it. -/
def moveGone (g : Gone) (t : Transfer) : Bool := [endTile t.writer, endTile t.reader, t.tile].any g

/-- The survivors of rendezvous that touch the lost tiles receive PEERLOST, in progress or spilled (R247, R256). -/
def loseMoves (s : State) (g : Gone) : State :=
  let hit := (s.transfers ++ s.tiles.flatMap fun p => p.2.spill).filter (moveGone g)
  let s := { s with
    transfers := s.transfers.filter fun t => !moveGone g t
    tiles := s.tiles.map fun p => (p.1, { p.2 with spill := p.2.spill.filter fun t => !moveGone g t }) }
  hit.foldl (fun s t =>
    [t.writer, t.reader].foldl (fun s e => if g (endTile e) then s else failEnd s e .peerlost 0 (word t.word)) (copyFreed s t)) s

/-- Claims under way at a word of a lost tile are given back, and the step is that of a message again (R252). -/
def loseClaims (s : State) (g : Gone) : State :=
  s.msgs.foldl (fun s m =>
    match m with
    | .claim wd p mine theirs =>
      if goneAddr g wd then
        putHw (putHw { s with msgs := s.msgs.map fun x => if x == m then .chan wd p false false else x } (mine + 16) 0) (theirs + 16) 0
      else s
    | _ => s) s

/-- A select meets the loss of a channel on which one of its alternatives waits, unless it is taken (R256). -/
def loseSelect (s : State) (g : Gone) (tb : Nat) : State :=
  match amGet s.selects tb with
  | some e =>
    match e.armed.find? fun a => goneAddr g a.word with
    | some a => if claimOf s tb == 0 then trapIf (setClaim s tb 0xF2) e.wptr .peerlost 0 (word a.word) 0 else s
    | none => s
  | none => s

/-- Processes and selects that wait on a channel word of a lost tile, and steps on their way to one: PEERLOST (R256). -/
def loseWords (s : State) (g : Gone) : State :=
  let s := loseClaims s g
  let s := s.procs.foldl (fun s e =>
    match e.2.wait with
    | .chan _ _ wd => if goneAddr g wd && !inTransfer s e.1 then trapIf s e.1 .peerlost 0 (word wd) 0 else s
    | _ => s) s
  let s := s.selects.foldl (fun s e => loseSelect s g e.1) s
  let s := s.msgs.foldl (fun s m =>
    match m with
    | .chan wd p _ _ => if goneAddr g wd && s.msgs.contains m then meetsLoss { s with msgs := s.msgs.erase m } wd p else s
    | _ => s) s
  s.tiles.foldl (fun s e =>
    if g e.1 then s
    else (e.2.bindings.filter fun b => (b.writer != 0 && g (b.writer / tlmWindow)) || (b.reader != 0 && g (b.reader / tlmWindow))).foldl
      (fun s b => loseWord s b.word) s) s

/-- A select whose table lies on a lost tile is gone (R251); its process, elsewhere, meets the loss at its instruction as a waiting access
does, with TVAL the table's address (log entry 71). -/
def loseTables (s : State) (g : Gone) (site : Bool) : State :=
  s.selects.foldl (fun s e =>
    if goneAddr g e.1 && !inTransfer s e.2.wptr then trapIf s e.2.wptr (lossCause site) 0 (word e.1) 0 else s) s

/-- Records offered on a handler channel of a lost tile are discarded and their regions aborted (R345). -/
def loseSlots (s : State) (g : Gone) : State :=
  s.tiles.foldl (fun s e =>
    if g e.1 then s
    else (List.range 8).foldl (fun s k =>
      match ((getTile s e.1).trapQ[k]?).getD none with
      | some x => if x.offered && goneAddr g (slotHandler s e.1 x) then failSlot s e.1 k else s
      | none => s) s) s

/-- JWAITs on a lost tile's entries end as a waiting LDF does, and what waits for one of its queues or ports re-executes (R209, R272). -/
def loseQueues (s : State) (g : Gone) (site : Bool) : State :=
  let s := s.procs.foldl (fun s e =>
    match e.2.wait with
    | .job _ key gen =>
      if g (key / 128) && (getProc s e.1).isSome then takeTrap s e.1 (lossCause site) 0 (jobId key (BitVec.ofNat 16 gen)) 0 false else s
    | _ => s) s
  retryWhere s fun i => match i with
    | .queue k => g (k / 4)
    | .guard t _ => g t
    | .watchFull t => g t
    | .acfg _ _ t _ _ => g t
    | .accCfg t => g t
    | .acc t _ _ => g t
    | .accLd t _ _ _ _ _ => g t
    | _ => false

/-- Loss steps for every group with members on the lost tiles (R375). -/
def sendLossSteps (s : State) (g : Gone) : State :=
  let ds := (s.tiles.flatMap fun e => if g e.1 then [] else e.2.groups.map (·.desc)).eraseDups
  ds.foldl (fun s d =>
    let ms := ((gMembers s d).filter fun m => m.2.panel == ownPanel s && g m.2.tile).map (·.1)
    if ms.isEmpty && !goneAddr g d then s else pushMsg s (.loss d ms)) s

/-- What stays with a tile whose units are reset: the defects of its module and its links (R14, R425). -/
def resetTile (k : Tile) : Tile := { Tile.reset with dark := k.dark, routerDead := k.routerDead, deadLinks := k.deadLinks }

/-- Posted stores of surviving cores that a guard holds at a lost tile's port are refused there (R193, R370). -/
def refuseHeld (s : State) (g : Gone) (site : Bool) : State :=
  (s.tiles.filter fun e => g e.1).foldl (fun s e => e.2.held.foldl (fun s h =>
    match h.by_ with
    | .store c i => if g (coreTile c) then s else pushMsg (dropHeldAcc s (.store c i)) (.refuse c i (lossCause site))
    | _ => s) s) s

/-- The units of the lost tiles are as after reset, and what their homes recorded is gone: starts and failed operations of collective groups,
decrements that a port held. -/
def dropUnits (s : State) (g : Gone) : State :=
  { s with
    decs := s.decs.filter fun d => !goneAddr g d.pa
    collStarts := s.collStarts.filter fun x => !goneAddr g x.desc
    collOps := s.collOps.filter fun x => !goneAddr g x.desc
    collFixed := s.collFixed.filter fun x => !goneAddr g x.desc
    collLosses := s.collLosses.filter fun x => !goneAddr g x.desc
    cores := s.cores.filter fun e => !g (coreTile e.1)
    tiles := s.tiles.map fun e => (e.1, if g e.1 then resetTile e.2 else e.2)
    queues := s.queues.filter fun e => !g (e.1 / 4)
    areas := s.areas.filter fun a => !g (a.lo / tlmWindow)
    l2 := s.l2.filter fun e => !g (segTile e.1) }

/-- Copies of a range that becomes a hole are invalidated (R151, R158, R159). -/
def dropCopies (s : State) (g : Gone) : State :=
  let keep (l : List Copy) : List Copy := l.filter fun x => !goneAddr g x.addr
  { s with
    cores := s.cores.map fun (e : Nat × Core) => (e.1, { e.2 with l1d := keep e.2.l1d, l1i := keep e.2.l1i })
    l2 := s.l2.map fun (e : Nat × List Copy) => (e.1, keep e.2)
    jobOld := s.jobOld.filter fun e => !goneAddr g e.addr }

/-- Page faults, spawns and refusals on their way from the lost tiles' units are gone with them. -/
def fromGone (g : Gone) : Msg → Bool
  | .fault m => (match m.who with | .core c => g (coreTile c) | .job k => g (k / 128) | .trigger t _ _ => g t | .transfer _ => false)
  | .store c _ => g (coreTile c)
  | .ack c _ => g (coreTile c)
  | .refuse c _ _ => g (coreTile c)
  | .start k => g (k / 128)
  | .peer (.start d _ _ _ _ _) => goneAddr g d
  | .peer (.block _ _ _ c _) => g (coreTile c)
  | _ => false

/-- The effects of R370 on the tiles; the hole bits are set already. `site` tells a site's loss from a segment's power-down. -/
def loseTiles (s : State) (g : Gone) (site : Bool) : State :=
  let s := dropCopies s g
  let s := (s.procs.filter fun e => g (e.1 / tlmWindow)).foldl (fun s e => vanish s e.1) s
  let s := ((allJobs s).filter fun p => g (p.1 / 128)).foldl (fun s p => discardJob s p.1) s
  let s := loseMoves s g
  let s := abortTouched s g
  let s := loseWatches s g site
  let s := loseWords s g
  let s := loseTables s g site
  let s := loseSlots s g
  let s := loseQueues s g site
  let s := sendLossSteps (refuseHeld s g site) g
  dropUnits { s with msgs := s.msgs.filter fun m => !fromGone g m } g

/-- The bytes of the tiles' stores are zero with valid check bits, and every word empty (R162). -/
def healTiles (s : State) (g : Gone) : State :=
  let out (a : Nat) : Bool := !goneAddr g a
  { s with
    mem := s.mem.filter fun c => out c.1
    full := s.full.filter out
    bad := s.bad.filter out
    weak := s.weak.filter out
    rels := s.rels.filter out }

/-! ### Segments -/

/-- Loans between a segment that powers down and its neighbours are lost (R402). -/
def dropLoans (s : State) (z : Nat) : State :=
  let out (l : List (Nat × Nat)) : List (Nat × Nat) := l.filter fun x => x.1 != z
  { s with segs := s.segs.map fun (e : Nat × Seg) => (e.1, { e.2 with lent := out e.2.lent, borrowed := out e.2.borrowed, owed := out e.2.owed }) }

/-- The hole bit of a segment is set at every tile (R161, R162). -/
def segHole (s : State) (z : Nat) : State :=
  { s with
    holeSegs := s.holeSegs ||| (1#192 <<< z)
    tiles := s.tiles.map fun (e : Nat × Tile) => (e.1, { e.2 with holeSegAhead := e.2.holeSegAhead &&& ~~~(1#192 <<< z) }) }

/-- A segment powers down at once: its ranges become a hole, and its tiles are lost (R161, R368). -/
def segDown (s : State) (z : Nat) : State :=
  if (getSeg s z).powered then
    let s := segHole { s with detours := setInsert s.detours (12 + z) } z
    let s := modSeg s z fun k => { k with powered := false }
    let s := loseTiles s (fun t => segOf t == some z) false
    let s := modSeg (dropLoans s z) z fun k => { Seg.reset with defaultHandler := k.defaultHandler, contactBad := k.contactBad, failed := k.failed }
    settle s
  else s

end Sys2Proof.Machine
end

