-- ==== Sys2Proof/Machine/Sys.lean ====
section
/-! DEFINITION. The SYS group (R130 to R138, R347): traps by software, WFI, RESUME, KILLP, JRNL, RGNSUSP and RGNRESM. -/

namespace Sys2Proof.Machine

/-- TRAP (R131). -/
def execTrap (a : Reg) (s : State) : Host.Outcome State Fault Refusal :=
  onCore s fun c r => takeTrap (modCore s c retireCount) r.wptr .swtrap 0 (src s c r a) 0 true

/-- BRK (R131). -/
def execBrk (s : State) : Host.Outcome State Fault Refusal :=
  onCore s fun c r => takeTrap (modCore s c retireCount) r.wptr .brk 0 0 0 true

/-- A wake event of R132 is already pending; a message that has arrived is over (NOTES.md, 'Answers to the review'). -/
def wakePending (s : State) (c : Nat) (r : Running) : Bool :=
  let k := getCore s c
  !k.highQ.isEmpty || !k.lowQ.isEmpty || (!r.hp && r.slice == 0)
    || (match getProc s r.wptr with | some p => !p.pend.isEmpty | none => false)

/-- WFI (R132): issue stops at the next instruction. -/
def execWfi (s : State) : Host.Outcome State Fault Refusal :=
  onCore s fun c r =>
    let s' := retire s c r
    if wakePending s c r then s' else modCore s' c fun k => { k with wfi := true }

/-- Outcome of naming a physical address of a workspace or RCB (R133): status 4 for a hole or a lost site, 2 for what cannot
be one. -/
def sysAddrStatus (s : State) (c : Nat) (a : Word) (align : Nat) : Nat :=
  let pa := a.toNat
  if spaceOf pa != 0 || neverPopulated (fun _ => false) pa then 2
  else if holeCheck s (coreTile c) pa != .clear then 4
  else if pa % align != 0 then 2
  else 0

/-- A valid PC (R133, status 3). -/
def pcValid (v : Word) : Bool := bits v 1 0 == 0 && bits v 63 48 == 0

/-- KILLP has named the process and waits for its end. -/
def killing (s : State) (w : Nat) : Bool := match getProc s w with | some p => p.killed | none => false

/-- RESUME (R133, R134); a process that KILLP ended is in the wrong state (R138). What the issuer stored before is performed first, and
the process's core acquires (R184). -/
def execResume (d a b : Reg) (s : State) : Host.Outcome State Fault Refusal :=
  onCore s fun c r =>
    systemOnly s r (encR 0x2D d a b 3 0) <|
      let w := (src s c r a).toNat
      let v := src s c r b
      let st := sysAddrStatus s c (src s c r a) 128
      if st != 0 then finish s c r d (word st)
      else if (getProc s w).isNone then finish s c r d (if pstate s w == 12 then 1 else 2)
      else if pstate s w != 10 then finish (wakeCore s (procCore s w)) c r d 1
      else if b != 0 && !pcValid v then finish (wakeCore s (procCore s w)) c r d 3
      else if !(getCore s c).sbuf.isEmpty || unackedIn s c r.wptr .panel || killing s w then holdHere s
      else
        let s := acquireDone (finish s c r d 0) (procCore s w) .panel
        settle (resumeProc s w (if b = 0 then none else some (v.setWidth 48)))

/-- KILLP (R133, R135). -/
def execKillp (d a : Reg) (s : State) : Host.Outcome State Fault Refusal :=
  onCore s fun c r =>
    systemOnly s r (encR 0x2D d a 0 4 0) <|
      let w := (src s c r a).toNat
      let st := sysAddrStatus s c (src s c r a) 128
      if st != 0 then finish s c r d (word st)
      else if (getProc s w).isNone then finish s c r d (if pstate s w == 12 then 1 else 2)
      else if w == r.wptr then
        releaseWait s c r .panel fun s =>
          joinPort s c r (match getProc s w with | some p => p.join | none => none) fun s =>
            settle (endProcWith (dropRefused (modCore s c retireCount) c w) w .now)
      else
        let first := !killing s w
        let s := wakeCore (modProc s w fun p => { p with killed := true }) (procCore s w)
        settle (modCore s c fun k => { k with stall := some (if first then .kill d w else .killNext d w) })

/-- A doubleword of a journal entry (R346). -/
def journalWord (e : JEnt) (i : Nat) : Word :=
  match i with
  | 0 => journalWord0 e
  | 1 => e.store.data
  | _ => word e.store.wptr

/-- JRNL (R347). -/
def execJrnl (d a b : Reg) (s : State) : Host.Outcome State Fault Refusal :=
  onCore s fun c r =>
    systemOnly s r (encR 0x2D d a b 5 0) <|
      let v := src s c r a
      let m := src s c r b
      let k := coreNo (bits v 29 16) (bits v 9 8)
      let i := bits v 4 0
      if bits v 63 30 != 0 || bits v 15 10 != 0 || bits v 7 5 != 0 then finish s c r d 0
      else
        let s := if k == c then s else wakeCore s k
        match amGet (getCore s k).journal i with
        | none => finish s c r d 0
        | some e =>
          let s := finish s c r d (if bits m 1 0 == 3 then 0 else journalWord e (bits m 1 0))
          if bit m 2 && e.rf then modCore s k fun q => { q with journal := amErase q.journal i } else s

/-- The region whose suspension at work or whose rollback holds an action on region `r` (R138, R431). -/
def suspAtWork (s : State) (r : Nat) : Option Nat :=
  (s.regions.find? fun e => (e.2.suspending || e.2.rollingBack) && (inTree s e.1 r || inTree s r e.1)).map (·.1)

/-- RGNSUSP and RGNRESM of a live region: status 2 otherwise (R133). -/
def rgnStatus (s : State) (c : Nat) (a : Word) : Nat :=
  let st := sysAddrStatus s c a 256
  if st != 0 then st else if liveRegion s a.toNat then 0 else 2

/-- Regions of a tree enter SUSPENDED (R136). -/
def markSuspended (s : State) (r : Nat) : State :=
  (treeOf s r).foldl (fun s q => if rcbState s q == 0 then putRcb s q 8 63 60 1 else s) s

/-- RGNSUSP (R133, R136, R138). -/
def execRgnsusp (d a : Reg) (s : State) : Host.Outcome State Fault Refusal :=
  onCore s fun c r =>
    systemOnly s r (encR 0x2D d a 0 6 0) <|
      let q := (src s c r a).toNat
      let st := rgnStatus s c (src s c r a)
      if st != 0 then finish s c r d (word st)
      else if inTree s q r.rcb then finish s c r d 5
      else
        match suspAtWork s q with
        | some x => waitHere s c r 6 0xF0 (.suspNext x)
        | none =>
          if rcbState s q == 1 then finish s c r d 1
          else settle (waitHere (modRegion (markSuspended s q) q fun g => { g with suspending := true }) c r 6 0xF0 (.susp d q))

/-- A SUSPENDED process becomes READY, or returns to the wait it kept (R137, R237, R239). -/
def unsuspend (s : State) (w : Nat) : State :=
  match getProc s w with
  | some p =>
    let prior := parg s w
    if pstate s w != 11 then s
    else if 2 ≤ prior && keepsWait p.wait then setPstate s w prior p.keptArg
    else enqueueTail (setPstate (modProc s w fun p => { p with wait := .none }) w 1 0) w
  | none => s

/-- Jobs parked by suspension are ready (R137). -/
def unparkJobs (s : State) (r : Nat) : State :=
  (allJobs s).foldl (fun s p =>
    if inTree s r p.2.rcb && p.2.st == .parked && p.2.why == some .suspended then
      modJob s p.1 fun j => { j with st := .ready, why := none }
    else s) s

/-- Replay the spill records of the resumed regions in arrival order (R348). -/
def replaySpill (s : State) (r : Nat) : State :=
  let mine (s : State) (t : Transfer) : Bool := match t.spilled with | some q => inTree s r q | none => false
  s.tiles.foldl (fun s e =>
    let q := (getTile s e.1).spill
    let s := modTile s e.1 fun k => { k with spill := k.spill.filter fun t => !mine s t }
    (q.filter (mine s)).foldl (fun s t => beginTransfer s { t with replay := some e.1 }) s) s

/-- RGNRESM's work on a tree (R137). -/
def resumeTree (s : State) (r : Nat) : State :=
  let s := (treeOf s r).foldl (fun s q => if rcbState s q == 1 then putRcb s q 8 63 60 0 else s) s
  let s := s.procs.foldl (fun s e => if inTree s r e.2.rcb then unsuspend s e.1 else s) s
  replaySpill (unparkJobs s r) r

/-- RGNRESM (R133, R137, R138). -/
def execRgnresm (d a : Reg) (s : State) : Host.Outcome State Fault Refusal :=
  onCore s fun c r =>
    systemOnly s r (encR 0x2D d a 0 7 0) <|
      let q := (src s c r a).toNat
      let st := rgnStatus s c (src s c r a)
      if st != 0 then finish s c r d (word st)
      else if rcbState s q != 1 then finish s c r d 1
      else
        match suspAtWork s q with
        | some x => waitHere s c r 6 0xF0 (.suspNext x)
        | none => settle (resumeTree (finish s c r d 0) q)

end Sys2Proof.Machine
end

