-- ==== Sys2Proof/Machine/Schedule.lean ====
section
/-! DEFINITION. Events of processes: dispatch and timeslices (R93, R218), WFI (R132), spawns and migrating heads that
arrive (R226, R231). -/

namespace Sys2Proof.Machine

/-! ### Dispatch -/

/-- The slot that a switch fills (R93): the empty slot of lowest index, else the one that ran least recently. -/
def victim (k : Core) : Nat :=
  match [0, 1, 2, 3].find? fun i => (slotAt k i).isNone with
  | some i => i
  | none =>
    [1, 2, 3].foldl (fun b i =>
      match slotAt k i, slotAt k b with
      | some x, some y => if x.stamp < y.stamp then i else b
      | _, _ => b) 0

/-- Load a process into a slot (R91, R93): correctable words are corrected, and uncorrectable ones stay poisoned (R156, R425). -/
def loadSlot (s : State) (c i w : Nat) : State :=
  let xc := bit (resumeAt s w) 61
  let s := countCorrected (if xc then countCorrected s (w - 128) 96 else s) w 128
  let regs := Vector.ofFn fun (n : Fin 16) => if n.val == 0 then 0 else hw s (w + 8 * n.val)
  let csrs := Vector.ofFn fun (n : Fin 12) => if xc then hw s (w + 8 * n.val - 128) &&& pcsrMask n.val else csrReset n.val
  let badR := (List.range 16).foldl (fun (b : BitVec 16) n => if s.bad.contains (w + 8 * n) then b ||| (1 <<< n) else b) 0
  let badC := (List.range 12).foldl (fun (b : BitVec 12) n => if xc && s.bad.contains (w + 8 * n - 128) then b ||| (1 <<< n) else b) 0
  modCore s c fun k => setSlot k i (some ⟨w, regs, csrs, 0, 0, badR, badC, 0⟩)

/-- Make a process resident and stamp its slot. -/
def makeResident (s : State) (c w : Nat) : State :=
  let s := match slotOf (getCore s c) w with
    | some _ => s
    | none =>
      let i := victim (getCore s c)
      loadSlot (evictSlot s c i) c i w
  let s := tick s
  match slotOf (getCore s c) w with
  | some i => modCore s c fun k => match slotAt k i with | some sl => setSlot k i (some { sl with stamp := s.order }) | none => k
  | none => s

/-- Run a READY process (R93, R217, R218); a switch from another process discards the prefetch queue (R143). -/
def runProc (s : State) (c w : Nat) : State :=
  match getProc s w with
  | none => s
  | some p =>
    let s := makeResident (setPstate s w 0 0) c w
    let v := resumeAt s w
    let k := getCore s c
    let slice := match p.slice with
      | some n => n
      | none => bits k.tslice 31 0
    let s := if k.lastRan == w then s else countAt s c 9 1
    let s := modProc s w fun p => { p with slice := none }
    modCore s c fun k => { k with
      run := some ⟨w, bit v 63, bit v 62, bit v 61, resumePc s w, p.rcb, slice, false, []⟩, lastRan := w
      prefetch := if k.lastRan == w then k.prefetch else [] }

/-- DISPATCH (R218): the head of the high queue, else of the low queue. -/
def execDispatch (c : Nat) (s : State) : Host.Outcome State Fault Refusal :=
  let k := getCore s c
  if k.run.isSome then .next s
  else
    match k.highQ with
    | w :: t => .next (settle (runProc (putRunQueue s c true t) c w))
    | [] =>
      match k.lowQ with
      | w :: t => .next (settle (runProc (putRunQueue s c false t) c w))
      | [] => .next s

/-- TIMESLICE_EXPIRY (R132, R218), at an instruction boundary (R200). -/
def execTimesliceExpiry (c : Nat) (s : State) : Host.Outcome State Fault Refusal :=
  let k := getCore s c
  match k.run with
  | some r =>
    if r.hp || r.slice != 0 || !betweenInstrs k then .next s
    else if k.lowQ.isEmpty then
      .next (modCore s c fun k => { k with run := some { r with slice := bits k.tslice 31 0 }, wfi := false })
    else .next (settle (enqueueTail (setPstate (leaveCore s c r.pc) r.wptr 1 0) r.wptr))
  | none => .next s

/-- WFI_WAKE (R132): issue restarts at a wake event. -/
def execWfiWake (c : Nat) (s : State) : Host.Outcome State Fault Refusal :=
  match (getCore s c).run with
  | some r => .next (if wakePending s c r then wakeCore s c else s)
  | none => .next s

/-! ### Spawns -/

/-- The reply of a spawn or migration: the instruction completes with W[d] (R223, R231). -/
def replyRunning (s : State) (w : Nat) (want : Stall) (d : Reg) (v : Word) : State :=
  let c := procCore s w
  let k := getCore s c
  match k.run with
  | some r => if r.wptr == w && k.stall == some want then finish (modCore s c fun k => { k with stall := none }) c r d v else s
  | none => s

/-- SPAWN_ARRIVAL (R132, R226). -/
def execSpawnArrival (i : Nat) (s : State) : Host.Outcome State Fault Refusal :=
  match s.msgs[i]? with
  | some (.spawn m) =>
    let s := match m.reply with | some (w, _) => noteMsg (dropMsg s i) (procCore s w) m.tile | none => dropMsg s i
    let (s, st) := spawnAtTarget (wakeCore s (coreNo m.tile m.core)) m
    match m.reply with
    | some (w, d) => .next (settle (replyRunning s w .spawn d (spawnResult m st)))
    | none => .next (settle s)
  | _ => .next s

/-! ### Migration (R231, R232) -/

/-- A process's identity in the tables that name it: bindings, whose changes an open interval logs (R429), and jobs, which keep the core that
their ENQ captured (R263, R271). -/
def renameProc (s : State) (old new : Nat) : State :=
  let re (w : Nat) : Nat := if w == old then new else w
  let s := s.tiles.foldl (fun s p => (p.2.bindings.filter fun b => b.writer == old || b.reader == old).foldl (fun s b => logBinding s p.1 b.word) s) s
  let s := { s with
    tiles := s.tiles.map fun p => (p.1, { p.2 with
      bindings := p.2.bindings.map fun b => { b with writer := re b.writer, reader := re b.reader } })
    regions := s.regions.map fun p => (p.1, { p.2 with spawned := p.2.spawned.map re }) }
  (allJobs s).foldl (fun s p => if p.2.wptr == old && !p.2.orphan then modJob s p.1 fun j => { j with wptr := new } else s) s

/-- The head, the extension and the control words of a migrating process at its new workspace (R231): no cache holds it from here on (R94), and
the acquire of the MIGRATE's fence is the target core's, where its later loads are made (R174, R195). -/
def rebuild (s : State) (old new core : Nat) (r : Running) (d : Reg) : State :=
  let c := procCore s old
  let regs := (List.range 16).map fun n =>
    if n == 0 then resumeWord r.sm r.hp r.xc (r.pc + 4)
    else if n == d.toNat then word new else regRd s c old (BitVec.ofNat 4 n)
  let ext := (List.range 12).map fun n => pcsrRd s c old n
  match getProc s old with
  | none => s
  | some p =>
    let s := modCore s c fun k =>
      let k := { k with run := none, stall := none, wfi := false, bufStall := false, hostWord := none, prefetch := [], lastRan := 0 }
      match slotOf k old with | some i => setSlot k i none | none => k
    let s := undoLog (acquireDone (dropAllCopies s (new - 128) 256) core .panel) (new - 128) 256
    let s := putWords s new regs
    let s := putWords s (new - 32) [0, 0, 0, 1]
    let s := if r.xc then putWords s (new - 128) ext else s
    let s := putProc { s with procs := amErase s.procs old } new { p with core := core, wait := .none, slice := none }
    renameProc s old new

/-- MIGRATE_ARRIVAL (R231). -/
def execMigrateArrival (i : Nat) (s : State) : Host.Outcome State Fault Refusal :=
  match s.msgs[i]? with
  | some (.migrate m) =>
    let s := noteMsg (dropMsg s i) m.core m.tile
    let k := getCore s m.core
    match k.run with
    | some r =>
      if r.wptr == m.wptr && k.stall == some .migrate then
        let new := m.tile * tlmWindow + 128 * m.wslot
        if holeCheck s (coreTile m.core) (m.tile * tlmWindow) != .clear then
          let (v, s) := openTval (modCore s m.core fun k => { k with stall := none })
          .next (settle (takeTrap s m.wptr .sitelost 0 v 0 false))
        else if slotMarked s m.tile m.wslot then
          .next (settle (replyRunning (wakeCore s (coreNo m.tile m.target)) m.wptr .migrate m.d 0))
        else
          let c := coreNo m.tile m.target
          let s := rebuild (modCore s m.core retireCount) m.wptr new c r m.d
          .next (settle (if suspendedRegion s r.rcb then setPstate (wakeCore s c) new 11 1 else enqueueTail s new))
      else .next s
    | none => .next s
  | _ => .next s

end Sys2Proof.Machine
end

