-- ==== Sys2Proof/Machine/Firmware.lean ====
section
/-! DEFINITION. What the PMC does for the system processes of the reserved cores (R15): their start from a segment's image (R422, R427), their
move when a wafer site drains, and their restart after its loss (R369; log entry 89). -/

namespace Sys2Proof.Machine

/-- The reserved core of a segment (R15). -/
def sysCore (z : Nat) : Nat := coreNo (segTile z) 3

/-- Distance of two segments on the grid of segments. -/
def segDist (y z : Nat) : Nat := (y % 16 - z % 16) + (z % 16 - y % 16) + (y / 16 - z / 16) + (z / 16 - y / 16)

/-- The element of a list with the least measure, the first of equals. -/
def leastBy (f : Nat → Nat) (l : List Nat) : Option Nat :=
  l.foldl (fun b w => match b with | some v => if f w < f v then some w else b | none => some w) none

/-- The nearest segment of an admitted site, of the column of `z` where one exists (R369). -/
def nearestSeg (s : State) (z : Nat) : Option Nat :=
  let l := allSegs.filter fun y => (getSite s (segModule y)).st == .admitted && (getSeg s y).powered
  match leastBy (segDist z) (l.filter fun y => y % 16 == z % 16) with
  | some y => some y
  | none => leastBy (segDist z) l

/-! ### Start -/

/-- Bytes of an image come to the TLM of the segment's first tile, below its system area. -/
def placeBytes (t : Nat) (s : State) (b : Nat × List Byte) : State :=
  if b.1 + b.2.length ≤ sysAreaOff then performWrite s (t * tlmWindow + b.1) b.2.length (ofBytes b.2) none false 0 else s

/-- A system process without a region starts on a reserved core, unless its workspace is in use. -/
def startProc (c : Nat) (s : State) (ws : List Word) : State :=
  let t := coreTile c
  if recMalformed ws || slotMarked s t (recWslot ws) then s
  else enqueueTail (freshProc s c 0 true (recPri ws == 1) (gpFor s 0 (recPc ws) t) ws none) (t * tlmWindow + 128 * recWslot ws)

/-- What the PMC delivers to a segment: the image of the flash slot that booted (R422, R423). -/
def imageOf (s : State) (z : Nat) : Option Config.SegImage := Config.segImage s.pmc.image z

/-- The processes of the image of segment `z` start on the reserved core of `y`. -/
def startProcs (s : State) (z y : Nat) : State :=
  match imageOf s z with
  | some im => im.procs.foldl (startProc (sysCore y)) s
  | none => s

/-- The channel of the pager that runs on a segment. -/
def pagerChannel (s : State) (z : Nat) : Option Nat :=
  (imageOf s z).bind fun im => im.pager.map fun o => segTile z * tlmWindow + o % tlmWindow

/-- The Watchroom of a segment that has no pager yet is assigned the segment's own (R168). -/
def assignPager (s : State) (z : Nat) : State :=
  let w := watchroomOf (segTile z)
  match pagerChannel s z with
  | some a => if (getWatchroom s w).pager == 0 then modWatchroom s w fun k => { k with pager := a } else s
  | none => s

/-- The reserved core of a segment receives the segment image, and the pager and the default fault handlers start (R422 stage 4). -/
def startSegment (s : State) (z : Nat) : State :=
  let s := { s with pmc := { s.pmc with images := setInsert s.pmc.images z } }
  match imageOf s z with
  | none => s
  | some im =>
    let s := startProcs (im.bytes.foldl (placeBytes (segTile z)) s) z z
    let s := match im.handler with
      | some o => modSeg s z fun k => { k with defaultHandler := segTile z * tlmWindow + o % tlmWindow }
      | none => s
    assignPager s z

/-! ### Drains and losses of wafer sites (R369) -/

/-- A system process can move: it stands at a boundary or in a wait that it can enter again, with its stores acknowledged. -/
def sysMovable (s : State) (w : Nat) (p : Proc) : Bool :=
  let k := getCore s p.core
  (match k.run with | some r => r.wptr != w || (k.stall.isNone && !r.held) | none => true)
    && !inTransfer s w && !p.killed && !p.dying
    && k.sbuf.all (·.wptr != w) && k.journal.all (·.2.store.wptr != w)
    && match p.wait with | .rgnend _ _ => false | .susp _ _ => false | _ => true

/-- A free workspace of tile `t`: at the offset of `w`, or the next above it. -/
def freeSlotAt (s : State) (t w : Nat) : Option Nat :=
  ((List.range 64).map fun i => w % tlmWindow / 128 + 2 * i).find? fun k => slotValid k && !slotMarked s t k

/-- A system process moves to a core, as a migration moves it (R231): what it waits for it leaves, and its instruction re-executes there. -/
def moveSystem (c' : Nat) (s : State) (w : Nat) : State :=
  match getProc s w, freeSlotAt s (coreTile c') w with
  | some p, some k =>
    if !sysMovable s w p then s
    else
      let new := coreTile c' * tlmWindow + 128 * k
      let st := pstate s w
      let arg := parg s w
      let s := match (getCore s p.core).run with
        | some r => if r.wptr == w then leaveCore (noTurn s w) p.core r.pc else s
        | none => s
      let s := offRunQueues (leaveWait s w) w
      let s := match slotOf (getCore s p.core) w with | some i => evictSlot s p.core i | none => s
      let words := (List.range 32).map fun i => hw s (w - 128 + 8 * i)
      let s := putWords (acquireDone (dropAllCopies s (new - 128) 256) c' .panel) (new - 128) words
      let s := putWords s (new - 32) [0, 0, 0, 1]
      let s := putProc { s with procs := amErase s.procs w } new { p with core := c', wait := .none, waitClocks := 0 }
      let s := renameProc s w new
      if 10 ≤ st then setPstate s new st arg else enqueueTail s new
  | _, _ => s

/-- Watchrooms whose pager lies on the site are assigned to the pager of the nearest admitted segment: the channel that its image names, or
the same offset of its first tile. -/
def reassignPagers (s : State) (n : Nat) : State :=
  s.watchrooms.foldl (fun s e =>
    let a := e.2.pager
    if a != 0 && inTlm a && isGrid (a / tlmWindow) && siteOf (a / tlmWindow) == n then
      match nearestSeg s (gridSeg (a / tlmWindow)) with
      | some y => modWatchroom s e.1 fun k => { k with pager := (pagerChannel s y).getD (segTile y * tlmWindow + a % tlmWindow) }
      | none => s
    else s) s

/-- While a wafer site drains, the system processes of its reserved cores move to those of the nearest admitted segments. -/
def moveSystems (s : State) (n : Nat) : State :=
  if n < 4 then
    let s := (moduleSegs n).foldl (fun s z =>
      match nearestSeg s z with
      | some y => ((s.procs.filter fun e => e.2.rcb == 0 && e.2.core == sysCore z).map (·.1)).foldl (moveSystem (sysCore y)) s
      | none => s) s
    reassignPagers s n
  else s

/-- After a wafer site is lost, the processes of its segments' images start again there; `zs` are its segments that had one. -/
def restartSystems (s : State) (n : Nat) (zs : List Nat) : State :=
  let s := zs.foldl (fun s z => match nearestSeg s z with | some y => startProcs s z y | none => s) s
  reassignPagers s n

end Sys2Proof.Machine
end

