-- ==== Sys2Proof/Machine/Sites.lean ====
section
/-! DEFINITION. Sites (R365 to R370): bring-up, admission, drains, release and loss, contact events, routing tables (R383), peer
ports (R384) and dead links (R425). -/

namespace Sys2Proof.Machine

/-- Segments whose default fault handlers receive the site events: those with sx = 0 (R366). -/
def eventSegs : List Nat := (List.range 12).map fun y => 16 * y

/-- A site changes STATE: STIME is written and the event is broadcast and recorded (R365, R366). -/
def siteGo (s : State) (n : Nat) (st : SiteState) : State :=
  let s := modSite s n fun k => { k with st := st, stime := s.time }
  eventSegs.foldl (fun s g => sendRecord s g .sitelost (siteCode st) (word n)) s

/-- Command `code` is done: BUSY clears and CST holds its status (R365); another command that the block is carrying out stays. -/
def cmdDone (s : State) (n code cst : Nat) : State :=
  modSite s n fun k => if k.busy && k.cmd != code then { k with cst := cst } else { k with busy := false, cmd := 0, cst := cst }

/-- Sites are numbered 0 to 11. -/
def isSite (n : Nat) : Bool := decide (n < 12)

/-! ### Bring-up (R366) -/

/-- Clamp and sense pin close, and every contact group is tested. -/
def seatSite (s : State) (n : Nat) (contactsOk : Bool) : State :=
  if isSite n && (getSite s n).st == .empty then
    if contactsOk then siteGo (modSite s n fun k => { k with clampClosed := true, clampLocked := true, pinClosed := true }) n .seated
    else modSite s n fun k => { k with clampClosed := true, pinClosed := true, clampLocked := false, fail := 2 }
  else s

/-- SITE_SEATED (R366): the outcome of the contact test is measured. -/
def execSiteSeated (n : Nat) (contactsOk : Bool) (s : State) : Host.Outcome State Fault Refusal := .next (seatSite s n contactsOk)

/-- SITE_POWERED (R366): the PMC powers sites from stage 3 of bring-up on (R422). -/
def execSitePowered (n : Nat) (s : State) : Host.Outcome State Fault Refusal :=
  if isSite n && (getSite s n).st == .seated && decide (3 ≤ s.pmc.stage) then .next (siteGo (modSite s n fun k => { k with powerOn := true }) n .powered) else .next s

/-- What the tiles of a site keep of the module before is gone: its defects and dead links (R2, R14). -/
def clearDefects (s : State) (n : Nat) : State :=
  { s with tiles := s.tiles.map fun (e : Nat × Tile) =>
      (e.1, if decide (e.1 < allTiles) && siteOf e.1 == n then { e.2 with dark := false, routerDead := false, deadLinks := [] } else e.2) }

/-- The defect map of a module marks its dark tiles, and no other tile of the site is dark (R14). -/
def readDefects (s : State) (n : Nat) (defects : List Defect) : State :=
  (defects.filter fun d => decide (d.tile < allTiles) && siteOf d.tile == n).foldl
    (fun s d => modTile s d.tile fun k => { k with dark := true, routerDead := d.routerDead }) (clearDefects s n)

/-- SITE_ATTESTED (R14, R366). -/
def execSiteAttested (n : Nat) (serial : Word) (defects : List Defect) (s : State) : Host.Outcome State Fault Refusal :=
  if isSite n && (getSite s n).st == .powered then
    let s := readDefects s n defects
    .next (siteGo (modSite s n fun k => { k with serial := serial, defects := defects }) n .attested)
  else .next s

/-- FAIL of a step that does not complete (R365, R366): rails, attestation or link training. -/
def stepFail : SiteState → Nat
  | .seated => 4
  | .powered => 5
  | _ => 6

/-- States in which a bring-up step can fail, and those in which an open sense pin ends the bring-up (R366). -/
def inBringUp (st : SiteState) : Bool := st == .seated || st == .powered || st == .attested || st == .linked

/-- A broadcast of the site's hole bit that is given up leaves every tile as it was. -/
def recallHole (s : State) (n : Nat) : State :=
  { s with tiles := s.tiles.map fun (e : Nat × Tile) => (e.1, { e.2 with holeAhead := e.2.holeAhead &&& ~~~(1#12 <<< n) }) }

/-- SITE_STEP_FAIL (R366): a SEATED site's STATE does not change. -/
def execSiteStepFail (n : Nat) (s : State) : Host.Outcome State Fault Refusal :=
  let st := (getSite s n).st
  if isSite n && inBringUp st then
    let s := modSite (recallHole s n) n fun k => { k with powerOn := false, fail := stepFail st }
    .next (if st == .seated then s else siteGo s n .seated)
  else .next s

/-! ### Loss (R367, R370) -/

def lossFail : LossCause → Nat
  | .sensePin => 1
  | .contacts => 2
  | .links => 3

/-- Set the hole bits of a site at every tile (R161, R162). -/
def setHole (s : State) (n : Nat) : State := recallHole { s with holeSites := s.holeSites ||| (1#12 <<< n) } n

/-- A broadcast of the site's hole bit has reached some tile already (R162). -/
def holeUnderWay (s : State) (n : Nat) : Bool := s.tiles.any fun e => e.2.holeAhead.getLsbD n

/-- Power of a site's segments goes with it. -/
def unpower (s : State) (n : Nat) : State :=
  if n < 4 then (moduleSegs n).foldl (fun s g => modSeg s g fun k => { Seg.reset with defaultHandler := k.defaultHandler, failed := k.failed }) s else s

/-- A loss: its detection, and at the next such event the hole bits, LOST, and the effects of R370. Between the two, boundary routers
answer SITELOST (R161, R367). After it, messages wait at the lost area's boundary for new tables (R383), and a wafer site's system processes
start again elsewhere (R369). -/
def loseSite (s : State) (n : Nat) (cause : LossCause) : State :=
  let k := getSite s n
  if !(isSite n && siteIn k.st) then s
  else if !k.losing then modSite s n fun k => { k with losing := true, fail := lossFail cause }
  else
    let s := setHole { s with detours := setInsert s.detours n } n
    let s := siteGo (modSite s n fun k => { k with losing := false, deadline := 0 }) n .lost
    let zs := if n < 4 then (moduleSegs n).filter fun z => (getSeg s z).powered && s.pmc.images.contains z else []
    settle (restartSystems (unpower (loseTiles s (fun t => decide (t < allTiles) && siteOf t == n) true) n) n zs)

/-- SITE_LOSS (R367, R370). -/
def execSiteLoss (n : Nat) (cause : LossCause) (s : State) : Host.Outcome State Fault Refusal := .next (loseSite s n cause)

/-- The module leaves with its regulators, contacts and defects (R2, R7, R14). -/
def dropModule (s : State) (n : Nat) : State :=
  let s := clearDefects s n
  if n < 4 then (moduleSegs n).foldl (fun s g => modSeg s g fun k => { k with failed := 0, contactBad := [] }) s else s

/-- A site enters EMPTY: power off, SERIAL 0 (R365, R366). -/
def emptySite (s : State) (n : Nat) : State :=
  siteGo (dropModule (modSite (recallHole s n) n fun k => { k with
    pinClosed := false, powerOn := false, serial := 0, clampClosed := false, clampLocked := false, defects := [] }) n) n .empty

/-- SENSE_PIN_OPEN (R366, R367): an admitted, draining or quiesced site is being lost. -/
def execSensePinOpen (n : Nat) (s : State) : Host.Outcome State Fault Refusal :=
  let st := (getSite s n).st
  if isSite n && (inBringUp st || st == .lost || st == .released) then .next (emptySite s n)
  else if isSite n && siteIn st then .next (loseSite (modSite s n fun k => { k with pinClosed := false }) n .sensePin)
  else .next s

/-! ### Commands (R365, R366) -/

/-- A command of the site: one that stands in +0x20, or one of the management port, which the PMC refuses with CST 2 unless it is signed,
and does not serve in recovery (R365, R422, R432). -/
def siteCommand (s : State) (q : SiteReq) (code : Nat) (f : State → Nat → State) : State :=
  let n := q.site
  let k := getSite s n
  if !isSite n then s
  else if k.busy && k.cmd == code then f s n
  else if q.signed then (if recovering s then s else f s n)
  else modSite s n fun k => { k with cst := 2 }

/-- The site's ranges are zero, with valid check bits and empty words, before the first tile clears its hole bit (R162). -/
def healRanges (s : State) (n : Nat) : State :=
  if holeUnderWay s n then s else healTiles s fun t => decide (t < allTiles) && siteOf t == n

/-- The site's ranges heal, and its hole bit is clear at every tile; its segments have power, and its clocks run from here (R127, R162). -/
def healSite (s : State) (n : Nat) : State :=
  let s := healRanges s n
  let s := recallHole { s with holeSites := s.holeSites &&& ~~~(1#12 <<< n) } n
  let s := modSite s n fun k => { k with clock0 := s.clocks }
  if n < 4 then
    let bits := (moduleSegs n).foldl (fun h g => h &&& ~~~(1#192 <<< g)) (BitVec.allOnes 192)
    let s := { s with
      holeSegs := s.holeSegs &&& bits
      tiles := s.tiles.map fun (e : Nat × Tile) => (e.1, { e.2 with holeSegAhead := e.2.holeSegAhead &&& bits }) }
    (moduleSegs n).foldl (fun s g => modSeg s g fun k => { k with powered := true, clock0 := s.clocks }) s
  else s

/-- TENANT.TID of every tile of a segment that the PMC has given to a tenant (R381). -/
def setTenant (s : State) (z tenant : Nat) : State :=
  (segTiles z).foldl (fun s t => modTile s t fun k => { k with tenant := setBits k.tenant 11 0 tenant }) s

/-- The tenant bitmaps of a memory module's rim routers hold the tenants that the PMC grants memory there; a grid router's follows its tile,
which has the tenant that the PMC has recorded for its segment (R366, R381, R382; log entry 55). -/
def installBitmaps (s : State) (n : Nat) : State :=
  if n < 4 then (s.pmc.tenants.filter fun e => segModule e.1 == n).foldl (fun s e => setTenant s e.1 e.2) s
  else (siteTiles n).foldl (fun s t => modTile s t fun k => { k with admits := Config.granted n }) s

/-- The routing tables computed for a module's routers are installed, and messages are no longer routed around it (R366, R383). -/
def installRoutes (s : State) (n : Nat) : State :=
  let s := installTables s fun t => decide (t < allTiles) && siteOf t == n
  { s with detours := s.detours.filter fun a => a != n && (a < 12 || segModule (a - 12) != n) }

/-- A LINKED site is admitted (R366). -/
def admitSite (s : State) (n : Nat) : State :=
  siteGo (modSite (installBitmaps (installRoutes (healSite s n) n) n) n fun k => { k with agen := k.agen + 1 }) n .admitted

/-- SITE_LINKED (R366): the module's routing tables are computed, and at stage 3 of bring-up the site is admitted at once (R422). -/
def execSiteLinked (n : Nat) (s : State) : Host.Outcome State Fault Refusal :=
  if isSite n && (getSite s n).st == .attested then
    let s := siteGo (computeTables s (siteTiles n)) n .linked
    .next (if s.pmc.stage == 3 then admitSite s n else s)
  else .next s

/-- SITE_ADMIT (R366). -/
def execSiteAdmit (q : SiteReq) (s : State) : Host.Outcome State Fault Refusal :=
  .next <| siteCommand s q 1 fun s n =>
    if (getSite s n).st == .linked then
      cmdDone (admitSite s n) n 1 0
    else cmdDone s n 1 1

/-- A drain begins: DEADLINE = TIME + 1,000 · NOTICE, and NOTICE 0 gives 100,000 (R365, R366). -/
def beginDrain (s : State) (n : Nat) : State :=
  let k := getSite s n
  let us := if k.notice = 0 then 100000 else k.notice.toNat
  siteGo (modSite s n fun k => { k with deadline := s.time + word (1000 * us) }) n .draining

/-- SITE_DRAIN (R365, R366): a command of the management port brings its NOTICE. -/
def execSiteDrain (q : SiteReq) (notice : BitVec 32) (s : State) : Host.Outcome State Fault Refusal :=
  .next <| siteCommand s q 2 fun s n =>
    if (getSite s n).st == .admitted then
      cmdDone (beginDrain (modSite s n fun k => { k with notice := if k.busy && k.cmd == 2 then k.notice else notice }) n) n 2 0
    else cmdDone s n 2 1

/-- SITE_RELEASE (R366): what a quiesced site still held is lost with it, and so is a loss that was being answered. -/
def execSiteRelease (q : SiteReq) (s : State) : Host.Outcome State Fault Refusal :=
  .next <| siteCommand s q 3 fun s n =>
    let off (s : State) : State := modSite s n fun k => { k with powerOn := false, clampLocked := false, losing := false }
    match (getSite s n).st with
    | .quiesced =>
      let s := setHole { s with detours := setInsert s.detours n } n
      let s := reassignPagers (unpower (loseTiles s (fun t => decide (t < allTiles) && siteOf t == n) false) n) n
      settle (cmdDone (siteGo (off s) n .released) n 3 0)
    | .lost => cmdDone (siteGo (off s) n .released) n 3 0
    | _ => cmdDone s n 3 1

/-- SITE_RETEST (R366): a SEATED site powers up, which SITE_POWERED reports. -/
def execSiteRetest (q : SiteReq) (s : State) : Host.Outcome State Fault Refusal :=
  .next <| siteCommand s q 4 fun s n =>
    let k := getSite s n
    if k.st == .released && k.clampClosed then cmdDone (siteGo s n .seated) n 4 0
    else if k.st == .seated then cmdDone s n 4 0
    else cmdDone s n 4 1

/-! ### Drains (R366, R369) -/

/-- The site holds no work (R369). -/
def siteIdle (s : State) (n : Nat) : Bool :=
  let on (t : Nat) : Bool := decide (t < allTiles) && siteOf t == n
  (touchedRoots s on).isEmpty
    && s.procs.all (fun e => !on (e.1 / tlmWindow))
    && (allJobs s).all (fun p => !on (p.1 / 128))
    && s.cores.all (fun e => !on (coreTile e.1) || (e.2.sbuf.isEmpty && e.2.journal.all fun j => j.2.rf))
    && (s.transfers ++ s.tiles.flatMap fun p => p.2.spill).all (fun t => !on (endTile t.writer) && !on (endTile t.reader))

/-- SITE_QUIESCED (R366, R369): a site that still holds work gives its system processes away. -/
def execSiteQuiesced (n : Nat) (s : State) : Host.Outcome State Fault Refusal :=
  if isSite n && (getSite s n).st == .draining then
    if siteIdle s n then .next (siteGo (modSite s n fun k => { k with deadline := 0 }) n .quiesced)
    else .next (settle (moveSystems s n))
  else .next s

/-- DRAIN_DEADLINE (R366): regions still mapped there are aborted, DETAIL 1, and FAIL is 7. -/
def execDrainDeadline (n : Nat) (s : State) : Host.Outcome State Fault Refusal :=
  let k := getSite s n
  if isSite n && k.st == .draining && k.deadline.ule s.time then
    let s := abortTouched s fun t => decide (t < allTiles) && siteOf t == n
    .next (settle (siteGo (modSite s n fun k => { k with deadline := 0, fail := 7 }) n .quiesced))
  else .next s

/-! ### Contacts, links and routes -/

/-- CONTACT_EVENT (R368). -/
def execContactEvent (seg group : Nat) (s : State) : Host.Outcome State Fault Refusal :=
  if seg < 192 then
    let n := segModule seg
    let s := modSeg s seg fun k => { k with contactBad := setInsert k.contactBad group }
    let s := sendRecord s seg .contact 0 (word group)
    let s := if (getSite s n).st == .admitted then beginDrain s n else s
    let bad := (getSeg s seg).contactBad
    .next (if bad.contains (group + 1) || (group != 0 && bad.contains (group - 1)) then segDown s seg else s)
  else .next s

/-- ROUTE_INSTALL (R383): the 32 entries of a router. -/
def execRouteInstall (tile : Nat) (entries : List Word) (s : State) : Host.Outcome State Fault Refusal :=
  if tile < allTiles then .next (putRoutes s tile entries) else .next s

/-- LINK_DEAD (R425). -/
def execLinkDead (tile : Nat) (dir : Dir) (s : State) : Host.Outcome State Fault Refusal :=
  if tile < allTiles then .next (modTile s tile fun k => { k with deadLinks := if k.deadLinks.contains dir then k.deadLinks else dir :: k.deadLinks })
  else .next s

/-- PEER_FRAME (R384): a frame whose CRC holds delivers its collective step; one whose CRC fails is replayed by its sender. -/
def execPeerFrame (port : Nat) (crcOk : Bool) (step : PeerStep) (s : State) : Host.Outcome State Fault Refusal :=
  if port < 12 && crcOk && portUp s port then .next (pushMsg s (.peer step)) else .next s

/-- PEER_PORT_DOWN (R384): members behind a panel whose every port is down are lost (R375). -/
def execPeerPortDown (port : Nat) (s : State) : Host.Outcome State Fault Refusal :=
  if port < 12 then
    let s := { s with pmc := { s.pmc with portsDown := s.pmc.portsDown ||| (1#12 <<< port) } }
    let ds := (s.tiles.flatMap fun e => e.2.groups.map (·.desc)).eraseDups
    .next (ds.foldl (fun s d =>
      let ms := ((gMembers s d).filter fun m => m.2.isIn && m.2.panel != ownPanel s && unreachable s m.2).map (·.1)
      if ms.isEmpty then s else pushMsg s (.loss d ms)) s)
  else .next s

end Sys2Proof.Machine
end

