-- ==== Sys2Proof/Machine/Maps.lean ====
section
/-! DEFINITION. Changing a place map (R378): freeze, commit and thaw, with the move of every tile whose map word changes (R232,
R253, R369). -/

namespace Sys2Proof.Machine

/-! ### Names of what moves -/

/-- Moved tiles, each with its target. -/
abbrev Moves := List (Nat × Nat)

def mvT (m : Moves) (t : Nat) : Nat :=
  match m.find? fun x => x.1 == t with
  | some x => x.2
  | none => t

def moved (m : Moves) (t : Nat) : Bool := m.any fun x => x.1 == t

/-- A TLM address of a moved window, and an identity or a link that lies there; the system area stays (R378 step 3). -/
def mvA (m : Moves) (pa : Nat) : Nat :=
  if inTlm pa && decide (pa % tlmWindow < sysAreaOff) then mvT m (pa / tlmWindow) * tlmWindow + pa % tlmWindow else pa

/-- An address of any store of a tile. -/
def mvPa (m : Moves) (pa : Nat) : Nat :=
  let o := spaceOff pa
  match spaceOf pa with
  | 1 => spaceBase 1 + mvT m (o / 0x200000) * 0x200000 + o % 0x200000
  | 2 => spaceBase 2 + mvT m (o / 0x800000) * 0x800000 + o % 0x800000
  | _ => mvA m pa

def mvCore (m : Moves) (c : Nat) : Nat := coreNo (mvT m (coreTile c)) (coreIdx c)

/-- The entry of an engine queue that a moved entry becomes: same queue, same slot. -/
def mvKey (m : Moves) (k : Nat) : Nat := mvT m (k / 128) * 128 + k % 128

def mvQueue (m : Moves) (k : Nat) : Nat := mvT m (k / 4) * 4 + k % 4

/-! ### Renaming each kind of record -/

def mvWait (m : Moves) : WaitInfo → WaitInfo
  | .chan d fn wd => .chan d fn (mvA m wd)
  | .sel d f tb => .sel d f (mvA m tb)
  | .job d k g => .job d (mvKey m k) g
  | .rgnend d r => .rgnend d (mvA m r)
  | .lock mp d sp a md => .lock (mvPa m mp) d sp a md
  | .queue k => .queue (mvQueue m k)
  | .guard t k => .guard (mvT m t) (mvKey m k)
  | .acc t op n => .acc (mvT m t) op n
  | .accLd t j d pa q n => .accLd (mvT m t) j d (mvPa m pa) q n
  | .accCfg t => .accCfg (mvT m t)
  | .acfg d cfg t n b => .acfg d cfg (mvT m t) n b
  | .frozen r => .frozen (mvA m r)
  | .watchFull t => .watchFull (mvT m t)
  | .susp d r => .susp d (mvA m r)
  | .suspNext r => .suspNext (mvA m r)
  | w => w

def mvProc (m : Moves) (p : Proc) : Proc :=
  { p with
    rcb := mvA m p.rcb, join := p.join.map (mvA m), core := mvCore m p.core, wait := mvWait m p.wait
    lockTurn := p.lockTurn.map fun x => (mvPa m x.1, x.2) }

/-- An end of a transfer; a buffer named by a physical address moves with its window. -/
def mvEnd (m : Moves) (space : Option Nat) : ChanEnd → ChanEnd
  | .buf w va n => .buf (mvA m w) (if space.isNone then mvA m va else va) n
  | .value w v => .value (mvA m w) v
  | .head w d => .head (mvA m w) d
  | .slot t k => .slot t k
  | .unit u ws => .unit u ws

def mvTransfer (m : Moves) (t : Transfer) : Transfer :=
  { t with
    word := mvA m t.word, writer := mvEnd m t.wSpace t.writer, reader := mvEnd m t.rSpace t.reader, tile := mvT m t.tile
    spilled := t.spilled.map (mvA m), replay := t.replay.map (mvT m), core := mvCore m t.core }

def mvStore (m : Moves) (e : StoreEnt) : StoreEnt := { e with pa := mvPa m e.pa, wptr := mvA m e.wptr }

def mvRange (m : Moves) (r : Nat × Nat) : Nat × Nat := (mvPa m r.1, r.2)

def mvJob (m : Moves) (j : Job) : Job :=
  { j with
    wptr := mvA m j.wptr, core := mvCore m j.core, rcb := mvA m j.rcb, mapRef := j.mapRef.map (mvPa m), mapName := j.mapName.map (mvPa m)
    reads := j.reads.map (mvRange m), writes := j.writes.map (mvRange m) }

def mvGuard (m : Moves) (g : Guard) : Guard := ⟨mvA m g.lo, mvA m g.lo + (g.hi - g.lo), mvKey m g.key⟩

def mvWatch (m : Moves) (w : Watch) : Watch := ⟨mvA m w.wptr, mvA m w.pa, w.len⟩

def mvBinding (m : Moves) (b : Binding) : Binding := ⟨mvA m b.word, mvA m b.writer, mvA m b.reader⟩

def mvAlt (m : Moves) (a : SelAlt) : SelAlt := { a with pa := mvPa m a.pa, word := mvA m a.word }

def mvSelect (m : Moves) (e : Select) : Select :=
  { e with wptr := mvA m e.wptr, todo := e.todo.map (mvAlt m), armed := e.armed.map (mvAlt m) }

def mvParty (m : Moves) : Party → Party
  | .plain e w => .plain (mvEnd m (some 0) e) w
  | .alt t i => .alt (mvA m t) i

def mvSrc (m : Moves) : FaultSrc → FaultSrc
  | .core c => .core (mvCore m c)
  | .job k => .job (mvKey m k)
  | .trigger t e sm => .trigger (mvT m t) e sm
  | .transfer wd => .transfer (mvA m wd)

def mvPair (m : Moves) (x : Nat × BitVec 32) : Nat × BitVec 32 := (mvA m x.1, x.2)

def mvMsg (m : Moves) : Msg → Msg
  | .chan wd p cb h => .chan (mvA m wd) (mvParty m p) cb h
  | .claim wd p a b => .claim (mvA m wd) (mvParty m p) (mvA m a) (mvA m b)
  | .spawn x => .spawn { x with reply := x.reply.map fun r => (mvA m r.1, r.2), rcb := mvA m x.rcb, joinPa := x.joinPa.map (mvA m) }
  | .notice w pa v f r => .notice (mvA m w) (mvA m pa) v f r
  | .fault x => .fault { x with who := mvSrc m x.who }
  | .probe o q hs t => .probe (mvA m o) q (hs.map (mvPair m)) (mvA m t)
  | .confirm o ms => .confirm (mvA m o) (ms.map (mvPair m))
  | .start k => .start (mvKey m k)
  | .loss d ms => .loss (mvA m d) ms
  | x => x

def mvGroup (m : Moves) (g : GroupEnt) : GroupEnt := { g with desc := mvA m g.desc }

/-- The recorded state of an open checkpoint interval. -/
def mvInterval (m : Moves) (v : Interval) : Interval :=
  { v with
    saved := v.saved.map fun (x : CkSave) => { x with wptr := mvA m x.wptr, core := mvCore m x.core, join := x.join.map (mvA m) }
    base := v.base.foldl (fun a x => amSet a (mvT m x.1) x.2) [] }

def mvRegion (m : Moves) (g : Region) : Region :=
  { g with
    arrivals := g.arrivals.map fun x => (mvA m x.1, x.2), interval := g.interval.map (mvInterval m), spawned := g.spawned.map (mvA m)
    join := g.join.map (mvA m) }

def mvTrapSlot (m : Moves) (x : TrapSlot) : TrapSlot := { x with rcb := mvA m x.rcb }

/-- An access held at a port. -/
def mvHeld (m : Moves) (h : HeldAcc) : HeldAcc :=
  let who := match h.by_ with
    | .store c i => .store (mvCore m c) i
    | .own c => .own (mvCore m c)
    | .instr c => .instr (mvCore m c)
    | .job k => .job (mvKey m k)
    | .host l => .host l
    | .move wd => .move (mvA m wd)
    | .dec n => .dec n
  { h with by_ := who, lo := mvPa m h.lo }

/-- What a tile keeps of processes, regions and addresses, renamed in place. -/
def mvTileRecords (m : Moves) (k : Tile) : Tile :=
  { k with
    guards := k.guards.map (mvGuard m), accOwner := k.accOwner.map (mvA m), bindings := k.bindings.map (mvBinding m)
    watches := k.watches.map (mvWatch m), held := k.held.map (mvHeld m), trapQ := k.trapQ.map fun x => x.map (mvTrapSlot m), spill := k.spill.map (mvTransfer m)
    groups := k.groups.map (mvGroup m) }

/-- The records of a moved tile at its target (R378 steps 3, 4, 8). -/
def tileArrives (old new : Tile) : Tile :=
  { new with
    guards := old.guards, accLive := old.accLive, accType := old.accType, accOwner := old.accOwner, bindings := old.bindings
    watches := old.watches, held := old.held, firing := old.firing, spill := old.spill, groups := old.groups, undo := old.undo, trigBase := old.trigBase
    trigArm := old.trigArm, trigSys := old.trigSys }

/-- What a moved tile keeps: its file is free, its tables are empty. -/
def tileLeft (k : Tile) : Tile :=
  { k with
    guards := [], accLive := 0, accType := 0, accOwner := none, bindings := [], watches := [], held := [], firing := [], spill := [], groups := []
    undo := 0, trigArm := 0, trigSys := 0 }

/-- What an instruction on a core awaits. -/
def mvStall (m : Moves) : Stall → Stall
  | .chan d fn wd v n => .chan d fn (mvA m wd) v n
  | .sel d f tb => .sel d f (mvA m tb)
  | .kill d w => .kill d (mvA m w)
  | .killNext d w => .killNext d (mvA m w)
  | x => x

/-- Every core's records, renamed in place. -/
def mvCoreRecords (m : Moves) (k : Core) : Core :=
  { k with
    run := k.run.map (fun (r : Running) => { r with rcb := mvA m r.rcb }), stall := k.stall.map (mvStall m), sbuf := k.sbuf.map (mvStore m)
    journal := k.journal.map (fun e => (e.1, { e.2 with store := mvStore m e.2.store }))
    pwait := k.pwait.map (fun (p : PageWait) => { p with wptr := mvA m p.wptr })
    request := k.request.map fun x => (x.1, mvA m x.2) }

/-! ### Moving -/

/-- Bytes `[a, a + n)` of `old` put in place of `[b, b + n)` of `m`. -/
def copyWindow (m old : Memory) (a b n : Nat) : Memory :=
  (m.filter fun c => decide (c.1 < b))
    ++ ((old.filter fun c => decide (a ≤ c.1) && decide (c.1 < a + n)).map fun c => (c.1 - a + b, c.2))
    ++ (m.filter fun c => decide (b + n ≤ c.1))

/-- The same of a rising list of addresses. -/
def copyMarks (l old : List Nat) (a b n : Nat) : List Nat :=
  ((old.filter fun x => decide (a ≤ x) && decide (x < a + n)).map fun x => x - a + b).foldl setInsert
    (l.filter fun x => decide (x < b) || decide (b + n ≤ x))

/-- The stores of a tile that a commit copies: its window below the system area, its file, its B or window store. -/
def movedRanges (t u : Nat) : List (Nat × Nat × Nat) :=
  [(t * tlmWindow, u * tlmWindow, sysAreaOff), (spaceBase 1 + t * 0x200000, spaceBase 1 + u * 0x200000, 0x200000),
    (spaceBase 2 + t * 0x800000, spaceBase 2 + u * 0x800000, 0x800000)]

/-- Step 3 of R378. -/
def copyTiles (s : State) (m : Moves) : State :=
  let rs := m.flatMap fun x => movedRanges x.1 x.2
  let marks (l : List Nat) : List Nat := rs.foldl (fun a r => copyMarks a l r.1 r.2.1 r.2.2) l
  { s with
    mem := rs.foldl (fun a r => copyWindow a s.mem r.1 r.2.1 r.2.2) s.mem
    full := marks s.full, bad := marks s.bad, weak := marks s.weak, rels := marks s.rels }

/-- Every RUNNING process of a moved tile leaves its core, READY; every slot is written back (R232). -/
def quietTile (s : State) (t : Nat) : State :=
  [0, 1, 2, 3].foldl (fun s i =>
    let c := coreNo t i
    let s := match (getCore s c).run with
      | some r => enqueueTail (setPstate (leaveCore s c r.pc) r.wptr 1 0) r.wptr
      | none => s
    [0, 1, 2, 3].foldl (fun s j => evictSlot s c j) s) s

/-- Channel words with waiters, each with its queue. -/
def waiterQueues (s : State) : List (Nat × List Nat) :=
  let ws := s.procs.filterMap fun e => match e.2.wait with | .chan _ _ wd => some wd | _ => none
  let ss := s.selects.flatMap fun e => e.2.armed.map (·.word)
  let ts := s.tiles.flatMap fun e => (List.range 8).filterMap fun k =>
    match ((getTile s e.1).trapQ[k]?).getD none with
    | some x => if x.offered then some (slotHandler s e.1 x) else none
    | none => none
  (ws ++ ss ++ ts).eraseDups.map fun w => (w, chainOf s w)

/-- Every record that names a process, a region, a tile or an address, renamed (steps 4 and 5). -/
def renameAll (s : State) (m : Moves) : State :=
  { s with
    procs := s.procs.foldl (fun a e => amSet a (mvA m e.1) (mvProc m e.2)) []
    tiles := s.tiles.map fun (e : Nat × Tile) => (e.1, mvTileRecords m e.2)
    cores := s.cores.map fun (e : Nat × Core) => (e.1, mvCoreRecords m e.2)
    regions := s.regions.foldl (fun a e => amSet a (mvA m e.1) (mvRegion m e.2)) []
    areas := s.areas.map fun (x : Area) => { x with lo := mvA m x.lo, owner := mvA m x.owner }
    selects := s.selects.foldl (fun a e => amSet a (mvA m e.1) (mvSelect m e.2)) []
    transfers := s.transfers.map (mvTransfer m)
    msgs := s.msgs.map (mvMsg m)
    watchrooms := s.watchrooms.map fun (e : Nat × Watchroom) => (e.1, { e.2 with
      entries := e.2.entries.map fun (x : Nat × WrEntry) => (x.1, { x.2 with who := x.2.who.map (mvSrc m) }) })
    launches := s.launches.map fun (l : Launch) => { l with rcb := mvA m l.rcb }
    collStarts := s.collStarts.map fun (x : CollStart) => { x with desc := mvA m x.desc, key := x.key.map (mvKey m) }
    collOps := s.collOps.map fun (x : CollOp) => { x with desc := mvA m x.desc }
    collFixed := s.collFixed.map fun (x : CollFixed) => { x with desc := mvA m x.desc }
    collLosses := s.collLosses.map fun (x : CollLoss) => { x with desc := mvA m x.desc }
    queues := s.queues.map fun (q : Nat × Queue) => (q.1, { q.2 with
      entries := q.2.entries.map fun (e : Nat × QEntry) => (e.1, { e.2 with
        taken := e.2.taken.map (mvA m), job := e.2.job.map (mvJob m), rcb := mvA m e.2.rcb }) })
    jobOld := s.jobOld.map fun (x : JobOld) => { x with addr := mvPa m x.addr, key := mvKey m x.key, home := x.home.map (mvT m) }
    chanWords := (s.chanWords.map (mvA m)).foldl setInsert []
    mapPages := s.mapPages.foldl (fun a e => amSet a (mvPa m e.1) (e.2.map (mvPa m))) []
    decs := s.decs.map fun (x : HeldDec) => { x with pa := mvA m x.pa, rcb := mvA m x.rcb }
    images := s.images.map fun (x : Image) => { x with tlm := x.tlm.map fun p => (mvT m p.1, p.2) } }

/-- The tile records of every moved tile reach their targets. -/
def moveTables (s : State) (m : Moves) : State :=
  let left := m.foldl (fun s x => modTile s x.1 tileLeft) s
  m.foldl (fun s' x => modTile s' x.2 fun k => tileArrives (getTile s x.1) k) left

/-- Run queues and page waits of a moved tile's cores reach the same cores of the target, which acquire (R231, R232); token requests do not travel (R389). -/
def moveCores (s : State) (m : Moves) : State :=
  let left := m.foldl (fun s x => [0, 1, 2, 3].foldl (fun s i => modCore s (coreNo x.1 i) fun k => { k with pwait := [], highQ := [], lowQ := [], prefetch := [], lastRan := 0 }) s) s
  m.foldl (fun s' x => [0, 1, 2, 3].foldl (fun s' i =>
    let o := getCore s (coreNo x.1 i)
    let s' := modCore s' (coreNo x.2 i) fun k => { k with
      pwait := k.pwait ++ o.pwait, linksUsed := k.linksUsed ||| o.linksUsed, wfi := false }
    let s' := acquireDone s' (coreNo x.2 i) .panel
    let k := getCore s' (coreNo x.2 i)
    putRunQueue (putRunQueue s' (coreNo x.2 i) true (k.highQ ++ o.highQ.map (mvA m))) (coreNo x.2 i) false (k.lowQ ++ o.lowQ.map (mvA m))) s') left

/-- Entries of a tile's queues with jobs, or held by an ENQ that waits for guards, by key. -/
def movedEntries (s : State) (m : Moves) : List (Nat × QEntry) :=
  m.flatMap fun x => [0, 1, 2].flatMap fun q => (getQueue s (4 * x.1 + q)).entries.filterMap fun e =>
    if e.2.job.isSome || e.2.taken.isSome then some ((4 * x.1 + q) * 32 + e.1, e.2) else none

/-- A RUNNING job that the commit parked is ready again (R266, R378). -/
def jobCarried (s : State) (j : Job) : Job := if j.st == .running then { j with st := .ready, why := none, parkOrder := s.order, inFlight := false } else j

/-- Step 4: every job to the same queue and slot of the target, the old entry forwarding; an entry that an ENQ holds is held there. -/
def moveJobs (s : State) (m : Moves) : State :=
  let es := movedEntries s m
  let s := es.foldl (fun s e => putEntry s e.1 (if e.2.job.isSome then { e.2 with job := none, result := none, fwd := some (mvKey m e.1) }
    else { e.2 with taken := none })) s
  es.foldl (fun s e => putEntry s (mvKey m e.1) (if e.2.job.isSome then { e.2 with job := e.2.job.map (jobCarried s), fwd := none }
    else { entryAt s (mvKey m e.1) with taken := e.2.taken, fwd := none })) s

/-- PARENT, PMAP and HANDLER of the tree's control blocks (step 5). -/
def rewriteRcb (s : State) (m : Moves) (r : Nat) : State :=
  let s := putRcb s r 0 51 8 (mvA m (rcbParent s r) / 256)
  let s := putRcb s r 24 51 0 (mvA m (rcbPmap s r))
  putRcb s r 40 51 0 (mvA m (rcbHandler s r))

/-- The undo log of a target: the granules it names move with the tile, and so do the words and the identities of logged bindings (R429; log
entry 85). -/
def rewriteUndo (s : State) (m : Moves) (u : Nat) : State :=
  (List.range (getTile s u).undo).foldl (fun s k =>
    let e := u * tlmWindow + undoOff + 80 * k
    let g := memLE s.mem e 8
    let at_ (o : Nat) : Nat := mvA m (memLE s.mem (e + o) 8)
    if 2 ^ 63 ≤ g then
      { s with mem := memPut (memPut (memPut s.mem e 8 (2 ^ 63 + mvA m (g - 2 ^ 63))) (e + 8) 8 (at_ 8)) (e + 16) 8 (at_ 16) }
    else if 2 ^ 62 ≤ g then { s with mem := memPut s.mem e 8 (undoArming u) }
    else { s with mem := memPut s.mem e 8 (mvPa m g) }) s

/-! ### Page tables (step 7) -/

/-- Listed entries with P set of a table of `n` entries. -/
def listedPtes (s : State) (base n : Nat) : List Nat :=
  (s.mem.filter fun c => decide (base ≤ c.1) && decide (c.1 < base + 8 * n) && (c.1 - base) % 8 == 0 && c.2.getLsbD 0).map (·.1)

/-- Leaf entries of a tenant's tables: address and level. -/
def leafPtes (s : State) (root : Word) : List Nat :=
  if !bit root 0 then []
  else
    (listedPtes s (bits root 51 9 * 512) 64).flatMap fun a1 =>
      let e1 := dwAt s a1
      if pteMalformed e1 1 then []
      else (listedPtes s (bits e1 51 16 * 2 ^ 16) 8192).flatMap fun a2 =>
        let e2 := dwAt s a2
        if pteMalformed e2 2 then []
        else if bit e2 1 then [a2]
        else (listedPtes s (bits e2 51 16 * 2 ^ 16) 8192).filter fun a3 => !pteMalformed (dwAt s a3) 3

/-- A frame in a moved window goes to the same offset of the new one. -/
def mvFrame (m : Moves) (e : Word) : Word :=
  let pa := bits e 51 16 * 2 ^ 16
  if inTlm pa then setBits e 51 16 ((mvT m (pa / tlmWindow) * tlmWindow + pa % tlmWindow) / 2 ^ 16) else e

def rewritePtes (s : State) (m : Moves) (root : Word) : State :=
  (leafPtes s root).foldl (fun s a => putDw s a (mvFrame m (dwAt s a))) s

/-! ### The operations -/

/-- The region of a segment's map registers, when it is a live root anchored there. -/
def mapRoot (s : State) (g : Nat) : Option Nat :=
  let r := bits (getSeg s g).mapRcb 51 8 * 256
  if liveRegion s r && rcbParent s r == 0 && faceSeg (anchorTile r) == g then some r else none

/-- An operation is done: BUSY clears, FRZ and STATUS are written. -/
def mapDone (s : State) (g : Nat) (frz : Bool) (st : Nat) : State :=
  modSeg s g fun k => { k with mapOp := setBits (setBits (setBits k.mapOp 63 63 0) 62 62 (b2n frz)) 15 8 st }

def mapBusy (s : State) (g op : Nat) : Bool := bit (getSeg s g).mapOp 63 && bits (getSeg s g).mapOp 1 0 == op
def mapFrz (s : State) (g : Nat) : Bool := bit (getSeg s g).mapOp 62

/-- FREEZE's eligibility (R378). -/
def freezable (s : State) (r : Nat) : Bool :=
  rcbState s r == 1 || (regionTiles s r).any fun t => (getSite s (siteOf t)).st == .draining

/-- A message already resolved to a place of the tree is on its way. -/
def resolvedInFlight (s : State) (r : Nat) : Bool :=
  s.msgs.any fun x => match x with
    | .spawn y => inTree s r y.rcb
    | .migrate y => (match getProc s y.wptr with | some p => inTree s r p.rcb | none => false)
    | _ => false

/-- The region named has gone since the operation began: aborted (status 5), or never eligible (1). -/
def mapRootGone (s : State) (g : Nat) : Nat :=
  if rcbState s (bits (getSeg s g).mapRcb 51 8 * 256) == 4 then 5 else 1

/-- MAP_FREEZE (R378): it completes once every resolved message has been delivered. -/
def execMapFreeze (g : Nat) (s : State) : Host.Outcome State Fault Refusal :=
  if g < 192 && mapBusy s g 1 then
    match mapRoot s g with
    | none => .next (mapDone s g false (mapRootGone s g))
    | some r =>
      if (getRegion s r).frozen || freezable s r then
        let s := modRegion s r fun x => { x with frozen := true }
        if resolvedInFlight s r then .next s else .next (mapDone s g true 0)
      else .next (mapDone s g false 1)
  else .next s

/-- A thaw: held resolutions re-execute. -/
def thawRegion (s : State) (r : Nat) : State :=
  retryWhere (modRegion s r fun x => { x with frozen := false }) fun i => i == .frozen r

/-- MAP_THAW (R378). -/
def execMapThaw (g : Nat) (s : State) : Host.Outcome State Fault Refusal :=
  if g < 192 && mapBusy s g 3 then
    match mapRoot s g with
    | some r => .next (settle (mapDone (thawRegion s r) g false 0))
    | none => .next (mapDone s g false (if mapRootGone s g == 5 then 5 else 0))
  else .next s

/-- Moved logical tiles: those whose TILE changes. -/
def movesOf (s : State) (r : Nat) (new : List (BitVec 32)) : Moves :=
  ((regionTiles s r).zip (new.map mapTile)).filter fun x => x.1 != x.2

/-- T′ holds marks or processes, or is in another root's map (log entry 36). -/
def targetBusy (s : State) (r : Nat) (m : Moves) (u : Nat) : Bool :=
  ((allRcbs s).any fun q => q != r && rcbParent s q == 0 && (regionTiles s q).contains u)
    || (!moved m u && (s.procs.any (fun e => e.1 / tlmWindow == u)
        || s.areas.any fun a => a.lo / tlmWindow == u && a.kind != .sysArea && !(a.kind == .undoLog && a.owner == r)))

/-- The slot of a moved entry is free at T′. -/
def slotFree (s : State) (m : Moves) (key : Nat) : Bool :=
  let k := mvKey m key
  hasQueue (k / 128) (k / 32 % 4) && (moved m (k / 128) || ((entryAt s k).job.isNone && (entryAt s k).taken.isNone))

/-- The checks of step 1; 0 when they hold. -/
def commitStatus (s : State) (r newMap : Nat) (m : Moves) : Nat :=
  let n := rcbLW s r * rcbLH s r
  if !mapValid s (rcbTenant s r) newMap n then 2
  else if m.any fun x => holeBit s (anchorTile r) x.2 || siteLost s x.2 || (getSite s (siteOf x.2)).losing then 4
  else if m.any (fun x => targetBusy s r m x.2) || (movedEntries s m).any (fun e => !slotFree s m e.1) then 3
  else 0

/-- Every process and job of the moved tiles stands at a boundary, its stores acknowledged (R195, R232, R266). -/
def movable (s : State) (m : Moves) : Bool :=
  s.cores.all (fun e => !moved m (coreTile e.1)
      || (e.2.stall.isNone && (e.2.run.isNone || betweenInstrs e.2 || heldForGood s e.1) && e.2.sbuf.isEmpty && e.2.journal.isEmpty))
    && (movedEntries s m).all fun e => match e.2.job with | some j => !(j.st == .running && (j.inFlight || j.last)) | none => true

/-- Steps 2 to 8 of R378. -/
def applyMoves (s : State) (r : Nat) (new : List (BitVec 32)) (m : Moves) : State :=
  let root := ptrootOf s (anchorTile r) (rcbTenant s r)
  let tree := (treeOf s r).map (mvA m)
  let s := tick s
  let s := retryWhere s fun i => match i with | .queue k => moved m (k / 4) | .guard t _ => moved m t | _ => false
  let s := m.foldl (fun s x => quietTile s x.1) s
  let chains := waiterQueues s
  let s := moveTables (renameAll (copyTiles s m) m) m
  let s := moveJobs (moveCores s m) m
  let s := tree.foldl (fun s q => rewriteRcb s m q) s
  let s := m.foldl (fun s x => rewriteUndo s m x.2) s
  let s := chains.foldl (fun s c => setChain s (mvA m c.1) (c.2.map (mvA m))) s
  let s := rewritePtes s m root
  let s := dropCopies (invalidate s (fun _ => true) allSegs (rcbTenant s (mvA m r)) 0 3) fun t => m.any fun p => p.2 == t
  let pm := rcbPmap s (mvA m r)
  (new.zip (List.range new.length)).foldl (fun s x => { s with mem := memPut s.mem (pm + 4 * x.2) 4 x.1.toNat }) s

/-- MAP_COMMIT (R378). -/
def execMapCommit (g : Nat) (s : State) : Host.Outcome State Fault Refusal :=
  if g < 192 && mapBusy s g 2 then
    if !mapFrz s g then .next (mapDone s g false 1)
    else
      match mapRoot s g with
      | none => .next (mapDone s g false 5)
      | some r =>
        if !(getRegion s r).frozen then .next (mapDone s g false 1)
        else
        let newMap := bits (getSeg s g).newMap 51 6 * 64
        let new := mapWordsAt s newMap (rcbLW s r * rcbLH s r)
        let m := movesOf s r new
        let st := commitStatus s r newMap m
        if st != 0 then .next (mapDone s g true st)
        else if !movable s m then .next s
        else .next (settle (mapDone (thawRegion (applyMoves s r new m) (mvA m r)) g false 0))
  else .next s

end Sys2Proof.Machine
end

