-- ==== Sys2Proof/Machine/Mgmt.lean ====
section
/-! DEFINITION. The panel management controller: bring-up (R422 to R424), scrubbing (R156, R425), the management ports (R385, R406,
R432) and the coolant alert (R433). -/

namespace Sys2Proof.Machine

def modPmc (s : State) (f : Pmc → Pmc) : State := { s with pmc := f s.pmc }

/-! ### Bring-up -/

/-- What the PMC senses of a site at power-on (R365, R422): its clamp and pin; everything else is as after reset. -/
def sensedSite (k : Site) : Site :=
  { Site.reset with
    clampClosed := k.clampClosed, clampLocked := k.clampLocked, pinClosed := k.pinClosed
    st := if k.clampClosed && k.pinClosed then .seated else .empty }

/-- The next power-on of a panel that has run (R422, R423): every volatile store and unit is as after reset. PMC flash, the modules in their
sites and the hosts' own memory remain (log entry 91). -/
def powerCycle (s : State) : State :=
  { State.reset with
    pmc := { Pmc.reset with inputGood := true, stage := 1, flashA := s.pmc.flashA, flashB := s.pmc.flashB }
    sites := s.sites.map fun (e : Nat × Site) => (e.1, sensedSite e.2)
    hosts := { s.hosts with pending := [], writes := [] }
    order := s.order, nonce := s.nonce, turns := s.turns, agenda := s.agenda }

/-- POWER_ON (R422): the PMC leaves reset, and stage 1 is entered; a panel that has run starts anew. -/
def execPowerOn (s : State) : Host.Outcome State Fault Refusal :=
  if s.pmc.inputGood then .next (powerCycle s) else .next (modPmc s fun p => { p with inputGood := true, stage := 1 })

/-- An entry of the fabric table: V and PORTS, every other bit zero (R385). -/
def fabricWord (v : Word) : Word := word (b2n (bit v 63) * 2 ^ 63 + bits v 11 0)

/-- PANELID and the fabric table of the flash configuration; without one, PANELID is 0 and no entry is valid (R385). -/
def loadConfig (r : BootReport) (p : Pmc) : Pmc :=
  match r.config with
  | none => { p with panelid := 0, fabric := [] }
  | some (n, l) => { p with panelid := n % 256, fabric := (l.filter fun e => decide (e.1 < 256)).foldl (fun m e => amSet m e.1 (fabricWord e.2)) [] }

/-- Stage 2 is done: the image of slot A boots, or else that of slot B, and the configuration is loaded; with both rejected the PMC stays in
recovery (R385, R422 to R424). -/
def bootSlots (s : State) (r : BootReport) : State :=
  if r.slotA then { modPmc s fun p => { loadConfig r p with slot := 0, fault := 0, stage := 3, image := p.flashA } with time := 0 }
  else if r.slotB then { modPmc s fun p => { loadConfig r p with slot := 1, fault := 1, stage := 3, image := p.flashB } with time := 0 }
  else modPmc s fun p => { p with fault := 2 }

/-- Bit s of ADM: the site is admitted. -/
def admBits (s : State) : BitVec 12 :=
  (List.range 12).foldl (fun b n => if (getSite s n).st == .admitted then b ||| (1#12 <<< n) else b) 0

/-- Every segment with power receives its image, and its system processes start (R15, R422). -/
def startSegments (s : State) : State := (allSegs.filter fun z => (getSeg s z).powered).foldl startSegment s

/-- Stage 4 is done: segments whose image failed power down and are counted; the others have started. -/
def bootSegments (s : State) (r : BootReport) : State :=
  let bad := r.failedSegs.eraseDups.filter fun z => decide (z < 192) && (getSeg s z).powered
  let s := startSegments (bad.foldl segDown s)
  modPmc s fun p => { p with darkseg := bad.length, fault := if bad.isEmpty then p.fault else 3, stage := 5 }

/-- A segment is rebooted by stages 4 and 5: it receives its image again, and its pager and handlers start; one whose image fails powers down
and is counted (R422, R427). -/
def rebootSegment (s : State) (r : BootReport) : State :=
  match s.pmc.reboots with
  | [] => s
  | z :: l =>
    let s := modPmc s fun p => { p with reboots := l }
    if !(getSeg s z).powered then s
    else if r.failedSegs.contains z then modPmc (segDown s z) fun p => { p with darkseg := p.darkseg + 1, fault := 3 }
    else startSegment s z

/-- BOOT_STAGE (R422, R427): the stage under way is done and the next is entered. -/
def execBootStage (r : BootReport) (s : State) : Host.Outcome State Fault Refusal :=
  match s.pmc.stage with
  | 1 => .next (modPmc s fun p => { p with stage := 2 })
  | 2 => if s.pmc.fault == 2 then .next s else .next (bootSlots s r)
  | 3 => .next (modPmc s fun p => { p with adm := admBits s, stage := 4 })
  | 4 => .next (bootSegments s r)
  | 5 => .next (modPmc s fun p => { p with stage := 6 })
  | _ => .next (rebootSegment s r)

/-! ### Scrubbing -/

/-- The address lies in the store that a scrubber passes over. -/
def scrubbed : ScrubStore → Nat → Bool
  | .tlm t, a => inTlm a && a / tlmWindow == t
  | .acc t, a => spaceOf a == 1 && spaceOff a / 0x200000 == t
  | .top t, a => spaceOf a == 2 && spaceOff a / 0x800000 == t
  | .hbm m, a => spaceOf a == 4 && spaceOff a / 0x8000000000 == m

/-- SCRUB_PASS (R156, R425): every correctable word is corrected, and counted by its tile or its stack controller (R154). -/
def execScrubPass (store : ScrubStore) (s : State) : Host.Outcome State Fault Refusal :=
  let hit := s.weak.filter (scrubbed store)
  let s := { s with weak := s.weak.filter fun a => !scrubbed store a }
  .next (hit.foldl countCe s)

/-! ### The management ports -/

/-- MGMT_READ (R406, R432): a 32-bit read through a port. -/
def execMgmtRead (port : Reader) (pa : Nat) (s : State) : Host.Outcome State Fault Refusal :=
  if spaceOf pa == 15 && pa % 4 == 0 && !recovering s then
    let (v, s) := devRead s port pa 4
    .next (modPmc s fun p => { p with replies := BitVec.ofNat 32 v :: p.replies })
  else .next s

/-- A request that changes state: refused with CST 2 when it is not signed (R432); in recovery only an upload is served (R422). -/
def signedRequest (s : State) (signed upload : Bool) (f : State → State) : State :=
  if signed && !upload && recovering s then s
  else
  let r := if signed then f s else s
  modPmc r fun p => { p with csts := (if signed then 0 else 2) :: p.csts }

/-- FIRMWARE_UPLOAD (R423): the image goes to the slot that did not boot. -/
def execFirmwareUpload (image : List Byte) (signed : Bool) (s : State) : Host.Outcome State Fault Refusal :=
  .next (signedRequest s signed true fun s =>
    modPmc s fun p => if p.slot == 0 then { p with flashB := image } else { p with flashA := image })

/-- PANELID_WRITE (R385). -/
def execPanelidWrite (v : Word) (signed : Bool) (s : State) : Host.Outcome State Fault Refusal :=
  .next (signedRequest s signed false fun s => modPmc s fun p => { p with panelid := bits v 7 0 })

/-- FABRIC_TABLE_WRITE (R385). -/
def execFabricTableWrite (n : Nat) (v : Word) (signed : Bool) (s : State) : Host.Outcome State Fault Refusal :=
  .next (signedRequest s signed false fun s =>
    if n < 256 then modPmc s fun p => { p with fabric := amSet p.fabric n (fabricWord v) } else s)

/-- TELEMETRY_SAMPLE (R432): every THERMn, ZENERGY and MENERGY, and the coolant's readings. -/
def execTelemetrySample (inlet outlet flow : Nat) (s : State) : Host.Outcome State Fault Refusal :=
  let th := allSegs.flatMap fun z => (List.range 16).map fun i => (16 * z + i, ((getSeg s z).therm[i]?).getD 0)
  let ze := allSegs.map fun z => (z, (getSeg s z).zenergy)
  let me := (List.range 12).map fun n => (n, (getSite s n).menergy)
  .next (modPmc s fun p => { p with telemetry := some (inlet, outlet, flow), thermLog := th, zenergyLog := ze, menergyLog := me })

/-- The alert's standing changes, and the PMC reports it on both ports (R433). -/
def reportAlert (s : State) (on : Bool) : State :=
  modPmc s fun p => { p with alert := on, reports := (.ethernet, on) :: (.i3c, on) :: p.reports }

/-- COOLANT_ALERT (R433): boost grants are held at 0. -/
def execCoolantAlert (s : State) : Host.Outcome State Fault Refusal :=
  let s := reportAlert s true
  .next { s with segs := s.segs.map fun (e : Nat × Seg) => (e.1, { e.2 with boost := 0 }) }

/-- COOLANT_ALERT_CLEAR (R433). -/
def execCoolantAlertClear (s : State) : Host.Outcome State Fault Refusal := .next (reportAlert s false)

end Sys2Proof.Machine
end

