-- ==== Sys2Proof/Machine/Power.lean ====
section
/-! DEFINITION. Token pools, revocations, lending, ceilings and regulators (R20, R386 to R402), energy (R405) and the passage of
time (R127, R394, R396, R407, R409). -/

namespace Sys2Proof.Machine

/-! ### Pools (R390, R398, R401) -/

def sumOf (l : List Nat) : Nat := l.foldl (· + ·) 0

def amounts (l : List (Nat × Nat)) : Nat := sumOf (l.map (·.2))

/-- A zone's own pool with `f` failed phases (R401). -/
def ownPool (f : Nat) : Nat := if f ≤ 8 then 4600 * (32 - f) / 32 else 0

/-- POOL as R390 defines it; the register counts tokens until they are free to leave (log entry 37). -/
def nominalPool (g : Seg) : Nat :=
  let p := ownPool g.failed + amounts g.borrowed + g.allowance - amounts g.lent
  if g.clQuarter then p * 3 / 4 else p

/-- Free tokens join or leave the pool. -/
def giveFree (s : State) (z n : Nat) : State := modSeg s z fun k => { k with free := k.free + n, pool := k.pool + n }
def takeFree (s : State) (z n : Nat) : State := modSeg s z fun k => { k with free := k.free - n, pool := k.pool - n }

/-- Take `n` from the entries for a zone, oldest first. -/
def payDown : List (Nat × Nat) → Nat → Nat → List (Nat × Nat)
  | [], _, _ => []
  | (z, a) :: t, w, n =>
    if z == w && 0 < n then (if a ≤ n then payDown t w (n - a) else (z, a - n) :: t) else (z, a) :: payDown t w n

/-- Tokens that leave a zone's pool go to the lenders they are owed to, other zones, in order, then to the core allowance (R20, R395). -/
def payLenders (s : State) (z : Nat) : List (Nat × Nat) → Nat → State
  | [], n => modSeg s z fun k => { k with allowOwed := k.allowOwed - n }
  | (l, a) :: t, n =>
    let x := min a n
    if x == 0 then s
    else
      let s := modSeg s z fun k => { k with owed := payDown k.owed l x }
      let s := modSeg s l fun k => { k with lent := (payDown k.lent.reverse z x).reverse }
      payLenders (giveFree s l x) z t (n - x)

/-- The accounted pool moves toward POOL: free tokens in excess leave, and missing ones join. What leaves goes to the lenders it is owed to,
and once the pool is at POOL all that is owed has left it, scaled by ¾ or not (R390, R391, R395). -/
def balance (s : State) (z : Nat) : State :=
  let k := getSeg s z
  let n := nominalPool k
  let debts := k.owed.filter fun x => x.1 != z
  let all := amounts debts + k.allowOwed
  if n < k.pool then
    let x := min k.free (k.pool - n)
    payLenders (takeFree s z x) z debts (if x == k.pool - n then all else x)
  else payLenders (giveFree s z (n - k.pool)) z debts all

/-! ### Demand (R388, R389) -/

/-- A contribution of a region: capped at its TOKCAP, with its PRIO. -/
def contribution (s : State) (n rcb : Nat) : Nat × Nat :=
  if rcb == 0 then (n, 0) else (min n (rcbTokcap s rcb), rcbPrio s rcb)

/-- The request of a core that is still in force: its region has neither ended nor been aborted (R389). -/
def requestOf (s : State) (c : Nat) : List (Nat × Nat) :=
  match (getCore s c).request with
  | some (n, r) => if r == 0 || (isRcb s r && decide (rcbState s r < 3)) then [contribution s n r] else []
  | none => []

/-- A tile's contributions: the requests of its cores, and each job of the highest class in its queues. -/
def contributions (s : State) (t : Nat) : List (Nat × Nat) :=
  let js := tileJobs s t
  let top := js.foldl (fun m p => max m p.2.cls) 0
  ([0, 1, 2, 3].flatMap fun i => requestOf s (coreNo t i))
    ++ (js.filter fun p => p.2.cls == top).map fun p => contribution s (classNeed p.2.cls) p.2.rcb

/-- TKNEED and the priority of a tile. -/
def demandOf (s : State) (t : Nat) : Nat × Nat :=
  (contributions s t).foldl (fun m x => (max m.1 x.1, max m.2 x.2)) (0, 0)

/-- A core's request ends with its region (R389). -/
def dropRequests (s : State) (t : Nat) : State :=
  [0, 1, 2, 3].foldl (fun s i =>
    if (getCore s (coreNo t i)).request.isSome && (requestOf s (coreNo t i)).isEmpty then modCore s (coreNo t i) fun k => { k with request := none }
    else s) s

def recomputeDemand (s : State) (z : Nat) : State :=
  (segTiles z).foldl (fun s t =>
    let s := dropRequests s t
    let d := demandOf s t
    let k := getTile s t
    if k.tkneed == d.1 && k.demandPrio == d.2 then s else modTile s t fun k => { k with tkneed := d.1, demandPrio := d.2 }) s

/-! ### Targets (R390) -/

/-- λ: the largest integer at which the capped demands fit. -/
def waterLevel (ds : List Nat) (a : Nat) : Nat :=
  ((List.range (ds.foldl max 0 + 1)).reverse.find? fun l => decide (sumOf (ds.map (min l)) ≤ a)).getD 0

/-- One more token to each tile above λ, ascending, until the sum equals A. -/
def topUp (lam : Nat) : List (Nat × Nat) → Nat → List (Nat × Nat)
  | [], _ => []
  | (t, d) :: r, n => if lam < d && 0 < n then (t, lam + 1) :: topUp lam r (n - 1) else (t, min d lam) :: topUp lam r n

/-- Targets of one priority's tiles (tile, demand) from `a` tokens. -/
def shareOut (ts : List (Nat × Nat)) (a : Nat) : List (Nat × Nat) :=
  let ds := ts.map (·.2)
  if sumOf ds ≤ a then ts
  else
    let lam := waterLevel ds a
    topUp lam ts (a - sumOf (ds.map (min lam)))

/-- Targets of a zone, by tile: those with demand 0 are not listed. -/
def targetsOf (s : State) (z : Nat) : List (Nat × Nat) :=
  let all := (segTiles z).map fun t => (t, (getTile s t).tkneed, (getTile s t).demandPrio)
  ([3, 2, 1, 0].foldl (fun (acc : List (Nat × Nat) × Nat) p =>
    let ts := (all.filter fun x => x.2.2 == p && decide (0 < x.2.1)).map fun x => (x.1, x.2.1)
    let out := shareOut ts acc.2
    (acc.1 ++ out, acc.2 - amounts out)) ([], nominalPool (getSeg s z))).1

def targetOf (l : List (Nat × Nat)) (t : Nat) : Nat := ((l.find? fun x => x.1 == t).map (·.2)).getD 0

/-! ### Revocations (R391 to R393) -/

/-- A tile stops holding tokens, which are free. -/
def freeTokens (s : State) (z t held : Nat) : State :=
  let n := (getTile s t).tkheld - held
  modSeg (modTile s t fun k => { k with tkheld := held }) z fun k => { k with free := k.free + n }

/-- A revocation to `pendh` with a notice meets one that is pending (R393). -/
def revokeTo (s : State) (t pendh notice : Nat) (urgent : Bool) : State :=
  let at_ := s.time.toNat + notice
  modTile s t fun k =>
    match k.revoke with
    | some v =>
      if urgent then { k with revoke := some ⟨min v.pendh pendh, min v.deadline at_, true⟩ }
      else { k with revoke := some { v with pendh := pendh } }
    | none => { k with revoke := some ⟨pendh, at_, urgent⟩ }

/-- The part of R391 that takes tokens from a tile or revokes them. -/
def takeStep (s : State) (z t target notice : Nat) (urgent : Bool) : State :=
  let k := getTile s t
  if k.tkheld ≤ target then (if k.revoke.isSome then modTile s t fun k => { k with revoke := none } else s)
  else
    let s := if k.tkneed < k.tkheld then freeTokens s z t (max target k.tkneed) else s
    if (getTile s t).tkheld ≤ target then modTile s t fun k => { k with revoke := none }
    else revokeTo s t target notice urgent

/-- The part of R391 that grants, from FREE. -/
def grantStep (s : State) (z t target : Nat) : State :=
  let h := (getTile s t).tkheld
  let n := min (target - h) (getSeg s z).free
  if n == 0 then s
  else modSeg (modTile s t fun k => { k with tkheld := h + n }) z fun k => { k with free := k.free - n }

/-- The Tender's comparison of targets and holdings (R391); engines meet the new levels (R387). -/
def tender (s : State) (z notice : Nat) (urgent : Bool) : State :=
  let ts := targetsOf s z
  let s := (segTiles z).foldl (fun s t => takeStep s z t (targetOf ts t) notice urgent) s
  let s := balance s z
  levelFalls ((segTiles z).foldl (fun s t => grantStep s z t (targetOf ts t)) s)

/-- Revoke every holding of a zone with 200 ns notice (R401, R402). -/
def revokeAll (s : State) (z : Nat) : State :=
  (segTiles z).foldl (fun s t => if (getTile s t).tkheld == 0 then s else revokeTo s t 0 200 true) s

/-! ### Ceilings -/

/-- The zone has an active ceiling at this instant. -/
def noteCeiling (s : State) (z : Nat) : State := modSeg s z fun k => { k with ceilingSeen := k.ceilingSeen || k.cl < 7 || k.th < 7 }

/-- The current-limit ceiling at the end of an interval (R399). -/
def stepCurrent (k : Seg) : Seg :=
  let cl := if k.cl == 7 then 7 else if k.clOver then k.cl - 1 else if k.clSeen && !k.clHigh then k.cl + 1 else k.cl
  { k with cl := cl, clQuarter := k.clQuarter && cl != 7, clOver := false, clHigh := false, clSeen := false }

/-- CONTROL_INTERVAL (R388, R390, R391, R399). -/
def execControlInterval (z : Nat) (s : State) : Host.Outcome State Fault Refusal :=
  if z < 192 && (getSeg s z).powered then
    let s := modSeg s z stepCurrent
    let s := modSeg s z fun k => { k with ceilingPrev := k.ceilingSeen, ceilingSeen := k.cl < 7 || k.th < 7 }
    .next (tender (balance (recomputeDemand s z) z) z 2000 false)
  else .next s

/-- REVOCATION_DEADLINE (R392, R394): TKHELD becomes PENDH, and the power monitor is armed. -/
def execRevocationDeadline (t : Nat) (s : State) : Host.Outcome State Fault Refusal :=
  match segOf t, (getTile s t).revoke with
  | some z, some v =>
    if v.deadline ≤ s.time.toNat then
      let s := freeTokens s z t (min (getTile s t).tkheld v.pendh)
      .next (levelFalls (balance (modTile s t fun k => { k with revoke := none, monArmed := true, monOver := 0, monUnder := 0, monCalm := 0 }) z))
    else .next s
  | _, _ => .next s

/-- One sample of a tile's power against its holding (R394). -/
def samplePower (k : Tile) (mw : Nat) : Tile :=
  let exc := decide (11 * (50 * k.tkheld) < 10 * mw)
  let under := decide (mw < 50 * k.tkheld)
  let o := if exc then k.monOver + 1 else 0
  let u := if under then k.monUnder + 1 else 0
  let c := if !exc && k.skip == 0 then k.monCalm + 1 else 0
  let k := { k with monOver := o % 100, monUnder := u % 100, monCalm := c }
  let k := if o == 100 then { k with skip := min 3 (k.skip + 1) } else if u == 100 then { k with skip := 0 } else k
  if 100 ≤ c then { k with monArmed := false, monOver := 0, monUnder := 0, monCalm := 0 } else k

/-- POWER_SAMPLE (R394). -/
def execPowerSample (t mw : Nat) (s : State) : Host.Outcome State Fault Refusal :=
  if isGrid t && (getTile s t).monArmed then .next (modTile s t fun k => samplePower k mw) else .next s

/-- Limit of a zone's rail current, in milliamperes (R399). -/
def currentLimit (k : Seg) : Nat := 16000 * (32 - k.failed)

/-- CURRENT_SAMPLE (R399): an excess sets a ceiling that stands above P4 to P4, and scales POOL at once. -/
def execCurrentSample (z ma : Nat) (s : State) : Host.Outcome State Fault Refusal :=
  if z < 192 && (getSeg s z).powered then
    let k := getSeg s z
    let lim := currentLimit k
    let high := decide (9 * lim ≤ 10 * ma)
    if lim < ma && 4 < k.cl then
      let s := modSeg s z fun k => { k with cl := 4, clQuarter := true, clHigh := true, clSeen := true }
      .next (tender (noteCeiling s z) z 200 true)
    else .next (modSeg s z fun k => { k with clOver := k.clOver || decide (lim < ma), clHigh := k.clHigh || high, clSeen := true })
  else .next s

/-- A register THERMn (R126). -/
def thermWord (x : Option Int) : Word :=
  match x with
  | some v => word (2 ^ 16 + patI v 16)
  | none => 0

/-- The band of a temperature in sixteenths of a degree: ⌊(T − 60)/7.5⌋ in 0 to 7 (R398). -/
def bandOf (t : Int) : Nat := min 7 ((t - 960) / 120).toNat

/-- A band changes only once T has crossed an edge by 2 °C (R398). -/
def stepBand (old : Nat) (t : Int) : Nat :=
  if old < bandOf (t - 32) then bandOf (t - 32)
  else if bandOf (t + 32) < old then bandOf (t + 32)
  else old

/-- The voltage of a grid tile's core rail, in millivolts: what the calibration table signed with its module's identity gives for its
operating point and its segment's band, from 600 to 880 (R398; log entry 83). -/
def tileVoltage (s : State) (t : Nat) : Nat :=
  min 880 (max 600 (Config.calibration (getSite s (siteOf t)).serial t (tilePoint s t) (getSeg s (gridSeg t)).band))

/-- Highest operating point of any tile of a segment. -/
def topPoint (s : State) (z : Nat) : Nat := (segTiles z).foldl (fun m t => max m (tilePoint s t)) 0

/-- The thermal ceiling after a sample of the hottest sensor (R400). -/
def stepThermal (s : State) (z : Nat) (t : Int) : State :=
  let p := topPoint s z
  modSeg s z fun k =>
    if t < 1680 then (if k.th == 7 then { k with thRise := 0 } else if k.thRise == 9 then { k with th := k.th + 1, thRise := 0 } else { k with thRise := k.thRise + 1 })
    else if t < 1728 then { k with thRise := 0 }
    else { k with th := (if k.th == 7 then p else k.th) - 1, thRise := 0 }

/-- THERMAL_SAMPLE (R398, R400). -/
def execThermalSample (z : Nat) (samples : List (Option Int)) (s : State) : Host.Outcome State Fault Refusal :=
  if z < 192 && (getSeg s z).powered then
    let s := modSeg s z fun k => { k with therm := Vector.ofFn fun (i : Fin 16) => thermWord (samples.getD i.val none) }
    match ((samples.take 16).filterMap id).max? with
    | none => .next (sendRecord (noteCeiling (modSeg s z fun k => { k with th := 0, thRise := 0 }) z) z .contact 0 0x100)
    | some t =>
      if 1920 ≤ t then .next (segDown s z)
      else
        let s := modSeg s z fun k => { k with band := stepBand k.band t }
        .next (noteCeiling (stepThermal s z t) z)
  else .next s

/-! ### Arbiters (R20, R395, R397) -/

/-- Demand of a zone, and what POOL meets of it. -/
def zoneDemand (s : State) (z : Nat) : Nat := sumOf ((segTiles z).map fun t => (getTile s t).tkneed)

def zoneUnmet (s : State) (z : Nat) : Nat := zoneDemand s z - nominalPool (getSeg s z)

def zoneIdle (s : State) (z : Nat) : Nat := nominalPool (getSeg s z) - zoneDemand s z

/-- The grant of boost for the next interval (R397, R433). -/
def boostGrant (alert : Bool) (k : Seg) (mw : Nat) : Nat :=
  if alert || k.ceilingPrev then 0 else if mw < 12600000 then 2 else if mw < 13300000 then 1 else 0

/-- Tokens that other zones already owe to `z`. -/
def owedTo (s : State) (z : Nat) : Nat := sumOf (s.segs.map fun e => amounts (e.2.owed.filter fun x => x.1 == z))

/-- The first entry of a pair removed. -/
def eraseLoan (l : List (Nat × Nat)) (x : Nat × Nat) : List (Nat × Nat) := l.erase x

/-- Recall loans of a zone, newest first, while its own demand exceeds what it has and is owed (R395). -/
def recallLoans (s : State) (z : Nat) : List (Nat × Nat) → State
  | [] => s
  | (b, a) :: t =>
    if zoneDemand s z ≤ nominalPool (getSeg s z) + owedTo s z then s
    else if (getSeg s b).borrowed.contains (z, a) then
      recallLoans (modSeg s b fun k => { k with borrowed := eraseLoan k.borrowed (z, a), owed := k.owed ++ [(z, a)] }) z t
    else recallLoans s z t

/-- Four-neighbours of a segment in its module. -/
def segNeighbours (z : Nat) : List Nat :=
  let x := z % 16
  let y := z / 16
  ((if y == 0 then [] else [z - 16]) ++ (if x == 0 then [] else [z - 1]) ++ (if x == 15 then [] else [z + 1]) ++ (if y == 11 then [] else [z + 16])).filter
    fun w => segModule w == segModule z

/-- The neighbour with the largest idle share that can lend a block of 100. -/
def bestLender (s : State) (z : Nat) : Option Nat :=
  (segNeighbours z).foldl (fun (b : Option Nat) w =>
    if (getSeg s w).powered && decide (100 ≤ zoneIdle s w) && decide (100 ≤ (getSeg s w).free) then
      (match b with
       | some v => if zoneIdle s v < zoneIdle s w then some w else b
       | none => some w)
    else b) none

/-- Lend blocks of 100 to a zone while it is short (R395). -/
def lendTo (s : State) (z : Nat) : Nat → State
  | 0 => s
  | n + 1 =>
    if zoneUnmet s z == 0 then s
    else
      match bestLender s z with
      | none => s
      | some w =>
        let s := modSeg (takeFree s w 100) w fun k => { k with lent := (z, 100) :: k.lent }
        lendTo (modSeg (giveFree s z 100) z fun k => { k with borrowed := (w, 100) :: k.borrowed }) z n

/-- Blocks of the core allowance lent to zones that are still short. -/
def allowTo (s : State) (z : Nat) : Nat → State
  | 0 => s
  | n + 1 => if zoneUnmet s z == 0 then s else allowTo (modSeg (giveFree s z 100) z fun k => { k with allowance := k.allowance + 100 }) z n

/-- Allowance tokens out to the module's zones: lent, or recalled and not yet free (R20). -/
def allowanceOut (s : State) (m : Nat) : Nat := sumOf ((moduleSegs m).map fun z => (getSeg s z).allowance + (getSeg s z).allowOwed)

/-- Allowance tokens lent and not recalled. -/
def allowanceLent (s : State) (m : Nat) : Nat := sumOf ((moduleSegs m).map fun z => (getSeg s z).allowance)

/-- Take back allowance blocks above what is left, from the highest zone down: their tokens stay out until they are free (R395). -/
def recallAllowance (s : State) (zs : List Nat) (exc : Nat) : State :=
  (zs.foldl (fun (p : State × Nat) z =>
    let x := min (getSeg p.1 z).allowance ((p.2 + 99) / 100 * 100)
    (modSeg p.1 z fun k => { k with allowance := k.allowance - x, allowOwed := k.allowOwed + x }, p.2 - x)) (s, exc)).1

/-- Unused core allowance of a module in tokens, in blocks of 100 (R20). -/
def allowanceOf (alert : Bool) (coreMw : Nat) : Nat := if alert then 0 else (1900000 - coreMw) / 50 / 100 * 100

/-- ARBITER_STEP (R20, R395, R397, R433). -/
def execArbiterStep (m mw coreMw : Nat) (s : State) : Host.Outcome State Fault Refusal :=
  if m < 4 then
    let zs := (moduleSegs m).filter fun z => (getSeg s z).powered
    let s := { s with pmc := { s.pmc with modPower := amSet s.pmc.modPower m mw } }
    let s := zs.foldl (fun s z => modSeg s z fun k => { k with boost := boostGrant s.pmc.alert k mw }) s
    let s := zs.foldl (fun s z => recallLoans s z (getSeg s z).lent) s
    let cap := allowanceOf s.pmc.alert coreMw
    let s := recallAllowance s zs.reverse (allowanceLent s m - cap)
    let s := zs.foldl (fun s z => lendTo s z (zoneUnmet s z)) s
    .next (zs.foldl (fun s z => allowTo s z ((cap - allowanceOut s m) / 100)) s)
  else .next s

/-! ### Regulators (R401, R402) -/

/-- PHASE_FAILURE (R401). -/
def execPhaseFailure (z : Nat) (s : State) : Host.Outcome State Fault Refusal :=
  if z < 192 && (getSeg s z).powered && decide ((getSeg s z).failed < 32) then
    let f := (getSeg s z).failed + 1
    let s := modSeg s z fun k => { k with failed := f }
    let s := sendRecord s z .tokenflt 1 (word f)
    if f ≤ 8 then .next s
    else if f == 9 then
      let s := modSeg s z fun k => { k with th := 0, thRise := 0, window := some (s.time.toNat + 100000) }
      .next (revokeAll (noteCeiling s z) z)
    else .next (segDown s z)
  else .next s

/-- PHASE_WINDOW_END (R401). -/
def execPhaseWindowEnd (z : Nat) (s : State) : Host.Outcome State Fault Refusal :=
  match (getSeg s z).window with
  | some w => if w ≤ s.time.toNat then .next (segDown s z) else .next s
  | none => .next s

/-- TOKEN_FAULT (R402): the record, the revocation of every holding, and POOL from its phases and loans. TVAL is not stated (log
entry 22). -/
def execTokenFault (z : Nat) (s : State) : Host.Outcome State Fault Refusal :=
  if z < 192 && (getSeg s z).powered then
    let (v, s) := openTval s
    let s := revokeAll (sendRecord s z .tokenflt 2 v) z
    let held := sumOf ((segTiles z).map fun t => (getTile s t).tkheld)
    .next (modSeg s z fun k => { k with free := nominalPool k - held, pool := nominalPool k - held + held })
  else .next s

/-! ### Energy (R405) -/

/-- Add to an energy counter: modulo 2^48, with a sticky WRAP in bit 63. -/
def addEnergy (v : Word) (n : Nat) : Word :=
  let t := bits v 47 0 + n
  word (b2n (bit v 63 || decide (2 ^ 48 ≤ t)) * 2 ^ 63 + t % 2 ^ 48)

/-- ENERGY_UPDATE (R405). -/
def execEnergyUpdate (m : Meter) (n : Nat) (s : State) : Host.Outcome State Fault Refusal :=
  match m with
  | .tile t => if t < allTiles then .next (modTile s t fun k => { k with energy := addEnergy k.energy n }) else .next s
  | .zone z => if z < 192 then .next (modSeg s z fun k => { k with zenergy := addEnergy k.zenergy n }) else .next s
  | .site i => if i < 12 then .next (modSite s i fun k => { k with menergy := addEnergy k.menergy n }) else .next s

/-! ### Time (R127, R218, R394, R396, R409) -/

/-- Tenths of a gigahertz at each operating point (R396). -/
def freqTenths (p : Nat) : Nat := [20, 24, 28, 32, 36, 40, 42, 44].getD p 40

/-- Tiles whose cores do not receive four clocks a nanosecond. -/
def offTiles (s : State) : List Nat :=
  let ts := s.cores.map (fun e => coreTile e.1) ++ (s.tiles.filter fun e => e.2.skip != 0).map (·.1)
    ++ (s.segs.filter fun e => decide (ceilingOf e.2 < 5)).flatMap fun e => segTiles e.1
  ts.eraseDups.filter fun t => corePowered s (coreNo t 0) && (tilePoint s t != 5 || (getTile s t).skip != 0)

/-- Every core of those tiles is listed, so that its own clock count is kept. -/
def listOffCores (s : State) : State :=
  (offTiles s).foldl (fun s t => [0, 1, 2, 3].foldl (fun s i => if (amGet s.cores (coreNo t i)).isSome then s else putCore s (coreNo t i) Core.reset) s) s

/-- Clocks a core receives, and those suppressed, in the nanosecond, with the remainders in fortieths. -/
def coreClocks (s : State) (c : Nat) (k : Core) : Nat × Nat × Nat × Nat :=
  let t := coreTile c
  let f := freqTenths (tilePoint s t)
  let k4 := (getTile s t).skip
  let a := k.clkRem + f * (4 - k4)
  let b := k.supRem + f * k4
  (a / 40, a % 40, b / 40, b % 40)

/-- What a core counts in a nanosecond in which it receives `n` clocks and `m` are suppressed (R407). -/
def countClocks (k : Core) (n m : Nat) (wqueue : Bool) : Core :=
  let k := countEvent 0x01 n k
  let k := if k.wfi then countEvent 0x0C n k else k
  let full := k.bufStall && k.run.isSome && decide (16 ≤ k.sbuf.length)
  let k := if full then countEvent 0x07 n k else k
  let k := if full && decide (32 ≤ k.journal.length) then countEvent 0x08 n k else k
  let k := if wqueue then countEvent 0x0E n k else k
  countEvent 0x11 m k

/-- A process of the core is in WQUEUE. -/
def inWqueue (s : State) (c : Nat) : Bool := s.procs.any fun e => e.2.core == c && pstate s e.1 == 8

/-- One core's nanosecond; a core without power receives no clocks (R127). -/
def tickCore (s : State) (c : Nat) (k : Core) : Core :=
  if !corePowered s c then k
  else
  let (n, r, m, q) := coreClocks s c k
  let k := { k with clkRem := r, supRem := q, cycleOff := k.cycleOff + word n - 4 }
  let k := countClocks k n m (inWqueue s c)
  match k.run with
  | some x => if x.hp then k else { k with run := some { x with slice := x.slice - n } }
  | none => k

/-- Clocks that core `c` receives in this nanosecond. -/
def clocksNow (s : State) (c : Nat) : Nat :=
  if !corePowered s c then 0
  else
  match amGet s.cores c with
  | some k => (coreClocks s c k).1
  | none => 4

/-- The panel a nanosecond later. -/
def tickPanel (s : State) : State :=
  let s := listOffCores s
  let procs := s.procs.map fun (e : Nat × Proc) =>
    (e.1, if isWaiting (pstate s e.1) then { e.2 with waitClocks := e.2.waitClocks + clocksNow s e.2.core } else e.2)
  let regions := s.regions.map fun (e : Nat × Region) =>
    (e.1, if regionStalled s e.1 then { e.2 with stallClocks := e.2.stallClocks + clocksNow s (coreNo (anchorTile e.1) 0) }
      else { e.2 with stallClocks := 0 })
  let cores := s.cores.map fun (e : Nat × Core) => (e.1, tickCore s e.1 e.2)
  { s with procs := procs, regions := regions, cores := cores, time := s.time + 1, clocks := s.clocks + 4 }

/-! ### What arises by itself: soft errors, prefetches, broadcasts under way -/

/-- A cell of a store that the panel has: 8-byte words of TLM, accumulators and top tier, 16-byte codes of HBM (R154, R156). -/
def isCell (s : State) (pa : Nat) : Bool :=
  (homeTile pa).isSome && spaceOf pa != 15 && !neverPopulated (isDark s) pa

/-- A corrected error of a core (R407, R425): CECNT of its tile, and the core's own event. -/
def coreCorrects (s : State) (c : Nat) : State := modCore (addCe s (coreTile c)) c (countEvent 0x10 1)

/-- The line holds stores on their way to another segment: it is dirty (R158; log entry 18). -/
def dirtyIn (c pa : Nat) (e : JEnt) : Bool := !e.rf && !inSegment c e.store.pa && e.store.pa / 32 == pa / 32

/-- An error in an L1 line: in a clean one parity finds it, and the line is refetched; in a dirty one a single error is corrected, and with
two the line is written back poisoned (R158, R425, R426). -/
def lineError (s : State) (c pa : Nat) (double : Bool) : State :=
  let k := getCore s c
  if !k.journal.any fun e => dirtyIn c pa e.2 then modCore s c fun k => { k with l1d := k.l1d.filter fun x => x.addr != pa / 32 * 32 }
  else if !double then coreCorrects s c
  else modCore s c fun k => { k with journal := k.journal.map fun e => (e.1, if dirtyIn c pa e.2 then { e.2 with store := { e.2.store with poison := true } } else e.2) }

/-- An error in a doubleword that a slot of the core holds (R425). -/
def slotError (s : State) (c a : Nat) (double : Bool) : State :=
  let hit := match snoopOf s a with
    | some (.reg k _ _) => k == c
    | some (.csr k _ _) => k == c
    | _ => false
  if !hit then s else if double then spoilSlot s a else coreCorrects s c

/-- A soft error (R83, R98, R154, R156, R158, R425): a second correctable error in a code makes it uncorrectable; an L2 block, which is never
dirty, and a word of an instruction cache are refetched; an error in the matrix array falls on its next granule. -/
def softError (s : State) : Config.SoftError → State
  | .cell pa double =>
    let a := pa / codeUnit pa * codeUnit pa
    if !isCell s pa then s
    else if double || s.weak.contains a then { s with bad := setInsert s.bad a, weak := setErase s.weak a }
    else if s.bad.contains a then s
    else { s with weak := setInsert s.weak a }
  | .line c pa double => if (amGet s.cores c).isSome then lineError s c pa double else s
  | .slot c pa double => if (amGet s.cores c).isSome then slotError s c (pa / 8 * 8) double else s
  | .block g pa => if (amGet s.l2 g).isSome then dropL2 s g pa else s
  | .code c pa => if (amGet s.cores c).isSome then modCore s c fun k => { k with l1i := k.l1i.filter fun x => x.addr != pa } else s
  | .array t row col b => if (amGet s.tiles t).isSome then modTile s t fun k => { k with engUpset := k.engUpset ++ [(row, col, b)] } else s
  | .result c n => if (amGet s.cores c).isSome then modCore s c fun k => { k with upset := n } else s

/-- Hardware may fill a line that no instruction has asked for (R435): one homed beyond the core's segment, in no hole (log entry
61). -/
def prefetchLine (s : State) (c pa : Nat) : State :=
  if (amGet s.cores c).isSome && corePowered s c && inTlm pa && !neverPopulated (isDark s) pa && !inSegment c pa
      && holeCheck s (coreTile c) pa == .clear then fillCopies s c (pa / 8 * 8)
  else s

/-- A site whose hole bit the PMC is changing at every tile (R162, R366, R367): its loss has been detected, or ADMIT or RELEASE is being
carried out; and the value that the bit takes. -/
def holeChange (s : State) (n : Nat) : Option Bool :=
  let k := getSite s n
  if k.losing || (k.busy && k.cmd == 3 && k.st == .quiesced) then some true
  else if k.busy && k.cmd == 1 && k.st == .linked then some false
  else none

/-- The broadcast of a site's hole bit reaches tiles: the ranges are zero before the first bit clears, and a tile's cores drop the lines of
a new hole (R158, R162). -/
def reachSite (s : State) (n : Nat) (ts : List Nat) : State :=
  match holeChange s n with
  | none => s
  | some v =>
    if s.holeSites.getLsbD n == v || ts.isEmpty then s
    else
      let s := if v then s else healRanges s n
      let s := ts.foldl (fun s t => modTile s t fun k => { k with holeAhead := k.holeAhead ||| (1#12 <<< n) }) s
      if v then
        { s with cores := s.cores.map fun (e : Nat × Core) => (e.1, if ts.contains (coreTile e.1) then
            let keep (l : List Copy) : List Copy := l.filter fun x => match homeTile x.addr with | some t => siteOf t != n | none => true
            { e.2 with l1d := keep e.2.l1d, l1i := keep e.2.l1i } else e.2) }
      else s

/-- The same for a segment whose time to power down has come (R161, R401). -/
def reachSeg (s : State) (z : Nat) (ts : List Nat) : State :=
  match (getSeg s z).window with
  | some w =>
    if decide (w ≤ s.time.toNat) && !s.holeSegs.getLsbD z then
      ts.foldl (fun s t => modTile s t fun k => { k with holeSegAhead := k.holeSegAhead ||| (1#192 <<< z) }) s
    else s
  | none => s

/-- A contact group is no longer in the condition of a CONTACT event (R368). -/
def contactClear (s : State) (x : Nat × Nat) : State :=
  if (getSeg s x.1).contactBad.contains x.2 then modSeg s x.1 fun k => { k with contactBad := setErase k.contactBad x.2 } else s

/-- The PMC gives a segment to a tenant, while no region's map names one of its tiles (R381). -/
def grantSegment (s : State) (z tenant : Nat) : State :=
  if z < 192 && tenant < 4096 && (allRcbs s).all fun r => (regionTiles s r).all fun t => segOf t != some z then
    setTenant { s with pmc := { s.pmc with tenants := amSet s.pmc.tenants z tenant } } z tenant
  else s

/-- After a loss or a power-down the PMC computes and installs new tables, and boundary routers hold no message any longer (R383). -/
def newRoutes (s : State) : State :=
  if s.detours.isEmpty then s else { installTables (computeTables s tileList) (fun _ => true) with detours := [] }

/-- What a tick of time brings about by itself (log entries 18, 34, 61, 80 to 82). -/
def arise (s : State) : State :=
  let n := s.nonce
  let s := (Config.softErrors n).foldl softError { s with nonce := n + 1 }
  let s := match Config.prefetch n with | some (c, pa) => prefetchLine s c pa | none => s
  let s := (Config.contactClears n).foldl contactClear s
  let s := match Config.tenantGrant n with | some (z, t) => grantSegment s z t | none => s
  let s := newRoutes s
  let ts := (Config.holeReach n).filter fun t => decide (t < allTiles)
  s.segs.foldl (fun s e => reachSeg s e.1 ts) ((List.range 12).foldl (fun s i => reachSite s i ts) s)

/-- TIME_TICK (R127, R218, R258, R260, R409); records on their way reach the default handlers that wait for one (R342). -/
def execTimeTick (s : State) : Host.Outcome State Fault Refusal :=
  let t := arise (tickPanel s)
  .next (if t.records.isEmpty then t else settle t)

end Sys2Proof.Machine
end

