-- ==== Sys2Proof/Machine/Ring.lean ====
section
/-! DEFINITION. Rings: the RING group (R328 to R336). -/

namespace Sys2Proof.Machine

/-- A ring control block as a step reads it (R328). -/
structure RingCb where
  base : Nat
  cap : Nat
  head : Nat
  commit : Nat
  tail : Nat
  pads : Nat
  padn : Nat
  /-- a must-be-zero field is nonzero -/
  mbz : Bool
deriving DecidableEq, Repr

def ringAt (s : State) (pa : Nat) : RingCb :=
  let w (i : Nat) : Word := dwAt s (pa + 8 * i)
  ⟨bits (w 0) 47 0, bits (w 1) 15 0, (w 2).toNat, (w 3).toNat, (w 4).toNat, bits (w 5) 63 16, bits (w 5) 15 0,
    bits (w 0) 63 48 != 0 || bits (w 1) 63 16 != 0 || w 6 != 0 || w 7 != 0⟩

/-- Free granules, CAP − (TAIL − HEAD). -/
def RingCb.free (k : RingCb) : Nat := (word k.cap - (word k.tail - word k.head)).toNat

/-- Distance from HEAD to the outstanding pad. -/
def RingCb.padDist (k : RingCb) : Nat := (k.pads + 2 ^ 48 - k.head % 2 ^ 48) % 2 ^ 48

/-- The contiguous published run at HEAD (R335). -/
def RingCb.run (k : RingCb) : Nat :=
  let n := min (k.commit - k.head) (k.cap - k.head % k.cap)
  let n := if k.padn == 0 then n else min n k.padDist
  min n 65535

/-- Virtual address of the granule of a count (R329). -/
def RingCb.granule (k : RingCb) (c : Nat) : Nat := k.base + 64 * (c % k.cap)

/-- A handle (R330). -/
def RingCb.handle (k : RingCb) (n c : Nat) : Word := word (n * 2 ^ 48 + k.granule c % 2 ^ 48)

/-- A field of the block written at its home. -/
def putRing (s : State) (pa i v : Nat) (rel : Bool) (r : Running) : State := performWrite s (pa + 8 * i) 8 v none rel r.rcb

/-- R331: the checks, and one step at the block's home port, ordered as an AMO is (R211). -/
def ringStep (s : State) (c : Nat) (r : Running) (ea : Word) (k : State → Nat → RingCb → State) : State :=
  match memCheck s c r ea 8 .write .block false with
  | (s, .ok pa _) =>
    if spaceOf pa != 0 then trapHere s r .prot ea
    else if !(getCore s c).sbuf.isEmpty || !segStoresDone s c || ownStoresOver s c pa 64 then holdHere s
    else atPort s c r pa 64 fun s =>
      if uncorrectable s pa 64 then takeEccu s r.wptr none
      else
        let s := dropCopiesOver (correctAt (noteMsg s c (pa / tlmWindow)) c pa 64) c pa 64
        k s pa (ringAt s pa)
  | (s, .trap .far) => trapHere s r .prot ea
  | (s, .trap x) => trapHere s r x ea
  | (s, .lost) => takeTrap s r.wptr .sitelost 0 ea 0 false
  | (s, .fault tn m) => pageWait s c r ea tn .write m
  | (s, .ecc) => takeEccu s r.wptr none

/-- Wait in WADDR for the next notice of the block; the instruction re-executes (R331). -/
def ringWait (s : State) (c : Nat) (r : Running) (ea : Word) (pa arg : Nat) : State := watchAndWait s c r ea pa 64 6 arg .retry

/-- RBINIT (R332). -/
def execRbinit (d a : Reg) (s : State) : Host.Outcome State Fault Refusal :=
  onCore s fun c r =>
    ringStep s c r (src s c r a) fun s pa k =>
      if k.mbz || k.base % 64 != 0 || k.cap == 0 then finish s c r d 1
      else
        let s := [2, 3, 4, 5].foldl (fun s i => putRing s pa i 0 false r) s
        finish s c r d 0

/-- A claim of counts from `c0` succeeds (R333). -/
def claimed (s : State) (c : Nat) (r : Running) (d : Reg) (k : RingCb) (n c0 : Nat) : State :=
  finish (acquireDone s c .panel) c r d (k.handle n c0)

/-- RBCLAIM (R333). -/
def ringClaim (nb : Bool) (d a b : Reg) (s : State) : Host.Outcome State Fault Refusal :=
  onCore s fun c r =>
    let n := (src s c r b).toNat
    ringStep s c r (src s c r a) fun s pa k =>
      let fin := k.cap - k.tail % k.cap
      if n == 0 || decide (k.cap < n) then trapHere s r .ringsize (word n)
      else if n ≤ fin ∧ n ≤ k.free then claimed (putRing s pa 4 (k.tail + n) false r) c r d k n k.tail
      else if fin < n ∧ k.head = k.tail then
        let s := putRing s pa 2 (k.head + fin) false r
        let s := putRing s pa 3 (k.commit + fin) false r
        claimed (putRing s pa 4 (k.tail + fin + n) false r) c r d k n (k.tail + fin)
      else if fin < n ∧ n + fin ≤ k.free then
        access s c r (word (k.granule k.tail)) 8 .write .block false fun s ma _ => atPort s c r ma 8 fun s =>
          let s := performWrite s ma 8 (0xFFFF000000000000 + fin) none false r.rcb
          let s := putRing s pa 5 (k.tail % 2 ^ 48 * 2 ^ 16 + fin % 2 ^ 16) false r
          claimed (putRing s pa 4 (k.tail + fin + n) false r) c r d k n (k.tail + fin)
      else if nb then finish s c r d 0
      else ringWait s c r (src s c r a) pa 0x52

/-- RBCLAIM (R333). -/
def execRbclaim (d a b : Reg) (s : State) : Host.Outcome State Fault Refusal := ringClaim false d a b s
/-- RBCLAIM.NB (R333). -/
def execRbclaimNb (d a b : Reg) (s : State) : Host.Outcome State Fault Refusal := ringClaim true d a b s

/-- RBCOMMIT (R334). -/
def execRbcommit (a b : Reg) (s : State) : Host.Outcome State Fault Refusal :=
  onCore s fun c r =>
    let h := src s c r b
    releaseWait s c r .panel fun s =>
      ringStep s c r (src s c r a) fun s pa k =>
        let n := bits h 63 48
        let addr := bits h 47 0
        let p := (addr - k.base) / 64
        let c0 := k.commit + (if k.pads == k.commit % 2 ^ 48 then k.padn else 0)
        let st := c0 + (p + k.cap - c0 % k.cap) % k.cap
        if addr < k.base ∨ (addr - k.base) % 64 ≠ 0 ∨ k.cap ≤ p ∨ k.tail ≤ st ∨ k.tail < st + n then trapHere s r .bound h
        else if st == c0 then retire (putRing s pa 3 (c0 + n) true r) c r
        else ringWait s c r (src s c r a) pa 0x54

/-- RBAWAIT (R335). -/
def ringAwait (nb : Bool) (d a : Reg) (s : State) : Host.Outcome State Fault Refusal :=
  onCore s fun c r =>
    ringStep s c r (src s c r a) fun s pa k =>
      if k.commit == k.head then (if nb then finish s c r d 0 else ringWait s c r (src s c r a) pa 0x53)
      else finish (acquireDone s c .panel) c r d (k.handle k.run k.head)

/-- RBAWAIT (R335). -/
def execRbawait (d a : Reg) (s : State) : Host.Outcome State Fault Refusal := ringAwait false d a s
/-- RBAWAIT.NB (R335). -/
def execRbawaitNb (d a : Reg) (s : State) : Host.Outcome State Fault Refusal := ringAwait true d a s

/-- RBRETIRE (R336). Where the run ends at a pad whose claim is not committed, COMMIT steps over the pad with HEAD, so that HEAD ≤ COMMIT
holds (R329; log entry 70). -/
def execRbretire (a b : Reg) (s : State) : Host.Outcome State Fault Refusal :=
  onCore s fun c r =>
    let n := (src s c r b).toNat
    releaseWait s c r .panel fun s =>
      ringStep s c r (src s c r a) fun s pa k =>
        if n == 0 || k.commit == k.head || decide (k.run < n) then trapHere s r .bound (word n)
        else if k.padn != 0 && k.padDist == n then
          let next := k.head + n + k.padn
          let s := if k.commit < next then putRing s pa 3 next true r else s
          retire (putRing (putRing s pa 5 0 true r) pa 2 next true r) c r
        else retire (putRing s pa 2 (k.head + n) true r) c r

/-- RBPEEK (R335). -/
def execRbpeek (d a b : Reg) (s : State) : Host.Outcome State Fault Refusal :=
  onCore s fun c r =>
    let v := src s c r b
    ringStep s c r (src s c r a) fun s _ k =>
      let published := (word k.commit - word k.head).toNat
      if v = 0 then finish s c r d (word k.free)
      else if v = 1 then finish s c r d (word (if k.padn != 0 && decide (k.padDist < published) then published - k.padn else published))
      else if v = 2 then finish s c r d (word k.tail - word k.commit)
      else trapHere s r .bound v

end Sys2Proof.Machine
end

