-- ==== Sys2Proof/Machine/Rollback.lean ====
section
/-! DEFINITION. What a segment's firmware does about an uncorrectable error in a region: a rollback to the open checkpoint, or an
abort (R427 to R431). -/

namespace Sys2Proof.Machine

/-- Stores of the tree's processes that are still on their way (log entry 35). -/
def treeStoresOpen (s : State) (r : Nat) : Bool :=
  let mine (w : Nat) : Bool := match getProc s w with | some p => inTree s r p.rcb | none => false
  s.cores.any fun e => e.2.sbuf.any (fun x => mine x.wptr) || e.2.journal.any fun j => !j.2.rf && mine j.2.store.wptr

/-- Discard every job of the tree, its trap records and its spilled transfers (R430 step 1). -/
def clearWork (s : State) (r : Nat) : State :=
  let s := ((allJobs s).filter fun p => inTree s r p.2.rcb).foldl (fun s p => discardJob s p.1) s
  let s := s.tiles.foldl (fun s e => dropSlots s e.1 fun x => x.rcb != 0 && inTree s r x.rcb) s
  { s with tiles := s.tiles.map fun (e : Nat × Tile) => (e.1, { e.2 with
      spill := e.2.spill.filter fun t => match t.spilled with | some q => !inTree s r q | none => true }) }

/-- Address of entry `k` of a tile's undo log (R429). -/
def undoEntry (t k : Nat) : Nat := t * tlmWindow + undoOff + 80 * k

/-- An entry of the logs to be applied is uncorrectable (R431). -/
def undoBroken (s : State) (r : Nat) : Bool :=
  (regionTiles s r).any fun t => (List.range (getTile s t).undo).any fun k => uncorrectable s (undoEntry t k) 80

/-- The binding of a channel word returns to what an entry holds (R429; log entry 85). -/
def restoreBinding (s : State) (t word_ old : Nat) : State :=
  modTile s t fun k =>
    let rest := k.bindings.filter (·.word != word_)
    { k with bindings := if old / 2 ^ 128 % 2 == 1 then ⟨word_, old % 2 ^ 64, old / 2 ^ 64 % 2 ^ 64⟩ :: rest else rest }

/-- Apply one entry: the 64 old bytes return to their granule, of which no cache keeps a copy; or a binding or the arming of the tile's
triggers returns. -/
def applyEntry (s : State) (t k : Nat) : State :=
  let e := undoEntry t k
  let g := memLE s.mem e 8
  let old := memLE s.mem (e + 8) 64
  if 2 ^ 63 ≤ g then restoreBinding s t (g - 2 ^ 63) old
  else if 2 ^ 62 ≤ g then modTile s t fun q => { q with trigArm := BitVec.ofNat 32 old, trigSys := BitVec.ofNat 32 (old / 2 ^ 64) }
  else dropAllCopies (endOld (writeCodes { s with mem := memPut s.mem g 64 old } g 64) g 64) g 64

/-- Apply a tile's log, newest entry first; the interval stays open, and its log keeps the workspaces of the opening (R430 steps 2
and 5). -/
def applyLog (s : State) (v : Interval) (t : Nat) : State :=
  modTile ((List.range (getTile s t).undo).reverse.foldl (fun s k => applyEntry s t k) s) t fun k => { k with undo := (amGet v.base t).getD 0 }

/-- A process out of its wait, its slot and its queue, before its workspace is overwritten. -/
def unplace (s : State) (w : Nat) : State :=
  match getProc s w with
  | some p =>
    let s := offRunQueues (leaveWait s w) w
    modCore s p.core fun k => match slotOf k w with | some i => setSlot k i none | none => k
  | none => s

/-- A participant, whose workspace its log has restored, is SUSPENDED with prior state READY until the region resumes (R430 steps 3, 5). -/
def restoreProc (s : State) (r : Nat) (v : CkSave) : State :=
  let s := putProc s v.wptr ⟨r, v.join, v.core, .none, 0, [], 0, none, false, false, none⟩
  setPstate s v.wptr 11 1

/-- Steps 2 to 5 of R430. -/
def applyRollback (s : State) (r : Nat) (v : Interval) : State :=
  let ws := v.saved.map (·.wptr)
  let s := (s.procs.filter fun e => e.2.rcb == r).foldl (fun s e => unplace s e.1) s
  let born := (s.procs.filter fun e => e.2.rcb == r && !ws.contains e.1).map (·.1)
  let s := { s with procs := s.procs.filter fun e => !born.contains e.1 }
  let s := (regionTiles s r).foldl (fun s t => applyLog s v t) s
  let s := v.saved.foldl (fun s x => restoreProc s r x) s
  let s := putRcb s r 48 31 0 v.live
  let s := putRcb (putRcb s r 72 63 32 v.binst) r 72 31 0 v.barr
  let s := putRcb s r 0x58 31 0 (rcbField s r 0x58 31 0 + 1)
  let s := modRegion s r fun g => { g with
    arrivals := [], eccu := false, rollingBack := false, undoFull := false, spawned := [], interval := some v }
  let s := resumeTree s r
  retryWhere s fun i => i == .suspNext r

/-- Everything of the tree stands at a boundary, and its stores are performed. -/
def rollbackReady (s : State) (r : Nat) : Bool := suspDone s r && !treeStoresOpen s r

/-- A rollback: suspension, and once it is complete the rest of R430; an uncorrectable log entry aborts (R431). -/
def rollBack (s : State) (r : Nat) (v : Interval) : State :=
  let s := suspendTree (markSuspended (modRegion s r fun g => { g with rollingBack := true }) r) r
  if !rollbackReady s r then s
  else
    let s := clearWork s r
    if undoBroken s r then abortRegion s r 2 else applyRollback s r v

/-- ROLLBACK (R427, R430): the firmware's decision for a region in which an uncorrectable error was consumed. -/
def execRollback (r : Nat) (s : State) : Host.Outcome State Fault Refusal :=
  let g := getRegion s r
  if isRcb s r && g.eccu then
    match g.interval with
    | some v => if rcbCkpt s r == 1 then .next (settle (rollBack s r v)) else .next (settle (abortRegion s r 2))
    | none => .next (settle (abortRegion s r 2))
  else .next s

end Sys2Proof.Machine
end

