-- ==== Sys2Proof/Machine/Dispatch.lean ====
section
/-! DEFINITION. One arm per instruction, each a direct call of its meaning. -/

namespace Sys2Proof.Machine

def exec (i : Instr) (s : State) : Host.Outcome State Fault Refusal :=
  match i with
  | .add d a b => Sys2Proof.Machine.execAdd d a b s
  | .sub d a b => Sys2Proof.Machine.execSub d a b s
  | .and d a b => Sys2Proof.Machine.execAnd d a b s
  | .or d a b => Sys2Proof.Machine.execOr d a b s
  | .xor d a b => Sys2Proof.Machine.execXor d a b s
  | .andn d a b => Sys2Proof.Machine.execAndn d a b s
  | .orn d a b => Sys2Proof.Machine.execOrn d a b s
  | .sll d a b => Sys2Proof.Machine.execSll d a b s
  | .srl d a b => Sys2Proof.Machine.execSrl d a b s
  | .sra d a b => Sys2Proof.Machine.execSra d a b s
  | .slt d a b => Sys2Proof.Machine.execSlt d a b s
  | .sltu d a b => Sys2Proof.Machine.execSltu d a b s
  | .min d a b => Sys2Proof.Machine.execMin d a b s
  | .max d a b => Sys2Proof.Machine.execMax d a b s
  | .minu d a b => Sys2Proof.Machine.execMinu d a b s
  | .maxu d a b => Sys2Proof.Machine.execMaxu d a b s
  | .addw d a b => Sys2Proof.Machine.execAddw d a b s
  | .subw d a b => Sys2Proof.Machine.execSubw d a b s
  | .sllw d a b => Sys2Proof.Machine.execSllw d a b s
  | .srlw d a b => Sys2Proof.Machine.execSrlw d a b s
  | .sraw d a b => Sys2Proof.Machine.execSraw d a b s
  | .clz d a => Sys2Proof.Machine.execClz d a s
  | .ctz d a => Sys2Proof.Machine.execCtz d a s
  | .popc d a => Sys2Proof.Machine.execPopc d a s
  | .sext d a x => Sys2Proof.Machine.execSext d a x s
  | .zext d a x => Sys2Proof.Machine.execZext d a x s
  | .brev d a => Sys2Proof.Machine.execBrev d a s
  | .addi d a imm => Sys2Proof.Machine.execAddi d a imm s
  | .andi d a imm => Sys2Proof.Machine.execAndi d a imm s
  | .ori d a imm => Sys2Proof.Machine.execOri d a imm s
  | .xori d a imm => Sys2Proof.Machine.execXori d a imm s
  | .slti d a imm => Sys2Proof.Machine.execSlti d a imm s
  | .sltiu d a imm => Sys2Proof.Machine.execSltiu d a imm s
  | .addiw d a imm => Sys2Proof.Machine.execAddiw d a imm s
  | .slli d a sh => Sys2Proof.Machine.execSlli d a sh s
  | .srli d a sh => Sys2Proof.Machine.execSrli d a sh s
  | .srai d a sh => Sys2Proof.Machine.execSrai d a sh s
  | .lui d imm => Sys2Proof.Machine.execLui d imm s
  | .auipc d imm => Sys2Proof.Machine.execAuipc d imm s
  | .mul d a b => Sys2Proof.Machine.execMul d a b s
  | .mulh d a b => Sys2Proof.Machine.execMulh d a b s
  | .mulhu d a b => Sys2Proof.Machine.execMulhu d a b s
  | .mulhsu d a b => Sys2Proof.Machine.execMulhsu d a b s
  | .div d a b => Sys2Proof.Machine.execDiv d a b s
  | .divu d a b => Sys2Proof.Machine.execDivu d a b s
  | .rem d a b => Sys2Proof.Machine.execRem d a b s
  | .remu d a b => Sys2Proof.Machine.execRemu d a b s
  | .beq a b off => Sys2Proof.Machine.execBeq a b off s
  | .bne a b off => Sys2Proof.Machine.execBne a b off s
  | .blt a b off => Sys2Proof.Machine.execBlt a b off s
  | .bge a b off => Sys2Proof.Machine.execBge a b off s
  | .bltu a b off => Sys2Proof.Machine.execBltu a b off s
  | .bgeu a b off => Sys2Proof.Machine.execBgeu a b off s
  | .jal d off => Sys2Proof.Machine.execJal d off s
  | .jalr d a imm => Sys2Proof.Machine.execJalr d a imm s
  | .ld d a sz off => Sys2Proof.Machine.execLd d a sz off s
  | .ldAcq d a sz off => Sys2Proof.Machine.execLdAcq d a sz off s
  | .ldu d a sz off => Sys2Proof.Machine.execLdu d a sz off s
  | .lduAcq d a sz off => Sys2Proof.Machine.execLduAcq d a sz off s
  | .st d a sz off => Sys2Proof.Machine.execSt d a sz off s
  | .stRel d a sz off => Sys2Proof.Machine.execStRel d a sz off s
  | .ldf d a => Sys2Proof.Machine.execLdf d a s
  | .stf a b => Sys2Proof.Machine.execStf a b s
  | .sete a => Sys2Proof.Machine.execSete a s
  | .waita d a b x => Sys2Proof.Machine.execWaita d a b x s
  | .amoSwap f => Sys2Proof.Machine.execAmoSwap f s
  | .amoAdd f => Sys2Proof.Machine.execAmoAdd f s
  | .amoAnd f => Sys2Proof.Machine.execAmoAnd f s
  | .amoOr f => Sys2Proof.Machine.execAmoOr f s
  | .amoXor f => Sys2Proof.Machine.execAmoXor f s
  | .amoMin f => Sys2Proof.Machine.execAmoMin f s
  | .amoMax f => Sys2Proof.Machine.execAmoMax f s
  | .amoMinu f => Sys2Proof.Machine.execAmoMinu f s
  | .amoMaxu f => Sys2Proof.Machine.execAmoMaxu f s
  | .amoCas f x => Sys2Proof.Machine.execAmoCas f x s
  | .fenceAcq scope => Sys2Proof.Machine.execFenceAcq scope s
  | .fenceRel scope => Sys2Proof.Machine.execFenceRel scope s
  | .fenceFull scope => Sys2Proof.Machine.execFenceFull scope s
  | .hld d a sz => Sys2Proof.Machine.execHld d a sz s
  | .hst a b sz => Sys2Proof.Machine.execHst a b sz s
  | .fadd p d a b => Sys2Proof.Machine.execFadd p d a b s
  | .fsub p d a b => Sys2Proof.Machine.execFsub p d a b s
  | .fmul p d a b => Sys2Proof.Machine.execFmul p d a b s
  | .fdiv p d a b => Sys2Proof.Machine.execFdiv p d a b s
  | .fsqrt p d a => Sys2Proof.Machine.execFsqrt p d a s
  | .fmin p d a b => Sys2Proof.Machine.execFmin p d a b s
  | .fmax p d a b => Sys2Proof.Machine.execFmax p d a b s
  | .fsgnj p d a b => Sys2Proof.Machine.execFsgnj p d a b s
  | .fsgnjn p d a b => Sys2Proof.Machine.execFsgnjn p d a b s
  | .feq p d a b => Sys2Proof.Machine.execFeq p d a b s
  | .flt p d a b => Sys2Proof.Machine.execFlt p d a b s
  | .fle p d a b => Sys2Proof.Machine.execFle p d a b s
  | .fclass p d a => Sys2Proof.Machine.execFclass p d a s
  | .fcvtI p d a ty rm => Sys2Proof.Machine.execFcvtI p d a ty rm s
  | .fcvtF p d a ty => Sys2Proof.Machine.execFcvtF p d a ty s
  | .fcvtSd p d a => Sys2Proof.Machine.execFcvtSd p d a s
  | .fmadd p d a b x => Sys2Proof.Machine.execFmadd p d a b x s
  | .fmsub p d a b x => Sys2Proof.Machine.execFmsub p d a b x s
  | .fnmadd p d a b x => Sys2Proof.Machine.execFnmadd p d a b x s
  | .fnmsub p d a b x => Sys2Proof.Machine.execFnmsub p d a b x s
  | .spawn d a b => Sys2Proof.Machine.execSpawn d a b s
  | .spawna d a => Sys2Proof.Machine.execSpawna d a s
  | .endp => Sys2Proof.Machine.execEndp s
  | .yield => Sys2Proof.Machine.execYield s
  | .join a => Sys2Proof.Machine.execJoin a s
  | .prio d a => Sys2Proof.Machine.execPrio d a s
  | .migrate d a b => Sys2Proof.Machine.execMigrate d a b s
  | .self d a => Sys2Proof.Machine.execSelf d a s
  | .rgnnew d a => Sys2Proof.Machine.execRgnnew d a s
  | .rgnend d a => Sys2Proof.Machine.execRgnend d a s
  | .bar d => Sys2Proof.Machine.execBar d s
  | .barck d => Sys2Proof.Machine.execBarck d s
  | .chanOut d a b => Sys2Proof.Machine.execChanOut d a b s
  | .chanIn d a b => Sys2Proof.Machine.execChanIn d a b s
  | .outw d a b => Sys2Proof.Machine.execOutw d a b s
  | .inw d a => Sys2Proof.Machine.execInw d a s
  | .sel d a b => Sys2Proof.Machine.execSel d a b s
  | .selF d a b => Sys2Proof.Machine.execSelF d a b s
  | .chinit d a b => Sys2Proof.Machine.execChinit d a b s
  | .chclr d a => Sys2Proof.Machine.execChclr d a s
  | .rbinit d a => Sys2Proof.Machine.execRbinit d a s
  | .rbclaim d a b => Sys2Proof.Machine.execRbclaim d a b s
  | .rbclaimNb d a b => Sys2Proof.Machine.execRbclaimNb d a b s
  | .rbcommit a b => Sys2Proof.Machine.execRbcommit a b s
  | .rbawait d a => Sys2Proof.Machine.execRbawait d a s
  | .rbawaitNb d a => Sys2Proof.Machine.execRbawaitNb d a s
  | .rbretire a b => Sys2Proof.Machine.execRbretire a b s
  | .rbpeek d a b => Sys2Proof.Machine.execRbpeek d a b s
  | .enq d a b => Sys2Proof.Machine.execEnq d a b s
  | .jwait d a => Sys2Proof.Machine.execJwait d a s
  | .jpoll d a => Sys2Proof.Machine.execJpoll d a s
  | .jdrop d a => Sys2Proof.Machine.execJdrop d a s
  | .acfg d a => Sys2Proof.Machine.execAcfg d a s
  | .apf a => Sys2Proof.Machine.execApf a s
  | .ard d a => Sys2Proof.Machine.execArd d a s
  | .awr a b => Sys2Proof.Machine.execAwr a b s
  | .aclr a => Sys2Proof.Machine.execAclr a s
  | .csrr d csr => Sys2Proof.Machine.execCsrr d csr s
  | .csrw d a csr => Sys2Proof.Machine.execCsrw d a csr s
  | .csrs d a csr => Sys2Proof.Machine.execCsrs d a csr s
  | .csrc d a csr => Sys2Proof.Machine.execCsrc d a csr s
  | .tkreq d a => Sys2Proof.Machine.execTkreq d a s
  | .tkrel d => Sys2Proof.Machine.execTkrel d s
  | .tkstat d => Sys2Proof.Machine.execTkstat d s
  | .kmap d a b => Sys2Proof.Machine.execKmap d a b s
  | .kunmap d a b => Sys2Proof.Machine.execKunmap d a b s
  | .ksplice d a b => Sys2Proof.Machine.execKsplice d a b s
  | .ktag d a b => Sys2Proof.Machine.execKtag d a b s
  | .krepair a b => Sys2Proof.Machine.execKrepair a b s
  | .krdone a b => Sys2Proof.Machine.execKrdone a b s
  | .cgjoin d a b => Sys2Proof.Machine.execCgjoin d a b s
  | .cgleave d a b => Sys2Proof.Machine.execCgleave d a b s
  | .cgstat d a b => Sys2Proof.Machine.execCgstat d a b s
  | .plxl d a => Sys2Proof.Machine.execPlxl d a s
  | .trap a => Sys2Proof.Machine.execTrap a s
  | .brk => Sys2Proof.Machine.execBrk s
  | .wfi => Sys2Proof.Machine.execWfi s
  | .resume d a b => Sys2Proof.Machine.execResume d a b s
  | .killp d a => Sys2Proof.Machine.execKillp d a s
  | .jrnl d a b => Sys2Proof.Machine.execJrnl d a b s
  | .rgnsusp d a => Sys2Proof.Machine.execRgnsusp d a s
  | .rgnresm d a => Sys2Proof.Machine.execRgnresm d a s
  | .cpy env c => Sys2Proof.Machine.execCpy env c s
  | .cpy2 env c => Sys2Proof.Machine.execCpy2 env c s
  | .gath env c => Sys2Proof.Machine.execGath env c s
  | .scat env c => Sys2Proof.Machine.execScat env c s
  | .fill env c => Sys2Proof.Machine.execFill env c s
  | .callr env c => Sys2Proof.Machine.execCallr env c s
  | .cagth env c => Sys2Proof.Machine.execCagth env c s
  | .crsct env c => Sys2Proof.Machine.execCrsct env c s
  | .mma env c => Sys2Proof.Machine.execMma env c s
  | .mmap env c => Sys2Proof.Machine.execMmap env c s
  | .bload env c => Sys2Proof.Machine.execBload env c s
  | .mred env c => Sys2Proof.Machine.execMred env c s
  | .spmm env c => Sys2Proof.Machine.execSpmm env c s
  | .sddmm env c => Sys2Proof.Machine.execSddmm env c s
  | .spgath env c => Sys2Proof.Machine.execSpgath env c s
  | .segred env c => Sys2Proof.Machine.execSegred env c s
  | .sortkv env c => Sys2Proof.Machine.execSortkv env c s
  | .topk env c => Sys2Proof.Machine.execTopk env c s
  | .attn env c => Sys2Proof.Machine.execAttn env c s
  | .adec env c => Sys2Proof.Machine.execAdec env c s
  | .kvapp env c => Sys2Proof.Machine.execKvapp env c s
  | .kvdev env c => Sys2Proof.Machine.execKvdev env c s
  | .arot env c => Sys2Proof.Machine.execArot env c s
  | .vbin env c => Sys2Proof.Machine.execVbin env c s
  | .vun env c => Sys2Proof.Machine.execVun env c s
  | .vfma env c => Sys2Proof.Machine.execVfma env c s
  | .vred env c => Sys2Proof.Machine.execVred env c s
  | .vscan env c => Sys2Proof.Machine.execVscan env c s
  | .vcvt env c => Sys2Proof.Machine.execVcvt env c s
  | .vsel env c => Sys2Proof.Machine.execVsel env c s
  | .vnorm env c => Sys2Proof.Machine.execVnorm env c s
  | .vtrn env c => Sys2Proof.Machine.execVtrn env c s
  | .vidx env c => Sys2Proof.Machine.execVidx env c s
  | .illop word => Sys2Proof.Machine.execIllop word s
  | .fetchFault target => Sys2Proof.Machine.execFetchFault target s
  | .granuleIssue tile q slot => Sys2Proof.Machine.execGranuleIssue tile q slot s
  | .granuleBoundary tile q slot => Sys2Proof.Machine.execGranuleBoundary tile q slot s
  | .jobResume tile q => Sys2Proof.Machine.execJobResume tile q s
  | .jobDone tile q slot => Sys2Proof.Machine.execJobDone tile q slot s
  | .channelStep k => Sys2Proof.Machine.execChannelStep k s
  | .claimRetry k => Sys2Proof.Machine.execClaimRetry k s
  | .channelTransferDone k => Sys2Proof.Machine.execChannelTransferDone k s
  | .selectDeadline wptr => Sys2Proof.Machine.execSelectDeadline wptr s
  | .foghornProbeSend wptr => Sys2Proof.Machine.execFoghornProbeSend wptr s
  | .foghornProbeHop k => Sys2Proof.Machine.execFoghornProbeHop k s
  | .foghornConfirm k => Sys2Proof.Machine.execFoghornConfirm k s
  | .regionStall rcb => Sys2Proof.Machine.execRegionStall rcb s
  | .spawnArrival k => Sys2Proof.Machine.execSpawnArrival k s
  | .migrateArrival k => Sys2Proof.Machine.execMigrateArrival k s
  | .dispatch core => Sys2Proof.Machine.execDispatch core s
  | .timesliceExpiry core => Sys2Proof.Machine.execTimesliceExpiry core s
  | .wfiWake core => Sys2Proof.Machine.execWfiWake core s
  | .watchNotice k => Sys2Proof.Machine.execWatchNotice k s
  | .waitaDeadline wptr => Sys2Proof.Machine.execWaitaDeadline wptr s
  | .storeLeavesBuffer core => Sys2Proof.Machine.execStoreLeavesBuffer core s
  | .postedStoreArrival k => Sys2Proof.Machine.execPostedStoreArrival k s
  | .postedStoreAck k => Sys2Proof.Machine.execPostedStoreAck k s
  | .postedStoreRefusal k => Sys2Proof.Machine.execPostedStoreRefusal k s
  | .asyncTrapDelivery wptr => Sys2Proof.Machine.execAsyncTrapDelivery wptr s
  | .trapRecordOffer tile => Sys2Proof.Machine.execTrapRecordOffer tile s
  | .spillRetry k => Sys2Proof.Machine.execSpillRetry k s
  | .pageFaultMessage k => Sys2Proof.Machine.execPageFaultMessage k s
  | .faultMessageResend k => Sys2Proof.Machine.execFaultMessageResend k s
  | .shootdownComplete seg => Sys2Proof.Machine.execShootdownComplete seg s
  | .deviceRegWrite core => Sys2Proof.Machine.execDeviceRegWrite core s
  | .launchRecord q status => Sys2Proof.Machine.execLaunchRecord q status s
  | .launchCompletion k => Sys2Proof.Machine.execLaunchCompletion k s
  | .collectiveStartStep k => Sys2Proof.Machine.execCollectiveStartStep k s
  | .collectivePeerStep k => Sys2Proof.Machine.execCollectivePeerStep k s
  | .collectiveLossStep k => Sys2Proof.Machine.execCollectiveLossStep k s
  | .siteQuiesced n => Sys2Proof.Machine.execSiteQuiesced n s
  | .drainDeadline n => Sys2Proof.Machine.execDrainDeadline n s
  | .mapFreeze seg => Sys2Proof.Machine.execMapFreeze seg s
  | .mapCommit seg => Sys2Proof.Machine.execMapCommit seg s
  | .mapThaw seg => Sys2Proof.Machine.execMapThaw seg s
  | .controlInterval seg => Sys2Proof.Machine.execControlInterval seg s
  | .revocationDeadline tile => Sys2Proof.Machine.execRevocationDeadline tile s
  | .phaseWindowEnd seg => Sys2Proof.Machine.execPhaseWindowEnd seg s
  | .timeTick => Sys2Proof.Machine.execTimeTick s
  | .rollback rcb => Sys2Proof.Machine.execRollback rcb s
  | .jobDequeue tile q => Sys2Proof.Machine.execJobDequeue tile q s
  | .shootdownStart seg sdctl => Sys2Proof.Machine.execShootdownStart seg sdctl s
  | .watchroomReplyMapped w entry => Sys2Proof.Machine.execWatchroomReplyMapped w entry s
  | .watchroomReplyRefused w entry => Sys2Proof.Machine.execWatchroomReplyRefused w entry s
  | .pcieCompletion core status data => Sys2Proof.Machine.execPcieCompletion core status data s
  | .pcieCompletionTimeout core => Sys2Proof.Machine.execPcieCompletionTimeout core s
  | .hostWrite link pa data => Sys2Proof.Machine.execHostWrite link pa data s
  | .hostRead link pa n => Sys2Proof.Machine.execHostRead link pa n s
  | .energyLowRead r pa => Sys2Proof.Machine.execEnergyLowRead r pa s
  | .doorbell q tail => Sys2Proof.Machine.execDoorbell q tail s
  | .wqEnable q value => Sys2Proof.Machine.execWqEnable q value s
  | .peerFrame port crcOk step => Sys2Proof.Machine.execPeerFrame port crcOk step s
  | .peerPortDown port => Sys2Proof.Machine.execPeerPortDown port s
  | .linkDead tile dir => Sys2Proof.Machine.execLinkDead tile dir s
  | .siteSeated n contactsOk => Sys2Proof.Machine.execSiteSeated n contactsOk s
  | .sitePowered n => Sys2Proof.Machine.execSitePowered n s
  | .siteAttested n serial defects => Sys2Proof.Machine.execSiteAttested n serial defects s
  | .siteLinked n => Sys2Proof.Machine.execSiteLinked n s
  | .siteStepFail n => Sys2Proof.Machine.execSiteStepFail n s
  | .sensePinOpen n => Sys2Proof.Machine.execSensePinOpen n s
  | .siteAdmit q => Sys2Proof.Machine.execSiteAdmit q s
  | .siteDrain q notice => Sys2Proof.Machine.execSiteDrain q notice s
  | .siteRelease q => Sys2Proof.Machine.execSiteRelease q s
  | .siteRetest q => Sys2Proof.Machine.execSiteRetest q s
  | .siteLoss n cause => Sys2Proof.Machine.execSiteLoss n cause s
  | .contactEvent seg group => Sys2Proof.Machine.execContactEvent seg group s
  | .routeInstall tile entries => Sys2Proof.Machine.execRouteInstall tile entries s
  | .arbiterStep m measuredMw coreMw => Sys2Proof.Machine.execArbiterStep m measuredMw coreMw s
  | .powerSample tile milliwatts => Sys2Proof.Machine.execPowerSample tile milliwatts s
  | .currentSample seg milliamps => Sys2Proof.Machine.execCurrentSample seg milliamps s
  | .thermalSample seg samples => Sys2Proof.Machine.execThermalSample seg samples s
  | .phaseFailure seg => Sys2Proof.Machine.execPhaseFailure seg s
  | .tokenFault seg => Sys2Proof.Machine.execTokenFault seg s
  | .energyUpdate m amount => Sys2Proof.Machine.execEnergyUpdate m amount s
  | .scrubPass store => Sys2Proof.Machine.execScrubPass store s
  | .powerOn => Sys2Proof.Machine.execPowerOn s
  | .bootStage r => Sys2Proof.Machine.execBootStage r s
  | .mgmtRead port pa => Sys2Proof.Machine.execMgmtRead port pa s
  | .firmwareUpload image signed => Sys2Proof.Machine.execFirmwareUpload image signed s
  | .panelidWrite value signed => Sys2Proof.Machine.execPanelidWrite value signed s
  | .fabricTableWrite n value signed => Sys2Proof.Machine.execFabricTableWrite n value signed s
  | .telemetrySample inlet outlet flow => Sys2Proof.Machine.execTelemetrySample inlet outlet flow s
  | .coolantAlert => Sys2Proof.Machine.execCoolantAlert s
  | .coolantAlertClear => Sys2Proof.Machine.execCoolantAlertClear s

end Sys2Proof.Machine
end

