-- ==== Sys2Proof/Machine/Policy.lean ====
section
/-! DEFINITION. Which core or event moves next when the agenda is empty (log entry 2), and how the instruction that a
process stands at reaches `exec`. -/

namespace Sys2Proof.Machine

/-- The cores of the panel: 12,544 tiles of four (R7 to R13). -/
def allCores : Nat := 4 * allTiles

/-! ### Events that can move -/

/-- The event that delivers the `i`-th message in flight. -/
def msgEvent (i : Nat) : Msg → Instr
  | .chan _ _ busy held => if held then .spillRetry i else if busy then .claimRetry i else .channelStep i
  | .claim _ _ _ _ => .channelStep i
  | .spawn _ => .spawnArrival i
  | .migrate _ => .migrateArrival i
  | .store _ _ => .postedStoreArrival i
  | .ack _ _ => .postedStoreAck i
  | .refuse _ _ _ => .postedStoreRefusal i
  | .notice _ _ _ _ _ => .watchNotice i
  | .fault m => if m.refused then .faultMessageResend i else .pageFaultMessage i
  | .probe _ _ _ _ => .foghornProbeHop i
  | .confirm _ _ => .foghornConfirm i
  | .start _ => .collectiveStartStep i
  | .peer _ => .collectivePeerStep i
  | .loss _ _ => .collectiveLossStep i

/-- The tile that a message has left and the tile it goes to, where its routers hold it at the boundary of a lost area (R383). -/
def msgRoute (s : State) : Msg → Option (Nat × Nat)
  | .chan wd p _ _ => some (endTile (partyEnd s p), wd / tlmWindow)
  | .spawn m => some (m.source, m.tile)
  | .migrate m => some (coreTile m.core, m.tile)
  | .store c i => storeRoute c i
  | .ack c i => (storeRoute c i).map fun x => (x.2, x.1)
  | .refuse c i _ => (storeRoute c i).map fun x => (x.2, x.1)
  | .notice w pa _ _ _ => (homeTile pa).map fun t => (t, w / tlmWindow)
  | .start k => (jobAt s k).bind fun j => (groupEntry s (k / 128) (collOf j.cmd).grp.toNat j.core).bind fun g => (homeTile g.desc).map fun t => (k / 128, t)
  | _ => none
where
  /-- From a core's tile to the home of a store in its journal. -/
  storeRoute (c i : Nat) : Option (Nat × Nat) :=
    (amGet (getCore s c).journal i).bind fun e => (homeTile e.store.pa).map fun t => (coreTile c, t)

/-- The message waits at a boundary for new routing tables (R383). -/
def msgHeld (s : State) (m : Msg) : Bool :=
  match msgRoute s m with
  | some (t, u) => detourHolds s t u
  | none => false

def msgEvents (s : State) : List Instr := ((s.msgs.zip (List.range s.msgs.length)).filter fun p => !msgHeld s p.1).map fun p => msgEvent p.2 p.1

/-- Events of a core: its buffer, its queues, its timeslice, the end of WFI. -/
def coreEvents (s : State) (c : Nat) (k : Core) : List Instr :=
  (match k.sbuf with
    | e :: _ => [if spaceOf e.pa == 15 then .deviceRegWrite c else .storeLeavesBuffer c]
    | [] => [])
    ++ (match k.run with
    | some r => (if !r.hp && r.slice == 0 && betweenInstrs k then [.timesliceExpiry c] else []) ++ (if k.wfi && wakePending s c r then [.wfiWake c] else [])
    | none => if k.highQ.isEmpty && k.lowQ.isEmpty then [] else [.dispatch c])

/-- Events of a process: a pending trap, a deadline, a probe. -/
def procEvents (s : State) (w : Nat) (p : Proc) : List Instr :=
  (if p.pend.isEmpty then [] else [.asyncTrapDelivery w])
    ++ (match p.wait with
    | .waita _ _ (some dl) => if dl.ule s.time then [.waitaDeadline w] else []
    | .time _ _ dl => if dl.ule s.time then [.waitaDeadline w] else []
    | .sel _ _ _ => [.selectDeadline w]
    | .chan _ _ _ => if bits (getCore s p.core).fgwait 31 0 ≤ p.waitClocks then [.foghornProbeSend w] else []
    | _ => [])

/-- Events of a job in its entry. -/
def jobEvent (key : Nat) (j : Job) : List Instr :=
  let t := key / 128
  let q := key / 32 % 4
  let i := key % 32
  if j.last then [.jobDone t q i]
  else
    match j.st with
    | .queued => [.jobDequeue t q]
    | .running => if j.inFlight then [.granuleBoundary t q i] else [.granuleIssue t q i]
    | _ => [.jobResume t q]

/-- Events of a tile: its trap queue, a pending revocation. -/
def tileEvents (s : State) (t : Nat) (k : Tile) : List Instr :=
  (if k.trapOrder.isEmpty then [] else [.trapRecordOffer t])
    ++ (match k.revoke with
    | some v => if v.deadline ≤ s.time.toNat then [.revocationDeadline t] else []
    | none => [])

/-- Events of a segment: shootdowns, map operations, the control interval of every microsecond, the end of its phase window. -/
def segEvents (s : State) (g : Nat) (k : Seg) : List Instr :=
  (if bit k.sdctl 63 then [.shootdownComplete g] else [])
    ++ (if bit k.mapOp 63 then (match bits k.mapOp 1 0 with | 1 => [.mapFreeze g] | 2 => [.mapCommit g] | _ => [.mapThaw g]) else [])
    ++ (if k.powered && s.time.toNat % 1000 == 0 then [.controlInterval g] else [])
    ++ (match k.window with
    | some w => if w ≤ s.time.toNat then [.phaseWindowEnd g] else []
    | none => [])

/-- Events of a region: its stall report, its firmware's decision. -/
def regionEvents (r : Nat) (g : Region) : List Instr :=
  (if g.eccu then [.rollback r] else []) ++ (if g.stallClocks != 0 && !g.stallSent then [.regionStall r] else [])

/-- The cause of the loss that FAIL of a site names (R365). -/
def lossOf : Nat → LossCause
  | 1 => .sensePin
  | 2 => .contacts
  | _ => .links

/-- Events of a site: a command that stands in its block, a loss that has been detected, the end of a drain. -/
def siteEvents (s : State) (n : Nat) (k : Site) : List Instr :=
  (if k.busy then (match k.cmd with
    | 1 => [.siteAdmit ⟨n, false⟩] | 2 => [.siteDrain ⟨n, false⟩ k.notice] | 3 => [.siteRelease ⟨n, false⟩] | _ => [.siteRetest ⟨n, false⟩]) else [])
  ++ (if k.losing then [.siteLoss n (lossOf k.fail)] else [])
  ++ if k.st == .draining then [.siteQuiesced n] ++ (if k.deadline.ule s.time then [.drainDeadline n] else []) else []

/-- Every event that the panel itself can bring about now; time can always pass. -/
def events (s : State) : List Instr :=
  [.timeTick] ++ msgEvents s
    ++ s.cores.flatMap (fun e => coreEvents s e.1 e.2)
    ++ s.procs.flatMap (fun e => procEvents s e.1 e.2)
    ++ (List.range s.transfers.length).map (fun i => .channelTransferDone i)
    ++ (allJobs s).flatMap (fun p => jobEvent p.1 p.2)
    ++ s.tiles.flatMap (fun e => tileEvents s e.1 e.2)
    ++ s.segs.flatMap (fun e => segEvents s e.1 e.2)
    ++ s.regions.flatMap (fun e => regionEvents e.1 e.2)
    ++ s.sites.flatMap (fun e => siteEvents s e.1 e.2)
    ++ (s.workQueues.filter fun e => recordWaits e.2).map (fun e => .launchRecord e.1 .ok)
    ++ (List.range s.launches.length).map (fun i => .launchCompletion i)

/-- The event that moves next: the events that can move take turns. -/
def nextEvent (s : State) : Instr :=
  let l := events s
  (l[s.turns % l.length]?).getD .timeTick

/-! ### Turns -/

/-- A core that has an instruction to issue. -/
def canIssue (k : Core) : Bool := k.run.isSome && !k.wfi && k.stall.isNone

/-- The core that issues next: the first after the last one to issue, in rising order and around. -/
def nextCore (s : State) : Option Nat :=
  let ready := s.cores.filter fun e => canIssue e.2
  match ready.find? fun e => decide (s.cur < e.1) with
  | some e => some e.1
  | none => ready.head?.map (·.1)

/-- The turn that the policy gives: an event after every core's issue, and whenever no core can issue. -/
def nextTurn (s : State) : Turn :=
  if s.yielded then .event (nextEvent s)
  else
    match nextCore s with
    | some c => .core c
    | none => .event (nextEvent s)

/-- The policy has given a turn. -/
def countTurn (s : State) : State := { s with turns := s.turns + 1 }

/-- An event that the boundary before the core's next instruction holds: a pending trap of its process (R342), an uncorrectable doubleword of
its slot that the instruction reads (R427), the end of its timeslice (R218). -/
def boundaryEvent (s : State) (c : Nat) : Option Instr :=
  let k := getCore s c
  match k.run with
  | some r =>
    if k.stall.isSome then none
    else if atBoundary k && (match getProc s r.wptr with | some p => !p.pend.isEmpty || spoiledSource s c r | none => false) then
      some (.asyncTrapDelivery r.wptr)
    else if !r.hp && r.slice == 0 && betweenInstrs k then some (.timesliceExpiry c)
    else none
  | none => none

/-- The instruction that core `c` executes next, with the state after its fetch. -/
def issueInstr (s : State) (c : Nat) : State × Instr :=
  let s := { s with cur := c, yielded := true }
  match boundaryEvent s c with
  | some e => (s, e)
  | none =>
    match issuer s with
    | none => (s, .dispatch c)
    | some r =>
      match fetch s c r with
      | (s', .word w) => (s', instrOf w)
      | (_, .fails) => (s, .fetchFault r.pc)

/-- The command whose 32 bytes stand at an address. -/
def commandAt (s : State) (pa : Nat) : Option Instr :=
  match decodeCmd (BitVec.ofNat 256 (memLE s.mem pa 32)) with
  | .ok i => some i
  | .error _ => none

end Sys2Proof.Machine
end

