-- ==== Sys2Proof/Machine/Step.lean ====
section
/-! DEFINITION. One step of the panel: the turns that the environment has fixed come first, then the policy's. -/

namespace Sys2Proof.Machine

/-- Run one turn. -/
def runTurn (t : Turn) (s : State) : Host.Outcome State Fault Refusal :=
  match t with
  | .core c =>
    if c < allCores then
      match issueInstr s c with
      | (s', i) => exec i s'
    else .fault (.noSuchCore c)
  | .event i => exec i { s with yielded := false }
  | .command pa =>
    match commandAt s pa with
    | some i => exec i { s with yielded := true }
    | none => .next s

/-- One step. -/
def step (s : State) : Host.Outcome State Fault Refusal :=
  match s.agenda with
  | t :: rest => runTurn t { s with agenda := rest }
  | [] => runTurn (nextTurn s) (countTurn s)

/-- The state with an instruction where the next step fetches it (log entry 16): a scalar word at the PC of a system
process, or an engine command's 32 bytes on a tile with the engine. -/
def State.withFetchWord (s : State) (nbits w : Nat) : State :=
  let t := bootTile nbits w
  let s := withBootProc s t
  if nbits ≤ 32 then { s with mem := memPut s.mem (bootPc t) 4 w, agenda := [.core (coreNo t 0)] }
  else { s with mem := memPut s.mem (bootCmd t) 32 w, agenda := [.command (bootCmd t)] }

end Sys2Proof.Machine
end

