-- ==== Sys2Proof/Safety.lean ====
section
/-! DEFINITION. What a safe run is, and the terms that the statements about the machine use. -/

namespace Sys2Proof

open Machine

/-- The step neither faults nor refuses. -/
def Completes (s : State) : Prop := ∃ t, step s = .next t

/-- An instruction completes in a state. -/
def Runs (i : Instr) (s : State) : Prop := ∃ t, exec i s = .next t

/-- The memory has its canonical form: strictly rising addresses and no zero byte listed. -/
def MemInv (s : State) : Prop := Memory.wf s.mem = true

/-- The executing core can issue for process `r`, and `r` is resident in its core's register cache, as every running process is
(R93). -/
structure Issues (s : State) (r : Running) : Prop where
  running : issuer s = some r
  resident : (slotOf (getCore s s.cur) r.wptr).isSome = true

/-- W[d] of a process of the executing core. -/
def reg (s : State) (r : Running) (d : Reg) : Word := regRd s s.cur r.wptr d

/-- Per-process CSR `n` (in the order of R124) of a process of the executing core. -/
def pcsr (s : State) (r : Running) (n : Nat) : Word := pcsrRd s s.cur r.wptr n

/-- The executing core. -/
def me (s : State) : Core := getCore s s.cur

/-- Nothing changes but the executing core: every other core, all of memory and every other field are as before. -/
structure OnlyCore (s t : State) : Prop where
  rest : t = { s with cores := t.cores }
  others : ∀ c, c ≠ s.cur → getCore t c = getCore s c

/-- Every byte that any party reads is unchanged outside head word 0 (the resume word, which holds the PC) and head word `d` of the
process (R94). -/
def BytesBut (s t : State) (r : Running) (d : Reg) : Prop :=
  ∀ a, a / 8 * 8 ≠ r.wptr → a / 8 * 8 ≠ r.wptr + 8 * d.toNat → byteAt t a = byteAt s a

/-- The whole effect of an instruction that writes `v` to W[d] and goes to `pc`: no other register, no CSR of the process, no other
slot, no other field of the core but INSTRET, the event counters and what its issue kept of the instruction (a stall on a full buffer, the
word of uncached host code: both are over), and nothing outside the core changes. -/
structure RegStep (s t : State) (r : Running) (d : Reg) (v : Word) (pc : PC) : Prop where
  dest : d ≠ 0 → reg t r d = v
  zero : reg t r 0 = 0
  regs : ∀ e, e ≠ d → reg t r e = reg s r e
  pc : (me t).run = some { r with pc := pc, held := false, seen := [] }
  retired : (me t).instret = (me s).instret + 1
  csrs : ∀ n, pcsr t r n = pcsr s r n
  slots : ∀ i sl, slotAt (me s) i = some sl → sl.wptr ≠ r.wptr → slotAt (me t) i = some sl
  core : me t = { me s with
    slots := (me t).slots, run := (me t).run, instret := (me t).instret, hpm := (me t).hpm, bufStall := false, hostWord := none }
  frame : OnlyCore s t
  bytes : BytesBut s t r d

/-- The effect common to every instruction that returns a value: W[d] takes `v` and every other register stays (W0 reads as zero
always), the PC advances by 4 and the instruction retires. What else changes stands beside it. -/
structure Answers (s t : State) (r : Running) (d : Reg) (v : Word) : Prop where
  cur : t.cur = s.cur
  dest : d ≠ 0 → reg t r d = v
  zero : reg t r 0 = 0
  regs : ∀ e, e ≠ d → reg t r e = reg s r e
  pc : (me t).run = some { r with pc := r.pc + 4, held := false, seen := [] }
  retired : (me t).instret = (me s).instret + 1

/-- A process that issues and that its home tile knows (R92): its workspace and PC are aligned (R84, R86), it is a process of the
executing core, no queue entry is held for an ENQ of its own, and it has no select in progress. -/
structure Placed (s : State) (r : Running) : Prop extends Issues s r where
  known : ∃ p, getProc s r.wptr = some p ∧ p.core = s.cur
  base : r.wptr % 128 = 0 ∧ 128 ≤ r.wptr
  pcOk : r.pc.toNat % 4 = 0
  noEntry : ∀ q ∈ s.queues, ∀ e ∈ q.2.entries, e.2.taken ≠ some r.wptr
  noSelect : ∀ e ∈ s.selects, e.2.wptr ≠ r.wptr

/-- The executing process has left its core to wait at its own instruction (R217): the state and ARG of its WAIT word, the PC of its
resume word, what it waits for, and no register changed. -/
structure Waits (s t : State) (r : Running) (st arg : Nat) (i : WaitInfo) : Prop where
  cur : t.cur = s.cur
  idle : (me t).run = none
  state : pstate t r.wptr = st
  arg : parg t r.wptr = arg
  pc : resumePc t r.wptr = r.pc
  info : (getProc t r.wptr).map (·.wait) = some i
  regs : ∀ e, reg t r e = reg s r e
  retired : (me t).instret = (me s).instret

/-- The executing process has taken a trap (R128, R342): it is TRAPPED with `back` in its resume word and its registers unchanged, and
the trap registers of its core hold cause, sub-reason and AS, TVAL, the PC of the instruction, and the next sequence number. -/
structure Trapped (s t : State) (r : Running) (cause : Cause) (sub : Nat) (tval : Word) (back : PC) : Prop where
  cur : t.cur = s.cur
  idle : (me t).run = none
  state : pstate t r.wptr = 10
  resume : resumePc t r.wptr = back
  info : (getProc t r.wptr).map (·.wait) = some .none
  regs : ∀ e, reg t r e = reg s r e
  tcause : (me t).tcause = causeWord cause sub
  tval : (me t).tval = tval
  tpc : (me t).tpc = r.pc.setWidth 64
  tseq : (me t).tseq.toNat = ((me s).tseq.toNat + 1) % 2 ^ 32

/-- A slot of the executing tile's trap queue is free (R344). -/
def RoomToTrap (s : State) : Prop := freeSlots s (coreTile s.cur) ≠ []

/-- The executing process stands as before, at an instruction that has issued, and the panel moves next (log entry 2). -/
def Held (s t : State) (r : Running) : Prop :=
  t = { modCore s s.cur fun k => { k with run := some { r with held := true } } with yielded := true }

end Sys2Proof
end

