-- ==== Sys2Proof/Certificates/Slice0/Obligations.lean ====
section
/-! DEFINITION. The statements for the provers, with the tables that they are read from: what the manual says each instruction
computes, in plain arithmetic. -/

open Sys2Proof Sys2Proof.Machine

namespace Sys2Proof.Claims

/-! ### Integer results (R100 to R104) -/

/-- What the integer instructions of three registers write: destination, sources, and the relation of operands and result. -/
def threeReg : Instr → Option (Reg × Reg × Reg × (Word → Word → Word → Prop))
  | .add d a b => some (d, a, b, fun x y v => v.toNat = (x.toNat + y.toNat) % 2 ^ 64)
  | .sub d a b => some (d, a, b, fun x y v => v.toNat = (x.toNat + (2 ^ 64 - y.toNat)) % 2 ^ 64)
  | .and d a b => some (d, a, b, fun x y v => ∀ k, v.getLsbD k = (x.getLsbD k && y.getLsbD k))
  | .or d a b => some (d, a, b, fun x y v => ∀ k, v.getLsbD k = (x.getLsbD k || y.getLsbD k))
  | .xor d a b => some (d, a, b, fun x y v => ∀ k, v.getLsbD k = (x.getLsbD k != y.getLsbD k))
  | .andn d a b => some (d, a, b, fun x y v => ∀ k, k < 64 → v.getLsbD k = (x.getLsbD k && !y.getLsbD k))
  | .orn d a b => some (d, a, b, fun x y v => ∀ k, k < 64 → v.getLsbD k = (x.getLsbD k || !y.getLsbD k))
  | .sll d a b => some (d, a, b, fun x y v => v.toNat = x.toNat * 2 ^ (y.toNat % 64) % 2 ^ 64)
  | .srl d a b => some (d, a, b, fun x y v => v.toNat = x.toNat / 2 ^ (y.toNat % 64))
  | .sra d a b => some (d, a, b, fun x y v => v.toInt = x.toInt / 2 ^ (y.toNat % 64))
  | .slt d a b => some (d, a, b, fun x y v => v.toNat = if x.toInt < y.toInt then 1 else 0)
  | .sltu d a b => some (d, a, b, fun x y v => v.toNat = if x.toNat < y.toNat then 1 else 0)
  | .min d a b => some (d, a, b, fun x y v => v.toInt = min x.toInt y.toInt)
  | .max d a b => some (d, a, b, fun x y v => v.toInt = max x.toInt y.toInt)
  | .minu d a b => some (d, a, b, fun x y v => v.toNat = min x.toNat y.toNat)
  | .maxu d a b => some (d, a, b, fun x y v => v.toNat = max x.toNat y.toNat)
  | .addw d a b => some (d, a, b, fun x y v => v.toInt = sx (x.toNat + y.toNat) 32)
  | .subw d a b => some (d, a, b, fun x y v => v.toInt = sx (x.toNat + (2 ^ 64 - y.toNat)) 32)
  | .sllw d a b => some (d, a, b, fun x y v => v.toInt = sx (x.toNat * 2 ^ (y.toNat % 32)) 32)
  | .srlw d a b => some (d, a, b, fun x y v => v.toInt = sx (x.toNat % 2 ^ 32 / 2 ^ (y.toNat % 32)) 32)
  | .sraw d a b => some (d, a, b, fun x y v => v.toInt = sx x.toNat 32 / 2 ^ (y.toNat % 32))
  | .mul d a b => some (d, a, b, fun x y v => v.toNat = x.toNat * y.toNat % 2 ^ 64)
  | .mulh d a b => some (d, a, b, fun x y v => v.toInt = x.toInt * y.toInt / 2 ^ 64)
  | .mulhu d a b => some (d, a, b, fun x y v => v.toNat = x.toNat * y.toNat / 2 ^ 64)
  | .mulhsu d a b => some (d, a, b, fun x y v => v.toInt = x.toInt * (y.toNat : Int) / 2 ^ 64)
  | .div d a b => some (d, a, b, fun x y v =>
      if y.toNat = 0 then v.toNat = 2 ^ 64 - 1
      else if x.toInt = -(2 ^ 63) ∧ y.toInt = -1 then v.toInt = -(2 ^ 63)
      else v.toInt = Int.tdiv x.toInt y.toInt)
  | .divu d a b => some (d, a, b, fun x y v => v.toNat = if y.toNat = 0 then 2 ^ 64 - 1 else x.toNat / y.toNat)
  | .rem d a b => some (d, a, b, fun x y v =>
      if y.toNat = 0 then v = x
      else if x.toInt = -(2 ^ 63) ∧ y.toInt = -1 then v.toInt = 0
      else v.toInt = Int.tmod x.toInt y.toInt)
  | .remu d a b => some (d, a, b, fun x y v => v.toNat = if y.toNat = 0 then x.toNat else x.toNat % y.toNat)
  | _ => none

/-- Bits of a source width (R29). -/
def srcBits : SrcWidth → Nat
  | .b => 8
  | .h => 16
  | .w => 32

/-- What the integer instructions of one register, with or without a constant, write. -/
def twoReg : Instr → Option (Reg × Reg × (Word → Word → Prop))
  | .clz d a => some (d, a, fun x v => v.toNat ≤ 64 ∧ (∀ k, 64 ≤ k + v.toNat → x.getLsbD k = false) ∧
      (v.toNat < 64 → x.getLsbD (63 - v.toNat) = true))
  | .ctz d a => some (d, a, fun x v => v.toNat ≤ 64 ∧ (∀ k, k < v.toNat → x.getLsbD k = false) ∧
      (v.toNat < 64 → x.getLsbD v.toNat = true))
  | .popc d a => some (d, a, fun x v => v.toNat = ((List.range 64).filter fun k => x.getLsbD k).length)
  | .sext d a n => some (d, a, fun x v => v.toInt = sx x.toNat (srcBits n))
  | .zext d a n => some (d, a, fun x v => v.toNat = x.toNat % 2 ^ srcBits n)
  | .brev d a => some (d, a, fun x v => ∀ k, k < 8 → v.toNat / 256 ^ k % 256 = x.toNat / 256 ^ (7 - k) % 256)
  | .addi d a imm => some (d, a, fun x v => (v.toNat : Int) = ((x.toNat : Int) + imm.toInt) % 2 ^ 64)
  | .andi d a imm => some (d, a, fun x v => ∀ k, k < 64 → v.getLsbD k = (x.getLsbD k && imm.getLsbD (min k 17)))
  | .ori d a imm => some (d, a, fun x v => ∀ k, k < 64 → v.getLsbD k = (x.getLsbD k || imm.getLsbD (min k 17)))
  | .xori d a imm => some (d, a, fun x v => ∀ k, k < 64 → v.getLsbD k = (x.getLsbD k != imm.getLsbD (min k 17)))
  | .slti d a imm => some (d, a, fun x v => v.toNat = if x.toInt < imm.toInt then 1 else 0)
  | .sltiu d a imm => some (d, a, fun x v => v.toNat = if (x.toNat : Int) < imm.toInt % 2 ^ 64 then 1 else 0)
  | .addiw d a imm => some (d, a, fun x v => v.toInt = sx (((x.toNat : Int) + imm.toInt) % 2 ^ 64).toNat 32)
  | .slli d a sh => some (d, a, fun x v => v.toNat = x.toNat * 2 ^ sh.toNat % 2 ^ 64)
  | .srli d a sh => some (d, a, fun x v => v.toNat = x.toNat / 2 ^ sh.toNat)
  | .srai d a sh => some (d, a, fun x v => v.toInt = x.toInt / 2 ^ sh.toNat)
  | _ => none

/-- The condition of a branch (R105). -/
def branchOf : Instr → Option (Reg × Reg × BitVec 15 × (Word → Word → Prop))
  | .beq a b off => some (a, b, off, fun x y => x = y)
  | .bne a b off => some (a, b, off, fun x y => x ≠ y)
  | .blt a b off => some (a, b, off, fun x y => x.toInt < y.toInt)
  | .bge a b off => some (a, b, off, fun x y => y.toInt ≤ x.toInt)
  | .bltu a b off => some (a, b, off, fun x y => x.toNat < y.toNat)
  | .bgeu a b off => some (a, b, off, fun x y => y.toNat ≤ x.toNat)
  | _ => none

/-- The core's residue checks hold (R98, R119). -/
def Sound (s : State) : Prop := (me s).upset = 0

end Sys2Proof.Claims

open Sys2Proof.Claims

/-- R85, R87, R100 to R104: while no residue check fails, every integer instruction of three registers, of one register, and with a constant
writes the manual's result to W[d], or nothing when d is 0, advances the PC by 4, retires, and changes nothing else; so do LUI, and AUIPC with a
sum that is not wrapped to 48 bits (R86). What a failing check does stands in FloatResults. -/
def Obligations.IntegerResults : Prop :=
  (∀ i d a b rel, threeReg i = some (d, a, b, rel) → ∀ s r, Issues s r → Sound s →
      ∃ t v, exec i s = .next t ∧ rel (reg s r a) (reg s r b) v ∧ RegStep s t r d v (r.pc + 4)) ∧
  ((∀ i d a rel, twoReg i = some (d, a, rel) → ∀ s r, Issues s r → Sound s →
        ∃ t v, exec i s = .next t ∧ rel (reg s r a) v ∧ RegStep s t r d v (r.pc + 4)) ∧
    (∀ d imm s r, Issues s r → Sound s →
        (∃ t v, exec (.lui d imm) s = .next t ∧ v.toInt = imm.toInt * 4096 ∧ RegStep s t r d v (r.pc + 4)) ∧
        (∃ t v, exec (.auipc d imm) s = .next t ∧ (v.toNat : Int) = ((r.pc.toNat : Int) + imm.toInt * 4096) % 2 ^ 64 ∧
          RegStep s t r d v (r.pc + 4))))

/-- R105: a branch goes to PC + 4·off15 when its condition holds, else to PC + 4; it writes no register; condition 6 or 7 raises ILLOP. R106: JAL,
and, while no residue check fails (R98), JALR whose target (computed before W[d] is written) is a multiple of 4, link and jump; JALR to any other
target takes ALIGN at the JALR itself, with the target as TVAL and W[d] not written (R128). What a failing check does to a JALR stands in
FloatResults. -/
def Obligations.BranchesAndJumps : Prop :=
  (∀ i a b off cond, branchOf i = some (a, b, off, cond) → ∀ s r, Issues s r →
      ∃ t pc, exec i s = .next t ∧ RegStep s t r 0 0 pc ∧
        (cond (reg s r a) (reg s r b) → (pc.toNat : Int) = ((r.pc.toNat : Int) + 4 * off.toInt) % 2 ^ 48) ∧
        (¬cond (reg s r a) (reg s r b) → pc = r.pc + 4)) ∧
  (∀ (w : IWord) s r, w.toNat / 2 ^ 26 = 0x10 → 6 ≤ w.toNat / 2 ^ 15 % 8 → Placed s r → RoomToTrap s →
      ∃ t, exec (instrOf w) s = .next t ∧ Trapped s t r .illop 0 (w.setWidth 64) r.pc) ∧
  (((∀ d off s r, Issues s r → ∃ t v pc, exec (.jal d off) s = .next t ∧ v.toNat = (r.pc.toNat + 4) % 2 ^ 48 ∧
        (pc.toNat : Int) = ((r.pc.toNat : Int) + 4 * off.toInt) % 2 ^ 48 ∧ RegStep s t r d v pc) ∧
      (∀ d a imm s r, Issues s r → Sound s → (((reg s r a).toNat : Int) + imm.toInt) % 4 = 0 →
        ∃ t v pc, exec (.jalr d a imm) s = .next t ∧ v.toNat = (r.pc.toNat + 4) % 2 ^ 48 ∧
          (pc.toNat : Int) = (((reg s r a).toNat : Int) + imm.toInt) % 2 ^ 48 ∧ RegStep s t r d v pc)) ∧
    (∀ d a imm s r, Placed s r → Sound s → RoomToTrap s → (((reg s r a).toNat : Int) + imm.toInt) % 4 ≠ 0 →
      ∃ t, exec (.jalr d a imm) s = .next t ∧ Trapped s t r .align 0 (((reg s r a + imm.signExtend 64).setWidth 48).setWidth 64) r.pc))

namespace Sys2Proof.Claims

/-! ### Scalar floating point (R107 to R118) -/

/-- What the FP instructions compute from FSTAT.RM and the registers: destination, pattern and flags. -/
def fpResult : Instr → Option (Reg × (Rm → (Reg → Word) → Nat × Nat))
  | .fadd p d a b => some (d, fun rm w => fpValue .add p rm (w a) (w b))
  | .fsub p d a b => some (d, fun rm w => fpValue .sub p rm (w a) (w b))
  | .fmul p d a b => some (d, fun rm w => fpValue .mul p rm (w a) (w b))
  | .fdiv p d a b => some (d, fun rm w => fpValue .div p rm (w a) (w b))
  | .fsqrt p d a => some (d, fun rm w => fpValue .sqrt p rm (w a) 0)
  | .fmin p d a b => some (d, fun rm w => fpValue .min p rm (w a) (w b))
  | .fmax p d a b => some (d, fun rm w => fpValue .max p rm (w a) (w b))
  | .fsgnj p d a b => some (d, fun _ w => ((fsgnjValue p false (w a) (w b)).toNat, 0))
  | .fsgnjn p d a b => some (d, fun _ w => ((fsgnjValue p true (w a) (w b)).toNat, 0))
  | .feq p d a b => some (d, fun _ w => (b2n (fcmpValue .eq p (w a) (w b)).1, (fcmpValue .eq p (w a) (w b)).2))
  | .flt p d a b => some (d, fun _ w => (b2n (fcmpValue .lt p (w a) (w b)).1, (fcmpValue .lt p (w a) (w b)).2))
  | .fle p d a b => some (d, fun _ w => (b2n (fcmpValue .le p (w a) (w b)).1, (fcmpValue .le p (w a) (w b)).2))
  | .fclass p d a => some (d, fun _ w => ((fclassValue p (w a)).toNat, 0))
  | .fcvtI p d a ty rm => some (d, fun _ w => ((fcvtIValue p ty rm (w a)).1.toNat, (fcvtIValue p ty rm (w a)).2))
  | .fcvtF p d a ty => some (d, fun rm w => fcvtFValue p ty rm (w a))
  | .fcvtSd p d a => some (d, fun rm w => fcvtSdValue p rm (w a))
  | .fmadd p d a b x => some (d, fun rm w => fmaValue p rm false false (w a) (w b) (w x))
  | .fmsub p d a b x => some (d, fun rm w => fmaValue p rm false true (w a) (w b) (w x))
  | .fnmadd p d a b x => some (d, fun rm w => fmaValue p rm true true (w a) (w b) (w x))
  | .fnmsub p d a b x => some (d, fun rm w => fmaValue p rm true false (w a) (w b) (w x))
  | _ => none

/-- The whole effect of an FP instruction: W[d], the flags added to FSTAT (which sets XC when there is one), PC + 4; no other
register, no other CSR, no other slot, and no byte of memory outside head words 0 and `d` and extension word 1. -/
structure FpStep (s t : State) (r : Running) (d : Reg) (v : Word) (fl : Nat) : Prop where
  dest : d ≠ 0 → reg t r d = v
  zero : reg t r 0 = 0
  regs : ∀ e, e ≠ d → reg t r e = reg s r e
  fstat : pcsr t r 1 = pcsr s r 1 ||| BitVec.ofNat 64 fl
  csrs : ∀ n, n ≠ 1 → pcsr t r n = pcsr s r n
  pc : (me t).run = some { r with pc := r.pc + 4, xc := r.xc || fl != 0, held := false, seen := [] }
  retired : (me t).instret = (me s).instret + 1
  slots : ∀ i sl, slotAt (me s) i = some sl → sl.wptr ≠ r.wptr → slotAt (me t) i = some sl
  core : me t = { me s with
    slots := (me t).slots, run := (me t).run, instret := (me t).instret, hpm := (me t).hpm, bufStall := false, hostWord := none }
  frame : OnlyCore s t
  bytes : ∀ a, a / 8 * 8 ≠ r.wptr → a / 8 * 8 ≠ r.wptr + 8 * d.toNat → a / 8 * 8 + 120 ≠ r.wptr → byteAt t a = byteAt s a

/-- The instructions whose result or target carries the residue check (R98, R106, R119; log entry 18). -/
def checked : Instr → Bool
  | .jalr _ _ _ => true
  | .fsgnj _ _ _ _ => false
  | .fsgnjn _ _ _ _ => false
  | .feq _ _ _ _ => false
  | .flt _ _ _ _ => false
  | .fle _ _ _ _ => false
  | .fclass _ _ _ => false
  | .lui _ _ => true
  | .auipc _ _ => true
  | i => (threeReg i).isSome || (twoReg i).isSome || (fpResult i).isSome

/-- A jump whose target is no multiple of 4, as its operand stands (R106). -/
def crooked (w : Reg → Word) : Instr → Bool
  | .jalr _ a imm => decide ((((w a).toNat : Int) + imm.toInt) % 4 ≠ 0)
  | _ => false

/-- CECNT after one more corrected error: saturating (R404). -/
def counted (v : BitVec 32) : BitVec 32 := if v = BitVec.allOnes 32 then v else v + 1

/-- The value of a decoded number in units of 2^k, for k at most its exponent. -/
def inUnits (k : Int) : FV → Option Int
  | .fin s m e => if k ≤ e then some ((if s then -1 else 1) * (m * 2 ^ (e - k).toNat : Nat)) else none
  | _ => none

end Sys2Proof.Claims

/-- R112, R113, R115 to R118: while no residue check fails, every FP instruction computes its value and flags with FSTAT.RM as it stands at
issue, ORs the flags into FSTAT, writes W[d] unless d is 0, advances the PC by 4, and changes nothing else; no floating-point condition traps.
R98, R119: one failed check counts a corrected error and re-executes the instruction, JALR among them, with the same registers, PC and CSRs as
when none fails, and a JALR to a target that is no multiple of 4 then takes its ALIGN; a second failure takes ECCU (in a region that is not
rolling back) with the instruction's address and word, and the instruction has no effect. Which instructions carry a check is the model's choice
where R98 and R119 name only the units (log entry 18).
R113, R114, R116, R117:
FSGNJ and FSGNJN copy every bit but the sign (FP32 with bits 63 to 32 zero), FCLASS sets exactly one of ten bits, an FCVT.I result lies
in its type's range, and FCVT.F never gives an infinity or a NaN. -/
def Obligations.FloatResults : Prop :=
  (∀ i d f, fpResult i = some (d, f) → ∀ s r, Issues s r → (checked i = true → Sound s) →
      ∃ t, exec i s = .next t ∧
        FpStep s t r d (BitVec.ofNat 64 (f (fstatRm (pcsr s r 1)) (reg s r)).1) (f (fstatRm (pcsr s r 1)) (reg s r)).2) ∧
  (((∀ i s r, checked i = true → crooked (reg s r) i = false → Issues s r → (me s).upset = 1 →
        ∃ t u, exec i s = .next t ∧ exec i (modCore s s.cur fun k => { k with upset := 0 }) = .next u ∧ (me t).upset = 0 ∧
          (∀ e, reg t r e = reg u r e) ∧ (me t).run = (me u).run ∧ (∀ n, pcsr t r n = pcsr u r n) ∧ t.mem = u.mem ∧
          (getTile t (coreTile s.cur)).cecnt = counted (getTile s (coreTile s.cur)).cecnt) ∧
      (∀ d a imm s r, crooked (reg s r) (.jalr d a imm) = true → Placed s r → RoomToTrap s → (me s).upset = 1 →
        ∃ t, exec (.jalr d a imm) s = .next t ∧ (me t).upset = 0 ∧
          Trapped s t r .align 0 (((reg s r a + imm.signExtend 64).setWidth 48).setWidth 64) r.pc ∧
          (getTile t (coreTile s.cur)).cecnt = counted (getTile s (coreTile s.cur)).cecnt)) ∧
    (∀ i w n s r, checked i = true → encodeWord i = some w → Placed s r → RoomToTrap s → (me s).upset = n + 2 →
        procRegion s r.wptr ≠ 0 → (getRegion s (procRegion s r.wptr)).rollingBack = false →
        ∃ t, exec i s = .next t ∧ Trapped s t r .eccu 0 (w.setWidth 64) r.pc ∧ (me t).upset = n ∧
          (getTile t (coreTile s.cur)).cecnt = counted (getTile s (coreTile s.cur)).cecnt)) ∧
  ((∀ inv x y k, (fsgnjValue .s inv x y).getLsbD k =
      if k < 31 then x.getLsbD k else if k = 31 then (y.getLsbD 31 != inv) else false) ∧
    (∀ inv x y k, k < 64 → (fsgnjValue .d inv x y).getLsbD k = if k < 63 then x.getLsbD k else (y.getLsbD 63 != inv)) ∧
    (∀ p x, ∃ k, k < 10 ∧ (fclassValue p x).toNat = 2 ^ k) ∧
    (∀ p ty m x, intRead ty (fcvtIValue p ty m x).1 ≥ (intRange ty).1 ∧ intRead ty (fcvtIValue p ty m x).1 ≤ (intRange ty).2) ∧
    (∀ p ty m x, ∃ s k e, fDecode (fmtOf p) (fcvtFValue p ty m x).1 = .fin s k e))

/-- R60, R109, R113: without NX the sum, difference and product are exact. R59, R108, R110, R114: NaNs. Arithmetic on a NaN writes the
canonical quiet NaN, with NV when an operand is signalling; FMIN and FMAX return the other operand's pattern; a comparison gives 0, with NV for
FLT and FLE always and for FEQ when an operand is signalling; FCVT.I gives 0 with NV. -/
def Obligations.FloatExactAndNans : Prop :=
  (∀ p rm x y, ∀ k : Int, ∀ m n : Int, inUnits k (fRead p x) = some m → inUnits k (fRead p y) = some n →
      (∀ v fl, fpValue .add p rm x y = (v, fl) → fl % 2 = 0 → ∀ j q, j ≤ k → inUnits j (fDecode (fmtOf p) v) = some q →
        q = (m + n) * 2 ^ (k - j).toNat) ∧
      (∀ v fl, fpValue .sub p rm x y = (v, fl) → fl % 2 = 0 → ∀ j q, j ≤ k → inUnits j (fDecode (fmtOf p) v) = some q →
        q = (m - n) * 2 ^ (k - j).toNat) ∧
      (∀ v fl, fpValue .mul p rm x y = (v, fl) → fl % 2 = 0 → ∀ j q, j ≤ k + k → inUnits j (fDecode (fmtOf p) v) = some q →
        q = m * n * 2 ^ (k + k - j).toNat)) ∧
  (∀ p rm x y q, fRead p x = .nan q →
      (∀ op, op = FpOp.add ∨ op = FpOp.sub ∨ op = FpOp.mul ∨ op = FpOp.div →
        fpValue op p rm x y = (fNaN (fmtOf p), if q = true ∨ fRead p y = .nan true then flagNV else 0) ∧
        fpValue op p rm y x = (fNaN (fmtOf p), if q = true ∨ fRead p y = .nan true then flagNV else 0)) ∧
      fpValue .sqrt p rm x 0 = (fNaN (fmtOf p), if q = true then flagNV else 0) ∧
      ((∀ u, fRead p y ≠ .nan u) → ∀ op, op = FpOp.min ∨ op = FpOp.max →
        (fpValue op p rm x y).1 = y.toNat % 2 ^ fWidth (fmtOf p) ∧ (fpValue op p rm y x).1 = y.toNat % 2 ^ fWidth (fmtOf p)) ∧
      (∀ op, (fcmpValue op p x y).1 = false ∧ (fcmpValue op p y x).1 = false ∧
        (fcmpValue op p x y).2 = (if op ≠ FpCmp.eq ∨ q = true ∨ fRead p y = .nan true then flagNV else 0)) ∧
      (∀ ty m, fcvtIValue p ty m x = (0, flagNV)) ∧
      (∀ z, fNaN (fmtOf p) = (match p with | .s => 0x7FC00000 | .d => 0x7FF8000000000000) ∧
        (fmaValue p rm false false x y z).1 = fNaN (fmtOf p) ∧ (fmaValue p rm true true y x z).1 = fNaN (fmtOf p) ∧
        (fmaValue p rm true false y z x).1 = fNaN (fmtOf p)))




namespace Sys2Proof.Claims

/-! ### Loads, stores and atomics (R174 to R215) -/

/-- Bytes of a size (R32). -/
def bytesOfSize : Size → Nat
  | .b => 1
  | .h => 2
  | .w => 4
  | .d => 8

/-- The address of base and scaled offset (R26, R201). -/
def effective (base : Word) (off : BitVec 14) (sz : Size) : Word := base + BitVec.ofInt 64 (off.toInt * bytesOfSize sz)

/-- The loads: sign-extending, acquire, destination, base, size, offset. -/
def loadOf : Instr → Option (Bool × Bool × Reg × Reg × Size × BitVec 14)
  | .ld d a sz off => some (true, false, d, a, sz, off)
  | .ldAcq d a sz off => some (true, true, d, a, sz, off)
  | .ldu d a sz off => some (false, false, d, a, sz, off)
  | .lduAcq d a sz off => some (false, true, d, a, sz, off)
  | _ => none

/-- What an instruction that only reads leaves alone: every CSR and the trap and system registers of the core, its store buffer and
journal, all of memory (as kept, and as any party reads it outside head words 0 and `d`), full bits, processes, regions and queues,
and what every other core runs and holds. -/
structure ReadsOnly (s t : State) (r : Running) (d : Reg) : Prop where
  csrs : ∀ n, pcsr t r n = pcsr s r n
  traps : (me t).tcause = (me s).tcause ∧ (me t).tval = (me s).tval ∧ (me t).tpc = (me s).tpc ∧ (me t).tseq = (me s).tseq
  system : (me t).vidsel = (me s).vidsel ∧ (me t).tslice = (me s).tslice ∧ (me t).opreq = (me s).opreq ∧ (me t).hpmctl = (me s).hpmctl
  stores : (me t).sbuf = (me s).sbuf ∧ (me t).journal = (me s).journal
  mem : t.mem = s.mem ∧ t.full = s.full ∧ t.areas = s.areas
  bytes : BytesBut s t r d
  procs : t.procs = s.procs ∧ t.regions = s.regions ∧ t.queues = s.queues
  others : ∀ c, c ≠ s.cur → (getCore t c).run = (getCore s c).run ∧ (getCore t c).slots = (getCore s c).slots

/-- Nothing of the core is on its way: no buffered store of it overlaps the bytes, and none that has left the buffer awaits its home. -/
def Settled (s : State) (pa n : Nat) : Prop := ownStoresOver s s.cur pa n = false ∧ outstanding s s.cur = []

/-- No job has written the doubleword, so that a plain load has no old value of it to return (R189). -/
def NoOld (s : State) (pa : Nat) : Prop := ∀ e ∈ s.jobOld, e.addr ≠ pa / 8 * 8

/-- The stores into the buffer: what kind, row of the checks, effective address, bytes and value; all but HST are posted (R161). -/
def storeOf (w : Reg → Word) : Instr → Option (StKind × Row × Word × Nat × Word)
  | .st d a sz off => some (.st, .store, effective (w a) off sz, bytesOfSize sz, w d)
  | .stRel d a sz off => some (.rel, .store, effective (w a) off sz, bytesOfSize sz, w d)
  | .stf a b => some (.stf, .fe, w a, 8, w b)
  | .sete a => some (.sete, .fe, w a, 8, 0)
  | .hst a b sz => some (.st, .hmem, w a, bytesOfSize sz, w b)
  | _ => none

/-- Loads, stores, full/empty accesses and atomics with the address and the size that their checks take. -/
def accessOf (w : Reg → Word) : Instr → Option (Word × Nat)
  | .ld _ a sz off => some (effective (w a) off sz, bytesOfSize sz)
  | .ldAcq _ a sz off => some (effective (w a) off sz, bytesOfSize sz)
  | .ldu _ a sz off => some (effective (w a) off sz, bytesOfSize sz)
  | .lduAcq _ a sz off => some (effective (w a) off sz, bytesOfSize sz)
  | .st _ a sz off => some (effective (w a) off sz, bytesOfSize sz)
  | .stRel _ a sz off => some (effective (w a) off sz, bytesOfSize sz)
  | .ldf _ a => some (w a, 8)
  | .stf a _ => some (w a, 8)
  | .sete a => some (w a, 8)
  | .join a => some (w a, 8)
  | .waita _ a _ _ => if a = 0 then none else some (w a, 8)
  | .amoSwap f => some (w f.a, bytesOfSize f.size)
  | .amoAdd f => some (w f.a, bytesOfSize f.size)
  | .amoAnd f => some (w f.a, bytesOfSize f.size)
  | .amoOr f => some (w f.a, bytesOfSize f.size)
  | .amoXor f => some (w f.a, bytesOfSize f.size)
  | .amoMin f => some (w f.a, bytesOfSize f.size)
  | .amoMax f => some (w f.a, bytesOfSize f.size)
  | .amoMinu f => some (w f.a, bytesOfSize f.size)
  | .amoMaxu f => some (w f.a, bytesOfSize f.size)
  | .amoCas f _ => some (w f.a, bytesOfSize f.size)
  | _ => none

/-- The atomics: their fields, the register of the expected value, whether a host window takes them without .T (R212), and the relation of old value, operand, expected value and new
value (R210), on unsigned values of `n` bytes. -/
def amoOf : Instr → Option (AmoForm × Reg × Bool × (Nat → Nat → Nat → Nat → Nat → Prop))
  | .amoSwap f => some (f, 0, true, fun _ _ b _ v => v = b)
  | .amoAdd f => some (f, 0, true, fun n old b _ v => v = (old + b) % 256 ^ n)
  | .amoAnd f => some (f, 0, false, fun _ old b _ v => ∀ k, v.testBit k = (old.testBit k && b.testBit k))
  | .amoOr f => some (f, 0, false, fun _ old b _ v => ∀ k, v.testBit k = (old.testBit k || b.testBit k))
  | .amoXor f => some (f, 0, false, fun _ old b _ v => ∀ k, v.testBit k = (old.testBit k != b.testBit k))
  | .amoMin f => some (f, 0, false, fun n old b _ v => (v = old ∨ v = b) ∧ sx v (8 * n) ≤ sx old (8 * n) ∧ sx v (8 * n) ≤ sx b (8 * n))
  | .amoMax f => some (f, 0, false, fun n old b _ v => (v = old ∨ v = b) ∧ sx old (8 * n) ≤ sx v (8 * n) ∧ sx b (8 * n) ≤ sx v (8 * n))
  | .amoMinu f => some (f, 0, false, fun _ old b _ v => v = Min.min old b)
  | .amoMaxu f => some (f, 0, false, fun _ old b _ v => v = Max.max old b)
  | .amoCas f x => some (f, x, true, fun _ old b e v => v = if old = e then b else old)
  | _ => none

/-- No checkpoint interval logs the tile, and no watch of the tile overlaps the bytes. -/
def Unwatched (s : State) (pa n : Nat) : Prop :=
  (∀ t, undoTile pa = some t → intervalRegion s t = none) ∧
  (∀ t, homeTile pa = some t → ∀ w ∈ (getTile s t).watches, w.pa + w.len ≤ pa ∨ pa + n ≤ w.pa)

/-- No checkpoint interval is open. -/
def NoIntervals (s : State) : Prop := ∀ g ∈ s.regions, g.2.interval = none

/-- The range lies in no resume word of a running process, in no CSR of a resident one, and in no control word of a process (R89 to R91,
R94): every bit written there is kept, and nothing else follows. -/
def Plain (s : State) (pa n : Nat) : Prop :=
  ∀ k, k < n → (∀ c, snoopOf s ((pa + k) / 8 * 8) ≠ some (.resume c)) ∧ (∀ c i m, snoopOf s ((pa + k) / 8 * 8) ≠ some (.csr c i m)) ∧
    workMask s ((pa + k) / 8 * 8) = BitVec.allOnes 64

end Sys2Proof.Claims

/-- R198: the checks in a physical space (system mode, tenant 0, VIDSEL clear): BOUND for a nonzero bit 63 to 52, then ALIGN; an aligned
address of the executing tile's own TLM passes for every kind of load and store with itself as physical address, and the checks change nothing
there. R128, R165: every load, store, full/empty access, JOIN and atomic traps precisely at itself, with the address it named as TVAL: BOUND
above its space (52 bits physical, 48 virtual), else ALIGN when misaligned. -/
def Obligations.AddressChecks : Prop :=
  (∀ s r ea n kind row posted, r.sm = true → bit (me s).vidsel 12 = false → rcbTenant s r.rcb = 0 →
      (2 ^ 52 ≤ ea.toNat → memCheck s s.cur r ea n kind row posted = (s, .trap .bound)) ∧
      (ea.toNat < 2 ^ 52 → ea.toNat % n ≠ 0 → memCheck s s.cur r ea n kind row posted = (s, .trap .align)) ∧
      (row ≠ .hmem → coreTile s.cur < 12544 → coreTile s.cur * 0x400000 ≤ ea.toNat → ea.toNat < coreTile s.cur * 0x400000 + 0x300000 →
        isDark s (coreTile s.cur) = false → ea.toNat % n = 0 →
        memCheck s s.cur r ea n kind row posted = (s, .ok ea.toNat false))) ∧
  (∀ i s r ea n, accessOf (reg s r) i = some (ea, n) → Placed s r → RoomToTrap s →
      (2 ^ (if addrSpace s s.cur r = none then 52 else 48) ≤ ea.toNat → ∃ t, exec i s = .next t ∧ Trapped s t r .bound 0 ea r.pc) ∧
      (ea.toNat < 2 ^ (if addrSpace s s.cur r = none then 52 else 48) → ea.toNat % n ≠ 0 →
        ∃ t, exec i s = .next t ∧ Trapped s t r .align 0 ea r.pc))


/-- R177, R180, R201: a load whose checks pass, of TLM or of an accumulator tile that nothing holds (R141, R149), that it reads at the home (in the
core's segment, or an acquire, or uncached), writes the bytes at the address, lowest first, sign-extended or zero-extended to 64 bits, and changes no memory; a plain
one of a word that a job has written returns those bytes or the ones of an old value of the word (R189; which old values are kept is the
model's choice, log entry 73), an acquire always the present ones.
R196, R434: a load from device space returns what the register there reads as, once the core's own device stores have left; a load from a
host window stops issue until the completion comes. -/
def Obligations.LoadsRead : Prop :=
  (∀ i signed acq d a sz off, loadOf i = some (signed, acq, d, a, sz, off) → ∀ s r s1 pa nc, Issues s r →
      memCheck s s.cur r (effective (reg s r a) off sz) (bytesOfSize sz) .read .ldst false = (s1, .ok pa nc) →
      (spaceOf pa = 0 ∨ spaceOf pa = 1 ∧ accLoadHeld s pa = false) →
      (inSegment s.cur pa = true ∨ acq = true ∨ nc = true) → Settled s pa (bytesOfSize sz) → uncorrectable s pa (bytesOfSize sz) = false →
      ∃ t v x, exec i s = .next t ∧ Answers s t r d v ∧ ReadsOnly s t r d ∧
        (signed = true → v.toInt = sx x (8 * bytesOfSize sz)) ∧ (signed = false → v.toNat = x) ∧
        (acq = true ∨ NoOld s pa → x = rdN s pa (bytesOfSize sz)) ∧
        (x = rdN s pa (bytesOfSize sz) ∨
          ∃ e ∈ s.jobOld, e.addr = pa / 8 * 8 ∧ x = e.old.toNat / 256 ^ (pa % 8) % 256 ^ bytesOfSize sz)) ∧
  (∀ i signed acq d a sz off, loadOf i = some (signed, acq, d, a, sz, off) → ∀ s r s1 pa nc, Issues s r →
      memCheck s s.cur r (effective (reg s r a) off sz) (bytesOfSize sz) .read .ldst false = (s1, .ok pa nc) →
      (spaceOf pa = 15 → (∀ e ∈ (me s).sbuf, spaceOf e.pa ≠ 15) → ∃ t v, exec i s = .next t ∧ Answers s t r d v ∧ t.mem = s.mem ∧
        (signed = false → v.toNat = (devRead s1 (.core s.cur) pa (bytesOfSize sz)).1 % 256 ^ bytesOfSize sz)) ∧
      (spaceOf pa = 8 → linkStores s s.cur pa = false → ∃ t, exec i s = .next t ∧ t.mem = s.mem ∧ (me t).run = some r ∧
        (∀ e, reg t r e = reg s r e) ∧ (s.cur, pa) ∈ t.hosts.pending ∧
        (me t).stall = some (.pcieLoad (effective (reg s r a) off sz) pa d (bytesOfSize sz) signed acq)))

/-- R191, R202, R206, R207, R215: a store whose checks pass enters the store buffer as its youngest entry, with its address, bytes, low
bytes of the value, kind, process, tenant and mode, and retires; memory does not change yet. ST.REL and STF wait until no earlier store of
the process is outstanding; HST is an instruction of memory cores. R177, R202: the oldest store of a core's buffer, when it is homed in the
executing tile's TLM and nothing holds it there, updates the core's own copy of its line and is performed as it leaves; one for another tile
takes a free journal entry and a message carries it; one for a host window is handed to its link. -/
def Obligations.StoresThroughTheBuffer : Prop :=
  (∀ i s r kind row ea n v s1 pa nc, storeOf (reg s r) i = some (kind, row, ea, n, v) → Issues s r →
      memCheck s s.cur r ea n .write row (row != .hmem) = (s1, .ok pa nc) → (me s).sbuf.length < 16 →
      (row = .hmem → isMemCore s.cur = true) →
      (kind = .rel ∨ kind = .stf → (me s).sbuf = [] ∧ (me s).journal = []) →
      ∃ t, exec i s = .next t ∧ Answers s t r 0 0 ∧ t.mem = s.mem ∧ BytesBut s t r 0 ∧ (∀ k, pcsr t r k = pcsr s r k) ∧
        (me t).sbuf = (me s).sbuf ++ [⟨pa, ea.toNat % 2 ^ 48, n, BitVec.ofNat 64 (v.toNat % 256 ^ n), kind, r.wptr,
          (addrSpace s s.cur r).getD 0, r.sm, false⟩]) ∧
  (∀ s c e rest, (getCore s c).sbuf = e :: rest →
      (spaceOf e.pa = 0 → homeTile e.pa = some (coreTile c) → storeHeld s e (.own c) = false → segStoresDone s c = true →
        exec (.storeLeavesBuffer c) s =
          .next (settle (performStore (storeToL1 (dropHeldAcc (modCore s c fun k => { k with sbuf := rest }) (.own c)) c e) e c))) ∧
      (∀ t j, spaceOf e.pa = 0 → homeTile e.pa = some t → t ≠ coreTile c → holeCheck s (coreTile c) e.pa = .clear → freeJournal s c = some j →
        ∃ u, exec (.storeLeavesBuffer c) s = .next (settle u) ∧ u.mem = s.mem ∧ .store c j ∈ u.msgs ∧
          (getCore u c).sbuf = rest ∧ (amGet (getCore u c).journal j).map (·.store) = some e) ∧
      (spaceOf e.pa = 8 → ∃ u, exec (.storeLeavesBuffer c) s = .next (settle u) ∧ (getCore u c).sbuf = rest ∧
        (getCore u c).linksUsed = (getCore s c).linksUsed ||| (1#4 <<< linkOf e.pa)))

/-- R39 step 5, R215: HLD on a memory core reads its HBM sign-extended (for a word that no job has written; else as R189 says of a plain
load, with the old values of log entry 73); HLD and HST on any other core take FAR. -/
def Obligations.HbmAccess : Prop :=
  (∀ d a sz s r s1 pa nc, Issues s r → isMemCore s.cur = true →
    memCheck s s.cur r (reg s r a) (bytesOfSize sz) .read .hmem false = (s1, .ok pa nc) → Settled s pa (bytesOfSize sz) →
    uncorrectable s pa (bytesOfSize sz) = false →
    ∃ t v x, exec (.hld d a sz) s = .next t ∧ Answers s t r d v ∧ ReadsOnly s t r d ∧ v.toInt = sx x (8 * bytesOfSize sz) ∧
      (NoOld s pa → x = rdN s pa (bytesOfSize sz)) ∧
      (x = rdN s pa (bytesOfSize sz) ∨ ∃ e ∈ s.jobOld, e.addr = pa / 8 * 8 ∧ x = e.old.toNat / 256 ^ (pa % 8) % 256 ^ bytesOfSize sz)) ∧
  (∀ d a b sz s r, Placed s r → RoomToTrap s → isMemCore s.cur = false →
    (∃ t v, exec (.hld d a sz) s = .next t ∧ Trapped s t r .far 0 v r.pc) ∧
    (∃ t v, exec (.hst a b sz) s = .next t ∧ Trapped s t r .far 0 v r.pc))

/-- R191, R203, R204: a write performed at its home puts the low `n` bytes of its value at its address, lowest first, and leaves every
other byte of memory; a full bit given is that of the word, and no other full bit changes. R89 to R91, R94: a doubleword written into a
process's workspace reads back with the bits that are not fixed at zero there, also where a slot or a running process serves it, and a write
of a resident process's CSR word sets its XC. R120: the mode bit of a running process's resume word keeps its value, since SM changes only while
the process is not RUNNING; that the other bits change the run is the model's choice (log entry 84). -/
def Obligations.WritesAreExact : Prop :=
  (∀ s pa v rel rg, pa % 8 = 0 → Unwatched s pa 8 → (getRegion s rg).interval = none →
    (∀ c, snoopOf s pa = some (.resume c) → workMask s pa = resumeMask) →
    ((∀ c, snoopOf s pa ≠ some (.resume c)) → dwAt (performWrite s pa 8 v none rel rg) pa = BitVec.ofNat 64 v &&& workMask s pa) ∧
    (∀ c r, snoopOf s pa = some (.resume c) → (getCore s c).run = some r →
      (∀ k, k < 63 → (dwAt (performWrite s pa 8 v none rel rg) pa).getLsbD k = (BitVec.ofNat 64 v &&& workMask s pa).getLsbD k) ∧
      (dwAt (performWrite s pa 8 v none rel rg) pa).getLsbD 63 = r.sm) ∧
    (∀ c i m sl, snoopOf s pa = some (.csr c i m) → slotAt (getCore s c) i = some sl → sl.wptr % 8 = 0 →
      xcOf (performWrite s pa 8 v none rel rg) c sl.wptr = true)) ∧
  ∀ s pa n v full rel rg, 0 < n → n ≤ 8 → pa % n = 0 → Plain s pa n → Unwatched s pa n → (getRegion s rg).interval = none →
    (∀ a, a < pa ∨ pa + n ≤ a → byteAt (performWrite s pa n v full rel rg) a = byteAt s a) ∧
    (∀ k, k < n → (byteAt (performWrite s pa n v full rel rg) (pa + k)).toNat = v / 256 ^ k % 256) ∧
    (∀ a, a ∈ (performWrite s pa n v full rel rg).full ↔
      (a = pa / 8 * 8 ∧ full = some true) ∨ (a ∈ s.full ∧ ¬(a = pa / 8 * 8 ∧ full = some false)))


/-- R204 to R208, R228: LDF of a full word, WAITA of a word that differs from W[b], and JOIN on a zero counter return at once; LDF of an
empty word, WAITA of an equal word and JOIN on a counter that is not zero take a watch entry of the home and wait, in WFULL, WADDR and
WJOIN. WAITA with a = 0 waits on time alone. -/
def Obligations.FullEmptyAndWaits : Prop :=
  ∀ s r, Placed s r →
    (∀ i d a, i = Instr.ldf d a ∨ (d = 0 ∧ i = Instr.join a) ∨ (∃ b, a ≠ 0 ∧ i = Instr.waita d a b 0) →
      ∀ s1 pa nc h, memCheck s s.cur r (reg s r a) 8 .read .fe false = (s1, .ok pa nc) → ownStoresOver s s.cur pa 8 = false →
      uncorrectable s pa 8 = false → homeTile pa = some h → (getTile s h).watches.length < 64 →
      (((∃ e b, i = Instr.ldf e b) ∧ isFull s pa = true) ∨ (i = Instr.join a ∧ dwAt s pa = 0) ∨
        (∃ b, i = Instr.waita d a b 0 ∧ dwAt s pa ≠ reg s r b) →
        ∃ t, exec i s = .next t ∧ Answers s t r d (dwAt s pa) ∧ ReadsOnly s t r d) ∧
      (∀ st info, (i = Instr.ldf d a ∧ isFull s pa = false ∧ st = 5 ∧ info = .ldf d) ∨
          (i = Instr.join a ∧ dwAt s pa ≠ 0 ∧ st = 7 ∧ info = .join) ∨
          (∃ b, i = Instr.waita d a b 0 ∧ dwAt s pa = reg s r b ∧ st = 6 ∧ info = .waita d (dwAt s pa) none) →
        ∃ t, exec i s = .next t ∧ Waits s t r st 0 info ∧
          (getTile t h).watches = (getTile s h).watches ++ [⟨r.wptr, pa, 8⟩])) ∧
    (∀ d b x, x ≠ 0 →
      (s.time.toNat < (reg s r x).toNat → ∃ t, exec (.waita d 0 b x) s = .next t ∧ Waits s t r 9 0 (.time d (reg s r b) (reg s r x))) ∧
      ((reg s r x).toNat ≤ s.time.toNat → ∃ t, exec (.waita d 0 b x) s = .next t ∧ RegStep s t r d (reg s r b) (r.pc + 4)))

/-- R210, R211, R213: an atomic whose checks pass, with the core's stores performed, returns the old value sign-extended and leaves at its
address the value its operation gives, in one step; every other byte of memory stays (a .T form where no trigger table is enabled). -/
def Obligations.AtomicResults : Prop :=
  ∀ i f x host rel, amoOf i = some (f, x, host, rel) → ∀ s r s1 pa nc, Issues s r →
    memCheck s s.cur r (reg s r f.a) (bytesOfSize f.size) .write (.amo (!f.trig && host)) false = (s1, .ok pa nc) → spaceOf pa = 0 →
    (me s).sbuf = [] → (me s).journal = [] → portHolds s pa (bytesOfSize f.size) (.instr s.cur) r.sm = false →
    uncorrectable s pa (bytesOfSize f.size) = false → pa % bytesOfSize f.size = 0 →
    (∀ h, homeTile pa = some h → f.trig = true → bit (getTile s h).trigBase 0 = false) →
    snoopOf s (pa / 8 * 8) = none → workMask s (pa / 8 * 8) = BitVec.allOnes 64 → Unwatched s pa (bytesOfSize f.size) →
    (getRegion s r.rcb).interval = none →
    ∃ t v w, exec i s = .next t ∧ Answers s t r f.d v ∧
      v.toInt = sx (rdN s pa (bytesOfSize f.size)) (8 * bytesOfSize f.size) ∧
      rel (bytesOfSize f.size) (rdN s pa (bytesOfSize f.size)) ((reg s r f.b).toNat % 256 ^ bytesOfSize f.size)
        ((reg s r x).toNat % 256 ^ bytesOfSize f.size) w ∧
      (∀ k, k < bytesOfSize f.size → (byteAt t (pa + k)).toNat = w / 256 ^ k % 256) ∧
      (∀ a, a < pa ∨ pa + bytesOfSize f.size ≤ a → a / 8 * 8 ≠ r.wptr → a / 8 * 8 ≠ r.wptr + 8 * f.d.toNat → byteAt t a = byteAt s a)

/-- R182, R183: FENCE.ACQ retires at once; FENCE.REL and FENCE.FULL retire when no store of the process in scope is outstanding (and for
SYS no link carries a store of the core), and otherwise stand at their place, or for a link stall issue for the zero-length reads of R197; no register and no memory changes. -/
def Obligations.FencesOrder : Prop :=
  ∀ s r, Issues s r → ∀ sc,
    (∃ t, exec (.fenceAcq sc) s = .next t ∧ Answers s t r 0 0 ∧ ReadsOnly s t r 0) ∧
    (∀ i, i = Instr.fenceRel sc ∨ i = Instr.fenceFull sc → refusedIn s s.cur r.wptr sc = none →
      ((me s).sbuf = [] → unackedIn s s.cur r.wptr sc = false → (sc = .sys → (me s).linksUsed = 0) →
        ∃ t, exec i s = .next t ∧ Answers s t r 0 0 ∧ ReadsOnly s t r 0) ∧
      ((me s).sbuf ≠ [] ∨ unackedIn s s.cur r.wptr sc = true → ∃ t, exec i s = .next t ∧ Held s t r) ∧
      ((me s).sbuf = [] → unackedIn s s.cur r.wptr sc = false → sc = .sys → (me s).linksUsed ≠ 0 →
        ∃ t, exec i s = .next t ∧ t = { s with cores := t.cores } ∧ me t = { me s with stall := some (.pcieRelease (me s).linksUsed) }))

namespace Sys2Proof.Claims

/-! ### Traps and the SYS group (R120 to R138, R342 to R347) -/

/-- The trap causes by code (R129). -/
def causesByCode : List Cause :=
  [.illop, .priv, .align, .page, .prot, .far, .bound, .chan, .peerlost, .deadlock, .postref, .sitelost, .hole, .eccu, .engfault, .stalekv,
   .reporder, .ringsize, .swtrap, .brk, .ckfail, .tenant, .tokenflt, .contact, .memberLost]

/-- The precise class of R342. -/
def Precise (c : Cause) (sub : Nat) : Prop :=
  c ∈ [Cause.illop, .priv, .align, .prot, .far, .bound, .hole, .tenant, .page, .swtrap, .brk, .ringsize, .reporder] ∨
    (c = .chan ∧ (sub = 1 ∨ sub = 4))

/-- The system instructions, each with its destination and its word. -/
def systemOf : Instr → Option IWord
  | .resume d a b => some (encR 0x2D d a b 3 0)
  | .killp d a => some (encR 0x2D d a 0 4 0)
  | .jrnl d a b => some (encR 0x2D d a b 5 0)
  | .rgnsusp d a => some (encR 0x2D d a 0 6 0)
  | .rgnresm d a => some (encR 0x2D d a 0 7 0)
  | _ => none

/-- No store of the executing core is outstanding. -/
def Drained (s : State) : Prop := (me s).sbuf = [] ∧ (me s).journal = []

/-- A process without region and join counter, which waits for nothing, holds no queue entry and has no select in progress. -/
structure AloneAt (s : State) (w : Nat) (p : Proc) : Prop where
  known : getProc s w = some p
  base : 8 ≤ w
  free : p.rcb = 0 ∧ p.join = none ∧ p.wait = .none
  noEntry : ∀ q ∈ s.queues, ∀ e ∈ q.2.entries, e.2.taken ≠ some w
  noSelect : ∀ e ∈ s.selects, e.2.wptr ≠ w

/-- Bits of a CSR that keep what is written to them (R125, R126), for the registers whose writable bits are plain storage. -/
def keptBits (n : Nat) : Option Nat :=
  match n with
  | 0x001 => some 0x7F
  | 0x002 => some (2 ^ 64 - 1)
  | 0x003 => some (2 ^ 64 - 1)
  | 0x004 => some (2 ^ 64 - 1)
  | 0x005 => some 0xF
  | 0x006 => some 0x7FFFFFFFF
  | 0x007 => some 0xF
  | 0x008 => some 0xFFFF
  | 0x009 => some 0xFFFF
  | 0x00A => some 0xFF
  | 0x00B => some 0xFFFFFFFF00000003
  | 0x102 => some (2 ^ 64 - 1)
  | 0x103 => some (2 ^ 64 - 1)
  | 0x107 => some 7
  | 0x10A => some 0x1FFF
  | 0x180 => some 0x1FFFF
  | 0x181 => some (2 ^ 64 - 1)
  | 0x182 => some 0xFFFFFFFFFFFF
  | 0x183 => some 0xFFFFFFFF
  | 0x205 => some 0x8000FFFFFFFFFFFF
  | 0x206 => some 0x3FFC01
  | 0x280 => some 0xFFF
  | 0x281 => some 0xFFFFFFFFFFE01
  | 0x282 => some 0xFFFFFFFFFC001
  | _ => none

/-- The CSR instructions: operation, destination, source and number. -/
def csrOf : Instr → Option (CsrOp × Reg × Reg × BitVec 12)
  | .csrr d n => some (.read, d, 0, n)
  | .csrw d a n => some (.write, d, a, n)
  | .csrs d a n => some (.set, d, a, n)
  | .csrc d a n => some (.clear, d, a, n)
  | _ => none

/-- What a CSR instruction writes, from the old value and W[a] (R122); none for a pure read. -/
def csrNew (op : CsrOp) (a : Reg) (old w : Word) : Option Word :=
  match op with
  | .read => none
  | .write => some w
  | .set => if a = 0 then none else some (old ||| w)
  | .clear => if a = 0 then none else some (old &&& ~~~w)

end Sys2Proof.Claims

/-- R128, R342 to R344: taking a trap, whatever its cause, from the executing process: it is TRAPPED with its own PC, or the next one for
SWTRAP and BREAK, in its resume word; TCAUSE holds code, sub-reason and AS, TVAL and TPC theirs, and TSEQ rises; the record of eight
doublewords (the code, SUB, AS and SEQ; process; PC; TVAL; PLACE; RCB; AUX; TIME) takes a free slot of the tile's trap queue; no other core
and no byte outside the resume word and the WAIT word changes. -/
def Obligations.TakingATrap : Prop :=
  ∀ s r cause sub tval aux next, Placed s r → RoomToTrap s → sub < 256 →
    let t := takeTrap s r.wptr cause sub tval aux next
    Trapped s t r cause sub tval (if next then r.pc + 4 else r.pc) ∧
    (∃ k x, k ∈ freeSlots s (coreTile s.cur) ∧ ((getTile t (coreTile s.cur)).trapQ[k]?).getD none = some x ∧
      (getTile t (coreTile s.cur)).trapOrder = (getTile s (coreTile s.cur)).trapOrder ++ [k] ∧ x.rcb = procRegion s r.wptr ∧
      ∃ w0 : Word, x.words = [w0, BitVec.ofNat 64 r.wptr, r.pc.setWidth 64, tval, placeOf s.cur, BitVec.ofNat 64 (procRegion s r.wptr), aux, s.time] ∧
        causesByCode[w0.toNat % 256 - 1]? = some cause ∧ w0.toNat / 2 ^ 8 % 2 ^ 8 = sub ∧
        (Precise cause sub → w0.toNat / 2 ^ 16 % 2 ^ 16 = 0) ∧ (¬Precise cause sub → w0.toNat / 2 ^ 16 % 2 ^ 16 = 1) ∧
        w0.toNat / 2 ^ 32 = (me s).tseq.toNat % 2 ^ 32) ∧
    (∀ c, c ≠ s.cur → getCore t c = getCore s c) ∧
    (∀ a, a < r.wptr - 8 ∨ r.wptr + 8 ≤ a → memGet t.mem a = memGet s.mem a) ∧ (∀ n, pcsr t r n = pcsr s r n)

/-- R131: TRAP raises SWTRAP with TVAL = W[a], BRK raises BREAK with TVAL 0; a RESUME without a new PC continues after them. -/
def Obligations.TrapAndBreak : Prop :=
  ∀ s r, Placed s r → RoomToTrap s →
    (∀ a, ∃ t, exec (.trap a) s = .next t ∧ Trapped s t r .swtrap 0 (reg s r a) (r.pc + 4)) ∧
    (∃ t, exec .brk s = .next t ∧ Trapped s t r .brk 0 0 (r.pc + 4))

/-- R39: a word that no row encodes raises ILLOP at itself, with the word as TVAL; RESUME, KILLP, JRNL, RGNSUSP and RGNRESM of a
region-mode process take PRIV, with the word as TVAL. R86, R165, R199: a failing fetch is raised at the address that was fetched, as TPC and
TVAL: BOUND beyond the space, PROT where the page forbids it; a page fault makes the process wait in WADDR with ARG 0x50 and an entry of its
core's page-wait table. -/
def Obligations.DecodeAndFetchTraps : Prop :=
  (((∀ w s r, Placed s r → RoomToTrap s → ∃ t, exec (.illop w) s = .next t ∧ Trapped s t r .illop 0 (w.setWidth 64) r.pc) ∧
      (∀ w, (∃ e, decodeWord w = .error e) → instrOf w = .illop w)) ∧
    (∀ i w, systemOf i = some w → ∀ s r, Placed s r → RoomToTrap s → r.sm = false →
        ∃ t, exec i s = .next t ∧ Trapped s t r .priv 0 (w.setWidth 64) r.pc)) ∧
  (∀ s r, Placed s r → RoomToTrap s →
      (∀ s1 x, memCheck s s.cur r (r.pc.setWidth 64) 4 .fetch .fetch false = (s1, .trap x) →
        ∃ t, exec (.fetchFault r.pc) s = .next t ∧ Trapped s t r x 0 (r.pc.setWidth 64) r.pc) ∧
      (∀ s1 tn m, memCheck s s.cur r (r.pc.setWidth 64) 4 .fetch .fetch false = (s1, .fault tn m) → (me s).pwait.length < 4 →
        ∃ t, exec (.fetchFault r.pc) s = .next t ∧ Waits s t r 6 0x50 .page ∧
          (me t).pwait = (me s).pwait ++ [⟨r.wptr, tn, r.pc.toNat / 2 ^ 16 * 2 ^ 16⟩]))


/-- R133, R134: RESUME of a TRAPPED process that has its marks, once the issuer's stores are performed and while no KILLP names the process,
writes status 0 and puts it at the tail of the run queue of its core and priority, READY, at the PC in W[b] unless b is 0; SUSPENDED instead
while its region is; before that the instruction stands at its place. A process that is not TRAPPED gives status 1, one without marks 2, an
invalid PC 3; where the process has marks its core has received the message, which ends a WFI there (R132). -/
def Obligations.ResumeReturns : Prop :=
  ∀ d a b s r w, Placed s r → r.sm = true → (reg s r a).toNat = w → sysAddrStatus s s.cur (reg s r a) 128 = 0 → 128 ≤ w → w ≠ r.wptr →
    (∀ p, getProc s w = some p → pstate s w = 10 → (b = 0 ∨ pcValid (reg s r b) = true) → p.killed = false → Drained s →
      (∀ x ∈ runQueue (getCore s p.core) (bit (resumeAt s w) 62), x % 128 = 0 ∧ 128 ≤ x) →
      ((p.rcb = 0 ∨ p.rcb % 256 = 0 ∧ rcbState s p.rcb = 0) →
        ∃ u, exec (.resume d a b) s = .next (settle u) ∧ Answers s u r d 0 ∧ pstate u w = 1 ∧
          resumePc u w = (if b = 0 then resumePc s w else (reg s r b).setWidth 48) ∧
          runQueue (getCore u p.core) (bit (resumeAt s w) 62) = runQueue (getCore s p.core) (bit (resumeAt s w) 62) ++ [w]) ∧
      (p.rcb ≠ 0 → p.rcb % 256 = 0 → rcbState s p.rcb = 1 →
        ∃ u, exec (.resume d a b) s = .next (settle u) ∧ Answers s u r d 0 ∧ pstate u w = 11)) ∧
    (∀ p, getProc s w = some p → pstate s w = 10 → (b = 0 ∨ pcValid (reg s r b) = true) →
      (p.killed = true ∨ (me s).sbuf ≠ [] ∨ unackedIn s s.cur r.wptr .panel = true) → ∃ t, exec (.resume d a b) s = .next t ∧ Held s t r) ∧
    (getProc s w = none → pstate s w ≠ 12 → ∃ t, exec (.resume d a b) s = .next t ∧ RegStep s t r d 2 (r.pc + 4)) ∧
    ((getProc s w).isSome = true → pstate s w ≠ 10 →
      ∃ t, exec (.resume d a b) s = .next t ∧ RegStep (wakeCore s (procCore s w)) t r d 1 (r.pc + 4)) ∧
    ((getProc s w).isSome = true → pstate s w = 10 → b ≠ 0 → pcValid (reg s r b) = false →
      ∃ t, exec (.resume d a b) s = .next t ∧ RegStep (wakeCore s (procCore s w)) t r d 3 (r.pc + 4))

/-- R135, R227: the end of a process without a region that waits for nothing and stands in no queue: its marks are gone, its WAIT word
says ENDED, its slot is free, and no core runs it. ENDP ends the executing process so once its stores are performed, its join counter first;
while the counter is held at its home it stands at its place. KILLP of another process names it and stops issue; once that process has nothing
under way it is ended, and KILLP retires with status 0, or with 1 when an earlier KILLP had named it (R138). -/
def Obligations.ProcessesEnd : Prop :=
  (∀ s w p dec, AloneAt s w p →
    getProc (endProc s w dec) w = none ∧ pstate (endProc s w dec) w = 12 ∧
      (∀ i, slotOf (getCore s p.core) w = some i → slotAt (getCore (endProc s w dec) p.core) i = none) ∧
      ∀ r, (getCore (endProc s w dec) p.core).run = some r → r.wptr ≠ w) ∧
  (∀ s r p, Issues s r → Drained s → getProc s r.wptr = some p →
    (p.join = none → exec .endp s = .next (settle (endProcWith (modCore s s.cur retireCount) r.wptr .now))) ∧
    (∀ ja, p.join = some ja → uncorrectable s ja 8 = false →
      (portHolds s ja 8 (.instr s.cur) r.sm = false →
        ∃ u, exec .endp s = .next (settle (endProcWith (modCore u s.cur retireCount) r.wptr .now)) ∧
          u = (match homeTile ja with
            | some h => noteMsg (dropHeldAcc s (.instr s.cur)) s.cur h
            | none => dropHeldAcc s (.instr s.cur))) ∧
      (portHolds s ja 8 (.instr s.cur) r.sm = true →
        ∃ t, exec .endp s = .next t ∧ (me t).run = some { r with held := true } ∧ t.yielded = true ∧ t.mem = s.mem ∧ t.procs = s.procs))) ∧
  ((∀ d a s r w p, Issues s r → r.sm = true → (reg s r a).toNat = w → sysAddrStatus s s.cur (reg s r a) 128 = 0 → w ≠ r.wptr →
      getProc s w = some p →
      ∃ u, exec (.killp d a) s = .next (settle u) ∧ getProc u w = some { p with killed := true } ∧
        (me u).stall = some (if p.killed then .killNext d w else .kill d w) ∧
        (me u).run = some r ∧ (getCore u p.core).wfi = false ∧ u.mem = s.mem) ∧
    (∀ s w p c r d (next : Bool), AloneAt s w p → p.killed = true → 2 ≤ pstate s w → isRunning s w = false → storesLeft s w = false → inTransfer s w = false →
      (∀ x ∈ s.tiles, ∀ y ∈ x.2.spill, endWptr y.writer ≠ w ∧ endWptr y.reader ≠ w) → (∀ x ∈ s.procs, x.1 ≠ w → x.2.killed = false) →
      (getCore s c).run = some r → r.wptr ≠ w → (slotOf (getCore s c) r.wptr).isSome = true →
      (getCore s c).stall = some (if next then .killNext d w else .kill d w) →
      (∀ k e v, k ≠ c → (getCore s k).stall ≠ some (.kill e v) ∧ (getCore s k).stall ≠ some (.killNext e v)) →
      getProc (serveKills s) w = none ∧ pstate (serveKills s) w = 12 ∧ (getCore (serveKills s) c).stall = none ∧
        (getCore (serveKills s) c).run = some { r with pc := r.pc + 4, held := false, seen := [] } ∧
        (d ≠ 0 → regRd (serveKills s) c r.wptr d = if next then 1 else 0)))

/-- R132: WFI retires and stops issue on the core unless a wake event is pending already; an event of R132 restarts it.
R346, R347: JRNL returns the doubleword that selector 0, 1 or 2 names of a journal entry of any core, or 0 for a free entry, and frees a refused
entry when asked; at another core its message ends a WFI. -/
def Obligations.WfiAndJournal : Prop :=
  ((∀ s r, Issues s r → (me s).wfi = false →
      (wakePending s s.cur r = false → ∃ t, exec .wfi s = .next t ∧ Answers s t r 0 0 ∧ (me t).wfi = true ∧ issuer t = none) ∧
      (wakePending s s.cur r = true → ∃ t, exec .wfi s = .next t ∧ RegStep s t r 0 0 (r.pc + 4))) ∧
    (∀ s c, ((getCore s c).run = none → exec (.wfiWake c) s = .next s) ∧
      ∀ r, (getCore s c).run = some r → (wakePending s c r = false → exec (.wfiWake c) s = .next s) ∧
        (wakePending s c r = true → ∃ t, exec (.wfiWake c) s = .next t ∧ t = { s with cores := t.cores } ∧
          (∀ e, e ≠ c → getCore t e = getCore s e) ∧ getCore t c = { getCore s c with wfi := false }))) ∧
  (∀ d a b s r k i e, Issues s r → r.sm = true → (reg s r a).toNat = k / 4 * 2 ^ 16 + k % 4 * 2 ^ 8 + i → i < 32 → k / 4 < 2 ^ 14 →
      (reg s r b).toNat % 4 ≠ 3 →
      (amGet (getCore s k).journal i = none → ∃ t, exec (.jrnl d a b) s = .next t ∧ Answers s t r d 0 ∧ t = { s with cores := t.cores } ∧
        (k ≠ s.cur → getCore t k = { getCore s k with wfi := false })) ∧
      (amGet (getCore s k).journal i = some e → ∃ t v, exec (.jrnl d a b) s = .next t ∧ Answers s t r d v ∧ t = { s with cores := t.cores } ∧
        (k ≠ s.cur → (getCore t k).wfi = false) ∧
        ((reg s r b).toNat % 4 = 1 → v = e.store.data) ∧ ((reg s r b).toNat % 4 = 2 → v.toNat = e.store.wptr % 2 ^ 64) ∧
        ((reg s r b).toNat % 4 = 0 → v.toNat / 2 ^ 63 = 1 ∧ (v.toNat / 2 ^ 62 % 2 = 1 ↔ e.rf = true) ∧ v.toNat % 2 ^ 48 = e.store.va % 2 ^ 48) ∧
        (bit (reg s r b) 2 = true → e.rf = true → amGet (getCore t k).journal i = none) ∧
        (¬(bit (reg s r b) 2 = true ∧ e.rf = true) → amGet (getCore t k).journal i = some e)))

/-- R133, R136 to R138: RGNSUSP of a live region that is not the executing process's own or above it marks the tree SUSPENDED and waits in
WADDR with ARG 0xF0 while it works; it gives 5 for its own region and 1 for a suspended one. RGNRESM of a region that is not suspended
gives 1; else it resumes the tree with status 0. -/
def Obligations.RegionsSuspendAndResume : Prop :=
  ∀ d a s r q, Placed s r → r.sm = true → (reg s r a).toNat = q → rgnStatus s s.cur (reg s r a) = 0 →
    (inTree s q r.rcb = true → ∃ t, exec (.rgnsusp d a) s = .next t ∧ RegStep s t r d 5 (r.pc + 4)) ∧
    (inTree s q r.rcb = false → suspAtWork s q = none → rcbState s q = 1 →
      ∃ t, exec (.rgnsusp d a) s = .next t ∧ RegStep s t r d 1 (r.pc + 4)) ∧
    (inTree s q r.rcb = false → suspAtWork s q = none → rcbState s q = 0 → (∀ x ∈ treeOf s q, x % 256 = 0) →
      ∃ u, exec (.rgnsusp d a) s = .next (settle u) ∧ Waits s u r 6 0xF0 (.susp d q) ∧
        ∀ x ∈ treeOf s q, rcbState s x = 0 → rcbState u x = 1) ∧
    (rcbState s q ≠ 1 → ∃ t, exec (.rgnresm d a) s = .next t ∧ RegStep s t r d 1 (r.pc + 4)) ∧
    (rcbState s q = 1 → suspAtWork s q = none →
      ∃ u, exec (.rgnresm d a) s = .next (settle (resumeTree u q)) ∧ RegStep s u r d 0 (r.pc + 4))

/-- R122, R123: a CSR instruction whose access is granted returns the old value, with the PC moved on, and writes W[a], the old value with
W[a]'s bits set, or with them cleared; a pure read writes nothing. Without the access it takes PRIV, with its own word as TVAL. R121:
region mode may not read VIDSEL, PTROOT and WREVTAB; it may write the per-process registers, OPREQ, HPMCTL, HPM0 to HPM7 and TRIGARM. -/
def Obligations.CsrInstructions : Prop :=
  (∀ i op d a n, csrOf i = some (op, d, a, n) → csrPresent n = true → ∀ s r,
      (Placed s r → RoomToTrap s → csrGranted n.toNat r.sm ((csrNew op a 0 0).isSome) = false →
        ∃ t, exec i s = .next t ∧ Trapped s t r .priv 0 ((encCsr d a (csrCode op) n).setWidth 64) r.pc) ∧
      (Issues s r → csrGranted n.toNat r.sm ((csrNew op a 0 0).isSome) = true → ∃ t, exec i s = .next t ∧
        (d ≠ 0 → reg t r d = (csrRead s s.cur r n.toNat).1) ∧ (∀ e, e ≠ d → reg t r e = reg s r e) ∧
        (me t).run.map (·.pc) = some (r.pc + 4) ∧
        (csrNew op a (csrRead s s.cur r n.toNat).1 (reg s r a) = none →
          Answers s t r d (csrRead s s.cur r n.toNat).1 ∧ t.mem = s.mem ∧ ∀ k, pcsr t r k = pcsr s r k) ∧
        (∀ v k, csrNew op a (csrRead s s.cur r n.toNat).1 (reg s r a) = some v → keptBits n.toNat = some k → n ≠ 0x103 →
          (csrRead t s.cur r n.toNat).1.toNat = v.toNat &&& k ∧ ∀ m, m ≤ 11 → m ≠ n.toNat → pcsr t r m = pcsr s r m))) ∧
  (∀ n, csrPresent n = true →
      (csrGranted n.toNat false false = true ↔ n ≠ 0x10A ∧ n ≠ 0x281 ∧ n ≠ 0x282) ∧
      (csrGranted n.toNat false true = true ↔
        n.toNat ≤ 0x00B ∨ n = 0x107 ∨ n = 0x110 ∨ (0x118 ≤ n.toNat ∧ n.toNat ≤ 0x11F) ∨ n = 0x207) ∧
      csrGranted n.toNat true false = true)


namespace Sys2Proof.Claims

/-! ### Processes, regions and barriers (R216 to R240) -/

/-- Two workspaces, of 128 bytes on each side of their pointers, do not overlap. -/
def Apart (v w : Nat) : Prop := v + 256 ≤ w ∨ w + 256 ≤ v

/-- A queue whose processes have aligned workspaces that do not overlap that of `w`. -/
def QueueApart (q : List Nat) (w : Nat) : Prop := ∀ x ∈ q, x % 128 = 0 ∧ 128 ≤ x ∧ Apart x w

/-- The block at `pa` can be read at its home. -/
def Readable (s : State) (pa n : Nat) : Prop := ownStoresOver s s.cur pa n = false ∧ uncorrectable s pa n = false

/-- The record of a spawn as the instruction uses it (R223): the one it has read while it was held, or the 64 bytes at its address. -/
def RecordRead (s : State) (r : Running) (ea : Word) (ws : List Word) : Prop :=
  (r.held = true ∧ r.seen ≠ [] ∧ ws = r.seen) ∨
    ((r.held = false ∨ r.seen = []) ∧ ∃ s1 pa nc, memCheck s s.cur r ea 64 .read .block false = (s1, .ok pa nc) ∧ Readable s pa 64 ∧ ws = wordsAt s pa 8)

/-- The initial state of a spawned process (R222): its marks, its PC, W1 to W5 from the record, W15, and its WAIT word. -/
structure Spawned (t : State) (c rcb w : Nat) (ws : List Word) (join : Option Nat) : Prop where
  proc : ∃ p, getProc t w = some p ∧ p.rcb = rcb ∧ p.core = c ∧ p.join = join ∧ p.wait = .none
  pc : (resumePc t w).toNat = recPc ws
  args : ∀ k, 1 ≤ k → k ≤ 5 → hw t (w + 8 * k) = recW ws (k + 2)
  base : hw t (w + 8 * 15) = BitVec.ofNat 64 (w - 128)
  ready : pstate t w = 1

end Sys2Proof.Claims

/-- R223 to R225: SPAWN and SPAWNA, with the record read once, whose place and join counter pass send the spawn to the target core and stop issue
until the reply; a malformed record gives status 2 and a dead or foreign region 3, with no message; SPAWNA with no eligible core gives 5. -/
def Obligations.SpawnsAreSent : Prop :=
  ∀ i d a b isA, (i = Instr.spawn d a b ∧ isA = false) ∨ (i = Instr.spawna d a ∧ isA = true) → ∀ s r ws, Issues s r →
    RecordRead s r (reg s r a) ws → mapFrozen s (if isA then recRegion ws r.rcb else spawnGrid s r.rcb (recRegion ws r.rcb)) = false →
    (∀ t k, (isA = false → spawnPlace s r.rcb (recRegion ws r.rcb) (coreTile s.cur) (coreIdx s.cur) (reg s r b) r.sm = .ok t k) →
      (isA = true → checkRecord s ws r.rcb r.sm = 0 → distribute s (coreTile s.cur) (recRegion ws r.rcb) ws = some (coreNo t k)) → k < 4 →
      (checkRecord s ws r.rcb r.sm = 0 → (isA = false → t ∈ regionTiles s (recRegion ws r.rcb)) → recJoin ws = 0 → Drained s →
        holeCheck s (coreTile s.cur) (t * 0x400000) ≠ .hole →
        ∃ u, exec i s = .next u ∧ (me u).run = some { r with seen := ws } ∧ (me u).stall = some .spawn ∧ u.mem = s.mem ∧
          .spawn ⟨some (r.wptr, d), coreTile s.cur, isA, t, k, recRegion ws r.rcb, r.sm, ws, none⟩ ∈ u.msgs) ∧
      (checkRecord s ws r.rcb r.sm ≠ 0 → ∃ u, exec i s = .next u ∧ u.msgs = s.msgs ∧
        Answers s u r d (BitVec.ofNat 64 (checkRecord s ws r.rcb r.sm)))) ∧
    (isA = true → checkRecord s ws r.rcb r.sm = 0 → distribute s (coreTile s.cur) (recRegion ws r.rcb) ws = none →
      ∃ u, exec i s = .next u ∧ u.msgs = s.msgs ∧ Answers s u r d 5)

/-- R222, R226: a spawn that arrives at a free workspace slot of a live region installs the process there, READY at the tail of its queue
(class, checkpoint interval and suspension apart), and counts it in LIVE; a marked slot gives status 1, a dead region 3, a hole 4; the
running spawner's instruction then completes with the status, and for SPAWNA the core in bits 29 to 8. -/
def Obligations.SpawnsArrive : Prop :=
  (∀ s (m : SpawnMsg) c w, m.tile < 12544 → c = coreNo m.tile m.core → m.core < 4 → w = m.tile * 0x400000 + 128 * recWslot m.words → slotMarked s m.tile (recWslot m.words) = false →
    liveRegion s m.rcb = true → (m.tile = m.source ∨ holeCheck s m.source (m.tile * 0x400000) = .clear) → 1 ≤ recWslot m.words →
    recPc m.words % 4 = 0 → m.rcb % 256 = 0 → (m.rcb + 256 ≤ w - 128 ∨ w + 128 ≤ m.rcb) → rcbState s m.rcb = 0 → recCv m.words = false →
    intervalRegion s m.tile = none → (getRegion s m.rcb).interval = none → QueueApart (getCore s c).highQ w → QueueApart (getCore s c).lowQ w →
    ∃ t, spawnApply s m.source c m.rcb m.sm m.words m.joinPa = (t, 0) ∧ Spawned t c m.rcb w m.words m.joinPa ∧
      rcbLive t m.rcb = (rcbLive s m.rcb + 1) % 2 ^ 32 ∧
      ((getCore t c).highQ = (getCore s c).highQ ++ [w] ∨ (getCore t c).lowQ = (getCore s c).lowQ ++ [w])) ∧
  (∀ s (m : SpawnMsg) c, (m.tile = m.source ∨ holeCheck s m.source (m.tile * 0x400000) = .clear) → coreTile c = m.tile →
    (slotMarked s m.tile (recWslot m.words) = true → spawnApply s m.source c m.rcb m.sm m.words m.joinPa = (s, 1)) ∧
    (slotMarked s m.tile (recWslot m.words) = false → liveRegion s m.rcb = false →
      spawnApply s m.source c m.rcb m.sm m.words m.joinPa = (s, 3))) ∧
  (∀ s i m w0 d r0 c0 st, s.msgs[i]? = some (.spawn m) → m.reply = some (w0, d) → m.joinPa = none → c0 = procCore s w0 →
    m.core < 4 → m.tile * 0x400000 + 128 * recWslot m.words ≠ w0 → (getCore s c0).run = some r0 → r0.wptr = w0 →
    (getCore s c0).stall = some .spawn → (slotOf (getCore s c0) w0).isSome = true →
    st = (spawnApply (wakeCore (dropMsg s i) (coreNo m.tile m.core)) m.source (coreNo m.tile m.core) m.rcb m.sm m.words none).2 →
    ∃ u, exec (.spawnArrival i) s = .next (settle u) ∧ (getCore u c0).stall = none ∧
      (getCore u c0).run = some { r0 with pc := r0.pc + 4, held := false, seen := [] } ∧
      (d ≠ 0 → (regRd u c0 w0 d).toNat = (st + if m.spawna = true ∧ st = 0 then m.tile * 2 ^ 16 + m.core * 2 ^ 8 else 0) % 2 ^ 64))

/-- R229, R230: YIELD goes on at once when its core has nothing that would run before it, and otherwise leaves the core READY at the tail
of its queue with the PC moved on; PRIO returns the old priority and sets the new one, yielding when it changes; SELF returns the process,
its logical place and core (a free value where it has none: log entry 22), or its RCB, and takes BOUND for any other selector. -/
def Obligations.YieldPrioAndSelf : Prop :=
  ∀ s r, Placed s r →
    (runQueue (me s) r.hp = [] → (r.hp = true ∨ (me s).highQ = []) → ∃ t, exec .yield s = .next t ∧ RegStep s t r 0 0 (r.pc + 4)) ∧
    (runQueue (me s) r.hp ≠ [] ∨ (r.hp = false ∧ (me s).highQ ≠ []) → QueueApart (runQueue (me s) r.hp) r.wptr →
      ∃ t, exec .yield s = .next t ∧ (me t).run = none ∧ pstate t r.wptr = 1 ∧ resumePc t r.wptr = r.pc + 4 ∧
        runQueue (me t) r.hp = runQueue (me s) r.hp ++ [r.wptr] ∧ (me t).instret = (me s).instret + 1 ∧ ∀ e, reg t r e = reg s r e) ∧
    (∀ d a, bit (reg s r a) 0 = r.hp → ∃ t, exec (.prio d a) s = .next t ∧ RegStep s t r d (if r.hp then 1 else 0) (r.pc + 4)) ∧
    (∀ d a, bit (reg s r a) 0 ≠ r.hp → (me s).highQ = [] → (me s).lowQ = [] → ∃ t, exec (.prio d a) s = .next t ∧
      (me t).run = some { r with hp := !r.hp, pc := r.pc + 4, held := false, seen := [] } ∧ (d ≠ 0 → reg t r d = if r.hp then 1 else 0) ∧
      (∀ e, e ≠ d → reg t r e = reg s r e) ∧ t.mem = s.mem) ∧
    (∀ d a, reg s r a = 0 → ∃ t, exec (.self d a) s = .next t ∧ RegStep s t r d (BitVec.ofNat 64 r.wptr) (r.pc + 4)) ∧
    (∀ d a lx ly, reg s r a = 1 → r.rcb ≠ 0 → logicalOf s r.rcb (coreTile s.cur) = some (lx, ly) → ∃ t, exec (.self d a) s = .next t ∧
      RegStep s t r d (BitVec.ofNat 64 (s.cur % 4 * 2 ^ 16 + ly * 2 ^ 8 + lx)) (r.pc + 4)) ∧
    (∀ d a, reg s r a = 1 → r.rcb = 0 ∨ logicalOf s r.rcb (coreTile s.cur) = none → ∃ t v, exec (.self d a) s = .next t ∧
      RegStep { s with nonce := s.nonce + 1 } t r d v (r.pc + 4)) ∧
    (∀ d a, reg s r a = 2 → ∃ t, exec (.self d a) s = .next t ∧ RegStep s t r d (BitVec.ofNat 64 r.rcb) (r.pc + 4)) ∧
    (∀ d a, 2 < (reg s r a).toNat → RoomToTrap s → ∃ t, exec (.self d a) s = .next t ∧ Trapped s t r .bound 0 (reg s r a) r.pc)

/-- R91, R93, R217, R218: an idle core dispatches the head of its high queue, else of its low queue: the process runs with the mode, priority,
XC and PC of its resume word and the registers of its head, resident in a slot, its WAIT word RUNNING. At the end of a timeslice, between two instructions (R200), a
low-priority process goes to the tail of its queue at its own PC, or starts a new slice when the queue is empty. -/
def Obligations.DispatchAndTimeslice : Prop :=
  (∀ s c w rest hp p, (getCore s c).run = none → ((hp = true ∧ (getCore s c).highQ = w :: rest) ∨
      (hp = false ∧ (getCore s c).highQ = [] ∧ (getCore s c).lowQ = w :: rest)) → getProc s w = some p → w % 128 = 0 → 128 ≤ w →
    QueueApart rest w → (∀ i sl, slotAt (getCore s c) i = some sl → sl.wptr ≠ w → Apart sl.wptr w ∧ 128 ≤ sl.wptr) →
    ∃ t q, exec (.dispatch c) s = .next (settle t) ∧ (getCore t c).run = some q ∧ q.wptr = w ∧ q.pc = resumePc s w ∧ q.sm = bit (resumeAt s w) 63 ∧
      q.hp = bit (resumeAt s w) 62 ∧ q.xc = bit (resumeAt s w) 61 ∧ q.rcb = p.rcb ∧ pstate t w = 0 ∧ runQueue (getCore t c) hp = rest ∧
      (slotOf (getCore t c) w).isSome = true ∧ ∀ d, regRd t c w d = regRd s c w d) ∧
  (∀ s c r p, (getCore s c).run = some r → r.hp = false → r.slice = 0 → betweenInstrs (getCore s c) = true →
    ((getCore s c).lowQ = [] → ∃ t, exec (.timesliceExpiry c) s = .next t ∧
      (getCore t c).run = some { r with slice := bits (getCore s c).tslice 31 0 } ∧ t.mem = s.mem) ∧
    ((getCore s c).lowQ ≠ [] → getProc s r.wptr = some p → p.core = c → r.wptr % 128 = 0 → 128 ≤ r.wptr → r.pc.toNat % 4 = 0 →
      QueueApart (getCore s c).lowQ r.wptr → ∃ t, exec (.timesliceExpiry c) s = .next (settle t) ∧ (getCore t c).run = none ∧
        (getCore t c).lowQ = (getCore s c).lowQ ++ [r.wptr] ∧ pstate t r.wptr = 1 ∧ resumePc t r.wptr = r.pc))

/-- R195, R231: MIGRATE, with every store of the process acknowledged, sends the head to the target's slot and stops issue; a slot number
outside 1 to 24,574 takes BOUND. Where the head arrives at a free slot the process stands there, READY, with its registers, W[d] its new
identity, the PC moved on, and nothing left at the old place; a marked slot gives W[d] = 0 and the process stays. -/
def Obligations.MigrationMoves : Prop :=
  (∀ d a b s r t k, Issues s r → mapFrozen s r.rcb = false →
    resolvePlace s r.rcb (coreTile s.cur) (reg s r a) (some (coreIdx s.cur)) r.sm = .ok t k →
    (slotValid (reg s r b).toNat = true → Drained s → holeCheck s (coreTile s.cur) (t * 0x400000) ≠ .hole →
      ∃ u, exec (.migrate d a b) s = .next u ∧ (me u).run = some r ∧ (me u).stall = some .migrate ∧ u.mem = s.mem ∧
        .migrate ⟨s.cur, d, r.wptr, t, k, (reg s r b).toNat⟩ ∈ u.msgs) ∧
    (slotValid (reg s r b).toNat = false → Placed s r → RoomToTrap s →
      ∃ u, exec (.migrate d a b) s = .next u ∧ Trapped s u r .bound 0 (reg s r b) r.pc)) ∧
  (∀ s i m r p new, s.msgs[i]? = some (.migrate m) → (getCore s m.core).run = some r → r.wptr = m.wptr → (getCore s m.core).stall = some .migrate →
    getProc s m.wptr = some p → p.core = m.core → new = m.tile * 0x400000 + 128 * m.wslot →
    holeCheck s (coreTile m.core) (m.tile * 0x400000) = .clear →
    (slotMarked s m.tile m.wslot = true → (slotOf (getCore s m.core) m.wptr).isSome = true → ∃ u, exec (.migrateArrival i) s = .next (settle u) ∧
      (getCore u m.core).run = some { r with pc := r.pc + 4, held := false, seen := [] } ∧ (getCore u m.core).stall = none ∧ (m.d ≠ 0 → regRd u m.core m.wptr m.d = 0)) ∧
    (slotMarked s m.tile m.wslot = false → m.tile < 12544 → m.target < 4 → 1 ≤ m.wslot → new ≠ m.wptr → intervalRegion s m.tile = none → r.rcb = 0 → r.pc.toNat % 4 = 0 →
      (slotOf (getCore s m.core) m.wptr).isSome = true →
      QueueApart (runQueue (getCore s (coreNo m.tile m.target)) r.hp) new →
      ∃ u, exec (.migrateArrival i) s = .next (settle u) ∧ getProc u m.wptr = none ∧
        (∃ q, getProc u new = some q ∧ q.core = coreNo m.tile m.target ∧ q.rcb = p.rcb ∧ q.join = p.join) ∧
        (∀ n, 1 ≤ n → n ≤ 15 → hw u (new + 8 * n) = if n = m.d.toNat then BitVec.ofNat 64 new else regRd s m.core m.wptr (BitVec.ofNat 4 n)) ∧
        resumePc u new = r.pc + 4 ∧ pstate u new = 1 ∧
        runQueue (getCore u (coreNo m.tile m.target)) r.hp = runQueue (getCore s (coreNo m.tile m.target)) r.hp ++ [new]))

/-- R233 to R236: RGNNEW returns a status from 0 to 6; with 0 the RCB it wrote is marked, LIVE with no process and no child, under the
template's parent and of its size, and with any other status no memory and no mark changes. RGNEND of a region that cannot be ended returns
its status; else the region enters ENDING, and the instruction completes when it is done (a held or uncorrectable join counter apart) or waits in WJOIN with ARG
0xE0. R239, R240: BAR and
BARCK release, count an arrival in BARR, and wait in WJOIN with ARG 0xBA until the instance closes; it stays open while BARR differs from
LIVE, and closing leaves no arrival. Without a region they go on at once. -/
def Obligations.RegionsAndBarriers : Prop :=
  ((∀ d a s r s1 pa nc ws, Issues s r → memCheck s s.cur r (reg s r a) 256 .read .block false = (s1, .ok pa nc) → Readable s pa 256 →
      ws = wordsAt s pa 32 → tplJoin ws = 0 → (∀ m ∈ s.areas, m.kind = .rcb → m.len = 256) →
      ∃ t st, exec (.rgnnew d a) s = .next t ∧ Answers s t r d (BitVec.ofNat 64 st) ∧ st ≤ 6 ∧
        (st = 0 → ∃ rcb, rcb % 256 = 0 ∧ isRcb t rcb = true ∧ rcbState t rcb = 0 ∧ rcbLive t rcb = 0 ∧ rcbNchild t rcb = 0 ∧
          rcbParent t rcb = tplParent ws ∧ rcbLW t rcb = tplLW ws ∧ rcbLH t rcb = tplLH ws) ∧
        (st ≠ 0 → t.mem = s.mem ∧ t.areas = s.areas ∧ t.regions = s.regions)) ∧
    (∀ d a s r q, Placed s r → (reg s r a).toNat = q →
      (∀ st, rgnEndStatus s q r.rcb r.sm = some st → ∃ t, exec (.rgnend d a) s = .next t ∧ RegStep s t r d (BitVec.ofNat 64 st) (r.pc + 4)) ∧
      (rgnEndStatus s q r.rcb r.sm = none → regionDone (putRcb s q 8 63 60 2) q = true → (getRegion s q).join = none →
        ∃ u, exec (.rgnend d a) s = .next (settle (regionEnds u q)) ∧ Answers s u r d 0 ∧ rcbState u q = 2) ∧
      (rgnEndStatus s q r.rcb r.sm = none → (regionDone (putRcb s q 8 63 60 2) q = false ∨
          counterHeld (putRcb s q 8 63 60 2) (getRegion s q).join r.sm = true ∨ counterBad (putRcb s q 8 63 60 2) (getRegion s q).join = true) →
        ∃ u, exec (.rgnend d a) s = .next (settle u) ∧ Waits s u r 7 0xE0 (.rgnend d q) ∧ rcbState u q = 2))) ∧
  ((∀ i d ck s r, (i = Instr.bar d ∧ ck = false) ∨ (i = Instr.barck d ∧ ck = true) → Placed s r → Drained s →
      (r.rcb ≠ 0 → r.rcb % 256 = 0 → ∃ u, exec i s = .next (settle (barrierCheck u r.rcb)) ∧ Waits s u r 7 0xBA (.barrier d ck) ∧
        (getRegion u r.rcb).arrivals = (getRegion s r.rcb).arrivals ++ [(r.wptr, ck)] ∧ rcbBarr u r.rcb = (rcbBarr s r.rcb + 1) % 2 ^ 32) ∧
      (r.rcb = 0 → ∃ t v, exec i s = .next t ∧ Answers s t r d v ∧ t.mem = s.mem)) ∧
    (∀ s q, rcbBarr s q ≠ rcbLive s q → barrierCheck s q = s) ∧
    (∀ s q, q ≠ 0 → rcbBarr s q = rcbLive s q → rcbCkpt s q ≠ 1 → (getRegion (barrierCheck s q) q).arrivals = []) ∧
    (∀ s q, q % 256 = 0 → regionStalled s q = true → (getRegion s q).stallSent = false → freeSlots s (anchorTile q) ≠ [] →
      bits (getCore s (coreNo (anchorTile q) 0)).fgwait 31 0 ≤ (getRegion s q).stallClocks →
      ∃ u, exec (.regionStall q) s = .next (settle u) ∧ (getRegion u q).stallSent = true ∧ u.mem = s.mem ∧
        (getTile u (anchorTile q)).trapOrder.length = (getTile s (anchorTile q)).trapOrder.length + 1))


namespace Sys2Proof.Claims

/-! ### Channels and selects (R241 to R256, R344) -/

/-- The channel instructions: fn, destination, channel and value or buffer registers (R245); INW has no buffer register. -/
def chanOf : Instr → Option (Nat × Reg × Reg × Reg)
  | .chanOut d a b => some (0, d, a, b)
  | .chanIn d a b => some (1, d, a, b)
  | .outw d a b => some (2, d, a, b)
  | .inw d a => some (3, d, a, 0)
  | _ => none

/-- The two checks of a buffer (R245 step 3) pass from state `s1`, which they leave as `s3`: no byte, or first and last byte. -/
def BufferPasses (s1 s3 : State) (c : Nat) (r : Running) (va : Word) (n : Nat) (output : Bool) : Prop :=
  (n = 0 ∧ s3 = s1) ∨ (n ≠ 0 ∧ ∃ s2 p q x y, memCheck s1 c r va 1 (if output then .read else .write) .block false = (s2, .ok p x) ∧
    memCheck s2 c r (va + BitVec.ofNat 64 (n - 1)) 1 (if output then .read else .write) .block false = (s3, .ok q y))

/-- The party that a channel instruction sends to its channel's home. -/
def partyOf (fn : Nat) (w : Nat) (d : Reg) (v : Word) (n : Nat) : ChanEnd :=
  if fn = 2 then .value w v else if fn = 3 then .head w d else .buf w v.toNat n

/-- Process `p` stands on its core in a channel step on word `w` (R245; log entry 11). -/
def OnStep (s : State) (p : Nat) (r : Running) (d : Reg) (fn w : Nat) (v : Word) (n : Nat) : Prop :=
  (getCore s (procCore s p)).run = some r ∧ r.wptr = p ∧ r.pc.toNat % 4 = 0 ∧ (getCore s (procCore s p)).stall = some (.chan d fn w v n)

/-- The events that carry out a channel step, with the flags of their message: the step itself, its retry after a busy claim, and its
retry after a full spill ring. -/
def stepEvent (i : Nat) : Instr → Option (Bool × Bool)
  | .channelStep j => if j = i then some (false, false) else none
  | .claimRetry j => if j = i then some (true, false) else none
  | .spillRetry j => if j = i then some (false, true) else none
  | _ => none

/-- No checkpoint interval logs the tile of an address. -/
def Unlogged (s : State) (a : Nat) : Prop := ∀ t, undoTile a = some t → intervalRegion s t = none

/-- A process that stands alone: its identity is aligned, and a channel word does not lie in its workspace. -/
def ClearOf (w v : Nat) : Prop := v % 128 = 0 ∧ 128 ≤ v ∧ v < 2 ^ 48 ∧ (w + 8 ≤ v - 128 ∨ v + 128 ≤ w)

/-- A range of the TLM of a tile that is not dark. -/
def InOwnTlm (s : State) (t va n : Nat) : Prop :=
  t < 12544 ∧ t * 0x400000 ≤ va ∧ va + n ≤ t * 0x400000 + 0x300000 ∧ isDark s t = false

end Sys2Proof.Claims

/-- R245: OUT, IN, OUTW and INW, once channel and buffer pass (and, for an output, no store is outstanding), stop issue, and the party leaves
for the channel's home; a length above 1,048,576 takes BOUND with the length. R243, R245: a plain party that reaches an
empty channel becomes its only waiter, with HEAD its link word and ST its direction, and its process waits in WCHAN with ARG fn; one that meets
a single waiter of the other direction empties the channel and starts their transfer, of the smaller of the two lengths. -/
def Obligations.ChannelPartiesMeet : Prop :=
  (∀ i fn d a b, chanOf i = some (fn, d, a, b) → ∀ s r, Placed s r →
      (fn < 2 → 1048576 < (reg s r d).toNat → RoomToTrap s → ∃ t, exec i s = .next t ∧ Trapped s t r .bound 0 (reg s r d) r.pc) ∧
      (∀ s1 s3 pa nc n, n = (if fn < 2 then (reg s r d).toNat else 8) → n ≤ 1048576 →
        memCheck s s.cur r (reg s r a) 8 .write .block false = (s1, .ok pa nc) → spaceOf pa = 0 →
        BufferPasses s1 s3 s.cur r (reg s r b) (if fn < 2 then n else 0) (fn = 0) → (fn = 0 ∨ fn = 2 → Drained s) →
        ∃ t, exec i s = .next t ∧ (me t).run = some r ∧ (me t).stall = some (.chan d fn pa (reg s r b) n) ∧
          .chan pa (.plain (partyOf fn r.wptr d (reg s r b) n) (fn = 0 || fn = 2)) false false ∈ t.msgs ∧
          (∀ e, reg t r e = reg s r e) ∧ t.mem = s.mem)) ∧
  (∀ ev i s busy held w e out p, stepEvent i ev = some (busy, held) → s.msgs[i]? = some (.chan w (.plain e out) busy held) → wordHeld (if busy then dropMsg s i else s) w = false →
      endWptr e = p → siteGone s (p / 0x400000) (w / 0x400000) = false → (∀ t k, e ≠ .slot t k) → (∀ k l, e ≠ .unit k l) → ClearOf w p → slotLinkOf (p - 32) = none → uncorrectable s w 8 = false →
      chanMalformed (hw s w) = false → chanLost (hw s w) = false → boundOk s w (.plain e out) = true → Unlogged s w → Unlogged s (p - 32) →
      (∀ r d fn v n, chanHead (hw s w) = 0 → OnStep s p r d fn w v n → fn < 4 → out = (fn = 0 || fn = 2) → n < 2 ^ 21 → (getProc s p).isSome = true →
        ∃ u, exec ev s = .next (settle u) ∧ chanHead (hw u w) = p - 32 ∧ chanSt (hw u w) = (if out then 1 else 2) ∧ hw u (p - 32) = 0 ∧
          u.transfers = s.transfers ∧ pstate u p = 2 ∧ parg u p = fn ∧ resumePc u p = r.pc ∧ (getCore u (procCore s p)).run = none ∧
          (getProc u p).map (·.wait) = some (.chan d fn w)) ∧
      (chanHead (hw s w) = 0 → (∀ r, (getCore s (procCore s p)).run = some r → r.wptr ≠ p) → bit (hw s (p - 16)) 63 = out →
        ∃ u, exec ev s = .next (settle u) ∧ chanHead (hw u w) = p - 32 ∧ chanSt (hw u w) = (if out then 1 else 2) ∧ hw u (p - 32) = 0 ∧
          u.transfers = s.transfers) ∧
      (∀ q, chainOf s w = [q - 32] → ClearOf w q → Apart p q → slotLinkOf (q - 32) = none → s.selects = [] →
        firstValid s w (q - 32) = true → linkLost s w (q - 32) = false → linkIsWriter s (q - 32) = !out →
        spillFull s (if out then e else plainEnd s (q - 32)) (if out then plainEnd s (q - 32) else e) = false → Unlogged s (q - 32) →
        pstate s p ≠ 11 → pstate s q ≠ 11 →
        ∃ u x, exec ev s = .next (settle u) ∧ chanHead (hw u w) = 0 ∧ chanSt (hw u w) = 0 ∧ u.transfers = s.transfers ++ [x] ∧
          x.word = w ∧ x.done = 0 ∧ x.writer = (if out then e else plainEnd s (q - 32)) ∧ x.reader = (if out then plainEnd s (q - 32) else e) ∧
          x.n = Min.min (endLen s e) (endLen s (plainEnd s (q - 32)))))


/-- R246, R247: a transfer of at most 64 bytes between physical buffers of one tile copies the writer's bytes over the reader's, first
byte first, and changes no other byte; when OUTW meets INW the reader's W[d] takes the value and the writer's W[d] the count 8, and both
go on, from their cores or from their waits. -/
def Obligations.TransfersMoveData : Prop :=
  (∀ s (t : Transfer) p q wb rb, t.writer = .buf p wb t.n → t.reader = .buf q rb t.n → t.wSpace = none → t.rSpace = none →
    t.wSm = true → t.rSm = true → t.done = 0 → 0 < t.n → t.n ≤ 64 → wb % 2 ^ 16 + t.n ≤ 2 ^ 16 → rb % 2 ^ 16 + t.n ≤ 2 ^ 16 →
    InOwnTlm s t.tile wb t.n → InOwnTlm s t.tile rb t.n → uncorrectable s wb t.n = false → portHolds s rb t.n (.move t.word) true = false →
    Plain s rb t.n → Unwatched s rb t.n → (getRegion s (procRegion s q)).interval = none →
    ∃ u v, moveGranules s (t.n / 64 + 1) t = (u, { t with done := t.n }, .done v) ∧
      (∀ k, k < t.n → byteAt u (rb + k) = byteAt s (wb + k)) ∧ (∀ a, a < rb ∨ rb + t.n ≤ a → byteAt u a = byteAt s a)) ∧
  (∀ s i (t : Transfer) p q v d e fw fr pw pr, s.transfers[i]? = some t → t.writer = .value p v → t.reader = .head q e → t.n = 8 → t.done = 0 →
    t.parked = none → t.viaCopy = false → moveBehind s i t = false → transferLost s t = false → p ≠ q →
    getProc s p = some pw → stepOf s p = .chan d fw t.word → fw ≠ 3 → getProc s q = some pr → stepOf s q = .chan e 3 fr →
    pw.dying = false → pr.dying = false →
    (slotOf (getCore s pw.core) p).isSome = true → (slotOf (getCore s pr.core) q).isSome = true →
    ∃ u, exec (.channelTransferDone i) s = .next (settle u) ∧ u.transfers = s.transfers.eraseIdx i ∧
      (d ≠ 0 → regRd u pw.core p d = 8) ∧ (e ≠ 0 → regRd u pr.core q e = v) ∧
      stepOf u p = .none ∧ stepOf u q = .none)

/-- R248 to R250: SEL and SEL.F of a table in the executing tile's TLM with one enabled alternative, whose channel passes and whose length is 0,
mark the table, stop issue and send the alternative to its channel; with no enabled alternative and no deadline W[d] is 0xFE at once; a table
that is not 32-byte aligned takes BOUND. Once every alternative stands in its channel's queue and nothing has claimed the select, its process
waits in WSEL. A waiting select whose deadline has come, with nothing claimed, ends with 0xF0. -/
def Obligations.Selects : Prop :=
  (∀ i first d a b s r pa n, (i = Instr.sel d a b ∧ first = false) ∨ (i = Instr.selF d a b ∧ first = true) → Placed s r →
    ((reg s r a).toNat % 32 ≠ 0 → RoomToTrap s → ∃ t, exec i s = .next t ∧ Trapped s t r .bound 0 (reg s r a) r.pc) ∧
    (addrSpace s s.cur r = none → (reg s r a).toNat = pa → pa % 32 = 0 → n = bits (dwAt s pa) 3 0 → InOwnTlm s (coreTile s.cur) pa (32 + 32 * n) →
      r.sm = true → Readable s pa (32 + 32 * n) → (∀ x ∈ s.weak, x + 8 ≤ pa ∨ pa + (32 + 32 * n) ≤ x) →
      tableHeadBad (dwAt s pa) (dwAt s (pa + 24)) = false → bit (dwAt s pa) 8 = false →
      (∀ k, k < n → entryBad (entryWord s (pa + 32 + 32 * k) 1) (entryWord s (pa + 32 + 32 * k) 2) (entryWord s (pa + 32 + 32 * k) 3) = false) → Drained s →
      ((∀ k, k < n → (reg s r b).toNat.testBit k = false) → ∃ t, exec i s = .next t ∧ Answers s t r d 0xFE ∧ t.mem = s.mem) ∧
      (∀ cpa nd, n = 1 → (reg s r b).toNat.testBit 0 = true → bits (entryWord s (pa + 32) 3) 20 0 = 0 →
        memCheck s s.cur r (BitVec.ofNat 64 (bits (entryWord s (pa + 32) 1) 47 0)) 8 .write .block false = (s, .ok cpa nd) → spaceOf cpa = 0 →
        s.jobOld = [] → Unwatched s (pa + 16) 8 → NoIntervals s → snoopOf s (pa + 16) = none →
        ∃ u e, exec i s = .next (settle u) ∧ (me u).run = some r ∧ (me u).stall = some (.sel d first pa) ∧ (∀ x, reg u r x = reg s r x) ∧
          .chan cpa (.alt pa 0) false false ∈ u.msgs ∧ amGet u.selects pa = some e ∧ e.wptr = r.wptr ∧ e.d = d ∧ e.first = first ∧
          e.deadline = none ∧ e.armed = [] ∧ e.todo.map (·.word) = [cpa] ∧
          (⟨pa, 32, .sel, r.wptr⟩ : Area) ∈ u.areas ∧ (⟨pa + 32, 32, .sel, r.wptr⟩ : Area) ∈ u.areas))) ∧
  (∀ s tb e c r d first, amGet s.selects tb = some e → e.todo = [] → e.poll = false → claimOf s tb = 0 → c = procCore s e.wptr →
    (getProc s e.wptr).isSome = true → (getCore s c).run = some r → r.wptr = e.wptr → (getCore s c).stall = some (.sel d first tb) →
    e.wptr % 128 = 0 → 128 ≤ e.wptr → r.pc.toNat % 4 = 0 →
    pstate (selNext s tb) e.wptr = 3 ∧ (getCore (selNext s tb) c).run = none ∧ resumePc (selNext s tb) e.wptr = r.pc ∧
      (getProc (selNext s tb) e.wptr).map (·.wait) = some (.sel d first tb)) ∧
  (∀ s w p d first tb e dl, getProc s w = some p → p.wait = .sel d first tb → p.dying = false → amGet s.selects tb = some e → e.wptr = w → e.d = d →
    e.deadline = some dl → dl.toNat ≤ s.time.toNat → pstate s w = 3 → e.todo = [] → claimOf s tb = 0 → (slotOf (getCore s p.core) w).isSome = true →
    (∀ r, (getCore s p.core).run = some r → r.wptr ≠ w) →
    ∃ u, exec (.selectDeadline w) s = .next (settle u) ∧ amGet u.selects tb = none ∧ (d ≠ 0 → regRd u p.core w d = 0xF0) ∧
      (getProc u w).map (·.wait) = some .none)

/-- R254, R255: CHINIT of a word without waiters sets it idle and replaces its binding (none when both identities are 0), with status 0; a
word with a waiter gives status 1. CHCLR of a word without waiters returns 0 and clears LOST. -/
def Obligations.ChannelSetUp : Prop :=
  ∀ d a s r pa nc, Issues s r → addrSpace s s.cur r = none → memCheck s s.cur r (reg s r a) 8 .write .block false = (s, .ok pa nc) → spaceOf pa = 0 →
    uncorrectable s pa 8 = false → chanMalformed (hw s pa) = false → Plain s pa 8 → snoopOf s pa = none → pa % 8 = 0 → Unwatched s pa 8 →
    wordHeld s pa = false →
    (getRegion s r.rcb).interval = none → (getRegion s 0).interval = none →
    (∀ b wr rd, (reg s r b = 0 ∧ wr = 0 ∧ rd = 0) ∨ (reg s r b ≠ 0 ∧ ∃ p q x y, memCheck s s.cur r (reg s r b) 8 .read .block false = (s, .ok p x) ∧
        memCheck s s.cur r (reg s r b + 8) 8 .read .block false = (s, .ok q y) ∧ Readable s p 8 ∧ Readable s q 8 ∧
        wr = (dwAt s p).toNat % 2 ^ 52 ∧ rd = (dwAt s q).toNat % 2 ^ 52) →
      (chanHead (hw s pa) ≠ 0 → ∃ t, exec (.chinit d a b) s = .next t ∧ Answers s t r d 1 ∧ t.mem = s.mem) ∧
      (∀ l, chanHead (hw s pa) = 0 → newBindings (getTile s (pa / 0x400000)).bindings pa wr rd = some l →
        ∃ t, exec (.chinit d a b) s = .next t ∧ Answers s t r d 0 ∧ (getTile t (pa / 0x400000)).bindings = l ∧
          (⟨pa, wr, rd⟩ ∈ l ↔ ¬(wr = 0 ∧ rd = 0)) ∧ hw t pa = BitVec.ofNat 64 (if wr = 0 ∧ rd = 0 then 0 else 2 ^ 60))) ∧
    (chanHead (hw s pa) = 0 → (∀ t ∈ s.transfers, t.word ≠ pa) →
      ∃ u, exec (.chclr d a) s = .next (settle u) ∧ Answers s u r d 0 ∧ chanLost (hw u pa) = false ∧ chanHead (hw u pa) = 0 ∧
        bit (hw u pa) 60 = bit (hw s pa) 60)

namespace Sys2Proof.Claims

/-! ### Rings, accumulator files, tokens, maps, groups and job instructions (R139 to R148, R261 to R272, R328 to R380, R403) -/

/-- The bytes at an aligned address are plain memory: no slot serves them, no workspace fixes bits of them, none is poisoned, no checkpoint
interval is open and no watch overlaps them. -/
structure PlainAt (s : State) (m n : Nat) : Prop where
  aligned : m % 8 = 0
  unserved : ∀ a, m ≤ a → a < m + n → a % 8 = 0 → snoopOf s a = none ∧ workMask s a = BitVec.allOnes 64
  sound : ∀ a ∈ s.bad, a < m ∨ m + n ≤ a
  unwatched : Unwatched s m n
  noInterval : NoIntervals s

/-- The ring control block that W[a] names passes the checks of R331 and is plain memory; no store is outstanding. -/
structure RingReady (s : State) (r : Running) (ea : Word) (pa : Nat) : Prop where
  issues : Issues s r
  drained : Drained s
  checks : ∃ s1 nc, memCheck s s.cur r ea 8 .write .block false = (s1, .ok pa nc)
  space : spaceOf pa = 0
  unheld : portHolds s pa 64 (.instr s.cur) r.sm = false
  plain : PlainAt s pa 64

/-- An ACCF instruction of a grid tile meets no waiting ACFG and no other region's file. -/
def AccOpen (s : State) (r : Running) : Prop :=
  isRim (coreTile s.cur) = false ∧ acfgWaiters s (coreTile s.cur) = [] ∧ ownerRefuses s (coreTile s.cur) r.rcb r.sm = false

/-- Tile `j` of the file is live, in no job's use, and no access to it that was issued before still waits (R141, R149). -/
def AccFree (s : State) (j : Nat) : Prop :=
  j < (getTile s (coreTile s.cur)).accLive ∧ accBusy s (coreTile s.cur) j = false ∧ accHeld s (coreTile s.cur) j = false ∧
    accDue s (coreTile s.cur) j (s.order + 1) = false ∧ storeDue s (coreTile s.cur) j (s.order + 1) = false

/-- A context map at `m` passes the checks of R356 for the executing process, which has no store outstanding, lies in pages that follow each
other, and is plain memory to the end of its largest capacity, which no port holds. -/
structure MapReady (s : State) (r : Running) (ea : Word) (m : Nat) : Prop where
  issues : Issues s r
  drained : Drained s
  physical : addrSpace s s.cur r = none
  checks : ∃ nc, memCheck s s.cur r ea 64 .write .block false = (s, .ok m nc)
  space : spaceOf m = 0
  plain : PlainAt s m (64 + 64 * 4096)
  flat : amGet s.mapPages m = none
  pages : ∀ i, i < mapSpan s m → spaceOf ((m / 2 ^ 16 + i + 1) * 2 ^ 16) = 0 ∧ ∃ nc,
    memCheck s s.cur r (BitVec.ofNat 64 ((m / 2 ^ 16 + i + 1) * 2 ^ 16)) 64 .write .block false = (s, .ok ((m / 2 ^ 16 + i + 1) * 2 ^ 16) nc)
  unheld : portHolds s m 64 (.instr s.cur) r.sm = false ∧ ∀ i, i < 4096 → portHolds s (m + 64 + 64 * i) 64 (.instr s.cur) r.sm = false

/-- A group descriptor at `m` passes the checks of R374, and is plain memory to the end of its largest size. -/
structure GroupReady (s : State) (r : Running) (ea : Word) (m : Nat) : Prop where
  issues : Issues s r
  drained : Drained s
  physical : addrSpace s s.cur r = none
  checks : ∃ nc, memCheck s s.cur r ea 64 .read .block false = (s, .ok m nc)
  space : spaceOf m = 0
  plain : PlainAt s m (64 + 16 * 4096)

/-- A job identifier reaches entry `key` of a queue that exists, and an unforwarded job there, present or ended, if any, is of the process's
region. -/
def IdReaches (s : State) (r : Running) (id : Word) (key gen : Nat) : Prop :=
  id.toNat = 2 ^ 63 + key / 128 * 2 ^ 36 + key / 32 % 4 * 2 ^ 34 + gen * 2 ^ 16 + key % 32 ∧ key / 128 < 2 ^ 14 ∧ gen < 2 ^ 16 ∧
    hasQueue (key / 128) (key / 32 % 4) = true ∧ key % 32 < queueDepth (key / 32 % 4) ∧ key / 32 % 4 ≠ 3 ∧
    (key / 128 = coreTile s.cur ∨ holeBit s (coreTile s.cur) (key / 128) = false) ∧ siteLosing s (coreTile s.cur) (key / 128) = false ∧
    (entryAt s key).fwd = none ∧
    (∀ j, (entryAt s key).job = some j → j.rcb = r.rcb) ∧
    (∀ v, (entryAt s key).job = none → (entryAt s key).result = some v → (entryAt s key).rcb = r.rcb)

/-- The selector names queue `q` of tile `u` (R262): a queue of the executing tile, or a vector queue of its segment that a place names. -/
def QueueNamed (s : State) (r : Running) (sel : Word) (u q : Nat) : Prop :=
  hasQueue u q = true ∧ siteLosing s (coreTile s.cur) u = false ∧ (u = coreTile s.cur ∨ holeBit s (coreTile s.cur) u = false) ∧
    ((q < 2 ∧ u = coreTile s.cur ∧ sel.toNat = q * 2 ^ 32) ∨
      (q = 2 ∧ mapFrozen s r.rcb = false ∧ segOf u = segOf (coreTile s.cur) ∧ ∃ p k, p < 2 ^ 32 ∧ sel.toNat = 2 * 2 ^ 32 + p ∧
        resolvePlace s r.rcb (coreTile s.cur) (BitVec.ofNat 64 p) none r.sm = .ok u k))

end Sys2Proof.Claims

/-- R329 to R336: the ring instructions on a block that passes their checks: RBINIT zeroes the counts of a sound block, with status 0, and
gives 1 for an unsound one; RBCLAIM of a length that fits before the end and is free raises TAIL and returns the handle; in an empty ring
whose end is too near the counts skip to the start, and in one that is not empty a pad is marked there; RBCOMMIT of the next run raises COMMIT,
that of a later one waits in WADDR with ARG 0x54, and one of no claim takes BOUND with its handle; RBAWAIT returns the run at HEAD; RBRETIRE raises
HEAD, over the pad with COMMIT not left behind where the run ends at one (log entry 70); RBPEEK returns the free granules and the counts, and
takes BOUND for any other selector. Without room or data the .NB forms return 0 and the others wait in WADDR; a length of
0 or above CAP takes RINGSIZE. -/
def Obligations.RingsCount : Prop :=
  ∀ a s r pa k, RingReady s r (reg s r a) pa → k = ringAt s pa →
    (∀ d, (k.mbz = true ∨ k.base % 64 ≠ 0 ∨ k.cap = 0) → ∃ t, exec (.rbinit d a) s = .next t ∧ Answers s t r d 1 ∧ t.mem = s.mem) ∧
    (∀ d, k.mbz = false → k.base % 64 = 0 → k.cap ≠ 0 → ∃ t, exec (.rbinit d a) s = .next t ∧ Answers s t r d 0 ∧
      ringAt t pa = { k with head := 0, commit := 0, tail := 0, pads := 0, padn := 0 }) ∧
    (∀ i nb d b n, (i = Instr.rbclaim d a b ∧ nb = false) ∨ (i = Instr.rbclaimNb d a b ∧ nb = true) → n = (reg s r b).toNat →
      (n = 0 ∨ k.cap < n → Placed s r → RoomToTrap s → ∃ t, exec i s = .next t ∧ Trapped s t r .ringsize 0 (reg s r b) r.pc) ∧
      (n ≠ 0 → n ≤ k.cap - k.tail % k.cap → n ≤ k.free → ∃ t v, exec i s = .next t ∧ Answers s t r d v ∧
        v.toNat = n * 2 ^ 48 + (k.base + 64 * (k.tail % k.cap)) % 2 ^ 48 ∧ ringAt t pa = { k with tail := (k.tail + n) % 2 ^ 64 }) ∧
      (n ≤ k.cap → k.cap - k.tail % k.cap < n → k.head = k.tail → ∃ t v, exec i s = .next t ∧ Answers s t r d v ∧
        v.toNat = n * 2 ^ 48 + (k.base + 64 * ((k.tail + (k.cap - k.tail % k.cap)) % k.cap)) % 2 ^ 48 ∧
        ringAt t pa = { k with head := (k.head + (k.cap - k.tail % k.cap)) % 2 ^ 64, commit := (k.commit + (k.cap - k.tail % k.cap)) % 2 ^ 64,
                               tail := (k.tail + (k.cap - k.tail % k.cap) + n) % 2 ^ 64 }) ∧
      (∀ ma, n ≤ k.cap → k.cap - k.tail % k.cap < n → k.head ≠ k.tail → n + (k.cap - k.tail % k.cap) ≤ k.free → addrSpace s s.cur r = none →
        ma = k.base + 64 * (k.tail % k.cap) → (∃ nc, memCheck s s.cur r (BitVec.ofNat 64 ma) 8 .write .block false = (s, .ok ma nc)) →
        portHolds s ma 8 (.instr s.cur) r.sm = false → PlainAt s ma 8 → (ma + 8 ≤ pa ∨ pa + 64 ≤ ma) →
        ∃ t v, exec i s = .next t ∧ Answers s t r d v ∧
          v.toNat = n * 2 ^ 48 + (k.base + 64 * ((k.tail + (k.cap - k.tail % k.cap)) % k.cap)) % 2 ^ 48 ∧
          (dwAt t ma).toNat = 0xFFFF * 2 ^ 48 + (k.cap - k.tail % k.cap) ∧
          ringAt t pa = { k with tail := (k.tail + (k.cap - k.tail % k.cap) + n) % 2 ^ 64, pads := k.tail % 2 ^ 48, padn := k.cap - k.tail % k.cap }) ∧
      (n ≠ 0 → n ≤ k.cap - k.tail % k.cap → k.free < n →
        (nb = true → ∃ t, exec i s = .next t ∧ Answers s t r d 0 ∧ t.mem = s.mem) ∧
        (nb = false → Placed s r → (∀ h, homeTile pa = some h → (getTile s h).watches.length < 64) →
          ∃ t, exec i s = .next t ∧ Waits s t r 6 0x52 .retry))) ∧
    (∀ b p c0, k.base ≤ (reg s r b).toNat % 2 ^ 48 → p = ((reg s r b).toNat % 2 ^ 48 - k.base) / 64 → ((reg s r b).toNat % 2 ^ 48 - k.base) % 64 = 0 →
      p < k.cap → c0 = k.commit + (if k.pads = k.commit % 2 ^ 48 then k.padn else 0) → c0 % k.cap = p → c0 < k.tail →
      c0 + (reg s r b).toNat / 2 ^ 48 ≤ k.tail → ∃ t, exec (.rbcommit a b) s = .next t ∧ Answers s t r 0 0 ∧
        ringAt t pa = { k with commit := c0 + (reg s r b).toNat / 2 ^ 48 }) ∧
    (∀ b p c0 st, p = ((reg s r b).toNat % 2 ^ 48 - k.base) / 64 → c0 = k.commit + (if k.pads = k.commit % 2 ^ 48 then k.padn else 0) →
      st = c0 + (p + k.cap - c0 % k.cap) % k.cap → Placed s r →
      (k.base ≤ (reg s r b).toNat % 2 ^ 48 → ((reg s r b).toNat % 2 ^ 48 - k.base) % 64 = 0 → p < k.cap → c0 < st → st < k.tail →
        st + (reg s r b).toNat / 2 ^ 48 ≤ k.tail → (∀ h, homeTile pa = some h → (getTile s h).watches.length < 64) →
        ∃ t, exec (.rbcommit a b) s = .next t ∧ Waits s t r 6 0x54 .retry) ∧
      ((reg s r b).toNat % 2 ^ 48 < k.base ∨ ((reg s r b).toNat % 2 ^ 48 - k.base) % 64 ≠ 0 ∨ k.cap ≤ p ∨ k.tail ≤ st ∨
          k.tail < st + (reg s r b).toNat / 2 ^ 48 → RoomToTrap s →
        ∃ t, exec (.rbcommit a b) s = .next t ∧ Trapped s t r .bound 0 (reg s r b) r.pc)) ∧
    (∀ i nb d, (i = Instr.rbawait d a ∧ nb = false) ∨ (i = Instr.rbawaitNb d a ∧ nb = true) →
      (k.commit ≠ k.head → ∃ t, exec i s = .next t ∧ Answers s t r d (k.handle k.run k.head) ∧ t.mem = s.mem) ∧
      (k.commit = k.head → nb = true → ∃ t, exec i s = .next t ∧ Answers s t r d 0 ∧ t.mem = s.mem) ∧
      (k.commit = k.head → nb = false → Placed s r → (∀ h, homeTile pa = some h → (getTile s h).watches.length < 64) →
        ∃ t, exec i s = .next t ∧ Waits s t r 6 0x53 .retry)) ∧
    (∀ b n, n = (reg s r b).toNat → n ≠ 0 → k.commit ≠ k.head → n ≤ k.run → (k.padn = 0 ∨ k.padDist ≠ n) →
      ∃ t, exec (.rbretire a b) s = .next t ∧ Answers s t r 0 0 ∧ ringAt t pa = { k with head := (k.head + n) % 2 ^ 64 }) ∧
    (∀ b n q, n = (reg s r b).toNat → n ≠ 0 → k.commit ≠ k.head → n ≤ k.run → k.padn ≠ 0 → k.padDist = n → q = k.head + n + k.padn →
      ∃ t, exec (.rbretire a b) s = .next t ∧ Answers s t r 0 0 ∧
        ringAt t pa = { k with head := q % 2 ^ 64, commit := (if k.commit < q then q % 2 ^ 64 else k.commit), pads := 0, padn := 0 }) ∧
    (∀ d b, (reg s r b = 0 → ∃ t, exec (.rbpeek d a b) s = .next t ∧ Answers s t r d (BitVec.ofNat 64 k.free) ∧ t.mem = s.mem) ∧
      (reg s r b = 1 → k.padn = 0 → ∃ t, exec (.rbpeek d a b) s = .next t ∧ Answers s t r d (BitVec.ofNat 64 k.commit - BitVec.ofNat 64 k.head) ∧ t.mem = s.mem) ∧
      (reg s r b = 2 → ∃ t, exec (.rbpeek d a b) s = .next t ∧ Answers s t r d (BitVec.ofNat 64 k.tail - BitVec.ofNat 64 k.commit) ∧ t.mem = s.mem) ∧
      (2 < (reg s r b).toNat → Placed s r → RoomToTrap s → ∃ t, exec (.rbpeek d a b) s = .next t ∧ Trapped s t r .bound 0 (reg s r b) r.pc))

/-- R141 to R148: on an open file, APF appends to the core's prefetch queue of eight, ARD reads a doubleword, AWR writes one and nothing
else, ACLR zeroes the 16 KiB of a tile and nothing else, and ACFG of a free file returns the old configuration and sets LIVE, TYPE and
owner (none where the process has no region: the model's choice, log entry 87); ARD and AWR of a tile that a job writes wait in WJOB with ARG
0xAB. On a rim tile each takes FAR. -/
def Obligations.AccumulatorFile : Prop :=
  (∀ s r a off, Issues s r → AccOpen s r → off = reg s r a → off.toNat < 2 ^ 21 → AccFree s (off.toNat / 2 ^ 14) →
    (off.toNat % 64 = 0 → ∃ t, exec (.apf a) s = .next t ∧ Answers s t r 0 0 ∧ t.mem = s.mem ∧
      (me t).prefetch = (if (me s).prefetch.length < 8 then (me s).prefetch else (me s).prefetch.drop 1) ++ [off.toNat]) ∧
    (∀ d, off.toNat % 8 = 0 → uncorrectable s (2 ^ 48 + coreTile s.cur * 0x200000 + off.toNat) 8 = false →
      ∃ u, exec (.ard d a) s = .next (settle u) ∧ Answers s u r d (dwAt s (2 ^ 48 + coreTile s.cur * 0x200000 + off.toNat)) ∧ u.mem = s.mem) ∧
    (∀ b, off.toNat % 8 = 0 → Unwatched s (2 ^ 48 + coreTile s.cur * 0x200000 + off.toNat) 8 → (getRegion s r.rcb).interval = none →
      ∃ t, exec (.awr a b) s = .next t ∧ Answers s t r 0 0 ∧ dwAt t (2 ^ 48 + coreTile s.cur * 0x200000 + off.toNat) = reg s r b ∧
        ∀ x, x < 2 ^ 48 + coreTile s.cur * 0x200000 + off.toNat ∨ 2 ^ 48 + coreTile s.cur * 0x200000 + off.toNat + 8 ≤ x → x / 8 * 8 ≠ r.wptr →
          byteAt t x = byteAt s x)) ∧
  (∀ s r a d off, Placed s r → AccOpen s r → off = reg s r a → off.toNat < 2 ^ 21 → off.toNat % 8 = 0 →
    off.toNat / 2 ^ 14 < (getTile s (coreTile s.cur)).accLive → accBusy s (coreTile s.cur) (off.toNat / 2 ^ 14) = true →
    (∃ t, exec (.ard d a) s = .next t ∧ Waits s t r 4 0xAB (.acc (coreTile s.cur) (.ard d off.toNat) (s.order + 1))) ∧
    (∀ b, ∃ t, exec (.awr a b) s = .next t ∧ Waits s t r 4 0xAB (.acc (coreTile s.cur) (.awr off.toNat (reg s r b)) (s.order + 1)) ∧
      byteAt t (2 ^ 48 + coreTile s.cur * 0x200000 + off.toNat) = byteAt s (2 ^ 48 + coreTile s.cur * 0x200000 + off.toNat))) ∧
  (∀ s r a j, Issues s r → AccOpen s r → (reg s r a).toNat = j → j < 128 → AccFree s j → Unlogged s (2 ^ 48 + coreTile s.cur * 0x200000 + 16384 * j) →
    ∃ t, exec (.aclr a) s = .next t ∧ Answers s t r 0 0 ∧
      (∀ x, 2 ^ 48 + coreTile s.cur * 0x200000 + 16384 * j ≤ x → x < 2 ^ 48 + coreTile s.cur * 0x200000 + 16384 * (j + 1) → byteAt t x = 0) ∧
      (∀ x, x < 2 ^ 48 + coreTile s.cur * 0x200000 + 16384 * j ∨ 2 ^ 48 + coreTile s.cur * 0x200000 + 16384 * (j + 1) ≤ x → x / 8 * 8 ≠ r.wptr →
        byteAt t x = byteAt s x)) ∧
  (∀ s r d a n ty, Issues s r → AccOpen s r → (reg s r a).toNat = ty * 2 ^ 8 + n → n ≤ 128 → ty < 2 ^ 8 →
    fileFree (modCore s s.cur fun k => { k with prefetch := [] }) (coreTile s.cur) = true →
    ∃ u, exec (.acfg d a) s = .next (settle u) ∧ Answers s u r d (fileConfig s (coreTile s.cur)) ∧ (getTile u (coreTile s.cur)).accLive = n ∧
      (getTile u (coreTile s.cur)).accType.toNat = ty ∧
      (getTile u (coreTile s.cur)).accOwner = (if n = 0 ∨ r.rcb = 0 then none else some r.rcb) ∧ (me u).prefetch = []) ∧
  (∀ s r i, Placed s r → RoomToTrap s → isRim (coreTile s.cur) = true →
    ((∃ a, i = Instr.apf a) ∨ (∃ d a, i = Instr.ard d a) ∨ (∃ a b, i = Instr.awr a b) ∨ (∃ a, i = Instr.aclr a) ∨ (∃ d a, i = Instr.acfg d a)) →
    ∃ t v, exec i s = .next t ∧ Trapped s t r .far 0 v r.pc)

/-- R387, R403, R380: TKREQ records its class's need with the region and returns the need, capped, with the tokens held; TKREL withdraws
the request and returns its need; TKSTAT returns holding, need, the zone's free tokens, point and ceiling; PLXL returns the physical place
that a place word resolves to. A class above 7 takes BOUND; on a rim tile the token instructions take FAR. -/
def Obligations.TokensAndPlaces : Prop :=
  ∀ s r, Issues s r →
    (isRim (coreTile s.cur) = false →
      (∀ d a, (reg s r a).toNat < 8 → ∃ t v, exec (.tkreq d a) s = .next t ∧ Answers s t r d v ∧ t.mem = s.mem ∧
        v.toNat = (Min.min ([0, 20, 40, 80, 120, 160, 200, 220].getD (reg s r a).toNat 0) (if r.rcb = 0 then 0xFFFF else rcbTokcap s r.rcb) * 2 ^ 16 +
          (getTile s (coreTile s.cur)).tkheld) % 2 ^ 64 ∧
        (me t).request = some ([0, 20, 40, 80, 120, 160, 200, 220].getD (reg s r a).toNat 0, r.rcb)) ∧
      (∀ d, ∃ t v, exec (.tkrel d) s = .next t ∧ Answers s t r d v ∧ t.mem = s.mem ∧ (me t).request = none ∧
        (∀ n q, (me s).request = some (n, q) → v.toNat = n % 2 ^ 64) ∧ ((me s).request = none → v = 0)) ∧
      (∀ d, ∃ t v, exec (.tkstat d) s = .next t ∧ RegStep s t r d v (r.pc + 4) ∧ v.toNat % 2 ^ 16 = (getTile s (coreTile s.cur)).tkheld % 2 ^ 16 ∧
        v.toNat / 2 ^ 16 % 2 ^ 16 = (getTile s (coreTile s.cur)).tkneed % 2 ^ 16 ∧
        v.toNat / 2 ^ 32 % 2 ^ 16 = (getSeg s (gridSeg (coreTile s.cur))).free % 2 ^ 16 ∧
        v.toNat / 2 ^ 48 % 2 ^ 4 = tilePoint s (coreTile s.cur) % 2 ^ 4 ∧ v.toNat / 2 ^ 52 % 2 ^ 4 = tileCeiling s (coreTile s.cur) % 2 ^ 4)) ∧
    (∀ d a t k, mapFrozen s r.rcb = false → resolvePlace s r.rcb (coreTile s.cur) (reg s r a) (some (coreIdx s.cur)) r.sm = .ok t k → t < 2 ^ 14 → k < 4 →
      ∃ u v, exec (.plxl d a) s = .next u ∧ RegStep s u r d v (r.pc + 4) ∧ v.toNat % 2 ^ 14 = t ∧ v.toNat / 2 ^ 20 % 4 = k ∧ v.toNat / 2 ^ 63 = 1) ∧
    (Placed s r → RoomToTrap s →
      (∀ d a, isRim (coreTile s.cur) = false → 8 ≤ (reg s r a).toNat → ∃ t, exec (.tkreq d a) s = .next t ∧ Trapped s t r .bound 0 (reg s r a) r.pc) ∧
      (isRim (coreTile s.cur) = true → ∀ i, ((∃ d a, i = Instr.tkreq d a) ∨ (∃ d, i = Instr.tkrel d) ∨ (∃ d, i = Instr.tkstat d)) →
        ∃ t v, exec i s = .next t ∧ Trapped s t r .far 0 v r.pc))

/-- R357 to R362: on a sound context map KMAP writes a well-formed image into a free entry, staged or appended at the end (NTOK rises by
COUNT); KUNMAP frees a staged entry and takes an entry in use out of the chain: NTOK falls by its COUNT, NUSE by one, GEN rises and the low 16
bits of W[d] are 0, unless a later entry's DELTA would leave its range; then the status is 4 and the map is as it was (R356; that KUNMAP meets
status 4 so is the model's reading, log entry 51); KSPLICE adds its chain's tokens to NTOK, raises GEN and leaves LOCK
clear; while an attention job holds a reference to the map, or a port holds what they write, the two set LOCK and wait; KTAG returns the state of
an entry's tag and changes nothing; KREPAIR opens and KRDONE closes the repair of the entry's next layer. -/
def Obligations.ContextMaps : Prop :=
  ∀ a s r m, MapReady s r (reg s r a) m → (kvHead s m).bad = false →
    (∀ d b ia nc w ix, memCheck s s.cur r (reg s r b) 64 .read .block false = (s, .ok ia nc) → Readable s ia 64 → w = (fun k => dwAt s (ia + 8 * k)) →
      imageBad w = false → ix = (w 7).toNat % 2 ^ 12 → ix < (kvHead s m).cap → (kvEnt s m ix).st = 0 →
      (bit (w 7) 16 = false → ∃ u, exec (.kmap d a b) s = .next (settle u) ∧ Answers s u r d 0 ∧ kvEnt u m ix = { kvEntOf w with ro := 0xFF, lc := 0xFF, st := 1 }) ∧
      (bit (w 7) 16 = true → lockTaken s m r.wptr = false → (kvHead s m).ntok + (kvEntOf w).count < 2 ^ 24 → (kvHead s m).nuse < 2 ^ 12 →
        deltaOk ((kvEntOf w).delta + ((kvHead s m).ntok : Int) - ((kvEntOf w).pbase : Int)) = true →
        ∃ u, exec (.kmap d a b) s = .next (settle u) ∧ Answers s u r d 0 ∧ (kvHead u m).ntok = (kvHead s m).ntok + (kvEntOf w).count ∧
          (kvHead u m).nuse = (kvHead s m).nuse + 1 ∧ (kvHead u m).lastx = ix + 1)) ∧
    (∀ d b i, (reg s r b).toNat = i → i < (kvHead s m).cap →
      ((kvEnt s m i).st = 1 → ∃ u, exec (.kunmap d a b) s = .next (settle u) ∧ Answers s u r d 0 ∧ (kvEnt u m i).st = 0) ∧
      ((kvEnt s m i).st = 0 → ∃ u, exec (.kunmap d a b) s = .next (settle u) ∧ Answers s u r d 1 ∧ u.mem = s.mem) ∧
      ((kvEnt s m i).st = 2 → lockTaken s m r.wptr = false → i ∈ kvInUse s m →
        (mapRefs s m = false → mapGuarded s m (kvInUse s m) r.sm = false →
          ((∃ k ∈ kvInUse s m, k ≠ i ∧ (kvEnt s m i).pbase < (kvEnt s m k).pbase ∧
              deltaOk ((kvEnt s m k).delta - ((kvEnt s m i).count : Int)) = false) →
            ∃ u, exec (.kunmap d a b) s = .next (settle u) ∧ Answers s u r d 4 ∧ kvHead u m = kvHead s m ∧
              ∀ k, k < (kvHead s m).cap → kvEnt u m k = kvEnt s m k) ∧
          ((∀ k ∈ kvInUse s m, k ≠ i → (kvEnt s m i).pbase < (kvEnt s m k).pbase →
              deltaOk ((kvEnt s m k).delta - ((kvEnt s m i).count : Int)) = true) →
            ∃ u v, exec (.kunmap d a b) s = .next (settle u) ∧ Answers s u r d v ∧ v.toNat % 2 ^ 16 = 0 ∧ (kvHead u m).lock = false ∧
              (kvEnt u m i).st = 0 ∧ (kvHead u m).gen = ((kvHead s m).gen + 1) % 2 ^ 32 ∧
              (kvHead u m).ntok = (kvHead s m).ntok - (kvEnt s m i).count ∧
              ((kvInUse s m).Nodup → (kvInUse s m).length = (kvHead s m).nuse → (kvHead u m).nuse + 1 = (kvHead s m).nuse))) ∧
        (mapRefs s m = true ∨ mapGuarded s m (kvInUse s m) r.sm = true → Placed s r → (m + 64 ≤ r.wptr - 128 ∨ r.wptr + 128 ≤ m) →
          ∃ t, exec (.kunmap d a b) s = .next t ∧ Waits s t r 6 0x4B (.lock m d false (reg s r b) 0) ∧ (kvHead t m).lock = true))) ∧
    (∀ d b pl, bits (reg s r b) 31 24 = 0 → bits (reg s r b) 47 44 = 0 → bits (reg s r b) 62 60 = 0 → lockTaken s m r.wptr = false →
      spliceCheck s m (coreTile s.cur) (reg s r b) (pcsr s r 8) = .inr pl →
      (bits (getTile s (coreTile s.cur)).wrevtab 51 14 * 2 ^ 14 + 2 ^ 14 ≤ m ∨ m + 64 ≤ bits (getTile s (coreTile s.cur)).wrevtab 51 14 * 2 ^ 14) →
      (mapRefs s m = false → mapGuarded s m (rewriteEntries s m (coreTile s.cur) true (reg s r b) (pcsr s r 8)) r.sm = false →
        ∃ u v, exec (.ksplice d a b) s = .next (settle u) ∧ Answers s u r d v ∧ v.toNat % 2 ^ 16 = 0 ∧ (kvHead u m).lock = false ∧
          (kvHead u m).ntok = (kvHead s m).ntok + pl.lsum ∧ (kvHead u m).gen = ((kvHead s m).gen + 1) % 2 ^ 32) ∧
      (mapRefs s m = true ∨ mapGuarded s m (rewriteEntries s m (coreTile s.cur) true (reg s r b) (pcsr s r 8)) r.sm = true → Placed s r →
        (m + 64 ≤ r.wptr - 128 ∨ r.wptr + 128 ≤ m) →
        ∃ t, exec (.ksplice d a b) s = .next t ∧ Waits s t r 6 0x4B (.lock m d true (reg s r b) (pcsr s r 8)) ∧ (kvHead t m).lock = true)) ∧
    (∀ d b i, (reg s r b).toNat = i → i < (kvHead s m).cap → ∃ u v, exec (.ktag d a b) s = .next (settle u) ∧ Answers s u r d v ∧ u.mem = s.mem ∧
      ((kvEnt s m i).st ≠ 1 → (kvEnt s m i).st ≠ 2 → v = 1) ∧
      ((kvEnt s m i).st = 1 ∨ (kvEnt s m i).st = 2 → ((kvEnt s m i).tag = 0 → v = 0) ∧
        ((kvEnt s m i).tag ≠ 0 → bits (kvEnt s m i).tag 63 48 ≠ bits (pcsr s r 8) 15 0 → v = 0x106))) ∧
    (∀ b i l, (reg s r b).toNat = i * 2 ^ 16 + l → i < (kvHead s m).cap → l < 255 → (kvEnt s m i).st = 2 → l = nextLayer (kvEnt s m i) →
      ((kvEnt s m i).rbase ≠ 0 → (kvEnt s m i).ro = 0xFF → ∃ t, exec (.krepair a b) s = .next t ∧ Answers s t r 0 0 ∧ kvEnt t m i = { kvEnt s m i with ro := l }) ∧
      ((kvEnt s m i).ro = l → ∃ t, exec (.krdone a b) s = .next t ∧ Answers s t r 0 0 ∧ kvEnt t m i = { kvEnt s m i with lc := l, ro := 0xFF }))

/-- R371, R374: CGJOIN of a core that the descriptor names, at a sequence number that it may join at, makes it a member and puts the group
into the tile's table, with the leaving number it may have, and returns the member number; CGLEAVE of a current member sets its leaving number; a core that is not named gets 1,
a malformed descriptor 4. CGSTAT returns HSEQ, GEN or the number of members. -/
def Obligations.GroupsChange : Prop :=
  ∀ a s r m, GroupReady s r (reg s r a) m →
    (∀ i d b, i = Instr.cgjoin d a b ∨ i = Instr.cgleave d a b → (reg s r b).toNat < 2 ^ 32 →
      portHolds s m (descLen s m) (.instr s.cur) r.sm = false →
      (gMalformed s m = true → ∃ t, exec i s = .next t ∧ Answers s t r d 4 ∧ t.mem = s.mem) ∧
      (gMalformed s m = false → memberNamed s m s.cur = none → ∃ t, exec i s = .next t ∧ Answers s t r d 1 ∧ t.mem = s.mem)) ∧
    (∀ d b n e q, (reg s r b).toNat = q → q < 2 ^ 32 → portHolds s m (descLen s m) (.instr s.cur) r.sm = false → gMalformed s m = false → memberNamed s m s.cur = some (n, e) →
      ((if isCurrent s m e then q = e.jseq else serLt q (gHseq s m) = false) → (getTile s (coreTile s.cur)).groups.length < 16 →
        (isCurrent s m e = true → e.lv = true → serLe e.lseq q = false) →
        ∃ t, exec (.cgjoin d a b) s = .next t ∧ Answers s t r d (BitVec.ofNat 64 (n * 2 ^ 16)) ∧ (gMember t m n).isIn = true ∧ (gMember t m n).jseq = q ∧
          groupEntry t (coreTile s.cur) (gGrp s m) s.cur = some ⟨gGrp s m, coreIdx s.cur, m, n, BitVec.ofNat 32 q,
            if isCurrent s m e && e.lv then some (BitVec.ofNat 32 e.lseq) else none⟩) ∧
      (isCurrent s m e = true → serLt q (gHseq s m) = false → serLt q e.jseq = false →
        ∃ t, exec (.cgleave d a b) s = .next t ∧ Answers s t r d 0 ∧ (gMember t m n).lv = true ∧ (gMember t m n).lseq = q)) ∧
    (∀ d b, ((reg s r b) = 0 → ∃ t, exec (.cgstat d a b) s = .next t ∧ Answers s t r d (BitVec.ofNat 64 (gHseq s m)) ∧ t.mem = s.mem) ∧
      ((reg s r b) = 1 → ∃ t, exec (.cgstat d a b) s = .next t ∧ Answers s t r d (BitVec.ofNat 64 (gGen s m)) ∧ t.mem = s.mem) ∧
      ((reg s r b) = 2 → gMalformed s m = false → ∃ t, exec (.cgstat d a b) s = .next t ∧
        Answers s t r d (BitVec.ofNat 64 (gMembersOf s m (gHseq s m)).length) ∧ t.mem = s.mem))

/-- R262, R263, R265: ENQ of a command to a queue of the tile, or to a vector queue of its segment, with a free entry and enough guards captures it
there, QUEUED, for the process,
with a new use count, and returns its identifier (bit 63, tile, queue, use count, slot); a VCVT's capture raises GENCTR modulo 16. Without a
free entry it waits in WQUEUE with ARG the queue, without guards with ARG 3. -/
def Obligations.EnqCaptures : Prop :=
  ∀ d a b s r pa nc x q w s0, Issues s r → Drained s → QueueNamed s r (reg s r b) x q →
    memCheck s s.cur r (reg s r a) 32 .read .block false = (s0, .ok pa nc) → spaceOf pa = 0 → uncorrectable s pa 32 = false →
    w = BitVec.ofNat 256 (rdN s pa 32) → enqHeld s x q w = false → heldEntry s (4 * x + q) r.wptr = none →
    (queueFull s (4 * x + q) s.cur = true → Placed s r → ∃ t, exec (.enq d a b) s = .next t ∧ Waits s t r 8 q (.queue (4 * x + q))) ∧
    (∀ n key s1 plan, queueFull s (4 * x + q) s.cur = false → freeSlotOf s (4 * x + q) = some n →
      key = (4 * x + q) * 32 + n → (entryAt s key).taken = none → s1 = takeEntry (correctAt s0 s.cur pa 32) key r.wptr →
      plan = guardPlan s1 x key (captured s1 s.cur r (4 * x + q) w) →
      (∀ u, guardShort s1 plan = some u → Placed s r → ∃ t, exec (.enq d a b) s = .next t ∧ Waits s t r 8 3 (.guard u key)) ∧
      (guardShort s1 plan = none → ∃ t j v, exec (.enq d a b) s = .next t ∧ (d ≠ 0 → reg t r d = v) ∧ (∀ e, e ≠ d → reg t r e = reg s r e) ∧
        (me t).run.map (·.pc) = some (r.pc + 4) ∧ (me t).instret = (me s).instret + 1 ∧ t.mem = s.mem ∧
        v.toNat = 2 ^ 63 + x * 2 ^ 36 + q * 2 ^ 34 + ((entryAt s key).gen + 1).toNat * 2 ^ 16 + n ∧
        (entryAt t key).job = some j ∧ (entryAt t key).gen = (entryAt s key).gen + 1 ∧ j.cmd = w ∧ j.st = .queued ∧ j.wptr = r.wptr ∧ j.rcb = r.rcb ∧
        j.core = s.cur ∧ j.sm = r.sm ∧ j.fmta = pcsr s r 2 ∧ j.fmtb = pcsr s r 3 ∧ j.fmtc = pcsr s r 4 ∧ j.gran = 0 ∧
        (cEop w = 0x45 ∧ cKind w = 4 → (pcsr t r 7).toNat = ((pcsr s r 7).toNat % 16 + 1) % 16)))

/-- R272: JWAIT, JPOLL and JDROP by an identifier: a use count that is not the entry's gives 0, 0 and 2; a job that has ended gives its
completion value, and 2 to JDROP; while it stands, JWAIT waits in WJOB, JPOLL gives 1, 2 or 3 for queued, running or parked, and JDROP gives
1, or ends a queued job with code 0x0A and status 0. -/
def Obligations.JobInstructions : Prop :=
  ∀ d a s r key gen, Issues s r → IdReaches s r (reg s r a) key gen →
    ((entryAt s key).gen.toNat ≠ gen →
      (∃ t, exec (.jwait d a) s = .next t ∧ Answers s t r d 0) ∧ (∃ t, exec (.jpoll d a) s = .next t ∧ Answers s t r d 0) ∧
      (∃ t, exec (.jdrop d a) s = .next t ∧ Answers s t r d 2)) ∧
    (∀ v, (entryAt s key).gen.toNat = gen → (entryAt s key).job = none → (entryAt s key).result = some v →
      (∃ t, exec (.jwait d a) s = .next t ∧ Answers s t r d v) ∧ (∃ t, exec (.jpoll d a) s = .next t ∧ Answers s t r d v) ∧
      (∃ t, exec (.jdrop d a) s = .next t ∧ Answers s t r d 2)) ∧
    (∀ j, (entryAt s key).gen.toNat = gen → (entryAt s key).job = some j →
      (Placed s r → ∃ t, exec (.jwait d a) s = .next t ∧ Waits s t r 4 0 (.job d key gen)) ∧
      (∃ t, exec (.jpoll d a) s = .next t ∧ Answers s t r d (match j.st with | .queued => 1 | .running => 2 | .parked => 3 | .ready => 3)) ∧
      (j.st ≠ .queued → ∃ t, exec (.jdrop d a) s = .next t ∧ Answers s t r d 1) ∧
      (j.st = .queued → j.last = false → ∃ u, exec (.jdrop d a) s = .next (settle (finish (endJob u key 0x0A) s.cur r d 0)) ∧
        u.queues = s.queues ∧ u.mem = s.mem))

namespace Sys2Proof.Claims

/-! ### The whole machine: reset, words, steps and commands (R24 to R42, R84, R121, R151, R261 to R270) -/

/-- The fields of a scalar word in format F-R (R25): op, d, a, b, fn and x. -/
def wordR (op d a b fn x : Nat) : IWord := BitVec.ofNat 32 (op * 2 ^ 26 + d * 2 ^ 22 + a * 2 ^ 18 + b * 2 ^ 14 + fn * 2 ^ 4 + x)
/-- Format F-I: op, d, a and an 18-bit immediate. -/
def wordI (op d a imm : Nat) : IWord := BitVec.ofNat 32 (op * 2 ^ 26 + d * 2 ^ 22 + a * 2 ^ 18 + imm)
/-- Format F-M: op, d, a, sz, ord and a 14-bit offset. -/
def wordM (op d a sz ord off : Nat) : IWord := BitVec.ofNat 32 (op * 2 ^ 26 + d * 2 ^ 22 + a * 2 ^ 18 + sz * 2 ^ 16 + ord * 2 ^ 14 + off)
/-- Format F-B: op, a, b, cond and a 15-bit offset. -/
def wordB (op a b cond off : Nat) : IWord := BitVec.ofNat 32 (op * 2 ^ 26 + a * 2 ^ 22 + b * 2 ^ 18 + cond * 2 ^ 15 + off)
/-- The envelope of a command word (R40, R269): EOP, KIND, CMPL, PRIO and CWA, above the bits of the body. -/
def wordC (eop kind cmpl prio cwa body : Nat) : CWord :=
  BitVec.ofNat 256 (eop * 2 ^ 248 + kind * 2 ^ 245 + cmpl * 2 ^ 244 + prio * 2 ^ 242 + cwa * 2 ^ 192 + body)

/-- Words of every group, written out from the encodings of R25 to R38, with their instructions. -/
def someWords : List (IWord × Instr) :=
  [(wordR 0x01 1 2 3 0 0, .add 1 2 3), (wordR 0x01 15 14 0 0x23 2, .sext 15 14 .w), (wordI 0x02 1 2 0x3FFFF, .addi 1 2 0x3FFFF),
    (wordI 0x08 3 4 (2 * 2 ^ 16 + 63), .srai 3 4 63), (wordR 0x0C 5 6 7 4 0, .div 5 6 7), (wordB 0x10 2 3 4 0x7FFF, .bltu 2 3 0x7FFF),
    (wordM 0x14 1 2 3 1 0x3FFF, .ldAcq 1 2 .d 0x3FFF), (wordM 0x16 9 8 0 2 1, .stRel 9 8 .b 1), (wordR 0x17 1 2 3 3 4, .waita 1 2 3 4),
    (wordR 0x18 1 2 3 (3 * 2 ^ 7 + 1 * 2 ^ 6 + 3 * 2 ^ 4 + 9) 5, .amoCas ⟨1, 2, 3, .d, true, .ar⟩ 5), (wordI 0x19 0 0 (3 * 2 ^ 4 + 2), .fenceRel .panel),
    (wordR 0x1A 1 2 0 0 3, .hld 1 2 .d), (wordR 0x20 1 2 3 (3 * 2 + 1) 0, .fdiv .d 1 2 3), (wordR 0x20 1 2 0 (13 * 2) (2 * 4 + 1), .fcvtI .s 1 2 .l .rtz),
    (wordR 0x21 1 2 3 (1 * 4 + 3) 9, .fnmsub .d 1 2 3 9), (wordR 0x24 1 2 3 0 0, .spawn 1 2 3), (wordR 0x25 1 2 3 4 1, .selF 1 2 3),
    (wordR 0x26 1 2 3 1 1, .rbclaimNb 1 2 3), (wordR 0x27 1 2 3 0 0, .enq 1 2 3), (wordR 0x28 0 2 3 3 0, .awr 2 3),
    (wordI 0x29 7 6 (1 * 2 ^ 16 + 0x110), .csrw 7 6 0x110), (wordR 0x2A 1 2 0 0 0, .tkreq 1 2), (wordR 0x2B 1 2 3 2 0, .ksplice 1 2 3),
    (wordR 0x2C 1 2 0 3 0, .plxl 1 2), (wordR 0x2D 1 2 3 3 0, .resume 1 2 3)]

/-- Command words of every engine, written out from R274, R276, R282, R298, R315 and R322, with their instructions. -/
def someCommands : List (CWord × Instr) :=
  [(wordC 0x05 0 1 2 0x1238 (0x4000 * 2 ^ 144 + 300 * 2 ^ 112 + 0x1122334455667788), .fill ⟨true, 2, 0x1238⟩ ⟨0x4000, 300, 0x1122334455667788⟩),
    (wordC 0x51 5 0 3 0 (0x4000 * 2 ^ 144 + 0x5000 * 2 ^ 96 + 7 * 2 ^ 80 + 9 * 2 ^ 48 + 100 * 2 ^ 20 + 3 * 2 ^ 15 + 1 * 2 ^ 12),
      .cagth ⟨false, 3, 0⟩ ⟨0x4000, 0x5000, 7, 9, 100, 3, 1⟩),
    (wordC 0x12 1 0 0 0 (0x4000 * 2 ^ 144 + 64 * 2 ^ 120 + 32 * 2 ^ 103 + 5 * 2 ^ 97 + 6 * 2 ^ 91 + 7 * 2 ^ 78), .bload ⟨false, 0, 0⟩ ⟨0x4000, 64, 32, 5, 6, 7⟩),
    (wordC 0x24 2 0 0 0 (0x4000 * 2 ^ 144 + 0x5000 * 2 ^ 96 + 100 * 2 ^ 83 + 2 * 2 ^ 81 + 1 * 2 ^ 80), .sortkv ⟨false, 0, 0⟩ ⟨0x4000, 0x5000, 100, 2, 1⟩),
    (wordC 0x34 3 0 0 0 (0x4000 * 2 ^ 144 + 256 * 2 ^ 120 + 17 * 2 ^ 96 + 2 * 2 ^ 80 + 128 * 2 ^ 71 + 3 * 2 ^ 65), .arot ⟨false, 0, 0⟩ ⟨0x4000, 256, 17, 2, 128, 3⟩),
    (wordC 0x44 4 0 0 0 (0x4000 * 2 ^ 144 + 0x5000 * 2 ^ 96 + 100 * 2 ^ 72 + 2 * 2 ^ 69 + 1 * 2 ^ 68), .vscan ⟨false, 0, 0⟩ ⟨0x4000, 0x5000, 100, 2, 1⟩)]

/-- The state in which core `c` takes its turn. -/
def atTurn (s : State) (c : Nat) (rest : List Turn) : State := { s with agenda := rest, cur := c, yielded := true }

/-- The granules of the job of command `i` in entry `key`, one after another from a boundary, `n` of them, each at a level of at least 1
and none parked, up to the state before its end is carried out (R266, R279). -/
inductive Granules (i : Instr) (key : Nat) : Nat → State → State → Prop
  | last (s s' : State) (j : Job) : jobAt s key = some j → decodeCmd j.cmd = .ok i → j.st = .running → j.started = true → j.last = false →
      (runGran (engOf key j) i).run s = (.ok true, s') →
      Granules i key 1 s (consumed (modJob (dropHeldAcc s' (.job key)) key fun j => { j with gran := j.gran + 1, inFlight := false, last := true }) key j)
  | more (n : Nat) (s s' u t : State) (j j' : Job) : jobAt s key = some j → decodeCmd j.cmd = .ok i → j.st = .running → j.started = true → j.last = false →
      (runGran (engOf key j) i).run s = (.ok false, s') →
      u = modJob (dropHeldAcc s' (.job key)) key (fun j => { j with gran := j.gran + 1, inFlight := false, last := false }) → jobAt u key = some j' → j'.gran = j.gran + 1 →
      suspendedRegion u j'.rcb = false → 1 ≤ tileLevel u (key / 128) j'.cls → Granules i key n u t → Granules i key (n + 1) s t

/-- The executing process's tile takes a command of KIND `kind` into entry `n` of its engine's queue: the queue is not full, the entry is
free, and there are guards for it. `s2` is the state after the capture (R262 to R264). -/
structure Captures (s : State) (r : Running) (w : CWord) (key : Nat) (s2 : State) : Prop where
  issues : Issues s r
  room : queueFull s (key / 32) s.cur = false
  slot : freeSlotOf s (key / 32) = some (key % 32)
  queue : key / 32 = 4 * coreTile s.cur + queueOfKind (coreTile s.cur) (cKind w)
  guards : guardShort (takeEntry s key r.wptr) (guardPlan (takeEntry s key r.wptr) (coreTile s.cur) key (captured (takeEntry s key r.wptr) s.cur r (key / 32) w)) = none
  after : s2 = capture (takeEntry s key r.wptr) s.cur r key w
    (guardPlan (takeEntry s key r.wptr) (coreTile s.cur) key (captured (takeEntry s key r.wptr) s.cur r (key / 32) w))

end Sys2Proof.Claims

/-- R84, R121, R151, R161, R170, R216, R404: right after reset every byte reads as zero, nothing is full, poisoned or marked, no process, job,
message or transfer exists, every core is idle with TSLICE 16,384, FGWAIT 4,194,304, OPREQ 5 and its other registers 0, every tile holds
no tokens, live accumulator tile or watch, every segment's pool has its 4,600 tokens free, every hole bit is set and TIME is 0; and the
memory has its canonical form. Where the manual gives no reset value these zeros are the model's choice (log entries 7 and 9). -/
def Obligations.ResetState : Prop :=
  MemInv State.reset ∧ State.reset.time = 0 ∧
  (∀ a, byteAt State.reset a = 0 ∧ a ∉ State.reset.full ∧ a ∉ State.reset.bad ∧ a ∉ State.reset.weak) ∧
  (∀ w, getProc State.reset w = none) ∧ allJobs State.reset = [] ∧ State.reset.msgs = [] ∧ State.reset.transfers = [] ∧ State.reset.areas = [] ∧
  (∀ c, getCore State.reset c = Core.reset) ∧ Core.reset.run = none ∧ Core.reset.highQ = [] ∧ Core.reset.lowQ = [] ∧
  (∀ i, slotAt Core.reset i = none) ∧ Core.reset.sbuf = [] ∧ Core.reset.journal = [] ∧
  Core.reset.tslice = 16384 ∧ Core.reset.fgwait = 4194304 ∧ Core.reset.opreq = 5 ∧
  [Core.reset.instret, Core.reset.latmsg, Core.reset.vidsel, Core.reset.hpmctl, Core.reset.tcause, Core.reset.tval, Core.reset.tpc, Core.reset.tseq].all
    (· = 0) = true ∧
  (∀ t, getTile State.reset t = Tile.reset) ∧ Tile.reset.tkheld = 0 ∧ Tile.reset.accLive = 0 ∧ Tile.reset.watches = [] ∧ Tile.reset.trigBase = 0 ∧
  (∀ g, (getSeg State.reset g).free = 4600 ∧ (getSeg State.reset g).pool = 4600) ∧
  (∀ src t, t < 12544 → holeBit State.reset src t = true) ∧
  (∀ n, csrReset n = if n = 9 then 0x7C00 else 0)

/-- R24 to R41: words written out field by field from the encodings decode to the instructions they stand for, and a few words that the
tables reserve are refused. -/
def Obligations.DecodeWords : Prop :=
  (∀ p ∈ someWords, decodeWord p.1 = .ok p.2) ∧ (∀ p ∈ someCommands, decodeCmd p.1 = .ok p.2) ∧
  decodeWord 0 = .error .reservedOp ∧ decodeWord (wordR 0x01 1 2 3 0 1) = .error .mustBeZero ∧ decodeWord (wordR 0x01 1 2 3 0x15 0) = .error .reservedCode ∧
  decodeWord (wordI 0x29 1 0 0x00C) = .error .reservedCode ∧ decodeCmd (wordC 0x05 1 0 0 0 0) = .error .wrongKind ∧
  decodeCmd (wordC 0x06 0 0 0 0 0) = .error .unknownEop ∧ decodeCmd (wordC 0x05 0 0 0 0 (2 ^ 100)) = .error .commandMbz

/-- R24 to R41: for every well-formed instruction and command, decoding its encoding gives it back with every operand; a word that decodes
is well formed and is the encoding of what it decodes to, so that no two words stand for one instruction and none is read as a neighbour. -/
def Obligations.EncodeDecode : Prop :=
  (∀ i w, i.wf = true → encodeWord i = some w → decodeWord w = .ok i) ∧ (∀ i w, i.wf = true → encodeCmd i = some w → decodeCmd w = .ok i) ∧
  (∀ i w, decodeWord w = .ok i → i.wf = true ∧ encodeWord i = some w) ∧ (∀ i w, decodeCmd w = .ok i → i.wf = true ∧ encodeCmd i = some w) ∧
  (∀ i w rest, i.wf = true → encodeWord i = some w → decodeBytes (encode i ++ rest) = .ok (i, rest))

/-- R24, R39, R86: where core `c` has the turn (log entry 2) and its process has no event due at the boundary, the step fetches the word at its PC and
runs the instruction that the word decodes to, ILLOP where it decodes to none, FETCH_FAULT where the fetch fails; an event due runs first;
a turn of an event or of a placed command runs that. The fetch of a system process in physical space takes the four bytes at the PC, lowest
first, and changes no memory and no register. -/
def Obligations.StepRunsDecoded : Prop :=
  (∀ s c rest r, s.agenda = .core c :: rest → c < 4 * 12544 → issuer (atTurn s c rest) = some r →
    (boundaryEvent (atTurn s c rest) c = none →
      (∀ s1 w i, fetch (atTurn s c rest) c r = (s1, .word w) → decodeWord w = .ok i → step s = exec i s1) ∧
      (∀ s1 w e, fetch (atTurn s c rest) c r = (s1, .word w) → decodeWord w = .error e → step s = exec (.illop w) s1) ∧
      (∀ s1, fetch (atTurn s c rest) c r = (s1, .fails) → step s = exec (.fetchFault r.pc) (atTurn s c rest))) ∧
    (∀ e, boundaryEvent (atTurn s c rest) c = some e → step s = exec e (atTurn s c rest)) ∧
    (∀ i, boundaryEvent (atTurn s c rest) c = none → r.sm = true → bit (getCore s c).vidsel 12 = false → rcbTenant s r.rcb = 0 →
      coreTile c * 0x400000 ≤ r.pc.toNat → r.pc.toNat < coreTile c * 0x400000 + 0x300000 → r.pc.toNat % 4 = 0 → isDark s (coreTile c) = false →
      uncorrectable s r.pc.toNat 4 = false → l1iCopy (getCore s c) r.pc.toNat = none → l2Code s c r.pc.toNat = none →
      decodeBytes (bytesAt s r.pc.toNat 4) = .ok (i, []) → ∃ s1, step s = exec i s1 ∧ s1.cur = c ∧ issuer s1 = some r ∧ s1.mem = s.mem ∧
        (∀ d, regRd s1 c r.wptr d = regRd s c r.wptr d) ∧ (∀ n, pcsrRd s1 c r.wptr n = pcsrRd s c r.wptr n))) ∧
  (∀ s i rest, s.agenda = .event i :: rest → step s = exec i { s with agenda := rest, yielded := false }) ∧
  (∀ s pa rest, s.agenda = .command pa :: rest → (∀ i, commandAt s pa = some i → step s = exec i { s with agenda := rest, yielded := true })) ∧
  (∀ s, s.agenda = [] → s.yielded = false → ∀ c, nextCore s = some c → step s = step { s with agenda := [.core c], turns := s.turns + 1 }) ∧
  (∀ s, s.agenda = [] → s.yielded = true → step s = step { s with agenda := [.event (nextEvent s)], turns := s.turns + 1 })

/-- The memory keeps its canonical form (strictly rising addresses, no zero byte listed: the model's own form, log entry 7) in every step from
a state that has it; and no instruction, command or event is ever refused or faults: every one of them answers a next state in every
state (one that does not apply leaves it as it is, log entry 1). -/
def Obligations.StepKeepsMemory : Prop :=
  (∀ s t, MemInv s → step s = .next t → MemInv t) ∧ (∀ i s, Runs i s)

/-- R42, R261 to R270, R279: a command of any engine (FILL, CPY, CPY2, GATH, SCAT, CALLR, CAGTH, CRSCT, MMA, MMAP, MRED, BLOAD, SPMM, SDDMM, SPGATH,
SEGRED, TOPK, SORTKV, ATTN, ADEC, AROT, KVAPP, KVDEV, VBIN, VUN, VFMA, VRED, VSCAN, VCVT, VSEL, VNORM, VTRN, VIDX) run by the tile of the
executing process (log entry 15): it is captured into the free
entry with a new use count. If the engine is busy it stays there QUEUED. If the engine is free and chooses it at a level of at least 1, its
checks pass and its granules follow one another, it ends: its guards are released and, with CMPL 0, the entry is free and keeps the
completion value, bit 63 set with the use count and the slot, without a fault code. -/
def Obligations.CommandsRun : Prop :=
  ∀ i w s r key s2, encodeCmd i = some w → i.wf = true → Captures s r w key s2 →
    ((entryAt s2 key).gen = (entryAt s key).gen + 1 ∧ ∃ j, jobAt s2 key = some j ∧ j.cmd = w ∧ j.st = .queued ∧ j.wptr = r.wptr ∧ j.rcb = r.rcb ∧ j.gran = 0) ∧
    (engineBusy s2 (key / 32) = true → exec i s = .next s2) ∧
    (∀ j s3 s4 n s5 j5, engineBusy s2 (key / 32) = false → chooseJob s2 (key / 32) = some (key, j) → 1 ≤ tileLevel s2 (coreTile s.cur) j.cls →
      runsKind (key / 32) (cKind w) = true → (cCmpl w = true → (cCwa w).toNat % 8 = 0) → s3 = startJob s2 (key / 32) key j →
      (∀ j3, jobAt s3 key = some j3 → (do runCheck (engOf key j3) i; runStart (engOf key j3) i : JM Unit).run s3 = (.ok (), s4)) →
      Granules i key n (modJob s4 key fun j => { j with started := true }) s5 → n < 2 ^ 63 → jobAt s5 key = some j5 → j5.last = true → j5.cmd = w →
      ∃ u, exec i s = .next (settle u) ∧
        (ckOf w = none → j5.fault = 0 → cCmpl w = false → (entryAt u key).job = none ∧ ∃ v, (entryAt u key).result = some v ∧ bit v 63 = true ∧
          bits v 55 48 = 0 ∧ bits v 31 16 = (entryAt s5 key).gen.toNat ∧ bits v 4 0 = key % 32))

namespace Sys2Proof.Claims

/-! ### Jobs, stores in flight, waits and pages (R167 to R171, R192, R193, R204 to R208, R256 to R279, R342, R344) -/

/-- An engine reads `n` bytes at `va`, within one page: they stand at `pa` in TLM, and the translation leaves `s1`. -/
structure EngineReads (s s1 : State) (e : Eng) (va n pa : Nat) : Prop where
  some : 0 < n ∧ va % 65536 + n ≤ 65536
  place : (engPa e va false).run s = (.ok pa, s1)
  tlm : spaceOf pa = 0
  sound : uncorrectable s1 pa n = false
  fresh : e.staged = []

/-- An engine may write `n` bytes at `va`, within one page: its checks pass with physical address `pa` and leave `s1`; the bytes are plain
memory. -/
structure EngineWrites (s s1 : State) (e : Eng) (va n pa : Nat) : Prop where
  some : 0 < n ∧ va % 65536 + n ≤ 65536
  place : (engWritePa e va n).run s = (.ok pa, s1)
  tlm : spaceOf pa = 0
  plain : Plain s1 pa n ∧ Unwatched s1 pa n ∧ (getRegion s1 e.j.rcb).interval = none

/-- The commands that move rows: bytes of a row, rows, where row numbers are read from, and the addresses of a row's source and
destination from its number and the number read (R274). -/
def moveOf : Instr → Option (Nat × Nat × Option (Nat × BitVec 1) × (Nat → Nat → Int) × (Nat → Nat → Int))
  | .cpy2 _ c => some (c.rowlen.toNat, c.nrows.toNat, none, fun r _ => c.src.toNat + r * c.sstride.toInt, fun r _ => c.dst.toNat + r * c.dstride.toInt)
  | .gath _ c => some (c.rowlen.toNat, c.nidx.toNat, some (c.idx.toNat, c.iw), fun _ i => c.tbl.toNat + i * c.rowlen.toNat, fun r _ => c.dst.toNat + r * c.rowlen.toNat)
  | .scat _ c => some (c.rowlen.toNat, c.nidx.toNat, some (c.idx.toNat, c.iw), fun r _ => c.src.toNat + r * c.rowlen.toNat, fun _ i => c.tbl.toNat + i * c.rowlen.toNat)
  | _ => none

/-- A job has ended (R269, R270): its entry is free and keeps the completion value, with bit 63 set, the fault code, the use count and the slot. -/
def EntryDone (u : State) (key : Nat) (gen : BitVec 16) (code : Nat) : Prop :=
  (entryAt u key).job = none ∧ ∃ v, (entryAt u key).result = some v ∧ bit v 63 = true ∧ bits v 55 48 = code ∧ bits v 31 16 = gen.toNat ∧ bits v 4 0 = key % 32

/-- No process waits, no store is held at a home, and no high-priority process is ready: an event wakes nothing. -/
structure Quiet (s : State) : Prop where
  waits : ∀ e ∈ s.procs, e.2.wait = .none
  held : ∀ e ∈ s.tiles, e.2.held = []
  ready : ∀ e ∈ s.cores, e.2.highQ = []
  noRcb : isRcb s 0 = false

/-- The free engine of a queue chooses the job in entry `key`. -/
structure Chosen (s : State) (tile q key : Nat) (j : Job) : Prop where
  free : engineBusy s (4 * tile + q) = false
  choice : chooseJob s (4 * tile + q) = some (key, j)
  entry : jobAt s key = some j
  queue : key / 32 = 4 * tile + q

/-- A process waits, with an aligned workspace that no process of its run queue overlaps. -/
structure Waiting (s : State) (w : Nat) (p : Proc) : Prop where
  proc : getProc s w = some p
  state : 2 ≤ pstate s w ∧ pstate s w ≤ 9
  base : w % 128 = 0 ∧ 128 ≤ w
  queue : QueueApart (runQueue (getCore s p.core) (bit (resumeAt s w) 62)) w

/-- A waiting instruction has completed (R217): W[d] = v and no other register changed, the PC past it, and the process READY at the tail of
the queue of its core and priority. -/
structure Woken (s u : State) (w : Nat) (p : Proc) (d : Reg) (v : Word) : Prop where
  dest : d ≠ 0 → regRd u p.core w d = v
  regs : ∀ e, e ≠ d → regRd u p.core w e = regRd s p.core w e
  pc : resumePc u w = resumePc s w + 4
  ready : pstate u w = 1
  wait : (getProc u w).map (·.wait) = some .none
  queued : runQueue (getCore u p.core) (bit (resumeAt s w) 62) = runQueue (getCore s p.core) (bit (resumeAt s w) 62) ++ [w]
  retired : (getCore u p.core).instret = (getCore s p.core).instret + 1

/-- A wait that holds no channel, table, map or entry. -/
def PlainWait : WaitInfo → Prop
  | .ldf _ => True
  | .waita _ _ _ => True
  | .join => True
  | .retry => True
  | .time _ _ _ => True
  | .job _ _ _ => True
  | _ => False

/-- A process that stands where an asynchronous trap can be delivered (R342): running on its core between instructions, or in a plain wait;
`pc` is where it stands. -/
def Deliverable (s : State) (w : Nat) (p : Proc) (pc : PC) : Prop :=
  (∃ r, (getCore s p.core).run = some r ∧ r.wptr = w ∧ (getCore s p.core).stall = none ∧ r.held = false ∧ pc = r.pc) ∨
  (Waiting s w p ∧ PlainWait p.wait ∧ pc = resumePc s w ∧ w ∉ (getCore s p.core).highQ ∧ w ∉ (getCore s p.core).lowQ ∧
    ∀ r, (getCore s p.core).run = some r → r.wptr ≠ w)

end Sys2Proof.Claims

/-- R274, R275: one granule of the copy commands, within one page of source and destination: FILL writes the pattern, byte j mod 8 to byte j
of the destination; CPY without a kept source, whose write meets no source byte still to be read, the bytes as they stand; CPY2, GATH and SCAT the part of a row, at the addresses that the
strides or the index read give. It is the last when no byte is left after it, and no other byte changes. -/
def Obligations.CopiesMove : Prop :=
  (∀ s s1 e env (c : FillCmd) n lo m pa, n = c.len.toNat → lo = 256 * e.j.gran → m = Min.min 256 (n - lo) → EngineWrites s s1 e (c.dst.toNat + lo) m pa →
    ∃ t, (runGran e (.fill env c)).run s = (.ok (decide (n ≤ lo + 256)), t) ∧
      (∀ k, k < m → (byteAt t (pa + k)).toNat = c.pattern.toNat / 256 ^ (k % 8) % 256) ∧ (∀ a, a < pa ∨ pa + m ≤ a → byteAt t a = byteAt s a)) ∧
  (∀ s s1 s2 e env (c : CpyCmd) n lo m rp wp, n = c.len.toNat → lo = 256 * e.j.gran → m = Min.min 256 (n - lo) → e.j.scratch = [] →
    EngineReads s s1 e (c.src.toNat + lo) m rp → EngineWrites (countCorrected s1 rp m) s2 e (c.dst.toNat + lo) m wp →
    (n ≤ lo + m ∨ cpyOverlaps (countCorrected s1 rp m) e (c.src.toNat + lo + m) (n - lo - m) (c.dst.toNat + lo) m = false) →
    ∃ t, (runGran e (.cpy env c)).run s = (.ok (decide (n ≤ lo + 256)), t) ∧
      (∀ k, k < m → byteAt t (wp + k) = byteAt s (rp + k)) ∧ (∀ a, a < wp ∨ wp + m ≤ a → byteAt t a = byteAt s a)) ∧
  (∀ i len rows idx src dst, moveOf i = some (len, rows, idx, src, dst) → ∀ s s0 s1 s2 e r x off m rp wp, granRows e.j.gran len (len * rows) = [(r, off, m)] →
    (idx = none → s0 = s) → (∀ va iw, idx = some (va, iw) → (readIdx e va iw r).run s = (.ok x, s0)) →
    0 ≤ src r x → src r x + len ≤ 2 ^ 48 → 0 ≤ dst r x → dst r x + len ≤ 2 ^ 48 →
    EngineReads s0 s1 e ((src r x).toNat + off) m rp → EngineWrites (countCorrected s1 rp m) s2 e ((dst r x).toNat + off) m wp →
    ∃ t, (runGran e i).run s = (.ok (decide (len * rows ≤ 256 * (e.j.gran + 1))), t) ∧
      (∀ k, k < m → byteAt t (wp + k) = byteAt s (rp + k)) ∧ (∀ a, a < wp ∨ wp + m ≤ a → byteAt t a = byteAt s a))

/-- R42, R266, R267, R270, R271, R279: a free engine takes the job it chooses: a QUEUED one at a level of at least 1 is checked, and starts
or ends with the fault of the first check that fails; a parked one that is ready goes on at such a level, and waits for it below. Where the spacing has passed, a granule is issued,
or the job parks for a suspension or a level of 0; at its boundary its effect is there and the next may follow, or the fault ends the
granules. The end frees the entry with the completion value and, with CMPL 1, performs it at CWA as a full word. -/
def Obligations.JobsRunOnEngines : Prop :=
  (∀ s tile q key j s3, Chosen s tile q key j → j.st = .queued → 1 ≤ tileLevel s tile j.cls → s3 = startJob s (4 * tile + q) key j →
    (∀ i s4 j3 j4, decodeCmd j.cmd = .ok i → runsKind (4 * tile + q) (cKind j.cmd) = true → (cCmpl j.cmd = true → (cCwa j.cmd).toNat % 8 = 0) →
      jobAt s3 key = some j3 → (do runCheck (engOf key j3) i; runStart (engOf key j3) i : JM Unit).run s3 = (.ok (), s4) → jobAt s4 key = some j4 →
      ∃ u, exec (.jobDequeue tile q) s = .next (settle u) ∧ jobAt u key = some { j4 with started := true } ∧ u.mem = s4.mem) ∧
    ((∃ x, decodeCmd j.cmd = .error x) ∨ runsKind (4 * tile + q) (cKind j.cmd) = false ∨ (cCmpl j.cmd = true ∧ (cCwa j.cmd).toNat % 8 ≠ 0) →
      ∃ u, exec (.jobDequeue tile q) s = .next (settle u) ∧ (cCmpl j.cmd = false → EntryDone u key (entryAt s key).gen 1)) ∧
    (∀ i s4 j3 j4 c, decodeCmd j.cmd = .ok i → runsKind (4 * tile + q) (cKind j.cmd) = true → cCmpl j.cmd = false →
      jobAt s3 key = some j3 → (do runCheck (engOf key j3) i; runStart (engOf key j3) i : JM Unit).run s3 = (.error (.fault c), s4) → c < 256 →
      jobAt s4 key = some j4 → j4.cmd = j.cmd →
      ∃ u, exec (.jobDequeue tile q) s = .next (settle u) ∧ EntryDone u key (entryAt s4 key).gen c)) ∧
  (∀ s tile q key j, Chosen s tile q key j → j.st ≠ .queued →
    (1 ≤ tileLevel s tile j.cls → j.started = true → ∃ u, exec (.jobResume tile q) s = .next (settle u) ∧
      jobAt u key = some { j with st := .running, why := none, inFlight := false, mapRef := j.mapName } ∧ u.mem = s.mem) ∧
    (tileLevel s tile j.cls = 0 → exec (.jobResume tile q) s = .next s)) ∧
  (∀ s tile q slot key j, key = (4 * tile + q) * 32 + slot → slot < 32 → q < 4 → jobAt s key = some j → j.st = .running → j.last = false →
    (j.inFlight = false → j.started = true →
      (suspendedRegion s j.rcb = false → 1 ≤ tileLevel s tile j.cls →
        ∃ t, exec (.granuleIssue tile q slot) s = .next t ∧ jobAt t key = some { j with inFlight := true } ∧ t.mem = s.mem) ∧
      (suspendedRegion s j.rcb = true → ∃ u j', exec (.granuleIssue tile q slot) s = .next (settle u) ∧ jobAt u key = some j' ∧ j'.st = .parked ∧
        j'.why = some .suspended ∧ j'.gran = j.gran) ∧
      (suspendedRegion s j.rcb = false → tileLevel s tile j.cls = 0 → ∃ u j', exec (.granuleIssue tile q slot) s = .next (settle u) ∧
        jobAt u key = some j' ∧ j'.st = .parked ∧ j'.why = some .level ∧ j'.gran = j.gran ∧ u.mem = s.mem)) ∧
    (∀ i, j.inFlight = true → decodeCmd j.cmd = .ok i →
      (∀ s' j' fin, (runGran (engOf key j) i).run s = (.ok fin, s') → jobAt s' key = some j' → suspendedRegion s' j'.rcb = false →
        1 ≤ tileLevel s' tile j'.cls → ∃ u v, exec (.granuleBoundary tile q slot) s = .next (settle u) ∧ jobAt u key = some v ∧ v.gran = j'.gran + 1 ∧
          v.inFlight = false ∧ v.last = fin ∧ (fin = false → u.mem = s'.mem)) ∧
      (∀ s' j' c, (runGran (engOf key j) i).run s = (.error (.fault c), s') → jobAt s' key = some j' →
        ∃ u, exec (.granuleBoundary tile q slot) s = .next (settle u) ∧ jobAt u key = some { j' with fault := c, last := true, inFlight := false })))
  ∧ (∀ s tile q slot key j, key = (4 * tile + q) * 32 + slot → slot < 32 → q < 4 → jobAt s key = some j → j.last = true → ckOf j.cmd = none → j.fault < 256 →
    (cCmpl j.cmd = false → ∃ u, exec (.jobDone tile q slot) s = .next (settle u) ∧ EntryDone u key (entryAt s key).gen j.fault) ∧
    (∀ pa, cCmpl j.cmd = true → (cCwa j.cmd).toNat = pa → pa % 8 = 0 → jobSpace j = none → InOwnTlm s tile pa 8 → Quiet s → j.rcb = 0 → isCollective j.cmd = false →
      portHolds s pa 8 (.job key) j.sm = false → snoopOf s pa = none → Plain s pa 8 → Unwatched s pa 8 → (getRegion s 0).interval = none →
      ∃ u, exec (.jobDone tile q slot) s = .next (settle u) ∧ EntryDone u key (entryAt s key).gen j.fault ∧ (entryAt u key).result = some (dwAt u pa) ∧
        isFull u pa = true))

/-- R177, R192, R193, R264, R434: a posted store at its home is performed and acknowledged, or refused, or held by a guard or
by a busy accumulator tile, once, in the order of arrival; it stays behind an earlier store of its core to the segment or to the same home. A
lost home refuses it, and so, for a store of another site, does one whose loss has been detected. The acknowledgement frees its journal entry; the
refusal marks the entry and makes POSTREF pending at the issuer (what waits then takes it at once, as `settle` says), or frees the entry when
the issuer has ended. A device store leaves its
buffer as its register takes it, and stays while the register holds it. -/
def Obligations.PostedStoresArrive : Prop :=
  (∀ s i c j x e, s.msgs[i]? = some (.store c j) → amGet (getCore s c).journal j = some x → e = x.store →
    (storeBehind s c j x = true → exec (.postedStoreArrival i) s = .next s) ∧
    (storeBehind s c j x = false →
      (∀ cause, storeRefusal s e c = some cause → ∃ u, exec (.postedStoreArrival i) s = .next (settle u) ∧ u.mem = s.mem ∧
        u.msgs = s.msgs.eraseIdx i ++ [.refuse c j cause]) ∧
      (∀ h, storeRefusal s e c = none → storeHeld s e (.store c j) = true → homeTile e.pa = some h → (∀ y ∈ (getTile s h).held, y.by_ ≠ .store c j) →
        ∃ u, exec (.postedStoreArrival i) s = .next (settle u) ∧ u.mem = s.mem ∧
          (getTile u h).held = (getTile s h).held ++ [⟨.store c j, e.pa, storeSpan e, e.sm⟩]) ∧
      (storeRefusal s e c = none → storeHeld s e (.store c j) = false → e.kind ≠ .sete → 0 < e.n → e.n ≤ 8 → e.pa % e.n = 0 → Plain s e.pa e.n →
        Unwatched s e.pa e.n → (getRegion s (procRegion s e.wptr)).interval = none →
        ∃ u, exec (.postedStoreArrival i) s = .next (settle u) ∧ u.msgs = s.msgs.eraseIdx i ++ [.ack c j] ∧
          (∀ k, k < e.n → (byteAt u (e.pa + k)).toNat = e.data.toNat / 256 ^ k % 256) ∧
          (∀ a, a < e.pa ∨ e.pa + e.n ≤ a → byteAt u a = byteAt s a) ∧ (e.kind = .stf → e.pa / 8 * 8 ∈ u.full)))) ∧
  (∀ s i c j, s.msgs[i]? = some (.ack c j) → ∃ u, exec (.postedStoreAck i) s = .next (settle u) ∧ u.msgs = s.msgs.eraseIdx i ∧
    amGet (getCore u c).journal j = none ∧ (∀ k, k ≠ j → amGet (getCore u c).journal k = amGet (getCore s c).journal k) ∧ u.mem = s.mem) ∧
  (∀ s i c j cause x, s.msgs[i]? = some (.refuse c j cause) → amGet (getCore s c).journal j = some x →
    (∀ p, getProc s x.store.wptr = some p → ∃ u, exec (.postedStoreRefusal i) s = .next (settle u) ∧ u.msgs = s.msgs.eraseIdx i ∧ u.mem = s.mem ∧
      amGet (getCore u c).journal j = some { x with rf := true, cause := cause } ∧
      ∃ aux, (getProc u x.store.wptr).map (·.pend) = some (p.pend ++ [⟨.postref, 0, journalRef c j, aux⟩])) ∧
    (getProc s x.store.wptr = none → ∃ u, exec (.postedStoreRefusal i) s = .next (settle u) ∧ u.mem = s.mem ∧ amGet (getCore u c).journal j = none)) ∧
  (∀ s c e rest, (getCore s c).sbuf = e :: rest → spaceOf e.pa = 15 →
    (devHeld s e.pa = true → exec (.deviceRegWrite c) s = .next (settle s)) ∧
    (∀ g, devReg (spaceOff e.pa) = some (.sdva g) → e.n = 8 → ∃ u, exec (.deviceRegWrite c) s = .next (settle u) ∧ (getCore u c).sbuf = rest ∧
      (getSeg u g).sdva = e.data ∧ u.mem = s.mem) ∧
    (∀ t k, devReg (spaceOff e.pa) = some (.route t k) → k < 32 → e.n = 8 → ∃ u, exec (.deviceRegWrite c) s = .next (settle u) ∧
      (getCore u c).sbuf = rest ∧ ((getTile u t).routes[k]?).getD 0 = e.data ∧ u.mem = s.mem))

/-- R204, R205, R208, R228, R331, R342, R344: a notice of a full word ends LDF, one of another value WAITA, one of 0 JOIN, each with that value;
any other notice leaves the wait as it is. A deadline that has come ends a timed wait with the old value, unless a notice is on its way to the
process, which decides. A pending asynchronous trap (ECCU in a region that is not rolled back at the time) is delivered at a boundary or in a wait, but not in a
rendezvous whose transfer has begun: the process is TRAPPED where it stands, with the trap registers of its core written. The oldest trap
record of a tile is offered on its handler channel once the stores of its process are performed. -/
def Obligations.WaitsAndDelivery : Prop :=
  (∀ s i w pa v full rel p, s.msgs[i]? = some (.notice w pa v full rel) → (∀ m ∈ s.msgs.take i, noticeTo w m = false) → Waiting s w p →
    (∀ d, (p.wait = .ldf d ∧ full = true) ∨ (∃ old dl, p.wait = .waita d old dl ∧ v ≠ old) ∨ (p.wait = .join ∧ d = 0 ∧ v = 0) →
      ∃ u, exec (.watchNotice i) s = .next (settle u) ∧ Woken s u w p d v) ∧
    ((∃ d, p.wait = .ldf d ∧ full = false) ∨ (∃ d dl, p.wait = .waita d v dl) ∨ (p.wait = .join ∧ v ≠ 0) →
      exec (.watchNotice i) s = .next (settle { s with msgs := s.msgs.eraseIdx i })) ∧
    (p.wait = .retry → ∃ u, exec (.watchNotice i) s = .next (settle u) ∧ pstate u w = 1 ∧ resumePc u w = resumePc s w)) ∧
  (∀ s w p d old dl, Waiting s w p → p.wait = .waita d old (some dl) ∨ p.wait = .time d old dl →
    ((∀ m ∈ s.msgs, noticeTo w m = false) → dl.toNat ≤ s.time.toNat → ∃ u, exec (.waitaDeadline w) s = .next (settle u) ∧ Woken s u w p d old) ∧
    ((∃ m ∈ s.msgs, noticeTo w m = true) ∨ s.time.toNat < dl.toNat → exec (.waitaDeadline w) s = .next s)) ∧
  (∀ s w p pc x rest, getProc s w = some p → p.pend = x :: rest → x.cause ≠ .eccu ∨ (p.rcb ≠ 0 ∧ (getRegion s p.rcb).rollingBack = false) →
    Deliverable s w p pc → inTransfer s w = false →
    w % 128 = 0 → 128 ≤ w → pc.toNat % 4 = 0 → (∀ e ∈ s.selects, e.2.wptr ≠ w) →
    (∀ q ∈ s.queues, ∀ e ∈ q.2.entries, e.2.taken ≠ some w) → (∀ a ∈ (getRegion s p.rcb).arrivals, a.1 ≠ w) → freeSlots s (coreTile p.core) ≠ [] →
    ∃ u, exec (.asyncTrapDelivery w) s = .next (settle u) ∧ pstate u w = 10 ∧ resumePc u w = pc ∧ (getProc u w).map (·.pend) = some rest ∧
      (getCore u p.core).tcause = causeWord x.cause (if x.cause = .eccu then 0 else x.sub) ∧ (x.cause ≠ .eccu → (getCore u p.core).tval = x.tval) ∧
      (x.cause = .eccu → (getRegion u p.rcb).eccu = true) ∧ (getCore u p.core).tpc = pc.setWidth 64 ∧
      (∀ r, (getCore u p.core).run = some r → r.wptr ≠ w)) ∧
  (∀ s w, atDelivery s w = false → exec (.asyncTrapDelivery w) s = .next (settle s)) ∧
  (∀ s t k rest x, (getTile s t).trapOrder = k :: rest → ((getTile s t).trapQ[k]?).getD none = some x → k < 8 →
    (x.offered = true ∨ storesLeft s (recW x.words 1).toNat = true → exec (.trapRecordOffer t) s = .next s) ∧
    (x.offered = false → storesLeft s (recW x.words 1).toNat = false → slotHandler s t x ≠ 0 → holeCheck s t (slotHandler s t x) = .clear → spaceOf (slotHandler s t x) = 0 →
      ∃ u, exec (.trapRecordOffer t) s = .next (settle u) ∧ u.msgs = s.msgs ++ [.chan (slotHandler s t x) (.plain (.slot t k) true) false false] ∧
        ((getTile u t).trapQ[k]?).getD none = some { x with offered := true } ∧ u.mem = s.mem))

/-- R257 to R259: a process that has waited FGWAIT sends a probe along its wait-for edge; a probe that is back at its originator becomes a
confirmation of the members it recorded, one that meets a smaller identity, sixteen members or no edge is dropped, and any other goes on
with one member more. A confirmation whose members no longer wait with the recorded WSEQ does nothing; a proven cycle of two traps both
with DEADLOCK and the word each waits on. -/
def Obligations.FoghornFindsCycles : Prop :=
  (∀ s w p q, getProc s w = some p → edgeOf s w = some q →
    (bits (getCore s p.core).fgwait 31 0 ≤ p.waitClocks → ∃ t, exec (.foghornProbeSend w) s = .next t ∧ t.msgs = s.msgs ++ [.probe w (wseqOf s w) [] q] ∧
      t.mem = s.mem ∧ (getProc t w).map (·.waitClocks) = some (p.waitClocks - bits (getCore s p.core).fgwait 31 0)) ∧
    (p.waitClocks < bits (getCore s p.core).fgwait 31 0 → exec (.foghornProbeSend w) s = .next s)) ∧
  (∀ s i orig ws hops r, s.msgs[i]? = some (.probe orig ws hops r) → ∃ t, exec (.foghornProbeHop i) s = .next t ∧ t.mem = s.mem ∧
    (r = orig → t.msgs = s.msgs.eraseIdx i ++ [.confirm orig ((orig, ws) :: hops)]) ∧
    (r ≠ orig → edgeOf s r = none ∨ r < orig ∨ 16 ≤ hops.length → t.msgs = s.msgs.eraseIdx i) ∧
    (∀ q, r ≠ orig → edgeOf s r = some q → orig ≤ r → hops.length < 16 → siteLost s (r / 0x400000) = false →
      t.msgs = s.msgs.eraseIdx i ++ [.probe orig ws (hops ++ [(r, wseqOf s r)]) q])) ∧
  (∀ s i orig ms, s.msgs[i]? = some (.confirm orig ms) →
    (cycleHolds s ms = false → ∃ t, exec (.foghornConfirm i) s = .next t ∧ t.msgs = s.msgs.eraseIdx i ∧ t.mem = s.mem ∧ t.procs = s.procs) ∧
    (∀ a b x y va vb, ms = [(a, x), (b, y)] → orig = a → cycleHolds s ms = true → waitWord s a = some va → waitWord s b = some vb → Apart a b →
      ClearOf va a ∧ ClearOf va b ∧ ClearOf vb a ∧ ClearOf vb b → chainOf s va = [a - 32] → chainOf s vb = [b - 32] → va ≠ vb →
      va % 8 = 0 → vb % 8 = 0 → NoIntervals s → (∀ t, 3 ≤ (freeSlots s t).length) →
      procCore s a ≠ procCore s b → isRunning s a = false → isRunning s b = false →
      (∀ c, ∀ w ∈ [a, b], w ∉ (getCore s c).highQ ∧ w ∉ (getCore s c).lowQ) →
      (∀ q ∈ s.queues, ∀ e ∈ q.2.entries, e.2.taken ≠ some a ∧ e.2.taken ≠ some b) →
      (∀ g, ∀ z ∈ (getRegion s g).arrivals, z.1 ≠ a ∧ z.1 ≠ b) → (∀ e ∈ s.selects, e.2.wptr ≠ a ∧ e.2.wptr ≠ b) →
      ∃ u, exec (.foghornConfirm i) s = .next (settle u) ∧ pstate u a = 10 ∧ pstate u b = 10 ∧
        (getCore u (procCore s a)).tcause = causeWord .deadlock 0 ∧ (getCore u (procCore s a)).tval = BitVec.ofNat 64 va ∧
        (getCore u (procCore s b)).tcause = causeWord .deadlock 0 ∧ (getCore u (procCore s b)).tval = BitVec.ofNat 64 vb))

/-- R167 to R171: a fault message joins its page's entry at the Watchroom, takes the lowest free one with a request to the pager, or is
refused and sent again. The pager's reply frees the entry: mapped, a waiting access is tried again; refused, it traps PAGE with its own
address. A shootdown with a legal scope sets BUSY and empties the TLBs and instruction caches in it, one without sets ERR, and so does one that
writes must-be-zero bits of SDCTL (the model's choice, log entry 62); it completes,
clearing BUSY, once no access under a removed translation is open. -/
def Obligations.PagesAndShootdowns : Prop :=
  (∀ s i m, s.msgs[i]? = some (.fault m) →
    (m.refused = false →
      (∀ k e, (getWatchroom s m.w).entries.find? (fun e => e.2.tenant == m.tenant && e.2.page == m.page) = some (k, e) →
        ∃ u e', exec (.pageFaultMessage i) s = .next (settle u) ∧ u.msgs = s.msgs.eraseIdx i ∧ amGet (getWatchroom u m.w).entries k = some e' ∧
          m.who ∈ e'.who ∧ e'.page = e.page ∧ e'.tenant = e.tenant ∧ (getWatchroom u m.w).out = (getWatchroom s m.w).out) ∧
      ((getWatchroom s m.w).entries.find? (fun e => e.2.tenant == m.tenant && e.2.page == m.page) = none →
        (∀ k, k < 64 → amGet (getWatchroom s m.w).entries k = none → (∀ l, l < k → amGet (getWatchroom s m.w).entries l ≠ none) →
          ∃ u, exec (.pageFaultMessage i) s = .next (settle u) ∧ u.msgs = s.msgs.eraseIdx i ∧
            amGet (getWatchroom u m.w).entries k = some ⟨m.tenant, m.page, [m.who]⟩ ∧ (getWatchroom u m.w).out = (getWatchroom s m.w).out ++ [pagerRequest m k]) ∧
        ((∀ k, k < 64 → amGet (getWatchroom s m.w).entries k ≠ none) → ∃ u, exec (.pageFaultMessage i) s = .next (settle u) ∧
          u.msgs = s.msgs.set i (.fault { m with refused := true })))) ∧
    (exec (.faultMessageResend i) s = .next { s with msgs := s.msgs.set i (.fault { m with refused := false }) })) ∧
  (∀ s wr k e c w p, amGet (getWatchroom s wr).entries k = some e → k < 64 → e.who = [.core c] → (getCore s c).pwait = [⟨w, e.tenant, e.page⟩] →
    Waiting s w p → p.core = c → p.wait = .page →
    (∃ u, exec (.watchroomReplyMapped wr k) s = .next (settle u) ∧ amGet (getWatchroom u wr).entries k = none ∧ (getCore u c).pwait = [] ∧
      pstate u w = 1 ∧ resumePc u w = resumePc s w) ∧
    ((∀ q ∈ s.queues, ∀ e ∈ q.2.entries, e.2.taken ≠ some w) → (∀ a ∈ (getRegion s p.rcb).arrivals, a.1 ≠ w) → freeSlots s (coreTile c) ≠ [] →
      w ∉ (getCore s c).highQ → w ∉ (getCore s c).lowQ → isRunning s w = false → (∀ e ∈ s.selects, e.2.wptr ≠ w) →
      ∃ u, exec (.watchroomReplyRefused wr k) s = .next (settle u) ∧ amGet (getWatchroom u wr).entries k = none ∧ pstate u w = 10 ∧
        resumePc u w = resumePc s w ∧ (getCore u c).tcause = causeWord .page 0 ∧ (getCore u c).tval = BitVec.ofNat 64 p.keptArg)) ∧
  (∀ s g v, bit (getSeg s g).sdctl 63 = false →
    (bits v 21 20 = 0 ∨ bits (getSeg s g).sdva 63 48 ≠ 0 ∨ bits v 61 22 ≠ 0 ∨ bits v 17 12 ≠ 0 → ∃ t, exec (.shootdownStart g v) s = .next t ∧
      bit (getSeg t g).sdctl 62 = true ∧ bit (getSeg t g).sdctl 63 = false ∧ t.mem = s.mem ∧ t.cores = s.cores) ∧
    (bits v 21 20 ≠ 0 → bits (getSeg s g).sdva 63 48 = 0 → bits v 61 22 = 0 → bits v 17 12 = 0 → ∃ t, exec (.shootdownStart g v) s = .next t ∧
      bit (getSeg t g).sdctl 63 = true ∧ bit (getSeg t g).sdctl 62 = false ∧ t.mem = s.mem ∧
      ∀ c, inShootScope g (bits v 21 20) (coreTile c) = true → (getCore t c).l1i = [] ∧
        ∀ e ∈ (getCore t c).tlb, overlapsPage e (bits v 11 0) (bits (getSeg s g).sdva 47 0 / shootSize (bits v 19 18) * shootSize (bits v 19 18))
          (shootSize (bits v 19 18)) (bits v 19 18 == 3) = false)) ∧
  (∀ s g, bit (getSeg s g).sdctl 63 = true →
    (shootdownDone s g = true → ∃ t, exec (.shootdownComplete g) s = .next t ∧ bit (getSeg t g).sdctl 63 = false ∧
      (∀ k, k < 63 → (getSeg t g).sdctl.getLsbD k = (getSeg s g).sdctl.getLsbD k) ∧ t.mem = s.mem) ∧
    (shootdownDone s g = false → exec (.shootdownComplete g) s = .next s))

namespace Sys2Proof.Claims

/-! ### Hosts (R196, R197, R199, R212, R337 to R341, R406, R432) -/

/-- A process runs on core `c`, stopped at a request to a host that awaits its completion (R199). -/
structure AwaitsHost (s : State) (c : Nat) (r : Running) (st : Stall) : Prop where
  running : (getCore s c).run = some r
  stalled : (getCore s c).stall = some st
  resident : (slotOf (getCore s c) r.wptr).isSome = true

/-- The stopped instruction has completed: W[d] = v and no other register of the process changed, the PC past it, issue restarted. -/
structure HostAnswered (s u : State) (c : Nat) (r : Running) (d : Reg) (v : Word) : Prop where
  dest : d ≠ 0 → regRd u c r.wptr d = v
  regs : ∀ e, e ≠ d → regRd u c r.wptr e = regRd s c r.wptr e
  pc : (getCore u c).run = some { r with pc := r.pc + 4, held := false, seen := [] }
  stall : (getCore u c).stall = none
  retired : (getCore u c).instret = (getCore s c).instret + 1

/-- The address that a request named, for a load, an AtomicOp and a fetch. -/
def requestEa (r : Running) : Stall → Option Word
  | .pcieLoad ea _ _ _ _ _ => some ea
  | .pcieAmo ea _ _ _ _ _ _ _ => some ea
  | .pcieFetch _ _ => some (r.pc.setWidth 64)
  | _ => none

/-- The launch that a record describes, in region `rcb` with the status given (R339). -/
def launchOf (q : Nat) (w : List Word) (rcb : Nat) (st : Option (Nat × Nat)) : Launch :=
  ⟨q, BitVec.ofNat 32 (bits (recW w 0) 63 32), bit (recW w 2) 63, bits (recW w 2) 62 52, bits (recW w 3) 51 4 * 16, rcb, st⟩

end Sys2Proof.Claims

/-- R157, R196, R197, R199, R212: the completion of a load from a host window gives W[d] the data, extended; that of an AtomicOp the old value, and
the window takes the new one; that of a fetch puts the word into the instruction cache, or, on an NC page, serves the one fetch that awaits it;
that of a release's read ends the release when no link is left, and so does, by the model's choice (log entry 30), its failure or time-out. Any
other completion with an error, and a time-out, trap PROT at the instruction with the address it named. -/
def Obligations.HostCompletions : Prop :=
  (∀ s c r ea pa d n signed acq (data : Word), AwaitsHost s c r (.pcieLoad ea pa d n signed acq) → n = 1 ∨ n = 2 ∨ n = 4 ∨ n = 8 →
    ∃ u v, exec (.pcieCompletion c .ok data) s = .next (settle u) ∧ HostAnswered s u c r d v ∧ u.mem = s.mem ∧
      (signed = true → v.toInt = sx data.toNat (8 * n)) ∧ (signed = false → v.toNat = data.toNat % 256 ^ n)) ∧
  (∀ s c r ea pa d n op b x acq (data : Word), AwaitsHost s c r (.pcieAmo ea pa d n op b x acq) → n = 4 ∨ n = 8 → op = 0 ∨ op = 1 ∨ op = 9 →
    ∃ u v, exec (.pcieCompletion c .ok data) s = .next (settle u) ∧ HostAnswered s u c r d v ∧ u.mem = s.mem ∧ v.toInt = sx data.toNat (8 * n) ∧
      (∀ k, k < n → op ≠ 9 ∨ data.toNat % 256 ^ n = x.toNat % 256 ^ n →
        (hostGet u (pa + k)).toNat = (if op = 1 then (data.toNat + b.toNat) else b.toNat) / 256 ^ k % 256) ∧
      (op = 9 → data.toNat % 256 ^ n ≠ x.toNat % 256 ^ n → u.hosts.mem = s.hosts.mem)) ∧
  (∀ s c r pa nc (data : Word), AwaitsHost s c r (.pcieFetch pa nc) → ∃ u, exec (.pcieCompletion c .ok data) s = .next (settle u) ∧ u.mem = s.mem ∧
    (getCore u c).run = some r ∧ (getCore u c).stall = none ∧
    (nc = false → ∃ y, l1iCopy (getCore u c) pa = some y ∧ ofBytes y.bytes = data.toNat % 2 ^ 32) ∧
    (nc = true → (getCore u c).l1i = (getCore s c).l1i ∧ ∃ b, (getCore u c).hostWord = some (pa, b) ∧ ofBytes b = data.toNat % 2 ^ 32)) ∧
  (∀ s c r links i, AwaitsHost s c r (.pcieRelease links) → (∃ status data, i = Instr.pcieCompletion c status data) ∨ i = Instr.pcieCompletionTimeout c →
    ∃ u, exec i s = .next (settle u) ∧ u.mem = s.mem ∧ (getCore u c).run = some r ∧ (getCore u c).stall = (if links &&& (links - 1) = 0 then none else some (.pcieRelease (links &&& (links - 1))))) ∧
  (∀ s c r st ea p i, AwaitsHost s c r st → requestEa r st = some ea →
    (∃ status data, i = Instr.pcieCompletion c status data ∧ status ≠ .ok) ∨ i = Instr.pcieCompletionTimeout c →
    getProc s r.wptr = some p → p.core = c → r.wptr % 128 = 0 → 128 ≤ r.wptr → r.pc.toNat % 4 = 0 → (∀ e ∈ s.selects, e.2.wptr ≠ r.wptr) →
    (∀ q ∈ s.queues, ∀ e ∈ q.2.entries, e.2.taken ≠ some r.wptr) → freeSlots s (coreTile c) ≠ [] →
    ∃ u, exec i s = .next (settle u) ∧ pstate u r.wptr = 10 ∧ resumePc u r.wptr = r.pc ∧ (getCore u c).run = none ∧ (getCore u c).stall = none ∧
      (getCore u c).tcause = causeWord .prot 0 ∧ (getCore u c).tval = ea ∧ ∀ e, regRd u c r.wptr e = regRd s c r.wptr e)

/-- R197, R337, R338, R406, R422, R432: a host's write of TLM changes those bytes and no other, or waits at the port that holds it; its read of TLM of up to eight
bytes, which no write of its link still precedes, and, except in recovery (R422), a management port's read are answered with the bytes and change nothing in memory. From
stage 2 of bring-up on, and behind no write still to be performed, a doorbell writes TAIL, and stops the queue with code 1 when it overruns; setting EN clears ERR, ERRC, HEAD and TAIL, and while EN is 1 LOG and TENANT stay. Reading the low half
of an energy counter latches the high half for its reader. -/
def Obligations.HostsReachThePanel : Prop :=
  (∀ s link pa data, s.hosts.writes = [] → isWq pa = false → hostReaches s pa data.length = true → portHolds s pa data.length (.host link) false = true →
    ∃ u, exec (.hostWrite link pa data) s = .next (settle u) ∧ u.mem = s.mem ∧ u.hosts.writes = [(link, pa, data)]) ∧
  (∀ s link pa data, s.hosts.writes = [] → isWq pa = false → hostReaches s pa data.length = true → portHolds s pa data.length (.host link) false = false →
    Plain s pa data.length → Unwatched s pa data.length → (getRegion s 0).interval = none →
    ∃ u, exec (.hostWrite link pa data) s = .next (settle u) ∧ u.hosts.writes = [] ∧ (∀ k b, data[k]? = some b → byteAt u (pa + k) = b) ∧
      (∀ a, a < pa ∨ pa + data.length ≤ a → byteAt u a = byteAt s a)) ∧
  (∀ s link pa n, (∃ x ∈ s.hosts.writes, x.1 = link) → exec (.hostRead link pa n) s = .next s) ∧
  (∀ s link pa n, (∀ x ∈ s.hosts.writes, x.1 ≠ link) → isWq pa = false → hostReaches s pa n = true → n ≤ 8 → uncorrectable s pa n = false → ∃ t v, exec (.hostRead link pa n) s = .next t ∧
    t.mem = s.mem ∧ t.hosts.replies = v :: s.hosts.replies ∧ v.toNat = rdN s pa n) ∧
  (∀ s port pa g, spaceOf pa = 15 → pa % 8 = 0 → devReg (spaceOff pa) = some g → isEnergy g = true → recovering s = false →
    (∃ t, exec (.mgmtRead port pa) s = .next t ∧ t.mem = s.mem ∧ t.pmc.replies = BitVec.setWidth 32 (devValue s g).1 :: s.pmc.replies) ∧
    (∃ t, exec (.energyLowRead port pa) s = .next t ∧ t.mem = s.mem ∧ latchOf t port = some (pa, (devValue s g).1.extractLsb' 32 32))) ∧
  (∀ s q (tail : BitVec 32), q < 32768 → 2 ≤ s.pmc.stage → s.hosts.writes = [] → ∃ t, exec (.doorbell q tail) s = .next t ∧ t.mem = s.mem ∧ (getWq t q).tail = tail ∧ (getWq t q).head = (getWq s q).head ∧
    (2 ^ (getWq s q).log < (tail - (getWq s q).head).toNat → (getWq t q).err = true ∧ (getWq t q).errc = 1) ∧
    ((tail - (getWq s q).head).toNat ≤ 2 ^ (getWq s q).log → (getWq t q).err = (getWq s q).err ∧ (getWq t q).errc = (getWq s q).errc)) ∧
  (∀ s q v, q < 32768 → 2 ≤ s.pmc.stage → s.hosts.writes = [] → ∃ t, exec (.wqEnable q v) s = .next t ∧ t.mem = s.mem ∧ (getWq t q).en = bit v 63 ∧ (getWq t q).tenant = (getWq s q).tenant ∧
    ((getWq s q).en = false → bit v 63 = true → (getWq t q).err = false ∧ (getWq t q).errc = 0 ∧ (getWq t q).head = 0 ∧ (getWq t q).tail = 0 ∧
      (getWq t q).log = bits v 3 0) ∧
    ((getWq s q).en = true → (getWq t q).log = (getWq s q).log ∧ (getWq t q).head = (getWq s q).head ∧ (getWq t q).tail = (getWq s q).tail))

/-- R338 to R341, R422, with the choices of log entry 33 (status 3 and DETAIL 2 of a misaligned template, HEAD rising past a refused record too,
and the wait under a guard): from stage 5 on a command processor takes the record at HEAD of the queue whose turn it is, and that turn passes
on: one that cannot be read stops the queue with code 2; a malformed one ends its launch with status 2, one whose template is misaligned with status 3 and DETAIL 2; and of one whose region and spawns
succeed the launch runs. HEAD rises. A decided launch writes its completion record, tag, status, detail and TIME, and raises its MSI-X
vector, unless a guard over the record's bytes holds it. -/
def Obligations.LaunchesRun : Prop :=
  (∀ s q g k pa status, q < 32768 → k = getWq s q → recordWaits k = true → 5 ≤ s.pmc.stage → queueSeg s q = some g → nextWq s g = some q →
    pa = k.base.toNat + 64 * (k.head.toNat % 2 ^ k.log) →
    (physReadable s (segTile g) pa 64 = false ∨ (spaceOf pa = 8 ∧ status ≠ .ok) → ∃ u, exec (.launchRecord q status) s = .next (settle u) ∧
      (getWq u q).err = true ∧ (getWq u q).errc = 2 ∧ u.launches = s.launches ∧ u.mem = s.mem) ∧
    (∀ w, physReadable s (segTile g) pa 64 = true → (spaceOf pa = 8 → status = .ok) → w = physWords s pa 8 →
      (launchHeld s (segTile g) w = true → exec (.launchRecord q status) s = .next s) ∧
      (launchHeld s (segTile g) w = false → lrMalformed w k.tenant = true → ∃ u, exec (.launchRecord q status) s = .next (settle u) ∧ (getWq u q).head = k.head + 1 ∧
        u.launches = s.launches ++ [launchOf q w 0 (some (2, 0))] ∧ u.mem = s.mem) ∧
      (launchHeld s (segTile g) w = false → lrMalformed w k.tenant = false → bits (recW w 1) 51 0 % 256 ≠ 0 → ∃ u, exec (.launchRecord q status) s = .next (settle u) ∧
        (getWq u q).head = k.head + 1 ∧ u.launches = s.launches ++ [launchOf q w 0 (some (3, 2))] ∧ u.mem = s.mem) ∧
      (∀ tpl s0 s1 rcb s2 cs, launchHeld s (segTile g) w = false → lrMalformed w k.tenant = false → bits (recW w 1) 51 0 % 256 = 0 → physReadable s (segTile g) (bits (recW w 1) 51 0) 256 = true →
        tpl = lrTemplate (physWords s (bits (recW w 1) 51 0) 32) w → tplJoin tpl = 0 → s0 = modWq s q (fun k => { k with head := k.head + 1 }) →
        rgnNew s0 tpl 0 (segTile g) true none = (s1, 0, rcb) →
        launchSpawns s1 (segTile g) rcb (bits (recW w 2) 51 0) w (List.range (lrNsp w)) = (s2, 0, cs) →
        exec (.launchRecord q status) s = .next (settle (modSeg (regionEnds { s2 with launches := s2.launches ++ [launchOf q w rcb none] } rcb) g
          fun k => { k with lastWq := q + 1 }))))) ∧
  (∀ s q g status, queueSeg s q = some g → nextWq s g ≠ some q → exec (.launchRecord q status) s = .next s) ∧
  (∀ s i l st detail, s.launches[i]? = some l → l.status = some (st, detail) → st < 256 → detail < 256 →
    (guardHolds s l.cmpa 16 none false = true → exec (.launchCompletion i) s = .next s) ∧
    (guardHolds s l.cmpa 16 none false = false → spaceOf l.cmpa = 8 → ∃ u, exec (.launchCompletion i) s = .next (settle u) ∧ u.launches = s.launches.eraseIdx i ∧ u.mem = s.mem ∧
      u.hosts.msix = (if l.msie then l.vec :: s.hosts.msix else s.hosts.msix) ∧
      (∀ k, k < 16 → (hostGet u (l.cmpa + k)).toNat = (l.tag.toNat + st * 2 ^ 32 + detail * 2 ^ 40 + s.time.toNat * 2 ^ 64) / 256 ^ k % 256)) ∧
    (guardHolds s l.cmpa 16 none false = false → spaceOf l.cmpa = 0 → hostReaches s l.cmpa 16 = true → Plain s l.cmpa 16 → Unwatched s l.cmpa 16 → (getRegion s 0).interval = none →
      ∃ u, exec (.launchCompletion i) s = .next (settle u) ∧ u.launches = s.launches.eraseIdx i ∧
        (∀ k, k < 16 → (byteAt u (l.cmpa + k)).toNat = (l.tag.toNat + st * 2 ^ 32 + detail * 2 ^ 40 + s.time.toNat * 2 ^ 64) / 256 ^ k % 256) ∧
        (∀ a, a < l.cmpa ∨ l.cmpa + 16 ≤ a → byteAt u a = byteAt s a)) ∧
    (∀ x, (s.launches[x]?).map (·.status) = some none → exec (.launchCompletion x) s = .next s))
namespace Sys2Proof.Claims

/-! ### Sites and maps (R161, R162, R365 to R370, R378) -/

/-- Site `n` has changed STATE (R365, R366): STIME is TIME, the default handler of every segment with sx = 0 has a record SITELOST with the
new state and the site's number, and no other site changed. -/
structure SiteMoves (s t : State) (n : Nat) (st : SiteState) : Prop where
  state : (getSite t n).st = st
  stime : (getSite t n).stime = s.time
  others : ∀ m, m ≠ n → getSite t m = getSite s m
  records : ∀ y, y < 12 → (16 * y, [causeWord .sitelost (siteCode st) ||| word (2 ^ 16), 0, 0, word n, 0, 0, 0, s.time]) ∈ t.records

/-- Nothing but the site blocks and the records sent has changed. -/
def OnlySites (s t : State) : Prop := t = { s with sites := t.sites, records := t.records }

/-- Besides, a broadcast of site `n`'s hole bit that had begun is given up. -/
structure SitesAndBit (s t : State) (n : Nat) : Prop where
  frame : t = { s with sites := t.sites, records := t.records, tiles := t.tiles }
  tiles : ∀ u, getTile t u = { getTile s u with holeAhead := (getTile s u).holeAhead &&& ~~~(1#12 <<< n) }

/-- The PMC carries out command `code` of site `n`: it stands in the site's block, or a signed request brought it, outside recovery (R365, R422, R432). -/
def Ordered (s : State) (n code : Nat) (signed : Bool) : Prop :=
  ((getSite s n).busy = true ∧ (getSite s n).cmd = code) ∨ (signed = true ∧ recovering s = false)

/-- The address lies in a store of a tile of site `n`. -/
def inSite (n a : Nat) : Prop := ∃ t, homeTile a = some t ∧ t < 12544 ∧ siteOf t = n

/-- The map registers of segment `g` report an operation that is done: BUSY 0, FRZ and STATUS (R378). -/
def MapReports (t : State) (g : Nat) (frz : Bool) (st : Nat) : Prop :=
  bit (getSeg t g).mapOp 63 = false ∧ bit (getSeg t g).mapOp 62 = frz ∧ bits (getSeg t g).mapOp 15 8 = st

end Sys2Proof.Claims

/-- R2, R14, R365, R366, R422: the bring-up rows of the site table: seating, power-up from stage 3 of bring-up on, attestation (with the serial
number and the dark tiles, and no others), linking, which computes routing tables and at stage 3 admits the site; a failed step, which gives SEATED with FAIL 4, 5 or 6 and,
where STATE does not change, no record; and the sense pin, which empties a site that is not in, with what its module brought. -/
def Obligations.SitesComeUp : Prop :=
  (∀ s n, n < 12 →
    ((getSite s n).st = .empty →
      (∃ t, exec (.siteSeated n true) s = .next t ∧ SiteMoves s t n .seated ∧ OnlySites s t ∧ (getSite t n).pinClosed = true) ∧
      (∃ t, exec (.siteSeated n false) s = .next t ∧ OnlySites s t ∧ (getSite t n).st = .empty ∧ (getSite t n).fail = 2 ∧
        (getSite t n).clampLocked = false)) ∧
    ((getSite s n).st = .seated →
      (3 ≤ s.pmc.stage → ∃ t, exec (.sitePowered n) s = .next t ∧ SiteMoves s t n .powered ∧ OnlySites s t ∧ (getSite t n).powerOn = true) ∧
      (s.pmc.stage < 3 → exec (.sitePowered n) s = .next s)) ∧
    ((getSite s n).st = .powered → ∀ serial defects, ∃ t, exec (.siteAttested n serial defects) s = .next t ∧ SiteMoves s t n .attested ∧
      (getSite t n).serial = serial ∧ t.mem = s.mem ∧ (∀ d ∈ defects, d.tile < 12544 → siteOf d.tile = n → (getTile t d.tile).dark = true) ∧
      ∀ u, u < 12544 → siteOf u = n → (∀ d ∈ defects, d.tile ≠ u) → (getTile t u).dark = false) ∧
    ((getSite s n).st = .attested →
      (s.pmc.stage ≠ 3 → ∃ t, exec (.siteLinked n) s = .next t ∧ SiteMoves s t n .linked ∧
        t = { s with sites := t.sites, records := t.records, pmc := { s.pmc with tables := t.pmc.tables }, nonce := t.nonce }) ∧
      (s.pmc.stage = 3 → ∃ t, exec (.siteLinked n) s = .next t ∧ SiteMoves s t n .admitted ∧ (getSite t n).agen = (getSite s n).agen + 1)) ∧
    (inBringUp (getSite s n).st = true →
      ∃ t, exec (.siteStepFail n) s = .next t ∧ SitesAndBit s t n ∧ (getSite t n).powerOn = false ∧
        (getSite t n).fail = (if (getSite s n).st = .seated then 4 else if (getSite s n).st = .powered then 5 else 6) ∧
        ((getSite s n).st ≠ .seated → SiteMoves s t n .seated) ∧
        ((getSite s n).st = .seated → (getSite t n).st = .seated ∧ (getSite t n).stime = (getSite s n).stime ∧ t.records = s.records)) ∧
    (inBringUp (getSite s n).st = true ∨ (getSite s n).st = .lost ∨ (getSite s n).st = .released →
      ∃ t, exec (.sensePinOpen n) s = .next t ∧ SiteMoves s t n .empty ∧ t = { s with sites := t.sites, records := t.records, tiles := t.tiles, segs := t.segs } ∧
        (getSite t n).powerOn = false ∧ (getSite t n).serial = 0 ∧ (∀ u, u < 12544 → siteOf u = n → (getTile t u).dark = false) ∧
        ∀ g, n < 4 → g < 192 → segModule g = n → (getSeg t g).failed = 0))

/-- R162, R365 to R370, R432: ADMIT heals the site's stores to zero, clears its hole bit and counts the admission; DRAIN and CONTACT begin a
drain, which idleness or the deadline (FAIL 7) ends; RELEASE and RETEST; a command in any other state gives CST 1 and changes nothing else, and
an unsigned one of the management port CST 2; outside recovery a signed one is carried out (R422). A loss is detected first (FAIL) and written once the hole bit is set. Two adjacent contact groups power their segment down. -/
def Obligations.SitesServeAndLeave : Prop :=
  (∀ s n, n < 12 →
    (∀ signed, Ordered s n 1 signed → (getSite s n).st = .linked → ∃ t, exec (.siteAdmit ⟨n, signed⟩) s = .next t ∧ SiteMoves s t n .admitted ∧
      (getSite t n).agen = (getSite s n).agen + 1 ∧ (getSite t n).cst = 0 ∧ t.holeSites.getLsbD n = false ∧
      (∀ u, u < 12544 → (getTile t u).holeAhead.getLsbD n = false) ∧
      (holeUnderWay s n = false → ∀ a, inSite n a → memGet t.mem a = 0 ∧ a ∉ t.full ∧ a ∉ t.bad) ∧
      (∀ a, ¬inSite n a → memGet t.mem a = memGet s.mem a ∧ (a ∈ t.full ↔ a ∈ s.full))) ∧
    (∀ signed notice nt, Ordered s n 2 signed → (getSite s n).st = .admitted → nt = (if (getSite s n).busy = true ∧ (getSite s n).cmd = 2 then (getSite s n).notice else notice) →
      ∃ t, exec (.siteDrain ⟨n, signed⟩ notice) s = .next t ∧ SiteMoves s t n .draining ∧ OnlySites s t ∧ (getSite t n).cst = 0 ∧ (getSite t n).notice = nt ∧
        (getSite t n).deadline = s.time + BitVec.ofNat 64 (1000 * (if nt = 0 then 100000 else nt.toNat))) ∧
    ((getSite s n).st = .draining →
      (siteIdle s n = true → ∃ t, exec (.siteQuiesced n) s = .next t ∧ SiteMoves s t n .quiesced ∧ OnlySites s t ∧ (getSite t n).deadline = 0) ∧
      ((getSite s n).deadline.toNat ≤ s.time.toNat → ∃ u, exec (.drainDeadline n) s = .next (settle u) ∧ SiteMoves s u n .quiesced ∧
        (getSite u n).deadline = 0 ∧ (getSite u n).fail = 7 ∧
        OnlySites (abortTouched s fun t => decide (t < 12544) && siteOf t == n) u)) ∧
    (∀ signed, Ordered s n 3 signed →
      ((getSite s n).st = .quiesced → ∃ u, exec (.siteRelease ⟨n, signed⟩) s = .next (settle u) ∧ SiteMoves s u n .released ∧ (getSite u n).powerOn = false ∧
        (getSite u n).cst = 0 ∧ (getSite u n).losing = false ∧ u.holeSites.getLsbD n = true) ∧
      ((getSite s n).st = .lost → ∃ t, exec (.siteRelease ⟨n, signed⟩) s = .next t ∧ SiteMoves s t n .released ∧ OnlySites s t ∧ (getSite t n).cst = 0)) ∧
    (∀ signed, Ordered s n 4 signed → (getSite s n).st = .released → (getSite s n).clampClosed = true →
      ∃ t, exec (.siteRetest ⟨n, signed⟩) s = .next t ∧ SiteMoves s t n .seated ∧ OnlySites s t ∧ (getSite t n).cst = 0) ∧
    (∀ notice signed i, (i = Instr.siteAdmit ⟨n, signed⟩ ∧ Ordered s n 1 signed ∧ (getSite s n).st ≠ .linked) ∨
        (i = Instr.siteDrain ⟨n, signed⟩ notice ∧ Ordered s n 2 signed ∧ (getSite s n).st ≠ .admitted) ∨
        (i = Instr.siteRelease ⟨n, signed⟩ ∧ Ordered s n 3 signed ∧ (getSite s n).st ≠ .quiesced ∧ (getSite s n).st ≠ .lost) ∨
        (i = Instr.siteRetest ⟨n, signed⟩ ∧ Ordered s n 4 signed ∧ (getSite s n).st ≠ .seated ∧ ¬((getSite s n).st = .released ∧ (getSite s n).clampClosed = true)) →
      ∃ t, exec i s = .next t ∧ OnlySites s t ∧ (getSite t n).cst = 1 ∧ (getSite t n).st = (getSite s n).st ∧ (getSite t n).notice = (getSite s n).notice ∧
        t.records = s.records) ∧
    (∀ notice code i, (i = Instr.siteAdmit ⟨n, false⟩ ∧ code = 1) ∨ (i = Instr.siteDrain ⟨n, false⟩ notice ∧ code = 2) ∨ (i = Instr.siteRelease ⟨n, false⟩ ∧ code = 3) ∨
        (i = Instr.siteRetest ⟨n, false⟩ ∧ code = 4) → ¬Ordered s n code false →
      ∃ t, exec i s = .next t ∧ OnlySites s t ∧ getSite t n = { getSite s n with cst := 2 } ∧ t.records = s.records)) ∧
  (∀ s n cause, n < 12 → siteIn (getSite s n).st = true →
    ((getSite s n).losing = false → ∃ t, exec (.siteLoss n cause) s = .next t ∧ OnlySites s t ∧ (getSite t n).losing = true ∧
      (getSite t n).st = (getSite s n).st ∧
      (getSite t n).fail = (match cause with | .sensePin => 1 | .contacts => 2 | .links => 3)) ∧
    ((getSite s n).losing = false → ∃ t, exec (.sensePinOpen n) s = .next t ∧ OnlySites s t ∧ (getSite t n).losing = true ∧ (getSite t n).fail = 1) ∧
    ((getSite s n).losing = true → ∃ u, exec (.siteLoss n cause) s = .next (settle u) ∧ SiteMoves s u n .lost ∧ u.holeSites.getLsbD n = true ∧
      (getSite u n).losing = false)) ∧
  (∀ s seg group n, seg < 192 → n = segModule seg → (getSite s n).st = .admitted → ¬(group + 1) ∈ (getSeg s seg).contactBad →
    (group = 0 ∨ ¬(group - 1) ∈ (getSeg s seg).contactBad) →
    ∃ t, exec (.contactEvent seg group) s = .next t ∧ SiteMoves s t n .draining ∧ t.mem = s.mem ∧ group ∈ (getSeg t seg).contactBad ∧
      (seg, [causeWord .contact 0 ||| word (2 ^ 16), 0, 0, word group, 0, 0, 0, s.time]) ∈ t.records) ∧
  (∀ s seg group, seg < 192 → (getSeg s seg).powered = true → (group + 1) ∈ (getSeg s seg).contactBad ∨ (group ≠ 0 ∧ (group - 1) ∈ (getSeg s seg).contactBad) →
    ∃ u, exec (.contactEvent seg group) s = .next (settle u) ∧ (getSeg u seg).powered = false ∧ u.holeSegs.getLsbD seg = true)

/-- R378, with status 1 of a COMMIT whose region is not frozen while FRZ is set from log entry 36 (DEDUCED): a map operation that is under way at
a segment's registers. FREEZE holds resolutions in an eligible region and reports FRZ once no resolved message is on its way; one that is not eligible gets status 1. THAW lifts the hold. COMMIT gives 1 without FRZ, or (log entry 36) for a
region that is not frozen, the status of the first check that fails with FRZ kept and nothing changed but the report, waits while a process or job of a moved tile is between boundaries, and
else completes with status 0 and the hold lifted. The copy of step 3 puts the bytes of the old tile's window of space 0x0 at the new tile's and changes
no byte of space 0x0 outside the new tiles' windows (of the other spaces the clause says nothing). -/
def Obligations.MapsMove : Prop :=
  (∀ s g r, g < 192 → mapBusy s g 1 = true → mapRoot s g = some r →
    ((getRegion s r).frozen = true ∨ freezable s r = true → ∃ t, exec (.mapFreeze g) s = .next t ∧ (getRegion t r).frozen = true ∧ t.mem = s.mem ∧
      (resolvedInFlight s r = true → getSeg t g = getSeg s g) ∧ (resolvedInFlight s r = false → MapReports t g true 0)) ∧
    ((getRegion s r).frozen = false → freezable s r = false → ∃ t, exec (.mapFreeze g) s = .next t ∧ t = { s with segs := t.segs } ∧ MapReports t g false 1)) ∧
  (∀ s g r, g < 192 → mapBusy s g 3 = true → mapRoot s g = some r → ∃ u, exec (.mapThaw g) s = .next (settle u) ∧ MapReports u g false 0 ∧
    (getRegion u r).frozen = false) ∧
  (∀ s g, g < 192 → mapBusy s g 2 = true → mapFrz s g = false → ∃ t, exec (.mapCommit g) s = .next t ∧ t = { s with segs := t.segs } ∧ MapReports t g false 1) ∧
  (∀ s g r, g < 192 → mapBusy s g 2 = true → mapFrz s g = true → mapRoot s g = some r → (getRegion s r).frozen = false →
    ∃ t, exec (.mapCommit g) s = .next t ∧ t = { s with segs := t.segs } ∧ MapReports t g false 1) ∧
  (∀ s g r newMap new m, g < 192 → mapBusy s g 2 = true → mapFrz s g = true → mapRoot s g = some r → (getRegion s r).frozen = true → newMap = bits (getSeg s g).newMap 51 6 * 64 →
    new = mapWordsAt s newMap (rcbLW s r * rcbLH s r) → m = movesOf s r new →
    (commitStatus s r newMap m ≠ 0 → ∃ t, exec (.mapCommit g) s = .next t ∧ t = { s with segs := t.segs } ∧ MapReports t g true (commitStatus s r newMap m)) ∧
    (commitStatus s r newMap m = 0 → movable s m = false → exec (.mapCommit g) s = .next s) ∧
    (commitStatus s r newMap m = 0 → movable s m = true → ∃ u, exec (.mapCommit g) s = .next (settle u) ∧ MapReports u g false 0 ∧
      (getRegion u (mvA m r)).frozen = false)) ∧
  (∀ s m, (∀ x ∈ m, x.1 < 12544 ∧ x.2 < 12544) → (m.map (·.2)).Nodup →
    (∀ x ∈ m, ∀ k, k < 0x2EF000 → memGet (copyTiles s m).mem (x.2 * 0x400000 + k) = memGet s.mem (x.1 * 0x400000 + k)) ∧
    (∀ a, spaceOf a = 0 → (∀ x ∈ m, a / 0x400000 ≠ x.2) → memGet (copyTiles s m).mem a = memGet s.mem a))

namespace Sys2Proof.Claims

/-! ### Token pools, power and time (R127, R386 to R409) -/

/-- Tokens that the tiles of a zone hold. -/
def heldIn (s : State) (z : Nat) : Nat := sumOf ((segTiles z).map fun t => (getTile s t).tkheld)

/-- Tokens that the tiles of a zone ask for (R389). -/
def askedIn (s : State) (z : Nat) : Nat := sumOf ((segTiles z).map fun t => (demandOf s t).1)

/-- A zone at rest: its pool is whole and free, nothing is lent or borrowed, no ceiling is active, and its tiles hold nothing. -/
structure ZoneAtRest (s : State) (z : Nat) : Prop where
  zone : z < 192
  powered : (getSeg s z).powered = true
  pool : (getSeg s z).pool = nominalPool (getSeg s z)
  free : (getSeg s z).free = (getSeg s z).pool
  ceiling : (getSeg s z).cl = 7 ∧ (getSeg s z).clQuarter = false
  held : ∀ t ∈ segTiles z, (getTile s t).tkheld = 0

/-- Every holding of the zone is under revocation to nothing, with at most 200 ns of notice (R393, R401, R402). -/
def AllRevoked (s u : State) (z : Nat) : Prop :=
  ∀ t ∈ segTiles z, (getTile s t).tkheld ≠ 0 → ∃ v, (getTile u t).revoke = some v ∧ v.pendh = 0 ∧ v.urgent = true ∧ v.deadline ≤ s.time.toNat + 200

/-- The counter of an energy meter. -/
def meterOf (s : State) : Meter → Word
  | .tile t => (getTile s t).energy
  | .zone z => (getSeg s z).zenergy
  | .site i => (getSite s i).menergy

/-- The meter exists. -/
def meterIs : Meter → Prop
  | .tile t => t < 12544
  | .zone z => z < 192
  | .site i => i < 12

end Sys2Proof.Claims

/-- R388 to R392: at a control interval of a zone at rest every tile is granted its demand where the pool covers them all, and where it does
not, with one priority, each gets the lesser of its demand and one level, or one token above the level, and the pool is used up. A
revocation whose deadline has come lowers the holding to PENDH and arms the power monitor; before that it changes nothing. -/
def Obligations.TokensAreGranted : Prop :=
  (∀ s z, ZoneAtRest s z →
    (askedIn s z ≤ (getSeg s z).pool → ∃ t, exec (.controlInterval z) s = .next t ∧ t.mem = s.mem ∧
      (∀ x ∈ segTiles z, (getTile t x).tkneed = (demandOf s x).1 ∧ (getTile t x).tkheld = (demandOf s x).1) ∧
      (getSeg t z).free + askedIn s z = (getSeg s z).free) ∧
    (∀ p, p < 4 → (getSeg s z).pool < askedIn s z → (∀ x ∈ segTiles z, (demandOf s x).1 ≠ 0 → (demandOf s x).2 = p) →
      ∃ t l, exec (.controlInterval z) s = .next t ∧ t.mem = s.mem ∧ heldIn t z = (getSeg s z).pool ∧ (getSeg t z).free = 0 ∧
        ∀ x ∈ segTiles z, (getTile t x).tkheld = min (demandOf s x).1 l ∨ (l < (demandOf s x).1 ∧ (getTile t x).tkheld = l + 1))) ∧
  (∀ s t z v, segOf t = some z → (getTile s t).revoke = some v →
    (v.deadline ≤ s.time.toNat → ∃ u, exec (.revocationDeadline t) s = .next u ∧ (getTile u t).tkheld = min (getTile s t).tkheld v.pendh ∧
      (getTile u t).revoke = none ∧ (getTile u t).monArmed = true ∧ u.mem = s.mem ∧
      ((getSeg s z).pool = nominalPool (getSeg s z) → (getSeg u z).free = (getSeg s z).free + ((getTile s t).tkheld - v.pendh))) ∧
    (s.time.toNat < v.deadline → exec (.revocationDeadline t) s = .next s))

/-- R394, R396 to R402, with the readings of log entries 41 and 42: the power monitor of an armed tile skips one more cycle in four after 100
samples in excess of 110 % of the holding, none after 100 below it, and disarms after 100 calm ones. The rail current's excess puts a higher ceiling at P4, and the interval's end moves
it by one. The hottest sensor lowers the thermal ceiling from 108 °C on, powers the segment down from 120 °C on, and moves the band by its
hysteresis (the sample that set P4 does not count at the interval's end and an interval without a sample changes nothing: log entry 41, DEDUCED;
the ceiling rises at the tenth cool sample: log entry 42, DEDUCED); without a working sensor TH is P0; whatever the calibration table says (log entry 83),
a tile's voltage stays from 600 to 880 mV. A failed phase is recorded; the ninth revokes every holding and opens the window of
100 µs, whose end powers the segment down. A token fault revokes every holding too. -/
def Obligations.CeilingsAndRegulators : Prop :=
  (∀ s t mw, t < 12288 →
    ((getTile s t).monArmed = false → exec (.powerSample t mw) s = .next s) ∧
    ((getTile s t).monArmed = true → ∃ u, exec (.powerSample t mw) s = .next u ∧ u = { s with tiles := u.tiles } ∧
      (550 * (getTile s t).tkheld < 10 * mw → (getTile s t).monOver < 99 → (getTile u t).skip = (getTile s t).skip ∧
        (getTile u t).monOver = (getTile s t).monOver + 1) ∧
      (550 * (getTile s t).tkheld < 10 * mw → (getTile s t).monOver = 99 → (getTile u t).skip = min 3 ((getTile s t).skip + 1)) ∧
      (mw < 50 * (getTile s t).tkheld → (getTile s t).monUnder = 99 → (getTile u t).skip = 0) ∧
      (10 * mw ≤ 550 * (getTile s t).tkheld → (getTile s t).skip = 0 → (getTile s t).monCalm = 99 → (getTile u t).monArmed = false))) ∧
  (∀ s z ma, z < 192 → (getSeg s z).powered = true →
    (4 < (getSeg s z).cl → 16000 * (32 - (getSeg s z).failed) < ma → ∃ t, exec (.currentSample z ma) s = .next t ∧ t.mem = s.mem ∧ (getSeg t z).cl = 4 ∧
      (getSeg t z).clQuarter = true) ∧
    (¬(4 < (getSeg s z).cl ∧ 16000 * (32 - (getSeg s z).failed) < ma) → ∃ t, exec (.currentSample z ma) s = .next t ∧ t = { s with segs := t.segs } ∧
      (getSeg t z).cl = (getSeg s z).cl) ∧
    (∃ t, exec (.controlInterval z) s = .next t ∧ t.mem = s.mem ∧ (getSeg t z).cl = (if (getSeg s z).cl = 7 then 7 else if (getSeg s z).clOver = true then
        (getSeg s z).cl - 1 else if (getSeg s z).clSeen = true ∧ (getSeg s z).clHigh = false then (getSeg s z).cl + 1 else (getSeg s z).cl))) ∧
  (∀ s z samples, z < 192 → (getSeg s z).powered = true →
    (((samples.take 16).filterMap id).max? = none → ∃ t, exec (.thermalSample z samples) s = .next t ∧ t.mem = s.mem ∧ (getSeg t z).th = 0) ∧
    (∀ x : Int, ((samples.take 16).filterMap id).max? = some x →
      (1920 ≤ x → ∃ u, exec (.thermalSample z samples) s = .next (settle u) ∧ (getSeg u z).powered = false ∧ u.holeSegs.getLsbD z = true) ∧
      (x < 1920 → ∃ t, exec (.thermalSample z samples) s = .next t ∧ t = { s with segs := t.segs } ∧
        (1728 ≤ x → (getSeg t z).th = (if (getSeg s z).th = 7 then topPoint s z else (getSeg s z).th) - 1) ∧
        (1680 ≤ x → x < 1728 → (getSeg t z).th = (getSeg s z).th) ∧
        (x < 1680 → (getSeg t z).th = if (getSeg s z).th ≠ 7 ∧ (getSeg s z).thRise = 9 then (getSeg s z).th + 1 else (getSeg s z).th) ∧
        (bandOf (x - 32) ≤ (getSeg s z).band → (getSeg s z).band ≤ bandOf (x + 32) → (getSeg t z).band = (getSeg s z).band) ∧
        ((getSeg s z).band < bandOf (x - 32) → (getSeg t z).band = bandOf (x - 32))))) ∧
  (∀ s t, t < 12288 → 600 ≤ tileVoltage s t ∧ tileVoltage s t ≤ 880) ∧
  (∀ s z, z < 192 → (getSeg s z).powered = true →
    ((getSeg s z).failed < 8 → ∃ t, exec (.phaseFailure z) s = .next t ∧ t = { s with segs := t.segs, records := t.records } ∧
      (getSeg t z).failed = (getSeg s z).failed + 1 ∧
      t.records = s.records ++ [(z, [causeWord .tokenflt 1 ||| word (2 ^ 16), 0, 0, word ((getSeg s z).failed + 1), 0, 0, 0, s.time])]) ∧
    ((getSeg s z).failed = 8 → ∃ t, exec (.phaseFailure z) s = .next t ∧ t.mem = s.mem ∧ (getSeg t z).failed = 9 ∧ (getSeg t z).th = 0 ∧
      (getSeg t z).window = some (s.time.toNat + 100000) ∧ AllRevoked s t z) ∧
    (8 < (getSeg s z).failed → (getSeg s z).failed < 32 → ∃ u, exec (.phaseFailure z) s = .next (settle u) ∧ (getSeg u z).powered = false) ∧
    (∀ w, (getSeg s z).window = some w →
      (w ≤ s.time.toNat → ∃ u, exec (.phaseWindowEnd z) s = .next (settle u) ∧ (getSeg u z).powered = false ∧ u.holeSegs.getLsbD z = true) ∧
      (s.time.toNat < w → exec (.phaseWindowEnd z) s = .next s)) ∧
    (∃ t, exec (.tokenFault z) s = .next t ∧ t.mem = s.mem ∧ AllRevoked s t z))

/-- R20, R127, R397, R405, R407, R409, R433: an arbiter grants its zones two steps of boost below 12.6 kW, one below 13.3 kW and none above, under an
active ceiling or under a coolant alert. An energy counter adds modulo 2^48 with a sticky bit 63. A nanosecond adds 1 to TIME and to
each powered core's CYCLE the clocks of its operating point that its power monitor lets through, and counts down the timeslice of a
low-priority process; nothing else that a program holds changes. What may arise by itself in that nanosecond (soft errors, prefetches, hole
bits under way, contacts that recover, tenants' grants, new routes: log entries 18, 34, 61 and 80 to 82) changes no register, process, message or job, no byte of memory outside an ADMIT, and of a
segment only which contact groups stand in the condition of an event, where it can only end one. -/
def Obligations.TimeAndEnergy : Prop :=
  (∀ s m mw coreMw z, m < 4 → z < 192 → segModule z = m → (getSeg s z).powered = true → ∃ t, exec (.arbiterStep m mw coreMw) s = .next t ∧ t.mem = s.mem ∧
    (getSeg t z).boost = if s.pmc.alert = true ∨ (getSeg s z).ceilingPrev = true then 0 else if mw < 12600000 then 2 else if mw < 13300000 then 1 else 0) ∧
  (∀ s m n, meterIs m → ∃ t, exec (.energyUpdate m n) s = .next t ∧ t = { s with tiles := t.tiles, segs := t.segs, sites := t.sites } ∧
    bits (meterOf t m) 47 0 = (bits (meterOf s m) 47 0 + n) % 2 ^ 48 ∧
    (bit (meterOf t m) 63 = true ↔ bit (meterOf s m) 63 = true ∨ 2 ^ 48 ≤ bits (meterOf s m) 47 0 + n) ∧ bits (meterOf t m) 62 48 = 0) ∧
  (∀ s, s.records = [] → ∃ t, exec .timeTick s = .next (arise t) ∧ t.time = s.time + 1 ∧ t.mem = s.mem ∧ t.msgs = s.msgs ∧ t.queues = s.queues ∧
    t.tiles = s.tiles ∧ t.segs = s.segs ∧ t.sites = s.sites ∧
    (∀ c k, amGet s.cores c = some k → corePowered s c = false → getCore t c = k) ∧
    ∀ c k, amGet s.cores c = some k → corePowered s c = true →
      ∃ n, 40 * n + (getCore t c).clkRem = k.clkRem + freqTenths (tilePoint s (coreTile c)) * (4 - (getTile s (coreTile c)).skip) ∧
      t.clocks + (getCore t c).cycleOff = s.clocks + k.cycleOff + word n ∧ (getCore t c).slots = k.slots ∧ (getCore t c).instret = k.instret ∧
      (getCore t c).sbuf = k.sbuf ∧ (getCore t c).highQ = k.highQ ∧ (getCore t c).lowQ = k.lowQ ∧
      (getCore t c).run = k.run.map fun r => if r.hp then r else { r with slice := r.slice - n }) ∧
  (∀ s, (arise s).time = s.time ∧ (arise s).procs = s.procs ∧ (arise s).msgs = s.msgs ∧ (arise s).queues = s.queues ∧
    (arise s).sites = s.sites ∧ (arise s).records = s.records ∧
    (∀ z, getSeg (arise s) z = { getSeg s z with contactBad := (getSeg (arise s) z).contactBad } ∧
      ∀ g, g ∈ (getSeg (arise s) z).contactBad → g ∈ (getSeg s z).contactBad) ∧
    ((∀ n, n < 12 → holeChange s n ≠ some false) → (arise s).mem = s.mem ∧ (arise s).full = s.full) ∧
    ∀ c, (∀ w d, slotOf (getCore (arise s) c) w = slotOf (getCore s c) w ∧ ((slotOf (getCore s c) w).isSome = true → regRd (arise s) c w d = regRd s c w d)) ∧
      (getCore (arise s) c).run = (getCore s c).run ∧ (getCore (arise s) c).sbuf = (getCore s c).sbuf ∧
      (getCore (arise s) c).highQ = (getCore s c).highQ ∧ (getCore (arise s) c).lowQ = (getCore s c).lowQ ∧
      (getCore (arise s) c).cycleOff = (getCore s c).cycleOff)

namespace Sys2Proof.Claims

/-! ### Collectives' steps, links, the management controller (R276, R278, R372 to R375, R383 to R385, R422 to R433) -/

/-- Every member of a group that is current can be reached (R375). -/
def AllReachable (s : State) (d : Nat) : Prop := ∀ x ∈ gMembers s d, isCurrent s d x.2 = true → unreachable s x.2 = false

/-- A group of which no operation has been started. -/
def NoStarts (s : State) (d : Nat) : Prop := (∀ x ∈ s.collStarts, x.desc ≠ d) ∧ ∀ x ∈ s.collOps, x.desc ≠ d

end Sys2Proof.Claims

/-- R276, R372 to R375: a start step whose descriptor lies in a hole ends its job with FAR, one without an entry in the group table or of a
malformed descriptor with BADCMD, one that meets an uncorrectable word with ECCU, a guard holds it, and the first start of the operation at HSEQ fixes the job's membership as the descriptor stands and
raises HSEQ. A block reaches the started job it belongs to, or waits for it. A loss step makes the lost current members leave at HSEQ and
raises GEN. R383, R384, R425: a routing table is installed whole; a dead link is recorded; a frame whose CRC holds delivers its step on a port
that is up, and no other does; a port down stays down. -/
def Obligations.StepsOfGroupsAndLinks : Prop :=
  (∀ s i key j c, s.msgs[i]? = some (.start key) → (entryAt s key).job = some j → c = collOf j.cmd →
    (groupEntry s (key / 128) c.grp.toNat j.core = none → exec (.collectiveStartStep i) s = .next (settle (endJob (dropMsg s i) key 1))) ∧
    (∀ g, groupEntry s (key / 128) c.grp.toNat j.core = some g →
      (holeCheck s (key / 128) g.desc ≠ .clear → exec (.collectiveStartStep i) s = .next (settle (endJob (dropMsg s i) key 5))) ∧
      (holeCheck s (key / 128) g.desc = .clear → guardHolds s g.desc (descLen s g.desc) (some key) false = true → exec (.collectiveStartStep i) s = .next s) ∧
      (holeCheck s (key / 128) g.desc = .clear → guardHolds s g.desc (descLen s g.desc) (some key) false = false →
        (groupBad s g.desc = true → exec (.collectiveStartStep i) s = .next (settle (endJob (dropMsg s i) key 9))) ∧
        (groupBad s g.desc = false → gMalformed s g.desc = true →
          exec (.collectiveStartStep i) s = .next (settle (endJob (countCorrected (dropMsg s i) g.desc (descLen s g.desc)) key 1)))) ∧
      (holeCheck s (key / 128) g.desc = .clear → guardHolds s g.desc (descLen s g.desc) (some key) false = false → groupBad s g.desc = false →
        gMalformed s g.desc = false → spaceOf g.desc = 0 → g.desc % 64 = 0 → AllReachable s g.desc → NoStarts s g.desc → NoIntervals s →
        Plain s g.desc 16 → c.seq.toNat = gHseq s g.desc → g.member ∈ gMembersOf s g.desc (gHseq s g.desc) →
        ∃ u, exec (.collectiveStartStep i) s = .next (settle u) ∧ gHseq u g.desc = (gHseq s g.desc + 1) % 2 ^ 32 ∧
          ∃ j', (entryAt u key).job = some j' ∧ j'.members = some (gMembersOf s g.desc (gHseq s g.desc)) ∧ j'.cmd = j.cmd ∧
            (j.st = .parked → j.why = some .peer → j'.st = .ready)))) ∧
  (∀ s i grp seq fromM toC data, s.msgs[i]? = some (.peer (.block grp seq fromM toC data)) → siteLost s (coreTile toC) = false →
    (collJobFor s toC grp seq = none → exec (.collectivePeerStep i) s = .next s) ∧
    (∀ key j, collJobFor s toC grp seq = some (key, j) → jobAt s key = some j → ∃ u j', exec (.collectivePeerStep i) s = .next (settle u) ∧ u.mem = s.mem ∧
      u.msgs = s.msgs.eraseIdx i ∧ jobAt u key = some j' ∧ amGet j'.blocks fromM = some data ∧ j'.members = j.members ∧ j'.gran = j.gran ∧
      (blocksDone j' = true → j.st = .parked → j.why = some .peer → j'.st = .ready))) ∧
  (∀ s i d lost t, s.msgs[i]? = some (.loss d lost) → homeTile d = some t → siteLost s t = false → s.holeSites.getLsbD (siteOf t) = false → spaceOf d = 0 →
    d % 64 = 0 → NoStarts s d → NoIntervals s → Plain s d (64 + 16 * 4096) → ∃ u, exec (.collectiveLossStep i) s = .next (settle u) ∧ gHseq u d = gHseq s d ∧
      (∀ x ∈ gMembers s d, x.1 ∈ lost → isCurrent s d x.2 = true → (gMember u d x.1).lv = true ∧ (gMember u d x.1).lseq = gHseq s d ∧
        (gMember u d x.1).jseq = x.2.jseq ∧ gGen u d = (gGen s d + 1) % 2 ^ 32) ∧
      (∀ x ∈ gMembers s d, x.1 ∉ lost ∨ isCurrent s d x.2 = false → gMember u d x.1 = x.2)) ∧
  (∀ s tile entries, tile < 12544 → ∃ t, exec (.routeInstall tile entries) s = .next t ∧ t = { s with tiles := t.tiles } ∧
    ∀ k, k < 32 → (getTile t tile).routes[k]? = some (entries.getD k 0)) ∧
  (∀ s tile dir, tile < 12544 → ∃ t, exec (.linkDead tile dir) s = .next t ∧ t = { s with tiles := t.tiles } ∧ dir ∈ (getTile t tile).deadLinks ∧
    ∀ e, e ∈ (getTile s tile).deadLinks → e ∈ (getTile t tile).deadLinks) ∧
  (∀ s port x, port < 12 →
    (portUp s port = true → ∃ t, exec (.peerFrame port true x) s = .next t ∧ t = { s with msgs := s.msgs ++ [.peer x] }) ∧
    exec (.peerFrame port false x) s = .next s ∧
    (∃ t, exec (.peerPortDown port) s = .next t ∧ t.mem = s.mem ∧ t.pmc.portsDown.getLsbD port = true ∧ exec (.peerFrame port true x) t = .next t ∧
      ∀ k, k < 12 → k ≠ port → t.pmc.portsDown.getLsbD k = s.pmc.portsDown.getLsbD k))

/-- R156, R385, R422 to R433: power-on enters stage 1, the first time, and again with every volatile store empty and the flash and the hosts' memory kept (log
entry 91); the stages follow in order: the image of slot A, else that of slot B with FAULT 1, each with the flash configuration's panel number, else
recovery with FAULT 2; the sites that are admitted; the segments, down where their image failed, else started with it, its handler's channel the default
(log entry 89); stage 6; after it, the reboot of a segment that an error in a system process asked for (log entry 79). An unsigned management request gets
status 2 and changes nothing else; a signed one uploads firmware to the slot that did not boot, or sets the panel's number or an entry of the fabric table,
which recovery does not serve. A coolant alert stops boost, and is reported on both ports. A scrub pass corrects every correctable word of its store and changes no byte. -/
def Obligations.ThePanelIsManaged : Prop :=
  (∀ s, (s.pmc.inputGood = false → ∃ t, exec .powerOn s = .next t ∧ t = { s with pmc := t.pmc } ∧ t.pmc.inputGood = true ∧ t.pmc.stage = 1) ∧
    (s.pmc.inputGood = true → ∃ t, exec .powerOn s = .next t ∧ t.pmc.inputGood = true ∧ t.pmc.stage = 1 ∧ t.pmc.flashA = s.pmc.flashA ∧
      t.pmc.flashB = s.pmc.flashB ∧ t.mem = [] ∧ t.full = State.reset.full ∧ t.procs = [] ∧ t.cores = [] ∧ t.tiles = [] ∧ t.queues = [] ∧ t.msgs = [] ∧ t.hosts.mem = s.hosts.mem ∧
      ∀ n, (getSite t n).powerOn = false ∧ ((getSite t n).st = .seated ↔ (getSite s n).clampClosed = true ∧ (getSite s n).pinClosed = true) ∧
        ((getSite t n).st ≠ .seated → (getSite t n).st = .empty))) ∧
  (∀ s r,
    (s.pmc.stage = 1 → ∃ t, exec (.bootStage r) s = .next t ∧ t = { s with pmc := t.pmc } ∧ t.pmc.stage = 2) ∧
    (s.pmc.stage = 2 → s.pmc.fault ≠ 2 → ∃ t, exec (.bootStage r) s = .next t ∧ t = { s with pmc := t.pmc, time := t.time } ∧
      (r.slotA = true → t.pmc.slot = 0 ∧ t.pmc.fault = 0 ∧ t.pmc.stage = 3 ∧ t.pmc.image = s.pmc.flashA ∧ t.time = 0) ∧
      (r.slotA = true ∨ r.slotB = true → r.config = none → t.pmc.panelid = 0 ∧ t.pmc.fabric = []) ∧
      (∀ n, r.slotA = true ∨ r.slotB = true → r.config = some (n, []) → t.pmc.panelid = n % 256 ∧ t.pmc.fabric = []) ∧
      (r.slotA = false → r.slotB = true → t.pmc.slot = 1 ∧ t.pmc.fault = 1 ∧ t.pmc.stage = 3 ∧ t.pmc.image = s.pmc.flashB ∧ t.time = 0) ∧
      (r.slotA = false → r.slotB = false → t.pmc.fault = 2 ∧ t.pmc.stage = 2 ∧ t.time = s.time)) ∧
    (s.pmc.stage = 3 → ∃ t, exec (.bootStage r) s = .next t ∧ t = { s with pmc := t.pmc } ∧ t.pmc.stage = 4 ∧
      ∀ n, n < 12 → (t.pmc.adm.getLsbD n = true ↔ (getSite s n).st = .admitted)) ∧
    (s.pmc.stage = 4 → ∃ t, exec (.bootStage r) s = .next t ∧ t.pmc.stage = 5 ∧ (r.failedSegs = [] → t.pmc.darkseg = 0 ∧ t = { startSegments s with pmc := t.pmc }) ∧
      (∀ z, r.failedSegs = [z] → z < 192 → (getSeg s z).powered = true →
        t = { startSegments (segDown s z) with pmc := t.pmc } ∧ t.pmc.darkseg = 1 ∧ t.pmc.fault = 3)) ∧
    (∀ z, z < 192 → match (imageOf s z).bind (·.handler) with
      | some o => (getSeg (startSegment s z) z).defaultHandler = segTile z * 0x400000 + o % 0x400000
      | none => True) ∧
    (s.pmc.stage = 5 → ∃ t, exec (.bootStage r) s = .next t ∧ t = { s with pmc := t.pmc } ∧ t.pmc.stage = 6) ∧
    (∀ z l, s.pmc.stage = 6 → s.pmc.reboots = z :: l →
      ((getSeg s z).powered = false → exec (.bootStage r) s = .next { s with pmc := { s.pmc with reboots := l } }) ∧
      (r.failedSegs.contains z = false → (getSeg s z).powered = true →
        exec (.bootStage r) s = .next (startSegment { s with pmc := { s.pmc with reboots := l } } z)) ∧
      (r.failedSegs.contains z = true → (getSeg s z).powered = true → ∃ t, exec (.bootStage r) s = .next t ∧
        t.pmc.fault = 3 ∧ ∃ u, u = segDown { s with pmc := { s.pmc with reboots := l } } z ∧ t = { u with pmc := t.pmc } ∧
          t.pmc.darkseg = u.pmc.darkseg + 1))) ∧
  (∀ s image v n,
    (∀ i, i = Instr.firmwareUpload image false ∨ i = Instr.panelidWrite v false ∨ i = Instr.fabricTableWrite n v false →
      ∃ t, exec i s = .next t ∧ t = { s with pmc := { s.pmc with csts := 2 :: s.pmc.csts } }) ∧
    (∃ t, exec (.firmwareUpload image true) s = .next t ∧ t = { s with pmc := t.pmc } ∧ t.pmc.csts = 0 :: s.pmc.csts ∧
      (s.pmc.slot = 0 → t.pmc.flashB = image ∧ t.pmc.flashA = s.pmc.flashA) ∧ (s.pmc.slot ≠ 0 → t.pmc.flashA = image ∧ t.pmc.flashB = s.pmc.flashB)) ∧
    (recovering s = true → exec (.panelidWrite v true) s = .next s ∧ exec (.fabricTableWrite n v true) s = .next s) ∧
    (recovering s = false → ∃ t, exec (.panelidWrite v true) s = .next t ∧ t = { s with pmc := t.pmc } ∧ t.pmc.csts = 0 :: s.pmc.csts ∧
      t.pmc.panelid = v.toNat % 256) ∧
    (recovering s = false → n < 256 → ∃ t e, exec (.fabricTableWrite n v true) s = .next t ∧ t = { s with pmc := t.pmc } ∧ t.pmc.csts = 0 :: s.pmc.csts ∧
      amGet t.pmc.fabric n = some e ∧ bit e 63 = bit v 63 ∧ bits e 62 12 = 0 ∧ bits e 11 0 = bits v 11 0)) ∧
  (∀ s inlet outlet flow, ∃ t, exec (.telemetrySample inlet outlet flow) s = .next t ∧ t = { s with pmc := t.pmc } ∧
    t.pmc.telemetry = some (inlet, outlet, flow) ∧ (∀ z, z < 192 → (z, (getSeg s z).zenergy) ∈ t.pmc.zenergyLog) ∧
    (∀ n, n < 12 → (n, (getSite s n).menergy) ∈ t.pmc.menergyLog)) ∧
  (∀ s, (∃ t, exec .coolantAlert s = .next t ∧ t = { s with pmc := t.pmc, segs := t.segs } ∧ t.pmc.alert = true ∧
      t.pmc.reports = (.ethernet, true) :: (.i3c, true) :: s.pmc.reports ∧ ∀ z, (getSeg t z).boost = 0) ∧
    (∃ t, exec .coolantAlertClear s = .next t ∧ t = { s with pmc := t.pmc } ∧ t.pmc.alert = false ∧
      t.pmc.reports = (.ethernet, false) :: (.i3c, false) :: s.pmc.reports)) ∧
  (∀ s store, ∃ t, exec (.scrubPass store) s = .next t ∧ t = { s with weak := t.weak, tiles := t.tiles, stackCe := t.stackCe } ∧
    ∀ a, a ∈ t.weak ↔ a ∈ s.weak ∧ scrubbed store a = false) ∧
  (∀ s r v, isRcb s r = true →
    ((getRegion s r).eccu = false → exec (.rollback r) s = .next s) ∧
    ((getRegion s r).eccu = true → (getRegion s r).interval = none ∨ ((getRegion s r).interval = some v ∧ rcbCkpt s r ≠ 1) →
      exec (.rollback r) s = .next (settle (abortRegion s r 2))) ∧
    ((getRegion s r).eccu = true → (getRegion s r).interval = some v → rcbCkpt s r = 1 → exec (.rollback r) s = .next (settle (rollBack s r v)))) ∧
  (∀ s t k i, i < 64 → memLE s.mem (undoEntry t k) 8 < 2 ^ 62 → memGet (applyEntry s t k).mem (memLE s.mem (undoEntry t k) 8 + i) = memGet s.mem (undoEntry t k + 8 + i))
end

