-- ==== Sys2Proof/Laws/State.lean ====
section
/-! SUPPORT. What each named update of the state does to each of its fields. -/

namespace Sys2Proof.Machine

/-! ### putCore -/

@[simp] theorem putCore_mem (s : State) (c : Nat) (k : Core) : (putCore s c k).mem = s.mem := rfl
@[simp] theorem putCore_full (s : State) (c : Nat) (k : Core) : (putCore s c k).full = s.full := rfl
@[simp] theorem putCore_bad (s : State) (c : Nat) (k : Core) : (putCore s c k).bad = s.bad := rfl
@[simp] theorem putCore_weak (s : State) (c : Nat) (k : Core) : (putCore s c k).weak = s.weak := rfl
@[simp] theorem putCore_rels (s : State) (c : Nat) (k : Core) : (putCore s c k).rels = s.rels := rfl
@[simp] theorem putCore_jobOld (s : State) (c : Nat) (k : Core) : (putCore s c k).jobOld = s.jobOld := rfl
@[simp] theorem putCore_chanWords (s : State) (c : Nat) (k : Core) : (putCore s c k).chanWords = s.chanWords := rfl
@[simp] theorem putCore_mapPages (s : State) (c : Nat) (k : Core) : (putCore s c k).mapPages = s.mapPages := rfl
@[simp] theorem putCore_stackCe (s : State) (c : Nat) (k : Core) : (putCore s c k).stackCe = s.stackCe := rfl
@[simp] theorem putCore_holeSites (s : State) (c : Nat) (k : Core) : (putCore s c k).holeSites = s.holeSites := rfl
@[simp] theorem putCore_holeSegs (s : State) (c : Nat) (k : Core) : (putCore s c k).holeSegs = s.holeSegs := rfl
@[simp] theorem putCore_cores (s : State) (c : Nat) (k : Core) : (putCore s c k).cores = amSet s.cores c k := rfl
@[simp] theorem putCore_procs (s : State) (c : Nat) (k : Core) : (putCore s c k).procs = s.procs := rfl
@[simp] theorem putCore_tiles (s : State) (c : Nat) (k : Core) : (putCore s c k).tiles = s.tiles := rfl
@[simp] theorem putCore_segs (s : State) (c : Nat) (k : Core) : (putCore s c k).segs = s.segs := rfl
@[simp] theorem putCore_sites (s : State) (c : Nat) (k : Core) : (putCore s c k).sites = s.sites := rfl
@[simp] theorem putCore_queues (s : State) (c : Nat) (k : Core) : (putCore s c k).queues = s.queues := rfl
@[simp] theorem putCore_regions (s : State) (c : Nat) (k : Core) : (putCore s c k).regions = s.regions := rfl
@[simp] theorem putCore_areas (s : State) (c : Nat) (k : Core) : (putCore s c k).areas = s.areas := rfl
@[simp] theorem putCore_selects (s : State) (c : Nat) (k : Core) : (putCore s c k).selects = s.selects := rfl
@[simp] theorem putCore_transfers (s : State) (c : Nat) (k : Core) : (putCore s c k).transfers = s.transfers := rfl
@[simp] theorem putCore_msgs (s : State) (c : Nat) (k : Core) : (putCore s c k).msgs = s.msgs := rfl
@[simp] theorem putCore_l2 (s : State) (c : Nat) (k : Core) : (putCore s c k).l2 = s.l2 := rfl
@[simp] theorem putCore_watchrooms (s : State) (c : Nat) (k : Core) : (putCore s c k).watchrooms = s.watchrooms := rfl
@[simp] theorem putCore_workQueues (s : State) (c : Nat) (k : Core) : (putCore s c k).workQueues = s.workQueues := rfl
@[simp] theorem putCore_launches (s : State) (c : Nat) (k : Core) : (putCore s c k).launches = s.launches := rfl
@[simp] theorem putCore_collStarts (s : State) (c : Nat) (k : Core) : (putCore s c k).collStarts = s.collStarts := rfl
@[simp] theorem putCore_collOps (s : State) (c : Nat) (k : Core) : (putCore s c k).collOps = s.collOps := rfl
@[simp] theorem putCore_collFixed (s : State) (c : Nat) (k : Core) : (putCore s c k).collFixed = s.collFixed := rfl
@[simp] theorem putCore_collLosses (s : State) (c : Nat) (k : Core) : (putCore s c k).collLosses = s.collLosses := rfl
@[simp] theorem putCore_detours (s : State) (c : Nat) (k : Core) : (putCore s c k).detours = s.detours := rfl
@[simp] theorem putCore_pmc (s : State) (c : Nat) (k : Core) : (putCore s c k).pmc = s.pmc := rfl
@[simp] theorem putCore_peerOut (s : State) (c : Nat) (k : Core) : (putCore s c k).peerOut = s.peerOut := rfl
@[simp] theorem putCore_hosts (s : State) (c : Nat) (k : Core) : (putCore s c k).hosts = s.hosts := rfl
@[simp] theorem putCore_images (s : State) (c : Nat) (k : Core) : (putCore s c k).images = s.images := rfl
@[simp] theorem putCore_records (s : State) (c : Nat) (k : Core) : (putCore s c k).records = s.records := rfl
@[simp] theorem putCore_time (s : State) (c : Nat) (k : Core) : (putCore s c k).time = s.time := rfl
@[simp] theorem putCore_clocks (s : State) (c : Nat) (k : Core) : (putCore s c k).clocks = s.clocks := rfl
@[simp] theorem putCore_order (s : State) (c : Nat) (k : Core) : (putCore s c k).order = s.order := rfl
@[simp] theorem putCore_nonce (s : State) (c : Nat) (k : Core) : (putCore s c k).nonce = s.nonce := rfl
@[simp] theorem putCore_decs (s : State) (c : Nat) (k : Core) : (putCore s c k).decs = s.decs := rfl
@[simp] theorem putCore_turns (s : State) (c : Nat) (k : Core) : (putCore s c k).turns = s.turns := rfl
@[simp] theorem putCore_cur (s : State) (c : Nat) (k : Core) : (putCore s c k).cur = s.cur := rfl
@[simp] theorem putCore_agenda (s : State) (c : Nat) (k : Core) : (putCore s c k).agenda = s.agenda := rfl
@[simp] theorem putCore_yielded (s : State) (c : Nat) (k : Core) : (putCore s c k).yielded = s.yielded := rfl

/-! ### modCore -/

@[simp] theorem modCore_mem (s : State) (c : Nat) (f : Core → Core) : (modCore s c f).mem = s.mem := rfl
@[simp] theorem modCore_full (s : State) (c : Nat) (f : Core → Core) : (modCore s c f).full = s.full := rfl
@[simp] theorem modCore_bad (s : State) (c : Nat) (f : Core → Core) : (modCore s c f).bad = s.bad := rfl
@[simp] theorem modCore_weak (s : State) (c : Nat) (f : Core → Core) : (modCore s c f).weak = s.weak := rfl
@[simp] theorem modCore_rels (s : State) (c : Nat) (f : Core → Core) : (modCore s c f).rels = s.rels := rfl
@[simp] theorem modCore_jobOld (s : State) (c : Nat) (f : Core → Core) : (modCore s c f).jobOld = s.jobOld := rfl
@[simp] theorem modCore_chanWords (s : State) (c : Nat) (f : Core → Core) : (modCore s c f).chanWords = s.chanWords := rfl
@[simp] theorem modCore_mapPages (s : State) (c : Nat) (f : Core → Core) : (modCore s c f).mapPages = s.mapPages := rfl
@[simp] theorem modCore_stackCe (s : State) (c : Nat) (f : Core → Core) : (modCore s c f).stackCe = s.stackCe := rfl
@[simp] theorem modCore_holeSites (s : State) (c : Nat) (f : Core → Core) : (modCore s c f).holeSites = s.holeSites := rfl
@[simp] theorem modCore_holeSegs (s : State) (c : Nat) (f : Core → Core) : (modCore s c f).holeSegs = s.holeSegs := rfl
@[simp] theorem modCore_cores (s : State) (c : Nat) (f : Core → Core) : (modCore s c f).cores = amSet s.cores c (f (getCore s c)) := rfl
@[simp] theorem modCore_procs (s : State) (c : Nat) (f : Core → Core) : (modCore s c f).procs = s.procs := rfl
@[simp] theorem modCore_tiles (s : State) (c : Nat) (f : Core → Core) : (modCore s c f).tiles = s.tiles := rfl
@[simp] theorem modCore_segs (s : State) (c : Nat) (f : Core → Core) : (modCore s c f).segs = s.segs := rfl
@[simp] theorem modCore_sites (s : State) (c : Nat) (f : Core → Core) : (modCore s c f).sites = s.sites := rfl
@[simp] theorem modCore_queues (s : State) (c : Nat) (f : Core → Core) : (modCore s c f).queues = s.queues := rfl
@[simp] theorem modCore_regions (s : State) (c : Nat) (f : Core → Core) : (modCore s c f).regions = s.regions := rfl
@[simp] theorem modCore_areas (s : State) (c : Nat) (f : Core → Core) : (modCore s c f).areas = s.areas := rfl
@[simp] theorem modCore_selects (s : State) (c : Nat) (f : Core → Core) : (modCore s c f).selects = s.selects := rfl
@[simp] theorem modCore_transfers (s : State) (c : Nat) (f : Core → Core) : (modCore s c f).transfers = s.transfers := rfl
@[simp] theorem modCore_msgs (s : State) (c : Nat) (f : Core → Core) : (modCore s c f).msgs = s.msgs := rfl
@[simp] theorem modCore_l2 (s : State) (c : Nat) (f : Core → Core) : (modCore s c f).l2 = s.l2 := rfl
@[simp] theorem modCore_watchrooms (s : State) (c : Nat) (f : Core → Core) : (modCore s c f).watchrooms = s.watchrooms := rfl
@[simp] theorem modCore_workQueues (s : State) (c : Nat) (f : Core → Core) : (modCore s c f).workQueues = s.workQueues := rfl
@[simp] theorem modCore_launches (s : State) (c : Nat) (f : Core → Core) : (modCore s c f).launches = s.launches := rfl
@[simp] theorem modCore_collStarts (s : State) (c : Nat) (f : Core → Core) : (modCore s c f).collStarts = s.collStarts := rfl
@[simp] theorem modCore_collOps (s : State) (c : Nat) (f : Core → Core) : (modCore s c f).collOps = s.collOps := rfl
@[simp] theorem modCore_collFixed (s : State) (c : Nat) (f : Core → Core) : (modCore s c f).collFixed = s.collFixed := rfl
@[simp] theorem modCore_collLosses (s : State) (c : Nat) (f : Core → Core) : (modCore s c f).collLosses = s.collLosses := rfl
@[simp] theorem modCore_detours (s : State) (c : Nat) (f : Core → Core) : (modCore s c f).detours = s.detours := rfl
@[simp] theorem modCore_pmc (s : State) (c : Nat) (f : Core → Core) : (modCore s c f).pmc = s.pmc := rfl
@[simp] theorem modCore_peerOut (s : State) (c : Nat) (f : Core → Core) : (modCore s c f).peerOut = s.peerOut := rfl
@[simp] theorem modCore_hosts (s : State) (c : Nat) (f : Core → Core) : (modCore s c f).hosts = s.hosts := rfl
@[simp] theorem modCore_images (s : State) (c : Nat) (f : Core → Core) : (modCore s c f).images = s.images := rfl
@[simp] theorem modCore_records (s : State) (c : Nat) (f : Core → Core) : (modCore s c f).records = s.records := rfl
@[simp] theorem modCore_time (s : State) (c : Nat) (f : Core → Core) : (modCore s c f).time = s.time := rfl
@[simp] theorem modCore_clocks (s : State) (c : Nat) (f : Core → Core) : (modCore s c f).clocks = s.clocks := rfl
@[simp] theorem modCore_order (s : State) (c : Nat) (f : Core → Core) : (modCore s c f).order = s.order := rfl
@[simp] theorem modCore_nonce (s : State) (c : Nat) (f : Core → Core) : (modCore s c f).nonce = s.nonce := rfl
@[simp] theorem modCore_decs (s : State) (c : Nat) (f : Core → Core) : (modCore s c f).decs = s.decs := rfl
@[simp] theorem modCore_turns (s : State) (c : Nat) (f : Core → Core) : (modCore s c f).turns = s.turns := rfl
@[simp] theorem modCore_cur (s : State) (c : Nat) (f : Core → Core) : (modCore s c f).cur = s.cur := rfl
@[simp] theorem modCore_agenda (s : State) (c : Nat) (f : Core → Core) : (modCore s c f).agenda = s.agenda := rfl
@[simp] theorem modCore_yielded (s : State) (c : Nat) (f : Core → Core) : (modCore s c f).yielded = s.yielded := rfl

/-! ### putTile -/

@[simp] theorem putTile_mem (s : State) (t : Nat) (k : Tile) : (putTile s t k).mem = s.mem := rfl
@[simp] theorem putTile_full (s : State) (t : Nat) (k : Tile) : (putTile s t k).full = s.full := rfl
@[simp] theorem putTile_bad (s : State) (t : Nat) (k : Tile) : (putTile s t k).bad = s.bad := rfl
@[simp] theorem putTile_weak (s : State) (t : Nat) (k : Tile) : (putTile s t k).weak = s.weak := rfl
@[simp] theorem putTile_rels (s : State) (t : Nat) (k : Tile) : (putTile s t k).rels = s.rels := rfl
@[simp] theorem putTile_jobOld (s : State) (t : Nat) (k : Tile) : (putTile s t k).jobOld = s.jobOld := rfl
@[simp] theorem putTile_chanWords (s : State) (t : Nat) (k : Tile) : (putTile s t k).chanWords = s.chanWords := rfl
@[simp] theorem putTile_mapPages (s : State) (t : Nat) (k : Tile) : (putTile s t k).mapPages = s.mapPages := rfl
@[simp] theorem putTile_stackCe (s : State) (t : Nat) (k : Tile) : (putTile s t k).stackCe = s.stackCe := rfl
@[simp] theorem putTile_holeSites (s : State) (t : Nat) (k : Tile) : (putTile s t k).holeSites = s.holeSites := rfl
@[simp] theorem putTile_holeSegs (s : State) (t : Nat) (k : Tile) : (putTile s t k).holeSegs = s.holeSegs := rfl
@[simp] theorem putTile_cores (s : State) (t : Nat) (k : Tile) : (putTile s t k).cores = s.cores := rfl
@[simp] theorem putTile_procs (s : State) (t : Nat) (k : Tile) : (putTile s t k).procs = s.procs := rfl
@[simp] theorem putTile_tiles (s : State) (t : Nat) (k : Tile) : (putTile s t k).tiles = amSet s.tiles t k := rfl
@[simp] theorem putTile_segs (s : State) (t : Nat) (k : Tile) : (putTile s t k).segs = s.segs := rfl
@[simp] theorem putTile_sites (s : State) (t : Nat) (k : Tile) : (putTile s t k).sites = s.sites := rfl
@[simp] theorem putTile_queues (s : State) (t : Nat) (k : Tile) : (putTile s t k).queues = s.queues := rfl
@[simp] theorem putTile_regions (s : State) (t : Nat) (k : Tile) : (putTile s t k).regions = s.regions := rfl
@[simp] theorem putTile_areas (s : State) (t : Nat) (k : Tile) : (putTile s t k).areas = s.areas := rfl
@[simp] theorem putTile_selects (s : State) (t : Nat) (k : Tile) : (putTile s t k).selects = s.selects := rfl
@[simp] theorem putTile_transfers (s : State) (t : Nat) (k : Tile) : (putTile s t k).transfers = s.transfers := rfl
@[simp] theorem putTile_msgs (s : State) (t : Nat) (k : Tile) : (putTile s t k).msgs = s.msgs := rfl
@[simp] theorem putTile_l2 (s : State) (t : Nat) (k : Tile) : (putTile s t k).l2 = s.l2 := rfl
@[simp] theorem putTile_watchrooms (s : State) (t : Nat) (k : Tile) : (putTile s t k).watchrooms = s.watchrooms := rfl
@[simp] theorem putTile_workQueues (s : State) (t : Nat) (k : Tile) : (putTile s t k).workQueues = s.workQueues := rfl
@[simp] theorem putTile_launches (s : State) (t : Nat) (k : Tile) : (putTile s t k).launches = s.launches := rfl
@[simp] theorem putTile_collStarts (s : State) (t : Nat) (k : Tile) : (putTile s t k).collStarts = s.collStarts := rfl
@[simp] theorem putTile_collOps (s : State) (t : Nat) (k : Tile) : (putTile s t k).collOps = s.collOps := rfl
@[simp] theorem putTile_collFixed (s : State) (t : Nat) (k : Tile) : (putTile s t k).collFixed = s.collFixed := rfl
@[simp] theorem putTile_collLosses (s : State) (t : Nat) (k : Tile) : (putTile s t k).collLosses = s.collLosses := rfl
@[simp] theorem putTile_detours (s : State) (t : Nat) (k : Tile) : (putTile s t k).detours = s.detours := rfl
@[simp] theorem putTile_pmc (s : State) (t : Nat) (k : Tile) : (putTile s t k).pmc = s.pmc := rfl
@[simp] theorem putTile_peerOut (s : State) (t : Nat) (k : Tile) : (putTile s t k).peerOut = s.peerOut := rfl
@[simp] theorem putTile_hosts (s : State) (t : Nat) (k : Tile) : (putTile s t k).hosts = s.hosts := rfl
@[simp] theorem putTile_images (s : State) (t : Nat) (k : Tile) : (putTile s t k).images = s.images := rfl
@[simp] theorem putTile_records (s : State) (t : Nat) (k : Tile) : (putTile s t k).records = s.records := rfl
@[simp] theorem putTile_time (s : State) (t : Nat) (k : Tile) : (putTile s t k).time = s.time := rfl
@[simp] theorem putTile_clocks (s : State) (t : Nat) (k : Tile) : (putTile s t k).clocks = s.clocks := rfl
@[simp] theorem putTile_order (s : State) (t : Nat) (k : Tile) : (putTile s t k).order = s.order := rfl
@[simp] theorem putTile_nonce (s : State) (t : Nat) (k : Tile) : (putTile s t k).nonce = s.nonce := rfl
@[simp] theorem putTile_decs (s : State) (t : Nat) (k : Tile) : (putTile s t k).decs = s.decs := rfl
@[simp] theorem putTile_turns (s : State) (t : Nat) (k : Tile) : (putTile s t k).turns = s.turns := rfl
@[simp] theorem putTile_cur (s : State) (t : Nat) (k : Tile) : (putTile s t k).cur = s.cur := rfl
@[simp] theorem putTile_agenda (s : State) (t : Nat) (k : Tile) : (putTile s t k).agenda = s.agenda := rfl
@[simp] theorem putTile_yielded (s : State) (t : Nat) (k : Tile) : (putTile s t k).yielded = s.yielded := rfl

/-! ### modTile -/

@[simp] theorem modTile_mem (s : State) (t : Nat) (f : Tile → Tile) : (modTile s t f).mem = s.mem := rfl
@[simp] theorem modTile_full (s : State) (t : Nat) (f : Tile → Tile) : (modTile s t f).full = s.full := rfl
@[simp] theorem modTile_bad (s : State) (t : Nat) (f : Tile → Tile) : (modTile s t f).bad = s.bad := rfl
@[simp] theorem modTile_weak (s : State) (t : Nat) (f : Tile → Tile) : (modTile s t f).weak = s.weak := rfl
@[simp] theorem modTile_rels (s : State) (t : Nat) (f : Tile → Tile) : (modTile s t f).rels = s.rels := rfl
@[simp] theorem modTile_jobOld (s : State) (t : Nat) (f : Tile → Tile) : (modTile s t f).jobOld = s.jobOld := rfl
@[simp] theorem modTile_chanWords (s : State) (t : Nat) (f : Tile → Tile) : (modTile s t f).chanWords = s.chanWords := rfl
@[simp] theorem modTile_mapPages (s : State) (t : Nat) (f : Tile → Tile) : (modTile s t f).mapPages = s.mapPages := rfl
@[simp] theorem modTile_stackCe (s : State) (t : Nat) (f : Tile → Tile) : (modTile s t f).stackCe = s.stackCe := rfl
@[simp] theorem modTile_holeSites (s : State) (t : Nat) (f : Tile → Tile) : (modTile s t f).holeSites = s.holeSites := rfl
@[simp] theorem modTile_holeSegs (s : State) (t : Nat) (f : Tile → Tile) : (modTile s t f).holeSegs = s.holeSegs := rfl
@[simp] theorem modTile_cores (s : State) (t : Nat) (f : Tile → Tile) : (modTile s t f).cores = s.cores := rfl
@[simp] theorem modTile_procs (s : State) (t : Nat) (f : Tile → Tile) : (modTile s t f).procs = s.procs := rfl
@[simp] theorem modTile_tiles (s : State) (t : Nat) (f : Tile → Tile) : (modTile s t f).tiles = amSet s.tiles t (f (getTile s t)) := rfl
@[simp] theorem modTile_segs (s : State) (t : Nat) (f : Tile → Tile) : (modTile s t f).segs = s.segs := rfl
@[simp] theorem modTile_sites (s : State) (t : Nat) (f : Tile → Tile) : (modTile s t f).sites = s.sites := rfl
@[simp] theorem modTile_queues (s : State) (t : Nat) (f : Tile → Tile) : (modTile s t f).queues = s.queues := rfl
@[simp] theorem modTile_regions (s : State) (t : Nat) (f : Tile → Tile) : (modTile s t f).regions = s.regions := rfl
@[simp] theorem modTile_areas (s : State) (t : Nat) (f : Tile → Tile) : (modTile s t f).areas = s.areas := rfl
@[simp] theorem modTile_selects (s : State) (t : Nat) (f : Tile → Tile) : (modTile s t f).selects = s.selects := rfl
@[simp] theorem modTile_transfers (s : State) (t : Nat) (f : Tile → Tile) : (modTile s t f).transfers = s.transfers := rfl
@[simp] theorem modTile_msgs (s : State) (t : Nat) (f : Tile → Tile) : (modTile s t f).msgs = s.msgs := rfl
@[simp] theorem modTile_l2 (s : State) (t : Nat) (f : Tile → Tile) : (modTile s t f).l2 = s.l2 := rfl
@[simp] theorem modTile_watchrooms (s : State) (t : Nat) (f : Tile → Tile) : (modTile s t f).watchrooms = s.watchrooms := rfl
@[simp] theorem modTile_workQueues (s : State) (t : Nat) (f : Tile → Tile) : (modTile s t f).workQueues = s.workQueues := rfl
@[simp] theorem modTile_launches (s : State) (t : Nat) (f : Tile → Tile) : (modTile s t f).launches = s.launches := rfl
@[simp] theorem modTile_collStarts (s : State) (t : Nat) (f : Tile → Tile) : (modTile s t f).collStarts = s.collStarts := rfl
@[simp] theorem modTile_collOps (s : State) (t : Nat) (f : Tile → Tile) : (modTile s t f).collOps = s.collOps := rfl
@[simp] theorem modTile_collFixed (s : State) (t : Nat) (f : Tile → Tile) : (modTile s t f).collFixed = s.collFixed := rfl
@[simp] theorem modTile_collLosses (s : State) (t : Nat) (f : Tile → Tile) : (modTile s t f).collLosses = s.collLosses := rfl
@[simp] theorem modTile_detours (s : State) (t : Nat) (f : Tile → Tile) : (modTile s t f).detours = s.detours := rfl
@[simp] theorem modTile_pmc (s : State) (t : Nat) (f : Tile → Tile) : (modTile s t f).pmc = s.pmc := rfl
@[simp] theorem modTile_peerOut (s : State) (t : Nat) (f : Tile → Tile) : (modTile s t f).peerOut = s.peerOut := rfl
@[simp] theorem modTile_hosts (s : State) (t : Nat) (f : Tile → Tile) : (modTile s t f).hosts = s.hosts := rfl
@[simp] theorem modTile_images (s : State) (t : Nat) (f : Tile → Tile) : (modTile s t f).images = s.images := rfl
@[simp] theorem modTile_records (s : State) (t : Nat) (f : Tile → Tile) : (modTile s t f).records = s.records := rfl
@[simp] theorem modTile_time (s : State) (t : Nat) (f : Tile → Tile) : (modTile s t f).time = s.time := rfl
@[simp] theorem modTile_clocks (s : State) (t : Nat) (f : Tile → Tile) : (modTile s t f).clocks = s.clocks := rfl
@[simp] theorem modTile_order (s : State) (t : Nat) (f : Tile → Tile) : (modTile s t f).order = s.order := rfl
@[simp] theorem modTile_nonce (s : State) (t : Nat) (f : Tile → Tile) : (modTile s t f).nonce = s.nonce := rfl
@[simp] theorem modTile_decs (s : State) (t : Nat) (f : Tile → Tile) : (modTile s t f).decs = s.decs := rfl
@[simp] theorem modTile_turns (s : State) (t : Nat) (f : Tile → Tile) : (modTile s t f).turns = s.turns := rfl
@[simp] theorem modTile_cur (s : State) (t : Nat) (f : Tile → Tile) : (modTile s t f).cur = s.cur := rfl
@[simp] theorem modTile_agenda (s : State) (t : Nat) (f : Tile → Tile) : (modTile s t f).agenda = s.agenda := rfl
@[simp] theorem modTile_yielded (s : State) (t : Nat) (f : Tile → Tile) : (modTile s t f).yielded = s.yielded := rfl

/-! ### modSeg -/

@[simp] theorem modSeg_mem (s : State) (g : Nat) (f : Seg → Seg) : (modSeg s g f).mem = s.mem := rfl
@[simp] theorem modSeg_full (s : State) (g : Nat) (f : Seg → Seg) : (modSeg s g f).full = s.full := rfl
@[simp] theorem modSeg_bad (s : State) (g : Nat) (f : Seg → Seg) : (modSeg s g f).bad = s.bad := rfl
@[simp] theorem modSeg_weak (s : State) (g : Nat) (f : Seg → Seg) : (modSeg s g f).weak = s.weak := rfl
@[simp] theorem modSeg_rels (s : State) (g : Nat) (f : Seg → Seg) : (modSeg s g f).rels = s.rels := rfl
@[simp] theorem modSeg_jobOld (s : State) (g : Nat) (f : Seg → Seg) : (modSeg s g f).jobOld = s.jobOld := rfl
@[simp] theorem modSeg_chanWords (s : State) (g : Nat) (f : Seg → Seg) : (modSeg s g f).chanWords = s.chanWords := rfl
@[simp] theorem modSeg_mapPages (s : State) (g : Nat) (f : Seg → Seg) : (modSeg s g f).mapPages = s.mapPages := rfl
@[simp] theorem modSeg_stackCe (s : State) (g : Nat) (f : Seg → Seg) : (modSeg s g f).stackCe = s.stackCe := rfl
@[simp] theorem modSeg_holeSites (s : State) (g : Nat) (f : Seg → Seg) : (modSeg s g f).holeSites = s.holeSites := rfl
@[simp] theorem modSeg_holeSegs (s : State) (g : Nat) (f : Seg → Seg) : (modSeg s g f).holeSegs = s.holeSegs := rfl
@[simp] theorem modSeg_cores (s : State) (g : Nat) (f : Seg → Seg) : (modSeg s g f).cores = s.cores := rfl
@[simp] theorem modSeg_procs (s : State) (g : Nat) (f : Seg → Seg) : (modSeg s g f).procs = s.procs := rfl
@[simp] theorem modSeg_tiles (s : State) (g : Nat) (f : Seg → Seg) : (modSeg s g f).tiles = s.tiles := rfl
@[simp] theorem modSeg_segs (s : State) (g : Nat) (f : Seg → Seg) : (modSeg s g f).segs = amSet s.segs g (f (getSeg s g)) := rfl
@[simp] theorem modSeg_sites (s : State) (g : Nat) (f : Seg → Seg) : (modSeg s g f).sites = s.sites := rfl
@[simp] theorem modSeg_queues (s : State) (g : Nat) (f : Seg → Seg) : (modSeg s g f).queues = s.queues := rfl
@[simp] theorem modSeg_regions (s : State) (g : Nat) (f : Seg → Seg) : (modSeg s g f).regions = s.regions := rfl
@[simp] theorem modSeg_areas (s : State) (g : Nat) (f : Seg → Seg) : (modSeg s g f).areas = s.areas := rfl
@[simp] theorem modSeg_selects (s : State) (g : Nat) (f : Seg → Seg) : (modSeg s g f).selects = s.selects := rfl
@[simp] theorem modSeg_transfers (s : State) (g : Nat) (f : Seg → Seg) : (modSeg s g f).transfers = s.transfers := rfl
@[simp] theorem modSeg_msgs (s : State) (g : Nat) (f : Seg → Seg) : (modSeg s g f).msgs = s.msgs := rfl
@[simp] theorem modSeg_l2 (s : State) (g : Nat) (f : Seg → Seg) : (modSeg s g f).l2 = s.l2 := rfl
@[simp] theorem modSeg_watchrooms (s : State) (g : Nat) (f : Seg → Seg) : (modSeg s g f).watchrooms = s.watchrooms := rfl
@[simp] theorem modSeg_workQueues (s : State) (g : Nat) (f : Seg → Seg) : (modSeg s g f).workQueues = s.workQueues := rfl
@[simp] theorem modSeg_launches (s : State) (g : Nat) (f : Seg → Seg) : (modSeg s g f).launches = s.launches := rfl
@[simp] theorem modSeg_collStarts (s : State) (g : Nat) (f : Seg → Seg) : (modSeg s g f).collStarts = s.collStarts := rfl
@[simp] theorem modSeg_collOps (s : State) (g : Nat) (f : Seg → Seg) : (modSeg s g f).collOps = s.collOps := rfl
@[simp] theorem modSeg_collFixed (s : State) (g : Nat) (f : Seg → Seg) : (modSeg s g f).collFixed = s.collFixed := rfl
@[simp] theorem modSeg_collLosses (s : State) (g : Nat) (f : Seg → Seg) : (modSeg s g f).collLosses = s.collLosses := rfl
@[simp] theorem modSeg_detours (s : State) (g : Nat) (f : Seg → Seg) : (modSeg s g f).detours = s.detours := rfl
@[simp] theorem modSeg_pmc (s : State) (g : Nat) (f : Seg → Seg) : (modSeg s g f).pmc = s.pmc := rfl
@[simp] theorem modSeg_peerOut (s : State) (g : Nat) (f : Seg → Seg) : (modSeg s g f).peerOut = s.peerOut := rfl
@[simp] theorem modSeg_hosts (s : State) (g : Nat) (f : Seg → Seg) : (modSeg s g f).hosts = s.hosts := rfl
@[simp] theorem modSeg_images (s : State) (g : Nat) (f : Seg → Seg) : (modSeg s g f).images = s.images := rfl
@[simp] theorem modSeg_records (s : State) (g : Nat) (f : Seg → Seg) : (modSeg s g f).records = s.records := rfl
@[simp] theorem modSeg_time (s : State) (g : Nat) (f : Seg → Seg) : (modSeg s g f).time = s.time := rfl
@[simp] theorem modSeg_clocks (s : State) (g : Nat) (f : Seg → Seg) : (modSeg s g f).clocks = s.clocks := rfl
@[simp] theorem modSeg_order (s : State) (g : Nat) (f : Seg → Seg) : (modSeg s g f).order = s.order := rfl
@[simp] theorem modSeg_nonce (s : State) (g : Nat) (f : Seg → Seg) : (modSeg s g f).nonce = s.nonce := rfl
@[simp] theorem modSeg_decs (s : State) (g : Nat) (f : Seg → Seg) : (modSeg s g f).decs = s.decs := rfl
@[simp] theorem modSeg_turns (s : State) (g : Nat) (f : Seg → Seg) : (modSeg s g f).turns = s.turns := rfl
@[simp] theorem modSeg_cur (s : State) (g : Nat) (f : Seg → Seg) : (modSeg s g f).cur = s.cur := rfl
@[simp] theorem modSeg_agenda (s : State) (g : Nat) (f : Seg → Seg) : (modSeg s g f).agenda = s.agenda := rfl
@[simp] theorem modSeg_yielded (s : State) (g : Nat) (f : Seg → Seg) : (modSeg s g f).yielded = s.yielded := rfl

/-! ### modSite -/

@[simp] theorem modSite_mem (s : State) (n : Nat) (f : Site → Site) : (modSite s n f).mem = s.mem := rfl
@[simp] theorem modSite_full (s : State) (n : Nat) (f : Site → Site) : (modSite s n f).full = s.full := rfl
@[simp] theorem modSite_bad (s : State) (n : Nat) (f : Site → Site) : (modSite s n f).bad = s.bad := rfl
@[simp] theorem modSite_weak (s : State) (n : Nat) (f : Site → Site) : (modSite s n f).weak = s.weak := rfl
@[simp] theorem modSite_rels (s : State) (n : Nat) (f : Site → Site) : (modSite s n f).rels = s.rels := rfl
@[simp] theorem modSite_jobOld (s : State) (n : Nat) (f : Site → Site) : (modSite s n f).jobOld = s.jobOld := rfl
@[simp] theorem modSite_chanWords (s : State) (n : Nat) (f : Site → Site) : (modSite s n f).chanWords = s.chanWords := rfl
@[simp] theorem modSite_mapPages (s : State) (n : Nat) (f : Site → Site) : (modSite s n f).mapPages = s.mapPages := rfl
@[simp] theorem modSite_stackCe (s : State) (n : Nat) (f : Site → Site) : (modSite s n f).stackCe = s.stackCe := rfl
@[simp] theorem modSite_holeSites (s : State) (n : Nat) (f : Site → Site) : (modSite s n f).holeSites = s.holeSites := rfl
@[simp] theorem modSite_holeSegs (s : State) (n : Nat) (f : Site → Site) : (modSite s n f).holeSegs = s.holeSegs := rfl
@[simp] theorem modSite_cores (s : State) (n : Nat) (f : Site → Site) : (modSite s n f).cores = s.cores := rfl
@[simp] theorem modSite_procs (s : State) (n : Nat) (f : Site → Site) : (modSite s n f).procs = s.procs := rfl
@[simp] theorem modSite_tiles (s : State) (n : Nat) (f : Site → Site) : (modSite s n f).tiles = s.tiles := rfl
@[simp] theorem modSite_segs (s : State) (n : Nat) (f : Site → Site) : (modSite s n f).segs = s.segs := rfl
@[simp] theorem modSite_sites (s : State) (n : Nat) (f : Site → Site) : (modSite s n f).sites = amSet s.sites n (f (getSite s n)) := rfl
@[simp] theorem modSite_queues (s : State) (n : Nat) (f : Site → Site) : (modSite s n f).queues = s.queues := rfl
@[simp] theorem modSite_regions (s : State) (n : Nat) (f : Site → Site) : (modSite s n f).regions = s.regions := rfl
@[simp] theorem modSite_areas (s : State) (n : Nat) (f : Site → Site) : (modSite s n f).areas = s.areas := rfl
@[simp] theorem modSite_selects (s : State) (n : Nat) (f : Site → Site) : (modSite s n f).selects = s.selects := rfl
@[simp] theorem modSite_transfers (s : State) (n : Nat) (f : Site → Site) : (modSite s n f).transfers = s.transfers := rfl
@[simp] theorem modSite_msgs (s : State) (n : Nat) (f : Site → Site) : (modSite s n f).msgs = s.msgs := rfl
@[simp] theorem modSite_l2 (s : State) (n : Nat) (f : Site → Site) : (modSite s n f).l2 = s.l2 := rfl
@[simp] theorem modSite_watchrooms (s : State) (n : Nat) (f : Site → Site) : (modSite s n f).watchrooms = s.watchrooms := rfl
@[simp] theorem modSite_workQueues (s : State) (n : Nat) (f : Site → Site) : (modSite s n f).workQueues = s.workQueues := rfl
@[simp] theorem modSite_launches (s : State) (n : Nat) (f : Site → Site) : (modSite s n f).launches = s.launches := rfl
@[simp] theorem modSite_collStarts (s : State) (n : Nat) (f : Site → Site) : (modSite s n f).collStarts = s.collStarts := rfl
@[simp] theorem modSite_collOps (s : State) (n : Nat) (f : Site → Site) : (modSite s n f).collOps = s.collOps := rfl
@[simp] theorem modSite_collFixed (s : State) (n : Nat) (f : Site → Site) : (modSite s n f).collFixed = s.collFixed := rfl
@[simp] theorem modSite_collLosses (s : State) (n : Nat) (f : Site → Site) : (modSite s n f).collLosses = s.collLosses := rfl
@[simp] theorem modSite_detours (s : State) (n : Nat) (f : Site → Site) : (modSite s n f).detours = s.detours := rfl
@[simp] theorem modSite_pmc (s : State) (n : Nat) (f : Site → Site) : (modSite s n f).pmc = s.pmc := rfl
@[simp] theorem modSite_peerOut (s : State) (n : Nat) (f : Site → Site) : (modSite s n f).peerOut = s.peerOut := rfl
@[simp] theorem modSite_hosts (s : State) (n : Nat) (f : Site → Site) : (modSite s n f).hosts = s.hosts := rfl
@[simp] theorem modSite_images (s : State) (n : Nat) (f : Site → Site) : (modSite s n f).images = s.images := rfl
@[simp] theorem modSite_records (s : State) (n : Nat) (f : Site → Site) : (modSite s n f).records = s.records := rfl
@[simp] theorem modSite_time (s : State) (n : Nat) (f : Site → Site) : (modSite s n f).time = s.time := rfl
@[simp] theorem modSite_clocks (s : State) (n : Nat) (f : Site → Site) : (modSite s n f).clocks = s.clocks := rfl
@[simp] theorem modSite_order (s : State) (n : Nat) (f : Site → Site) : (modSite s n f).order = s.order := rfl
@[simp] theorem modSite_nonce (s : State) (n : Nat) (f : Site → Site) : (modSite s n f).nonce = s.nonce := rfl
@[simp] theorem modSite_decs (s : State) (n : Nat) (f : Site → Site) : (modSite s n f).decs = s.decs := rfl
@[simp] theorem modSite_turns (s : State) (n : Nat) (f : Site → Site) : (modSite s n f).turns = s.turns := rfl
@[simp] theorem modSite_cur (s : State) (n : Nat) (f : Site → Site) : (modSite s n f).cur = s.cur := rfl
@[simp] theorem modSite_agenda (s : State) (n : Nat) (f : Site → Site) : (modSite s n f).agenda = s.agenda := rfl
@[simp] theorem modSite_yielded (s : State) (n : Nat) (f : Site → Site) : (modSite s n f).yielded = s.yielded := rfl

/-! ### modQueue -/

@[simp] theorem modQueue_mem (s : State) (k : Nat) (f : Queue → Queue) : (modQueue s k f).mem = s.mem := rfl
@[simp] theorem modQueue_full (s : State) (k : Nat) (f : Queue → Queue) : (modQueue s k f).full = s.full := rfl
@[simp] theorem modQueue_bad (s : State) (k : Nat) (f : Queue → Queue) : (modQueue s k f).bad = s.bad := rfl
@[simp] theorem modQueue_weak (s : State) (k : Nat) (f : Queue → Queue) : (modQueue s k f).weak = s.weak := rfl
@[simp] theorem modQueue_rels (s : State) (k : Nat) (f : Queue → Queue) : (modQueue s k f).rels = s.rels := rfl
@[simp] theorem modQueue_jobOld (s : State) (k : Nat) (f : Queue → Queue) : (modQueue s k f).jobOld = s.jobOld := rfl
@[simp] theorem modQueue_chanWords (s : State) (k : Nat) (f : Queue → Queue) : (modQueue s k f).chanWords = s.chanWords := rfl
@[simp] theorem modQueue_mapPages (s : State) (k : Nat) (f : Queue → Queue) : (modQueue s k f).mapPages = s.mapPages := rfl
@[simp] theorem modQueue_stackCe (s : State) (k : Nat) (f : Queue → Queue) : (modQueue s k f).stackCe = s.stackCe := rfl
@[simp] theorem modQueue_holeSites (s : State) (k : Nat) (f : Queue → Queue) : (modQueue s k f).holeSites = s.holeSites := rfl
@[simp] theorem modQueue_holeSegs (s : State) (k : Nat) (f : Queue → Queue) : (modQueue s k f).holeSegs = s.holeSegs := rfl
@[simp] theorem modQueue_cores (s : State) (k : Nat) (f : Queue → Queue) : (modQueue s k f).cores = s.cores := rfl
@[simp] theorem modQueue_procs (s : State) (k : Nat) (f : Queue → Queue) : (modQueue s k f).procs = s.procs := rfl
@[simp] theorem modQueue_tiles (s : State) (k : Nat) (f : Queue → Queue) : (modQueue s k f).tiles = s.tiles := rfl
@[simp] theorem modQueue_segs (s : State) (k : Nat) (f : Queue → Queue) : (modQueue s k f).segs = s.segs := rfl
@[simp] theorem modQueue_sites (s : State) (k : Nat) (f : Queue → Queue) : (modQueue s k f).sites = s.sites := rfl
@[simp] theorem modQueue_queues (s : State) (k : Nat) (f : Queue → Queue) : (modQueue s k f).queues = amSet s.queues k (f (getQueue s k)) := rfl
@[simp] theorem modQueue_regions (s : State) (k : Nat) (f : Queue → Queue) : (modQueue s k f).regions = s.regions := rfl
@[simp] theorem modQueue_areas (s : State) (k : Nat) (f : Queue → Queue) : (modQueue s k f).areas = s.areas := rfl
@[simp] theorem modQueue_selects (s : State) (k : Nat) (f : Queue → Queue) : (modQueue s k f).selects = s.selects := rfl
@[simp] theorem modQueue_transfers (s : State) (k : Nat) (f : Queue → Queue) : (modQueue s k f).transfers = s.transfers := rfl
@[simp] theorem modQueue_msgs (s : State) (k : Nat) (f : Queue → Queue) : (modQueue s k f).msgs = s.msgs := rfl
@[simp] theorem modQueue_l2 (s : State) (k : Nat) (f : Queue → Queue) : (modQueue s k f).l2 = s.l2 := rfl
@[simp] theorem modQueue_watchrooms (s : State) (k : Nat) (f : Queue → Queue) : (modQueue s k f).watchrooms = s.watchrooms := rfl
@[simp] theorem modQueue_workQueues (s : State) (k : Nat) (f : Queue → Queue) : (modQueue s k f).workQueues = s.workQueues := rfl
@[simp] theorem modQueue_launches (s : State) (k : Nat) (f : Queue → Queue) : (modQueue s k f).launches = s.launches := rfl
@[simp] theorem modQueue_collStarts (s : State) (k : Nat) (f : Queue → Queue) : (modQueue s k f).collStarts = s.collStarts := rfl
@[simp] theorem modQueue_collOps (s : State) (k : Nat) (f : Queue → Queue) : (modQueue s k f).collOps = s.collOps := rfl
@[simp] theorem modQueue_collFixed (s : State) (k : Nat) (f : Queue → Queue) : (modQueue s k f).collFixed = s.collFixed := rfl
@[simp] theorem modQueue_collLosses (s : State) (k : Nat) (f : Queue → Queue) : (modQueue s k f).collLosses = s.collLosses := rfl
@[simp] theorem modQueue_detours (s : State) (k : Nat) (f : Queue → Queue) : (modQueue s k f).detours = s.detours := rfl
@[simp] theorem modQueue_pmc (s : State) (k : Nat) (f : Queue → Queue) : (modQueue s k f).pmc = s.pmc := rfl
@[simp] theorem modQueue_peerOut (s : State) (k : Nat) (f : Queue → Queue) : (modQueue s k f).peerOut = s.peerOut := rfl
@[simp] theorem modQueue_hosts (s : State) (k : Nat) (f : Queue → Queue) : (modQueue s k f).hosts = s.hosts := rfl
@[simp] theorem modQueue_images (s : State) (k : Nat) (f : Queue → Queue) : (modQueue s k f).images = s.images := rfl
@[simp] theorem modQueue_records (s : State) (k : Nat) (f : Queue → Queue) : (modQueue s k f).records = s.records := rfl
@[simp] theorem modQueue_time (s : State) (k : Nat) (f : Queue → Queue) : (modQueue s k f).time = s.time := rfl
@[simp] theorem modQueue_clocks (s : State) (k : Nat) (f : Queue → Queue) : (modQueue s k f).clocks = s.clocks := rfl
@[simp] theorem modQueue_order (s : State) (k : Nat) (f : Queue → Queue) : (modQueue s k f).order = s.order := rfl
@[simp] theorem modQueue_nonce (s : State) (k : Nat) (f : Queue → Queue) : (modQueue s k f).nonce = s.nonce := rfl
@[simp] theorem modQueue_decs (s : State) (k : Nat) (f : Queue → Queue) : (modQueue s k f).decs = s.decs := rfl
@[simp] theorem modQueue_turns (s : State) (k : Nat) (f : Queue → Queue) : (modQueue s k f).turns = s.turns := rfl
@[simp] theorem modQueue_cur (s : State) (k : Nat) (f : Queue → Queue) : (modQueue s k f).cur = s.cur := rfl
@[simp] theorem modQueue_agenda (s : State) (k : Nat) (f : Queue → Queue) : (modQueue s k f).agenda = s.agenda := rfl
@[simp] theorem modQueue_yielded (s : State) (k : Nat) (f : Queue → Queue) : (modQueue s k f).yielded = s.yielded := rfl

/-! ### modRegion -/

@[simp] theorem modRegion_mem (s : State) (r : Nat) (f : Region → Region) : (modRegion s r f).mem = s.mem := rfl
@[simp] theorem modRegion_full (s : State) (r : Nat) (f : Region → Region) : (modRegion s r f).full = s.full := rfl
@[simp] theorem modRegion_bad (s : State) (r : Nat) (f : Region → Region) : (modRegion s r f).bad = s.bad := rfl
@[simp] theorem modRegion_weak (s : State) (r : Nat) (f : Region → Region) : (modRegion s r f).weak = s.weak := rfl
@[simp] theorem modRegion_rels (s : State) (r : Nat) (f : Region → Region) : (modRegion s r f).rels = s.rels := rfl
@[simp] theorem modRegion_jobOld (s : State) (r : Nat) (f : Region → Region) : (modRegion s r f).jobOld = s.jobOld := rfl
@[simp] theorem modRegion_chanWords (s : State) (r : Nat) (f : Region → Region) : (modRegion s r f).chanWords = s.chanWords := rfl
@[simp] theorem modRegion_mapPages (s : State) (r : Nat) (f : Region → Region) : (modRegion s r f).mapPages = s.mapPages := rfl
@[simp] theorem modRegion_stackCe (s : State) (r : Nat) (f : Region → Region) : (modRegion s r f).stackCe = s.stackCe := rfl
@[simp] theorem modRegion_holeSites (s : State) (r : Nat) (f : Region → Region) : (modRegion s r f).holeSites = s.holeSites := rfl
@[simp] theorem modRegion_holeSegs (s : State) (r : Nat) (f : Region → Region) : (modRegion s r f).holeSegs = s.holeSegs := rfl
@[simp] theorem modRegion_cores (s : State) (r : Nat) (f : Region → Region) : (modRegion s r f).cores = s.cores := rfl
@[simp] theorem modRegion_procs (s : State) (r : Nat) (f : Region → Region) : (modRegion s r f).procs = s.procs := rfl
@[simp] theorem modRegion_tiles (s : State) (r : Nat) (f : Region → Region) : (modRegion s r f).tiles = s.tiles := rfl
@[simp] theorem modRegion_segs (s : State) (r : Nat) (f : Region → Region) : (modRegion s r f).segs = s.segs := rfl
@[simp] theorem modRegion_sites (s : State) (r : Nat) (f : Region → Region) : (modRegion s r f).sites = s.sites := rfl
@[simp] theorem modRegion_queues (s : State) (r : Nat) (f : Region → Region) : (modRegion s r f).queues = s.queues := rfl
@[simp] theorem modRegion_regions (s : State) (r : Nat) (f : Region → Region) : (modRegion s r f).regions = amSet s.regions r (f (getRegion s r)) := rfl
@[simp] theorem modRegion_areas (s : State) (r : Nat) (f : Region → Region) : (modRegion s r f).areas = s.areas := rfl
@[simp] theorem modRegion_selects (s : State) (r : Nat) (f : Region → Region) : (modRegion s r f).selects = s.selects := rfl
@[simp] theorem modRegion_transfers (s : State) (r : Nat) (f : Region → Region) : (modRegion s r f).transfers = s.transfers := rfl
@[simp] theorem modRegion_msgs (s : State) (r : Nat) (f : Region → Region) : (modRegion s r f).msgs = s.msgs := rfl
@[simp] theorem modRegion_l2 (s : State) (r : Nat) (f : Region → Region) : (modRegion s r f).l2 = s.l2 := rfl
@[simp] theorem modRegion_watchrooms (s : State) (r : Nat) (f : Region → Region) : (modRegion s r f).watchrooms = s.watchrooms := rfl
@[simp] theorem modRegion_workQueues (s : State) (r : Nat) (f : Region → Region) : (modRegion s r f).workQueues = s.workQueues := rfl
@[simp] theorem modRegion_launches (s : State) (r : Nat) (f : Region → Region) : (modRegion s r f).launches = s.launches := rfl
@[simp] theorem modRegion_collStarts (s : State) (r : Nat) (f : Region → Region) : (modRegion s r f).collStarts = s.collStarts := rfl
@[simp] theorem modRegion_collOps (s : State) (r : Nat) (f : Region → Region) : (modRegion s r f).collOps = s.collOps := rfl
@[simp] theorem modRegion_collFixed (s : State) (r : Nat) (f : Region → Region) : (modRegion s r f).collFixed = s.collFixed := rfl
@[simp] theorem modRegion_collLosses (s : State) (r : Nat) (f : Region → Region) : (modRegion s r f).collLosses = s.collLosses := rfl
@[simp] theorem modRegion_detours (s : State) (r : Nat) (f : Region → Region) : (modRegion s r f).detours = s.detours := rfl
@[simp] theorem modRegion_pmc (s : State) (r : Nat) (f : Region → Region) : (modRegion s r f).pmc = s.pmc := rfl
@[simp] theorem modRegion_peerOut (s : State) (r : Nat) (f : Region → Region) : (modRegion s r f).peerOut = s.peerOut := rfl
@[simp] theorem modRegion_hosts (s : State) (r : Nat) (f : Region → Region) : (modRegion s r f).hosts = s.hosts := rfl
@[simp] theorem modRegion_images (s : State) (r : Nat) (f : Region → Region) : (modRegion s r f).images = s.images := rfl
@[simp] theorem modRegion_records (s : State) (r : Nat) (f : Region → Region) : (modRegion s r f).records = s.records := rfl
@[simp] theorem modRegion_time (s : State) (r : Nat) (f : Region → Region) : (modRegion s r f).time = s.time := rfl
@[simp] theorem modRegion_clocks (s : State) (r : Nat) (f : Region → Region) : (modRegion s r f).clocks = s.clocks := rfl
@[simp] theorem modRegion_order (s : State) (r : Nat) (f : Region → Region) : (modRegion s r f).order = s.order := rfl
@[simp] theorem modRegion_nonce (s : State) (r : Nat) (f : Region → Region) : (modRegion s r f).nonce = s.nonce := rfl
@[simp] theorem modRegion_decs (s : State) (r : Nat) (f : Region → Region) : (modRegion s r f).decs = s.decs := rfl
@[simp] theorem modRegion_turns (s : State) (r : Nat) (f : Region → Region) : (modRegion s r f).turns = s.turns := rfl
@[simp] theorem modRegion_cur (s : State) (r : Nat) (f : Region → Region) : (modRegion s r f).cur = s.cur := rfl
@[simp] theorem modRegion_agenda (s : State) (r : Nat) (f : Region → Region) : (modRegion s r f).agenda = s.agenda := rfl
@[simp] theorem modRegion_yielded (s : State) (r : Nat) (f : Region → Region) : (modRegion s r f).yielded = s.yielded := rfl

/-! ### putProc -/

@[simp] theorem putProc_mem (s : State) (w : Nat) (p : Proc) : (putProc s w p).mem = s.mem := rfl
@[simp] theorem putProc_full (s : State) (w : Nat) (p : Proc) : (putProc s w p).full = s.full := rfl
@[simp] theorem putProc_bad (s : State) (w : Nat) (p : Proc) : (putProc s w p).bad = s.bad := rfl
@[simp] theorem putProc_weak (s : State) (w : Nat) (p : Proc) : (putProc s w p).weak = s.weak := rfl
@[simp] theorem putProc_rels (s : State) (w : Nat) (p : Proc) : (putProc s w p).rels = s.rels := rfl
@[simp] theorem putProc_jobOld (s : State) (w : Nat) (p : Proc) : (putProc s w p).jobOld = s.jobOld := rfl
@[simp] theorem putProc_chanWords (s : State) (w : Nat) (p : Proc) : (putProc s w p).chanWords = s.chanWords := rfl
@[simp] theorem putProc_mapPages (s : State) (w : Nat) (p : Proc) : (putProc s w p).mapPages = s.mapPages := rfl
@[simp] theorem putProc_stackCe (s : State) (w : Nat) (p : Proc) : (putProc s w p).stackCe = s.stackCe := rfl
@[simp] theorem putProc_holeSites (s : State) (w : Nat) (p : Proc) : (putProc s w p).holeSites = s.holeSites := rfl
@[simp] theorem putProc_holeSegs (s : State) (w : Nat) (p : Proc) : (putProc s w p).holeSegs = s.holeSegs := rfl
@[simp] theorem putProc_cores (s : State) (w : Nat) (p : Proc) : (putProc s w p).cores = s.cores := rfl
@[simp] theorem putProc_procs (s : State) (w : Nat) (p : Proc) : (putProc s w p).procs = amSet s.procs w p := rfl
@[simp] theorem putProc_tiles (s : State) (w : Nat) (p : Proc) : (putProc s w p).tiles = s.tiles := rfl
@[simp] theorem putProc_segs (s : State) (w : Nat) (p : Proc) : (putProc s w p).segs = s.segs := rfl
@[simp] theorem putProc_sites (s : State) (w : Nat) (p : Proc) : (putProc s w p).sites = s.sites := rfl
@[simp] theorem putProc_queues (s : State) (w : Nat) (p : Proc) : (putProc s w p).queues = s.queues := rfl
@[simp] theorem putProc_regions (s : State) (w : Nat) (p : Proc) : (putProc s w p).regions = s.regions := rfl
@[simp] theorem putProc_areas (s : State) (w : Nat) (p : Proc) : (putProc s w p).areas = s.areas := rfl
@[simp] theorem putProc_selects (s : State) (w : Nat) (p : Proc) : (putProc s w p).selects = s.selects := rfl
@[simp] theorem putProc_transfers (s : State) (w : Nat) (p : Proc) : (putProc s w p).transfers = s.transfers := rfl
@[simp] theorem putProc_msgs (s : State) (w : Nat) (p : Proc) : (putProc s w p).msgs = s.msgs := rfl
@[simp] theorem putProc_l2 (s : State) (w : Nat) (p : Proc) : (putProc s w p).l2 = s.l2 := rfl
@[simp] theorem putProc_watchrooms (s : State) (w : Nat) (p : Proc) : (putProc s w p).watchrooms = s.watchrooms := rfl
@[simp] theorem putProc_workQueues (s : State) (w : Nat) (p : Proc) : (putProc s w p).workQueues = s.workQueues := rfl
@[simp] theorem putProc_launches (s : State) (w : Nat) (p : Proc) : (putProc s w p).launches = s.launches := rfl
@[simp] theorem putProc_collStarts (s : State) (w : Nat) (p : Proc) : (putProc s w p).collStarts = s.collStarts := rfl
@[simp] theorem putProc_collOps (s : State) (w : Nat) (p : Proc) : (putProc s w p).collOps = s.collOps := rfl
@[simp] theorem putProc_collFixed (s : State) (w : Nat) (p : Proc) : (putProc s w p).collFixed = s.collFixed := rfl
@[simp] theorem putProc_collLosses (s : State) (w : Nat) (p : Proc) : (putProc s w p).collLosses = s.collLosses := rfl
@[simp] theorem putProc_detours (s : State) (w : Nat) (p : Proc) : (putProc s w p).detours = s.detours := rfl
@[simp] theorem putProc_pmc (s : State) (w : Nat) (p : Proc) : (putProc s w p).pmc = s.pmc := rfl
@[simp] theorem putProc_peerOut (s : State) (w : Nat) (p : Proc) : (putProc s w p).peerOut = s.peerOut := rfl
@[simp] theorem putProc_hosts (s : State) (w : Nat) (p : Proc) : (putProc s w p).hosts = s.hosts := rfl
@[simp] theorem putProc_images (s : State) (w : Nat) (p : Proc) : (putProc s w p).images = s.images := rfl
@[simp] theorem putProc_records (s : State) (w : Nat) (p : Proc) : (putProc s w p).records = s.records := rfl
@[simp] theorem putProc_time (s : State) (w : Nat) (p : Proc) : (putProc s w p).time = s.time := rfl
@[simp] theorem putProc_clocks (s : State) (w : Nat) (p : Proc) : (putProc s w p).clocks = s.clocks := rfl
@[simp] theorem putProc_order (s : State) (w : Nat) (p : Proc) : (putProc s w p).order = s.order := rfl
@[simp] theorem putProc_nonce (s : State) (w : Nat) (p : Proc) : (putProc s w p).nonce = s.nonce := rfl
@[simp] theorem putProc_decs (s : State) (w : Nat) (p : Proc) : (putProc s w p).decs = s.decs := rfl
@[simp] theorem putProc_turns (s : State) (w : Nat) (p : Proc) : (putProc s w p).turns = s.turns := rfl
@[simp] theorem putProc_cur (s : State) (w : Nat) (p : Proc) : (putProc s w p).cur = s.cur := rfl
@[simp] theorem putProc_agenda (s : State) (w : Nat) (p : Proc) : (putProc s w p).agenda = s.agenda := rfl
@[simp] theorem putProc_yielded (s : State) (w : Nat) (p : Proc) : (putProc s w p).yielded = s.yielded := rfl

/-! ### modWq -/

@[simp] theorem modWq_mem (s : State) (q : Nat) (f : WorkQueue → WorkQueue) : (modWq s q f).mem = s.mem := rfl
@[simp] theorem modWq_full (s : State) (q : Nat) (f : WorkQueue → WorkQueue) : (modWq s q f).full = s.full := rfl
@[simp] theorem modWq_bad (s : State) (q : Nat) (f : WorkQueue → WorkQueue) : (modWq s q f).bad = s.bad := rfl
@[simp] theorem modWq_weak (s : State) (q : Nat) (f : WorkQueue → WorkQueue) : (modWq s q f).weak = s.weak := rfl
@[simp] theorem modWq_rels (s : State) (q : Nat) (f : WorkQueue → WorkQueue) : (modWq s q f).rels = s.rels := rfl
@[simp] theorem modWq_jobOld (s : State) (q : Nat) (f : WorkQueue → WorkQueue) : (modWq s q f).jobOld = s.jobOld := rfl
@[simp] theorem modWq_chanWords (s : State) (q : Nat) (f : WorkQueue → WorkQueue) : (modWq s q f).chanWords = s.chanWords := rfl
@[simp] theorem modWq_mapPages (s : State) (q : Nat) (f : WorkQueue → WorkQueue) : (modWq s q f).mapPages = s.mapPages := rfl
@[simp] theorem modWq_stackCe (s : State) (q : Nat) (f : WorkQueue → WorkQueue) : (modWq s q f).stackCe = s.stackCe := rfl
@[simp] theorem modWq_holeSites (s : State) (q : Nat) (f : WorkQueue → WorkQueue) : (modWq s q f).holeSites = s.holeSites := rfl
@[simp] theorem modWq_holeSegs (s : State) (q : Nat) (f : WorkQueue → WorkQueue) : (modWq s q f).holeSegs = s.holeSegs := rfl
@[simp] theorem modWq_cores (s : State) (q : Nat) (f : WorkQueue → WorkQueue) : (modWq s q f).cores = s.cores := rfl
@[simp] theorem modWq_procs (s : State) (q : Nat) (f : WorkQueue → WorkQueue) : (modWq s q f).procs = s.procs := rfl
@[simp] theorem modWq_tiles (s : State) (q : Nat) (f : WorkQueue → WorkQueue) : (modWq s q f).tiles = s.tiles := rfl
@[simp] theorem modWq_segs (s : State) (q : Nat) (f : WorkQueue → WorkQueue) : (modWq s q f).segs = s.segs := rfl
@[simp] theorem modWq_sites (s : State) (q : Nat) (f : WorkQueue → WorkQueue) : (modWq s q f).sites = s.sites := rfl
@[simp] theorem modWq_queues (s : State) (q : Nat) (f : WorkQueue → WorkQueue) : (modWq s q f).queues = s.queues := rfl
@[simp] theorem modWq_regions (s : State) (q : Nat) (f : WorkQueue → WorkQueue) : (modWq s q f).regions = s.regions := rfl
@[simp] theorem modWq_areas (s : State) (q : Nat) (f : WorkQueue → WorkQueue) : (modWq s q f).areas = s.areas := rfl
@[simp] theorem modWq_selects (s : State) (q : Nat) (f : WorkQueue → WorkQueue) : (modWq s q f).selects = s.selects := rfl
@[simp] theorem modWq_transfers (s : State) (q : Nat) (f : WorkQueue → WorkQueue) : (modWq s q f).transfers = s.transfers := rfl
@[simp] theorem modWq_msgs (s : State) (q : Nat) (f : WorkQueue → WorkQueue) : (modWq s q f).msgs = s.msgs := rfl
@[simp] theorem modWq_l2 (s : State) (q : Nat) (f : WorkQueue → WorkQueue) : (modWq s q f).l2 = s.l2 := rfl
@[simp] theorem modWq_watchrooms (s : State) (q : Nat) (f : WorkQueue → WorkQueue) : (modWq s q f).watchrooms = s.watchrooms := rfl
@[simp] theorem modWq_workQueues (s : State) (q : Nat) (f : WorkQueue → WorkQueue) : (modWq s q f).workQueues = amSet s.workQueues q (f (getWq s q)) := rfl
@[simp] theorem modWq_launches (s : State) (q : Nat) (f : WorkQueue → WorkQueue) : (modWq s q f).launches = s.launches := rfl
@[simp] theorem modWq_collStarts (s : State) (q : Nat) (f : WorkQueue → WorkQueue) : (modWq s q f).collStarts = s.collStarts := rfl
@[simp] theorem modWq_collOps (s : State) (q : Nat) (f : WorkQueue → WorkQueue) : (modWq s q f).collOps = s.collOps := rfl
@[simp] theorem modWq_collFixed (s : State) (q : Nat) (f : WorkQueue → WorkQueue) : (modWq s q f).collFixed = s.collFixed := rfl
@[simp] theorem modWq_collLosses (s : State) (q : Nat) (f : WorkQueue → WorkQueue) : (modWq s q f).collLosses = s.collLosses := rfl
@[simp] theorem modWq_detours (s : State) (q : Nat) (f : WorkQueue → WorkQueue) : (modWq s q f).detours = s.detours := rfl
@[simp] theorem modWq_pmc (s : State) (q : Nat) (f : WorkQueue → WorkQueue) : (modWq s q f).pmc = s.pmc := rfl
@[simp] theorem modWq_peerOut (s : State) (q : Nat) (f : WorkQueue → WorkQueue) : (modWq s q f).peerOut = s.peerOut := rfl
@[simp] theorem modWq_hosts (s : State) (q : Nat) (f : WorkQueue → WorkQueue) : (modWq s q f).hosts = s.hosts := rfl
@[simp] theorem modWq_images (s : State) (q : Nat) (f : WorkQueue → WorkQueue) : (modWq s q f).images = s.images := rfl
@[simp] theorem modWq_records (s : State) (q : Nat) (f : WorkQueue → WorkQueue) : (modWq s q f).records = s.records := rfl
@[simp] theorem modWq_time (s : State) (q : Nat) (f : WorkQueue → WorkQueue) : (modWq s q f).time = s.time := rfl
@[simp] theorem modWq_clocks (s : State) (q : Nat) (f : WorkQueue → WorkQueue) : (modWq s q f).clocks = s.clocks := rfl
@[simp] theorem modWq_order (s : State) (q : Nat) (f : WorkQueue → WorkQueue) : (modWq s q f).order = s.order := rfl
@[simp] theorem modWq_nonce (s : State) (q : Nat) (f : WorkQueue → WorkQueue) : (modWq s q f).nonce = s.nonce := rfl
@[simp] theorem modWq_decs (s : State) (q : Nat) (f : WorkQueue → WorkQueue) : (modWq s q f).decs = s.decs := rfl
@[simp] theorem modWq_turns (s : State) (q : Nat) (f : WorkQueue → WorkQueue) : (modWq s q f).turns = s.turns := rfl
@[simp] theorem modWq_cur (s : State) (q : Nat) (f : WorkQueue → WorkQueue) : (modWq s q f).cur = s.cur := rfl
@[simp] theorem modWq_agenda (s : State) (q : Nat) (f : WorkQueue → WorkQueue) : (modWq s q f).agenda = s.agenda := rfl
@[simp] theorem modWq_yielded (s : State) (q : Nat) (f : WorkQueue → WorkQueue) : (modWq s q f).yielded = s.yielded := rfl

/-! ### modWatchroom -/

@[simp] theorem modWatchroom_mem (s : State) (w : Nat) (f : Watchroom → Watchroom) : (modWatchroom s w f).mem = s.mem := rfl
@[simp] theorem modWatchroom_full (s : State) (w : Nat) (f : Watchroom → Watchroom) : (modWatchroom s w f).full = s.full := rfl
@[simp] theorem modWatchroom_bad (s : State) (w : Nat) (f : Watchroom → Watchroom) : (modWatchroom s w f).bad = s.bad := rfl
@[simp] theorem modWatchroom_weak (s : State) (w : Nat) (f : Watchroom → Watchroom) : (modWatchroom s w f).weak = s.weak := rfl
@[simp] theorem modWatchroom_rels (s : State) (w : Nat) (f : Watchroom → Watchroom) : (modWatchroom s w f).rels = s.rels := rfl
@[simp] theorem modWatchroom_jobOld (s : State) (w : Nat) (f : Watchroom → Watchroom) : (modWatchroom s w f).jobOld = s.jobOld := rfl
@[simp] theorem modWatchroom_chanWords (s : State) (w : Nat) (f : Watchroom → Watchroom) : (modWatchroom s w f).chanWords = s.chanWords := rfl
@[simp] theorem modWatchroom_mapPages (s : State) (w : Nat) (f : Watchroom → Watchroom) : (modWatchroom s w f).mapPages = s.mapPages := rfl
@[simp] theorem modWatchroom_stackCe (s : State) (w : Nat) (f : Watchroom → Watchroom) : (modWatchroom s w f).stackCe = s.stackCe := rfl
@[simp] theorem modWatchroom_holeSites (s : State) (w : Nat) (f : Watchroom → Watchroom) : (modWatchroom s w f).holeSites = s.holeSites := rfl
@[simp] theorem modWatchroom_holeSegs (s : State) (w : Nat) (f : Watchroom → Watchroom) : (modWatchroom s w f).holeSegs = s.holeSegs := rfl
@[simp] theorem modWatchroom_cores (s : State) (w : Nat) (f : Watchroom → Watchroom) : (modWatchroom s w f).cores = s.cores := rfl
@[simp] theorem modWatchroom_procs (s : State) (w : Nat) (f : Watchroom → Watchroom) : (modWatchroom s w f).procs = s.procs := rfl
@[simp] theorem modWatchroom_tiles (s : State) (w : Nat) (f : Watchroom → Watchroom) : (modWatchroom s w f).tiles = s.tiles := rfl
@[simp] theorem modWatchroom_segs (s : State) (w : Nat) (f : Watchroom → Watchroom) : (modWatchroom s w f).segs = s.segs := rfl
@[simp] theorem modWatchroom_sites (s : State) (w : Nat) (f : Watchroom → Watchroom) : (modWatchroom s w f).sites = s.sites := rfl
@[simp] theorem modWatchroom_queues (s : State) (w : Nat) (f : Watchroom → Watchroom) : (modWatchroom s w f).queues = s.queues := rfl
@[simp] theorem modWatchroom_regions (s : State) (w : Nat) (f : Watchroom → Watchroom) : (modWatchroom s w f).regions = s.regions := rfl
@[simp] theorem modWatchroom_areas (s : State) (w : Nat) (f : Watchroom → Watchroom) : (modWatchroom s w f).areas = s.areas := rfl
@[simp] theorem modWatchroom_selects (s : State) (w : Nat) (f : Watchroom → Watchroom) : (modWatchroom s w f).selects = s.selects := rfl
@[simp] theorem modWatchroom_transfers (s : State) (w : Nat) (f : Watchroom → Watchroom) : (modWatchroom s w f).transfers = s.transfers := rfl
@[simp] theorem modWatchroom_msgs (s : State) (w : Nat) (f : Watchroom → Watchroom) : (modWatchroom s w f).msgs = s.msgs := rfl
@[simp] theorem modWatchroom_l2 (s : State) (w : Nat) (f : Watchroom → Watchroom) : (modWatchroom s w f).l2 = s.l2 := rfl
@[simp] theorem modWatchroom_watchrooms (s : State) (w : Nat) (f : Watchroom → Watchroom) : (modWatchroom s w f).watchrooms = amSet s.watchrooms w (f (getWatchroom s w)) := rfl
@[simp] theorem modWatchroom_workQueues (s : State) (w : Nat) (f : Watchroom → Watchroom) : (modWatchroom s w f).workQueues = s.workQueues := rfl
@[simp] theorem modWatchroom_launches (s : State) (w : Nat) (f : Watchroom → Watchroom) : (modWatchroom s w f).launches = s.launches := rfl
@[simp] theorem modWatchroom_collStarts (s : State) (w : Nat) (f : Watchroom → Watchroom) : (modWatchroom s w f).collStarts = s.collStarts := rfl
@[simp] theorem modWatchroom_collOps (s : State) (w : Nat) (f : Watchroom → Watchroom) : (modWatchroom s w f).collOps = s.collOps := rfl
@[simp] theorem modWatchroom_collFixed (s : State) (w : Nat) (f : Watchroom → Watchroom) : (modWatchroom s w f).collFixed = s.collFixed := rfl
@[simp] theorem modWatchroom_collLosses (s : State) (w : Nat) (f : Watchroom → Watchroom) : (modWatchroom s w f).collLosses = s.collLosses := rfl
@[simp] theorem modWatchroom_detours (s : State) (w : Nat) (f : Watchroom → Watchroom) : (modWatchroom s w f).detours = s.detours := rfl
@[simp] theorem modWatchroom_pmc (s : State) (w : Nat) (f : Watchroom → Watchroom) : (modWatchroom s w f).pmc = s.pmc := rfl
@[simp] theorem modWatchroom_peerOut (s : State) (w : Nat) (f : Watchroom → Watchroom) : (modWatchroom s w f).peerOut = s.peerOut := rfl
@[simp] theorem modWatchroom_hosts (s : State) (w : Nat) (f : Watchroom → Watchroom) : (modWatchroom s w f).hosts = s.hosts := rfl
@[simp] theorem modWatchroom_images (s : State) (w : Nat) (f : Watchroom → Watchroom) : (modWatchroom s w f).images = s.images := rfl
@[simp] theorem modWatchroom_records (s : State) (w : Nat) (f : Watchroom → Watchroom) : (modWatchroom s w f).records = s.records := rfl
@[simp] theorem modWatchroom_time (s : State) (w : Nat) (f : Watchroom → Watchroom) : (modWatchroom s w f).time = s.time := rfl
@[simp] theorem modWatchroom_clocks (s : State) (w : Nat) (f : Watchroom → Watchroom) : (modWatchroom s w f).clocks = s.clocks := rfl
@[simp] theorem modWatchroom_order (s : State) (w : Nat) (f : Watchroom → Watchroom) : (modWatchroom s w f).order = s.order := rfl
@[simp] theorem modWatchroom_nonce (s : State) (w : Nat) (f : Watchroom → Watchroom) : (modWatchroom s w f).nonce = s.nonce := rfl
@[simp] theorem modWatchroom_decs (s : State) (w : Nat) (f : Watchroom → Watchroom) : (modWatchroom s w f).decs = s.decs := rfl
@[simp] theorem modWatchroom_turns (s : State) (w : Nat) (f : Watchroom → Watchroom) : (modWatchroom s w f).turns = s.turns := rfl
@[simp] theorem modWatchroom_cur (s : State) (w : Nat) (f : Watchroom → Watchroom) : (modWatchroom s w f).cur = s.cur := rfl
@[simp] theorem modWatchroom_agenda (s : State) (w : Nat) (f : Watchroom → Watchroom) : (modWatchroom s w f).agenda = s.agenda := rfl
@[simp] theorem modWatchroom_yielded (s : State) (w : Nat) (f : Watchroom → Watchroom) : (modWatchroom s w f).yielded = s.yielded := rfl

/-! ### pushMsg -/

@[simp] theorem pushMsg_mem (s : State) (m : Msg) : (pushMsg s m).mem = s.mem := rfl
@[simp] theorem pushMsg_full (s : State) (m : Msg) : (pushMsg s m).full = s.full := rfl
@[simp] theorem pushMsg_bad (s : State) (m : Msg) : (pushMsg s m).bad = s.bad := rfl
@[simp] theorem pushMsg_weak (s : State) (m : Msg) : (pushMsg s m).weak = s.weak := rfl
@[simp] theorem pushMsg_rels (s : State) (m : Msg) : (pushMsg s m).rels = s.rels := rfl
@[simp] theorem pushMsg_jobOld (s : State) (m : Msg) : (pushMsg s m).jobOld = s.jobOld := rfl
@[simp] theorem pushMsg_chanWords (s : State) (m : Msg) : (pushMsg s m).chanWords = s.chanWords := rfl
@[simp] theorem pushMsg_mapPages (s : State) (m : Msg) : (pushMsg s m).mapPages = s.mapPages := rfl
@[simp] theorem pushMsg_stackCe (s : State) (m : Msg) : (pushMsg s m).stackCe = s.stackCe := rfl
@[simp] theorem pushMsg_holeSites (s : State) (m : Msg) : (pushMsg s m).holeSites = s.holeSites := rfl
@[simp] theorem pushMsg_holeSegs (s : State) (m : Msg) : (pushMsg s m).holeSegs = s.holeSegs := rfl
@[simp] theorem pushMsg_cores (s : State) (m : Msg) : (pushMsg s m).cores = s.cores := rfl
@[simp] theorem pushMsg_procs (s : State) (m : Msg) : (pushMsg s m).procs = s.procs := rfl
@[simp] theorem pushMsg_tiles (s : State) (m : Msg) : (pushMsg s m).tiles = s.tiles := rfl
@[simp] theorem pushMsg_segs (s : State) (m : Msg) : (pushMsg s m).segs = s.segs := rfl
@[simp] theorem pushMsg_sites (s : State) (m : Msg) : (pushMsg s m).sites = s.sites := rfl
@[simp] theorem pushMsg_queues (s : State) (m : Msg) : (pushMsg s m).queues = s.queues := rfl
@[simp] theorem pushMsg_regions (s : State) (m : Msg) : (pushMsg s m).regions = s.regions := rfl
@[simp] theorem pushMsg_areas (s : State) (m : Msg) : (pushMsg s m).areas = s.areas := rfl
@[simp] theorem pushMsg_selects (s : State) (m : Msg) : (pushMsg s m).selects = s.selects := rfl
@[simp] theorem pushMsg_transfers (s : State) (m : Msg) : (pushMsg s m).transfers = s.transfers := rfl
@[simp] theorem pushMsg_msgs (s : State) (m : Msg) : (pushMsg s m).msgs = s.msgs ++ [m] := rfl
@[simp] theorem pushMsg_l2 (s : State) (m : Msg) : (pushMsg s m).l2 = s.l2 := rfl
@[simp] theorem pushMsg_watchrooms (s : State) (m : Msg) : (pushMsg s m).watchrooms = s.watchrooms := rfl
@[simp] theorem pushMsg_workQueues (s : State) (m : Msg) : (pushMsg s m).workQueues = s.workQueues := rfl
@[simp] theorem pushMsg_launches (s : State) (m : Msg) : (pushMsg s m).launches = s.launches := rfl
@[simp] theorem pushMsg_collStarts (s : State) (m : Msg) : (pushMsg s m).collStarts = s.collStarts := rfl
@[simp] theorem pushMsg_collOps (s : State) (m : Msg) : (pushMsg s m).collOps = s.collOps := rfl
@[simp] theorem pushMsg_collFixed (s : State) (m : Msg) : (pushMsg s m).collFixed = s.collFixed := rfl
@[simp] theorem pushMsg_collLosses (s : State) (m : Msg) : (pushMsg s m).collLosses = s.collLosses := rfl
@[simp] theorem pushMsg_detours (s : State) (m : Msg) : (pushMsg s m).detours = s.detours := rfl
@[simp] theorem pushMsg_pmc (s : State) (m : Msg) : (pushMsg s m).pmc = s.pmc := rfl
@[simp] theorem pushMsg_peerOut (s : State) (m : Msg) : (pushMsg s m).peerOut = s.peerOut := rfl
@[simp] theorem pushMsg_hosts (s : State) (m : Msg) : (pushMsg s m).hosts = s.hosts := rfl
@[simp] theorem pushMsg_images (s : State) (m : Msg) : (pushMsg s m).images = s.images := rfl
@[simp] theorem pushMsg_records (s : State) (m : Msg) : (pushMsg s m).records = s.records := rfl
@[simp] theorem pushMsg_time (s : State) (m : Msg) : (pushMsg s m).time = s.time := rfl
@[simp] theorem pushMsg_clocks (s : State) (m : Msg) : (pushMsg s m).clocks = s.clocks := rfl
@[simp] theorem pushMsg_order (s : State) (m : Msg) : (pushMsg s m).order = s.order := rfl
@[simp] theorem pushMsg_nonce (s : State) (m : Msg) : (pushMsg s m).nonce = s.nonce := rfl
@[simp] theorem pushMsg_decs (s : State) (m : Msg) : (pushMsg s m).decs = s.decs := rfl
@[simp] theorem pushMsg_turns (s : State) (m : Msg) : (pushMsg s m).turns = s.turns := rfl
@[simp] theorem pushMsg_cur (s : State) (m : Msg) : (pushMsg s m).cur = s.cur := rfl
@[simp] theorem pushMsg_agenda (s : State) (m : Msg) : (pushMsg s m).agenda = s.agenda := rfl
@[simp] theorem pushMsg_yielded (s : State) (m : Msg) : (pushMsg s m).yielded = s.yielded := rfl

/-! ### tick -/

@[simp] theorem tick_mem (s : State) : (tick s).mem = s.mem := rfl
@[simp] theorem tick_full (s : State) : (tick s).full = s.full := rfl
@[simp] theorem tick_bad (s : State) : (tick s).bad = s.bad := rfl
@[simp] theorem tick_weak (s : State) : (tick s).weak = s.weak := rfl
@[simp] theorem tick_rels (s : State) : (tick s).rels = s.rels := rfl
@[simp] theorem tick_jobOld (s : State) : (tick s).jobOld = s.jobOld := rfl
@[simp] theorem tick_chanWords (s : State) : (tick s).chanWords = s.chanWords := rfl
@[simp] theorem tick_mapPages (s : State) : (tick s).mapPages = s.mapPages := rfl
@[simp] theorem tick_stackCe (s : State) : (tick s).stackCe = s.stackCe := rfl
@[simp] theorem tick_holeSites (s : State) : (tick s).holeSites = s.holeSites := rfl
@[simp] theorem tick_holeSegs (s : State) : (tick s).holeSegs = s.holeSegs := rfl
@[simp] theorem tick_cores (s : State) : (tick s).cores = s.cores := rfl
@[simp] theorem tick_procs (s : State) : (tick s).procs = s.procs := rfl
@[simp] theorem tick_tiles (s : State) : (tick s).tiles = s.tiles := rfl
@[simp] theorem tick_segs (s : State) : (tick s).segs = s.segs := rfl
@[simp] theorem tick_sites (s : State) : (tick s).sites = s.sites := rfl
@[simp] theorem tick_queues (s : State) : (tick s).queues = s.queues := rfl
@[simp] theorem tick_regions (s : State) : (tick s).regions = s.regions := rfl
@[simp] theorem tick_areas (s : State) : (tick s).areas = s.areas := rfl
@[simp] theorem tick_selects (s : State) : (tick s).selects = s.selects := rfl
@[simp] theorem tick_transfers (s : State) : (tick s).transfers = s.transfers := rfl
@[simp] theorem tick_msgs (s : State) : (tick s).msgs = s.msgs := rfl
@[simp] theorem tick_l2 (s : State) : (tick s).l2 = s.l2 := rfl
@[simp] theorem tick_watchrooms (s : State) : (tick s).watchrooms = s.watchrooms := rfl
@[simp] theorem tick_workQueues (s : State) : (tick s).workQueues = s.workQueues := rfl
@[simp] theorem tick_launches (s : State) : (tick s).launches = s.launches := rfl
@[simp] theorem tick_collStarts (s : State) : (tick s).collStarts = s.collStarts := rfl
@[simp] theorem tick_collOps (s : State) : (tick s).collOps = s.collOps := rfl
@[simp] theorem tick_collFixed (s : State) : (tick s).collFixed = s.collFixed := rfl
@[simp] theorem tick_collLosses (s : State) : (tick s).collLosses = s.collLosses := rfl
@[simp] theorem tick_detours (s : State) : (tick s).detours = s.detours := rfl
@[simp] theorem tick_pmc (s : State) : (tick s).pmc = s.pmc := rfl
@[simp] theorem tick_peerOut (s : State) : (tick s).peerOut = s.peerOut := rfl
@[simp] theorem tick_hosts (s : State) : (tick s).hosts = s.hosts := rfl
@[simp] theorem tick_images (s : State) : (tick s).images = s.images := rfl
@[simp] theorem tick_records (s : State) : (tick s).records = s.records := rfl
@[simp] theorem tick_time (s : State) : (tick s).time = s.time := rfl
@[simp] theorem tick_clocks (s : State) : (tick s).clocks = s.clocks := rfl
@[simp] theorem tick_order (s : State) : (tick s).order = s.order + 1 := rfl
@[simp] theorem tick_nonce (s : State) : (tick s).nonce = s.nonce := rfl
@[simp] theorem tick_decs (s : State) : (tick s).decs = s.decs := rfl
@[simp] theorem tick_turns (s : State) : (tick s).turns = s.turns := rfl
@[simp] theorem tick_cur (s : State) : (tick s).cur = s.cur := rfl
@[simp] theorem tick_agenda (s : State) : (tick s).agenda = s.agenda := rfl
@[simp] theorem tick_yielded (s : State) : (tick s).yielded = s.yielded := rfl

/-! ### putHw -/

@[simp] theorem putHw_mem (s : State) (a : Nat) (v : Word) : (putHw s a v).mem = memPut s.mem a 8 v.toNat := rfl
@[simp] theorem putHw_full (s : State) (a : Nat) (v : Word) : (putHw s a v).full = s.full := rfl
@[simp] theorem putHw_bad (s : State) (a : Nat) (v : Word) : (putHw s a v).bad = s.bad := rfl
@[simp] theorem putHw_weak (s : State) (a : Nat) (v : Word) : (putHw s a v).weak = s.weak := rfl
@[simp] theorem putHw_rels (s : State) (a : Nat) (v : Word) : (putHw s a v).rels = s.rels := rfl
@[simp] theorem putHw_jobOld (s : State) (a : Nat) (v : Word) : (putHw s a v).jobOld = s.jobOld := rfl
@[simp] theorem putHw_chanWords (s : State) (a : Nat) (v : Word) : (putHw s a v).chanWords = s.chanWords := rfl
@[simp] theorem putHw_mapPages (s : State) (a : Nat) (v : Word) : (putHw s a v).mapPages = s.mapPages := rfl
@[simp] theorem putHw_stackCe (s : State) (a : Nat) (v : Word) : (putHw s a v).stackCe = s.stackCe := rfl
@[simp] theorem putHw_holeSites (s : State) (a : Nat) (v : Word) : (putHw s a v).holeSites = s.holeSites := rfl
@[simp] theorem putHw_holeSegs (s : State) (a : Nat) (v : Word) : (putHw s a v).holeSegs = s.holeSegs := rfl
@[simp] theorem putHw_cores (s : State) (a : Nat) (v : Word) : (putHw s a v).cores = s.cores := rfl
@[simp] theorem putHw_procs (s : State) (a : Nat) (v : Word) : (putHw s a v).procs = s.procs := rfl
@[simp] theorem putHw_tiles (s : State) (a : Nat) (v : Word) : (putHw s a v).tiles = s.tiles := rfl
@[simp] theorem putHw_segs (s : State) (a : Nat) (v : Word) : (putHw s a v).segs = s.segs := rfl
@[simp] theorem putHw_sites (s : State) (a : Nat) (v : Word) : (putHw s a v).sites = s.sites := rfl
@[simp] theorem putHw_queues (s : State) (a : Nat) (v : Word) : (putHw s a v).queues = s.queues := rfl
@[simp] theorem putHw_regions (s : State) (a : Nat) (v : Word) : (putHw s a v).regions = s.regions := rfl
@[simp] theorem putHw_areas (s : State) (a : Nat) (v : Word) : (putHw s a v).areas = s.areas := rfl
@[simp] theorem putHw_selects (s : State) (a : Nat) (v : Word) : (putHw s a v).selects = s.selects := rfl
@[simp] theorem putHw_transfers (s : State) (a : Nat) (v : Word) : (putHw s a v).transfers = s.transfers := rfl
@[simp] theorem putHw_msgs (s : State) (a : Nat) (v : Word) : (putHw s a v).msgs = s.msgs := rfl
@[simp] theorem putHw_l2 (s : State) (a : Nat) (v : Word) : (putHw s a v).l2 = s.l2 := rfl
@[simp] theorem putHw_watchrooms (s : State) (a : Nat) (v : Word) : (putHw s a v).watchrooms = s.watchrooms := rfl
@[simp] theorem putHw_workQueues (s : State) (a : Nat) (v : Word) : (putHw s a v).workQueues = s.workQueues := rfl
@[simp] theorem putHw_launches (s : State) (a : Nat) (v : Word) : (putHw s a v).launches = s.launches := rfl
@[simp] theorem putHw_collStarts (s : State) (a : Nat) (v : Word) : (putHw s a v).collStarts = s.collStarts := rfl
@[simp] theorem putHw_collOps (s : State) (a : Nat) (v : Word) : (putHw s a v).collOps = s.collOps := rfl
@[simp] theorem putHw_collFixed (s : State) (a : Nat) (v : Word) : (putHw s a v).collFixed = s.collFixed := rfl
@[simp] theorem putHw_collLosses (s : State) (a : Nat) (v : Word) : (putHw s a v).collLosses = s.collLosses := rfl
@[simp] theorem putHw_detours (s : State) (a : Nat) (v : Word) : (putHw s a v).detours = s.detours := rfl
@[simp] theorem putHw_pmc (s : State) (a : Nat) (v : Word) : (putHw s a v).pmc = s.pmc := rfl
@[simp] theorem putHw_peerOut (s : State) (a : Nat) (v : Word) : (putHw s a v).peerOut = s.peerOut := rfl
@[simp] theorem putHw_hosts (s : State) (a : Nat) (v : Word) : (putHw s a v).hosts = s.hosts := rfl
@[simp] theorem putHw_images (s : State) (a : Nat) (v : Word) : (putHw s a v).images = s.images := rfl
@[simp] theorem putHw_records (s : State) (a : Nat) (v : Word) : (putHw s a v).records = s.records := rfl
@[simp] theorem putHw_time (s : State) (a : Nat) (v : Word) : (putHw s a v).time = s.time := rfl
@[simp] theorem putHw_clocks (s : State) (a : Nat) (v : Word) : (putHw s a v).clocks = s.clocks := rfl
@[simp] theorem putHw_order (s : State) (a : Nat) (v : Word) : (putHw s a v).order = s.order := rfl
@[simp] theorem putHw_nonce (s : State) (a : Nat) (v : Word) : (putHw s a v).nonce = s.nonce := rfl
@[simp] theorem putHw_decs (s : State) (a : Nat) (v : Word) : (putHw s a v).decs = s.decs := rfl
@[simp] theorem putHw_turns (s : State) (a : Nat) (v : Word) : (putHw s a v).turns = s.turns := rfl
@[simp] theorem putHw_cur (s : State) (a : Nat) (v : Word) : (putHw s a v).cur = s.cur := rfl
@[simp] theorem putHw_agenda (s : State) (a : Nat) (v : Word) : (putHw s a v).agenda = s.agenda := rfl
@[simp] theorem putHw_yielded (s : State) (a : Nat) (v : Word) : (putHw s a v).yielded = s.yielded := rfl

end Sys2Proof.Machine
end

