-- ==== Sys2Proof/Laws/Memory.lean ====
section
/-! SUPPORT. Laws of the sparse tables and of memory: reads after writes, and the canonical form that every memory operation
keeps. -/

namespace Sys2Proof.Machine

/-! ### Sparse tables -/

theorem amGet_amSet_self {α : Type} (m : AMap α) (k : Nat) (v : α) : amGet (amSet m k v) k = some v := by
  induction m with
  | nil => simp [amSet, amGet]
  | cons p t ih =>
    obtain ⟨j, w⟩ := p
    simp only [amSet]
    split
    · simp [amGet]
    · split
      · simp [amGet]
      · simp only [amGet]
        rw [if_neg (by omega)]
        exact ih

theorem amGet_amSet_ne {α : Type} (m : AMap α) (k j : Nat) (v : α) (h : j ≠ k) : amGet (amSet m k v) j = amGet m j := by
  induction m with
  | nil => simp [amSet, amGet, Ne.symm h]
  | cons p t ih =>
    obtain ⟨i, w⟩ := p
    simp only [amSet]
    split
    · simp [amGet, Ne.symm h]
    · split
      · rename_i hki
        subst hki
        simp [amGet, Ne.symm h]
      · simp only [amGet]
        split
        · rfl
        · exact ih

@[simp] theorem getCore_putCore_self (s : State) (c : Nat) (k : Core) : getCore (putCore s c k) c = k := by
  simp [getCore, amGet_amSet_self]

theorem getCore_putCore_ne (s : State) (c d : Nat) (k : Core) (h : d ≠ c) : getCore (putCore s c k) d = getCore s d := by
  simp [getCore, amGet_amSet_ne _ _ _ _ h]

@[simp] theorem getCore_modCore_self (s : State) (c : Nat) (f : Core → Core) : getCore (modCore s c f) c = f (getCore s c) := by
  simp [modCore]

theorem getCore_modCore_ne (s : State) (c d : Nat) (f : Core → Core) (h : d ≠ c) : getCore (modCore s c f) d = getCore s d :=
  getCore_putCore_ne s c d _ h

@[simp] theorem getTile_putTile_self (s : State) (t : Nat) (k : Tile) : getTile (putTile s t k) t = k := by
  simp [getTile, amGet_amSet_self]

theorem getTile_putTile_ne (s : State) (t u : Nat) (k : Tile) (h : u ≠ t) : getTile (putTile s t k) u = getTile s u := by
  simp [getTile, amGet_amSet_ne _ _ _ _ h]

@[simp] theorem getTile_modTile_self (s : State) (t : Nat) (f : Tile → Tile) : getTile (modTile s t f) t = f (getTile s t) := by
  simp [modTile]

@[simp] theorem getSeg_modSeg_self (s : State) (g : Nat) (f : Seg → Seg) : getSeg (modSeg s g f) g = f (getSeg s g) := by
  simp [getSeg, amGet_amSet_self]

@[simp] theorem getSite_modSite_self (s : State) (n : Nat) (f : Site → Site) : getSite (modSite s n f) n = f (getSite s n) := by
  simp [getSite, amGet_amSet_self]

@[simp] theorem getRegion_modRegion_self (s : State) (r : Nat) (f : Region → Region) :
    getRegion (modRegion s r f) r = f (getRegion s r) := by
  simp [getRegion, amGet_amSet_self]

@[simp] theorem getWq_modWq_self (s : State) (q : Nat) (f : WorkQueue → WorkQueue) : getWq (modWq s q f) q = f (getWq s q) := by
  simp [getWq, amGet_amSet_self]

/-! ### Bytes -/

theorem memGet_memDrop_self (m : Memory) (a : Nat) : memGet (memDrop m a) a = 0 := by
  induction m with
  | nil => rfl
  | cons p t ih =>
    obtain ⟨j, w⟩ := p
    simp only [memDrop, List.filter]
    split
    · rename_i h
      simp only [memGet]
      rw [if_neg (by simpa using h)]
      exact ih
    · exact ih

theorem memGet_memDrop_ne (m : Memory) (a b : Nat) (h : b ≠ a) : memGet (memDrop m a) b = memGet m b := by
  induction m with
  | nil => rfl
  | cons p t ih =>
    obtain ⟨j, w⟩ := p
    simp only [memDrop, List.filter]
    split
    · simp only [memGet]
      split
      · rfl
      · exact ih
    · rename_i hj
      have hj : j = a := by simpa using hj
      simp only [memGet]
      rw [if_neg (by omega)]
      exact ih

theorem memGet_memIns_self (m : Memory) (a : Nat) (v : Byte) : memGet (memIns m a v) a = v := by
  induction m with
  | nil => simp [memIns, memGet]
  | cons p t ih =>
    obtain ⟨j, w⟩ := p
    simp only [memIns]
    split
    · simp [memGet]
    · split
      · simp [memGet]
      · simp only [memGet]
        rw [if_neg (by omega)]
        exact ih

theorem memGet_memIns_ne (m : Memory) (a b : Nat) (v : Byte) (h : b ≠ a) : memGet (memIns m a v) b = memGet m b := by
  induction m with
  | nil => simp [memIns, memGet, Ne.symm h]
  | cons p t ih =>
    obtain ⟨j, w⟩ := p
    simp only [memIns]
    split
    · simp [memGet, Ne.symm h]
    · split
      · rename_i haj
        subst haj
        simp [memGet, Ne.symm h]
      · simp only [memGet]
        split
        · rfl
        · exact ih

theorem memGet_memSet_self (m : Memory) (a : Nat) (v : Byte) : memGet (memSet m a v) a = v := by
  simp only [memSet]
  split
  · rename_i h
    rw [h]
    exact memGet_memDrop_self m a
  · exact memGet_memIns_self m a v

theorem memGet_memSet_ne (m : Memory) (a b : Nat) (v : Byte) (h : b ≠ a) : memGet (memSet m a v) b = memGet m b := by
  simp only [memSet]
  split
  · exact memGet_memDrop_ne m a b h
  · exact memGet_memIns_ne m a b v h

/-! ### The canonical form -/

theorem memWfFrom_mono (m : Memory) (a b : Nat) (h : memWfFrom b m = true) (hab : a ≤ b) : memWfFrom a m = true := by
  cases m with
  | nil => rfl
  | cons p t =>
    obtain ⟨j, v⟩ := p
    simp only [memWfFrom, Bool.and_eq_true, decide_eq_true_eq] at h ⊢
    exact ⟨⟨by omega, h.1.2⟩, h.2⟩

theorem memWfFrom_filter (m : Memory) (lo : Nat) (p : Host.Cell → Bool) (h : memWfFrom lo m = true) :
    memWfFrom lo (m.filter p) = true := by
  induction m generalizing lo with
  | nil => rfl
  | cons q t ih =>
    obtain ⟨j, v⟩ := q
    simp only [memWfFrom, Bool.and_eq_true, decide_eq_true_eq] at h
    simp only [List.filter]
    split
    · simp only [memWfFrom, Bool.and_eq_true, decide_eq_true_eq]
      exact ⟨h.1, ih _ h.2⟩
    · exact memWfFrom_mono _ _ _ (ih _ h.2) (by omega)

/-- Removing cells keeps the canonical form. -/
@[simp] theorem memWf_filter (m : Memory) (p : Host.Cell → Bool) (h : Memory.wf m = true) : Memory.wf (m.filter p) = true :=
  memWfFrom_filter m 0 p h

theorem memWfFrom_memIns (m : Memory) (lo a : Nat) (v : Byte) (h : memWfFrom lo m = true) (ha : lo ≤ a) (hv : v ≠ 0) :
    memWfFrom lo (memIns m a v) = true := by
  induction m generalizing lo with
  | nil => simpa [memIns, memWfFrom, ha] using hv
  | cons p t ih =>
    obtain ⟨j, w⟩ := p
    simp only [memWfFrom, Bool.and_eq_true, decide_eq_true_eq] at h
    simp only [memIns]
    split
    · simp only [memWfFrom, Bool.and_eq_true, decide_eq_true_eq]
      exact ⟨⟨ha, by simpa using hv⟩, ⟨by omega, h.1.2⟩, h.2⟩
    · split
      · rename_i haj
        subst haj
        simp only [memWfFrom, Bool.and_eq_true, decide_eq_true_eq]
        exact ⟨⟨ha, by simpa using hv⟩, h.2⟩
      · simp only [memWfFrom, Bool.and_eq_true, decide_eq_true_eq]
        exact ⟨h.1, ih _ h.2 (by omega)⟩

/-- Writing a byte keeps the canonical form. -/
@[simp] theorem memWf_memSet (m : Memory) (a : Nat) (v : Byte) (h : Memory.wf m = true) : Memory.wf (memSet m a v) = true := by
  simp only [memSet]
  split
  · exact memWf_filter m _ h
  · exact memWfFrom_memIns m 0 a v h (Nat.zero_le _) ‹_›

/-- Writing bytes keeps the canonical form. -/
@[simp] theorem memWf_memPut (n : Nat) (m : Memory) (a v : Nat) (h : Memory.wf m = true) : Memory.wf (memPut m a n v) = true := by
  induction n generalizing m a v with
  | zero => exact h
  | succ n ih => exact ih _ _ _ (memWf_memSet _ _ _ h)

/-! ### Several bytes -/

theorem memGet_memPut_out (n : Nat) (m : Memory) (a v b : Nat) (h : b < a ∨ a + n ≤ b) : memGet (memPut m a n v) b = memGet m b := by
  induction n generalizing m a v with
  | zero => rfl
  | succ n ih =>
    simp only [memPut]
    rw [ih _ _ _ (by omega), memGet_memSet_ne _ _ _ _ (by omega)]

theorem memLE_memPut_out (k n : Nat) (m : Memory) (a v b : Nat) (h : b + k ≤ a ∨ a + n ≤ b) :
    memLE (memPut m a n v) b k = memLE m b k := by
  induction k generalizing b with
  | zero => rfl
  | succ k ih =>
    simp only [memLE]
    rw [memGet_memPut_out _ _ _ _ _ (by omega), ih _ (by omega)]

/-- The bytes written are read back. -/
theorem memLE_memPut_self (n : Nat) (m : Memory) (a v : Nat) : memLE (memPut m a n v) a n = v % 256 ^ n := by
  induction n generalizing m a v with
  | zero => simp [memLE, Nat.mod_one]
  | succ n ih =>
    simp only [memPut, memLE]
    rw [memGet_memPut_out _ _ _ _ _ (by omega), memGet_memSet_self, ih]
    rw [BitVec.toNat_ofNat, show (256 : Nat) ^ (n + 1) = 256 * 256 ^ n from Nat.pow_succ', Nat.mod_mul]

end Sys2Proof.Machine
end

