-- ==== Sys2Proof/Laws/PerInstr.lean ====
section
/-! SUPPORT. Per instruction: no instruction has two encodings, one as a scalar word and one as a command. -/

namespace Sys2Proof.Laws.OneEncoding

/-- The instruction is not encoded both as a scalar word and as a command (R24, R42). -/
def Statement (i : Instr) : Prop := encodeWord i = none ∨ encodeCmd i = none

theorem add (d) (a) (b) : Statement (.add d a b) := .inr rfl
theorem sub (d) (a) (b) : Statement (.sub d a b) := .inr rfl
theorem and (d) (a) (b) : Statement (.and d a b) := .inr rfl
theorem or (d) (a) (b) : Statement (.or d a b) := .inr rfl
theorem xor (d) (a) (b) : Statement (.xor d a b) := .inr rfl
theorem andn (d) (a) (b) : Statement (.andn d a b) := .inr rfl
theorem orn (d) (a) (b) : Statement (.orn d a b) := .inr rfl
theorem sll (d) (a) (b) : Statement (.sll d a b) := .inr rfl
theorem srl (d) (a) (b) : Statement (.srl d a b) := .inr rfl
theorem sra (d) (a) (b) : Statement (.sra d a b) := .inr rfl
theorem slt (d) (a) (b) : Statement (.slt d a b) := .inr rfl
theorem sltu (d) (a) (b) : Statement (.sltu d a b) := .inr rfl
theorem min (d) (a) (b) : Statement (.min d a b) := .inr rfl
theorem max (d) (a) (b) : Statement (.max d a b) := .inr rfl
theorem minu (d) (a) (b) : Statement (.minu d a b) := .inr rfl
theorem maxu (d) (a) (b) : Statement (.maxu d a b) := .inr rfl
theorem addw (d) (a) (b) : Statement (.addw d a b) := .inr rfl
theorem subw (d) (a) (b) : Statement (.subw d a b) := .inr rfl
theorem sllw (d) (a) (b) : Statement (.sllw d a b) := .inr rfl
theorem srlw (d) (a) (b) : Statement (.srlw d a b) := .inr rfl
theorem sraw (d) (a) (b) : Statement (.sraw d a b) := .inr rfl
theorem clz (d) (a) : Statement (.clz d a) := .inr rfl
theorem ctz (d) (a) : Statement (.ctz d a) := .inr rfl
theorem popc (d) (a) : Statement (.popc d a) := .inr rfl
theorem sext (d) (a) (x) : Statement (.sext d a x) := .inr rfl
theorem zext (d) (a) (x) : Statement (.zext d a x) := .inr rfl
theorem brev (d) (a) : Statement (.brev d a) := .inr rfl
theorem addi (d) (a) (imm) : Statement (.addi d a imm) := .inr rfl
theorem andi (d) (a) (imm) : Statement (.andi d a imm) := .inr rfl
theorem ori (d) (a) (imm) : Statement (.ori d a imm) := .inr rfl
theorem xori (d) (a) (imm) : Statement (.xori d a imm) := .inr rfl
theorem slti (d) (a) (imm) : Statement (.slti d a imm) := .inr rfl
theorem sltiu (d) (a) (imm) : Statement (.sltiu d a imm) := .inr rfl
theorem addiw (d) (a) (imm) : Statement (.addiw d a imm) := .inr rfl
theorem slli (d) (a) (sh) : Statement (.slli d a sh) := .inr rfl
theorem srli (d) (a) (sh) : Statement (.srli d a sh) := .inr rfl
theorem srai (d) (a) (sh) : Statement (.srai d a sh) := .inr rfl
theorem lui (d) (imm) : Statement (.lui d imm) := .inr rfl
theorem auipc (d) (imm) : Statement (.auipc d imm) := .inr rfl
theorem mul (d) (a) (b) : Statement (.mul d a b) := .inr rfl
theorem mulh (d) (a) (b) : Statement (.mulh d a b) := .inr rfl
theorem mulhu (d) (a) (b) : Statement (.mulhu d a b) := .inr rfl
theorem mulhsu (d) (a) (b) : Statement (.mulhsu d a b) := .inr rfl
theorem div (d) (a) (b) : Statement (.div d a b) := .inr rfl
theorem divu (d) (a) (b) : Statement (.divu d a b) := .inr rfl
theorem rem (d) (a) (b) : Statement (.rem d a b) := .inr rfl
theorem remu (d) (a) (b) : Statement (.remu d a b) := .inr rfl
theorem beq (a) (b) (off) : Statement (.beq a b off) := .inr rfl
theorem bne (a) (b) (off) : Statement (.bne a b off) := .inr rfl
theorem blt (a) (b) (off) : Statement (.blt a b off) := .inr rfl
theorem bge (a) (b) (off) : Statement (.bge a b off) := .inr rfl
theorem bltu (a) (b) (off) : Statement (.bltu a b off) := .inr rfl
theorem bgeu (a) (b) (off) : Statement (.bgeu a b off) := .inr rfl
theorem jal (d) (off) : Statement (.jal d off) := .inr rfl
theorem jalr (d) (a) (imm) : Statement (.jalr d a imm) := .inr rfl
theorem ld (d) (a) (sz) (off) : Statement (.ld d a sz off) := .inr rfl
theorem ldAcq (d) (a) (sz) (off) : Statement (.ldAcq d a sz off) := .inr rfl
theorem ldu (d) (a) (sz) (off) : Statement (.ldu d a sz off) := .inr rfl
theorem lduAcq (d) (a) (sz) (off) : Statement (.lduAcq d a sz off) := .inr rfl
theorem st (d) (a) (sz) (off) : Statement (.st d a sz off) := .inr rfl
theorem stRel (d) (a) (sz) (off) : Statement (.stRel d a sz off) := .inr rfl
theorem ldf (d) (a) : Statement (.ldf d a) := .inr rfl
theorem stf (a) (b) : Statement (.stf a b) := .inr rfl
theorem sete (a) : Statement (.sete a) := .inr rfl
theorem waita (d) (a) (b) (x) : Statement (.waita d a b x) := .inr rfl
theorem amoSwap (f) : Statement (.amoSwap f) := .inr rfl
theorem amoAdd (f) : Statement (.amoAdd f) := .inr rfl
theorem amoAnd (f) : Statement (.amoAnd f) := .inr rfl
theorem amoOr (f) : Statement (.amoOr f) := .inr rfl
theorem amoXor (f) : Statement (.amoXor f) := .inr rfl
theorem amoMin (f) : Statement (.amoMin f) := .inr rfl
theorem amoMax (f) : Statement (.amoMax f) := .inr rfl
theorem amoMinu (f) : Statement (.amoMinu f) := .inr rfl
theorem amoMaxu (f) : Statement (.amoMaxu f) := .inr rfl
theorem amoCas (f) (x) : Statement (.amoCas f x) := .inr rfl
theorem fenceAcq (scope) : Statement (.fenceAcq scope) := .inr rfl
theorem fenceRel (scope) : Statement (.fenceRel scope) := .inr rfl
theorem fenceFull (scope) : Statement (.fenceFull scope) := .inr rfl
theorem hld (d) (a) (sz) : Statement (.hld d a sz) := .inr rfl
theorem hst (a) (b) (sz) : Statement (.hst a b sz) := .inr rfl
theorem fadd (p) (d) (a) (b) : Statement (.fadd p d a b) := .inr rfl
theorem fsub (p) (d) (a) (b) : Statement (.fsub p d a b) := .inr rfl
theorem fmul (p) (d) (a) (b) : Statement (.fmul p d a b) := .inr rfl
theorem fdiv (p) (d) (a) (b) : Statement (.fdiv p d a b) := .inr rfl
theorem fsqrt (p) (d) (a) : Statement (.fsqrt p d a) := .inr rfl
theorem fmin (p) (d) (a) (b) : Statement (.fmin p d a b) := .inr rfl
theorem fmax (p) (d) (a) (b) : Statement (.fmax p d a b) := .inr rfl
theorem fsgnj (p) (d) (a) (b) : Statement (.fsgnj p d a b) := .inr rfl
theorem fsgnjn (p) (d) (a) (b) : Statement (.fsgnjn p d a b) := .inr rfl
theorem feq (p) (d) (a) (b) : Statement (.feq p d a b) := .inr rfl
theorem flt (p) (d) (a) (b) : Statement (.flt p d a b) := .inr rfl
theorem fle (p) (d) (a) (b) : Statement (.fle p d a b) := .inr rfl
theorem fclass (p) (d) (a) : Statement (.fclass p d a) := .inr rfl
theorem fcvtI (p) (d) (a) (ty) (rm) : Statement (.fcvtI p d a ty rm) := .inr rfl
theorem fcvtF (p) (d) (a) (ty) : Statement (.fcvtF p d a ty) := .inr rfl
theorem fcvtSd (p) (d) (a) : Statement (.fcvtSd p d a) := .inr rfl
theorem fmadd (p) (d) (a) (b) (x) : Statement (.fmadd p d a b x) := .inr rfl
theorem fmsub (p) (d) (a) (b) (x) : Statement (.fmsub p d a b x) := .inr rfl
theorem fnmadd (p) (d) (a) (b) (x) : Statement (.fnmadd p d a b x) := .inr rfl
theorem fnmsub (p) (d) (a) (b) (x) : Statement (.fnmsub p d a b x) := .inr rfl
theorem spawn (d) (a) (b) : Statement (.spawn d a b) := .inr rfl
theorem spawna (d) (a) : Statement (.spawna d a) := .inr rfl
theorem endp : Statement (.endp) := .inr rfl
theorem yield : Statement (.yield) := .inr rfl
theorem join (a) : Statement (.join a) := .inr rfl
theorem prio (d) (a) : Statement (.prio d a) := .inr rfl
theorem migrate (d) (a) (b) : Statement (.migrate d a b) := .inr rfl
theorem self (d) (a) : Statement (.self d a) := .inr rfl
theorem rgnnew (d) (a) : Statement (.rgnnew d a) := .inr rfl
theorem rgnend (d) (a) : Statement (.rgnend d a) := .inr rfl
theorem bar (d) : Statement (.bar d) := .inr rfl
theorem barck (d) : Statement (.barck d) := .inr rfl
theorem chanOut (d) (a) (b) : Statement (.chanOut d a b) := .inr rfl
theorem chanIn (d) (a) (b) : Statement (.chanIn d a b) := .inr rfl
theorem outw (d) (a) (b) : Statement (.outw d a b) := .inr rfl
theorem inw (d) (a) : Statement (.inw d a) := .inr rfl
theorem sel (d) (a) (b) : Statement (.sel d a b) := .inr rfl
theorem selF (d) (a) (b) : Statement (.selF d a b) := .inr rfl
theorem chinit (d) (a) (b) : Statement (.chinit d a b) := .inr rfl
theorem chclr (d) (a) : Statement (.chclr d a) := .inr rfl
theorem rbinit (d) (a) : Statement (.rbinit d a) := .inr rfl
theorem rbclaim (d) (a) (b) : Statement (.rbclaim d a b) := .inr rfl
theorem rbclaimNb (d) (a) (b) : Statement (.rbclaimNb d a b) := .inr rfl
theorem rbcommit (a) (b) : Statement (.rbcommit a b) := .inr rfl
theorem rbawait (d) (a) : Statement (.rbawait d a) := .inr rfl
theorem rbawaitNb (d) (a) : Statement (.rbawaitNb d a) := .inr rfl
theorem rbretire (a) (b) : Statement (.rbretire a b) := .inr rfl
theorem rbpeek (d) (a) (b) : Statement (.rbpeek d a b) := .inr rfl
theorem enq (d) (a) (b) : Statement (.enq d a b) := .inr rfl
theorem jwait (d) (a) : Statement (.jwait d a) := .inr rfl
theorem jpoll (d) (a) : Statement (.jpoll d a) := .inr rfl
theorem jdrop (d) (a) : Statement (.jdrop d a) := .inr rfl
theorem acfg (d) (a) : Statement (.acfg d a) := .inr rfl
theorem apf (a) : Statement (.apf a) := .inr rfl
theorem ard (d) (a) : Statement (.ard d a) := .inr rfl
theorem awr (a) (b) : Statement (.awr a b) := .inr rfl
theorem aclr (a) : Statement (.aclr a) := .inr rfl
theorem csrr (d) (csr) : Statement (.csrr d csr) := .inr rfl
theorem csrw (d) (a) (csr) : Statement (.csrw d a csr) := .inr rfl
theorem csrs (d) (a) (csr) : Statement (.csrs d a csr) := .inr rfl
theorem csrc (d) (a) (csr) : Statement (.csrc d a csr) := .inr rfl
theorem tkreq (d) (a) : Statement (.tkreq d a) := .inr rfl
theorem tkrel (d) : Statement (.tkrel d) := .inr rfl
theorem tkstat (d) : Statement (.tkstat d) := .inr rfl
theorem kmap (d) (a) (b) : Statement (.kmap d a b) := .inr rfl
theorem kunmap (d) (a) (b) : Statement (.kunmap d a b) := .inr rfl
theorem ksplice (d) (a) (b) : Statement (.ksplice d a b) := .inr rfl
theorem ktag (d) (a) (b) : Statement (.ktag d a b) := .inr rfl
theorem krepair (a) (b) : Statement (.krepair a b) := .inr rfl
theorem krdone (a) (b) : Statement (.krdone a b) := .inr rfl
theorem cgjoin (d) (a) (b) : Statement (.cgjoin d a b) := .inr rfl
theorem cgleave (d) (a) (b) : Statement (.cgleave d a b) := .inr rfl
theorem cgstat (d) (a) (b) : Statement (.cgstat d a b) := .inr rfl
theorem plxl (d) (a) : Statement (.plxl d a) := .inr rfl
theorem trap (a) : Statement (.trap a) := .inr rfl
theorem brk : Statement (.brk) := .inr rfl
theorem wfi : Statement (.wfi) := .inr rfl
theorem resume (d) (a) (b) : Statement (.resume d a b) := .inr rfl
theorem killp (d) (a) : Statement (.killp d a) := .inr rfl
theorem jrnl (d) (a) (b) : Statement (.jrnl d a b) := .inr rfl
theorem rgnsusp (d) (a) : Statement (.rgnsusp d a) := .inr rfl
theorem rgnresm (d) (a) : Statement (.rgnresm d a) := .inr rfl
theorem cpy (env) (c) : Statement (.cpy env c) := .inl rfl
theorem cpy2 (env) (c) : Statement (.cpy2 env c) := .inl rfl
theorem gath (env) (c) : Statement (.gath env c) := .inl rfl
theorem scat (env) (c) : Statement (.scat env c) := .inl rfl
theorem fill (env) (c) : Statement (.fill env c) := .inl rfl
theorem callr (env) (c) : Statement (.callr env c) := .inl rfl
theorem cagth (env) (c) : Statement (.cagth env c) := .inl rfl
theorem crsct (env) (c) : Statement (.crsct env c) := .inl rfl
theorem mma (env) (c) : Statement (.mma env c) := .inl rfl
theorem mmap (env) (c) : Statement (.mmap env c) := .inl rfl
theorem bload (env) (c) : Statement (.bload env c) := .inl rfl
theorem mred (env) (c) : Statement (.mred env c) := .inl rfl
theorem spmm (env) (c) : Statement (.spmm env c) := .inl rfl
theorem sddmm (env) (c) : Statement (.sddmm env c) := .inl rfl
theorem spgath (env) (c) : Statement (.spgath env c) := .inl rfl
theorem segred (env) (c) : Statement (.segred env c) := .inl rfl
theorem sortkv (env) (c) : Statement (.sortkv env c) := .inl rfl
theorem topk (env) (c) : Statement (.topk env c) := .inl rfl
theorem attn (env) (c) : Statement (.attn env c) := .inl rfl
theorem adec (env) (c) : Statement (.adec env c) := .inl rfl
theorem kvapp (env) (c) : Statement (.kvapp env c) := .inl rfl
theorem kvdev (env) (c) : Statement (.kvdev env c) := .inl rfl
theorem arot (env) (c) : Statement (.arot env c) := .inl rfl
theorem vbin (env) (c) : Statement (.vbin env c) := .inl rfl
theorem vun (env) (c) : Statement (.vun env c) := .inl rfl
theorem vfma (env) (c) : Statement (.vfma env c) := .inl rfl
theorem vred (env) (c) : Statement (.vred env c) := .inl rfl
theorem vscan (env) (c) : Statement (.vscan env c) := .inl rfl
theorem vcvt (env) (c) : Statement (.vcvt env c) := .inl rfl
theorem vsel (env) (c) : Statement (.vsel env c) := .inl rfl
theorem vnorm (env) (c) : Statement (.vnorm env c) := .inl rfl
theorem vtrn (env) (c) : Statement (.vtrn env c) := .inl rfl
theorem vidx (env) (c) : Statement (.vidx env c) := .inl rfl
theorem illop (word) : Statement (.illop word) := .inr rfl
theorem fetchFault (target) : Statement (.fetchFault target) := .inr rfl
theorem granuleIssue (tile) (q) (slot) : Statement (.granuleIssue tile q slot) := .inr rfl
theorem granuleBoundary (tile) (q) (slot) : Statement (.granuleBoundary tile q slot) := .inr rfl
theorem jobResume (tile) (q) : Statement (.jobResume tile q) := .inr rfl
theorem jobDone (tile) (q) (slot) : Statement (.jobDone tile q slot) := .inr rfl
theorem channelStep (k) : Statement (.channelStep k) := .inr rfl
theorem claimRetry (k) : Statement (.claimRetry k) := .inr rfl
theorem channelTransferDone (k) : Statement (.channelTransferDone k) := .inr rfl
theorem selectDeadline (wptr) : Statement (.selectDeadline wptr) := .inr rfl
theorem foghornProbeSend (wptr) : Statement (.foghornProbeSend wptr) := .inr rfl
theorem foghornProbeHop (k) : Statement (.foghornProbeHop k) := .inr rfl
theorem foghornConfirm (k) : Statement (.foghornConfirm k) := .inr rfl
theorem regionStall (rcb) : Statement (.regionStall rcb) := .inr rfl
theorem spawnArrival (k) : Statement (.spawnArrival k) := .inr rfl
theorem migrateArrival (k) : Statement (.migrateArrival k) := .inr rfl
theorem dispatch (core) : Statement (.dispatch core) := .inr rfl
theorem timesliceExpiry (core) : Statement (.timesliceExpiry core) := .inr rfl
theorem wfiWake (core) : Statement (.wfiWake core) := .inr rfl
theorem watchNotice (k) : Statement (.watchNotice k) := .inr rfl
theorem waitaDeadline (wptr) : Statement (.waitaDeadline wptr) := .inr rfl
theorem storeLeavesBuffer (core) : Statement (.storeLeavesBuffer core) := .inr rfl
theorem postedStoreArrival (k) : Statement (.postedStoreArrival k) := .inr rfl
theorem postedStoreAck (k) : Statement (.postedStoreAck k) := .inr rfl
theorem postedStoreRefusal (k) : Statement (.postedStoreRefusal k) := .inr rfl
theorem asyncTrapDelivery (wptr) : Statement (.asyncTrapDelivery wptr) := .inr rfl
theorem trapRecordOffer (tile) : Statement (.trapRecordOffer tile) := .inr rfl
theorem spillRetry (k) : Statement (.spillRetry k) := .inr rfl
theorem pageFaultMessage (k) : Statement (.pageFaultMessage k) := .inr rfl
theorem faultMessageResend (k) : Statement (.faultMessageResend k) := .inr rfl
theorem shootdownComplete (seg) : Statement (.shootdownComplete seg) := .inr rfl
theorem deviceRegWrite (core) : Statement (.deviceRegWrite core) := .inr rfl
theorem launchRecord (q) (status) : Statement (.launchRecord q status) := .inr rfl
theorem launchCompletion (k) : Statement (.launchCompletion k) := .inr rfl
theorem collectiveStartStep (k) : Statement (.collectiveStartStep k) := .inr rfl
theorem collectivePeerStep (k) : Statement (.collectivePeerStep k) := .inr rfl
theorem collectiveLossStep (k) : Statement (.collectiveLossStep k) := .inr rfl
theorem siteQuiesced (n) : Statement (.siteQuiesced n) := .inr rfl
theorem drainDeadline (n) : Statement (.drainDeadline n) := .inr rfl
theorem mapFreeze (seg) : Statement (.mapFreeze seg) := .inr rfl
theorem mapCommit (seg) : Statement (.mapCommit seg) := .inr rfl
theorem mapThaw (seg) : Statement (.mapThaw seg) := .inr rfl
theorem controlInterval (seg) : Statement (.controlInterval seg) := .inr rfl
theorem revocationDeadline (tile) : Statement (.revocationDeadline tile) := .inr rfl
theorem phaseWindowEnd (seg) : Statement (.phaseWindowEnd seg) := .inr rfl
theorem timeTick : Statement (.timeTick) := .inr rfl
theorem rollback (rcb) : Statement (.rollback rcb) := .inr rfl
theorem jobDequeue (tile) (q) : Statement (.jobDequeue tile q) := .inr rfl
theorem shootdownStart (seg) (sdctl) : Statement (.shootdownStart seg sdctl) := .inr rfl
theorem watchroomReplyMapped (w) (entry) : Statement (.watchroomReplyMapped w entry) := .inr rfl
theorem watchroomReplyRefused (w) (entry) : Statement (.watchroomReplyRefused w entry) := .inr rfl
theorem pcieCompletion (core) (status) (data) : Statement (.pcieCompletion core status data) := .inr rfl
theorem pcieCompletionTimeout (core) : Statement (.pcieCompletionTimeout core) := .inr rfl
theorem hostWrite (link) (pa) (data) : Statement (.hostWrite link pa data) := .inr rfl
theorem hostRead (link) (pa) (n) : Statement (.hostRead link pa n) := .inr rfl
theorem energyLowRead (r) (pa) : Statement (.energyLowRead r pa) := .inr rfl
theorem doorbell (q) (tail) : Statement (.doorbell q tail) := .inr rfl
theorem wqEnable (q) (value) : Statement (.wqEnable q value) := .inr rfl
theorem peerFrame (port) (crcOk) (step) : Statement (.peerFrame port crcOk step) := .inr rfl
theorem peerPortDown (port) : Statement (.peerPortDown port) := .inr rfl
theorem linkDead (tile) (dir) : Statement (.linkDead tile dir) := .inr rfl
theorem siteSeated (n) (contactsOk) : Statement (.siteSeated n contactsOk) := .inr rfl
theorem sitePowered (n) : Statement (.sitePowered n) := .inr rfl
theorem siteAttested (n) (serial) (defects) : Statement (.siteAttested n serial defects) := .inr rfl
theorem siteLinked (n) : Statement (.siteLinked n) := .inr rfl
theorem siteStepFail (n) : Statement (.siteStepFail n) := .inr rfl
theorem sensePinOpen (n) : Statement (.sensePinOpen n) := .inr rfl
theorem siteAdmit (q) : Statement (.siteAdmit q) := .inr rfl
theorem siteDrain (q) (notice) : Statement (.siteDrain q notice) := .inr rfl
theorem siteRelease (q) : Statement (.siteRelease q) := .inr rfl
theorem siteRetest (q) : Statement (.siteRetest q) := .inr rfl
theorem siteLoss (n) (cause) : Statement (.siteLoss n cause) := .inr rfl
theorem contactEvent (seg) (group) : Statement (.contactEvent seg group) := .inr rfl
theorem routeInstall (tile) (entries) : Statement (.routeInstall tile entries) := .inr rfl
theorem arbiterStep (m) (measuredMw) (coreMw) : Statement (.arbiterStep m measuredMw coreMw) := .inr rfl
theorem powerSample (tile) (milliwatts) : Statement (.powerSample tile milliwatts) := .inr rfl
theorem currentSample (seg) (milliamps) : Statement (.currentSample seg milliamps) := .inr rfl
theorem thermalSample (seg) (samples) : Statement (.thermalSample seg samples) := .inr rfl
theorem phaseFailure (seg) : Statement (.phaseFailure seg) := .inr rfl
theorem tokenFault (seg) : Statement (.tokenFault seg) := .inr rfl
theorem energyUpdate (m) (amount) : Statement (.energyUpdate m amount) := .inr rfl
theorem scrubPass (store) : Statement (.scrubPass store) := .inr rfl
theorem powerOn : Statement (.powerOn) := .inr rfl
theorem bootStage (r) : Statement (.bootStage r) := .inr rfl
theorem mgmtRead (port) (pa) : Statement (.mgmtRead port pa) := .inr rfl
theorem firmwareUpload (image) (signed) : Statement (.firmwareUpload image signed) := .inr rfl
theorem panelidWrite (value) (signed) : Statement (.panelidWrite value signed) := .inr rfl
theorem fabricTableWrite (n) (value) (signed) : Statement (.fabricTableWrite n value signed) := .inr rfl
theorem telemetrySample (inlet) (outlet) (flow) : Statement (.telemetrySample inlet outlet flow) := .inr rfl
theorem coolantAlert : Statement (.coolantAlert) := .inr rfl
theorem coolantAlertClear : Statement (.coolantAlertClear) := .inr rfl

end Sys2Proof.Laws.OneEncoding
end

