-- ==== Sys2Proof/Laws/Regs.lean ====
section
/-! SUPPORT. What writing a register and retiring do (R85, R87, R93, R94): the laws that the statements about register
instructions rest on. -/

namespace Sys2Proof.Machine

/-! ### Slots -/

theorem slotOf_spec {k : Core} {w i : Nat} (h : slotOf k w = some i) : i < 4 ∧ ∃ sl, slotAt k i = some sl ∧ sl.wptr = w := by
  have hm := List.mem_of_find?_eq_some h
  have hp := List.find?_some h
  refine ⟨by simp at hm; omega, ?_⟩
  cases hs : slotAt k i with
  | none => simp [hs] at hp
  | some sl => exact ⟨sl, rfl, by simpa [hs] using hp⟩

theorem slotAt_setSlot_self (k : Core) (i : Nat) (x : Option Slot) (h : i < 4) : slotAt (setSlot k i x) i = x := by
  simp [slotAt, setSlot, h]

theorem slotAt_setSlot_ne (k : Core) (i j : Nat) (x : Option Slot) (h : j ≠ i) : slotAt (setSlot k i x) j = slotAt k j := by
  simp [slotAt, setSlot, Ne.symm h]

/-- Which process each slot holds. -/
def holders (k : Core) (i : Nat) : Option Nat := (slotAt k i).map (·.wptr)

theorem slotOf_congr {k l : Core} (h : ∀ i, holders l i = holders k i) (w : Nat) : slotOf l w = slotOf k w := by
  have e : ∀ i, (match slotAt l i with | some sl => sl.wptr == w | none => false) = (match slotAt k i with | some sl => sl.wptr == w | none => false) := by
    intro i
    have := h i
    simp only [holders] at this
    cases hk : slotAt k i <;> cases hl : slotAt l i <;> simp_all
  unfold slotOf
  congr 1
  funext i
  exact e i

theorem residentOf_congr {s t : State} (h : ∀ c i, holders (getCore t c) i = holders (getCore s c) i) (w : Nat) :
    residentOf t w = residentOf s w := by
  have e : ∀ c, slotOf (getCore t c) w = slotOf (getCore s c) w := fun c => slotOf_congr (h c) w
  unfold residentOf
  simp only [e]

/-! ### Writing a register -/

/-- A resident process's W[d] is written in its slot; W0 discards. -/
def withReg (sl : Slot) (d : Reg) (v : Word) : Slot :=
  if d = 0 then sl
  else { sl with regs := sl.regs.setIfInBounds d.toNat v, dirtyR := sl.dirtyR ||| (1 <<< d.toNat), badR := sl.badR &&& ~~~(1#16 <<< d.toNat) }

theorem withReg_zero (sl : Slot) (v : Word) : withReg sl 0 v = sl := rfl

theorem withReg_ne (sl : Slot) (d : Reg) (v : Word) (hd : d ≠ 0) :
    withReg sl d v =
      { sl with regs := sl.regs.setIfInBounds d.toNat v, dirtyR := sl.dirtyR ||| (1 <<< d.toNat), badR := sl.badR &&& ~~~(1#16 <<< d.toNat) } := if_neg hd

@[simp] theorem withReg_wptr (sl : Slot) (d : Reg) (v : Word) : (withReg sl d v).wptr = sl.wptr := by
  unfold withReg
  split <;> rfl

@[simp] theorem withReg_csrs (sl : Slot) (d : Reg) (v : Word) : (withReg sl d v).csrs = sl.csrs := by
  unfold withReg
  split <;> rfl

theorem withReg_regs (sl : Slot) (d : Reg) (v : Word) (n : Nat) (hn : n ≠ d.toNat) : (withReg sl d v).regs[n]? = sl.regs[n]? := by
  unfold withReg
  split
  · rfl
  · simp [Ne.symm hn]

theorem withReg_regs_self (sl : Slot) (d : Reg) (v : Word) (hd : d ≠ 0) : (withReg sl d v).regs[d.toNat]? = some v := by
  rw [withReg_ne _ _ _ hd]
  have : d.toNat < 16 := d.isLt
  simp [this]

theorem regWr_slot {s : State} {c w i : Nat} {sl : Slot} (h : slotOf (getCore s c) w = some i) (hs : slotAt (getCore s c) i = some sl)
    (d : Reg) (v : Word) (hd : d ≠ 0) : regWr s c w d v = putCore s c (setSlot (getCore s c) i (some (withReg sl d v))) := by
  have : (d.toNat == 0) = false := by
    simp only [beq_eq_false_iff_ne, ne_eq]
    intro h0
    exact hd (BitVec.eq_of_toNat_eq (by simpa using h0))
  unfold regWr
  rw [if_neg hd, h]
  simp [putSlotReg, hs, this, withReg_ne _ _ _ hd, modCore]

/-- The executing core after `finish`, in terms of the slot that held the process. -/
structure Finished (s t : State) (c : Nat) (r : Running) (i : Nat) (sl sl' : Slot) (pc : PC) : Prop where
  wptr : sl'.wptr = sl.wptr
  slot : slotAt (getCore t c) i = some sl'
  slots : ∀ j, j ≠ i → slotAt (getCore t c) j = slotAt (getCore s c) j
  run : (getCore t c).run = some { r with pc := pc, held := false, seen := [] }
  instret : (getCore t c).instret = (getCore s c).instret + 1
  core : getCore t c = { getCore s c with
    slots := (getCore t c).slots, run := (getCore t c).run, instret := (getCore t c).instret, hpm := (getCore t c).hpm
    bufStall := false, hostWord := none }
  rest : t = { s with cores := t.cores }
  others : ∀ e, e ≠ c → getCore t e = getCore s e

theorem countEvent_fields (code n : Nat) (k : Core) : countEvent code n k = { k with hpm := (countEvent code n k).hpm } := by
  unfold countEvent
  split <;> rfl

theorem retireCount_fields (k : Core) :
    retireCount k = { k with instret := k.instret + 1, hpm := (retireCount k).hpm } := by
  unfold retireCount
  rw [countEvent_fields]

theorem slotAt_congr {k l : Core} (h : l.slots = k.slots) (i : Nat) : slotAt l i = slotAt k i := by simp [slotAt, h]

theorem finish_finished {s : State} {c w i : Nat} {sl : Slot} {r : Running} (hr : (getCore s c).run = some r)
    (h : slotOf (getCore s c) w = some i) (hs : slotAt (getCore s c) i = some sl) (d : Reg) (v : Word) (pc : PC) :
    Finished s (retireTo (regWr s c w d v) c pc) c r i sl (withReg sl d v) pc := by
  obtain ⟨hi, -⟩ := slotOf_spec h
  by_cases hd : d = 0
  · subst hd
    have e : regWr s c w 0 v = s := by simp [regWr]
    rw [e]
    have g : getCore (retireTo s c pc) c = retireCount { getCore s c with run := some { r with pc := pc, held := false, seen := [] }, bufStall := false, hostWord := none } := by
      simp [retireTo, hr]
    have f := retireCount_fields { getCore s c with run := some { r with pc := pc, held := false, seen := [] }, bufStall := false, hostWord := none }
    refine ⟨by simp, ?_, ?_, ?_, ?_, ?_, ?_, ?_⟩
    · rw [g, f]; exact hs
    · intro j _; rw [g, f]; rfl
    · rw [g, f]
    · rw [g, f]
    · rw [g, f]
    · rfl
    · intro e he; exact getCore_modCore_ne _ _ _ _ he
  · have e := regWr_slot h hs d v hd
    rw [e]
    have g : getCore (retireTo (putCore s c (setSlot (getCore s c) i (some (withReg sl d v)))) c pc) c =
        retireCount { setSlot (getCore s c) i (some (withReg sl d v)) with run := some { r with pc := pc, held := false, seen := [] }, bufStall := false, hostWord := none } := by
      have : (setSlot (getCore s c) i (some (withReg sl d v))).run = some r := by simpa [setSlot] using hr
      simp [retireTo, this]
    have f := retireCount_fields { setSlot (getCore s c) i (some (withReg sl d v)) with run := some { r with pc := pc, held := false, seen := [] }, bufStall := false, hostWord := none }
    refine ⟨by simp, ?_, ?_, ?_, ?_, ?_, ?_, ?_⟩
    · rw [g, f]; exact slotAt_setSlot_self _ _ _ hi
    · intro j hj; rw [g, f]; exact slotAt_setSlot_ne _ _ _ _ hj
    · rw [g, f]
    · rw [g, f]; rfl
    · rw [g, f]; rfl
    · rfl
    · intro e he
      rw [retireTo, getCore_modCore_ne _ _ _ _ he, getCore_putCore_ne _ _ _ _ he]

theorem finished_holders {s t : State} {c i : Nat} {r : Running} {sl sl' : Slot} {pc : PC} (f : Finished s t c r i sl sl' pc)
    (hs : slotAt (getCore s c) i = some sl) (e j : Nat) : holders (getCore t e) j = holders (getCore s e) j := by
  by_cases he : e = c
  · subst he
    by_cases hj : j = i
    · subst hj; simp [holders, f.slot, hs, f.wptr]
    · simp [holders, f.slots j hj]
  · rw [f.others e he]

theorem slotOf_finished {s t : State} {c i : Nat} {r : Running} {sl sl' : Slot} {pc : PC} (f : Finished s t c r i sl sl' pc)
    (hs : slotAt (getCore s c) i = some sl) (e w : Nat) : slotOf (getCore t e) w = slotOf (getCore s e) w :=
  slotOf_congr (finished_holders f hs e) w

/-- What the resume word of a running process serves. -/
theorem snoop_resume {s : State} {a c : Nat} (h : snoopOf s a = some (.resume c)) :
    ∃ r, (getCore s c).run = some r ∧ r.wptr = a := by
  unfold snoopOf at h
  split at h
  · split at h
    · split at h
      · split at h
        · split at h
          · rename_i r hr hw
            simp only [Option.some.injEq, Snoop.resume.injEq] at h
            subst h
            exact ⟨r, hr, by simpa using hw⟩
          · simp at h
        · simp at h
      · simp at h
    · split at h
      · dsimp only at h
        split at h <;> simp at h
      · simp at h
  · simp at h

/-- A head word that a slot serves lies in the head of the process the slot holds. -/
theorem snoop_reg {s : State} {a c i n : Nat} (h : snoopOf s a = some (.reg c i n)) (ha : a % 8 = 0) :
    ∃ sl, slotAt (getCore s c) i = some sl ∧ a = sl.wptr + 8 * n := by
  unfold snoopOf at h
  split at h
  · split at h
    · rename_i c2 i2 hc
      split at h
      · split at h
        · split at h <;> simp at h
        · simp at h
      · simp only [Option.some.injEq, Snoop.reg.injEq] at h
        obtain ⟨rfl, rfl, rfl⟩ := h
        unfold residentOf at hc
        obtain ⟨x, -, hx⟩ := List.exists_of_findSome?_eq_some hc
        split at hx
        · rename_i y hy
          simp only [Option.some.injEq, Prod.mk.injEq] at hx
          obtain ⟨h1, rfl⟩ := hx
          rw [h1] at hy
          obtain ⟨-, sl, h2, h3⟩ := slotOf_spec hy
          refine ⟨sl, h2, ?_⟩
          rw [h3]
          unfold headBase
          omega
        · simp at hx
    · split at h
      · dsimp only at h
        split at h <;> simp at h
      · simp at h
  · simp at h

/-- A doubleword that any party reads is unchanged by the end of a register instruction, but for the destination and the resume word
(R94). -/
theorem dwAt_finished {s t : State} {c i : Nat} {r : Running} {sl sl' : Slot} {pc : PC} (f : Finished s t c r i sl sl' pc)
    (hs : slotAt (getCore s c) i = some sl) (hw : sl.wptr = r.wptr) (hr : (getCore s c).run = some r) (d : Reg) (v : Word)
    (e : sl' = withReg sl d v) (a : Nat) (ha : a % 8 = 0) (h0 : a ≠ r.wptr) (hd : a ≠ r.wptr + 8 * d.toNat) : dwAt t a = dwAt s a := by
  have hres : ∀ w, residentOf t w = residentOf s w := residentOf_congr (finished_holders f hs)
  have run_ne : ∀ e, e ≠ c → (getCore t e).run = (getCore s e).run := fun e he => by rw [f.others e he]
  have hsn : snoopOf t a = snoopOf s a := by
    unfold snoopOf
    simp only [hres]
    split
    · split
      · rename_i c' i' hc
        split
        · by_cases hcc : c' = c
          · subst hcc
            rw [f.run, hr]
          · rw [run_ne _ hcc]
        · rfl
      · rfl
    · rfl
  have hcsr : ∀ c' i' n, slotCsr t c' i' n = slotCsr s c' i' n := by
    intro c' i' n
    unfold slotCsr
    by_cases hcc : c' = c
    · subst hcc
      by_cases hii : i' = i
      · subst hii
        rw [f.slot, hs, e]
        simp
      · rw [f.slots _ hii]
    · rw [f.others _ hcc]
  unfold dwAt
  rw [hsn]
  cases hx : snoopOf s a with
  | none =>
    have hm : t.mem = s.mem := by rw [f.rest]
    simp [hm]
  | some q =>
    cases q with
    | csr c' i' n => exact hcsr c' i' n
    | resume c' =>
      simp only
      by_cases hcc : c' = c
      · exfalso
        subst hcc
        obtain ⟨r', h1, h2⟩ := snoop_resume hx
        rw [hr] at h1
        simp only [Option.some.injEq] at h1
        subst h1
        exact h0 h2.symm
      · rw [f.others _ hcc]
    | reg c' i' n =>
      simp only [slotReg]
      by_cases hcc : c' = c
      · subst hcc
        by_cases hii : i' = i
        · subst hii
          rw [f.slot, hs, e]
          by_cases hd0 : d = 0
          · subst hd0; rw [withReg_zero]
          · have hn : n ≠ d.toNat := by
              intro hn
              obtain ⟨sl2, h2, h3⟩ := snoop_reg hx ha
              rw [hs] at h2
              simp only [Option.some.injEq] at h2
              subst h2
              apply hd
              rw [← hw, h3, hn]
            simp [withReg_regs _ _ _ _ hn]
        · rw [f.slots _ hii]
      · rw [f.others _ hcc]

/-! ### The end of a register instruction -/

theorem issuer_run {s : State} {r : Running} (h : issuer s = some r) : (getCore s s.cur).run = some r := by
  unfold issuer at h
  dsimp only at h
  split at h
  · rename_i q hq
    split at h
    · simp at h
    · rw [hq]; exact h
  · simp at h

/-- Writing W[d] and going to `pc` is a register step. -/
theorem regStep_retireTo {s : State} {r : Running} (h : Issues s r) (d : Reg) (v : Word) (pc : PC) :
    RegStep s (retireTo (regWr s s.cur r.wptr d v) s.cur pc) r d v pc := by
  obtain ⟨i, hi⟩ := Option.isSome_iff_exists.mp h.resident
  obtain ⟨-, sl, hs, hw⟩ := slotOf_spec hi
  have hr := issuer_run h.running
  have f := finish_finished hr hi hs d v pc
  generalize retireTo (regWr s s.cur r.wptr d v) s.cur pc = t at f ⊢
  have so : slotOf (getCore t s.cur) r.wptr = some i := by rw [slotOf_finished f hs]; exact hi
  have hcur : t.cur = s.cur := by rw [f.rest]
  have regT : ∀ e : Reg, e ≠ 0 → reg t r e = ((withReg sl d v).regs[e.toNat]?).getD 0 := by
    intro e he
    unfold reg regRd
    rw [if_neg he, hcur, so]
    simp [slotReg, f.slot]
  have regS : ∀ e : Reg, e ≠ 0 → reg s r e = (sl.regs[e.toNat]?).getD 0 := by
    intro e he
    unfold reg regRd
    rw [if_neg he, hi]
    simp [slotReg, hs]
  refine ⟨?_, by simp [reg, regRd], ?_, ?_, ?_, ?_, ?_, ?_, ⟨f.rest, f.others⟩, ?_⟩
  · intro hd
    rw [regT d hd, withReg_regs_self _ _ _ hd]
    rfl
  · intro e he
    by_cases h0 : e = 0
    · subst h0; simp [reg, regRd]
    · rw [regT e h0, regS e h0, withReg_regs]
      intro hh
      exact he (BitVec.eq_of_toNat_eq hh)
  · unfold me; rw [hcur]; exact f.run
  · unfold me; rw [hcur]; exact f.instret
  · intro n
    unfold pcsr pcsrRd
    rw [hcur, so, hi]
    simp [slotCsr, f.slot, hs]
  · intro j sl2 h2 hne
    unfold me at h2 ⊢
    rw [hcur]
    by_cases hj : j = i
    · subst hj
      rw [hs] at h2
      simp only [Option.some.injEq] at h2
      subst h2
      exact absurd hw hne
    · rw [f.slots j hj]; exact h2
  · unfold me; rw [hcur]; exact f.core
  · intro a h0 hd
    unfold byteAt
    rw [dwAt_finished f hs hw hr d v rfl _ (by omega) h0 hd]

/-- The common end of a register instruction. -/
theorem regStep_finish {s : State} {r : Running} (h : Issues s r) (d : Reg) (v : Word) :
    RegStep s (finish s s.cur r d v) r d v (r.pc + 4) := regStep_retireTo h d v (r.pc + 4)

/-- An instruction that writes no register and goes to `pc`. -/
theorem regStep_retire {s : State} {r : Running} (h : Issues s r) (pc : PC) : RegStep s (retireTo s s.cur pc) r 0 0 pc := by
  have := regStep_retireTo h 0 0 pc
  simpa [regWr] using this

/-- A meaning that runs on the executing core runs for the process it issues for. -/
theorem onCore_issues {s : State} {r : Running} (h : Issues s r) (f : Nat → Running → State) : onCore s f = .next (f s.cur r) := by
  simp [onCore, h.running]

end Sys2Proof.Machine
end

