-- ==== Sys2Proof/Laws/Turns.lean ====
section
/-! SUPPORT. What one step can be, the reset memory, and what a window copy keeps. -/

namespace Sys2Proof.Machine

/-- The memory after reset has its canonical form. -/
@[simp] theorem reset_memWf : Memory.wf State.reset.mem = true := rfl

/-- Everything a step can be: the turn that the environment fixed, or the policy's; and a turn is an event, a core's instruction after its
fetch, a placed command, or nothing. -/
theorem step_cases {s u : State} (h : step s = .next u) :
    ∃ t s0, ((∃ rest, s.agenda = t :: rest ∧ s0 = { s with agenda := rest }) ∨ (s.agenda = [] ∧ t = nextTurn s ∧ s0 = countTurn s)) ∧
      ((∃ i, t = .event i ∧ exec i { s0 with yielded := false } = .next u) ∨
       (∃ c, t = .core c ∧ c < allCores ∧ exec (issueInstr s0 c).2 (issueInstr s0 c).1 = .next u) ∨
       (∃ pa i, t = .command pa ∧ commandAt s0 pa = some i ∧ exec i { s0 with yielded := true } = .next u) ∨
       (∃ pa, t = .command pa ∧ commandAt s0 pa = none ∧ u = s0)) := by
  have run (t : Turn) (s0 : State) (h : runTurn t s0 = .next u) :
      (∃ i, t = .event i ∧ exec i { s0 with yielded := false } = .next u) ∨
       (∃ c, t = .core c ∧ c < allCores ∧ exec (issueInstr s0 c).2 (issueInstr s0 c).1 = .next u) ∨
       (∃ pa i, t = .command pa ∧ commandAt s0 pa = some i ∧ exec i { s0 with yielded := true } = .next u) ∨
       (∃ pa, t = .command pa ∧ commandAt s0 pa = none ∧ u = s0) := by
    cases t with
    | event i => exact .inl ⟨i, rfl, h⟩
    | core c =>
      simp only [runTurn] at h
      split at h
      · exact .inr (.inl ⟨c, rfl, ‹_›, h⟩)
      · cases h
    | command pa =>
      simp only [runTurn] at h
      split at h
      · exact .inr (.inr (.inl ⟨pa, _, rfl, ‹_›, h⟩))
      · exact .inr (.inr (.inr ⟨pa, rfl, ‹_›, by cases h; rfl⟩))
  unfold step at h
  split at h
  · rename_i t rest ha
    exact ⟨t, _, .inl ⟨rest, ha, rfl⟩, run _ _ h⟩
  · rename_i ha
    exact ⟨_, _, .inr ⟨ha, rfl, rfl⟩, run _ _ h⟩

/-- A step whose turn is fixed runs that turn. -/
theorem step_agenda {s : State} {t : Turn} {rest : List Turn} (h : s.agenda = t :: rest) : step s = runTurn t { s with agenda := rest } := by
  simp [step, h]

/-! ### Copies of a window -/

theorem memWfFrom_weaken (m : Memory) (lo : Nat) (h : Memory.wf m = true) (hm : ∀ c ∈ m, lo ≤ c.1) : memWfFrom lo m = true := by
  cases m with
  | nil => rfl
  | cons p t =>
    obtain ⟨j, v⟩ := p
    simp only [Memory.wf, memWfFrom, Bool.and_eq_true, decide_eq_true_eq] at h ⊢
    exact ⟨⟨hm (j, v) (List.mem_cons_self ..), h.1.2⟩, h.2⟩

/-- Lists in order, one below the other, join in order. -/
theorem memWfFrom_append (m n : Memory) (lo : Nat) (hm : memWfFrom lo m = true) (hn : Memory.wf n = true) (h : ∀ a ∈ m, ∀ b ∈ n, a.1 < b.1)
    (hlo : ∀ b ∈ n, lo ≤ b.1) : memWfFrom lo (m ++ n) = true := by
  induction m generalizing lo with
  | nil => exact memWfFrom_weaken n lo hn hlo
  | cons p t ih =>
    obtain ⟨j, v⟩ := p
    simp only [memWfFrom, Bool.and_eq_true, decide_eq_true_eq, List.cons_append] at hm ⊢
    exact ⟨hm.1, ih _ hm.2 (fun a ha b hb => h a (List.mem_cons_of_mem _ ha) b hb) fun b hb => h (j, v) (List.mem_cons_self ..) b hb⟩

/-- A list moved up or down as a whole stays in order. -/
theorem memWfFrom_shift (m : Memory) (lo a b : Nat) (h : memWfFrom lo m = true) (hm : ∀ c ∈ m, a ≤ c.1) (hlo : a ≤ lo) :
    memWfFrom (lo - a + b) (m.map fun c => (c.1 - a + b, c.2)) = true := by
  induction m generalizing lo with
  | nil => rfl
  | cons p t ih =>
    obtain ⟨j, v⟩ := p
    simp only [memWfFrom, Bool.and_eq_true, decide_eq_true_eq, List.map_cons] at h ⊢
    have hj : a ≤ j := hm (j, v) (List.mem_cons_self ..)
    have := ih (j + 1) h.2 (fun c hc => hm c (List.mem_cons_of_mem _ hc)) (by omega)
    exact ⟨⟨by omega, h.1.2⟩, by rwa [show j - a + b + 1 = j + 1 - a + b by omega]⟩

/-- A window copy keeps the canonical form. -/
@[simp] theorem memWf_copyWindow (m old : Memory) (a b n : Nat) (h : Memory.wf m = true) (ho : Memory.wf old = true) :
    Memory.wf (copyWindow m old a b n) = true := by
  have mid : Memory.wf ((old.filter fun c => decide (a ≤ c.1) && decide (c.1 < a + n)).map fun c => (c.1 - a + b, c.2)) = true := by
    have hf := memWf_filter old (fun c => decide (a ≤ c.1) && decide (c.1 < a + n)) ho
    have hm : ∀ c ∈ old.filter fun c => decide (a ≤ c.1) && decide (c.1 < a + n), a ≤ c.1 := fun c hc => by
      have := (List.mem_filter.1 hc).2
      simp at this
      exact this.1
    have := memWfFrom_shift _ a a b (memWfFrom_weaken _ a hf hm) hm (Nat.le_refl a)
    exact memWfFrom_mono _ 0 _ this (Nat.zero_le _)
  have lowM : ∀ c ∈ m.filter fun c => decide (c.1 < b), c.1 < b := fun c hc => by simpa using (List.mem_filter.1 hc).2
  have highM : ∀ c ∈ m.filter fun c => decide (b + n ≤ c.1), b + n ≤ c.1 := fun c hc => by simpa using (List.mem_filter.1 hc).2
  have midM : ∀ c ∈ (old.filter fun c => decide (a ≤ c.1) && decide (c.1 < a + n)).map (fun c => (c.1 - a + b, c.2)), b ≤ c.1 ∧ c.1 < b + n := by
    intro c hc
    obtain ⟨d, hd, rfl⟩ := List.mem_map.1 hc
    have := (List.mem_filter.1 hd).2
    simp at this
    simp only
    omega
  refine memWfFrom_append _ _ 0 (memWfFrom_append _ _ 0 (memWf_filter m _ h) mid ?_ fun _ _ => Nat.zero_le _) (memWf_filter m _ h) ?_
    fun _ _ => Nat.zero_le _
  · intro x hx y hy
    have := lowM x hx
    have := midM y hy
    omega
  · intro x hx y hy
    have := highM y hy
    rcases List.mem_append.1 hx with hx | hx
    · have := lowM x hx
      omega
    · have := midM x hx
      omega

end Sys2Proof.Machine
end

