-- ==== Sys2Proof/Tests/Slice0.lean ====
section
/-! SUPPORT. Tests: the well-formedness smoke, words and results worked out by hand from the manual, and for every obligation a state and
operands that meet its hypotheses. -/

namespace Sys2Proof.Tests

open Sys2Proof Sys2Proof.Machine Sys2Proof.Claims

/-! ### Small states -/

/-- A system process running on core 0 of tile `t`, everything else as after reset. -/
def base (t : Nat) : State := withBootProc State.reset t

/-- Its running record. -/
def run (t : Nat) : Running := bootRun t

/-- With W[d] = v. -/
def withW (s : State) (d : Reg) (v : Word) : State :=
  match (getCore s s.cur).run with
  | some r => regWr s s.cur r.wptr d v
  | none => s

/-- With `n` bytes of memory. -/
def withMem (s : State) (a n v : Nat) : State := { s with mem := memPut s.mem a n v }

/-- With a change to the executing core. -/
def withMe (s : State) (f : Core → Core) : State := modCore s s.cur f

theorem placed1 : Placed (base 1) (run 1) := ⟨⟨rfl, rfl⟩, ⟨_, rfl, rfl⟩, by decide, rfl, nofun, nofun⟩

/-- With no address hole. -/
def noHoles (s : State) : State := { s with holeSites := 0, holeSegs := 0 }

/-- With another process, of region `rcb`, known at its home and in a state of its own. -/
def withProc (s : State) (w core rcb st : Nat) (i : WaitInfo) : State :=
  putProc (withMem s (w - 8) 8 st) w ⟨rcb, none, core, i, 0, [], 0, none, false, false, none⟩

/-- With a root region of one logical tile, physical tile `t`, in the state given: its RCB, its mark and its place map. -/
def withRegion (s : State) (rcb st t : Nat) : State :=
  let s := withMem (withMem (withMem s (rcb + 8) 8 (st * 2 ^ 60)) (rcb + 24) 8 (rcb + 0x1000)) (rcb + 0x1000) 4 t
  { s with areas := s.areas ++ [⟨rcb, 256, .rcb, rcb⟩] }

/-- With the executing process in a region. -/
def inRegion (s : State) (rcb : Nat) : State :=
  match (getCore s s.cur).run with
  | some r => modProc (withMe s fun k => { k with run := some { r with rcb := rcb } }) r.wptr fun p => { p with rcb := rcb }
  | none => s

/-- A store of eight bytes on its way. -/
def storeTo (pa : Nat) : StoreEnt := ⟨pa, pa, 8, 0x11, .st, bootWptr 1, 0, true, false⟩


/-- The decoder's answer is the instruction. -/
def decodesTo {ε : Type} (r : Except ε Instr) (i : Instr) : Bool :=
  match r with
  | .ok j => decide (j = i)
  | .error _ => false

theorem decodes {ε : Type} {r : Except ε Instr} {i : Instr} (h : decodesTo r i = true) : r = .ok i := by
  cases r with
  | ok j => exact congrArg _ (of_decide_eq_true h)
  | error e => cases h
/-! ### Witnesses: hypotheses that states and operands meet -/

theorem witness_IntegerResults : Issues (base 1) (run 1) ∧ Sound (base 1) ∧ (∃ rel, threeReg (.div 15 1 2) = some (15, 1, 2, rel)) ∧
    (∃ rel, twoReg (.srai 0 3 63) = some (0, 3, rel)) := ⟨⟨rfl, rfl⟩, rfl, ⟨_, rfl⟩, ⟨_, rfl⟩⟩

theorem witness_BranchesAndJumps : Placed (base 1) (run 1) ∧ Sound (base 1) ∧ RoomToTrap (base 1) ∧ (∃ c, branchOf (.bgeu 1 2 0x4000) = some (1, 2, 0x4000, c)) ∧
    (((reg (base 1) (run 1) 3).toNat : Int) + (0x3FFFC : BitVec 18).toInt) % 4 = 0 ∧
    (((reg (base 1) (run 1) 3).toNat : Int) + (0x3FFFE : BitVec 18).toInt) % 4 ≠ 0 ∧
    (0x40030000 : IWord).toNat / 2 ^ 26 = 0x10 ∧ 6 ≤ (0x40030000 : IWord).toNat / 2 ^ 15 % 8 :=
  ⟨placed1, rfl, by unfold RoomToTrap; decide, ⟨_, rfl⟩, by decide, by decide, by decide, by decide⟩

theorem witness_FloatResults :
    (Issues (base 1) (run 1) ∧ Sound (base 1) ∧ (∃ f, fpResult (.fnmsub .d 0 1 2 3) = some (0, f)) ∧ checked (.fnmsub .d 0 1 2 3) = true ∧
      checked (.fclass .s 1 2) = false) ∧
    (∃ s, s = withMe (base 1) (fun k => { k with upset := 1 }) ∧ Issues s (run 1) ∧ (me s).upset = 1 ∧ checked (.jalr 1 2 0x3FFFC) = true ∧
      crooked (reg s (run 1)) (.jalr 1 2 0x3FFFC) = false) ∧
    (∃ s, s = withMe (base 1) (fun k => { k with upset := 1 }) ∧ Placed s (run 1) ∧ RoomToTrap s ∧ (me s).upset = 1 ∧
      crooked (reg s (run 1)) (.jalr 1 2 0x3FFFE) = true) ∧
    (∃ s r, s = withMe (inRegion (withRegion (base 1) 0x420000 0 1) 0x420000) (fun k => { k with upset := 2 }) ∧ Placed s r ∧ RoomToTrap s ∧
      (me s).upset = 0 + 2 ∧ procRegion s r.wptr ≠ 0 ∧ (getRegion s (procRegion s r.wptr)).rollingBack = false ∧ (encodeWord (.add 1 2 3)).isSome = true) :=
  ⟨⟨⟨rfl, rfl⟩, rfl, ⟨_, rfl⟩, rfl, rfl⟩, ⟨_, rfl, ⟨rfl, rfl⟩, rfl, rfl, by decide⟩,
    ⟨_, rfl, ⟨⟨rfl, rfl⟩, ⟨_, rfl, rfl⟩, by decide, rfl, nofun, nofun⟩, by unfold RoomToTrap; decide, rfl, by decide⟩,
    ⟨_, { run 1 with rcb := 0x420000 }, rfl, ⟨⟨rfl, rfl⟩, ⟨_, rfl, rfl⟩, by decide, rfl, nofun, nofun⟩, by unfold RoomToTrap; decide, rfl, by decide, rfl, rfl⟩⟩

theorem witness_FloatExactAndNans :
    (∃ m v q, inUnits (-60) (fRead .d 0x3FF0000000000000) = some m ∧ fpValue .add .d .rtz 0x3FF0000000000000 0x3FF0000000000000 = (v, 0) ∧
      inUnits (-60) (fDecode (fmtOf .d) v) = some q) ∧
    (∃ m v q, inUnits (-60) (fRead .s 0x3F800000) = some m ∧ fpValue .mul .s .rne 0x3F800000 0xBF800000 = (v, 0) ∧
      inUnits (-120) (fDecode (fmtOf .s) v) = some q) ∧
    fRead .s 0x7F800001 = .nan true ∧ fRead .d 0x7FF8000000000000 = .nan false ∧ (∀ u, fRead .d 0 ≠ .nan u) :=
  ⟨⟨_, _, _, rfl, rfl, rfl⟩, ⟨_, _, _, rfl, rfl, rfl⟩, rfl, rfl, fun u => by cases u <;> decide⟩

theorem witness_AddressChecks : (run 1).sm = true ∧ bit (me (base 1)).vidsel 12 = false ∧ rcbTenant (base 1) (run 1).rcb = 0 ∧
    coreTile (base 1).cur * 0x400000 ≤ (0x6FFFF8 : Word).toNat ∧ (0x6FFFF8 : Word).toNat < coreTile (base 1).cur * 0x400000 + 0x300000 ∧
    isDark (base 1) 1 = false ∧
    (∃ s, s = withW (base 1) 2 0x10000000000000 ∧ accessOf (reg s (run 1)) (.join 2) = some (0x10000000000000, 8) ∧ Placed s (run 1) ∧ RoomToTrap s ∧
      addrSpace s s.cur (run 1) = none) ∧
    (∃ s, s = withW (base 1) 2 1 ∧ accessOf (reg s (run 1)) (.ld 1 2 .h 0) = some (1, 2) ∧ Placed s (run 1) ∧ RoomToTrap s) := by
  refine ⟨rfl, rfl, rfl, by decide, by decide, rfl, ⟨_, rfl, rfl, ⟨⟨rfl, rfl⟩, ⟨_, rfl, rfl⟩, by decide, rfl, nofun, nofun⟩, ?_, rfl⟩,
    ⟨_, rfl, rfl, ⟨⟨rfl, rfl⟩, ⟨_, rfl, rfl⟩, by decide, rfl, nofun, nofun⟩, ?_⟩⟩ <;> (unfold RoomToTrap; decide)

theorem witness_LoadsRead :
    (∃ s s1, s = withW (base 1) 2 0x6FFFF8 ∧ Issues s (run 1) ∧ memCheck s s.cur (run 1) (effective (reg s (run 1) 2) 0 .d) 8 .read .ldst false = (s1, .ok 0x6FFFF8 false) ∧
      inSegment s.cur 0x6FFFF8 = true ∧ Settled s 0x6FFFF8 8 ∧ uncorrectable s 0x6FFFF8 8 = false ∧ spaceOf 0x6FFFF8 = 0 ∧ NoOld s 0x6FFFF8) ∧
    (∃ s s1, s = withW (base 1) 2 0x1000000200000 ∧ Issues s (run 1) ∧
      memCheck s s.cur (run 1) (effective (reg s (run 1) 2) 0 .d) 8 .read .ldst false = (s1, .ok 0x1000000200000 false) ∧ spaceOf 0x1000000200000 = 1 ∧
      accLoadHeld s 0x1000000200000 = false) ∧
    (∃ s s1, s = withW (base 1) 2 0xF030000000000 ∧ Issues s (run 1) ∧
      memCheck s s.cur (run 1) (effective (reg s (run 1) 2) 0 .d) 8 .read .ldst false = (s1, .ok 0xF030000000000 false) ∧
      spaceOf 0xF030000000000 = 15 ∧ (∀ e ∈ (me s).sbuf, spaceOf e.pa ≠ 15)) ∧
    (∃ s s1 nc, s = withW (base 1) 2 0x8000000000000 ∧ Issues s (run 1) ∧
      memCheck s s.cur (run 1) (effective (reg s (run 1) 2) 0 .d) 8 .read .ldst false = (s1, .ok 0x8000000000000 nc) ∧
      spaceOf 0x8000000000000 = 8 ∧ linkStores s s.cur 0x8000000000000 = false) :=
  ⟨⟨_, _, rfl, ⟨rfl, rfl⟩, rfl, rfl, ⟨rfl, rfl⟩, rfl, rfl, nofun⟩, ⟨_, _, rfl, ⟨rfl, rfl⟩, rfl, rfl, rfl⟩, ⟨_, _, rfl, ⟨rfl, rfl⟩, rfl, rfl, nofun⟩, ⟨_, _, _, rfl, ⟨rfl, rfl⟩, rfl, rfl, rfl⟩⟩

theorem witness_StoresThroughTheBuffer :
    (∃ s s1 v, s = withW (withW (base 1) 2 0x6FFFF8) 3 7 ∧ storeOf (reg s (run 1)) (.stRel 3 2 .d 0) = some (.rel, .store, 0x6FFFF8, 8, v) ∧ Issues s (run 1) ∧
      memCheck s s.cur (run 1) 0x6FFFF8 8 .write .store true = (s1, .ok 0x6FFFF8 false) ∧ (me s).sbuf = [] ∧ (me s).journal = []) ∧
    (∃ s, s = withMe (base 1) (fun k => { k with sbuf := [storeTo 0x400100] }) ∧ (getCore s 4).sbuf = [storeTo 0x400100] ∧ spaceOf 0x400100 = 0 ∧
      homeTile 0x400100 = some (coreTile 4) ∧ storeHeld s (storeTo 0x400100) (.own 4) = false ∧ segStoresDone s 4 = true) ∧
    (∃ s, s = noHoles (withMe (base 1) fun k => { k with sbuf := [storeTo 0x800100] }) ∧ (getCore s 4).sbuf = [storeTo 0x800100] ∧ spaceOf 0x800100 = 0 ∧
      homeTile 0x800100 = some 2 ∧ 2 ≠ coreTile 4 ∧ holeCheck s (coreTile 4) 0x800100 = .clear ∧ freeJournal s 4 = some 0) ∧
    (∃ s, s = withMe (base 1) (fun k => { k with sbuf := [storeTo 0x8000000000000] }) ∧ (getCore s 4).sbuf = [storeTo 0x8000000000000] ∧
      spaceOf 0x8000000000000 = 8) :=
  ⟨⟨_, _, _, rfl, rfl, ⟨rfl, rfl⟩, rfl, rfl, rfl⟩, ⟨_, rfl, rfl, rfl, rfl, rfl, rfl⟩, ⟨_, rfl, rfl, rfl, rfl, by decide, rfl, rfl⟩, ⟨_, rfl, rfl, rfl⟩⟩

theorem witness_HbmAccess :
    (∃ s s1 nc, s = withW (base 12288) 2 0x4000000000000 ∧ Issues s (run 12288) ∧ isMemCore s.cur = true ∧
      memCheck s s.cur (run 12288) (reg s (run 12288) 2) 8 .read .hmem false = (s1, .ok 0x4000000000000 nc) ∧
      Settled s 0x4000000000000 8 ∧ uncorrectable s 0x4000000000000 8 = false) ∧
    (Placed (base 1) (run 1) ∧ RoomToTrap (base 1) ∧ isMemCore (base 1).cur = false) :=
  ⟨⟨_, _, _, rfl, ⟨rfl, rfl⟩, rfl, rfl, ⟨rfl, rfl⟩, rfl⟩, placed1, by unfold RoomToTrap; decide, rfl⟩

theorem plain_of (s : State) (pa n : Nat)
    (h : ∀ k, k < n → snoopOf s ((pa + k) / 8 * 8) = none ∧ workMask s ((pa + k) / 8 * 8) = BitVec.allOnes 64) : Plain s pa n :=
  fun k hk => ⟨fun c hc => (by rw [(h k hk).1] at hc; cases hc), fun c i m hc => (by rw [(h k hk).1] at hc; cases hc), (h k hk).2⟩

theorem witness_WritesAreExact :
    (bootWptr 1 % 8 = 0 ∧ Unwatched (base 1) (bootWptr 1) 8 ∧ snoopOf (base 1) (bootWptr 1) = some (.resume 4) ∧ workMask (base 1) (bootWptr 1) = resumeMask ∧
      (getCore (base 1) 4).run = some (run 1)) ∧
    (∃ c i m sl, snoopOf (base 1) (bootWptr 1 - 120) = some (.csr c i m) ∧ slotAt (getCore (base 1) c) i = some sl ∧ sl.wptr % 8 = 0 ∧
      Unwatched (base 1) (bootWptr 1 - 120) 8) ∧
    0 < 8 ∧ 8 ≤ 8 ∧ 0x6FFFF8 % 8 = 0 ∧ Plain (base 1) 0x6FFFF8 8 ∧ Unwatched (base 1) 0x6FFFF8 8 ∧
    (getRegion (base 1) 0).interval = none :=
  ⟨⟨by decide, ⟨fun _ _ => rfl, fun t h => by cases h; exact nofun⟩, rfl, rfl, rfl⟩,
    ⟨_, _, _, _, rfl, rfl, by decide, ⟨fun _ _ => rfl, fun t h => by cases h; exact nofun⟩⟩,
    by decide, by decide, by decide, plain_of _ _ _ (by decide), ⟨fun _ _ => rfl, fun t h => by cases h; exact nofun⟩, rfl⟩

theorem witness_FullEmptyAndWaits :
    (∃ s s1 nc, s = withW (base 1) 2 0x400100 ∧ Placed s (run 1) ∧ memCheck s s.cur (run 1) (reg s (run 1) 2) 8 .read .fe false = (s1, .ok 0x400100 nc) ∧
      ownStoresOver s s.cur 0x400100 8 = false ∧ uncorrectable s 0x400100 8 = false ∧ homeTile 0x400100 = some 1 ∧ (getTile s 1).watches.length < 64 ∧
      dwAt s 0x400100 = 0 ∧ isFull s 0x400100 = false ∧ dwAt s 0x400100 = reg s (run 1) 5 ∧ dwAt s 0x400100 ≠ reg s (run 1) 2) ∧
    (∃ s s1 nc, s = { withMem (withW (base 1) 2 0x400100) 0x400100 8 9 with full := [0x400100] } ∧ Placed s (run 1) ∧
      memCheck s s.cur (run 1) (reg s (run 1) 2) 8 .read .fe false = (s1, .ok 0x400100 nc) ∧ isFull s 0x400100 = true ∧ dwAt s 0x400100 ≠ 0) ∧
    (∃ s, s = withW (base 1) 3 1 ∧ Placed s (run 1) ∧ s.time.toNat < (reg s (run 1) 3).toNat ∧ (reg s (run 1) 4).toNat ≤ s.time.toNat) := by
  refine ⟨⟨_, _, _, rfl, ⟨⟨rfl, rfl⟩, ⟨_, rfl, rfl⟩, by decide, rfl, nofun, nofun⟩, rfl, rfl, rfl, rfl, by decide, rfl, rfl, rfl, by decide⟩,
    ⟨_, _, _, rfl, ⟨⟨rfl, rfl⟩, ⟨_, rfl, rfl⟩, by decide, rfl, nofun, nofun⟩, rfl, rfl, by decide⟩,
    ⟨_, rfl, ⟨⟨rfl, rfl⟩, ⟨_, rfl, rfl⟩, by decide, rfl, nofun, nofun⟩, by decide, by decide⟩⟩

theorem witness_AtomicResults :
    ∃ s s1 nc rel, s = withW (base 1) 2 0x6FFFF8 ∧ amoOf (.amoCas ⟨1, 2, 3, .d, true, .ar⟩ 4) = some (⟨1, 2, 3, .d, true, .ar⟩, 4, true, rel) ∧ Issues s (run 1) ∧
      memCheck s s.cur (run 1) (reg s (run 1) 2) 8 .write (.amo (!true && true)) false = (s1, .ok 0x6FFFF8 nc) ∧ spaceOf 0x6FFFF8 = 0 ∧
      (me s).sbuf = [] ∧ (me s).journal = [] ∧ portHolds s 0x6FFFF8 8 (.instr s.cur) true = false ∧ uncorrectable s 0x6FFFF8 8 = false ∧ 0x6FFFF8 % 8 = 0 ∧
      (∀ h, homeTile 0x6FFFF8 = some h → bit (getTile s h).trigBase 0 = false) ∧ snoopOf s 0x6FFFF8 = none ∧ workMask s 0x6FFFF8 = BitVec.allOnes 64 ∧
      Unwatched s 0x6FFFF8 8 ∧ (getRegion s 0).interval = none :=
  ⟨_, _, _, _, rfl, rfl, ⟨rfl, rfl⟩, rfl, rfl, rfl, rfl, rfl, rfl, by decide, fun h e => by cases e; rfl, rfl, rfl,
    ⟨fun _ _ => rfl, fun t h => by cases h; exact nofun⟩, rfl⟩

theorem witness_FencesOrder :
    (Issues (base 1) (run 1) ∧ refusedIn (base 1) (base 1).cur (run 1).wptr .sys = none ∧ (me (base 1)).sbuf = [] ∧
      unackedIn (base 1) (base 1).cur (run 1).wptr .sys = false ∧ (me (base 1)).linksUsed = 0) ∧
    (∃ s, s = withMe (base 1) (fun k => { k with sbuf := [storeTo 0x400100] }) ∧ Issues s (run 1) ∧ refusedIn s s.cur (run 1).wptr .panel = none ∧ (me s).sbuf ≠ []) ∧
    (∃ s, s = withMe (base 1) (fun k => { k with linksUsed := 8 }) ∧ Issues s (run 1) ∧ refusedIn s s.cur (run 1).wptr .sys = none ∧ (me s).sbuf = [] ∧
      unackedIn s s.cur (run 1).wptr .sys = false ∧ (me s).linksUsed ≠ 0) :=
  ⟨⟨⟨rfl, rfl⟩, rfl, rfl, rfl, rfl⟩, ⟨_, rfl, ⟨rfl, rfl⟩, rfl, by decide⟩, ⟨_, rfl, ⟨rfl, rfl⟩, rfl, rfl, rfl, by decide⟩⟩

/-- The same process in region mode. -/
def regionMode (s : State) : State := withMe s fun k => { k with run := k.run.map fun r => { r with sm := false } }

theorem witness_TakingATrap : Placed (base 1) (run 1) ∧ RoomToTrap (base 1) ∧ 255 < 256 := ⟨placed1, by unfold RoomToTrap; decide, by decide⟩

theorem witness_TrapAndBreak : Placed (base 1) (run 1) ∧ RoomToTrap (base 1) := ⟨placed1, by unfold RoomToTrap; decide⟩

theorem witness_DecodeAndFetchTraps :
    (∃ e, decodeWord 0 = .error e) ∧
    (∃ s r w, s = regionMode (base 1) ∧ systemOf (.rgnresm 1 2) = some w ∧ Placed s r ∧ RoomToTrap s ∧ r.sm = false) ∧
    (∃ s r s1 x, s = withMe (base 1) (fun k => { k with run := some { run 1 with pc := 0xFFFFFFFFFFFC } }) ∧ Placed s r ∧ RoomToTrap s ∧
      memCheck s s.cur r (r.pc.setWidth 64) 4 .fetch .fetch false = (s1, .trap x)) ∧
    (∃ s r s1 tn m, s = regionMode (base 1) ∧ Placed s r ∧ RoomToTrap s ∧
      memCheck s s.cur r (r.pc.setWidth 64) 4 .fetch .fetch false = (s1, .fault tn m) ∧ (me s).pwait.length < 4) := by
  refine ⟨⟨_, rfl⟩, ⟨_, { run 1 with sm := false }, _, rfl, rfl, ⟨⟨rfl, rfl⟩, ⟨_, rfl, rfl⟩, by decide, rfl, nofun, nofun⟩, ?_, rfl⟩,
    ⟨_, { run 1 with pc := 0xFFFFFFFFFFFC }, _, _, rfl, ⟨⟨rfl, rfl⟩, ⟨_, rfl, rfl⟩, by decide, rfl, nofun, nofun⟩, ?_, rfl⟩,
    ⟨_, { run 1 with sm := false }, _, _, _, rfl, ⟨⟨rfl, rfl⟩, ⟨_, rfl, rfl⟩, by decide, rfl, nofun, nofun⟩, ?_, rfl, by decide⟩⟩ <;> (unfold RoomToTrap; decide)

theorem witness_ResumeReturns :
    (∃ s, s = withProc (withW (base 1) 2 0x408400) 0x408400 4 0 10 .none ∧ Placed s (run 1) ∧ sysAddrStatus s s.cur (reg s (run 1) 2) 128 = 0 ∧
      (∃ p, getProc s 0x408400 = some p ∧ p.rcb = 0 ∧ p.killed = false) ∧ pstate s 0x408400 = 10 ∧ Drained s ∧
      runQueue (getCore s 4) (bit (resumeAt s 0x408400) 62) = []) ∧
    (∃ s p, s = modProc (withProc (withW (base 1) 2 0x408400) 0x408400 4 0 10 .none) 0x408400 (fun p => { p with killed := true }) ∧ Placed s (run 1) ∧
      sysAddrStatus s s.cur (reg s (run 1) 2) 128 = 0 ∧ getProc s 0x408400 = some p ∧ pstate s 0x408400 = 10 ∧ p.killed = true) ∧
    (∃ s, s = withProc (withRegion (withW (base 1) 2 0x408400) 0x420000 1 1) 0x408400 4 0x420000 10 .none ∧ Placed s (run 1) ∧
      sysAddrStatus s s.cur (reg s (run 1) 2) 128 = 0 ∧ pstate s 0x408400 = 10 ∧ rcbState s 0x420000 = 1) ∧
    (∃ s, s = withW (base 1) 2 0x408400 ∧ Placed s (run 1) ∧ sysAddrStatus s s.cur (reg s (run 1) 2) 128 = 0 ∧ getProc s 0x408400 = none ∧
      pstate s 0x408400 ≠ 12) ∧
    (∃ s, s = withProc (withW (base 1) 2 0x408400) 0x408400 4 0 1 .none ∧ Placed s (run 1) ∧ (getProc s 0x408400).isSome = true ∧ pstate s 0x408400 ≠ 10) ∧
    pcValid 2 = false := by
  refine ⟨⟨_, rfl, ⟨⟨rfl, rfl⟩, ⟨_, rfl, rfl⟩, by decide, rfl, nofun, nofun⟩, rfl, ⟨_, rfl, rfl, rfl⟩, rfl, ⟨rfl, rfl⟩, rfl⟩,
    ⟨_, _, rfl, ⟨⟨rfl, rfl⟩, ⟨_, rfl, rfl⟩, by decide, rfl, nofun, nofun⟩, rfl, rfl, rfl, rfl⟩,
    ⟨_, rfl, ⟨⟨rfl, rfl⟩, ⟨_, rfl, rfl⟩, by decide, rfl, nofun, nofun⟩, rfl, rfl, rfl⟩, ⟨_, rfl, ⟨⟨rfl, rfl⟩, ⟨_, rfl, rfl⟩, by decide, rfl, nofun, nofun⟩, rfl, rfl, by decide⟩,
    ⟨_, rfl, ⟨⟨rfl, rfl⟩, ⟨_, rfl, rfl⟩, by decide, rfl, nofun, nofun⟩, rfl, by decide⟩, rfl⟩

theorem mem_of_amGet {α : Type} (m : AMap α) (k : Nat) (v : α) (h : amGet m k = some v) : (k, v) ∈ m := by
  induction m with
  | nil => cases h
  | cons p t ih =>
    simp only [amGet] at h
    split at h
    · rename_i hk; cases h; simp [← hk]
    · exact List.mem_cons_of_mem _ (ih h)

/-- A READY process 0x408400 of core 4's queue that KILLP names, with its issuer waiting for its end. -/
def killing : State :=
  modProc (withMe (withProc (base 1) 0x408400 4 0 2 .none) fun k => { k with stall := some (.kill 5 0x408400) }) 0x408400 fun p => { p with killed := true }

theorem witness_ProcessesEnd :
    (∃ p, AloneAt (base 1) (bootWptr 1) p) ∧
    (∃ p, Issues (base 1) (run 1) ∧ Drained (base 1) ∧ getProc (base 1) (run 1).wptr = some p ∧ p.join = none) ∧
    (∃ s p, s = modProc (base 1) (run 1).wptr (fun p => { p with join := some 0x430000 }) ∧ Issues s (run 1) ∧ Drained s ∧
      getProc s (run 1).wptr = some p ∧ p.join = some 0x430000 ∧ uncorrectable s 0x430000 8 = false ∧
      portHolds s 0x430000 8 (.instr s.cur) (run 1).sm = false) ∧
    (∃ s p, s = putEntry (modTile (modProc (base 1) (run 1).wptr fun p => { p with join := some 0x430000 }) 1 fun k => { k with guards := [⟨0x430000, 0x430008, 128⟩] })
        128 ⟨1, none, some (captured (base 1) 4 (run 1) 4 0), none, none, 0⟩ ∧
      Issues s (run 1) ∧ Drained s ∧ getProc s (run 1).wptr = some p ∧ p.join = some 0x430000 ∧ uncorrectable s 0x430000 8 = false ∧
      portHolds s 0x430000 8 (.instr s.cur) (run 1).sm = true) ∧
    (∃ s p, s = withProc (withW (base 1) 2 0x408400) 0x408400 4 0 1 .none ∧ Issues s (run 1) ∧ (reg s (run 1) 2).toNat = 0x408400 ∧
      sysAddrStatus s s.cur (reg s (run 1) 2) 128 = 0 ∧ 0x408400 ≠ (run 1).wptr ∧ getProc s 0x408400 = some p) ∧
    (∃ p, AloneAt killing 0x408400 p ∧ p.killed = true ∧ 2 ≤ pstate killing 0x408400 ∧ isRunning killing 0x408400 = false ∧ storesLeft killing 0x408400 = false ∧
      inTransfer killing 0x408400 = false ∧ (∀ x ∈ killing.tiles, ∀ y ∈ x.2.spill, endWptr y.writer ≠ 0x408400 ∧ endWptr y.reader ≠ 0x408400) ∧
      (∀ x ∈ killing.procs, x.1 ≠ 0x408400 → x.2.killed = false) ∧ (getCore killing 4).run = some (run 1) ∧ (run 1).wptr ≠ 0x408400 ∧
      (slotOf (getCore killing 4) (run 1).wptr).isSome = true ∧ (getCore killing 4).stall = some (.kill 5 0x408400) ∧
      (∀ k e v, k ≠ 4 → (getCore killing k).stall ≠ some (.kill e v) ∧ (getCore killing k).stall ≠ some (.killNext e v))) ∧
    (∃ s, s = withMe killing (fun k => { k with stall := some (.killNext 5 0x408400) }) ∧ (getCore s 4).stall = some (if true then .killNext 5 0x408400 else .kill 5 0x408400) ∧
      (getProc s 0x408400).map (·.killed) = some true) := by
  refine ⟨⟨_, rfl, by decide, ⟨rfl, rfl, rfl⟩, nofun, nofun⟩, ⟨_, ⟨rfl, rfl⟩, ⟨rfl, rfl⟩, rfl, rfl⟩, ⟨_, _, rfl, ⟨rfl, rfl⟩, ⟨rfl, rfl⟩, rfl, rfl, rfl, rfl⟩,
    ⟨_, _, rfl, ⟨rfl, rfl⟩, ⟨rfl, rfl⟩, rfl, rfl, rfl, rfl⟩, ⟨_, _, rfl, ⟨rfl, rfl⟩, rfl, rfl, by decide, rfl⟩,
    ⟨_, ⟨rfl, by decide, ⟨rfl, rfl, rfl⟩, nofun, nofun⟩, rfl, by decide, by decide, by decide, by decide, by decide, by decide, rfl, by decide, rfl, rfl, ?_⟩, ⟨_, rfl, rfl, rfl⟩⟩
  intro k e v hk
  cases hc : amGet killing.cores k with
  | none => rw [getCore, hc]; exact ⟨nofun, nofun⟩
  | some x =>
    have := List.all_eq_true.mp (show (killing.cores.all fun p => p.1 == 4 || p.2.stall.isNone) = true from rfl) _ (mem_of_amGet _ _ _ hc)
    rw [getCore, hc, Option.getD_some, Option.isNone_iff_eq_none.mp ((Bool.or_eq_true_iff.mp this).resolve_left (by simp [hk]))]
    exact ⟨nofun, nofun⟩

theorem witness_WfiAndJournal :
    (Issues (base 1) (run 1) ∧ (me (base 1)).wfi = false ∧ (getCore (base 1) 4).run = some (run 1) ∧ wakePending (base 1) 4 (run 1) = false) ∧
    (getCore (base 1) 5).run = none ∧
    (∃ s, s = withMe (withProc (base 1) 0x408400 4 0 1 .none) (fun k => { k with lowQ := [0x408400] }) ∧ Issues s (run 1) ∧ (me s).wfi = false ∧
      wakePending s s.cur (run 1) = true) ∧
    (∃ s, s = withW (base 1) 2 0x1001F ∧ Issues s (run 1) ∧ (reg s (run 1) 2).toNat = 4 / 4 * 2 ^ 16 + 4 % 4 * 2 ^ 8 + 31 ∧
      amGet (getCore s 4).journal 31 = none) ∧
    (∃ s e, s = withMe (withW (withW (base 1) 2 0x1001F) 3 4) (fun k => { k with journal := [(31, ⟨storeTo 0x400100, true, .far, 0, false⟩)] }) ∧ Issues s (run 1) ∧
      (reg s (run 1) 2).toNat = 4 / 4 * 2 ^ 16 + 4 % 4 * 2 ^ 8 + 31 ∧ (reg s (run 1) 3).toNat % 4 ≠ 3 ∧ amGet (getCore s 4).journal 31 = some e ∧ e.rf = true) :=
  ⟨⟨⟨rfl, rfl⟩, rfl, rfl, rfl⟩, rfl, ⟨_, rfl, ⟨rfl, rfl⟩, rfl, rfl⟩, ⟨_, rfl, ⟨rfl, rfl⟩, rfl, rfl⟩, ⟨_, _, rfl, ⟨rfl, rfl⟩, rfl, by decide, rfl, rfl⟩⟩

theorem witness_RegionsSuspendAndResume :
    (∃ s r, s = inRegion (withRegion (withW (base 1) 2 0x420000) 0x420000 0 1) 0x420000 ∧ Placed s r ∧ r.sm = true ∧ (reg s r 2).toNat = 0x420000 ∧
      rgnStatus s s.cur (reg s r 2) = 0 ∧ inTree s 0x420000 r.rcb = true) ∧
    (∃ s, s = withRegion (withW (base 1) 2 0x420000) 0x420000 0 1 ∧ Placed s (run 1) ∧ rgnStatus s s.cur (reg s (run 1) 2) = 0 ∧
      inTree s 0x420000 0 = false ∧ suspAtWork s 0x420000 = none ∧ rcbState s 0x420000 = 0 ∧ ∀ x ∈ treeOf s 0x420000, x % 256 = 0) ∧
    (∃ s, s = withRegion (withW (base 1) 2 0x420000) 0x420000 1 1 ∧ Placed s (run 1) ∧ rgnStatus s s.cur (reg s (run 1) 2) = 0 ∧
      inTree s 0x420000 0 = false ∧ suspAtWork s 0x420000 = none ∧ rcbState s 0x420000 = 1) := by
  refine ⟨⟨_, { run 1 with rcb := 0x420000 }, rfl, ⟨⟨rfl, rfl⟩, ⟨_, rfl, rfl⟩, by decide, rfl, nofun, nofun⟩, rfl, rfl, rfl, rfl⟩,
    ⟨_, rfl, ⟨⟨rfl, rfl⟩, ⟨_, rfl, rfl⟩, by decide, rfl, nofun, nofun⟩, rfl, rfl, rfl, rfl, by decide⟩,
    ⟨_, rfl, ⟨⟨rfl, rfl⟩, ⟨_, rfl, rfl⟩, by decide, rfl, nofun, nofun⟩, rfl, rfl, rfl, rfl⟩⟩

theorem witness_CsrInstructions :
    csrOf (.csrw 1 2 0x10A) = some (.write, 1, 2, 0x10A) ∧ csrPresent 0x10A = true ∧
    (∃ s r, s = regionMode (base 1) ∧ Placed s r ∧ RoomToTrap s ∧ csrGranted 0x10A r.sm ((csrNew .write 2 0 0).isSome) = false) ∧
    Issues (base 1) (run 1) ∧ csrGranted 0x10A true ((csrNew .write 2 0 0).isSome) = true ∧ keptBits 0x10A = some 0x1FFF :=
  ⟨rfl, rfl, ⟨_, { run 1 with sm := false }, rfl, ⟨⟨rfl, rfl⟩, ⟨_, rfl, rfl⟩, by decide, rfl, nofun, nofun⟩, by unfold RoomToTrap; decide, rfl⟩, ⟨rfl, rfl⟩, rfl, rfl⟩

/-- A spawn record: slot, PC and region (R223). -/
def record (wslot pc rcb : Nat) : List Word := [BitVec.ofNat 64 (wslot * 2 ^ 48 + pc), BitVec.ofNat 64 rcb, 0, 0, 0, 0, 0, 0]

/-- A live region at 0x420000 on tile 1, and a spawn record at 0x430000. -/
def spawner : State :=
  withMem (withMem (withW (withRegion (base 1) 0x420000 0 1) 2 0x430000) 0x430000 8 (2 ^ 48 + 0x410000)) 0x430008 8 0x420000

theorem witness_SpawnsAreSent :
    ((∃ s1 nc, memCheck spawner 4 (run 1) (reg spawner (run 1) 2) 64 .read .block false = (s1, .ok 0x430000 nc)) ∧ Issues spawner (run 1) ∧ Drained spawner ∧
      Readable spawner 0x430000 64 ∧ record 1 0x410000 0x420000 = wordsAt spawner 0x430000 8 ∧ mapFrozen spawner (spawnGrid spawner 0 0x420000) = false ∧
      mapFrozen spawner 0x420000 = false ∧ spawnPlace spawner 0 0x420000 1 0 (reg spawner (run 1) 3) true = .ok 1 0 ∧
      distribute spawner 1 0x420000 (record 1 0x410000 0x420000) = some (coreNo 1 1) ∧ recRegion (record 1 0x410000 0x420000) 0 = 0x420000 ∧
      checkRecord spawner (record 1 0x410000 0x420000) 0 true = 0 ∧ 1 ∈ regionTiles spawner 0x420000 ∧ recJoin (record 1 0x410000 0x420000) = 0 ∧
      holeCheck spawner 1 0x400000 ≠ .hole) ∧
    (RecordRead spawner (run 1) (reg spawner (run 1) 2) (record 1 0x410000 0x420000) ∧
      ∀ ea, RecordRead spawner { run 1 with held := true, seen := record 1 0x410000 0x420000 } ea (record 1 0x410000 0x420000)) ∧
    checkRecord spawner (record 0 0x410000 0x420000) 0 true = 2 ∧ checkRecord spawner (record 24574 0x410000 0x440000) 0 true = 3 :=
  ⟨⟨⟨_, _, rfl⟩, ⟨rfl, rfl⟩, ⟨rfl, rfl⟩, ⟨rfl, rfl⟩, by decide +kernel, by decide +kernel, by decide +kernel, rfl, by decide +kernel, by decide +kernel,
    by decide +kernel, by decide +kernel, by decide +kernel, by decide +kernel⟩,
    ⟨.inr ⟨.inl rfl, _, _, _, rfl, ⟨rfl, rfl⟩, by decide +kernel⟩, fun _ => .inl ⟨rfl, nofun, rfl⟩⟩, by decide +kernel, by decide +kernel⟩

/-- A spawn on its way to core 1 of tile 1, with the running process of core 0 waiting for its reply. -/
def spawnMsg : SpawnMsg := ⟨some (bootWptr 1, 5), 1, true, 1, 1, 0x420000, true, record 1 0x410000 0x420000, none⟩
def spawning : State := { withMe spawner (fun k => { k with stall := some .spawn }) with msgs := [.spawn spawnMsg] }

theorem witness_SpawnsArrive :
    (slotMarked spawning 1 1 = false ∧ liveRegion spawning 0x420000 = true ∧ (spawnMsg.tile = spawnMsg.source) ∧ recPc spawnMsg.words % 4 = 0 ∧
      0x400080 + 128 ≤ 0x420000 ∧ rcbState spawning 0x420000 = 0 ∧ recCv spawnMsg.words = false ∧ intervalRegion spawning 1 = none ∧
      (getRegion spawning 0x420000).interval = none ∧ QueueApart (getCore spawning 5).highQ 0x400080 ∧ QueueApart (getCore spawning 5).lowQ 0x400080) ∧
    slotMarked spawning 1 (0x8000 / 128) = true ∧ (slotMarked (base 1) 1 1 = false ∧ liveRegion (base 1) 0x420000 = false) ∧
    (spawning.msgs[0]? = some (.spawn spawnMsg) ∧ procCore spawning (bootWptr 1) = 4 ∧ 1 * 0x400000 + 128 * recWslot spawnMsg.words ≠ bootWptr 1 ∧
      (getCore spawning 4).run = some (run 1) ∧ (getCore spawning 4).stall = some .spawn ∧ (slotOf (getCore spawning 4) (bootWptr 1)).isSome = true) :=
  ⟨⟨rfl, rfl, rfl, by decide, by decide, rfl, rfl, rfl, rfl, nofun, nofun⟩, rfl, ⟨rfl, rfl⟩, rfl, rfl, by decide, rfl, rfl, rfl⟩

theorem witness_YieldPrioAndSelf :
    (Placed (base 1) (run 1) ∧ runQueue (me (base 1)) (run 1).hp = [] ∧ (me (base 1)).highQ = [] ∧ (me (base 1)).lowQ = [] ∧
      bit (reg (base 1) (run 1) 2) 0 = (run 1).hp ∧ reg (base 1) (run 1) 2 = 0) ∧
    (∃ s, s = withMe (withProc (base 1) 0x408400 4 0 1 .none) (fun k => { k with lowQ := [0x408400] }) ∧ Placed s (run 1) ∧
      runQueue (me s) (run 1).hp ≠ [] ∧ QueueApart (runQueue (me s) (run 1).hp) (run 1).wptr) ∧
    (∃ s, s = withW (base 1) 2 1 ∧ Placed s (run 1) ∧ bit (reg s (run 1) 2) 0 ≠ (run 1).hp ∧ (me s).highQ = [] ∧ (me s).lowQ = []) ∧
    (∃ s r, s = inRegion (withRegion (withW (base 1) 2 1) 0x420000 0 1) 0x420000 ∧ Placed s r ∧ reg s r 2 = 1 ∧ r.rcb ≠ 0 ∧
      logicalOf s r.rcb (coreTile s.cur) = some (0, 0)) ∧
    (∃ s, s = withW (base 1) 2 1 ∧ Placed s (run 1) ∧ reg s (run 1) 2 = 1 ∧ (run 1).rcb = 0) ∧
    (∃ s, s = withW (base 1) 2 2 ∧ Placed s (run 1) ∧ reg s (run 1) 2 = 2) ∧
    (∃ s, s = withW (base 1) 2 3 ∧ Placed s (run 1) ∧ 2 < (reg s (run 1) 2).toNat ∧ RoomToTrap s) := by
  refine ⟨⟨placed1, rfl, rfl, rfl, rfl, rfl⟩, ⟨_, rfl, ⟨⟨rfl, rfl⟩, ⟨_, rfl, rfl⟩, by decide, rfl, nofun, nofun⟩, by decide, ?_⟩,
    ⟨_, rfl, ⟨⟨rfl, rfl⟩, ⟨_, rfl, rfl⟩, by decide, rfl, nofun, nofun⟩, by decide, rfl, rfl⟩,
    ⟨_, { run 1 with rcb := 0x420000 }, rfl, ⟨⟨rfl, rfl⟩, ⟨_, rfl, rfl⟩, by decide, rfl, nofun, nofun⟩, rfl, by decide, rfl⟩,
    ⟨_, rfl, ⟨⟨rfl, rfl⟩, ⟨_, rfl, rfl⟩, by decide, rfl, nofun, nofun⟩, rfl, rfl⟩,
    ⟨_, rfl, ⟨⟨rfl, rfl⟩, ⟨_, rfl, rfl⟩, by decide, rfl, nofun, nofun⟩, rfl⟩, ⟨_, rfl, ⟨⟨rfl, rfl⟩, ⟨_, rfl, rfl⟩, by decide, rfl, nofun, nofun⟩, by decide, ?_⟩⟩
  · unfold QueueApart Apart; decide
  · unfold RoomToTrap; decide

/-- Core 0 of tile 1 idle, with one process in its low queue. -/
def idle1 : State := withMe (withProc (base 1) 0x408400 4 0 1 .none) fun k => { k with run := none, lowQ := [0x408400] }

theorem witness_DispatchAndTimeslice :
    ((getCore idle1 4).run = none ∧ (getCore idle1 4).highQ = [] ∧ (getCore idle1 4).lowQ = 0x408400 :: [] ∧ (∃ p, getProc idle1 0x408400 = some p) ∧
      0x408400 % 128 = 0 ∧ QueueApart [] 0x408400 ∧
      (∀ i sl, slotAt (getCore idle1 4) i = some sl → sl.wptr ≠ 0x408400 → Apart sl.wptr 0x408400 ∧ 128 ≤ sl.wptr)) ∧
    (∃ s r, s = withMe (base 1) (fun k => { k with run := some { run 1 with slice := 0 } }) ∧ (getCore s 4).run = some r ∧ r.hp = false ∧ r.slice = 0 ∧
      betweenInstrs (getCore s 4) = true ∧ (getCore s 4).lowQ = []) ∧
    (∃ s r p, s = withMe (withProc (base 1) 0x408400 4 0 1 .none) (fun k => { k with run := some { run 1 with slice := 0 }, lowQ := [0x408400] }) ∧
      (getCore s 4).run = some r ∧ r.hp = false ∧ r.slice = 0 ∧ betweenInstrs (getCore s 4) = true ∧ (getCore s 4).lowQ ≠ [] ∧ getProc s r.wptr = some p ∧
      p.core = 4 ∧ r.wptr % 128 = 0 ∧ r.pc.toNat % 4 = 0 ∧ QueueApart (getCore s 4).lowQ r.wptr) := by
  refine ⟨⟨rfl, rfl, rfl, ⟨_, rfl⟩, by decide, nofun, ?_⟩, ⟨_, _, rfl, rfl, rfl, rfl, rfl, rfl⟩,
    ⟨_, _, _, rfl, rfl, rfl, rfl, rfl, by decide, rfl, rfl, by decide, by decide, by unfold QueueApart Apart; decide⟩⟩
  intro i sl h _
  match i with
  | 0 => cases h; unfold Apart; decide
  | 1 => cases h
  | 2 => cases h
  | 3 => cases h
  | n + 4 => simp [slotAt] at h

/-- A process in region 0x420000 that migrates, and its message on the way. -/
def migrating : State :=
  { inRegion (withRegion (withW (base 1) 3 1) 0x420000 0 1) 0x420000 with msgs := [.migrate ⟨4, 5, bootWptr 1, 1, 1, 1⟩] }

theorem witness_MigrationMoves :
    (∃ r, r = { run 1 with rcb := 0x420000 } ∧ Issues migrating r ∧ mapFrozen migrating r.rcb = false ∧
      resolvePlace migrating r.rcb 1 (reg migrating r 2) (some 0) r.sm = .ok 1 0 ∧ slotValid (reg migrating r 3).toNat = true ∧ Drained migrating ∧
      holeCheck migrating 1 0x400000 ≠ .hole ∧ slotValid (reg migrating r 2).toNat = false ∧ Placed migrating r ∧ RoomToTrap migrating) ∧
    (∃ s p, s = { withMe (base 1) (fun k => { k with stall := some .migrate }) with msgs := [.migrate ⟨4, 5, bootWptr 1, 1, 1, 1⟩] } ∧
      (getCore s 4).run = some (run 1) ∧ (getCore s 4).stall = some .migrate ∧ getProc s (bootWptr 1) = some p ∧ p.core = 4 ∧
      holeCheck s 1 0x400000 = .clear ∧ slotMarked s 1 1 = false ∧ (slotOf (getCore s 4) (bootWptr 1)).isSome = true ∧
      intervalRegion s 1 = none ∧ QueueApart (runQueue (getCore s (coreNo 1 1)) false) 0x400080) ∧
    slotMarked migrating 1 (0x8000 / 128) = true :=
  ⟨⟨_, rfl, ⟨rfl, rfl⟩, rfl, rfl, rfl, ⟨rfl, rfl⟩, by decide, rfl, ⟨⟨rfl, rfl⟩, ⟨_, rfl, rfl⟩, by decide, rfl, nofun, nofun⟩, by unfold RoomToTrap; decide⟩,
    ⟨_, _, rfl, rfl, rfl, rfl, rfl, rfl, rfl, rfl, rfl, nofun⟩, rfl⟩

theorem witness_RegionsAndBarriers :
    (∃ s s1 nc ws, s = withW (base 1) 2 0x430000 ∧ Issues s (run 1) ∧ memCheck s 4 (run 1) (reg s (run 1) 2) 256 .read .block false = (s1, .ok 0x430000 nc) ∧
      Readable s 0x430000 256 ∧ ws = wordsAt s 0x430000 32 ∧ tplJoin ws = 0 ∧ s.areas = []) ∧
    (∃ s, s = withRegion (withW (base 1) 2 0x420000) 0x420000 0 1 ∧ Placed s (run 1) ∧ (reg s (run 1) 2).toNat = 0x420000 ∧
      rgnEndStatus s 0x420000 0 true = none ∧ regionDone (putRcb s 0x420000 8 63 60 2) 0x420000 = true ∧ rgnEndStatus s 0x420000 0x420000 true = some 5 ∧
      rcbBarr s 0x420000 = rcbLive s 0x420000 ∧ rcbCkpt s 0x420000 ≠ 1) ∧
    (∃ s, s = withMem (withRegion (withW (base 1) 2 0x420000) 0x420000 0 1) 0x420030 8 1 ∧ Placed s (run 1) ∧ rgnEndStatus s 0x420000 0 true = none ∧
      regionDone (putRcb s 0x420000 8 63 60 2) 0x420000 = false ∧ rcbBarr s 0x420000 ≠ rcbLive s 0x420000) ∧
    (∃ s r, s = inRegion (withRegion (base 1) 0x420000 0 1) 0x420000 ∧ Placed s r ∧ Drained s ∧ r.rcb ≠ 0 ∧ r.rcb % 256 = 0) ∧
    (Placed (base 1) (run 1) ∧ Drained (base 1) ∧ (run 1).rcb = 0) ∧
    (∃ s, s = { withMem (withRegion (base 1) 0x420000 0 1) 0x420030 8 1 with regions := [(0x420000, { Region.reset with stallClocks := 4194304 })] } ∧
      regionStalled s 0x420000 = true ∧ (getRegion s 0x420000).stallSent = false ∧ freeSlots s (anchorTile 0x420000) ≠ [] ∧
      bits (getCore s (coreNo (anchorTile 0x420000) 0)).fgwait 31 0 ≤ (getRegion s 0x420000).stallClocks) := by
  refine ⟨⟨_, _, _, _, rfl, ⟨rfl, rfl⟩, rfl, ⟨rfl, rfl⟩, rfl, rfl, rfl⟩,
    ⟨_, rfl, ⟨⟨rfl, rfl⟩, ⟨_, rfl, rfl⟩, by decide, rfl, nofun, nofun⟩, rfl, rfl, rfl, rfl, rfl, by decide⟩,
    ⟨_, rfl, ⟨⟨rfl, rfl⟩, ⟨_, rfl, rfl⟩, by decide, rfl, nofun, nofun⟩, rfl, rfl, by decide⟩,
    ⟨_, { run 1 with rcb := 0x420000 }, rfl, ⟨⟨rfl, rfl⟩, ⟨_, rfl, rfl⟩, by decide, rfl, nofun, nofun⟩, ⟨rfl, rfl⟩, by decide, by decide⟩,
    ⟨placed1, ⟨rfl, rfl⟩, rfl⟩, ⟨_, rfl, rfl, rfl, by decide, by decide⟩⟩

/-- A writer 0x408400 and a reader 0x408800 of tile 1 that wait on the channel word 0x430000; the reader stands in its queue. -/
def meeting (word : Nat) (e : ChanEnd) (out : Bool) : State :=
  let s := withProc (withProc (base 1) 0x408400 5 0 2 (.chan 5 0 0x430000)) 0x408800 6 0 2 (.chan 6 1 0x430000)
  let s := withMem (withMem s (0x408400 - 16) 8 (2 ^ 63 + 8)) (0x408800 - 16) 8 8
  { withMem s 0x430000 8 word with msgs := [.chan 0x430000 (.plain e out) false false] }

/-- OUT by 0x408400, which stands on core 5 while its party is on its way. -/
def stepping : State :=
  modCore (modProc (meeting 0 (.buf 0x408400 0x420000 8) true) 0x408400 fun p => { p with wait := .none }) 5 fun k => { k with
    run := some { run 1 with wptr := 0x408400 }, stall := some (.chan 5 0 0x430000 0x420000 8) }

theorem witness_ChannelPartiesMeet :
    (∃ s, s = withW (base 1) 1 1048577 ∧ chanOf (.chanOut 1 2 3) = some (0, 1, 2, 3) ∧ Placed s (run 1) ∧ 1048576 < (reg s (run 1) 1).toNat ∧ RoomToTrap s) ∧
    (∃ s s1 s3 nc, s = withW (withW (withW (base 1) 1 1048576) 2 0x6FFFF8) 3 0x430000 ∧ Placed s (run 1) ∧ (reg s (run 1) 1).toNat = 1048576 ∧
      memCheck s 4 (run 1) (reg s (run 1) 2) 8 .write .block false = (s1, .ok 0x6FFFF8 nc) ∧ spaceOf 0x6FFFF8 = 0 ∧
      BufferPasses s1 s3 4 (run 1) (reg s (run 1) 3) 1048576 true ∧ Drained s) ∧
    (∃ s, s = meeting 0 (.buf 0x408400 0x420000 8) true ∧ stepEvent 0 (.channelStep 0) = some (false, false) ∧
      s.msgs[0]? = some (.chan 0x430000 (.plain (.buf 0x408400 0x420000 8) true) false false) ∧ ClearOf 0x430000 0x408400 ∧ slotLinkOf (0x408400 - 32) = none ∧
      uncorrectable s 0x430000 8 = false ∧ chanMalformed (hw s 0x430000) = false ∧ chanLost (hw s 0x430000) = false ∧
      wordHeld (if false then dropMsg s 0 else s) 0x430000 = false ∧ siteGone s (0x408400 / 0x400000) (0x430000 / 0x400000) = false ∧
      boundOk s 0x430000 (.plain (.buf 0x408400 0x420000 8) true) = true ∧ Unlogged s 0x430000 ∧ Unlogged s (0x408400 - 32) ∧
      chanHead (hw s 0x430000) = 0 ∧ bit (hw s (0x408400 - 16)) 63 = true) ∧
    (∃ s r, s = stepping ∧ r = { run 1 with wptr := 0x408400 } ∧ s.msgs[0]? = some (.chan 0x430000 (.plain (.buf 0x408400 0x420000 8) true) false false) ∧
      OnStep s 0x408400 r 5 0 0x430000 0x420000 8 ∧ (getProc s 0x408400).isSome = true ∧ wordHeld s 0x430000 = false ∧
      boundOk s 0x430000 (.plain (.buf 0x408400 0x420000 8) true) = true ∧ chanHead (hw s 0x430000) = 0) ∧
    (∃ s, s = meeting (2 ^ 63 + 0x4087E0) (.buf 0x408400 0x420000 8) true ∧ chanMalformed (hw s 0x430000) = false ∧ chanLost (hw s 0x430000) = false ∧
      chainOf s 0x430000 = [0x408800 - 32] ∧ ClearOf 0x430000 0x408800 ∧ Apart 0x408400 0x408800 ∧ slotLinkOf (0x408800 - 32) = none ∧ s.selects = [] ∧
      firstValid s 0x430000 (0x408800 - 32) = true ∧ linkLost s 0x430000 (0x408800 - 32) = false ∧ linkIsWriter s (0x408800 - 32) = !true ∧
      spillFull s (.buf 0x408400 0x420000 8) (plainEnd s (0x408800 - 32)) = false ∧ pstate s 0x408400 ≠ 11 ∧ pstate s 0x408800 ≠ 11) := by
  refine ⟨⟨_, rfl, rfl, ⟨⟨rfl, rfl⟩, ⟨_, rfl, rfl⟩, by decide, rfl, nofun, nofun⟩, by decide, ?_⟩,
    ⟨_, _, _, _, rfl, ⟨⟨rfl, rfl⟩, ⟨_, rfl, rfl⟩, by decide, rfl, nofun, nofun⟩, rfl, rfl, rfl, .inr ⟨by decide, _, _, _, _, _, rfl, rfl⟩, ⟨rfl, rfl⟩⟩,
    ⟨_, rfl, rfl, rfl, ?_, rfl, rfl, rfl, rfl, by decide +kernel, by decide +kernel, rfl, fun _ _ => rfl, fun _ _ => rfl, rfl, rfl⟩,
    ⟨_, _, rfl, rfl, rfl, ⟨rfl, rfl, by decide, rfl⟩, rfl, by decide +kernel, rfl, rfl⟩,
    ⟨_, rfl, rfl, rfl, rfl, ?_, ?_, rfl, rfl, rfl, rfl, rfl, rfl, by decide, by decide⟩⟩
  · unfold RoomToTrap; decide
  · unfold ClearOf; decide
  · unfold ClearOf; decide
  · unfold Apart; decide

/-- Two ends of a transfer that has not begun: 64 bytes from 0x420000 to 0x421000. -/
def transfer : Transfer := ⟨0x430000, .buf 0x408400 0x420000 64, .buf 0x408800 0x421000 64, none, none, true, true, 64, 0, 1, false, none, none, none, 0, 0, 0, false⟩

/-- OUTW of 7 in 0x408400 meets INW in 0x408800; both are resident in their cores. -/
def handing : State :=
  let s := withProc (withProc (base 1) 0x408400 5 0 2 (.chan 5 2 0x430000)) 0x408800 6 0 2 (.chan 6 3 0x430000)
  let s := modCore s 5 fun k => { k with slots := k.slots.setIfInBounds 0 (some { bootSlot 1 with wptr := 0x408400 }) }
  let s := modCore s 6 fun k => { k with slots := k.slots.setIfInBounds 0 (some { bootSlot 1 with wptr := 0x408800 }) }
  { s with transfers := [⟨0x430000, .value 0x408400 7, .head 0x408800 6, none, none, true, true, 8, 0, 1, false, none, none, none, 0, 0, 0, false⟩] }

theorem witness_TransfersMoveData :
    (transfer.n ≤ 64 ∧ 0x420000 % 2 ^ 16 + 64 ≤ 2 ^ 16 ∧ 0x421000 % 2 ^ 16 + 64 ≤ 2 ^ 16 ∧ InOwnTlm (base 1) 1 0x420000 64 ∧ InOwnTlm (base 1) 1 0x421000 64 ∧
      uncorrectable (base 1) 0x420000 64 = false ∧ portHolds (base 1) 0x421000 64 (.move transfer.word) true = false ∧ Plain (base 1) 0x421000 64 ∧
      Unwatched (base 1) 0x421000 64 ∧ (getRegion (base 1) (procRegion (base 1) 0x408800)).interval = none) ∧
    (∃ t pw pr, handing.transfers[0]? = some t ∧ t.writer = .value 0x408400 7 ∧ t.reader = .head 0x408800 6 ∧ t.n = 8 ∧ t.done = 0 ∧ t.parked = none ∧
      t.viaCopy = false ∧ moveBehind handing 0 t = false ∧ transferLost handing t = false ∧ getProc handing 0x408400 = some pw ∧
      stepOf handing 0x408400 = .chan 5 2 0x430000 ∧ getProc handing 0x408800 = some pr ∧ stepOf handing 0x408800 = .chan 6 3 0x430000 ∧
      pw.dying = false ∧ pr.dying = false ∧ (slotOf (getCore handing pw.core) 0x408400).isSome = true ∧
      (slotOf (getCore handing pr.core) 0x408800).isSome = true) := by
  refine ⟨⟨by decide, by decide, by decide, ?_, ?_, rfl, rfl, plain_of _ _ _ (by decide), ⟨fun _ _ => rfl, fun t h => by cases h; exact nofun⟩, rfl⟩,
    ⟨_, _, _, rfl, rfl, rfl, rfl, rfl, rfl, rfl, rfl, rfl, rfl, rfl, rfl, rfl, rfl, rfl, rfl, rfl⟩⟩ <;> (unfold InOwnTlm; decide)

/-- A select table at 0x430000 with one input alternative on 0x440000, of no bytes. -/
def selecting : State := withMem (withMem (withW (withW (base 1) 2 0x430000) 3 1) 0x430000 8 1) 0x430028 8 0x440000

theorem witness_Selects :
    (∃ s, s = withW (base 1) 2 31 ∧ Placed s (run 1) ∧ (reg s (run 1) 2).toNat % 32 ≠ 0 ∧ RoomToTrap s) ∧
    (∃ nd, Placed selecting (run 1) ∧ addrSpace selecting 4 (run 1) = none ∧ (reg selecting (run 1) 2).toNat = 0x430000 ∧
      bits (dwAt selecting 0x430000) 3 0 = 1 ∧ InOwnTlm selecting 1 0x430000 64 ∧
      Readable selecting 0x430000 64 ∧ selecting.weak = [] ∧ tableHeadBad (dwAt selecting 0x430000) (dwAt selecting (0x430000 + 24)) = false ∧
      bit (dwAt selecting 0x430000) 8 = false ∧
      (∀ k, k < 1 → entryBad (entryWord selecting (0x430000 + 32 + 32 * k) 1) (entryWord selecting (0x430000 + 32 + 32 * k) 2)
        (entryWord selecting (0x430000 + 32 + 32 * k) 3) = false) ∧ Drained selecting ∧
      (∀ k, k < 1 → (reg selecting (run 1) 4).toNat.testBit k = false) ∧ (reg selecting (run 1) 3).toNat.testBit 0 = true ∧
      bits (entryWord selecting (0x430000 + 32) 3) 20 0 = 0 ∧
      memCheck selecting 4 (run 1) (BitVec.ofNat 64 (bits (entryWord selecting (0x430000 + 32) 1) 47 0)) 8 .write .block false = (selecting, .ok 0x440000 nd) ∧
      spaceOf 0x440000 = 0 ∧ selecting.jobOld = [] ∧
      Unwatched selecting (0x430000 + 16) 8 ∧ NoIntervals selecting ∧ snoopOf selecting (0x430000 + 16) = none) ∧
    (∃ s e, s = { withMe (base 1) (fun k => { k with stall := some (.sel 5 false 0x430000) }) with
        selects := [(0x430000, ⟨bootWptr 1, 5, false, 1, none, false, [], []⟩)] } ∧
      amGet s.selects 0x430000 = some e ∧ e.todo = [] ∧ e.poll = false ∧ claimOf s 0x430000 = 0 ∧ procCore s e.wptr = 4 ∧ (getProc s e.wptr).isSome = true ∧
      (getCore s 4).run = some (run 1) ∧ (run 1).wptr = e.wptr ∧ (getCore s 4).stall = some (.sel 5 false 0x430000) ∧ (run 1).pc.toNat % 4 = 0) ∧
    (∃ s p e, s = { modCore (withProc (base 1) 0x408400 5 0 3 (.sel 5 false 0x430000)) 5 (fun k => { k with
        slots := k.slots.setIfInBounds 0 (some { bootSlot 1 with wptr := 0x408400 }) }) with
        selects := [(0x430000, ⟨0x408400, 5, false, 1, some 0, false, [], []⟩)] } ∧
      getProc s 0x408400 = some p ∧ p.wait = .sel 5 false 0x430000 ∧ p.dying = false ∧ amGet s.selects 0x430000 = some e ∧ e.wptr = 0x408400 ∧ e.d = 5 ∧ e.deadline = some 0 ∧
      (0 : Word).toNat ≤ s.time.toNat ∧ pstate s 0x408400 = 3 ∧ e.todo = [] ∧ claimOf s 0x430000 = 0 ∧ (slotOf (getCore s p.core) 0x408400).isSome = true ∧
      (∀ r, (getCore s p.core).run = some r → r.wptr ≠ 0x408400)) := by
  refine ⟨⟨_, rfl, ⟨⟨rfl, rfl⟩, ⟨_, rfl, rfl⟩, by decide, rfl, nofun, nofun⟩, by decide, by unfold RoomToTrap; decide⟩,
    ⟨_, ⟨⟨rfl, rfl⟩, ⟨_, rfl, rfl⟩, by decide, rfl, nofun, nofun⟩, rfl, rfl, rfl, by unfold InOwnTlm; decide, ⟨rfl, rfl⟩, rfl, rfl, rfl,
      fun k hk => by obtain rfl : k = 0 := by omega
                     rfl,
      ⟨rfl, rfl⟩, fun k hk => by obtain rfl : k = 0 := by omega
                                 decide +kernel,
      by decide +kernel, rfl, rfl, rfl, rfl, ⟨fun _ _ => rfl, fun t h => by cases h; exact nofun⟩, nofun, rfl⟩,
    ⟨_, _, rfl, rfl, rfl, rfl, rfl, rfl, rfl, rfl, rfl, rfl, by decide⟩,
    ⟨_, _, _, rfl, rfl, rfl, rfl, rfl, rfl, rfl, rfl, by decide, rfl, rfl, rfl, rfl, nofun⟩⟩

theorem witness_ChannelSetUp :
    (∃ s nc l, s = withW (base 1) 2 0x6FFFF8 ∧ Issues s (run 1) ∧ addrSpace s 4 (run 1) = none ∧
      memCheck s 4 (run 1) (reg s (run 1) 2) 8 .write .block false = (s, .ok 0x6FFFF8 nc) ∧ uncorrectable s 0x6FFFF8 8 = false ∧
      chanMalformed (hw s 0x6FFFF8) = false ∧ Plain s 0x6FFFF8 8 ∧ snoopOf s 0x6FFFF8 = none ∧ wordHeld s 0x6FFFF8 = false ∧ Unwatched s 0x6FFFF8 8 ∧ (getRegion s 0).interval = none ∧
      reg s (run 1) 3 = 0 ∧ chanHead (hw s 0x6FFFF8) = 0 ∧ newBindings (getTile s 1).bindings 0x6FFFF8 0 0 = some l ∧ s.transfers = []) ∧
    (∃ s l x y, s = withMem (withW (base 1) 3 0x430000) 0x430000 8 0x408400 ∧ reg s (run 1) 3 ≠ 0 ∧
      memCheck s 4 (run 1) (reg s (run 1) 3) 8 .read .block false = (s, .ok 0x430000 x) ∧
      memCheck s 4 (run 1) (reg s (run 1) 3 + 8) 8 .read .block false = (s, .ok 0x430008 y) ∧ Readable s 0x430000 8 ∧ Readable s 0x430008 8 ∧
      (dwAt s 0x430000).toNat % 2 ^ 52 = 0x408400 ∧ newBindings (getTile s 1).bindings 0x440000 0x408400 0 = some l) ∧
    (∃ s, s = withMem (base 1) 0x430000 8 (2 ^ 63 + 0x4087E0) ∧ chanMalformed (hw s 0x430000) = false ∧ chanHead (hw s 0x430000) ≠ 0) :=
  ⟨⟨_, _, _, rfl, ⟨rfl, rfl⟩, rfl, rfl, rfl, rfl, plain_of _ _ _ (by decide), rfl, rfl, ⟨fun _ _ => rfl, fun t h => by cases h; exact nofun⟩, rfl, rfl, rfl, rfl, rfl⟩,
    ⟨_, _, _, _, rfl, by decide, rfl, rfl, ⟨rfl, rfl⟩, ⟨rfl, rfl⟩, by decide, rfl⟩, ⟨_, rfl, rfl, by decide⟩⟩


theorem residentOf_none (s : State) (w : Nat) (h : ∀ c i sl, slotAt (getCore s c) i = some sl → sl.wptr ≠ w) : residentOf s w = none := by
  have hs : ∀ c, slotOf (getCore s c) w = none := by
    intro c
    simp only [slotOf, List.find?_eq_none]
    intro i _ hx
    split at hx
    · rename_i sl hsl
      exact h c i sl hsl (by simpa using hx)
    · cases hx
  simp [residentOf, hs]

/-- Every resident workspace lies clear of the `n` bytes at `m`. -/
def slotsApart (s : State) (m n : Nat) : Bool :=
  s.cores.all fun p => [0, 1, 2, 3].all fun i =>
    match slotAt p.2 i with
    | some sl => decide (sl.wptr + 128 ≤ m ∨ m + n + 128 ≤ sl.wptr)
    | none => true

theorem slotAt_range (k : Core) (i : Nat) (sl : Slot) (h : slotAt k i = some sl) : i = 0 ∨ i = 1 ∨ i = 2 ∨ i = 3 := by
  by_cases hi : i < 4
  · omega
  · rw [slotAt, Vector.getElem?_eq_none (by omega)] at h; cases h

theorem slotAt_reset (i : Nat) : slotAt Core.reset i = none := by
  by_cases hi : i < 4
  · match i, hi with
    | 0, _ => rfl
    | 1, _ => rfl
    | 2, _ => rfl
    | 3, _ => rfl
  · rw [slotAt, Vector.getElem?_eq_none (by omega)]; rfl

theorem slot_apart (s : State) (m n : Nat) (h : slotsApart s m n = true) (c i : Nat) (sl : Slot) (hs : slotAt (getCore s c) i = some sl) :
    sl.wptr + 128 ≤ m ∨ m + n + 128 ≤ sl.wptr := by
  cases hc : amGet s.cores c with
  | none => rw [getCore, hc] at hs; rw [show (none : Option Core).getD Core.reset = Core.reset from rfl, slotAt_reset] at hs; cases hs
  | some k =>
    rw [getCore, hc] at hs
    have hk := List.all_eq_true.mp (List.all_eq_true.mp h _ (mem_of_amGet _ _ _ hc)) i (by have := slotAt_range _ _ _ hs; simp; omega)
    simp only [Option.getD_some] at hs
    simp only [hs] at hk
    exact of_decide_eq_true hk

theorem snoopOf_apart (s : State) (m n a : Nat) (h : slotsApart s m n = true) (h1 : m ≤ a) (h2 : a < m + n) : snoopOf s a = none := by
  have hr : ∀ w, m < w + 128 → w < m + n + 128 → residentOf s w = none := fun w hw hw' =>
    residentOf_none s w fun c i sl hs he => by have := slot_apart s m n h c i sl hs; omega
  unfold snoopOf
  rw [hr (headBase a) (by unfold headBase; omega) (by unfold headBase; omega), hr (ctrlBase a) (by unfold ctrlBase; omega) (by unfold ctrlBase; omega)]
  simp

/-- Every process's words lie clear of the `n` bytes at `m`. -/
def procsApart (s : State) (m n : Nat) : Bool := s.procs.all fun p => decide (p.1 + 128 ≤ m ∨ m + n + 128 ≤ p.1)

theorem workMask_apart (s : State) (m n a : Nat) (h : procsApart s m n = true) (h1 : m ≤ a) (h2 : a < m + n) : workMask s a = BitVec.allOnes 64 := by
  have hn : ∀ w, m < w + 128 → w < m + n + 128 → getProc s w = none := by
    intro w hw hw'
    cases hc : amGet s.procs w with
    | none => exact hc
    | some p =>
      have := of_decide_eq_true (List.all_eq_true.mp h _ (mem_of_amGet _ _ _ hc))
      simp only at this; omega
  unfold workMask
  rw [hn (headBase a) (by unfold headBase; omega) (by unfold headBase; omega), hn (ctrlBase a) (by unfold ctrlBase; omega) (by unfold ctrlBase; omega)]
  simp

theorem plainAt_of (s : State) (m n : Nat) (h8 : m % 8 = 0) (h : slotsApart s m n = true) (hp : procsApart s m n = true) (hb : s.bad = [])
    (hu : Unwatched s m n) (hn : NoIntervals s) : PlainAt s m n :=
  ⟨h8, fun a h1 h2 _ => ⟨snoopOf_apart s m n a h h1 h2, workMask_apart s m n a hp h1 h2⟩, by simp [hb], hu, hn⟩

/-- Nothing is held anywhere: no guards, no held accesses, and no core in the middle of an instruction. -/
def portsFree (s : State) : Bool := s.tiles.all (fun p => p.2.guards.isEmpty && p.2.held.isEmpty) && s.cores.all fun p => p.2.stall.isNone

theorem tile_free (s : State) (h : portsFree s = true) (t : Nat) : (getTile s t).guards = [] ∧ (getTile s t).held = [] := by
  simp only [portsFree, Bool.and_eq_true] at h
  cases ht : amGet s.tiles t with
  | none => rw [getTile, ht]; exact ⟨rfl, rfl⟩
  | some k =>
    have := List.all_eq_true.mp h.1 _ (mem_of_amGet _ _ _ ht)
    rw [getTile, ht]
    simpa only [Option.getD_some, Bool.and_eq_true, List.isEmpty_iff] using this

theorem mid_free (s : State) (h : portsFree s = true) (pa n : Nat) : midInstr s pa n = false := by
  have hs : ∀ c, (getCore s c).stall = none := by
    intro c
    simp only [portsFree, Bool.and_eq_true] at h
    cases hc : amGet s.cores c with
    | none => rw [getCore, hc]; rfl
    | some k =>
      have := List.all_eq_true.mp h.2 _ (mem_of_amGet _ _ _ hc)
      rw [getCore, hc]
      exact Option.isNone_iff_eq_none.mp this
  simp only [midInstr, hs, Option.isSome_none, Bool.false_and, Bool.and_eq_false_imp]
  intro _
  rw [List.any_eq_false]
  intro i _
  split <;> simp

theorem guard_free (s : State) (h : portsFree s = true) (pa n : Nat) (own : Option Nat) (sm : Bool) (but : Guard → Bool) :
    guardHoldsBut s pa n own sm but = false := by
  unfold guardHoldsBut
  rw [mid_free s h]
  cases homeTile pa with
  | none => rfl
  | some t => simp [(tile_free s h t).1]

theorem port_free (s : State) (h : portsFree s = true) (pa n : Nat) (who : HeldBy) (sm : Bool) : portHolds s pa n who sm = false := by
  unfold portHolds guardHoldsFor
  rw [guard_free s h]
  cases homeTile pa with
  | none => rfl
  | some t => simp [heldBefore, (tile_free s h t).2]

/-- A ring control block at 0x430000, named by W1, with `v` in W2. -/
def ring (start cap head commit tail v : Nat) : State :=
  withMem (withMem (withMem (withMem (withMem (withW (withW (Tests.base 1) 1 0x430000) 2 (BitVec.ofNat 64 v)) 0x430000 8 start) 0x430008 8 cap)
    0x430010 8 head) 0x430018 8 commit) 0x430020 8 tail

/-- A ring whose first three granules are published before a pad of one, with a claim beyond it under way. -/
def ringPad : State := withMem (ring 0x440000 4 0 3 6 3) 0x430028 8 (3 * 2 ^ 16 + 1)

/-- The rings of the clauses below. -/
def rings : List State :=
  [ring 0x440020 4 0 0 0 0, ring 0x440000 4 0 0 0 5, ring 0x440000 4 0 0 0 4, ring 0x440000 4 3 3 3 2, ring 0x440000 4 0 0 4 1,
    ring 0x440000 4 0 1 4 (3 * 2 ^ 48 + 0x440040), ring 0x440000 4 0 4 4 4, ring 0x440000 4 0 0 0 0, ring 0x440000 4 0 0 0 2, ringPad, ring (2 ^ 48) 4 0 0 0 0,
    ring 0x440000 8 4 4 6 3, ring 0x440000 4 0 0 2 (2 ^ 48 + 0x440040), ring 0x440000 4 0 0 2 (2 ^ 48 + 0x43FFC0)]

theorem rings_ready (s : State) (hs : s ∈ rings) : RingReady s (run 1) (reg s (run 1) 1) 0x430000 ∧ Placed s (run 1) ∧ RoomToTrap s ∧
    ∀ h, homeTile 0x430000 = some h → (getTile s h).watches.length < 64 := by
  unfold RoomToTrap
  simp only [rings, List.mem_cons, List.not_mem_nil, or_false] at hs
  rcases hs with rfl | rfl | rfl | rfl | rfl | rfl | rfl | rfl | rfl | rfl | rfl | rfl | rfl | rfl <;>
    exact ⟨⟨⟨rfl, rfl⟩, ⟨rfl, rfl⟩, ⟨_, _, rfl⟩, rfl, port_free _ rfl _ _ _ _, plainAt_of _ _ _ rfl rfl rfl rfl ⟨fun _ _ => rfl, fun t h => by cases h; exact nofun⟩ nofun⟩,
      ⟨⟨rfl, rfl⟩, ⟨_, rfl, rfl⟩, by decide, rfl, nofun, nofun⟩, by decide, fun h e => by cases e; decide⟩

theorem witness_RingsCount :
    (∀ s ∈ rings, RingReady s (run 1) (reg s (run 1) 1) 0x430000 ∧ Placed s (run 1) ∧ RoomToTrap s ∧
      ∀ h, homeTile 0x430000 = some h → (getTile s h).watches.length < 64) ∧
    (∃ k, k = ringAt (ring 0x440020 4 0 0 0 0) 0x430000 ∧ k.base % 64 ≠ 0) ∧
    (∃ s k, s = ring 0x440000 4 0 0 0 5 ∧ k = ringAt s 0x430000 ∧ k.mbz = false ∧ k.base % 64 = 0 ∧ k.cap ≠ 0 ∧ k.cap < (reg s (run 1) 2).toNat) ∧
    (∃ s k n, s = ring 0x440000 4 0 0 0 4 ∧ k = ringAt s 0x430000 ∧ n = (reg s (run 1) 2).toNat ∧ n ≠ 0 ∧ n ≤ k.cap - k.tail % k.cap ∧ n ≤ k.free) ∧
    (∃ s k n, s = ring 0x440000 4 3 3 3 2 ∧ k = ringAt s 0x430000 ∧ n = (reg s (run 1) 2).toNat ∧ n ≤ k.cap ∧ k.cap - k.tail % k.cap < n ∧ k.head = k.tail) ∧
    (∃ s k n, s = ring 0x440000 4 0 0 4 1 ∧ k = ringAt s 0x430000 ∧ n = (reg s (run 1) 2).toNat ∧ n ≠ 0 ∧ n ≤ k.cap - k.tail % k.cap ∧ k.free < n) ∧
    (∃ s k p c0, s = ring 0x440000 4 0 1 4 (3 * 2 ^ 48 + 0x440040) ∧ k = ringAt s 0x430000 ∧ k.base ≤ (reg s (run 1) 2).toNat % 2 ^ 48 ∧
      p = ((reg s (run 1) 2).toNat % 2 ^ 48 - k.base) / 64 ∧ ((reg s (run 1) 2).toNat % 2 ^ 48 - k.base) % 64 = 0 ∧ p < k.cap ∧
      c0 = k.commit + (if k.pads = k.commit % 2 ^ 48 then k.padn else 0) ∧ c0 % k.cap = p ∧ c0 < k.tail ∧ c0 + (reg s (run 1) 2).toNat / 2 ^ 48 ≤ k.tail) ∧
    (∃ s k n, s = ring 0x440000 4 0 4 4 4 ∧ k = ringAt s 0x430000 ∧ k.commit ≠ k.head ∧ n = (reg s (run 1) 2).toNat ∧ n ≠ 0 ∧ n ≤ k.run ∧ k.padn = 0) ∧
    (∃ s k, s = ring 0x440000 4 0 0 0 0 ∧ k = ringAt s 0x430000 ∧ k.commit = k.head ∧ reg s (run 1) 2 = 0) ∧ reg (ring 0x440000 4 0 0 0 2) (run 1) 2 = 2 ∧
    (∃ k n, k = ringAt ringPad 0x430000 ∧ n = (reg ringPad (run 1) 2).toNat ∧ n ≠ 0 ∧ k.commit ≠ k.head ∧ n ≤ k.run ∧ k.padn ≠ 0 ∧ k.padDist = n ∧
      k.commit < k.head + n + k.padn) ∧
    (ringAt (ring (2 ^ 48) 4 0 0 0 0) 0x430000).mbz = true ∧
    (∃ s k n ma nc, s = ring 0x440000 8 4 4 6 3 ∧ k = ringAt s 0x430000 ∧ n = (reg s (run 1) 2).toNat ∧ n ≤ k.cap ∧ k.cap - k.tail % k.cap < n ∧ k.head ≠ k.tail ∧
      n + (k.cap - k.tail % k.cap) ≤ k.free ∧ addrSpace s 4 (run 1) = none ∧ ma = k.base + 64 * (k.tail % k.cap) ∧
      memCheck s 4 (run 1) (BitVec.ofNat 64 ma) 8 .write .block false = (s, .ok ma nc) ∧ portHolds s ma 8 (.instr s.cur) (run 1).sm = false ∧ PlainAt s ma 8 ∧
      0x430000 + 64 ≤ ma) ∧
    (∃ s k p, s = ring 0x440000 4 0 0 2 (2 ^ 48 + 0x440040) ∧ k = ringAt s 0x430000 ∧ k.base ≤ (reg s (run 1) 2).toNat % 2 ^ 48 ∧
      p = ((reg s (run 1) 2).toNat % 2 ^ 48 - k.base) / 64 ∧ ((reg s (run 1) 2).toNat % 2 ^ 48 - k.base) % 64 = 0 ∧ p < k.cap ∧
      0 = k.commit + (if k.pads = k.commit % 2 ^ 48 then k.padn else 0) ∧ 1 = 0 + (p + k.cap - 0 % k.cap) % k.cap ∧ 1 < k.tail ∧
      1 + (reg s (run 1) 2).toNat / 2 ^ 48 ≤ k.tail) ∧
    (∃ s k, s = ring 0x440000 4 0 0 2 (2 ^ 48 + 0x43FFC0) ∧ k = ringAt s 0x430000 ∧ (reg s (run 1) 2).toNat % 2 ^ 48 < k.base) := by
  exact ⟨rings_ready, ⟨_, rfl, by decide⟩,
    ⟨_, _, rfl, rfl, by decide, by decide, by decide, by decide⟩, ⟨_, _, 4, rfl, rfl, by decide, by decide, by decide, by decide⟩,
    ⟨_, _, 2, rfl, rfl, by decide, by decide, by decide, by decide⟩, ⟨_, _, 1, rfl, rfl, by decide, by decide, by decide, by decide⟩,
    ⟨_, _, 1, 1, rfl, rfl, by decide, by decide, by decide, by decide, by decide, by decide, by decide, by decide⟩,
    ⟨_, _, 4, rfl, rfl, by decide, by decide, by decide, by decide, by decide⟩, ⟨_, _, rfl, rfl, by decide, rfl⟩, rfl,
    ⟨_, 3, rfl, by decide, by decide, by decide, by decide, by decide, by decide, by decide⟩, by decide,
    ⟨_, _, 3, 0x440180, false, rfl, rfl, by decide, by decide, by decide, by decide, by decide, rfl, by decide, rfl, port_free _ rfl _ _ _ _,
      plainAt_of _ _ _ rfl rfl rfl rfl ⟨fun _ _ => rfl, fun t h => by cases h; exact nofun⟩ nofun, by decide⟩,
    ⟨_, _, 1, rfl, rfl, by decide, by decide, by decide, by decide, by decide, by decide, by decide, by decide⟩, ⟨_, _, rfl, rfl, by decide⟩⟩

theorem no_watches (s : State) (h : s.tiles.all (fun p => p.2.watches.isEmpty) = true) (t : Nat) : (getTile s t).watches = [] := by
  cases ht : amGet s.tiles t with
  | none => rw [getTile, ht]; rfl
  | some k => rw [getTile, ht]; exact List.isEmpty_iff.mp (List.all_eq_true.mp h _ (mem_of_amGet _ _ _ ht))

/-- With a job of the running process in an entry. -/
def withJob (s : State) (key : Nat) (f : Job → Job) : State := putEntry s key ⟨1, none, some (f (captured s 4 (run 1) (key / 32) 0)), none, none, 0⟩

/-- The executing tile's file with 128 live tiles, and W1 = `v`. -/
def filed (v : Word) : State := modTile (withW (base 1) 1 v) 1 fun k => { k with accLive := 128 }

theorem witness_AccumulatorFile :
    (∃ s off, s = filed 0x1FFFC0 ∧ Issues s (run 1) ∧ AccOpen s (run 1) ∧ off = reg s (run 1) 1 ∧ off.toNat < 2 ^ 21 ∧ AccFree s (off.toNat / 2 ^ 14) ∧
      off.toNat % 64 = 0) ∧
    (∃ s off, s = filed 0x1FFFF8 ∧ Issues s (run 1) ∧ AccOpen s (run 1) ∧ off = reg s (run 1) 1 ∧ off.toNat < 2 ^ 21 ∧ AccFree s (off.toNat / 2 ^ 14) ∧
      off.toNat % 8 = 0 ∧ uncorrectable s (2 ^ 48 + coreTile s.cur * 0x200000 + off.toNat) 8 = false ∧
      Unwatched s (2 ^ 48 + coreTile s.cur * 0x200000 + off.toNat) 8 ∧ (getRegion s (run 1).rcb).interval = none) ∧
    (∃ s off, s = withJob (filed 0x1FFFF8) (4 * 1 * 32) (fun j => { j with accW := BitVec.allOnes 128 }) ∧ Placed s (run 1) ∧ AccOpen s (run 1) ∧ off = reg s (run 1) 1 ∧
      off.toNat < 2 ^ 21 ∧ off.toNat % 8 = 0 ∧ off.toNat / 2 ^ 14 < (getTile s (coreTile s.cur)).accLive ∧
      accBusy s (coreTile s.cur) (off.toNat / 2 ^ 14) = true) ∧
    (∃ s, s = filed 127 ∧ Issues s (run 1) ∧ AccOpen s (run 1) ∧ (reg s (run 1) 1).toNat = 127 ∧ AccFree s 127 ∧
      Unlogged s (2 ^ 48 + coreTile s.cur * 0x200000 + 16384 * 127)) ∧
    (∃ s, s = filed 0xFF80 ∧ Issues s (run 1) ∧ AccOpen s (run 1) ∧ (reg s (run 1) 1).toNat = 255 * 2 ^ 8 + 128 ∧
      fileFree (modCore s s.cur fun k => { k with prefetch := [] }) (coreTile s.cur) = true) ∧
    (∃ s, s = base 12288 ∧ Placed s (run 12288) ∧ RoomToTrap s ∧ isRim (coreTile s.cur) = true) := by
  refine ⟨⟨_, 0x1FFFC0, rfl, ⟨rfl, rfl⟩, ⟨rfl, rfl, rfl⟩, rfl, by decide, ⟨by decide, rfl, rfl, rfl, rfl⟩, by decide⟩,
    ⟨_, 0x1FFFF8, rfl, ⟨rfl, rfl⟩, ⟨rfl, rfl, rfl⟩, rfl, by decide, ⟨by decide, rfl, rfl, rfl, rfl⟩, by decide, by decide +kernel, ⟨fun _ _ => rfl, fun t _ => by rw [no_watches _ rfl]; exact nofun⟩, rfl⟩,
    ⟨_, 0x1FFFF8, rfl, ⟨⟨rfl, rfl⟩, ⟨_, rfl, rfl⟩, by decide, rfl, by decide, nofun⟩, ⟨rfl, rfl, rfl⟩, rfl, by decide, by decide, by decide, by decide +kernel⟩,
    ⟨_, rfl, ⟨rfl, rfl⟩, ⟨rfl, rfl, rfl⟩, rfl, ⟨by decide, rfl, rfl, rfl, rfl⟩, fun _ _ => rfl⟩, ⟨_, rfl, ⟨rfl, rfl⟩, ⟨rfl, rfl, rfl⟩, rfl, rfl⟩,
    ⟨_, rfl, ⟨⟨rfl, rfl⟩, ⟨_, rfl, rfl⟩, by decide, rfl, nofun, nofun⟩, by unfold RoomToTrap; decide, rfl⟩⟩

theorem witness_TokensAndPlaces :
    (∃ s, s = withMe (withW (base 1) 1 7) (fun k => { k with request := some (220, 0) }) ∧ Issues s (run 1) ∧ isRim (coreTile s.cur) = false ∧
      (reg s (run 1) 1).toNat = 7 ∧ (me s).request = some (220, 0)) ∧
    (Issues (base 1) (run 1) ∧ (me (base 1)).request = none) ∧
    (∃ s r, s = inRegion (withRegion (base 1) 0x420000 0 1) 0x420000 ∧ Issues s r ∧ mapFrozen s r.rcb = false ∧
      resolvePlace s r.rcb (coreTile s.cur) (reg s r 1) (some (coreIdx s.cur)) r.sm = .ok 1 0) ∧
    (∃ s, s = withW (base 1) 1 8 ∧ Placed s (run 1) ∧ RoomToTrap s ∧ isRim (coreTile s.cur) = false ∧ 8 ≤ (reg s (run 1) 1).toNat) ∧
    (∃ s, s = base 12288 ∧ Placed s (run 12288) ∧ RoomToTrap s ∧ isRim (coreTile s.cur) = true) := by
  refine ⟨⟨_, rfl, ⟨rfl, rfl⟩, rfl, rfl, rfl⟩, ⟨⟨rfl, rfl⟩, rfl⟩, ⟨_, { run 1 with rcb := 0x420000 }, rfl, ⟨rfl, rfl⟩, rfl, rfl⟩,
    ⟨_, rfl, ⟨⟨rfl, rfl⟩, ⟨_, rfl, rfl⟩, by decide, rfl, nofun, nofun⟩, by unfold RoomToTrap; decide, rfl, by decide⟩,
    ⟨_, rfl, ⟨⟨rfl, rfl⟩, ⟨_, rfl, rfl⟩, by decide, rfl, nofun, nofun⟩, by unfold RoomToTrap; decide, rfl⟩⟩

/-- A context map at 0x430000, named by W1, with `v` in W2. -/
def mapped (cap last first nuse ntok : Nat) (v : Word) : State :=
  withMem (withMem (withW (withW (base 1) 1 0x430000) 2 v) 0x430008 8 (cap * 2 ^ 32 + last * 2 ^ 16 + first)) 0x430010 8 (nuse * 2 ^ 24 + ntok)

/-- With an entry of it: position, count, repair address, layers and state. -/
def withEnt (s : State) (i pbase count rbase lc ro st : Nat) : State :=
  withMem (withMem (withMem (withMem s (0x430048 + 64 * i) 8 rbase) (0x430060 + 64 * i) 8 (pbase * 2 ^ 16 + count * 2 ^ 10)) (0x430068 + 64 * i) 8
    (ro * 2 ^ 40 + lc * 2 ^ 32)) (0x430070 + 64 * i) 8 (st * 2 ^ 62)

/-- With an attention job that holds a reference to the map. -/
def held (s : State) : State := withJob s (4 * 1 * 32 + 2 * 32) fun j => { j with mapRef := some 0x430000 }

def maps : List State :=
  [withMem (withMem (mapped 4096 0 0 0 0 0x480000) 0x480020 8 0x8000) 0x480038 8 4095,
    withMem (withMem (mapped 4096 0 0 0 (2 ^ 24 - 33) 0x480000) 0x480020 8 ((2 ^ 24 - 33) * 2 ^ 16 + 0x8000)) 0x480038 8 (2 ^ 16 + 4095),
    withEnt (mapped 4096 0 0 0 0 4095) 4095 0 32 0 0xFF 0xFF 1, mapped 4096 0 0 0 0 4095,
    withEnt (mapped 4096 4096 4096 1 32 4095) 4095 0 32 0x440000 0xFF 0xFF 2, held (withEnt (mapped 4096 4096 4096 1 32 4095) 4095 0 32 0 0xFF 0xFF 2),
    withEnt (mapped 4096 0 0 0 0 (4095 * 2 ^ 32)) 4095 0 32 0 0xFF 0xFF 1, held (withEnt (mapped 4096 0 0 0 0 (4095 * 2 ^ 32)) 4095 0 32 0 0xFF 0xFF 1),
    withMem (withEnt (mapped 4096 0 0 0 0 4095) 4095 0 32 0 0xFF 0xFF 1) (0x430058 + 64 * 4095) 8 (2 ^ 48),
    withEnt (mapped 4096 4096 4096 1 32 (4095 * 2 ^ 16)) 4095 0 32 0x440000 0xFF 0xFF 2,
    withEnt (mapped 4096 4096 4096 1 32 (4095 * 2 ^ 16 + 254)) 4095 0 32 0x440000 253 254 2,
    withMem (withMem (withEnt (withEnt (mapped 4096 2 1 2 64 0) 0 0 32 0 0xFF 0xFF 2) 1 32 32 0 0xFF 0xFF 2) 0x430070 8 (2 ^ 63 + 2)) 0x4300A0 8
      (0x800001 * 2 ^ 40 + 32 * 2 ^ 16 + 32 * 2 ^ 10)]

/-- The further pages of a map that spans four of them. -/
theorem map_pages (s : State) {P : Nat → Prop} (h : mapSpan s 0x430000 = 4) (hp : ∀ i : Fin 4, P i) : ∀ i, i < mapSpan s 0x430000 → P i :=
  fun i hi => hp ⟨i, by omega⟩

set_option maxRecDepth 4096 in
theorem maps_ready (s : State) (hs : s ∈ maps) : MapReady s (run 1) (reg s (run 1) 1) 0x430000 ∧ Placed s (run 1) ∧ (kvHead s 0x430000).bad = false ∧
    lockTaken s 0x430000 (run 1).wptr = false := by
  simp only [maps, List.mem_cons, List.not_mem_nil, or_false] at hs
  rcases hs with rfl | rfl | rfl | rfl | rfl | rfl | rfl | rfl | rfl | rfl | rfl | rfl <;>
    exact ⟨⟨⟨rfl, rfl⟩, ⟨rfl, rfl⟩, rfl, ⟨_, rfl⟩, rfl, plainAt_of _ _ _ rfl rfl rfl rfl ⟨fun _ _ => rfl, fun t _ => by rw [no_watches _ rfl]; exact nofun⟩ nofun,
        rfl, map_pages _ rfl fun i => by match i with | 0 => exact ⟨rfl, _, rfl⟩ | 1 => exact ⟨rfl, _, rfl⟩ | 2 => exact ⟨rfl, _, rfl⟩ | 3 => exact ⟨rfl, _, rfl⟩,
        port_free _ rfl _ _ _ _, fun _ _ => port_free _ rfl _ _ _ _⟩,
      ⟨⟨rfl, rfl⟩, ⟨_, rfl, rfl⟩, by decide, rfl, by decide, nofun⟩, rfl, rfl⟩

/-- The clauses' states, by their place in the list above. -/
def mapNo (n : Nat) : State := maps.getD n (base 1)

set_option maxRecDepth 4096 in
theorem witness_ContextMaps :
    (∀ s ∈ maps, MapReady s (run 1) (reg s (run 1) 1) 0x430000 ∧ Placed s (run 1) ∧ (kvHead s 0x430000).bad = false ∧ lockTaken s 0x430000 (run 1).wptr = false) ∧
    (∃ s w, s = mapNo 0 ∧ memCheck s 4 (run 1) (reg s (run 1) 2) 64 .read .block false = (s, .ok 0x480000 false) ∧ Readable s 0x480000 64 ∧
      w = (fun k => dwAt s (0x480000 + 8 * k)) ∧ imageBad w = false ∧ 4095 = (w 7).toNat % 2 ^ 12 ∧ 4095 < (kvHead s 0x430000).cap ∧
      (kvEnt s 0x430000 4095).st = 0 ∧ bit (w 7) 16 = false) ∧
    (∃ s w, s = mapNo 1 ∧ memCheck s 4 (run 1) (reg s (run 1) 2) 64 .read .block false = (s, .ok 0x480000 false) ∧ Readable s 0x480000 64 ∧
      w = (fun k => dwAt s (0x480000 + 8 * k)) ∧ imageBad w = false ∧ 4095 = (w 7).toNat % 2 ^ 12 ∧ 4095 < (kvHead s 0x430000).cap ∧
      (kvEnt s 0x430000 4095).st = 0 ∧ bit (w 7) 16 = true ∧ (kvHead s 0x430000).ntok + (kvEntOf w).count < 2 ^ 24 ∧ (kvHead s 0x430000).nuse < 2 ^ 12 ∧
      deltaOk ((kvEntOf w).delta + ((kvHead s 0x430000).ntok : Int) - ((kvEntOf w).pbase : Int)) = true) ∧
    (∃ s, s = mapNo 2 ∧ (reg s (run 1) 2).toNat = 4095 ∧ 4095 < (kvHead s 0x430000).cap ∧ (kvEnt s 0x430000 4095).st = 1 ∧ (kvEnt s 0x430000 4095).tag = 0) ∧
    (∃ s, s = mapNo 3 ∧ (reg s (run 1) 2).toNat = 4095 ∧ 4095 < (kvHead s 0x430000).cap ∧ (kvEnt s 0x430000 4095).st = 0) ∧
    (∃ s, s = mapNo 4 ∧ (reg s (run 1) 2).toNat = 4095 ∧ (kvEnt s 0x430000 4095).st = 2 ∧ 4095 ∈ kvInUse s 0x430000 ∧ mapRefs s 0x430000 = false ∧
      mapGuarded s 0x430000 (kvInUse s 0x430000) (run 1).sm = false ∧ kvInUse s 0x430000 = [4095] ∧ (kvHead s 0x430000).nuse = 1) ∧
    (∃ s, s = mapNo 11 ∧ (reg s (run 1) 2).toNat = 0 ∧ (kvEnt s 0x430000 0).st = 2 ∧ 0 ∈ kvInUse s 0x430000 ∧ mapRefs s 0x430000 = false ∧
      mapGuarded s 0x430000 (kvInUse s 0x430000) (run 1).sm = false ∧ 1 ∈ kvInUse s 0x430000 ∧ (kvEnt s 0x430000 0).pbase < (kvEnt s 0x430000 1).pbase ∧
      deltaOk ((kvEnt s 0x430000 1).delta - ((kvEnt s 0x430000 0).count : Int)) = false) ∧
    (∃ s, s = mapNo 5 ∧ (reg s (run 1) 2).toNat = 4095 ∧ (kvEnt s 0x430000 4095).st = 2 ∧ 4095 ∈ kvInUse s 0x430000 ∧ mapRefs s 0x430000 = true ∧
      (run 1).wptr + 128 ≤ 0x430000) ∧
    (∃ s pl, s = mapNo 6 ∧ bits (reg s (run 1) 2) 31 24 = 0 ∧ bits (reg s (run 1) 2) 47 44 = 0 ∧ bits (reg s (run 1) 2) 62 60 = 0 ∧
      spliceCheck s 0x430000 (coreTile s.cur) (reg s (run 1) 2) (pcsr s (run 1) 8) = .inr pl ∧
      bits (getTile s (coreTile s.cur)).wrevtab 51 14 * 2 ^ 14 + 2 ^ 14 ≤ 0x430000 ∧ mapRefs s 0x430000 = false ∧
      mapGuarded s 0x430000 (rewriteEntries s 0x430000 (coreTile s.cur) true (reg s (run 1) 2) (pcsr s (run 1) 8)) (run 1).sm = false) ∧
    (∃ s pl, s = mapNo 7 ∧ spliceCheck s 0x430000 (coreTile s.cur) (reg s (run 1) 2) (pcsr s (run 1) 8) = .inr pl ∧
      bits (getTile s (coreTile s.cur)).wrevtab 51 14 * 2 ^ 14 + 2 ^ 14 ≤ 0x430000 ∧ mapRefs s 0x430000 = true) ∧
    (∃ s, s = mapNo 8 ∧ (reg s (run 1) 2).toNat = 4095 ∧ (kvEnt s 0x430000 4095).st = 1 ∧ (kvEnt s 0x430000 4095).tag ≠ 0 ∧
      bits (kvEnt s 0x430000 4095).tag 63 48 ≠ bits (pcsr s (run 1) 8) 15 0) ∧
    (∃ s, s = mapNo 9 ∧ (reg s (run 1) 2).toNat = 4095 * 2 ^ 16 + 0 ∧ (kvEnt s 0x430000 4095).st = 2 ∧ 0 = nextLayer (kvEnt s 0x430000 4095) ∧
      (kvEnt s 0x430000 4095).rbase ≠ 0 ∧ (kvEnt s 0x430000 4095).ro = 0xFF) ∧
    (∃ s, s = mapNo 10 ∧ (reg s (run 1) 2).toNat = 4095 * 2 ^ 16 + 254 ∧ (kvEnt s 0x430000 4095).st = 2 ∧ 254 = nextLayer (kvEnt s 0x430000 4095) ∧
      (kvEnt s 0x430000 4095).ro = 254) :=
  ⟨maps_ready, ⟨_, _, rfl, rfl, ⟨rfl, rfl⟩, rfl, rfl, rfl, by decide, rfl, rfl⟩,
    ⟨_, _, rfl, rfl, ⟨rfl, rfl⟩, rfl, rfl, rfl, by decide, rfl, rfl, by decide, by decide, rfl⟩, ⟨_, rfl, rfl, by decide, rfl, rfl⟩, ⟨_, rfl, rfl, by decide, rfl⟩,
    ⟨_, rfl, rfl, rfl, by decide, rfl, by decide +kernel, by decide, rfl⟩,
    ⟨_, rfl, rfl, rfl, by decide, rfl, by decide +kernel, by decide, by decide, by decide⟩, ⟨_, rfl, rfl, rfl, by decide, rfl, by decide⟩,
    ⟨_, _, rfl, rfl, rfl, rfl, rfl, by decide, rfl, by decide +kernel⟩, ⟨_, _, rfl, rfl, by decide, rfl⟩,
    ⟨_, rfl, rfl, rfl, by decide, by decide⟩, ⟨_, rfl, rfl, rfl, rfl, by decide, rfl⟩, ⟨_, rfl, rfl, rfl, rfl, rfl⟩⟩

/-- A descriptor of group 5 at 0x430000 with one member: core 0 of tile 1, in the group or not, its JSEQ; HSEQ 7. W1 names it, W2 = `v`. -/
def grouped (isIn jseq : Nat) (tile : Nat) (v : Word) : State :=
  withMem (withMem (withMem (withMem (withW (withW (base 1) 1 0x430000) 2 v) 0x430000 8 (2 ^ 16 + 5)) 0x430008 8 7) 0x430040 8 (isIn * 2 ^ 63 + tile * 2 ^ 16))
    0x430048 8 jseq

def groups : List State :=
  [withMem (withMem (grouped 1 7 1 7) 0x430040 8 (3 * 2 ^ 62 + 2 ^ 16)) 0x430048 8 (9 * 2 ^ 32 + 7), withMem (grouped 0 0 1 0xFFFFFFFF) 0x430010 8 1, grouped 0 0 2 0xFFFFFFFF, grouped 0 0 1 7, grouped 1 7 1 7, grouped 1 7 1 8, grouped 1 7 1 0, grouped 1 7 1 1,
    grouped 1 7 1 2]

theorem groups_ready (s : State) (hs : s ∈ groups) : GroupReady s (run 1) (reg s (run 1) 1) 0x430000 ∧
    portHolds s 0x430000 (descLen s 0x430000) (.instr s.cur) (run 1).sm = false := by
  simp only [groups, List.mem_cons, List.not_mem_nil, or_false] at hs
  rcases hs with rfl | rfl | rfl | rfl | rfl | rfl | rfl | rfl | rfl <;>
    exact ⟨⟨⟨rfl, rfl⟩, ⟨rfl, rfl⟩, rfl, ⟨_, rfl⟩, rfl, plainAt_of _ _ _ rfl rfl rfl rfl ⟨fun _ _ => rfl, fun t _ => by rw [no_watches _ rfl]; exact nofun⟩ nofun⟩,
      port_free _ rfl _ _ _ _⟩

theorem witness_GroupsChange :
    (∀ s ∈ groups, GroupReady s (run 1) (reg s (run 1) 1) 0x430000 ∧ portHolds s 0x430000 (descLen s 0x430000) (.instr s.cur) (run 1).sm = false) ∧
    (∃ s, s = withMem (grouped 0 0 1 0xFFFFFFFF) 0x430010 8 1 ∧ s ∈ groups ∧ (reg s (run 1) 2).toNat = 0xFFFFFFFF ∧ gMalformed s 0x430000 = true) ∧
    (∃ s, s = grouped 0 0 2 0xFFFFFFFF ∧ s ∈ groups ∧ (reg s (run 1) 2).toNat = 0xFFFFFFFF ∧ gMalformed s 0x430000 = false ∧
      memberNamed s 0x430000 s.cur = none) ∧
    (∃ s n e, s = grouped 0 0 1 7 ∧ s ∈ groups ∧ memberNamed s 0x430000 s.cur = some (n, e) ∧ (reg s (run 1) 2).toNat = 7 ∧ gMalformed s 0x430000 = false ∧
      isCurrent s 0x430000 e = false ∧ serLt 7 (gHseq s 0x430000) = false ∧ (getTile s 1).groups.length < 16) ∧
    (∃ s n e, s = grouped 1 7 1 7 ∧ s ∈ groups ∧ memberNamed s 0x430000 s.cur = some (n, e) ∧ (reg s (run 1) 2).toNat = 7 ∧ gMalformed s 0x430000 = false ∧
      isCurrent s 0x430000 e = true ∧ 7 = e.jseq ∧ (getTile s 1).groups.length < 16 ∧ e.lv = false) ∧
    (∃ s n e, s = withMem (withMem (grouped 1 7 1 7) 0x430040 8 (3 * 2 ^ 62 + 2 ^ 16)) 0x430048 8 (9 * 2 ^ 32 + 7) ∧ s ∈ groups ∧
      memberNamed s 0x430000 s.cur = some (n, e) ∧ (reg s (run 1) 2).toNat = 7 ∧ gMalformed s 0x430000 = false ∧ isCurrent s 0x430000 e = true ∧ 7 = e.jseq ∧
      (getTile s 1).groups.length < 16 ∧ e.lv = true ∧ serLe e.lseq 7 = false) ∧
    (∃ s n e, s = grouped 1 7 1 8 ∧ s ∈ groups ∧ memberNamed s 0x430000 s.cur = some (n, e) ∧ (reg s (run 1) 2).toNat = 8 ∧ gMalformed s 0x430000 = false ∧
      isCurrent s 0x430000 e = true ∧ serLt 8 (gHseq s 0x430000) = false ∧ serLt 8 e.jseq = false) ∧
    (∃ s, s = grouped 1 7 1 0 ∧ s ∈ groups ∧ reg s (run 1) 2 = 0) ∧ (∃ s, s = grouped 1 7 1 1 ∧ s ∈ groups ∧ reg s (run 1) 2 = 1) ∧
    (∃ s, s = grouped 1 7 1 2 ∧ s ∈ groups ∧ reg s (run 1) 2 = 2 ∧ gMalformed s 0x430000 = false) :=
  ⟨groups_ready, ⟨_, rfl, by simp [groups], rfl, rfl⟩, ⟨_, rfl, by simp [groups], rfl, rfl, rfl⟩,
    ⟨_, 0, ⟨false, false, 0, 1, 0, 0, 0, false⟩, rfl, by simp [groups], rfl, rfl, rfl, by decide +kernel, by decide +kernel, by decide⟩,
    ⟨_, 0, ⟨true, false, 0, 1, 0, 0, 7, false⟩, rfl, by simp [groups], rfl, rfl, rfl, by decide +kernel, by decide +kernel, by decide, rfl⟩,
    ⟨_, 0, ⟨true, true, 0, 1, 0, 9, 7, false⟩, rfl, by simp [groups], rfl, rfl, rfl, by decide +kernel, by decide +kernel, by decide, rfl, by decide⟩,
    ⟨_, 0, ⟨true, false, 0, 1, 0, 0, 7, false⟩, rfl, by simp [groups], rfl, rfl, rfl, by decide +kernel, by decide +kernel, by decide +kernel⟩, ⟨_, rfl, by simp [groups], rfl⟩, ⟨_, rfl, by simp [groups], rfl⟩,
    ⟨_, rfl, by simp [groups], rfl, rfl⟩⟩

/-- A CPY of 64 bytes from 0x450000 to 0x440000, as R40 and R274 write it. -/
def cpyCmd : Nat := (wordC 0x01 0 0 0 0 (0x440000 * 2 ^ 144 + 0x450000 * 2 ^ 96 + 64 * 2 ^ 64)).toNat

/-- The command at 0x430000, named by W1; W2 names queue `q`. -/
def enqueuing (q cmd : Nat) : State := withMem (withW (withW (base 1) 1 0x430000) 2 (BitVec.ofNat 64 (q * 2 ^ 32))) 0x430000 32 cmd

/-- With the tile's guards all taken. -/
def guarded (s : State) : State := modTile s 1 fun k => { k with guards := List.replicate 16 ⟨0x450000, 0x450040, 999⟩ }

/-- With its copy queue full. -/
def crowded (s : State) : State := (List.range 16).foldl (fun s k => withJob s (4 * 32 + k) id) s

theorem witness_EnqCaptures :
    (∃ s pa nc s0, s = crowded (enqueuing 0 cpyCmd) ∧ pa = 0x430000 ∧ Issues s (run 1) ∧ Drained s ∧ (reg s (run 1) 2).toNat = 0 * 2 ^ 32 ∧
      QueueNamed s (run 1) (reg s (run 1) 2) 1 0 ∧ memCheck s s.cur (run 1) (reg s (run 1) 1) 32 .read .block false = (s0, .ok pa nc) ∧ spaceOf pa = 0 ∧
      uncorrectable s pa 32 = false ∧ heldEntry s (4 * coreTile s.cur + 0) (run 1).wptr = none ∧ queueFull s (4 * coreTile s.cur + 0) s.cur = true) ∧
    (∃ s n key s1, s = enqueuing 0 cpyCmd ∧ Placed s (run 1) ∧ enqHeld s 1 0 (BitVec.ofNat 256 cpyCmd) = false ∧
      BitVec.ofNat 256 cpyCmd = BitVec.ofNat 256 (rdN s 0x430000 32) ∧ queueFull s 4 4 = false ∧ freeSlotOf s 4 = some n ∧ key = 4 * 32 + n ∧
      (entryAt s key).taken = none ∧ s1 = takeEntry (correctAt s 4 0x430000 32) key (run 1).wptr ∧
      guardShort s1 (guardPlan s1 1 key (captured s1 4 (run 1) 4 (BitVec.ofNat 256 cpyCmd))) = none) ∧
    (∃ s n key s1, s = guarded (enqueuing 0 cpyCmd) ∧ Placed s (run 1) ∧ queueFull s 4 4 = false ∧ freeSlotOf s 4 = some n ∧ key = 4 * 32 + n ∧
      s1 = takeEntry (correctAt s 4 0x430000 32) key (run 1).wptr ∧
      guardShort s1 (guardPlan s1 1 key (captured s1 4 (run 1) 4 (BitVec.ofNat 256 cpyCmd))) = some 1) ∧
    (∃ s, s = enqueuing 1 (wordC 0x45 4 0 0 0 0).toNat ∧ (reg s (run 1) 2).toNat = 1 * 2 ^ 32 ∧ hasQueue 1 1 = true ∧
      cEop (BitVec.ofNat 256 (rdN s 0x430000 32)) = 0x45 ∧ cKind (BitVec.ofNat 256 (rdN s 0x430000 32)) = 4) ∧
    (∃ s r, s = inRegion (withRegion (withW (base 0) 2 (2 * 2 ^ 32)) 0x20000 0 0) 0x20000 ∧ Issues s r ∧ Drained s ∧ QueueNamed s r (reg s r 2) 0 2) := by
  refine ⟨⟨_, _, false, _, rfl, rfl, ⟨rfl, rfl⟩, ⟨rfl, rfl⟩, rfl, ⟨rfl, rfl, .inl rfl, .inl ⟨by decide, rfl, rfl⟩⟩, rfl, rfl, rfl, rfl, rfl⟩,
    ⟨_, 0, 128, _, rfl, ⟨⟨rfl, rfl⟩, ⟨_, rfl, rfl⟩, by decide, rfl, by decide, nofun⟩, rfl, by decide +kernel, rfl, rfl, rfl, rfl, rfl, by decide +kernel⟩,
    ⟨_, 0, 128, _, rfl, ⟨⟨rfl, rfl⟩, ⟨_, rfl, rfl⟩, by decide, rfl, by decide, nofun⟩, rfl, rfl, rfl, rfl, by decide +kernel⟩,
    ⟨_, rfl, rfl, rfl, by decide +kernel, by decide +kernel⟩,
    ⟨_, { run 0 with rcb := 0x20000 }, rfl, ⟨rfl, rfl⟩, ⟨rfl, rfl⟩, ⟨rfl, rfl, .inl rfl, .inr ⟨rfl, rfl, rfl, 0, 0, by decide, rfl, rfl⟩⟩⟩⟩

/-- Tile 1's queue 1, entry 7 (key 167) with a job in the state given; W1 holds the identifier with its use count 1. -/
def queued (st : JobSt) : State := withJob (withW (base 1) 1 (BitVec.ofNat 64 (2 ^ 63 + 2 ^ 36 + 2 ^ 34 + 2 ^ 16 + 7))) 167 fun j => { j with st := st }

theorem witness_JobInstructions :
    (∃ s, s = withW (base 1) 1 (BitVec.ofNat 64 (2 ^ 63 + 2 ^ 36 + 2 ^ 34 + 65535 * 2 ^ 16 + 7)) ∧ Issues s (run 1) ∧
      IdReaches s (run 1) (reg s (run 1) 1) 167 65535 ∧ (entryAt s 167).gen.toNat ≠ 65535) ∧
    (∃ s, s = putEntry (queued .queued) 167 ⟨1, none, none, some 5, none, 0⟩ ∧ Issues s (run 1) ∧ IdReaches s (run 1) (reg s (run 1) 1) 167 1 ∧
      (entryAt s 167).gen.toNat = 1 ∧ (entryAt s 167).job = none ∧ (entryAt s 167).result = some 5) ∧
    (∃ j, Placed (queued .queued) (run 1) ∧ IdReaches (queued .queued) (run 1) (reg (queued .queued) (run 1) 1) 167 1 ∧
      (entryAt (queued .queued) 167).gen.toNat = 1 ∧ (entryAt (queued .queued) 167).job = some j ∧ j.st = .queued ∧ j.last = false) ∧
    (∃ j, Placed (queued .parked) (run 1) ∧ IdReaches (queued .parked) (run 1) (reg (queued .parked) (run 1) 1) 167 1 ∧
      (entryAt (queued .parked) 167).gen.toNat = 1 ∧ (entryAt (queued .parked) 167).job = some j ∧ j.st ≠ .queued) := by
  refine ⟨⟨_, rfl, ⟨rfl, rfl⟩, ⟨by decide, by decide, by decide, rfl, by decide, by decide, .inl rfl, rfl, rfl, fun j h => (nomatch (show (none : Option Job) = some j from h)), fun v _ h => (nomatch (show (none : Option Word) = some v from h))⟩, by decide⟩,
    ⟨_, rfl, ⟨rfl, rfl⟩, ⟨by decide, by decide, by decide, rfl, by decide, by decide, .inl rfl, rfl, rfl, fun j h => (nomatch (show (none : Option Job) = some j from h)), fun _ _ _ => rfl⟩, rfl, rfl, rfl⟩,
    ⟨_, ⟨⟨rfl, rfl⟩, ⟨_, rfl, rfl⟩, by decide, rfl, by decide, nofun⟩,
      ⟨by decide, by decide, by decide, rfl, by decide, by decide, .inl rfl, rfl, rfl, fun j h => Option.some.inj ((congrArg (Option.map Job.rcb) h).symm.trans rfl), fun _ _ _ => rfl⟩, rfl, rfl, rfl, rfl⟩,
    ⟨_, ⟨⟨rfl, rfl⟩, ⟨_, rfl, rfl⟩, by decide, rfl, by decide, nofun⟩,
      ⟨by decide, by decide, by decide, rfl, by decide, by decide, .inl rfl, rfl, rfl, fun j h => Option.some.inj ((congrArg (Option.map Job.rcb) h).symm.trans rfl), fun _ _ _ => rfl⟩, rfl, rfl, nofun⟩⟩

/-- The word `w` at the running process's PC, and core 0 of tile 1 to move. -/
def fetching (w : Nat) : State := { withMem (base 1) 0x410000 4 w with agenda := [.core 4] }

theorem witness_StepRunsDecoded :
    (∃ s r s1 w i, s = fetching 0xB40C0000 ∧ s.agenda = [.core 4] ∧ 4 < 4 * 12544 ∧ issuer (atTurn s 4 []) = some r ∧ boundaryEvent (atTurn s 4 []) 4 = none ∧
      fetch (atTurn s 4 []) 4 r = (s1, .word w) ∧ decodeWord w = .ok i ∧ r.sm = true ∧ bit (getCore s 4).vidsel 12 = false ∧ rcbTenant s r.rcb = 0 ∧
      coreTile 4 * 0x400000 ≤ r.pc.toNat ∧ r.pc.toNat < coreTile 4 * 0x400000 + 0x300000 ∧ r.pc.toNat % 4 = 0 ∧ isDark s (coreTile 4) = false ∧
      uncorrectable s r.pc.toNat 4 = false ∧ l1iCopy (getCore s 4) r.pc.toNat = none ∧ l2Code s 4 r.pc.toNat = none ∧ decodeBytes (bytesAt s r.pc.toNat 4) = .ok (i, [])) ∧
    (∃ s r s1 w e, s = fetching 0 ∧ issuer (atTurn s 4 []) = some r ∧ boundaryEvent (atTurn s 4 []) 4 = none ∧
      fetch (atTurn s 4 []) 4 r = (s1, .word w) ∧ decodeWord w = .error e) ∧
    (∃ s r s1, s = { regionMode (base 1) with agenda := [.core 4] } ∧ issuer (atTurn s 4 []) = some r ∧ boundaryEvent (atTurn s 4 []) 4 = none ∧
      fetch (atTurn s 4 []) 4 r = (s1, .fails)) ∧
    (∃ s r e, s = { withMe (base 1) (fun k => { k with run := some { run 1 with slice := 0 } }) with agenda := [.core 4] } ∧
      issuer (atTurn s 4 []) = some r ∧ boundaryEvent (atTurn s 4 []) 4 = some e) ∧
    (∃ s i, s = { withMem (base 1) 0x430000 32 cpyCmd with agenda := [.command 0x430000] } ∧ s.agenda = .command 0x430000 :: [] ∧ commandAt s 0x430000 = some i) ∧
    ((base 1).agenda = [] ∧ (base 1).yielded = false ∧ nextCore (base 1) = some 4) :=
  ⟨⟨_, run 1, _, 0xB40C0000, .trap 3, rfl, rfl, by decide, rfl, rfl, rfl, rfl, rfl, rfl, rfl, by decide, by decide, by decide, rfl, rfl, rfl, rfl, rfl⟩,
    ⟨_, run 1, _, 0, _, rfl, rfl, rfl, rfl, rfl⟩, ⟨_, { run 1 with sm := false }, _, rfl, rfl, rfl, rfl⟩, ⟨_, { run 1 with slice := 0 }, _, rfl, rfl, rfl⟩,
    ⟨_, _, rfl, rfl, rfl⟩, rfl, rfl, rfl⟩

theorem witness_EncodeDecode : (Instr.amoCas ⟨1, 2, 3, .d, true, .ar⟩ 5).wf = true ∧ (∃ w, encodeWord (.amoCas ⟨1, 2, 3, .d, true, .ar⟩ 5) = some w) ∧
    (∃ i, decodeWord (wordR 0x18 1 2 3 (3 * 2 ^ 7 + 1 * 2 ^ 6 + 3 * 2 ^ 4 + 9) 5) = .ok i) ∧
    (Instr.fill ⟨true, 2, 0x1238⟩ ⟨0x4000, 300, 0x1122334455667788⟩).wf = true ∧
    (∃ w, encodeCmd (.fill ⟨true, 2, 0x1238⟩ ⟨0x4000, 300, 0x1122334455667788⟩) = some w) ∧ (∃ i, decodeCmd (BitVec.ofNat 256 cpyCmd) = .ok i) :=
  ⟨rfl, ⟨_, rfl⟩, ⟨_, rfl⟩, rfl, ⟨_, rfl⟩, ⟨_, rfl⟩⟩

theorem witness_StepKeepsMemory : MemInv (fetching 0xB40C0000) ∧ (fetching 0xB40C0000).mem ≠ [] ∧ ∃ t, step (fetching 0xB40C0000) = .next t :=
  ⟨rfl, by decide, _, rfl⟩

/-- A FILL of 64 bytes at 0x440000 that the executing tile's copy engine takes into entry 0. -/
def filling : Instr := .fill ⟨false, 0, 0⟩ ⟨0x440000, 64, 0x1122334455667788⟩
def fillWord : CWord := wordC 0x05 0 0 0 0 (0x440000 * 2 ^ 144 + 64 * 2 ^ 112 + 0x1122334455667788)
def taking (s : State) : State :=
  capture (takeEntry s 128 (run 1).wptr) 4 (run 1) 128 fillWord (guardPlan (takeEntry s 128 (run 1).wptr) 1 128 (captured (takeEntry s 128 (run 1).wptr) 4 (run 1) 4 fillWord))

/-- The job as the engine chooses it, the state in which it starts, and the state in which its one granule runs. -/
def fillJob : Job := (jobAt (taking (base 1)) 128).getD (captured (base 1) 4 (run 1) 4 0)
def fillStarts : State := startJob (taking (base 1)) 4 128 fillJob
def fillChecked : State := ((do runCheck (engOf 128 fillJob) filling; runStart (engOf 128 fillJob) filling : JM Unit).run fillStarts).2
def fillRuns : State := modJob fillChecked 128 fun j => { j with started := true }
def fillRan : State := ((runGran (engOf 128 ((jobAt fillRuns 128).getD fillJob)) filling).run fillRuns).2
def fillDone : State :=
  consumed (modJob fillRan 128 fun j => { j with gran := j.gran + 1, inFlight := false, last := true }) 128 ((jobAt fillRuns 128).getD fillJob)

theorem fill_decodes : decodeCmd fillWord = .ok filling := decodes (by decide +kernel)

set_option maxRecDepth 4096 in
theorem fill_granule : Granules filling 128 1 fillRuns fillDone :=
  .last fillRuns fillRan ((jobAt fillRuns 128).getD fillJob) rfl fill_decodes rfl rfl rfl rfl

theorem witness_CommandsRun :
    encodeCmd filling = some fillWord ∧ filling.wf = true ∧ Captures (base 1) (run 1) fillWord 128 (taking (base 1)) ∧
    (∃ s, s = withJob (base 1) 129 (fun j => { j with st := .running }) ∧ Captures s (run 1) fillWord 128 (taking s) ∧ engineBusy (taking s) 4 = true) ∧
    engineBusy (taking (base 1)) 4 = false ∧ chooseJob (taking (base 1)) 4 = some (128, fillJob) ∧ 1 ≤ tileLevel (taking (base 1)) 1 fillJob.cls ∧
    runsKind 4 (cKind fillWord) = true ∧ (cCmpl fillWord = true → (cCwa fillWord).toNat % 8 = 0) ∧
    (∀ j3, jobAt fillStarts 128 = some j3 →
      (do runCheck (engOf 128 j3) filling; runStart (engOf 128 j3) filling : JM Unit).run fillStarts = (.ok (), fillChecked)) ∧
    Granules filling 128 1 fillRuns fillDone ∧ (jobAt fillDone 128).map (fun j5 => (j5.last, j5.cmd, j5.fault)) = some (true, fillWord, 0) ∧
    ckOf fillWord = none ∧ cCmpl fillWord = false :=
  ⟨by decide +kernel, rfl, ⟨⟨rfl, rfl⟩, rfl, rfl, rfl, rfl, rfl⟩, ⟨_, rfl, ⟨⟨rfl, rfl⟩, rfl, rfl, rfl, rfl, rfl⟩, rfl⟩, rfl, rfl, by decide +kernel,
    by decide +kernel, by decide +kernel, fun j3 h => by cases h; rfl, fill_granule, by decide +kernel,
    by decide +kernel, by decide +kernel⟩

/-- The copy engine of tile 1 at granule `g` of a job of the running process. -/
def copying (g : Nat) : Eng := engOf 128 { captured (base 1) 4 (run 1) 4 0 with gran := g }

theorem snoops_none (n m : Nat) (h : slotsApart (base 1) m n = true) (h8 : m % 8 = 0) (a : Nat) (h1 : m ≤ a) (h2 : a < m + n) :
    snoopOf (base 1) (a / 8 * 8) = none := snoopOf_apart _ m n _ h (by omega) (by omega)

theorem engine_writes (g pa n : Nat) (h8 : pa % 8 = 0) (hs : slotsApart (base 1) pa n = true) (hp : procsApart (base 1) pa n = true) (hn : 0 < n ∧ pa % 65536 + n ≤ 65536) (ht : spaceOf pa = 0)
    (hr : (engWritePa (copying g) pa n).run (base 1) = (.ok pa, base 1)) : EngineWrites (base 1) (base 1) (copying g) pa n pa :=
  ⟨hn, hr, ht, plain_of _ _ _ (fun k hk => ⟨snoops_none n pa hs h8 _ (by omega) (by omega), workMask_apart _ pa n _ hp (by omega) (by omega)⟩), ⟨fun t _ => rfl, fun t _ => by rw [no_watches _ rfl]; exact nofun⟩, rfl⟩

set_option maxRecDepth 4096 in
theorem witness_CopiesMove :
    (∃ c : FillCmd, c = ⟨0x440000, 320, 0x1122334455667788⟩ ∧ 64 = Min.min 256 (c.len.toNat - 256 * (copying 1).j.gran) ∧
      EngineWrites (base 1) (base 1) (copying 1) (c.dst.toNat + 256) 64 0x440100) ∧
    (∃ c : CpyCmd, c = ⟨0x44FF00, 0x45FF00, 256⟩ ∧ 256 = Min.min 256 (c.len.toNat - 256 * (copying 0).j.gran) ∧ (copying 0).j.scratch = [] ∧
      EngineReads (base 1) (base 1) (copying 0) (c.src.toNat + 0) 256 0x45FF00 ∧
      EngineWrites (countCorrected (base 1) 0x45FF00 256) (base 1) (copying 0) (c.dst.toNat + 0) 256 0x44FF00 ∧ c.len.toNat ≤ 0 + 256) ∧
    (∃ c : CpyCmd, c = ⟨0x44FF00, 0x45FE00, 512⟩ ∧ cpyOverlaps (countCorrected (base 1) 0x45FE00 256) (copying 0) (c.src.toNat + 0 + 256) (c.len.toNat - 0 - 256)
      (c.dst.toNat + 0) 256 = false) ∧
    (∃ i src dst, i = Instr.cpy2 ⟨false, 0, 0⟩ ⟨0x440000, 0x450100, 256, 0xFFFF00, 2, 256⟩ ∧ moveOf i = some (256, 2, none, src, dst) ∧
      granRows (copying 1).j.gran 256 (256 * 2) = [(1, 0, 256)] ∧ src 1 0 = 0x450000 ∧ dst 1 0 = 0x440100 ∧
      EngineReads (base 1) (base 1) (copying 1) 0x450000 256 0x450000 ∧
      EngineWrites (countCorrected (base 1) 0x450000 256) (base 1) (copying 1) 0x440100 256 0x440100) ∧
    (∃ i src dst iw, i = Instr.gath ⟨false, 0, 0⟩ ⟨0x440000, 0x450000, 0x460000, 1, 0, 64⟩ ∧ moveOf i = some (64, 1, some (0x460000, iw), src, dst) ∧
      granRows (copying 0).j.gran 64 (64 * 1) = [(0, 0, 64)] ∧ (readIdx (copying 0) 0x460000 iw 0).run (base 1) = (.ok 0, base 1) ∧ src 0 0 = 0x450000 ∧
      dst 0 0 = 0x440000) := by
  refine ⟨⟨_, rfl, by decide, engine_writes 1 0x440100 64 (by decide) (by decide) (by decide) (by decide) (by decide) rfl⟩,
    ⟨_, rfl, by decide, rfl, ⟨by decide, rfl, rfl, by decide +kernel, rfl⟩, engine_writes 0 0x44FF00 256 (by decide) (by decide) (by decide) (by decide) (by decide) rfl, by decide⟩,
    ⟨_, rfl, by decide +kernel⟩,
    ⟨_, _, _, rfl, rfl, by decide, by decide, by decide, ⟨by decide, rfl, rfl, by decide +kernel, rfl⟩,
      engine_writes 1 0x440100 256 (by decide) (by decide) (by decide) (by decide) (by decide) rfl⟩,
    ⟨_, _, _, 0, rfl, rfl, by decide, rfl, by decide, by decide⟩⟩

theorem chosen_of (s : State) (key : Nat) (j : Job) (h1 : engineBusy s 4 = false) (h2 : chooseJob s 4 = some (key, j)) (h3 : jobAt s key = some j) (h4 : key / 32 = 4) :
    Chosen s 1 0 key j := ⟨h1, h2, h3, h4⟩

/-- Entry 0 of tile 1's copy queue with a job of the command given. -/
def jobOf (w : CWord) (f : Job → Job) : State := withJob (base 1) 128 fun j => f { j with cmd := w }

/-- A FILL of CMPL 1 at 0x440000, one beyond the panel, and a collective of a group that the tile does not know. -/
def fillFull : CWord := wordC 0x05 0 1 0 0x440000 (0x440000 * 2 ^ 144 + 64 * 2 ^ 112)
def fillAway : CWord := wordC 0x05 0 0 0 0 (0xFFFFFFFFF000 * 2 ^ 144 + 64 * 2 ^ 112)
def noGroup : CWord := wordC 0x51 5 0 3 0 (0x4000 * 2 ^ 144 + 0x5000 * 2 ^ 96 + 7 * 2 ^ 80 + 9 * 2 ^ 48 + 100 * 2 ^ 20 + 3 * 2 ^ 15 + 1 * 2 ^ 12)

def noGroupJob : Job := (jobAt (jobOf noGroup id) 128).getD fillJob
def noGroupCheck : Except JErr Unit × State :=
  (do runCheck (engOf 128 noGroupJob) (.cagth ⟨false, 3, 0⟩ ⟨0x4000, 0x5000, 7, 9, 100, 3, 1⟩)
      runStart (engOf 128 noGroupJob) (.cagth ⟨false, 3, 0⟩ ⟨0x4000, 0x5000, 7, 9, 100, 3, 1⟩) : JM Unit).run (startJob (jobOf noGroup id) 4 128 noGroupJob)

def awayGran : Except JErr Bool × State :=
  (runGran (engOf 128 ((jobAt (jobOf fillAway id) 128).getD fillJob)) (.fill ⟨false, 0, 0⟩ ⟨0xFFFFFFFFF000, 64, 0⟩)).run
    (jobOf fillAway fun j => { j with st := .running, started := true, inFlight := true })

/-- The FILL at the boundary of its granule. -/
def filling1 : State := jobOf fillWord fun j => { j with st := .running, started := true, inFlight := true }
def fillJob1 : Job := (jobAt filling1 128).getD fillJob
def fillGran : Except JErr Bool × State := (runGran (engOf 128 fillJob1) filling).run filling1

theorem witness_JobsRunOnEngines :
    (Chosen (taking (base 1)) 1 0 128 fillJob ∧ fillJob.st = .queued ∧ 1 ≤ tileLevel (taking (base 1)) 1 fillJob.cls ∧ decodeCmd fillWord = .ok filling ∧
      runsKind 4 (cKind fillWord) = true ∧ (cCmpl fillWord = true → (cCwa fillWord).toNat % 8 = 0) ∧ (∃ j3, jobAt fillStarts 128 = some j3) ∧
      (∃ j4, jobAt fillChecked 128 = some j4)) ∧
    (∃ s j, s = jobOf 0 id ∧ Chosen s 1 0 128 j ∧ j.st = .queued ∧ 1 ≤ tileLevel s 1 j.cls ∧ (∃ x, decodeCmd j.cmd = .error x) ∧ cCmpl j.cmd = false) ∧
    (∃ s, s = jobOf noGroup id ∧ Chosen s 1 0 128 noGroupJob ∧ noGroupJob.st = .queued ∧ 1 ≤ tileLevel s 1 noGroupJob.cls ∧
      decodeCmd noGroup = .ok (.cagth ⟨false, 3, 0⟩ ⟨0x4000, 0x5000, 7, 9, 100, 3, 1⟩) ∧ runsKind 4 (cKind noGroup) = true ∧ cCmpl noGroup = false ∧
      (∃ c, noGroupCheck.1 = .error (.fault c) ∧ c < 256) ∧ ∃ j4, jobAt noGroupCheck.2 128 = some j4) ∧
    (∃ s j, s = jobOf fillWord (fun j => { j with st := .ready, started := true }) ∧ Chosen s 1 0 128 j ∧ j.st ≠ .queued ∧ j.started = true ∧ 1 ≤ tileLevel s 1 j.cls) ∧
    (∃ s j, s = jobOf fillWord (fun j => { j with st := .ready, started := true, cls := 7 }) ∧ Chosen s 1 0 128 j ∧ j.st ≠ .queued ∧ tileLevel s 1 j.cls = 0) ∧
    (128 = (4 * 1 + 0) * 32 + 0 ∧ ∃ j, jobAt fillRuns 128 = some j ∧ j.st = .running ∧ j.last = false ∧ j.inFlight = false ∧ j.started = true ∧
      suspendedRegion fillRuns j.rcb = false ∧ 1 ≤ tileLevel fillRuns 1 j.cls) ∧
    (∃ s j, s = withJob (withRegion (base 1) 0x420000 1 1) 128 (fun j => { j with st := .running, started := true, rcb := 0x420000 }) ∧ jobAt s 128 = some j ∧
      j.st = .running ∧ j.last = false ∧ j.inFlight = false ∧ suspendedRegion s j.rcb = true) ∧
    (∃ s j, s = jobOf fillWord (fun j => { j with st := .running, started := true, cls := 7 }) ∧ jobAt s 128 = some j ∧ suspendedRegion s j.rcb = false ∧
      tileLevel s 1 j.cls = 0) ∧
    (jobAt filling1 128 = some fillJob1 ∧ fillJob1.st = .running ∧ fillJob1.last = false ∧ fillJob1.inFlight = true ∧ fillJob1.cmd = fillWord ∧
      fillGran.1 = .ok true ∧ 
      (jobAt fillGran.2 128).map (fun j => (suspendedRegion fillGran.2 j.rcb, decide (1 ≤ tileLevel fillGran.2 1 j.cls))) = some (false, true)) ∧
    (decodeCmd fillAway = .ok (.fill ⟨false, 0, 0⟩ ⟨0xFFFFFFFFF000, 64, 0⟩) ∧ (∃ c, awayGran.1 = .error (.fault c)) ∧ ∃ j', jobAt awayGran.2 128 = some j') ∧
    (∃ s j, s = jobOf fillWord (fun j => { j with st := .running, last := true, fault := 255 }) ∧ jobAt s 128 = some j ∧ j.last = true ∧ ckOf j.cmd = none ∧
      j.fault < 256 ∧ cCmpl j.cmd = false) ∧
    (∃ s j, s = jobOf fillFull (fun j => { j with st := .running, last := true }) ∧ jobAt s 128 = some j ∧ j.last = true ∧ cCmpl j.cmd = true ∧
      (cCwa j.cmd).toNat = 0x440000 ∧ jobSpace j = none ∧ InOwnTlm s 1 0x440000 8 ∧ Quiet s ∧ j.rcb = 0 ∧ isCollective j.cmd = false ∧
      portHolds s 0x440000 8 (.job 128) j.sm = false ∧ snoopOf s 0x440000 = none ∧ Plain s 0x440000 8 ∧ Unwatched s 0x440000 8 ∧ (getRegion s 0).interval = none) := by
  refine ⟨⟨chosen_of _ _ _ rfl rfl rfl rfl, rfl, by decide +kernel, fill_decodes, by decide +kernel, by decide +kernel, ⟨_, rfl⟩, ⟨_, rfl⟩⟩,
    ⟨_, _, rfl, chosen_of _ _ _ rfl rfl rfl rfl, rfl, by decide +kernel, ⟨_, rfl⟩, by decide +kernel⟩,
    ⟨_, rfl, chosen_of _ _ _ rfl rfl rfl rfl, rfl, by decide +kernel, decodes (by decide +kernel), by decide +kernel, by decide +kernel, ⟨_, rfl, by decide⟩, ⟨_, rfl⟩⟩,
    ⟨_, _, rfl, chosen_of _ _ _ rfl rfl rfl rfl, nofun, rfl, by decide +kernel⟩, ⟨_, _, rfl, chosen_of _ _ _ rfl rfl rfl rfl, nofun, by decide +kernel⟩,
    ⟨rfl, _, rfl, rfl, rfl, rfl, rfl, rfl, by decide +kernel⟩, ⟨_, _, rfl, rfl, rfl, rfl, rfl, by decide +kernel⟩, ⟨_, _, rfl, rfl, rfl, by decide +kernel⟩,
    ⟨rfl, rfl, rfl, rfl, rfl, rfl, by decide +kernel⟩, ⟨decodes (by decide +kernel), ⟨_, rfl⟩, ⟨_, rfl⟩⟩,
    ⟨_, _, rfl, rfl, rfl, by decide +kernel, by decide, by decide +kernel⟩,
    ⟨_, _, rfl, rfl, rfl, by decide +kernel, by decide +kernel, rfl, ?_, ⟨by decide, by decide, by decide, rfl⟩, rfl, by decide +kernel, by decide +kernel,
      snoopOf_apart _ 0x440000 8 _ rfl (by decide) (by decide),
      plain_of _ _ _ (fun k hk => ⟨snoopOf_apart _ 0x440000 8 _ rfl (by omega) (by omega), workMask_apart _ 0x440000 8 _ rfl (by omega) (by omega)⟩), ⟨fun _ _ => rfl, fun t _ => by rw [no_watches _ rfl]; exact nofun⟩, rfl⟩⟩
  unfold InOwnTlm; decide +kernel

/-- A store of core 4 in its journal entry 31, on its way. -/
def posted (e : StoreEnt) : State :=
  { withMe (base 1) (fun k => { k with journal := [(31, ⟨e, false, .far, 5, false⟩)] }) with msgs := [.store 4 31] }

/-- A store to a device register of the panel at the head of core 4's buffer. -/
def devStore (off : Nat) : State := withMe (base 1) fun k => { k with sbuf := [{ storeTo (15 * 2 ^ 48 + off) with n := 8 }] }

theorem witness_PostedStoresArrive :
    (∃ s x, s = { posted (storeTo 0x800100) with sites := [(0, { Site.reset with st := .lost })] } ∧ s.msgs[0]? = some (.store 4 31) ∧
      amGet (getCore s 4).journal 31 = some x ∧ storeBehind s 4 31 x = false ∧ storeRefusal s x.store 4 = some .sitelost) ∧
    (∃ s x, s = { withMe (posted (storeTo 0x800100)) (fun k => { k with journal := [(30, ⟨storeTo 0x800108, false, .far, 4, false⟩), (31, ⟨storeTo 0x800100, false, .far, 5, false⟩)] }) with
        msgs := [.store 4 31, .store 4 30] } ∧ s.msgs[0]? = some (.store 4 31) ∧
      amGet (getCore s 4).journal 31 = some x ∧ storeBehind s 4 31 x = true) ∧
    (∃ s x cause, s = posted { storeTo 0x800100 with tenant := 1 } ∧ amGet (getCore s 4).journal 31 = some x ∧
      storeBehind s 4 31 x = false ∧ storeRefusal s x.store 4 = some cause) ∧
    (∃ s x, s = withJob (modTile (posted (storeTo 0x800100)) 2 fun k => { k with guards := [⟨0x800107, 0x800108, 128⟩] }) 128 id ∧ amGet (getCore s 4).journal 31 = some x ∧
      storeBehind s 4 31 x = false ∧ storeRefusal s x.store 4 = none ∧ storeHeld s x.store (.store 4 31) = true ∧ homeTile x.store.pa = some 2 ∧
      ∀ y ∈ (getTile s 2).held, y.by_ ≠ .store 4 31) ∧
    (∃ s x, s = posted { storeTo 0x800100 with kind := .stf } ∧ amGet (getCore s 4).journal 31 = some x ∧
      storeBehind s 4 31 x = false ∧ storeRefusal s x.store 4 = none ∧ storeHeld s x.store (.store 4 31) = false ∧ x.store.kind ≠ .sete ∧ x.store.n = 8 ∧ x.store.pa % 8 = 0 ∧
      Plain s x.store.pa 8 ∧ Unwatched s x.store.pa 8 ∧ (getRegion s (procRegion s x.store.wptr)).interval = none) ∧
    (∃ s, s = { base 1 with msgs := [.ack 4 31] } ∧ s.msgs[0]? = some (.ack 4 31)) ∧
    (∃ s x p, s = { posted (storeTo 0x800100) with msgs := [.refuse 4 31 .tenant] } ∧ s.msgs[0]? = some (.refuse 4 31 .tenant) ∧
      amGet (getCore s 4).journal 31 = some x ∧ getProc s x.store.wptr = some p) ∧
    (∃ s x, s = { posted { storeTo 0x800100 with wptr := 0x408400 } with msgs := [.refuse 4 31 .tenant] } ∧
      amGet (getCore s 4).journal 31 = some x ∧ getProc s x.store.wptr = none) ∧
    (∃ s, s = modSeg (devStore (191 * 0x100000 + 0x108)) 191 (fun k => { k with sdctl := 2 ^ 63 }) ∧ devHeld s (15 * 2 ^ 48 + 191 * 0x100000 + 0x108) = true) ∧
    (∃ e, (getCore (devStore (191 * 0x100000 + 0x100)) 4).sbuf = [e] ∧ spaceOf e.pa = 15 ∧ devReg (spaceOff e.pa) = some (.sdva 191) ∧ e.n = 8) ∧
    (∃ e, (getCore (devStore (0x400 * 2 ^ 32 + 12543 * 0x400 + 31 * 8)) 4).sbuf = [e] ∧ spaceOf e.pa = 15 ∧ devReg (spaceOff e.pa) = some (.route 12543 31) ∧
      e.n = 8) := by
  refine ⟨⟨_, _, rfl, rfl, rfl, by decide +kernel, by decide +kernel⟩, ⟨_, _, rfl, rfl, rfl, by decide +kernel⟩, ⟨_, _, .tenant, rfl, rfl, by decide +kernel, by decide +kernel⟩,
    ⟨_, _, rfl, rfl, by decide +kernel, by decide +kernel, by decide +kernel, rfl, nofun⟩,
    ⟨_, _, rfl, rfl, by decide +kernel, by decide +kernel, by decide +kernel, nofun, rfl, rfl, plain_of _ _ _ (by decide +kernel),
      ⟨fun _ _ => rfl, fun t _ => by rw [no_watches _ rfl]; exact nofun⟩, rfl⟩,
    ⟨_, rfl, rfl⟩, ⟨_, _, _, rfl, rfl, rfl, rfl⟩, ⟨_, _, rfl, rfl, rfl⟩, ⟨_, rfl, by decide +kernel⟩, ⟨_, rfl, by decide +kernel, by decide +kernel, rfl⟩,
    ⟨_, rfl, by decide +kernel, by decide +kernel, rfl⟩⟩

/-- A process of core 5 that waits in state `st` for `i`, and a notice for it. -/
def noticed (st : Nat) (i : WaitInfo) (v : Word) (full : Bool) : State :=
  { withProc (base 1) 0x408400 5 0 st i with msgs := [.notice 0x408400 0x430000 v full false] }

/-- It waits, and its notice is first. -/
theorem noticed_waits (st : Nat) (i : WaitInfo) (v : Word) (full : Bool) (h : 2 ≤ st ∧ st ≤ 9) (hp : pstate (noticed st i v full) 0x408400 = st)
    (hg : getProc (noticed st i v full) 0x408400 = some ⟨0, none, 5, i, 0, [], 0, none, false, false, none⟩) :
    Waiting (noticed st i v full) 0x408400 ⟨0, none, 5, i, 0, [], 0, none, false, false, none⟩ := by
  have he : ∀ b, runQueue (getCore (noticed st i v full) 5) b = [] := fun b => by cases b <;> rfl
  exact ⟨hg, by omega, by decide, by rw [he]; exact nofun⟩

def trapTest : PendTrap := ⟨.postref, 0, 7, 0⟩

theorem witness_WaitsAndDelivery :
    ((noticed 5 (.ldf 15) 9 true).msgs[0]? = some (.notice 0x408400 0x430000 9 true false) ∧ (∀ m ∈ (noticed 5 (.ldf 15) 9 true).msgs.take 0, noticeTo 0x408400 m = false) ∧
      (∃ p, Waiting (noticed 5 (.ldf 15) 9 true) 0x408400 p ∧ p.wait = .ldf 15) ∧ (∃ p, Waiting (noticed 5 (.ldf 15) 9 false) 0x408400 p ∧ p.wait = .ldf 15) ∧
      (∃ p, Waiting (noticed 6 (.waita 3 0 none) 9 false) 0x408400 p ∧ p.wait = .waita 3 0 none) ∧
      (∃ p, Waiting (noticed 6 (.waita 3 9 (some 5)) 9 false) 0x408400 p ∧ p.wait = .waita 3 9 (some 5)) ∧
      (∃ p, Waiting (noticed 7 .join 0 false) 0x408400 p ∧ p.wait = .join) ∧ (∃ p, Waiting (noticed 7 .join 1 false) 0x408400 p ∧ p.wait = .join) ∧
      (∃ p, Waiting (noticed 6 .retry 1 false) 0x408400 p ∧ p.wait = .retry)) ∧
    ((∃ p, Waiting (noticed 6 (.waita 3 9 (some 0)) 9 false) 0x408400 p ∧ p.wait = .waita 3 9 (some 0)) ∧ (0 : Word).toNat ≤ (base 1).time.toNat ∧
      (∃ m ∈ (noticed 6 (.waita 3 9 (some 0)) 9 false).msgs, noticeTo 0x408400 m = true) ∧ (∀ m ∈ (base 1).msgs, noticeTo 0x408400 m = false) ∧
      (∃ s p, s = withProc (base 1) 0x408400 5 0 9 (.time 3 9 0) ∧ Waiting s 0x408400 p ∧ p.wait = .time 3 9 0 ∧ s.msgs = []) ∧
      (∃ p, Waiting (noticed 9 (.time 3 9 1) 9 false) 0x408400 p ∧ p.wait = .time 3 9 1) ∧ (base 1).time.toNat < (1 : Word).toNat) ∧
    (∃ s p, s = modProc (base 1) (bootWptr 1) (fun p => { p with pend := [trapTest] }) ∧ getProc s (bootWptr 1) = some p ∧ p.pend = [trapTest] ∧ trapTest.cause ≠ .eccu ∧
      Deliverable s (bootWptr 1) p (run 1).pc ∧ inTransfer s (bootWptr 1) = false ∧ (∀ e ∈ s.selects, e.2.wptr ≠ bootWptr 1) ∧ (∀ q ∈ s.queues, ∀ e ∈ q.2.entries, e.2.taken ≠ some (bootWptr 1)) ∧
      (∀ a ∈ (getRegion s p.rcb).arrivals, a.1 ≠ bootWptr 1) ∧ freeSlots s (coreTile p.core) ≠ []) ∧
    (∃ s p, s = modProc (noticed 7 .join 1 false) 0x408400 (fun p => { p with pend := [trapTest] }) ∧ getProc s 0x408400 = some p ∧ p.pend = [trapTest] ∧
      Deliverable s 0x408400 p 0 ∧ inTransfer s 0x408400 = false ∧ resumePc s 0x408400 = 0 ∧ freeSlots s (coreTile p.core) ≠ []) ∧
    (∃ s p, s = modProc (inRegion (withRegion (base 1) 0x420000 1 1) 0x420000) (bootWptr 1) (fun p => { p with pend := [⟨.eccu, 0, 0, 0⟩] }) ∧
      getProc s (bootWptr 1) = some p ∧ p.pend = [⟨.eccu, 0, 0, 0⟩] ∧ p.rcb ≠ 0 ∧ (getRegion s p.rcb).rollingBack = false ∧
      Deliverable s (bootWptr 1) p (run 1).pc ∧ inTransfer s (bootWptr 1) = false) ∧ atDelivery (base 1) 0x408400 = false ∧
    (∃ s x, s = modTile (base 1) 1 (fun k => { k with trapQ := k.trapQ.setIfInBounds 7 (some ⟨[], 0, some 0, true⟩), trapOrder := [7] }) ∧
      (getTile s 1).trapOrder = [7] ∧ ((getTile s 1).trapQ[7]?).getD none = some x ∧ x.offered = true) ∧
    (∃ s x, s = modSeg (modTile (base 1) 1 (fun k => { k with trapQ := k.trapQ.setIfInBounds 7 (some ⟨[], 0, some 0, false⟩), trapOrder := [7] })) 0
        (fun k => { k with defaultHandler := 0x430000 }) ∧
      (getTile s 1).trapOrder = [7] ∧ ((getTile s 1).trapQ[7]?).getD none = some x ∧ x.offered = false ∧ storesLeft s (recW x.words 1).toNat = false ∧ slotHandler s 1 x ≠ 0 ∧
      holeCheck s 1 (slotHandler s 1 x) = .clear ∧ spaceOf (slotHandler s 1 x) = 0) := by
  refine ⟨⟨rfl, nofun, ⟨_, noticed_waits _ _ _ _ (by decide) rfl rfl, rfl⟩, ⟨_, noticed_waits _ _ _ _ (by decide) rfl rfl, rfl⟩,
      ⟨_, noticed_waits _ _ _ _ (by decide) rfl rfl, rfl⟩, ⟨_, noticed_waits _ _ _ _ (by decide) rfl rfl, rfl⟩, ⟨_, noticed_waits _ _ _ _ (by decide) rfl rfl, rfl⟩,
      ⟨_, noticed_waits _ _ _ _ (by decide) rfl rfl, rfl⟩, ⟨_, noticed_waits _ _ _ _ (by decide) rfl rfl, rfl⟩⟩,
    ⟨⟨_, noticed_waits _ _ _ _ (by decide) rfl rfl, rfl⟩, by decide, ⟨_, .head _, rfl⟩, nofun,
      ⟨_, _, rfl, ⟨rfl, by decide +kernel, by decide, nofun⟩, rfl, rfl⟩, ⟨_, noticed_waits _ _ _ _ (by decide) rfl rfl, rfl⟩, by decide⟩,
    ⟨_, _, rfl, rfl, rfl, nofun, .inl ⟨_, rfl, rfl, rfl, rfl, rfl⟩, rfl, nofun, nofun, nofun, by decide +kernel⟩,
    ⟨_, _, rfl, rfl, rfl, .inr ⟨⟨rfl, by decide +kernel, by decide, nofun⟩, trivial, rfl, nofun, nofun, nofun⟩, rfl, rfl, by decide +kernel⟩,
    ⟨_, _, rfl, rfl, rfl, by decide, rfl, .inl ⟨_, rfl, rfl, rfl, rfl, rfl⟩, rfl⟩, by decide +kernel,
    ⟨_, _, rfl, rfl, rfl, rfl⟩, ⟨_, _, rfl, rfl, rfl, rfl, by decide +kernel, by decide +kernel, by decide +kernel, by decide +kernel⟩⟩

theorem queues_empty (s : State) (h : s.cores.all (fun p => p.2.highQ.isEmpty && p.2.lowQ.isEmpty) = true) (c : Nat) :
    (getCore s c).highQ = [] ∧ (getCore s c).lowQ = [] := by
  cases hc : amGet s.cores c with
  | none => rw [getCore, hc]; exact ⟨rfl, rfl⟩
  | some k =>
    rw [getCore, hc]
    have := List.all_eq_true.mp h _ (mem_of_amGet _ _ _ hc)
    simp only [Bool.and_eq_true, List.isEmpty_iff] at this
    exact this

theorem slots_free (s : State) (h : s.tiles.all (fun p => p.2.trapOrder.isEmpty && decide (p.2.trapQ = Vector.replicate 8 none)) = true) (t : Nat) :
    (freeSlots s t).length = 8 := by
  have : (getTile s t).trapQ = Vector.replicate 8 none := by
    cases ht : amGet s.tiles t with
    | none => rw [getTile, ht]; rfl
    | some k =>
      rw [getTile, ht]
      have := List.all_eq_true.mp h _ (mem_of_amGet _ _ _ ht)
      simp only [Bool.and_eq_true, decide_eq_true_eq] at this
      exact this.2
  rw [freeSlots, this]; rfl

/-- Two processes that wait on each other: 0x408400 of core 5 writes 0x430000, which 0x408800 reads; 0x408800 of core 6 writes 0x440000. -/
def cycle (clocks : Nat) (m : List Msg) : State :=
  let s := withProc (withProc (base 1) 0x408400 5 0 2 (.chan 5 0 0x430000)) 0x408800 6 0 2 (.chan 6 0 0x440000)
  let s := withMem (withMem s (0x408400 - 16) 8 (2 ^ 63 + 8)) (0x408800 - 16) 8 (2 ^ 63 + 8)
  let s := withMem (withMem s 0x430000 8 (2 ^ 63 + 0x4083E0)) 0x440000 8 (2 ^ 63 + 0x4087E0)
  let s := modTile s 1 fun k => { k with bindings := [⟨0x430000, 0x408400, 0x408800⟩, ⟨0x440000, 0x408800, 0x408400⟩] }
  { modProc s 0x408400 (fun p => { p with waitClocks := clocks }) with msgs := m }

theorem witness_FoghornFindsCycles :
    (∃ p, getProc (cycle 4194304 []) 0x408400 = some p ∧ edgeOf (cycle 4194304 []) 0x408400 = some 0x408800 ∧
      bits (getCore (cycle 4194304 []) p.core).fgwait 31 0 ≤ p.waitClocks) ∧
    (∃ p, getProc (cycle 4194303 []) 0x408400 = some p ∧ edgeOf (cycle 4194303 []) 0x408400 = some 0x408800 ∧
      p.waitClocks < bits (getCore (cycle 4194303 []) p.core).fgwait 31 0) ∧
    (∃ s, s = cycle 0 [.probe 0x408400 0 [] 0x408800] ∧ s.msgs[0]? = some (.probe 0x408400 0 [] 0x408800) ∧ edgeOf s 0x408800 = some 0x408400 ∧
      siteLost s (0x408800 / 0x400000) = false) ∧
    (∃ s l, s = cycle 0 [.probe 0x408400 0 l 0x408800] ∧ l = List.replicate 16 (0x408880, 0) ∧ s.msgs[0]? = some (.probe 0x408400 0 l 0x408800) ∧ 16 ≤ l.length) ∧
    (∃ s, s = cycle 0 [.confirm 0x408400 [(0x408400, 1), (0x408800, 0)]] ∧ cycleHolds s [(0x408400, 1), (0x408800, 0)] = false) ∧
    (∃ s, s = cycle 0 [.confirm 0x408400 [(0x408400, 0), (0x408800, 0)]] ∧ s.msgs[0]? = some (.confirm 0x408400 [(0x408400, 0), (0x408800, 0)]) ∧
      cycleHolds s [(0x408400, 0), (0x408800, 0)] = true ∧ waitWord s 0x408400 = some 0x430000 ∧ waitWord s 0x408800 = some 0x440000 ∧ Apart 0x408400 0x408800 ∧
      ClearOf 0x430000 0x408400 ∧ ClearOf 0x430000 0x408800 ∧ ClearOf 0x440000 0x408400 ∧ ClearOf 0x440000 0x408800 ∧ chainOf s 0x430000 = [0x408400 - 32] ∧
      chainOf s 0x440000 = [0x408800 - 32] ∧ NoIntervals s ∧ (∀ t, 3 ≤ (freeSlots s t).length) ∧ procCore s 0x408400 ≠ procCore s 0x408800 ∧
      isRunning s 0x408400 = false ∧ isRunning s 0x408800 = false ∧ (∀ c, ∀ w ∈ [0x408400, 0x408800], w ∉ (getCore s c).highQ ∧ w ∉ (getCore s c).lowQ) ∧
      (∀ q ∈ s.queues, ∀ e ∈ q.2.entries, e.2.taken ≠ some 0x408400 ∧ e.2.taken ≠ some 0x408800) ∧
      (∀ g, ∀ z ∈ (getRegion s g).arrivals, z.1 ≠ 0x408400 ∧ z.1 ≠ 0x408800) ∧ (∀ e ∈ s.selects, e.2.wptr ≠ 0x408400 ∧ e.2.wptr ≠ 0x408800)) := by
  refine ⟨⟨_, rfl, by decide +kernel, by decide +kernel⟩, ⟨_, rfl, by decide +kernel, by decide +kernel⟩, ⟨_, rfl, rfl, by decide +kernel, by decide +kernel⟩,
    ⟨_, _, rfl, rfl, rfl, by decide⟩, ⟨_, rfl, by decide +kernel⟩,
    ⟨_, rfl, rfl, by decide +kernel, by decide +kernel, by decide +kernel, ?_, ?_, ?_, ?_, ?_, by decide +kernel, by decide +kernel, nofun, fun t => ?_,
      by decide +kernel, by decide +kernel, by decide +kernel, fun c w _ => ?_, nofun, nofun, nofun⟩⟩
  · unfold Apart; decide
  · unfold ClearOf; decide
  · unfold ClearOf; decide
  · unfold ClearOf; decide
  · unfold ClearOf; decide
  · rw [slots_free _ (by decide +kernel)]; decide
  · rw [(queues_empty _ (by decide +kernel) c).1, (queues_empty _ (by decide +kernel) c).2]; exact ⟨nofun, nofun⟩

/-- A fault message of core 5 for page 0x10000 of tenant 0, with what its Watchroom holds. -/
def faultMsg (refused : Bool) : FaultMsg := ⟨0, 0, 0x10000, 1, false, .core 5, refused⟩
def faulting (l : AMap WrEntry) (m : FaultMsg) : State := { base 1 with msgs := [.fault m], watchrooms := [(0, { Watchroom.reset with entries := l })] }

/-- The 64 entries taken by pages of another tenant. -/
def fullRoom : AMap WrEntry := (List.range 64).map fun k => (k, ⟨1, 0x10000 * k, [.core 9]⟩)

/-- A process of core 5 that waits for that page in entry 63. -/
def paged : State :=
  let s := modCore (withProc (base 1) 0x408400 5 0 6 .page) 5 fun k => { k with pwait := [⟨0x408400, 0, 0x10000⟩] }
  { s with watchrooms := [(0, { Watchroom.reset with entries := [(63, ⟨0, 0x10000, [.core 5]⟩)] })] }

theorem amGet_range (n k : Nat) (e : Nat → WrEntry) (h : k < n) : amGet ((List.range n).map fun i => (i, e i)) k ≠ none := by
  suffices ∀ m, m ≤ k → k < m + n → amGet ((List.range' m n).map fun i => (i, e i)) k ≠ none by
    rw [List.range_eq_range']; exact this 0 (by omega) (by omega)
  clear h
  induction n with
  | zero => intro m h1 h2; omega
  | succ n ih =>
    intro m h1 h2
    simp only [List.range'_succ, List.map_cons, amGet]
    split
    · simp
    · exact ih (m + 1) (by omega) (by omega)

theorem witness_PagesAndShootdowns :
    (∃ s k e, s = faulting [(3, ⟨0, 0x10000, [.core 9]⟩)] (faultMsg false) ∧ s.msgs[0]? = some (.fault (faultMsg false)) ∧
      (getWatchroom s 0).entries.find? (fun e => e.2.tenant == 0 && e.2.page == 0x10000) = some (k, e)) ∧
    (∃ s, s = faulting [(0, ⟨1, 0x10000, [.core 9]⟩)] (faultMsg false) ∧ (getWatchroom s 0).entries.find? (fun e => e.2.tenant == 0 && e.2.page == 0x10000) = none ∧
      1 < 64 ∧ amGet (getWatchroom s 0).entries 1 = none ∧ ∀ l, l < 1 → amGet (getWatchroom s 0).entries l ≠ none) ∧
    (∃ s, s = faulting fullRoom (faultMsg false) ∧ (getWatchroom s 0).entries.find? (fun e => e.2.tenant == 0 && e.2.page == 0x10000) = none ∧
      ∀ k, k < 64 → amGet (getWatchroom s 0).entries k ≠ none) ∧
    (∃ s, s = faulting [] (faultMsg true) ∧ s.msgs[0]? = some (.fault (faultMsg true))) ∧
    (∃ e p, amGet (getWatchroom paged 0).entries 63 = some e ∧ 63 < 64 ∧ e.who = [.core 5] ∧ (getCore paged 5).pwait = [⟨0x408400, e.tenant, e.page⟩] ∧
      Waiting paged 0x408400 p ∧ p.core = 5 ∧ p.wait = .page ∧ (∀ q ∈ paged.queues, ∀ e ∈ q.2.entries, e.2.taken ≠ some 0x408400) ∧
      (∀ a ∈ (getRegion paged p.rcb).arrivals, a.1 ≠ 0x408400) ∧ freeSlots paged (coreTile 5) ≠ [] ∧ 0x408400 ∉ (getCore paged 5).highQ ∧
      0x408400 ∉ (getCore paged 5).lowQ ∧ isRunning paged 0x408400 = false ∧ (∀ e ∈ paged.selects, e.2.wptr ≠ 0x408400)) ∧
    (bit (getSeg (base 1) 191).sdctl 63 = false ∧ bits (0 : Word) 21 20 = 0 ∧ bits (BitVec.ofNat 64 (2 ^ 61 + 2 ^ 20)) 61 22 ≠ 0 ∧
      bits (BitVec.ofNat 64 (2 ^ 20 + 2 ^ 12)) 17 12 ≠ 0) ∧
    (∃ v : Word, v = BitVec.ofNat 64 (3 * 2 ^ 20 + 3 * 2 ^ 18 + 0xFFF) ∧ bits v 21 20 ≠ 0 ∧ bits (getSeg (base 1) 191).sdva 63 48 = 0 ∧ bits v 61 22 = 0 ∧ bits v 17 12 = 0) ∧
    (∃ s, s = modSeg (base 1) 0 (fun k => { k with sdctl := 2 ^ 63 + 2 ^ 20 }) ∧ bit (getSeg s 0).sdctl 63 = true ∧ shootdownDone s 0 = true) ∧
    (∃ s, s = modSeg (withMe (base 1) fun k => { k with sbuf := [{ storeTo 0x400100 with va := 0 }] }) 0 (fun k => { k with
        sdctl := 2 ^ 63 + 3 * 2 ^ 20, shot := some ⟨0, 3, [(0, 2 ^ 48)]⟩ }) ∧
      bit (getSeg s 0).sdctl 63 = true ∧ shootdownDone s 0 = false) := by
  refine ⟨⟨_, _, _, rfl, rfl, rfl⟩, ⟨_, rfl, rfl, by decide, rfl, ?_⟩, ⟨_, rfl, by decide +kernel, fun k h => amGet_range 64 k _ h⟩, ⟨_, rfl, rfl⟩,
    ⟨_, _, rfl, by decide, rfl, rfl, ⟨rfl, by decide, by decide, nofun⟩, rfl, rfl, nofun, nofun, by decide +kernel, nofun, nofun, by decide +kernel, nofun⟩,
    ⟨by decide +kernel, by decide, by decide, by decide⟩, ⟨_, rfl, by decide +kernel, by decide +kernel, by decide +kernel, by decide +kernel⟩,
    ⟨_, rfl, by decide +kernel, by decide +kernel⟩, ⟨_, rfl, by decide +kernel, by decide +kernel⟩⟩
  intro l hl
  obtain rfl : l = 0 := by omega
  decide

/-- The running process stopped at a request to a host. -/
def asking (st : Stall) : State := withMe (base 1) fun k => { k with stall := some st }

theorem asks (st : Stall) : AwaitsHost (asking st) 4 (run 1) st := ⟨rfl, rfl, rfl⟩

theorem witness_HostCompletions :
    AwaitsHost (asking (.pcieLoad 0x8000000000000 0x8000000000000 5 1 true false)) 4 (run 1) (.pcieLoad 0x8000000000000 0x8000000000000 5 1 true false) ∧
    (∃ x data : Word, AwaitsHost (asking (.pcieAmo 0x8000000000000 0x8000000000000 5 4 9 7 x false)) 4 (run 1) (.pcieAmo 0x8000000000000 0x8000000000000 5 4 9 7 x false) ∧
      data.toNat % 256 ^ 4 = x.toNat % 256 ^ 4 ∧ (data + 1).toNat % 256 ^ 4 ≠ x.toNat % 256 ^ 4) ∧
    AwaitsHost (asking (.pcieFetch 0x8000000000000 false)) 4 (run 1) (.pcieFetch 0x8000000000000 false) ∧
    AwaitsHost (asking (.pcieFetch 0x8000000000000 true)) 4 (run 1) (.pcieFetch 0x8000000000000 true) ∧
    AwaitsHost (asking (.pcieRelease 8)) 4 (run 1) (.pcieRelease 8) ∧ AwaitsHost (asking (.pcieRelease 9)) 4 (run 1) (.pcieRelease 9) ∧
    (∃ s ea p, s = asking (.pcieFetch 0x8000000000000 true) ∧ AwaitsHost s 4 (run 1) (.pcieFetch 0x8000000000000 true) ∧
      requestEa (run 1) (.pcieFetch 0x8000000000000 true) = some ea ∧
      getProc s (run 1).wptr = some p ∧ p.core = 4 ∧ (∀ e ∈ s.selects, e.2.wptr ≠ (run 1).wptr) ∧ (run 1).pc.toNat % 4 = 0 ∧
      (∀ q ∈ s.queues, ∀ e ∈ q.2.entries, e.2.taken ≠ some (run 1).wptr) ∧ freeSlots s (coreTile 4) ≠ []) :=
  ⟨asks _, ⟨2, 2, asks _, by decide, by decide⟩, asks _, asks _, asks _, asks _, ⟨_, _, _, rfl, asks _, rfl, rfl, rfl, nofun, by decide, nofun, by decide +kernel⟩⟩

/-- A queue with a record to be taken, the panel at stage 5 and segment 0 in service, with the doublewords of memory given. -/
def launchable (head : Nat) (l : List (Nat × Nat)) : State :=
  let s := noHoles (base 1)
  let s := { s with pmc := { s.pmc with stage := 5 }, sites := [(0, { Site.reset with st := .admitted })] }
  let s := modWq (modSeg s 0 fun k => { k with powered := true }) 0 fun k => { k with
    base := 0x440000, en := true, log := 1, head := BitVec.ofNat 32 head, tail := BitVec.ofNat 32 (head + 1) }
  l.foldl (fun s p => withMem s p.1 8 p.2) s

theorem witness_HostsReachThePanel :
    (∃ s, ∃ data : List Byte, s = withJob (modTile (launchable 0 []) 1 fun k => { k with guards := [⟨0x6FFFFF, 0x700000, 128⟩] }) 128 id ∧ data.length = 8 ∧
      s.hosts.writes = [] ∧ hostReaches s 0x6FFFF8 data.length = true ∧ portHolds s 0x6FFFF8 data.length (.host 3) false = true) ∧
    (∃ s, s = { launchable 0 [] with hosts := { (launchable 0 []).hosts with writes := [(3, 0x6FFFF8, [1])] } } ∧ (∃ x ∈ s.hosts.writes, x.1 = 3) ∧
      (∀ x ∈ s.hosts.writes, x.1 ≠ 2)) ∧
    (∃ data : List Byte, data.length = 8 ∧ (launchable 0 []).hosts.writes = [] ∧ isWq 0x6FFFF8 = false ∧ hostReaches (launchable 0 []) 0x6FFFF8 data.length = true ∧
      portHolds (launchable 0 []) 0x6FFFF8 data.length (.host 3) false = false ∧ Plain (launchable 0 []) 0x6FFFF8 data.length ∧ Unwatched (launchable 0 []) 0x6FFFF8 data.length ∧
      (getRegion (launchable 0 []) 0).interval = none) ∧
    (isWq 0x6FFFF8 = false ∧ hostReaches (launchable 0 []) 0x6FFFF8 8 = true ∧ uncorrectable (launchable 0 []) 0x6FFFF8 8 = false) ∧
    (∃ pa g, pa = 15 * 2 ^ 48 + 0x500 * 2 ^ 32 + 12543 * 8 ∧ spaceOf pa = 15 ∧ pa % 8 = 0 ∧ devReg (spaceOff pa) = some g ∧ isEnergy g = true ∧ recovering (base 1) = false) ∧
    (∃ s, s = launchable 1 [] ∧ 2 ≤ s.pmc.stage ∧ s.hosts.writes = [] ∧ 2 ^ (getWq s 0).log < ((4 : BitVec 32) - (getWq s 0).head).toNat ∧ ((3 : BitVec 32) - (getWq s 0).head).toNat ≤ 2 ^ (getWq s 0).log ∧
      (getWq s 0).en = true) ∧
    ((getWq (launchable 0 []) 32767).en = false ∧ bit (BitVec.ofNat 64 (2 ^ 63 + 15)) 63 = true) := by
  refine ⟨⟨_, List.replicate 8 0x11, rfl, rfl, rfl, by decide +kernel, by decide +kernel⟩, ⟨_, rfl, ⟨_, .head _, rfl⟩, by decide⟩,
    ⟨List.replicate 8 0x11, rfl, rfl, rfl, by decide +kernel, by decide +kernel, plain_of _ _ _ (by decide +kernel),
      ⟨fun _ _ => rfl, fun t _ => by rw [no_watches _ rfl]; exact nofun⟩, rfl⟩, ⟨rfl, by decide +kernel, by decide +kernel⟩,
    ⟨_, .energy 12543, rfl, by decide +kernel, by decide +kernel, by decide +kernel, rfl, rfl⟩, ⟨_, rfl, by decide, rfl, by decide +kernel, by decide +kernel, by decide +kernel⟩,
    by decide +kernel, by decide +kernel⟩

/-- A launch of one spawn into a root region of one tile, as R338 to R340 and R233 write it: record, template, map and spawn record. -/
def launchWords : List (Nat × Nat) :=
  [(0x440000, 2 ^ 20), (0x440008, 0x450000), (0x440010, 0x460000), (0x440020, 2 ^ 32 - 1), (0x450018, 0x470000), (0x450050, 0x20000), (0x470000, 0x10001),
    (0x460000, 0x1000000410000)]
def launching : State := launchable 0 launchWords
def launchRec : List Word := physWords launching 0x440000 8
def launchTpl : List Word := lrTemplate (physWords launching (bits (recW launchRec 1) 51 0) 32) launchRec
def launchRegion : State × Nat × Nat := rgnNew (modWq launching 0 fun k => { k with head := k.head + 1 }) launchTpl 0 (segTile 0) true none

/-- A launch that has ended with status 1 and DETAIL 2, whose completion goes to the address given. -/
def ended (cmpa : Nat) : State := { launchable 0 [] with launches := [⟨0, 5, true, 7, cmpa, 0, some (1, 2)⟩] }

theorem witness_LaunchesRun :
    (∃ s, s = modWq (launchable 0 []) 0 (fun k => { k with base := 0xC0000000000 }) ∧ recordWaits (getWq s 0) = true ∧ 5 ≤ s.pmc.stage ∧ queueSeg s 0 = some 0 ∧
      nextWq s 0 = some 0 ∧
      physReadable s (segTile 0) 0xC0000000000 64 = false) ∧
    (∃ s, s = modWq (launchable 0 []) 0 (fun k => { k with base := 0x8000000000000 }) ∧ recordWaits (getWq s 0) = true ∧ queueSeg s 0 = some 0 ∧
      spaceOf 0x8000000000000 = 8) ∧
    (∃ s, s = launchable 0 [] ∧ recordWaits (getWq s 0) = true ∧ queueSeg s 0 = some 0 ∧ physReadable s (segTile 0) 0x440000 64 = true ∧ spaceOf 0x440000 ≠ 8 ∧
      launchHeld s (segTile 0) (physWords s 0x440000 8) = false ∧ nextWq s 0 = some 0 ∧ lrMalformed (physWords s 0x440000 8) (getWq s 0).tenant = true) ∧
    (∃ s, s = withJob (modTile (launchable 0 (launchWords ++ [(0x450038, 0x430000)])) 1 fun k => { k with guards := [⟨0x430000, 0x430008, 128⟩] }) 128 id ∧
      nextWq s 0 = some 0 ∧ physReadable s (segTile 0) 0x440000 64 = true ∧ launchHeld s (segTile 0) (physWords s 0x440000 8) = true) ∧
    (∃ s, s = modSeg (modWq (launchable 0 []) 12 fun _ => getWq (launchable 0 []) 0) 0 (fun k => { k with lastWq := 1 }) ∧ queueSeg s 0 = some 0 ∧ nextWq s 0 ≠ some 0) ∧
    (∃ s, s = launchable 0 [(0x440000, 2 ^ 20), (0x440008, 0x4500FF)] ∧ recordWaits (getWq s 0) = true ∧ queueSeg s 0 = some 0 ∧
      physReadable s (segTile 0) 0x440000 64 = true ∧ lrMalformed (physWords s 0x440000 8) (getWq s 0).tenant = false ∧
      bits (recW (physWords s 0x440000 8) 1) 51 0 % 256 ≠ 0) ∧
    (recordWaits (getWq launching 0) = true ∧ queueSeg launching 0 = some 0 ∧ physReadable launching (segTile 0) 0x440000 64 = true ∧
      lrMalformed launchRec (getWq launching 0).tenant = false ∧ bits (recW launchRec 1) 51 0 % 256 = 0 ∧
      physReadable launching (segTile 0) (bits (recW launchRec 1) 51 0) 256 = true ∧ tplJoin launchTpl = 0 ∧ launchRegion.2 = (0, 0x420000) ∧
      (launchSpawns launchRegion.1 (segTile 0) 0x420000 (bits (recW launchRec 2) 51 0) launchRec (List.range (lrNsp launchRec))).2 = (0, [0x400080])) ∧
    ((ended 0x8000000000000).launches.length = 1 ∧ spaceOf 0x8000000000000 = 8 ∧ guardHolds (ended 0x8000000000000) 0x8000000000000 16 none false = false) ∧
    (∃ s, s = withJob (modTile (ended 0x6FFFF0) 1 fun k => { k with guards := [⟨0x6FFFFF, 0x700000, 128⟩] }) 128 id ∧ s.launches.length = 1 ∧
      guardHolds s 0x6FFFF0 16 none false = true) ∧
    (spaceOf 0x6FFFF0 = 0 ∧ guardHolds (ended 0x6FFFF0) 0x6FFFF0 16 none false = false ∧ hostReaches (ended 0x6FFFF0) 0x6FFFF0 16 = true ∧ Plain (ended 0x6FFFF0) 0x6FFFF0 16 ∧ Unwatched (ended 0x6FFFF0) 0x6FFFF0 16) ∧
    (∃ s, s = { base 1 with launches := [⟨0, 5, true, 7, 0x6FFFF0, 0, none⟩] } ∧ (s.launches[0]?).map (·.status) = some none) := by
  refine ⟨⟨_, rfl, by decide +kernel, by decide +kernel, by decide +kernel, by decide +kernel, by decide +kernel⟩, ⟨_, rfl, by decide +kernel, by decide +kernel, by decide⟩,
    ⟨_, rfl, by decide +kernel, by decide +kernel, by decide +kernel, by decide, by decide +kernel, by decide +kernel, by decide +kernel⟩,
    ⟨_, rfl, by decide +kernel, by decide +kernel, by decide +kernel⟩, ⟨_, rfl, by decide +kernel, by decide +kernel⟩,
    ⟨_, rfl, by decide +kernel, by decide +kernel, by decide +kernel, by decide +kernel, by decide +kernel⟩,
    ⟨by decide +kernel, by decide +kernel, by decide +kernel, by decide +kernel, by decide +kernel, by decide +kernel, by decide +kernel, by decide +kernel,
      by decide +kernel⟩, ⟨rfl, by decide, by decide +kernel⟩, ⟨_, rfl, by decide +kernel, by decide +kernel⟩,
    ⟨by decide, by decide +kernel, by decide +kernel, plain_of _ _ _ (by decide +kernel), ⟨fun _ _ => rfl, fun t _ => by rw [no_watches _ rfl]; exact nofun⟩⟩, ⟨_, rfl, rfl⟩⟩

/-- Site `n` in the state given. -/
def sited (n : Nat) (st : SiteState) : State := { base 1 with sites := [(n, { Site.reset with st := st })] }

theorem witness_SitesComeUp :
    (getSite (base 1) 11).st = .empty ∧ (getSite (sited 11 .seated) 11).st = .seated ∧ (getSite (sited 0 .powered) 0).st = .powered ∧
    (∃ d : Defect, d.tile = 12543 ∧ d.tile < 12544 ∧ siteOf d.tile = 11) ∧ (getSite (sited 11 .attested) 11).st = .attested ∧
    inBringUp (getSite (sited 11 .linked) 11).st = true ∧ inBringUp (getSite (sited 11 .seated) 11).st = true ∧ (getSite (sited 0 .lost) 0).st = .lost ∧
    (getSite (sited 0 .released) 0).st = .released ∧ (sited 11 .seated).pmc.stage < 3 ∧ (launchable 0 []).pmc.stage ≠ 3 ∧
    (∃ s, s = { sited 11 .attested with pmc := { (base 1).pmc with stage := 3 } } ∧ 3 ≤ s.pmc.stage ∧ s.pmc.stage = 3) ∧
    (∀ d ∈ [Defect.mk 12543 false], d.tile ≠ 12542) ∧ siteOf 12542 = 11 :=
  ⟨rfl, rfl, rfl, ⟨⟨12543, false⟩, rfl, by decide, by decide +kernel⟩, rfl, rfl, rfl, rfl, rfl, by decide, by decide, ⟨_, rfl, by decide, rfl⟩, by decide, by decide⟩

theorem witness_SitesServeAndLeave :
    ((getSite (sited 11 .linked) 11).st = .linked ∧ Ordered (sited 11 .linked) 11 1 true ∧ ¬Ordered (sited 11 .linked) 11 1 false ∧
      (∃ s, s = modSite (sited 11 .linked) 11 (fun k => { k with busy := true, cmd := 1 }) ∧ Ordered s 11 1 false) ∧ holeUnderWay (sited 11 .linked) 11 = false ∧ inSite 11 (12512 * 0x400000) ∧ ¬inSite 11 0x400000) ∧ (getSite (sited 11 .admitted) 11).st = .admitted ∧
    (siteIdle (sited 11 .draining) 11 = true ∧ (getSite (sited 11 .draining) 11).st = .draining) ∧
    ((getSite (sited 0 .draining) 0).deadline.toNat ≤ (sited 0 .draining).time.toNat) ∧ (getSite (sited 0 .quiesced) 0).st = .quiesced ∧
    (getSite (sited 0 .lost) 0).st = .lost ∧
    (∃ s, s = { base 1 with sites := [(0, { Site.reset with st := .released, clampClosed := true })] } ∧ (getSite s 0).st = .released ∧ (getSite s 0).clampClosed = true) ∧
    (siteIn (getSite (sited 0 .quiesced) 0).st = true ∧ (getSite (sited 0 .quiesced) 0).losing = false) ∧
    (∃ s, s = { base 1 with sites := [(3, { Site.reset with st := .admitted, losing := true })] } ∧ siteIn (getSite s 3).st = true ∧ (getSite s 3).losing = true) ∧
    (191 < 192 ∧ segModule 191 = 3 ∧ (getSite (sited 3 .admitted) 3).st = .admitted ∧ ¬(0 + 1) ∈ (getSeg (sited 3 .admitted) 191).contactBad) ∧
    (∃ s, s = modSeg (base 1) 191 (fun k => { k with powered := true, contactBad := [5] }) ∧ (getSeg s 191).powered = true ∧ (4 + 1) ∈ (getSeg s 191).contactBad ∧
      (6 - 1) ∈ (getSeg s 191).contactBad) := by
  refine ⟨⟨rfl, .inr ⟨rfl, rfl⟩, by unfold Ordered; decide, ⟨_, rfl, .inl ⟨rfl, rfl⟩⟩, by decide +kernel, ⟨12512, by decide +kernel, by decide, by decide +kernel⟩, ?_⟩, rfl, ⟨by decide +kernel, rfl⟩, by decide, rfl, rfl, ⟨_, rfl, rfl, rfl⟩, ⟨rfl, rfl⟩,
    ⟨_, rfl, rfl, rfl⟩, ⟨by decide, by decide, rfl, nofun⟩, ⟨_, rfl, rfl, by decide, by decide⟩⟩
  rintro ⟨t, ht, -, hs⟩
  rw [show homeTile 0x400000 = some 1 by decide] at ht
  cases ht
  revert hs; decide

/-- A root region at 0x420000 of one grid tile, 1, with a map operation at segment 0: its code, FRZ, and the new map at 0x450000. -/
def mapping (op frz rgn : Nat) (frozen : Bool) (new : Nat) : State :=
  let s := noHoles (withRegion (base 2) 0x420000 rgn 0x10001)
  let s := modSeg (withMem s 0x450000 4 new) 0 fun k => { k with powered := true, mapRcb := 0x420000, newMap := 0x450000, mapOp := BitVec.ofNat 64 (2 ^ 63 + frz * 2 ^ 62 + op) }
  { s with regions := [(0x420000, { Region.reset with frozen := frozen })] }

theorem witness_MapsMove :
    (∃ s, s = mapping 1 0 1 false 0 ∧ mapBusy s 0 1 = true ∧ mapRoot s 0 = some 0x420000 ∧ freezable s 0x420000 = true ∧ resolvedInFlight s 0x420000 = false) ∧
    (∃ s, s = { mapping 1 0 0 true 0 with msgs := [.spawn spawnMsg] } ∧ mapBusy s 0 1 = true ∧ mapRoot s 0 = some 0x420000 ∧ (getRegion s 0x420000).frozen = true ∧
      resolvedInFlight s 0x420000 = true) ∧
    (∃ s, s = mapping 1 0 0 false 0 ∧ mapBusy s 0 1 = true ∧ mapRoot s 0 = some 0x420000 ∧ (getRegion s 0x420000).frozen = false ∧ freezable s 0x420000 = false) ∧
    (∃ s, s = mapping 3 1 1 true 0 ∧ mapBusy s 0 3 = true ∧ mapRoot s 0 = some 0x420000) ∧
    (∃ s, s = mapping 2 0 1 true 5 ∧ mapBusy s 0 2 = true ∧ mapFrz s 0 = false) ∧
    (∃ s, s = mapping 2 1 1 false 5 ∧ mapBusy s 0 2 = true ∧ mapFrz s 0 = true ∧ mapRoot s 0 = some 0x420000 ∧ (getRegion s 0x420000).frozen = false) ∧
    (getRegion (mapping 2 1 1 true 5) 0x420000).frozen = true ∧
    (∃ s new m, s = mapping 2 1 1 true 0x10005 ∧ mapBusy s 0 2 = true ∧ mapFrz s 0 = true ∧ mapRoot s 0 = some 0x420000 ∧
      bits (getSeg s 0).newMap 51 6 * 64 = 0x450000 ∧ new = mapWordsAt s 0x450000 (rcbLW s 0x420000 * rcbLH s 0x420000) ∧ m = movesOf s 0x420000 new ∧
      commitStatus s 0x420000 0x450000 m ≠ 0) ∧
    (∃ s new m, s = modCore (mapping 2 1 1 true 5) 4 (fun k => { k with sbuf := [storeTo 0x800100] }) ∧ mapBusy s 0 2 = true ∧ mapFrz s 0 = true ∧
      mapRoot s 0 = some 0x420000 ∧ new = mapWordsAt s 0x450000 (rcbLW s 0x420000 * rcbLH s 0x420000) ∧ m = movesOf s 0x420000 new ∧
      commitStatus s 0x420000 0x450000 m = 0 ∧ movable s m = false) ∧
    (∃ s new m, s = mapping 2 1 1 true 5 ∧ mapBusy s 0 2 = true ∧ mapFrz s 0 = true ∧ mapRoot s 0 = some 0x420000 ∧
      new = mapWordsAt s 0x450000 (rcbLW s 0x420000 * rcbLH s 0x420000) ∧ m = movesOf s 0x420000 new ∧ commitStatus s 0x420000 0x450000 m = 0 ∧ movable s m = true) ∧
    ((∀ x ∈ [(12543, 0), (0, 12543)], x.1 < 12544 ∧ x.2 < 12544) ∧ (([(12543, 0), (0, 12543)] : List (Nat × Nat)).map (·.2)).Nodup) := by
  refine ⟨⟨_, rfl, by decide +kernel, by decide +kernel, by decide +kernel, by decide +kernel⟩,
    ⟨_, rfl, by decide +kernel, by decide +kernel, by decide +kernel, by decide +kernel⟩, ⟨_, rfl, by decide +kernel, by decide +kernel, by decide +kernel, by decide +kernel⟩,
    ⟨_, rfl, by decide +kernel, by decide +kernel⟩, ⟨_, rfl, by decide +kernel, by decide +kernel⟩,
    ⟨_, rfl, by decide +kernel, by decide +kernel, by decide +kernel, rfl⟩, rfl,
    ⟨_, _, _, rfl, by decide +kernel, by decide +kernel, by decide +kernel, by decide +kernel, rfl, rfl, by decide +kernel⟩,
    ⟨_, _, _, rfl, by decide +kernel, by decide +kernel, by decide +kernel, rfl, rfl, by decide +kernel, by decide +kernel⟩,
    ⟨_, _, _, rfl, by decide +kernel, by decide +kernel, by decide +kernel, rfl, rfl, by decide +kernel, by decide +kernel⟩, by decide, by decide⟩

/-- Zone 0 powered, with the first 22 tiles asking for 220 tokens each. -/
def asking22 : State :=
  ((segTiles 0).take 22).foldl (fun s t => modCore s (coreNo t 0) fun k => { k with request := some (220, 0) }) (modSeg (base 1) 0 fun k => { k with powered := true })

/-- Tile 1 with a revocation to 20 tokens, due at nanosecond `dl`. -/
def revoked (dl : Nat) : State := modTile (base 1) 1 fun k => { k with tkheld := 80, revoke := some ⟨20, dl, false⟩ }

theorem witness_TokensAreGranted :
    (ZoneAtRest (modSeg (base 1) 191 fun k => { k with powered := true }) 191 ∧
      askedIn (modSeg (base 1) 191 fun k => { k with powered := true }) 191 ≤ (getSeg (modSeg (base 1) 191 fun k => { k with powered := true }) 191).pool) ∧
    (ZoneAtRest asking22 0 ∧ (getSeg asking22 0).pool < askedIn asking22 0 ∧ ∀ x ∈ segTiles 0, (demandOf asking22 x).1 ≠ 0 → (demandOf asking22 x).2 = 0) ∧
    (∃ v, segOf 1 = some 0 ∧ (getTile (revoked 0) 1).revoke = some v ∧ v.deadline ≤ (revoked 0).time.toNat ∧
      (getSeg (revoked 0) 0).pool = nominalPool (getSeg (revoked 0) 0)) ∧
    (∃ v, (getTile (revoked 1) 1).revoke = some v ∧ (revoked 1).time.toNat < v.deadline) :=
  ⟨⟨⟨by decide, rfl, by decide +kernel, rfl, ⟨rfl, rfl⟩, by decide +kernel⟩, by decide +kernel⟩,
    ⟨⟨by decide, by decide +kernel, by decide +kernel, by decide +kernel, by decide +kernel, by decide +kernel⟩, by decide +kernel, by decide +kernel⟩,
    ⟨_, rfl, rfl, by decide, by decide +kernel⟩, ⟨_, rfl, by decide⟩⟩

/-- Zone 191 powered, with a change. -/
def zone (f : Seg → Seg) : State := modSeg (base 1) 191 fun k => f { k with powered := true }

theorem witness_CeilingsAndRegulators :
    ((getTile (base 1) 12287).monArmed = false ∧
      (∃ s k, s = modTile (base 1) 12287 (fun k => { k with tkheld := 20, monArmed := true, monOver := 98, monUnder := 99, monCalm := 99 }) ∧ k = getTile s 12287 ∧
        k.monArmed = true ∧ 550 * k.tkheld < 10 * 1101 ∧ k.monOver < 99 ∧ 999 < 50 * k.tkheld ∧ k.monUnder = 99 ∧ 10 * 1100 ≤ 550 * k.tkheld ∧ k.skip = 0 ∧ k.monCalm = 99) ∧
      (∃ s k, s = modTile (base 1) 12287 (fun k => { k with tkheld := 20, monArmed := true, monOver := 99 }) ∧ k = getTile s 12287 ∧ k.monArmed = true ∧ k.monOver = 99)) ∧
    ((getSeg (zone id) 191).powered = true ∧ 4 < (getSeg (zone id) 191).cl ∧ 16000 * (32 - (getSeg (zone id) 191).failed) < 512001 ∧
      ¬(4 < (getSeg (zone id) 191).cl ∧ 16000 * (32 - (getSeg (zone id) 191).failed) < 512000) ∧
      (getSeg (zone fun k => { k with cl := 4, clOver := true }) 191).clOver = true) ∧
    (((([] : List (Option Int)).take 16).filterMap id).max? = none ∧ ((([some 1920, none, some 5] : List (Option Int)).take 16).filterMap id).max? = some 1920 ∧
      ((([some 1919] : List (Option Int)).take 16).filterMap id).max? = some 1919 ∧ ((([some 1727] : List (Option Int)).take 16).filterMap id).max? = some 1727 ∧
      ((([some 1679] : List (Option Int)).take 16).filterMap id).max? = some 1679 ∧ bandOf (1679 - 32) ≤ bandOf (1679 - 32) ∧ bandOf (1679 - 32) ≤ bandOf (1679 + 32) ∧
      0 < bandOf (1919 - 32)) ∧
    ((getSeg (zone fun k => { k with failed := 7 }) 191).failed < 8 ∧ (getSeg (zone fun k => { k with failed := 8 }) 191).failed = 8 ∧
      8 < (getSeg (zone fun k => { k with failed := 31 }) 191).failed ∧ (getSeg (zone fun k => { k with failed := 31 }) 191).failed < 32 ∧
      (getSeg (zone fun k => { k with window := some 0 }) 191).window = some 0 ∧ 0 ≤ (base 1).time.toNat ∧
      (getSeg (zone fun k => { k with window := some 1 }) 191).window = some 1 ∧ (base 1).time.toNat < 1) :=
  ⟨⟨rfl, ⟨_, _, rfl, rfl, rfl, by decide, by decide, by decide, rfl, by decide, rfl, rfl⟩, ⟨_, _, rfl, rfl, rfl, rfl⟩⟩,
    ⟨rfl, by decide, by decide, by decide, rfl⟩, ⟨rfl, by decide, by decide, by decide, by decide, by decide, by decide, by decide⟩,
    ⟨by decide, rfl, by decide, by decide, rfl, by decide, rfl, by decide⟩⟩

theorem witness_TimeAndEnergy :
    (3 < 4 ∧ 191 < 192 ∧ segModule 191 = 3 ∧ (getSeg (zone id) 191).powered = true) ∧ (meterIs (.tile 12543) ∧ meterIs (.zone 191) ∧ meterIs (.site 11)) ∧
    ((base 1).records = [] ∧ (∃ k, amGet (base 1).cores 4 = some k ∧ corePowered (base 1) 4 = false) ∧
      ∃ s k, s = modSeg (base 1) 0 (fun k => { k with powered := true }) ∧ amGet s.cores 4 = some k ∧ corePowered s 4 = true) ∧
    (∀ n, n < 12 → holeChange (base 1) n ≠ some false) :=
  ⟨⟨by decide, by decide, by decide, rfl⟩, ⟨by unfold meterIs; decide, by unfold meterIs; decide, by unfold meterIs; decide⟩,
    ⟨rfl, ⟨_, rfl, by decide +kernel⟩, ⟨_, _, rfl, rfl, by decide +kernel⟩⟩, by decide +kernel⟩

/-- The collective of group 7 at sequence number 9 in entry 0 of tile 1's copy queue, parked for its peers, with its start step on the way; the
group's table entry names the descriptor at `d`. -/
def collecting (d : Nat) (known : Bool) : State :=
  let s := withJob (base 1) 128 fun j => { j with cmd := noGroup, st := .parked, why := some .peer, started := true }
  { modTile s 1 (fun k => { k with groups := if known then [⟨7, 0, d, 0, 9, none⟩] else [] }) with msgs := [.start 128] }

/-- With a descriptor at 0x430000 of group 7 and HSEQ 9, whose one member is core 0 of tile 1, of the group since 9. -/
def described (s : State) : State :=
  withMem (withMem (withMem (withMem s 0x430000 8 (2 ^ 16 + 7)) 0x430008 8 9) 0x430040 8 (2 ^ 63 + 1 * 2 ^ 16)) 0x430048 8 9

theorem witness_StepsOfGroupsAndLinks :
    (∃ j, (collecting 0 false).msgs[0]? = some (.start 128) ∧ (entryAt (collecting 0 false) 128).job = some j ∧
      groupEntry (collecting 0 false) 1 (collOf j.cmd).grp.toNat j.core = none) ∧
    (∃ s g, s = collecting (6144 * 0x400000) true ∧ groupEntry s 1 7 4 = some g ∧ holeCheck s 1 g.desc ≠ .clear) ∧
    (∃ s g, s = collecting 0x430000 true ∧ groupEntry s 1 7 4 = some g ∧ holeCheck s 1 g.desc = .clear ∧ gMalformed s g.desc = true ∧
      guardHolds s g.desc (descLen s g.desc) (some 128) false = false ∧ groupBad s g.desc = false) ∧
    (∃ s g, s = { collecting 0x430000 true with bad := [0x430008] } ∧ groupEntry s 1 7 4 = some g ∧ holeCheck s 1 g.desc = .clear ∧ groupBad s g.desc = true ∧
      guardHolds s g.desc (descLen s g.desc) (some 128) false = false) ∧
    (∃ s g, s = withJob (modTile (collecting 0x430000 true) 1 fun k => { k with guards := [⟨0x430038, 0x430040, 160⟩] }) 160 id ∧ groupEntry s 1 7 4 = some g ∧
      holeCheck s 1 g.desc = .clear ∧ guardHolds s g.desc (descLen s g.desc) (some 128) false = true) ∧
    (∃ s j g, s = described (collecting 0x430000 true) ∧ (entryAt s 128).job = some j ∧ g = ⟨7, 0, 0x430000, 0, 9, none⟩ ∧
      groupEntry s 1 (collOf j.cmd).grp.toNat j.core = some g ∧ holeCheck s 1 g.desc = .clear ∧ guardHolds s g.desc (descLen s g.desc) (some 128) false = false ∧
      groupBad s g.desc = false ∧ gMalformed s g.desc = false ∧ spaceOf g.desc = 0 ∧ g.desc % 64 = 0 ∧
      AllReachable s g.desc ∧ NoStarts s g.desc ∧ NoIntervals s ∧ Plain s g.desc 16 ∧ (collOf j.cmd).seq.toNat = gHseq s g.desc ∧
      g.member ∈ gMembersOf s g.desc (gHseq s g.desc) ∧ j.st = .parked ∧ j.why = some .peer) ∧
    (∃ s, s = { base 1 with msgs := [.peer (.block 7 9 0 4 [1])] } ∧ siteLost s (coreTile 4) = false ∧ collJobFor s 4 7 9 = none) ∧
    (∃ s key j, s = { collecting 0x430000 true with msgs := [.peer (.block 7 9 0 4 [1])] } ∧ collJobFor s 4 7 9 = some (key, j) ∧ jobAt s key = some j) ∧
    (∃ s, s = noHoles (described { base 1 with msgs := [.loss 0x430000 [0]] }) ∧ s.holeSites.getLsbD (siteOf 1) = false ∧ s.msgs[0]? = some (.loss 0x430000 [0]) ∧ homeTile 0x430000 = some 1 ∧ siteLost s 1 = false ∧
      NoStarts s 0x430000 ∧ NoIntervals s ∧ Plain s 0x430000 (64 + 16 * 4096) ∧ (∃ x ∈ gMembers s 0x430000, x.1 ∈ [0] ∧ isCurrent s 0x430000 x.2 = true)) ∧
    (∃ s, s = { modSeg (base 1) (gridSeg (portTile 11)) (fun k => { k with powered := true }) with sites := [(siteOf (portTile 11), { Site.reset with st := .admitted })] } ∧
      portUp s 11 = true) := by
  refine ⟨⟨_, rfl, rfl, by decide +kernel⟩, ⟨_, _, rfl, rfl, by decide +kernel⟩, ⟨_, _, rfl, rfl, by decide +kernel, by decide +kernel, by decide +kernel, by decide +kernel⟩,
    ⟨_, _, rfl, rfl, by decide +kernel, by decide +kernel, by decide +kernel⟩, ⟨_, _, rfl, rfl, by decide +kernel, by decide +kernel⟩,
    ⟨_, _, _, rfl, rfl, rfl, by decide +kernel, by decide +kernel, by decide +kernel, by decide +kernel, by decide +kernel, by decide, by decide, ?_, ⟨nofun, nofun⟩, nofun,
      plain_of _ _ _ (by decide +kernel), by decide +kernel, by decide +kernel, rfl, rfl⟩,
    ⟨_, rfl, by decide +kernel, rfl⟩, ⟨_, _, _, rfl, rfl, rfl⟩,
    ⟨_, rfl, rfl, rfl, by decide, by decide +kernel, ⟨nofun, nofun⟩, nofun,
      plain_of _ _ _ fun k hk => ⟨snoopOf_apart _ 0x430000 (64 + 16 * 4096) _ rfl (by omega) (by omega), workMask_apart _ 0x430000 (64 + 16 * 4096) _ rfl (by omega) (by omega)⟩, ?_⟩, ⟨_, rfl, by decide +kernel⟩⟩
  · unfold AllReachable; decide +kernel
  · decide +kernel

theorem witness_ThePanelIsManaged :
    (base 1).pmc.inputGood = false ∧ (∃ s, s = { base 1 with pmc := { (base 1).pmc with inputGood := true, stage := 1 } } ∧ s.pmc.inputGood = true ∧ s.pmc.stage = 1) ∧
    (∃ s, s = { base 1 with pmc := { (base 1).pmc with stage := 2, fault := 0 } } ∧ s.pmc.stage = 2 ∧ s.pmc.fault ≠ 2) ∧
    (∃ s, s = { base 1 with pmc := { (base 1).pmc with stage := 3 } } ∧ s.pmc.stage = 3) ∧
    (∃ s, s = { zone id with pmc := { (base 1).pmc with stage := 4 } } ∧ s.pmc.stage = 4 ∧ (getSeg s 191).powered = true) ∧
    (∃ s, s = { base 1 with pmc := { (base 1).pmc with stage := 5, slot := 1 } } ∧ s.pmc.stage = 5 ∧ s.pmc.slot ≠ 0) ∧ (base 1).pmc.slot = 0 ∧
    (∃ s, s = { zone id with pmc := { (base 1).pmc with stage := 6, reboots := [191] } } ∧ s.pmc.stage = 6 ∧ s.pmc.reboots = 191 :: [] ∧ (getSeg s 191).powered = true) ∧
    (∃ s, s = { base 1 with pmc := { (base 1).pmc with stage := 6, reboots := [191] } } ∧ s.pmc.stage = 6 ∧ s.pmc.reboots = 191 :: [] ∧ (getSeg s 191).powered = false) ∧
    (∃ s, s = { base 1 with pmc := { (base 1).pmc with stage := 2, fault := 2 } } ∧ recovering s = true) ∧ recovering (base 1) = false ∧
    (∃ s, s = withMem (base 1) (undoEntry 1 0) 8 0x440000 ∧ memLE s.mem (undoEntry 1 0) 8 < 2 ^ 62) ∧
    (∃ s, s = withRegion (base 1) 0x420000 0 1 ∧ isRcb s 0x420000 = true ∧ (getRegion s 0x420000).eccu = false) ∧
    (∃ s, s = { withRegion (base 1) 0x420000 0 1 with regions := [(0x420000, { Region.reset with eccu := true })] } ∧ isRcb s 0x420000 = true ∧
      (getRegion s 0x420000).eccu = true ∧ (getRegion s 0x420000).interval = none) ∧
    (∃ s v, s = { withMem (withRegion (base 1) 0x420000 0 1) 0x42000B 1 1 with regions := [(0x420000, { Region.reset with eccu := true, interval := some v })] } ∧
      isRcb s 0x420000 = true ∧ (getRegion s 0x420000).eccu = true ∧ (getRegion s 0x420000).interval = some v ∧ rcbCkpt s 0x420000 = 1) :=
  ⟨rfl, ⟨_, rfl, rfl, rfl⟩, ⟨_, rfl, rfl, by decide⟩, ⟨_, rfl, rfl⟩, ⟨_, rfl, rfl, rfl⟩, ⟨_, rfl, rfl, by decide⟩, rfl, ⟨_, rfl, rfl, rfl, rfl⟩,
    ⟨_, rfl, rfl, rfl, by decide +kernel⟩, ⟨_, rfl, rfl⟩, rfl, ⟨_, rfl, by decide +kernel⟩, ⟨_, rfl, by decide +kernel, rfl⟩,
    ⟨_, rfl, by decide +kernel, rfl, rfl⟩, ⟨_, ⟨0, 0, 0, [], []⟩, rfl, by decide +kernel, rfl, rfl, by decide +kernel⟩⟩

/-! ### Ill-formed terms: each check refuses one, and the encoder or the decoder with it -/

/-- LDU of a doubleword (R32), an AMO of a byte (R33), WAITA without an address or a deadline (R208), a CSR number that the catalogue lacks (R121), and
a CWA beside CMPL 0 (R269). -/
def illFormed : List Instr :=
  [.ldu 1 2 .d 0, .lduAcq 1 2 .d 0, .waita 1 0 2 0, .amoAdd ⟨1, 2, 3, .b, false, .plain⟩, .amoCas ⟨1, 2, 3, .h, true, .ar⟩ 4, .csrr 1 0x00C, .csrw 1 2 0x312,
    .fill ⟨false, 0, 8⟩ ⟨0x4000, 300, 0⟩, .mma ⟨false, 0, 8⟩ (mmaOf 0)]

theorem test_wf_refuses : illFormed.all (fun i => !i.wf) = true := by decide +kernel

theorem test_decoder_refuses :
    [wordM 0x15 1 2 3 0 0, wordR 0x17 1 0 2 3 0, wordR 0x18 1 2 3 1 0, wordI 0x29 1 0 0x00C, wordI 0x29 1 2 (2 ^ 16 + 0x312), wordM 0x16 1 2 3 1 0, wordB 0x10 1 2 6 0].all
      (fun w => (decodeWord w).isOk) = false ∧
    (decodeCmd (wordC 0x05 0 0 0 8 (0x4000 * 2 ^ 144))).isOk = false := by decide +kernel

/-! ### Words that the manual writes out -/

/-- The manual's own examples of encodings (R25 to R57, and each group's assembly lines). -/
def manualWords : List (IWord × Instr) :=
  [(0x08480001, .addi 1 2 1), (0x517E7FFE, .ldAcq 5 15 .w 0x3FFE), (0x61259F10, .amoAdd ⟨4, 9, 6, .d, true, .ar⟩), (0x08000000, .addi 0 0 0),
    (0x51470000, .ld 5 1 .d 0), (0x04CD4000, .add 3 3 5), (0x4100FFFC, .bne 4 0 0x7FFC), (0x58F70008, .st 3 13 .d 8), (0x28523456, .lui 1 0x123456),
    (0x30C48040, .div 3 1 2), (0x31048060, .rem 4 1 2), (0x41000005, .beq 4 0 5), (0x05508040, .xor 5 4 2), (0x41418003, .bge 5 0 3), (0x48380000, .jalr 0 14 0),
    (0x50A94001, .ldAcq 2 10 .h 1), (0x54D00005, .ldu 3 4 .b 5), (0x596A8000, .stRel 5 10 .w 0), (0x5D1C0000, .ldf 4 7), (0x5C1D8010, .stf 7 6), (0x5C1C0020, .sete 7),
    (0x5C9CC035, .waita 2 7 3 5), (0x60085810, .amoAdd ⟨0, 2, 1, .d, false, .plain⟩), (0x60081B00, .amoSwap ⟨0, 2, 0, .d, false, .ar⟩), (0x69480003, .hld 5 2 .d),
    (0x68098013, .hst 2 6 .d), (0x6A640002, .hld 9 9 .w)]
  ++ [(0x80C48060, .fdiv .s 3 1 2), (0x8508C011, .fmsub .s 4 2 3 1), (0x8148C040, .fmul .s 5 2 3), (0x81944020, .fsub .s 6 5 1), (0x8199C070, .fdiv .d 6 6 7),
    (0x825C0130, .feq .d 9 7 0), (0x9048C000, .spawn 1 2 3), (0x90480010, .spawna 1 2), (0x90000020, .endp), (0x90000030, .yield), (0x90080040, .join 2), (0x90480050, .prio 1 2),
    (0x9048C060, .migrate 1 2 3), (0x90480070, .self 1 2), (0x90480080, .rgnnew 1 2), (0x90480090, .rgnend 1 2), (0x904000A0, .bar 1), (0x904000B0, .barck 1),
    (0x9448C000, .chanOut 1 2 3), (0x9448C010, .chanIn 1 2 3), (0x9448C020, .outw 1 2 3), (0x94480030, .inw 1 2), (0x9448C040, .sel 1 2 3), (0x9448C041, .selF 1 2 3),
    (0x9448C050, .chinit 1 2 3), (0x94480060, .chclr 1 2), (0x98480000, .rbinit 1 2), (0x9848C010, .rbclaim 1 2 3), (0x9848C011, .rbclaimNb 1 2 3),
    (0x9808C020, .rbcommit 2 3), (0x98480030, .rbawait 1 2), (0x98480031, .rbawaitNb 1 2), (0x9808C040, .rbretire 2 3), (0x9848C050, .rbpeek 1 2 3)]
  ++ [(0x9C48C000, .enq 1 2 3), (0x9C480010, .jwait 1 2), (0x9C480020, .jpoll 1 2), (0x9C480030, .jdrop 1 2), (0xA0500000, .acfg 1 4), (0xA0080010, .apf 2),
    (0xA1480020, .ard 5 2), (0xA00D0030, .awr 3 4), (0xA00C0040, .aclr 3), (0xA5C00001, .csrr 7 0x001), (0xA4170205, .csrc 0 5 0x205), (0xA42E0207, .csrs 0 11 0x207),
    (0xA8480000, .tkreq 1 2), (0xA8400010, .tkrel 1), (0xA8400020, .tkstat 1), (0xAC48C000, .kmap 1 2 3), (0xAC48C010, .kunmap 1 2 3), (0xAC48C020, .ksplice 1 2 3),
    (0xAC48C030, .ktag 1 2 3), (0xAC08C040, .krepair 2 3), (0xAC08C050, .krdone 2 3), (0xB048C000, .cgjoin 1 2 3), (0xB048C010, .cgleave 1 2 3), (0xB048C020, .cgstat 1 2 3),
    (0xB0480030, .plxl 1 2), (0xB40C0000, .trap 3), (0xB4000010, .brk), (0xB4000020, .wfi), (0xB448C030, .resume 1 2 3), (0xB4480040, .killp 1 2), (0xB448C050, .jrnl 1 2 3),
    (0xB4480060, .rgnsusp 1 2), (0xB4480070, .rgnresm 1 2)]

theorem test_manual_words : manualWords.all (fun p => decodesTo (decodeWord p.1) p.2 && encodeWord p.2 == some p.1) = true := by decide +kernel

/-- Words that the manual gives as illegal, in R39's examples. -/
theorem test_manual_illegal : (decodeWord 0x40030000).isOk = false ∧ (decodeWord 0x58004000).isOk = false := by decide +kernel

/-- One word of every family, and of every engine, written field by field. -/
theorem test_family_words : someWords.all (fun p => decodesTo (decodeWord p.1) p.2) = true := by decide +kernel
theorem test_command_words : someCommands.all (fun p => decodesTo (decodeCmd p.1) p.2) = true := by decide +kernel

/-! ### Values that the manual works out -/

/-- R73, R74: the two scale words of the manual's example, and that of R323. -/
theorem test_scale_words : scaleWord 127 1 2 = 0x0127F001 ∧ scaleWord 127 3 2 = 0x2427F003 ∧ scaleWord 126 0x900 5 = 0x1157E900 := by decide +kernel

/-- R79 to R81: the T6 granule added to 1.0. -/
theorem test_t6_granule :
    pat32 (addGranule (fDecode fp32 0x3F800000) ((contValues 9 0x1D994).map (scaled (scaleValue 0x27F001)))
      ((contValues 9 (0x19 + 0x1C * 2 ^ 6 + 0x03 * 2 ^ 12)).map (scaled (scaleValue 0x27F003)))) = 0x408C1B02 := by decide +kernel

/-- R70, R323: the container that VCVT writes for (0.9, −3.2, 12.5) under the scale 0.78125, with TAG 9 and GEN 5. -/
theorem test_t6_container :
    contBits 9 5 [encodeNarrow 9 (fDecode fp32 0x3F666666) 25 (-5), encodeNarrow 9 (fDecode fp32 0xC04CCCCD) 25 (-5), encodeNarrow 9 (fDecode fp32 0x41480000) 25 (-5)]
      = 0x01FF110159 := by decide +kernel

/-- R288, R289: the min-plus cell of the example ends at 4.0. -/
theorem test_min_plus :
    ([(0, 7), (4, 2), (1, 3), (0xFF, 0), (0xFF, 0), (0xFF, 0), (0xFF, 0), (0xFF, 0)].foldl (fun s (p : Nat × Nat) =>
      cellProgram false 0x0000000200003E11 (if p.1 = 0xFF then 0x7F800000 else pat32 (fvInt p.1)) (pat32 (fvInt p.2)) s) 0x7F800000) = 0x40800000 := by decide +kernel

/-- R112, R115: the manual's quotient, fused and separate products, with their flags. -/
theorem test_fp_example :
    fpValue .div .s .rne 0x3F800000 0x40400000 = (0x3EAAAAAB, 1) ∧ fmaValue .s .rne false true 0x40400000 0x3EAAAAAB 0x3F800000 = (0x33000000, 0) ∧
    fpValue .mul .s .rne 0x40400000 0x3EAAAAAB = (0x3F800000, 1) ∧ fpValue .sub .s .rne 0x3F800000 0x3F800000 = (0, 0) := by decide +kernel

/-- R163 to R165: the walk of 0x8C40_2345_6789 in the manual's example after R171, and the tile whose TLM holds the frame (R152). -/
theorem test_walk :
    (match walk (modTile ([(0x400118, 0x410001), (0x411008, 0x420001), (0x421A28, 0x4B02000F)].foldl (fun s p => withMem s p.1 8 p.2) (noHoles (base 1))) 1
        fun k => { k with ptroot := 0x400001 }) 1 0 0x8C4023456789 with
      | .leaf l => l.pbase + (0x8C4023456789 - l.vbase)
      | _ => 0) = 0x4B026789 ∧ homeTile 0x4B026789 = some 300 := by decide +kernel

/-! ### One instruction each -/

/-- The state after an instruction. -/
def after (i : Instr) (s : State) : State := match exec i s with | .next t => t | _ => s

/-- A register of the running process after an instruction. -/
def gives (i : Instr) (s : State) (d : Reg) : Word := reg (after i s) (run 1) d

/-- R48: LI of 0x1_2345_6789 in its two words. -/
theorem test_li : gives (.addi 1 1 0x789) (after (.lui 1 0x123456) (base 1)) 1 = 0x123456789 := by decide +kernel

/-- R104: division by zero, and the most negative number by −1. -/
theorem test_div : gives (.div 3 1 0) (withW (base 1) 1 7) 3 = 0xFFFFFFFFFFFFFFFF ∧ gives (.rem 3 1 0) (withW (base 1) 1 7) 3 = 7 ∧
    gives (.div 3 1 2) (withW (withW (base 1) 1 (2 ^ 63)) 2 (-1)) 3 = 2 ^ 63 := by decide +kernel

/-- R85: a write of W0 is discarded. -/
theorem test_w0 : gives (.addi 0 0 5) (base 1) 0 = 0 := by decide +kernel

/-- R106: JALR takes the old W[d] as its base. -/
theorem test_jalr : ((me (after (.jalr 1 1 8) (withW (base 1) 1 0x410100))).run.map (·.pc)) = some 0x410108 ∧ gives (.jalr 1 1 8) (withW (base 1) 1 0x410100) 1 = 0x410004 := by
  decide +kernel

/-- R210: AMO.MIN.W and AMO.MINU.W of the manual's example. -/
theorem test_amo_min :
    (∀ f : AmoForm, f = ⟨3, 1, 2, .w, false, .plain⟩ → ∀ s, s = withMem (withW (withW (base 1) 1 0x440000) 2 5) 0x440000 8 0xFFFFFFFE →
      gives (.amoMin f) s 3 = 0xFFFFFFFFFFFFFFFE ∧ dwAt (after (.amoMin f) s) 0x440000 = 0xFFFFFFFE ∧ gives (.amoMinu f) s 3 = 0xFFFFFFFFFFFFFFFE ∧
        dwAt (after (.amoMinu f) s) 0x440000 = 5) := by
  rintro _ rfl _ rfl; decide +kernel

/-- R176: a load whose bytes lie in a store still in the core's buffer reads that store. -/
theorem test_store_then_load : gives (.ldu 3 1 .h 1) (after (.st 2 1 .h 1) (withW (withW (base 1) 1 0x440000) 2 0x12345)) 3 = 0x2345 := by decide +kernel

/-- R125: PSTAT reads the mode of a system process at its SM bit. -/
theorem test_pstat : bit (gives (.csrr 3 0x000) (base 1) 3) 63 = true := by decide +kernel

/-- R122: a write of a read-only CSR, and region mode at a system CSR, do not complete. -/
theorem test_priv : (me (after (.csrw 3 1 0x201) (regionMode (base 1)))).run = none := by decide +kernel

/-- R131: TRAP takes its argument as TVAL; a resume without a new PC goes on after it, and after BRK. -/
theorem test_trap : (me (after (.trap 3) (withW (base 1) 3 0x77))).tval = 0x77 ∧ resumePc (after (.trap 3) (base 1)) (bootWptr 1) = 0x410004 ∧
    resumePc (after .brk (base 1)) (bootWptr 1) = 0x410004 := by decide +kernel

/-- R39: a word that no row encodes raises ILLOP with the word as TVAL. -/
theorem test_illop : (me (after (instrOf 0x58004000) (base 1))).tval = 0x58004000 := by decide +kernel

/-- R24: step runs the instruction placed at the program counter of a machine at reset. -/
theorem test_first_step : (match step (State.reset.withFetchWord 32 0x08480001) with | .next t => regRd t t.cur (bootWptr (bootTile 32 0x08480001)) 1 | _ => 0) = 1 := by
  decide +kernel

end Sys2Proof.Tests
end

section
/-! SUPPORT. Proofs of the statements about integer instructions, branches and jumps (R98 to R106, R128). -/

namespace Sys2Proof.Machine

open Sys2Proof.Claims

/-! ### Words as numbers -/

theorem ofI_toInt {z : Int} (h : -(2 ^ 63) ≤ z ∧ z < 2 ^ 63) : (ofI z).toInt = z := by
  obtain ⟨hl, hu⟩ := h
  rw [ofI, BitVec.toInt_ofInt]
  exact Int.bmod_eq_of_le (by omega) (by omega)

theorem word_toNat {n : Nat} (h : n < 2 ^ 64) : (word n).toNat = n := by
  rw [word, BitVec.toNat_ofNat, Nat.mod_eq_of_lt h]

theorem toInt_bounds (x : Word) : -(2 ^ 63) ≤ x.toInt ∧ x.toInt < 2 ^ 63 := by
  have := BitVec.le_toInt x
  have := BitVec.toInt_lt (x := x)
  omega

@[simp] theorem boolW_toNat (b : Bool) : (boolW b).toNat = if b then 1 else 0 := by
  cases b <;> rfl

/-- SignExtend of R6 is the signed value of a truncation. -/
theorem sx_eq_toInt (n w : Nat) (hw : 0 < w) : sx n w = (BitVec.ofNat w n).toInt := by
  obtain ⟨k, rfl⟩ : ∃ k, w = k + 1 := ⟨w - 1, by omega⟩
  have hp : 2 ^ (k + 1) = 2 * 2 ^ k := by rw [Nat.pow_succ, Nat.mul_comm]
  rw [sx, BitVec.toInt_eq_toNat_cond, BitVec.toNat_ofNat]
  simp only [Nat.add_sub_cancel, hp]
  congr 1
  exact propext ⟨fun h => by omega, fun h => by omega⟩

theorem sx_mod (n w m : Nat) (h : w ≤ m) : sx (n % 2 ^ m) w = sx n w := by
  simp only [sx, Nat.mod_mod_of_dvd n (Nat.pow_dvd_pow 2 h)]

theorem sext32_toInt (v : Word) : (sext32 v).toInt = sx v.toNat 32 := by
  rw [sext32, BitVec.toInt_signExtend_of_le (by decide), sx_eq_toInt _ _ (by decide)]
  rfl

/-- A value that 32 bits hold is kept by sign extension from 32 bits. -/
theorem sext32_toInt_of_fits {v : Word} (h : -(2 ^ 31) ≤ v.toInt ∧ v.toInt < 2 ^ 31) : (sext32 v).toInt = v.toInt := by
  obtain ⟨hl, hu⟩ := h
  rw [sext32_toInt, sx_eq_toInt _ _ (by decide), ← BitVec.ofInt_natCast, BitVec.toInt_ofInt]
  have := BitVec.toInt_eq_toNat_bmod v
  rw [this] at hl hu ⊢
  have e : (v.toNat : Int).bmod (2 ^ 32) = ((v.toNat : Int).bmod (2 ^ 64)).bmod (2 ^ 32) := by
    rw [Int.bmod_bmod_of_dvd (by decide)]
  rw [e]
  exact Int.bmod_eq_of_le (by omega) (by omega)

/-- A sum with the pattern of an integer, as a number. -/
theorem toNat_add_ofInt {w : Nat} (x : BitVec w) (z : Int) : ((x + BitVec.ofInt w z).toNat : Int) = ((x.toNat : Int) + z) % 2 ^ w := by
  have hw : ((2 ^ w : Nat) : Int) ≠ 0 := by positivity
  rw [BitVec.toNat_add, BitVec.toNat_ofInt, Int.natCast_mod, Int.natCast_add, Int.toNat_of_nonneg (Int.emod_nonneg _ hw),
    Int.add_emod_emod]
  push_cast
  rfl

/-- A sign-extended field, scaled by a power of two. -/
theorem signExtend_shiftLeft {m : Nat} (w n : Nat) (i : BitVec m) : i.signExtend w <<< n = BitVec.ofInt w (i.toInt * 2 ^ n) := by
  have hpow : BitVec.twoPow w n = BitVec.ofInt w (2 ^ n) := by
    apply BitVec.eq_of_toNat_eq
    rw [show (2 : Int) ^ n = ((2 ^ n : Nat) : Int) by push_cast; rfl, BitVec.ofInt_natCast, BitVec.toNat_twoPow, BitVec.toNat_ofNat]
  rw [BitVec.shiftLeft_eq_mul_twoPow, BitVec.ofInt_mul, hpow, BitVec.signExtend]

/-! ### Values of the integer operations (R100 to R104) -/

theorem toInt_sshiftRight_div (x : Word) (n : Nat) : (x.sshiftRight n).toInt = x.toInt / 2 ^ n := by
  rw [BitVec.toInt_sshiftRight, Int.shiftRight_eq_div_pow]
  push_cast
  rfl

theorem toNat_sub_word (x y : Word) : (x - y).toNat = (x.toNat + (2 ^ 64 - y.toNat)) % 2 ^ 64 := by
  rw [BitVec.toNat_sub, Nat.add_comm]

theorem getLsbD_andn (x y : Word) (k : Nat) (h : k < 64) : (x &&& ~~~y).getLsbD k = (x.getLsbD k && !y.getLsbD k) := by
  simp [h]

theorem getLsbD_orn (x y : Word) (k : Nat) (h : k < 64) : (x ||| ~~~y).getLsbD k = (x.getLsbD k || !y.getLsbD k) := by
  simp [h]

theorem toNat_shiftLeft_word (x : Word) (n : Nat) : (x <<< n).toNat = x.toNat * 2 ^ n % 2 ^ 64 := by
  rw [BitVec.toNat_shiftLeft, Nat.shiftLeft_eq]

theorem toNat_ushiftRight_word (x : Word) (n : Nat) : (x >>> n).toNat = x.toNat / 2 ^ n := by
  rw [BitVec.toNat_ushiftRight, Nat.shiftRight_eq_div_pow]

theorem boolW_slt_toNat (x y : Word) : (boolW (x.slt y)).toNat = if x.toInt < y.toInt then 1 else 0 := by
  simp [BitVec.slt]

theorem boolW_ult_toNat (x y : Word) : (boolW (x.ult y)).toNat = if x.toNat < y.toNat then 1 else 0 := by
  simp [BitVec.ult]

theorem minSigned_toInt (x y : Word) : (if x.sle y then x else y).toInt = min x.toInt y.toInt := by
  rw [apply_ite BitVec.toInt, min_def]
  simp [BitVec.sle]

theorem maxSigned_toInt (x y : Word) : (if y.sle x then x else y).toInt = max x.toInt y.toInt := by
  rw [apply_ite BitVec.toInt, max_comm, max_def]
  simp [BitVec.sle]

theorem minUnsigned_toNat (x y : Word) : (if x.ule y then x else y).toNat = min x.toNat y.toNat := by
  rw [apply_ite BitVec.toNat, min_def]
  simp [BitVec.ule]

theorem maxUnsigned_toNat (x y : Word) : (if y.ule x then x else y).toNat = max x.toNat y.toNat := by
  rw [apply_ite BitVec.toNat, max_comm, max_def]
  simp [BitVec.ule]

/-- A W-form result is the sign-extended low half of any number that the result is congruent to. -/
theorem sext32_toInt_of_toNat {v : Word} {n : Nat} (h : v.toNat = n % 2 ^ 64) : (sext32 v).toInt = sx n 32 := by
  rw [sext32_toInt, h, sx_mod _ _ _ (by decide)]

theorem srlw_toInt (x : Word) (n : Nat) : (sext32 ((x.setWidth 32).setWidth 64 >>> n)).toInt = sx (x.toNat % 2 ^ 32 / 2 ^ n) 32 := by
  rw [sext32_toInt, toNat_ushiftRight_word, BitVec.toNat_setWidth, BitVec.toNat_setWidth, Nat.mod_eq_of_lt (b := 2 ^ 64) (by omega)]

theorem sraw_toInt (x : Word) (n : Nat) : (sext32 ((sext32 x).sshiftRight n)).toInt = sx x.toNat 32 / 2 ^ n := by
  have hx : -(2 ^ 31) ≤ (sext32 x).toInt ∧ (sext32 x).toInt < 2 ^ 31 := by
    rw [sext32_toInt, sx_eq_toInt _ _ (by decide)]
    exact ⟨BitVec.le_toInt _, BitVec.toInt_lt⟩
  rw [sext32_toInt_of_fits, toInt_sshiftRight_div, sext32_toInt]
  rw [toInt_sshiftRight_div]
  have hn : (0 : Int) < 2 ^ n := by positivity
  obtain ⟨hl, hu⟩ := hx
  refine ⟨(Int.le_ediv_iff_mul_le hn).2 (by nlinarith), (Int.ediv_lt_iff_lt_mul hn).2 (by nlinarith)⟩

/-! ### Products and quotients (R104) -/

theorem mulhV_toInt (x y : Word) : (mulhV x y).toInt = x.toInt * y.toInt / 2 ^ 64 := by
  obtain ⟨hx, hx'⟩ := toInt_bounds x
  obtain ⟨hy, hy'⟩ := toInt_bounds y
  refine ofI_toInt ⟨?_, ?_⟩
  · exact (Int.le_ediv_iff_mul_le (by decide)).2 (by nlinarith)
  · exact (Int.ediv_lt_iff_lt_mul (by decide)).2 (by nlinarith)

theorem mulhuV_toNat (x y : Word) : (mulhuV x y).toNat = x.toNat * y.toNat / 2 ^ 64 := by
  refine word_toNat ((Nat.div_lt_iff_lt_mul (by decide)).2 ?_)
  exact Nat.mul_lt_mul'' x.isLt y.isLt

theorem mulhsuV_toInt (x y : Word) : (mulhsuV x y).toInt = x.toInt * (y.toNat : Int) / 2 ^ 64 := by
  obtain ⟨hx, hx'⟩ := toInt_bounds x
  have hy := y.isLt
  refine ofI_toInt ⟨?_, ?_⟩
  · exact (Int.le_ediv_iff_mul_le (by decide)).2 (by nlinarith)
  · exact (Int.ediv_lt_iff_lt_mul (by decide)).2 (by nlinarith)

theorem toNat_eq_zero_iff_word {y : Word} : y.toNat = 0 ↔ y = 0 := by
  simp [BitVec.toNat_eq]

/-- −2^63 / −1 is the one quotient that 64 bits cannot hold. -/
theorem tdiv_fits {a b : Int} (ha : -(2 ^ 63) ≤ a ∧ a < 2 ^ 63) (h : ¬(a = -(2 ^ 63) ∧ b = -1)) :
    -(2 ^ 63) ≤ a.tdiv b ∧ a.tdiv b < 2 ^ 63 := by
  have habs : (a.tdiv b).natAbs = a.natAbs / b.natAbs := Int.natAbs_tdiv a b
  by_cases hb : 2 ≤ b.natAbs
  · have : a.natAbs / b.natAbs ≤ a.natAbs / 2 := Nat.div_le_div_left hb (by decide)
    omega
  · obtain rfl | rfl | rfl : b = -1 ∨ b = 0 ∨ b = 1 := by omega
    · rw [Int.tdiv_neg, Int.tdiv_one]
      omega
    · rw [Int.tdiv_zero]
      decide
    · rwa [Int.tdiv_one]

theorem tmod_fits {a b : Int} (ha : -(2 ^ 63) ≤ a ∧ a < 2 ^ 63) : -(2 ^ 63) ≤ a.tmod b ∧ a.tmod b < 2 ^ 63 := by
  have h := Int.natAbs_tmod a b
  have h2 : a.natAbs % b.natAbs ≤ a.natAbs := Nat.mod_le _ _
  rcases Int.le_total 0 a with h0 | h0
  · have := Int.tmod_nonneg b h0
    omega
  · have := Int.tmod_nonneg b (Int.neg_nonneg.2 h0)
    rw [Int.neg_tmod] at this
    omega

theorem divV_value (x y : Word) :
    if y.toNat = 0 then (divV x y).toNat = 2 ^ 64 - 1
    else if x.toInt = -(2 ^ 63) ∧ y.toInt = -1 then (divV x y).toInt = -(2 ^ 63)
    else (divV x y).toInt = Int.tdiv x.toInt y.toInt := by
  simp only [toNat_eq_zero_iff_word, divV]
  split_ifs with h0 h1
  · rfl
  · exact h1.1
  · exact ofI_toInt (tdiv_fits (toInt_bounds x) h1)

theorem remV_value (x y : Word) :
    if y.toNat = 0 then remV x y = x
    else if x.toInt = -(2 ^ 63) ∧ y.toInt = -1 then (remV x y).toInt = 0
    else (remV x y).toInt = Int.tmod x.toInt y.toInt := by
  simp only [toNat_eq_zero_iff_word, remV]
  split_ifs with h0 h1
  · rfl
  · rfl
  · exact ofI_toInt (tmod_fits (toInt_bounds x))

theorem divuV_toNat (x y : Word) : (divuV x y).toNat = if y.toNat = 0 then 2 ^ 64 - 1 else x.toNat / y.toNat := by
  simp only [toNat_eq_zero_iff_word, divuV]
  split_ifs
  · rfl
  · exact word_toNat ((Nat.div_le_self _ _).trans_lt x.isLt)

theorem remuV_toNat (x y : Word) : (remuV x y).toNat = if y.toNat = 0 then x.toNat else x.toNat % y.toNat := by
  simp only [toNat_eq_zero_iff_word, remuV]
  split_ifs
  · rfl
  · exact word_toNat ((Nat.mod_le _ _).trans_lt x.isLt)

/-! ### Counting bits and moving bytes (R100) -/

theorem clz64_value (x : Word) : (clz64 x).toNat ≤ 64 ∧ (∀ k, 64 ≤ k + (clz64 x).toNat → x.getLsbD k = false) ∧
    ((clz64 x).toNat < 64 → x.getLsbD (63 - (clz64 x).toNat) = true) := by
  by_cases h0 : x.toNat = 0
  · have hx : x = 0 := toNat_eq_zero_iff_word.1 h0
    subst hx
    exact ⟨by decide, fun k _ => by simp, fun h => absurd h (by decide)⟩
  · have hlog : Nat.log2 x.toNat < 64 := (Nat.log2_lt h0).2 x.isLt
    have hc : (clz64 x).toNat = 63 - Nat.log2 x.toNat := by
      rw [clz64, if_neg h0, word_toNat (by omega)]
    rw [hc]
    refine ⟨by omega, fun k hk => ?_, fun _ => ?_⟩
    · refine Nat.testBit_lt_two_pow ?_
      exact (Nat.log2_lt h0).1 (by omega)
    · rw [show 63 - (63 - Nat.log2 x.toNat) = Nat.log2 x.toNat by omega]
      exact Nat.testBit_log2 h0

theorem ctz64_value (x : Word) : (ctz64 x).toNat ≤ 64 ∧ (∀ k, k < (ctz64 x).toNat → x.getLsbD k = false) ∧
    ((ctz64 x).toNat < 64 → x.getLsbD (ctz64 x).toNat = true) := by
  cases hf : (List.range 64).find? (fun i => x.getLsbD i) with
  | none =>
    have hc : (ctz64 x).toNat = 64 := by simp [ctz64, hf, word]
    rw [hc]
    refine ⟨le_rfl, fun k hk => ?_, fun h => absurd h (by decide)⟩
    simpa using List.find?_eq_none.1 hf k (List.mem_range.2 hk)
  | some n =>
    obtain ⟨hn, hlt, hfirst⟩ := List.find?_range_eq_some.1 hf
    have hlt : n < 64 := List.mem_range.1 hlt
    have hc : (ctz64 x).toNat = n := by rw [ctz64, hf, Option.getD_some, word_toNat (by omega)]
    rw [hc]
    exact ⟨by omega, fun k hk => by simpa using hfirst k hk, fun _ => hn⟩

theorem popc64_toNat (x : Word) : (popc64 x).toNat = ((List.range 64).filter fun k => x.getLsbD k).length := by
  rw [popc64, word_toNat, List.countP_eq_length_filter]
  exact (List.countP_le_length.trans_eq List.length_range).trans_lt (by decide)

theorem sextTo_toInt (n : SrcWidth) (x : Word) : (sextTo n x).toInt = sx x.toNat (srcBits n) := by
  cases n <;> rw [sextTo, BitVec.toInt_signExtend_of_le (by decide), sx_eq_toInt _ _ (by decide)] <;> rfl

theorem zextTo_toNat (n : SrcWidth) (x : Word) : (zextTo n x).toNat = x.toNat % 2 ^ srcBits n := by
  cases n <;> simp only [zextTo, BitVec.toNat_setWidth, srcBits] <;> omega

/-- Byte `k` of a word, as bits. -/
theorem byte_eq_extract (x : Word) (k : Nat) : x.toNat / 256 ^ k % 256 = (x.extractLsb' (8 * k) 8).toNat := by
  rw [BitVec.extractLsb'_toNat, Nat.shiftRight_eq_div_pow, Nat.pow_mul]

theorem brev64_getLsbD (x : Word) (k i : Nat) (hk : k < 8) (hi : i < 8) :
    (brev64 x).getLsbD (8 * k + i) = x.getLsbD (8 * (7 - k) + i) := by
  unfold brev64
  rw [BitVec.getLsbD_append (n := 56), BitVec.getLsbD_append (n := 48), BitVec.getLsbD_append (n := 40), BitVec.getLsbD_append (n := 32),
    BitVec.getLsbD_append (n := 24), BitVec.getLsbD_append (n := 16), BitVec.getLsbD_append (n := 8)]
  simp only [BitVec.getLsbD_extractLsb']
  interval_cases k <;> grind

theorem brev64_byte (x : Word) (k : Nat) (hk : k < 8) : (brev64 x).toNat / 256 ^ k % 256 = x.toNat / 256 ^ (7 - k) % 256 := by
  rw [byte_eq_extract, byte_eq_extract]
  congr 1
  ext i hi
  simpa using brev64_getLsbD x k i hk hi

/-! ### Constants (R101 to R103) -/

theorem imm18_getLsbD (imm : BitVec 18) (k : Nat) (h : k < 64) : (imm18 imm).getLsbD k = imm.getLsbD (min k 17) := by
  rw [imm18, BitVec.getLsbD_signExtend]
  rcases Nat.lt_or_ge k 18 with hk | hk
  · simp [h, hk, Nat.min_eq_left (Nat.le_of_lt_succ hk)]
  · simp [h, Nat.not_lt.2 hk, Nat.min_eq_right (Nat.le_of_succ_le hk), BitVec.msb_eq_getLsbD_last]

theorem imm18_toInt (imm : BitVec 18) : (imm18 imm).toInt = imm.toInt := BitVec.toInt_signExtend_of_le (by decide)

theorem imm18_toNat (imm : BitVec 18) : ((imm18 imm).toNat : Int) = imm.toInt % 2 ^ 64 := by
  rw [imm18, BitVec.signExtend, BitVec.toNat_ofInt]
  omega

theorem boolW_slt_imm18 (x : Word) (imm : BitVec 18) : (boolW (x.slt (imm18 imm))).toNat = if x.toInt < imm.toInt then 1 else 0 := by
  rw [boolW_slt_toNat, imm18_toInt]

theorem boolW_ult_imm18 (x : Word) (imm : BitVec 18) :
    (boolW (x.ult (imm18 imm))).toNat = if (x.toNat : Int) < imm.toInt % 2 ^ 64 then 1 else 0 := by
  rw [boolW_ult_toNat, ← imm18_toNat]
  simp

theorem add_imm18_toNat (x : Word) (imm : BitVec 18) : ((x + imm18 imm).toNat : Int) = ((x.toNat : Int) + imm.toInt) % 2 ^ 64 :=
  toNat_add_ofInt x imm.toInt

theorem addiw_toInt (x : Word) (imm : BitVec 18) :
    (sext32 (x + imm18 imm)).toInt = sx (((x.toNat : Int) + imm.toInt) % 2 ^ 64).toNat 32 := by
  rw [sext32_toInt, ← add_imm18_toNat, Int.toNat_natCast]

theorem upperImm_eq_ofInt (imm : BitVec 22) : upperImm imm = BitVec.ofInt 64 (imm.toInt * 4096) :=
  signExtend_shiftLeft 64 12 imm

theorem upperImm_toInt (imm : BitVec 22) : (upperImm imm).toInt = imm.toInt * 4096 := by
  have := BitVec.le_toInt imm
  have := BitVec.toInt_lt (x := imm)
  rw [upperImm_eq_ofInt]
  exact ofI_toInt (by omega)

theorem auipc_toNat (pc : PC) (imm : BitVec 22) :
    ((pc.setWidth 64 + upperImm imm).toNat : Int) = ((pc.toNat : Int) + imm.toInt * 4096) % 2 ^ 64 := by
  rw [upperImm_eq_ofInt, toNat_add_ofInt, BitVec.toNat_setWidth, Nat.mod_eq_of_lt (by omega)]

/-! ### Integer instructions as operations on words -/

theorem residue_sound {s : State} {c : Nat} (h : (getCore s c).upset = 0) (r : Running) (i : Instr) (k : State → State) :
    residue s c r i k = k s := by
  rw [residue, h]

theorem opRR_regStep {s : State} {r : Running} (h : Issues s r) (hs : Sound s) (i : Instr) (f : Word → Word → Word) (d a b : Reg) :
    ∃ t, opRR i f d a b s = .next t ∧ RegStep s t r d (f (reg s r a) (reg s r b)) (r.pc + 4) :=
  ⟨_, (onCore_issues h _).trans (congrArg _ (residue_sound hs r i _)), regStep_finish h d _⟩

theorem opR_regStep {s : State} {r : Running} (h : Issues s r) (hs : Sound s) (i : Instr) (f : Word → Word) (d a : Reg) :
    ∃ t, opR i f d a s = .next t ∧ RegStep s t r d (f (reg s r a)) (r.pc + 4) :=
  ⟨_, (onCore_issues h _).trans (congrArg _ (residue_sound hs r i _)), regStep_finish h d _⟩

theorem opPc_regStep {s : State} {r : Running} (h : Issues s r) (hs : Sound s) (i : Instr) (f : PC → Word) (d : Reg) :
    ∃ t, opPc i f d s = .next t ∧ RegStep s t r d (f r.pc) (r.pc + 4) :=
  ⟨_, (onCore_issues h _).trans (congrArg _ (residue_sound hs r i _)), regStep_finish h d _⟩

/-- Each instruction of the table of three registers runs one operation on words, whose value satisfies the table's relation. -/
theorem threeReg_operation {i : Instr} {d a b : Reg} {rel : Word → Word → Word → Prop} (h : threeReg i = some (d, a, b, rel)) :
    ∃ f, (∀ s, exec i s = opRR i f d a b s) ∧ ∀ x y, rel x y (f x y) := by
  cases i with
  | add => cases h; exact ⟨fun x y => x + y, fun _ => rfl, BitVec.toNat_add⟩
  | sub => cases h; exact ⟨fun x y => x - y, fun _ => rfl, toNat_sub_word⟩
  | and => cases h; exact ⟨fun x y => x &&& y, fun _ => rfl, fun _ _ _ => BitVec.getLsbD_and⟩
  | or => cases h; exact ⟨fun x y => x ||| y, fun _ => rfl, fun _ _ _ => BitVec.getLsbD_or⟩
  | xor => cases h; exact ⟨fun x y => x ^^^ y, fun _ => rfl, fun _ _ _ => BitVec.getLsbD_xor⟩
  | andn => cases h; exact ⟨fun x y => x &&& ~~~y, fun _ => rfl, getLsbD_andn⟩
  | orn => cases h; exact ⟨fun x y => x ||| ~~~y, fun _ => rfl, getLsbD_orn⟩
  | sll => cases h; exact ⟨fun x y => x <<< sh6 y, fun _ => rfl, fun x _ => toNat_shiftLeft_word x _⟩
  | srl => cases h; exact ⟨fun x y => x >>> sh6 y, fun _ => rfl, fun x _ => toNat_ushiftRight_word x _⟩
  | sra => cases h; exact ⟨fun x y => x.sshiftRight (sh6 y), fun _ => rfl, fun x _ => toInt_sshiftRight_div x _⟩
  | slt => cases h; exact ⟨fun x y => boolW (x.slt y), fun _ => rfl, boolW_slt_toNat⟩
  | sltu => cases h; exact ⟨fun x y => boolW (x.ult y), fun _ => rfl, boolW_ult_toNat⟩
  | min => cases h; exact ⟨fun x y => if x.sle y then x else y, fun _ => rfl, minSigned_toInt⟩
  | max => cases h; exact ⟨fun x y => if y.sle x then x else y, fun _ => rfl, maxSigned_toInt⟩
  | minu => cases h; exact ⟨fun x y => if x.ule y then x else y, fun _ => rfl, minUnsigned_toNat⟩
  | maxu => cases h; exact ⟨fun x y => if y.ule x then x else y, fun _ => rfl, maxUnsigned_toNat⟩
  | addw => cases h; exact ⟨fun x y => sext32 (x + y), fun _ => rfl, fun x y => sext32_toInt_of_toNat (BitVec.toNat_add x y)⟩
  | subw => cases h; exact ⟨fun x y => sext32 (x - y), fun _ => rfl, fun x y => sext32_toInt_of_toNat (toNat_sub_word x y)⟩
  | sllw => cases h; exact ⟨fun x y => sext32 (x <<< sh5 y), fun _ => rfl, fun x _ => sext32_toInt_of_toNat (toNat_shiftLeft_word x _)⟩
  | srlw => cases h; exact ⟨fun x y => sext32 ((x.setWidth 32).setWidth 64 >>> sh5 y), fun _ => rfl, fun x _ => srlw_toInt x _⟩
  | sraw => cases h; exact ⟨fun x y => sext32 ((sext32 x).sshiftRight (sh5 y)), fun _ => rfl, fun x _ => sraw_toInt x _⟩
  | mul => cases h; exact ⟨fun x y => x * y, fun _ => rfl, BitVec.toNat_mul⟩
  | mulh => cases h; exact ⟨mulhV, fun _ => rfl, mulhV_toInt⟩
  | mulhu => cases h; exact ⟨mulhuV, fun _ => rfl, mulhuV_toNat⟩
  | mulhsu => cases h; exact ⟨mulhsuV, fun _ => rfl, mulhsuV_toInt⟩
  | div => cases h; exact ⟨divV, fun _ => rfl, divV_value⟩
  | divu => cases h; exact ⟨divuV, fun _ => rfl, divuV_toNat⟩
  | rem => cases h; exact ⟨remV, fun _ => rfl, remV_value⟩
  | remu => cases h; exact ⟨remuV, fun _ => rfl, remuV_toNat⟩
  | _ => cases h

/-- Each instruction of the table of one register runs one operation on a word, whose value satisfies the table's relation. -/
theorem twoReg_operation {i : Instr} {d a : Reg} {rel : Word → Word → Prop} (h : twoReg i = some (d, a, rel)) :
    ∃ f, (∀ s, exec i s = opR i f d a s) ∧ ∀ x, rel x (f x) := by
  cases i with
  | clz => cases h; exact ⟨clz64, fun _ => rfl, clz64_value⟩
  | ctz => cases h; exact ⟨ctz64, fun _ => rfl, ctz64_value⟩
  | popc => cases h; exact ⟨popc64, fun _ => rfl, popc64_toNat⟩
  | sext d a n => cases h; exact ⟨sextTo n, fun _ => rfl, sextTo_toInt _⟩
  | zext d a n => cases h; exact ⟨zextTo n, fun _ => rfl, zextTo_toNat _⟩
  | brev => cases h; exact ⟨brev64, fun _ => rfl, brev64_byte⟩
  | addi d a imm => cases h; exact ⟨fun x => x + imm18 imm, fun _ => rfl, fun x => add_imm18_toNat x _⟩
  | andi d a imm =>
    cases h
    exact ⟨fun x => x &&& imm18 imm, fun _ => rfl, fun x k hk => by rw [BitVec.getLsbD_and, imm18_getLsbD imm k hk]⟩
  | ori d a imm =>
    cases h
    exact ⟨fun x => x ||| imm18 imm, fun _ => rfl, fun x k hk => by rw [BitVec.getLsbD_or, imm18_getLsbD imm k hk]⟩
  | xori d a imm =>
    cases h
    exact ⟨fun x => x ^^^ imm18 imm, fun _ => rfl, fun x k hk => by rw [BitVec.getLsbD_xor, imm18_getLsbD imm k hk]⟩
  | slti d a imm => cases h; exact ⟨fun x => boolW (x.slt (imm18 imm)), fun _ => rfl, fun x => boolW_slt_imm18 x _⟩
  | sltiu d a imm => cases h; exact ⟨fun x => boolW (x.ult (imm18 imm)), fun _ => rfl, fun x => boolW_ult_imm18 x _⟩
  | addiw d a imm => cases h; exact ⟨fun x => sext32 (x + imm18 imm), fun _ => rfl, fun x => addiw_toInt x _⟩
  | slli d a sh => cases h; exact ⟨fun x => x <<< sh.toNat, fun _ => rfl, fun x => toNat_shiftLeft_word x _⟩
  | srli d a sh => cases h; exact ⟨fun x => x >>> sh.toNat, fun _ => rfl, fun x => toNat_ushiftRight_word x _⟩
  | srai d a sh => cases h; exact ⟨fun x => x.sshiftRight sh.toNat, fun _ => rfl, fun x => toInt_sshiftRight_div x _⟩
  | _ => cases h

/-- Settles O1: each instruction runs an operation on words (`opRR`, `opR`, `opPc`), the operation's value satisfies the manual's relation, and
the common end of those operations is a register step. -/
theorem integerResults : Obligations.IntegerResults := by
  unfold Obligations.IntegerResults
  refine ⟨fun i d a b rel hi s r h hs => ?_, fun i d a rel hi s r h hs => ?_, fun d imm s r h hs => ⟨?_, ?_⟩⟩
  · obtain ⟨f, hf, hv⟩ := threeReg_operation hi
    obtain ⟨t, ht, hstep⟩ := opRR_regStep h hs i f d a b
    exact ⟨t, _, (hf s).trans ht, hv _ _, hstep⟩
  · obtain ⟨f, hf, hv⟩ := twoReg_operation hi
    obtain ⟨t, ht, hstep⟩ := opR_regStep h hs i f d a
    exact ⟨t, _, (hf s).trans ht, hv _, hstep⟩
  · obtain ⟨t, ht, hstep⟩ := opPc_regStep h hs (.lui d imm) (fun _ => upperImm imm) d
    exact ⟨t, _, ht, upperImm_toInt imm, hstep⟩
  · obtain ⟨t, ht, hstep⟩ := opPc_regStep h hs (.auipc d imm) (fun pc => pc.setWidth 64 + upperImm imm) d
    exact ⟨t, _, ht, auipc_toNat r.pc imm, hstep⟩

/-! ### Control words (R89, R90) -/

theorem hw_congr {s t : State} (h : t.mem = s.mem) (a : Nat) : hw t a = hw s a := by
  rw [hw, h, hw]

theorem hw_putHw_self (s : State) (a : Nat) (v : Word) : hw (putHw s a v) a = v := by
  rw [hw, putHw_mem, memLE_memPut_self, Nat.mod_eq_of_lt (show v.toNat < 256 ^ 8 from v.isLt), word, BitVec.ofNat_toNat, BitVec.setWidth_eq]

theorem hw_putHw_apart (s : State) (a b : Nat) (v : Word) (h : b + 8 ≤ a ∨ a + 8 ≤ b) : hw (putHw s a v) b = hw s b := by
  rw [hw, putHw_mem, memLE_memPut_out _ _ _ _ _ _ h, hw]

theorem bits_stateArg (v : Word) {st arg : Nat} (hst : st < 16) (harg : arg < 256) :
    bits (setBits (setBits v 3 0 st) 15 8 arg) 3 0 = st ∧ bits (setBits (setBits v 3 0 st) 15 8 arg) 15 8 = arg := by
  have hv := v.isLt
  simp only [bits, setBits, BitVec.toNat_ofNat, Nat.shiftRight_eq_div_pow, Nat.reduceAdd, Nat.reduceSub, Nat.reducePow]
  omega

theorem bits_resumeWord (sm hp xc : Bool) {pc : PC} (h : pc.toNat % 4 = 0) : bits (resumeWord sm hp xc pc) 47 2 * 4 = pc.toNat := by
  have hpc := pc.isLt
  have hb (b : Bool) : b2n b ≤ 1 := by cases b <;> decide
  have := hb sm
  have := hb hp
  have := hb xc
  simp only [bits, resumeWord, word, BitVec.toNat_ofNat, Nat.shiftRight_eq_div_pow, Nat.reduceAdd, Nat.reduceSub, Nat.reducePow]
  omega

theorem pstate_setPstate (s : State) (w : Nat) {st arg : Nat} (hst : st < 16) (harg : arg < 256) : pstate (setPstate s w st arg) w = st := by
  rw [pstate, waitAt, setPstate, hw_putHw_self]
  exact (bits_stateArg _ hst harg).1

theorem parg_setPstate (s : State) (w : Nat) {st arg : Nat} (hst : st < 16) (harg : arg < 256) : parg (setPstate s w st arg) w = arg := by
  rw [parg, waitAt, setPstate, hw_putHw_self]
  exact (bits_stateArg _ hst harg).2

theorem resumePc_setPstate (s : State) (w st arg : Nat) (hw8 : 8 ≤ w) : resumePc (setPstate s w st arg) w = resumePc s w := by
  rw [resumePc, resumeAt, setPstate, hw_putHw_apart _ _ _ _ (by omega), resumePc, resumeAt]

theorem pstate_congr {s t : State} (h : t.mem = s.mem) (w : Nat) : pstate t w = pstate s w := by
  rw [pstate, waitAt, hw_congr h, pstate, waitAt]

theorem parg_congr {s t : State} (h : t.mem = s.mem) (w : Nat) : parg t w = parg s w := by
  rw [parg, waitAt, hw_congr h, parg, waitAt]

theorem resumePc_congr {s t : State} (h : t.mem = s.mem) (w : Nat) : resumePc t w = resumePc s w := by
  rw [resumePc, resumeAt, hw_congr h, resumePc, resumeAt]

@[simp] theorem setPstate_cores (s : State) (w st arg : Nat) : (setPstate s w st arg).cores = s.cores := rfl
@[simp] theorem setPstate_procs (s : State) (w st arg : Nat) : (setPstate s w st arg).procs = s.procs := rfl
@[simp] theorem setPstate_tiles (s : State) (w st arg : Nat) : (setPstate s w st arg).tiles = s.tiles := rfl
@[simp] theorem setPstate_cur (s : State) (w st arg : Nat) : (setPstate s w st arg).cur = s.cur := rfl

/-! ### Process records -/

theorem modProc_eq (s : State) (w : Nat) (f : Proc → Proc) : ∃ ps, modProc s w f = { s with procs := ps } := by
  unfold modProc
  split
  · exact ⟨_, rfl⟩
  · exact ⟨s.procs, rfl⟩

@[simp] theorem modProc_mem (s : State) (w : Nat) (f : Proc → Proc) : (modProc s w f).mem = s.mem := by
  obtain ⟨ps, h⟩ := modProc_eq s w f
  rw [h]

@[simp] theorem modProc_cores (s : State) (w : Nat) (f : Proc → Proc) : (modProc s w f).cores = s.cores := by
  obtain ⟨ps, h⟩ := modProc_eq s w f
  rw [h]

@[simp] theorem modProc_tiles (s : State) (w : Nat) (f : Proc → Proc) : (modProc s w f).tiles = s.tiles := by
  obtain ⟨ps, h⟩ := modProc_eq s w f
  rw [h]

@[simp] theorem modProc_cur (s : State) (w : Nat) (f : Proc → Proc) : (modProc s w f).cur = s.cur := by
  obtain ⟨ps, h⟩ := modProc_eq s w f
  rw [h]

theorem getProc_modProc_self (s : State) (w : Nat) (f : Proc → Proc) : getProc (modProc s w f) w = (getProc s w).map f := by
  unfold modProc getProc
  split
  · rename_i p hp
    rw [hp]
    exact amGet_amSet_self _ _ _
  · rename_i hp
    rw [hp]
    rfl

theorem getProc_congr {s t : State} (h : t.procs = s.procs) (w : Nat) : getProc t w = getProc s w := by
  rw [getProc, h, getProc]

theorem getCore_congr {s t : State} (h : t.cores = s.cores) (c : Nat) : getCore t c = getCore s c := by
  rw [getCore, h, getCore]

theorem getTile_congr {s t : State} (h : t.tiles = s.tiles) (n : Nat) : getTile t n = getTile s n := by
  rw [getTile, h, getTile]

/-! ### Leaving the core (R89, R93) -/

theorem amGet_map_snd {α β : Type} (m : AMap α) (f : α → β) (k : Nat) : amGet (m.map fun p => (p.1, f p.2)) k = (amGet m k).map f := by
  induction m with
  | nil => rfl
  | cons p t ih =>
    obtain ⟨j, v⟩ := p
    simp only [List.map_cons, amGet]
    split
    · rfl
    · exact ih

theorem dropHeldAcc_eq (s : State) (who : HeldBy) : ∃ ts, dropHeldAcc s who = { s with tiles := ts } := by
  unfold dropHeldAcc
  split
  · exact ⟨_, rfl⟩
  · exact ⟨s.tiles, rfl⟩

@[simp] theorem dropHeldAcc_cores (s : State) (who : HeldBy) : (dropHeldAcc s who).cores = s.cores := by
  obtain ⟨ts, h⟩ := dropHeldAcc_eq s who
  rw [h]

@[simp] theorem dropHeldAcc_procs (s : State) (who : HeldBy) : (dropHeldAcc s who).procs = s.procs := by
  obtain ⟨ts, h⟩ := dropHeldAcc_eq s who
  rw [h]

@[simp] theorem dropHeldAcc_cur (s : State) (who : HeldBy) : (dropHeldAcc s who).cur = s.cur := by
  obtain ⟨ts, h⟩ := dropHeldAcc_eq s who
  rw [h]

theorem getTile_dropHeldAcc (s : State) (who : HeldBy) (t : Nat) : (getTile (dropHeldAcc s who) t).trapQ = (getTile s t).trapQ := by
  unfold dropHeldAcc
  split
  · simp only [getTile, amGet_map_snd s.tiles (fun q => { q with held := q.held.filter (·.by_ != who) })]
    cases amGet s.tiles t <;> rfl
  · rfl

/-- The core of a process that has left it. -/
def leftCore (k : Core) : Core := { k with run := none, wfi := false, stall := none, bufStall := false, hostWord := none }

theorem leaveCore_of_run {s : State} {c : Nat} {r : Running} (h : (getCore s c).run = some r) (pc : PC) :
    leaveCore s c pc = modCore (putHw (dropHeldAcc s (.instr c)) r.wptr (resumeWord r.sm r.hp r.xc pc)) c leftCore := by
  rw [leaveCore, h]
  rfl

/-- Process `w` has left core `c` with `v` as its resume word: the core is free, and no process record and no trap queue has changed. -/
structure Left (s t : State) (c w : Nat) (v : Word) : Prop where
  cur : t.cur = s.cur
  procs : t.procs = s.procs
  core : getCore t c = leftCore (getCore s c)
  resume : hw t w = v
  queue : freeSlots t = freeSlots s

theorem freeSlots_congr {s t : State} (h : ∀ n, (getTile t n).trapQ = (getTile s n).trapQ) : freeSlots t = freeSlots s := by
  funext n
  simp only [freeSlots, h]

theorem left_putHw (s : State) (c w : Nat) (v : Word) : Left s (modCore (putHw (dropHeldAcc s (.instr c)) w v) c leftCore) c w v := by
  refine ⟨by simp, by simp, ?_, ?_, ?_⟩
  · rw [getCore_modCore_self, getCore_congr (putHw_cores _ _ _), getCore_congr (dropHeldAcc_cores _ _)]
  · rw [hw_congr (modCore_mem _ _ _), hw_putHw_self]
  · exact freeSlots_congr fun n => by rw [getTile_congr (modCore_tiles _ _ _), getTile_congr (putHw_tiles _ _ _), getTile_dropHeldAcc]

theorem left_leaveCore {s : State} {c : Nat} {r : Running} (h : (getCore s c).run = some r) (pc : PC) :
    Left s (leaveCore s c pc) c r.wptr (resumeWord r.sm r.hp r.xc pc) := by
  rw [leaveCore_of_run h]
  exact left_putHw s c r.wptr _

/-! ### What a process without a step of its own gives up (R135, R262) -/

theorem leaveStep_of_noSelect {s : State} {w : Nat} (h : ∀ e ∈ s.selects, e.2.wptr ≠ w) :
    leaveStep s w = { s with msgs := s.msgs.filter fun m => !chanMsgOf w m } := by
  have hsel : s.selects.find? (fun e => e.2.wptr == w) = none := List.find?_eq_none.2 fun e he => by simpa using h e he
  rw [leaveStep]
  simp only [selectOf, hsel, Option.map_none]

theorem dropTaken_of_noEntry {s : State} {w : Nat} (h : ∀ q ∈ s.queues, ∀ e ∈ q.2.entries, e.2.taken ≠ some w) : dropTaken s w = s := by
  refine List.foldlRecOn (motive := (· = s)) _ _ rfl fun u hu q hq => ?_
  refine List.foldlRecOn (motive := (· = s)) _ _ hu fun v hv e he => ?_
  rw [if_neg (by simpa using h q hq e he)]
  exact hv

/-! ### The trap queue (R344) -/

theorem queueRecords_of_room {s : State} {t : Nat} (h : freeSlots s t ≠ []) (x : TrapSlot) (rcb : Nat) :
    ∃ f, queueRecords s t [x] rcb = modTile s t f := by
  obtain ⟨k, ks, hk⟩ := List.exists_cons_of_ne_nil h
  have hroom : [x].length ≤ (k :: ks).length := by simp
  rw [queueRecords]
  simp only [hk]
  rw [if_pos hroom, List.zip_cons_cons, List.zip_nil_left, List.foldl_cons, List.foldl_nil]
  exact ⟨_, rfl⟩

/-! ### Taking a trap (R128, R342) -/

theorem procCore_of_placed {s : State} {r : Running} (h : Placed s r) : procCore s r.wptr = s.cur := by
  obtain ⟨p, hp, hc⟩ := h.known
  rw [procCore, hp]
  exact hc

theorem isRunning_of_placed {s : State} {r : Running} (h : Placed s r) : isRunning s r.wptr = true := by
  rw [isRunning, procCore_of_placed h, issuer_run h.running]
  exact beq_self_eq_true _

theorem pcAt_of_placed {s : State} {r : Running} (h : Placed s r) : pcAt s r.wptr = r.pc := by
  rw [pcAt, procCore_of_placed h, issuer_run h.running]
  exact if_pos (beq_self_eq_true _)

/-- The trap registers of a core that takes a trap of process `r` (R126, R128). -/
def trapCore (r : Running) (cause : Cause) (sub : Nat) (tval : Word) (k : Core) : Core :=
  countEvent 0x12 1 { k with
    tcause := causeWord cause sub, tval := tval, tpc := r.pc.setWidth 64, tseq := word ((k.tseq.toNat + 1) % 2 ^ 32) }

/-- The trapped process's record. -/
def trappedProc (p : Proc) : Proc := { p with wait := .none, waitClocks := 0, lockTurn := none }

/-- A process that takes a trap gives up only messages of its own. -/
theorem giveUp_of_placed {s : State} {r : Running} (h : Placed s r) :
    dropTaken (leaveStep s r.wptr) r.wptr = { s with msgs := s.msgs.filter fun m => !chanMsgOf r.wptr m } := by
  rw [leaveStep_of_noSelect h.noSelect]
  exact dropTaken_of_noEntry h.noEntry

theorem left_giveUp {s : State} {r : Running} (h : Placed s r) (back : PC) :
    Left s (leaveCore (dropTaken (leaveStep s r.wptr) r.wptr) s.cur back) s.cur r.wptr (resumeWord r.sm r.hp r.xc back) := by
  rw [giveUp_of_placed h]
  generalize s.msgs.filter _ = ms
  have hleft := left_leaveCore (s := { s with msgs := ms }) (issuer_run h.running) back
  exact ⟨hleft.cur, hleft.procs, hleft.core, hleft.resume, hleft.queue⟩

/-- The process of core `c`, which it has left, is TRAPPED, and the trap registers are written. -/
def trapState (u : State) (c : Nat) (r : Running) (cause : Cause) (sub : Nat) (tval : Word) : State :=
  modCore (modProc (setPstate u r.wptr 10 0) r.wptr trappedProc) c (trapCore r cause sub tval)

@[simp] theorem trapState_tiles (u : State) (c : Nat) (r : Running) (cause : Cause) (sub : Nat) (tval : Word) :
    (trapState u c r cause sub tval).tiles = u.tiles := by
  rw [trapState, modCore_tiles, modProc_tiles, setPstate_tiles]

theorem getCore_trapState (u : State) (c : Nat) (r : Running) (cause : Cause) (sub : Nat) (tval : Word) :
    getCore (trapState u c r cause sub tval) c = trapCore r cause sub tval (getCore u c) := by
  rw [trapState, getCore_modCore_self, getCore_congr (modProc_cores _ _ _), getCore_congr (setPstate_cores _ _ _ _)]

theorem trapCore_fields (r : Running) (cause : Cause) (sub : Nat) (tval : Word) (k : Core) :
    trapCore r cause sub tval k = { k with
      tcause := causeWord cause sub, tval := tval, tpc := r.pc.setWidth 64, tseq := word ((k.tseq.toNat + 1) % 2 ^ 32)
      hpm := (trapCore r cause sub tval k).hpm } := by
  rw [trapCore, countEvent_fields]

/-- A resident process's registers are those of its slot. -/
theorem reg_congr {s t : State} {r : Running} (h : Issues s r) (hcur : t.cur = s.cur) (hslots : (me t).slots = (me s).slots) (d : Reg) :
    reg t r d = reg s r d := by
  rw [me, me, hcur] at hslots
  have hat (i : Nat) : slotAt (getCore t s.cur) i = slotAt (getCore s s.cur) i := slotAt_congr hslots i
  have hof : slotOf (getCore t s.cur) r.wptr = slotOf (getCore s s.cur) r.wptr := slotOf_congr (fun i => by rw [holders, hat, holders]) _
  obtain ⟨i, hi⟩ := Option.isSome_iff_exists.mp h.resident
  simp only [reg, regRd, hcur, hof, hi, slotReg, hat]

/-- A process that issues leaves its core, is TRAPPED, and its record takes a free slot of the tile's trap queue. -/
theorem takeTrap_of_placed {s : State} {r : Running} (h : Placed s r) (hroom : RoomToTrap s) (cause : Cause) (sub : Nat) (tval aux : Word)
    (next : Bool) :
    ∃ u, Left s u s.cur r.wptr (resumeWord r.sm r.hp r.xc (if next then r.pc + 4 else r.pc)) ∧
      ∃ f, takeTrap s r.wptr cause sub tval aux next = modTile (trapState u s.cur r cause sub tval) (coreTile s.cur) f := by
  have hleft := left_giveUp h (if next then r.pc + 4 else r.pc)
  simp only [takeTrap, takeTrapWith, procCore_of_placed h, isRunning_of_placed h, pcAt_of_placed h, if_true]
  generalize leaveCore _ _ _ = u at hleft ⊢
  have hfree : freeSlots (trapState u s.cur r cause sub tval) (coreTile s.cur) ≠ [] := by
    rw [freeSlots_congr fun n => congrArg Tile.trapQ (getTile_congr (trapState_tiles u s.cur r cause sub tval) n), hleft.queue]
    exact hroom
  exact ⟨u, hleft, queueRecords_of_room hfree _ _⟩

/-- Taking a trap at the executing instruction (R128, R342). -/
theorem trapped_takeTrap {s : State} {r : Running} (h : Placed s r) (hroom : RoomToTrap s) (cause : Cause) (sub : Nat) (tval aux : Word)
    (next : Bool) :
    Trapped s (takeTrap s r.wptr cause sub tval aux next) r cause sub tval (if next then r.pc + 4 else r.pc) := by
  obtain ⟨u, hleft, f, ht⟩ := takeTrap_of_placed h hroom cause sub tval aux next
  rw [ht]
  obtain ⟨p, hp, -⟩ := h.known
  have hcur : (modTile (trapState u s.cur r cause sub tval) (coreTile s.cur) f).cur = s.cur := by simp [trapState, hleft.cur]
  have hme : me (modTile (trapState u s.cur r cause sub tval) (coreTile s.cur) f) = trapCore r cause sub tval (leftCore (me s)) := by
    rw [me, hcur, getCore_congr (modTile_cores _ _ _), getCore_trapState, hleft.core, me]
  have hmem : (modTile (trapState u s.cur r cause sub tval) (coreTile s.cur) f).mem = (setPstate u r.wptr 10 0).mem := by simp [trapState]
  have hback : (if next then r.pc + 4 else r.pc).toNat % 4 = 0 := by
    have := h.pcOk
    split
    · bv_omega
    · exact this
  refine ⟨hcur, ?_, ?_, ?_, ?_, fun e => ?_, ?_, ?_, ?_, ?_⟩
  · rw [hme, trapCore_fields]; rfl
  · rw [pstate_congr hmem, pstate_setPstate _ _ (by decide) (by decide)]
  · rw [resumePc_congr hmem, resumePc_setPstate _ _ _ _ (by have := h.base; omega), resumePc, resumeAt, hleft.resume,
      bits_resumeWord _ _ _ hback, BitVec.ofNat_toNat, BitVec.setWidth_eq]
  · rw [getProc_congr (modTile_procs _ _ _), trapState, getProc_congr (modCore_procs _ _ _), getProc_modProc_self,
      getProc_congr (setPstate_procs _ _ _ _), getProc_congr hleft.procs, hp]
    rfl
  · exact reg_congr h.toIssues hcur (by rw [hme, trapCore_fields]; rfl) e
  · rw [hme, trapCore_fields]
  · rw [hme, trapCore_fields]
  · rw [hme, trapCore_fields]
  · rw [hme, trapCore_fields]
    exact word_toNat (by omega)

/-! ### Branches and jumps (R105, R106) -/

theorem off15_eq_ofInt (off : BitVec 15) : off15 off = BitVec.ofInt 48 (off.toInt * 4) := signExtend_shiftLeft 48 2 off

theorem off22_eq_ofInt (off : BitVec 22) : off22 off = BitVec.ofInt 48 (off.toInt * 4) := signExtend_shiftLeft 48 2 off

theorem add_off15_toNat (pc : PC) (off : BitVec 15) : ((pc + off15 off).toNat : Int) = ((pc.toNat : Int) + 4 * off.toInt) % 2 ^ 48 := by
  rw [off15_eq_ofInt, toNat_add_ofInt, Int.mul_comm]

theorem add_off22_toNat (pc : PC) (off : BitVec 22) : ((pc + off22 off).toNat : Int) = ((pc.toNat : Int) + 4 * off.toInt) % 2 ^ 48 := by
  rw [off22_eq_ofInt, toNat_add_ofInt, Int.mul_comm]

/-- The link address of JAL and JALR. -/
theorem link_toNat (pc : PC) : ((pc + 4).setWidth 64).toNat = (pc.toNat + 4) % 2 ^ 48 := by
  bv_omega

theorem jalrTarget_toNat (x : Word) (imm : BitVec 18) : (((x + imm18 imm).setWidth 48).toNat : Int) = ((x.toNat : Int) + imm.toInt) % 2 ^ 48 := by
  rw [BitVec.toNat_setWidth, Int.natCast_mod, add_imm18_toNat]
  omega

theorem jalrTarget_aligned (x : Word) (imm : BitVec 18) :
    ((x + imm18 imm).setWidth 48).extractLsb' 0 2 = 0#2 ↔ ((x.toNat : Int) + imm.toInt) % 4 = 0 := by
  have ht := jalrTarget_toNat x imm
  rw [BitVec.toNat_eq, BitVec.extractLsb'_toNat]
  simp only [Nat.shiftRight_zero, BitVec.toNat_ofNat]
  omega

/-- Each branch of the table runs a test of two words, which decides the table's condition. -/
theorem branchOf_test {i : Instr} {a b : Reg} {off : BitVec 15} {cond : Word → Word → Prop} (h : branchOf i = some (a, b, off, cond)) :
    ∃ test, (∀ s, exec i s = branch test a b off s) ∧ ∀ x y, test x y = true ↔ cond x y := by
  cases i with
  | beq => cases h; exact ⟨fun x y => x == y, fun _ => rfl, fun _ _ => beq_iff_eq⟩
  | bne => cases h; exact ⟨fun x y => x != y, fun _ => rfl, fun _ _ => bne_iff_ne⟩
  | blt => cases h; exact ⟨fun x y => x.slt y, fun _ => rfl, fun _ _ => BitVec.slt_iff_toInt_lt⟩
  | bge => cases h; exact ⟨fun x y => y.sle x, fun _ => rfl, fun _ _ => BitVec.sle_iff_toInt_le⟩
  | bltu => cases h; exact ⟨fun x y => x.ult y, fun _ => rfl, fun _ _ => BitVec.ult_iff_toNat_lt⟩
  | bgeu => cases h; exact ⟨fun x y => y.ule x, fun _ => rfl, fun _ _ => BitVec.ule_iff_toNat_le⟩
  | _ => cases h

theorem branch_next {s : State} {r : Running} (h : Issues s r) (test : Word → Word → Bool) (a b : Reg) (off : BitVec 15) :
    branch test a b off s = .next (retireTo s s.cur (if test (reg s r a) (reg s r b) then r.pc + off15 off else r.pc + 4)) := by
  rw [branch, onCore_issues h, apply_ite (retireTo s s.cur)]
  rfl

theorem jal_next {s : State} {r : Running} (h : Issues s r) (d : Reg) (off : BitVec 22) :
    exec (.jal d off) s = .next (retireTo (regWr s s.cur r.wptr d ((r.pc + 4).setWidth 64)) s.cur (r.pc + off22 off)) := by
  rw [show exec (.jal d off) s = execJal d off s from rfl, execJal, onCore_issues h]

theorem jalr_next {s : State} {r : Running} (h : Issues s r) (hs : Sound s) (d a : Reg) (imm : BitVec 18) :
    exec (.jalr d a imm) s = .next (
      if ((reg s r a + imm18 imm).setWidth 48).extractLsb' 0 2 = 0#2 then
        retireTo (regWr s s.cur r.wptr d ((r.pc + 4).setWidth 64)) s.cur ((reg s r a + imm18 imm).setWidth 48)
      else trapHere s r .align (((reg s r a + imm18 imm).setWidth 48).setWidth 64)) := by
  rw [show exec (.jalr d a imm) s = execJalr d a imm s from rfl, execJalr, onCore_issues h, residue_sound hs]
  rfl

theorem illop_next {s : State} {r : Running} (h : Issues s r) (w : IWord) :
    exec (.illop w) s = .next (trapHere s r .illop (w.setWidth 64)) := by
  rw [show exec (.illop w) s = execIllop w s from rfl, execIllop, onCore_issues h]

/-- A branch word with condition 6 or 7 encodes no instruction (R31, R39). -/
theorem instrOf_reservedCondition {w : IWord} (hop : w.toNat / 2 ^ 26 = 0x10) (hc : 6 ≤ w.toNat / 2 ^ 15 % 8) : instrOf w = .illop w := by
  have hfop : fOp w = 0x10 := by
    rw [fOp, BitVec.extractLsb'_toNat, Nat.shiftRight_eq_div_pow, hop]
  have hcond : 6 ≤ (fCond w).toNat := by
    rwa [fCond, BitVec.extractLsb'_toNat, Nat.shiftRight_eq_div_pow]
  have hdec : decodeWord w = decodeBr w := by
    rw [decodeWord, hfop]
    rfl
  have herr : decodeBr w = .error .reservedCode := by
    rw [decodeBr]
    split
    case h_7 => rfl
    all_goals omega
  rw [instrOf, hdec, herr]

/-- Settles O2. A branch retires to the address that its test selects, the jumps link and retire to their targets; a misaligned JALR and a
reserved condition take a precise trap (`trapped_takeTrap`). -/
theorem branchesAndJumps : Obligations.BranchesAndJumps := by
  unfold Obligations.BranchesAndJumps
  refine ⟨fun i a b off cond hi s r h => ?_, fun w s r hop hc h hroom => ?_,
    ⟨fun d off s r h => ?_, fun d a imm s r h hs hal => ?_⟩, fun d a imm s r h hs hroom hal => ?_⟩
  · obtain ⟨test, hexec, htest⟩ := branchOf_test hi
    refine ⟨_, _, (hexec s).trans (branch_next h test a b off), regStep_retire h _, fun hcond => ?_, fun hcond => ?_⟩
    · rw [if_pos ((htest _ _).2 hcond), add_off15_toNat]
    · rw [if_neg fun ht => hcond ((htest _ _).1 ht)]
  · rw [instrOf_reservedCondition hop hc]
    exact ⟨_, illop_next h.toIssues w, trapped_takeTrap h hroom .illop 0 _ 0 false⟩
  · exact ⟨_, _, _, jal_next h d off, link_toNat r.pc, add_off22_toNat r.pc off, regStep_retireTo h d _ _⟩
  · have hnext := jalr_next h hs d a imm
    rw [if_pos ((jalrTarget_aligned _ _).2 hal)] at hnext
    exact ⟨_, _, _, hnext, link_toNat r.pc, jalrTarget_toNat _ imm, regStep_retireTo h d _ _⟩
  · have hnext := jalr_next h.toIssues hs d a imm
    rw [if_neg fun ht => hal ((jalrTarget_aligned _ _).1 ht)] at hnext
    exact ⟨_, hnext, trapped_takeTrap h hroom .align 0 _ 0 false⟩

end Sys2Proof.Machine
end

section
/-! SUPPORT. Proof of the statement about traps by software (R131). -/

namespace Sys2Proof.Machine

open Sys2Proof.Claims

/-! ### Traps by an instruction that retires (R131) -/

/-- The executing core has counted its instruction as retired, and nothing else has happened yet. -/
def retired (s : State) : State := modCore s s.cur retireCount

@[simp] theorem retired_cur (s : State) : (retired s).cur = s.cur := rfl

theorem me_retired (s : State) : me (retired s) = retireCount (me s) := getCore_modCore_self s s.cur retireCount

@[simp] theorem retireCount_slots (k : Core) : (retireCount k).slots = k.slots := by rw [retireCount_fields]
@[simp] theorem retireCount_run (k : Core) : (retireCount k).run = k.run := by rw [retireCount_fields]
@[simp] theorem retireCount_wfi (k : Core) : (retireCount k).wfi = k.wfi := by rw [retireCount_fields]
@[simp] theorem retireCount_stall (k : Core) : (retireCount k).stall = k.stall := by rw [retireCount_fields]
@[simp] theorem retireCount_tseq (k : Core) : (retireCount k).tseq = k.tseq := by rw [retireCount_fields]

theorem issuer_retired (s : State) : issuer (retired s) = issuer s := by
  have hcore : getCore (retired s) s.cur = retireCount (getCore s s.cur) := me_retired s
  simp only [issuer, retired_cur, hcore, retireCount_run, retireCount_wfi, retireCount_stall]

theorem slotOf_retireCount (k : Core) (w : Nat) : slotOf (retireCount k) w = slotOf k w :=
  slotOf_congr (fun i => by rw [holders, slotAt_congr (retireCount_slots k), holders]) w

theorem issues_retired {s : State} {r : Running} (h : Issues s r) : Issues (retired s) r := by
  refine ⟨(issuer_retired s).trans h.running, ?_⟩
  have hslot : slotOf (me (retired s)) r.wptr = slotOf (me s) r.wptr := by rw [me_retired, slotOf_retireCount]
  exact (congrArg Option.isSome hslot).trans h.resident

theorem placed_retired {s : State} {r : Running} (h : Placed s r) : Placed (retired s) r :=
  ⟨issues_retired h.toIssues, h.known, h.base, h.pcOk, h.noEntry, h.noSelect⟩

theorem reg_retired {s : State} {r : Running} (h : Issues s r) (d : Reg) : reg (retired s) r d = reg s r d :=
  reg_congr h (retired_cur s) (by rw [me_retired, retireCount_slots]) d

/-- A trap of an instruction that retires: the process resumes after it. -/
theorem trapped_takeTrap_retired {s : State} {r : Running} (h : Placed s r) (hroom : RoomToTrap s) (cause : Cause) (sub : Nat)
    (tval aux : Word) :
    Trapped s (takeTrap (retired s) r.wptr cause sub tval aux true) r cause sub tval (r.pc + 4) := by
  obtain ⟨hcur, hidle, hstate, hresume, hinfo, hregs, htcause, htval, htpc, htseq⟩ :=
    trapped_takeTrap (placed_retired h) (show RoomToTrap (retired s) from hroom) cause sub tval aux true
  refine ⟨hcur, hidle, hstate, hresume, hinfo, fun e => ?_, htcause, htval, htpc, ?_⟩
  · exact (hregs e).trans (reg_retired h.toIssues e)
  · rwa [me_retired, retireCount_tseq] at htseq

theorem trap_next {s : State} {r : Running} (h : Issues s r) (a : Reg) :
    exec (.trap a) s = .next (takeTrap (retired s) r.wptr .swtrap 0 (reg s r a) 0 true) := by
  rw [show exec (.trap a) s = execTrap a s from rfl, execTrap, onCore_issues h]
  rfl

theorem brk_next {s : State} {r : Running} (h : Issues s r) :
    exec .brk s = .next (takeTrap (retired s) r.wptr .brk 0 0 0 true) := by
  rw [show exec .brk s = execBrk s from rfl, execBrk, onCore_issues h]
  rfl

/-- Settles O14. TRAP and BRK retire and take a trap whose resume word holds the next PC (`trapped_takeTrap_retired`). -/
theorem trapAndBreak : Obligations.TrapAndBreak := by
  unfold Obligations.TrapAndBreak
  refine fun s r h hroom => ⟨fun a => ?_, ?_⟩
  · exact ⟨_, trap_next h.toIssues a, trapped_takeTrap_retired h hroom .swtrap 0 (reg s r a) 0⟩
  · exact ⟨_, brk_next h.toIssues, trapped_takeTrap_retired h hroom .brk 0 0 0⟩

end Sys2Proof.Machine
end

section
/-! SUPPORT. Scalar words: the fields of an assembled word, and a word as the assembly of its fields (R24 to R39). -/

-- Proofs are elaborated one after another: side by side they would need more memory than a check has.
set_option Elab.async false

namespace Sys2Proof

/-! ### Fields of an assembled word (R25) -/

section Fields
variable (op : BitVec 6) (d a b x : Reg) (fn : BitVec 10) (imm : BitVec 18) (imm22 : BitVec 22) (sz ord : BitVec 2) (off14 : BitVec 14)
  (cond : BitVec 3) (off15 : BitVec 15)

open BitVec (extractLsb'_append_eq_of_le extractLsb'_append_eq_of_add_le extractLsb'_eq_self)

@[simp] theorem fOp_encR : fOp (encR op d a b fn x) = op.toNat := by
  change (BitVec.extractLsb' (n := 6 + 4 + 4 + 4 + 10 + 4) 26 6 _).toNat = _
  simp (disch := decide) only [encR, extractLsb'_append_eq_of_le, extractLsb'_eq_self, Nat.reduceSub]
@[simp] theorem fD_encR : fD (encR op d a b fn x) = d := by
  change BitVec.extractLsb' (n := 6 + 4 + 4 + 4 + 10 + 4) 22 4 _ = _
  simp (disch := decide) only [encR, extractLsb'_append_eq_of_le, extractLsb'_append_eq_of_add_le, extractLsb'_eq_self, Nat.reduceSub]
@[simp] theorem fA_encR : fA (encR op d a b fn x) = a := by
  change BitVec.extractLsb' (n := 6 + 4 + 4 + 4 + 10 + 4) 18 4 _ = _
  simp (disch := decide) only [encR, extractLsb'_append_eq_of_le, extractLsb'_append_eq_of_add_le, extractLsb'_eq_self, Nat.reduceSub]
@[simp] theorem fB_encR : fB (encR op d a b fn x) = b := by
  change BitVec.extractLsb' (n := 6 + 4 + 4 + 4 + 10 + 4) 14 4 _ = _
  simp (disch := decide) only [encR, extractLsb'_append_eq_of_le, extractLsb'_append_eq_of_add_le, extractLsb'_eq_self, Nat.reduceSub]
@[simp] theorem fFn_encR : fFn (encR op d a b fn x) = fn := by
  change BitVec.extractLsb' (n := 6 + 4 + 4 + 4 + 10 + 4) 4 10 _ = _
  simp (disch := decide) only [encR, extractLsb'_append_eq_of_le, extractLsb'_append_eq_of_add_le, extractLsb'_eq_self, Nat.reduceSub]
@[simp] theorem fX_encR : fX (encR op d a b fn x) = x := by
  change BitVec.extractLsb' (n := 6 + 4 + 4 + 4 + 10 + 4) 0 4 _ = _
  simp (disch := decide) only [encR, extractLsb'_append_eq_of_add_le, extractLsb'_eq_self]

@[simp] theorem fOp_encI : fOp (encI op d a imm) = op.toNat := by
  change (BitVec.extractLsb' (n := 6 + 4 + 4 + 18) 26 6 _).toNat = _
  simp (disch := decide) only [encI, extractLsb'_append_eq_of_le, extractLsb'_eq_self, Nat.reduceSub]
@[simp] theorem fD_encI : fD (encI op d a imm) = d := by
  change BitVec.extractLsb' (n := 6 + 4 + 4 + 18) 22 4 _ = _
  simp (disch := decide) only [encI, extractLsb'_append_eq_of_le, extractLsb'_append_eq_of_add_le, extractLsb'_eq_self, Nat.reduceSub]
@[simp] theorem fA_encI : fA (encI op d a imm) = a := by
  change BitVec.extractLsb' (n := 6 + 4 + 4 + 18) 18 4 _ = _
  simp (disch := decide) only [encI, extractLsb'_append_eq_of_le, extractLsb'_append_eq_of_add_le, extractLsb'_eq_self, Nat.reduceSub]
@[simp] theorem fImm18_encI : fImm18 (encI op d a imm) = imm := by
  change BitVec.extractLsb' (n := 6 + 4 + 4 + 18) 0 18 _ = _
  simp (disch := decide) only [encI, extractLsb'_append_eq_of_add_le, extractLsb'_eq_self]

@[simp] theorem fOp_encM : fOp (encM op d a sz ord off14) = op.toNat := by
  change (BitVec.extractLsb' (n := 6 + 4 + 4 + 2 + 2 + 14) 26 6 _).toNat = _
  simp (disch := decide) only [encM, extractLsb'_append_eq_of_le, extractLsb'_eq_self, Nat.reduceSub]
@[simp] theorem fD_encM : fD (encM op d a sz ord off14) = d := by
  change BitVec.extractLsb' (n := 6 + 4 + 4 + 2 + 2 + 14) 22 4 _ = _
  simp (disch := decide) only [encM, extractLsb'_append_eq_of_le, extractLsb'_append_eq_of_add_le, extractLsb'_eq_self, Nat.reduceSub]
@[simp] theorem fA_encM : fA (encM op d a sz ord off14) = a := by
  change BitVec.extractLsb' (n := 6 + 4 + 4 + 2 + 2 + 14) 18 4 _ = _
  simp (disch := decide) only [encM, extractLsb'_append_eq_of_le, extractLsb'_append_eq_of_add_le, extractLsb'_eq_self, Nat.reduceSub]
@[simp] theorem fSz_encM : fSz (encM op d a sz ord off14) = sz := by
  change BitVec.extractLsb' (n := 6 + 4 + 4 + 2 + 2 + 14) 16 2 _ = _
  simp (disch := decide) only [encM, extractLsb'_append_eq_of_le, extractLsb'_append_eq_of_add_le, extractLsb'_eq_self, Nat.reduceSub]
@[simp] theorem fOrd_encM : fOrd (encM op d a sz ord off14) = ord := by
  change BitVec.extractLsb' (n := 6 + 4 + 4 + 2 + 2 + 14) 14 2 _ = _
  simp (disch := decide) only [encM, extractLsb'_append_eq_of_le, extractLsb'_append_eq_of_add_le, extractLsb'_eq_self, Nat.reduceSub]
@[simp] theorem fOff14_encM : fOff14 (encM op d a sz ord off14) = off14 := by
  change BitVec.extractLsb' (n := 6 + 4 + 4 + 2 + 2 + 14) 0 14 _ = _
  simp (disch := decide) only [encM, extractLsb'_append_eq_of_add_le, extractLsb'_eq_self]

@[simp] theorem fOp_encB : fOp (encB op a b cond off15) = op.toNat := by
  change (BitVec.extractLsb' (n := 6 + 4 + 4 + 3 + 15) 26 6 _).toNat = _
  simp (disch := decide) only [encB, extractLsb'_append_eq_of_le, extractLsb'_eq_self, Nat.reduceSub]
@[simp] theorem fD_encB : fD (encB op a b cond off15) = a := by
  change BitVec.extractLsb' (n := 6 + 4 + 4 + 3 + 15) 22 4 _ = _
  simp (disch := decide) only [encB, extractLsb'_append_eq_of_le, extractLsb'_append_eq_of_add_le, extractLsb'_eq_self, Nat.reduceSub]
@[simp] theorem fA_encB : fA (encB op a b cond off15) = b := by
  change BitVec.extractLsb' (n := 6 + 4 + 4 + 3 + 15) 18 4 _ = _
  simp (disch := decide) only [encB, extractLsb'_append_eq_of_le, extractLsb'_append_eq_of_add_le, extractLsb'_eq_self, Nat.reduceSub]
@[simp] theorem fCond_encB : fCond (encB op a b cond off15) = cond := by
  change BitVec.extractLsb' (n := 6 + 4 + 4 + 3 + 15) 15 3 _ = _
  simp (disch := decide) only [encB, extractLsb'_append_eq_of_le, extractLsb'_append_eq_of_add_le, extractLsb'_eq_self, Nat.reduceSub]
@[simp] theorem fOff15_encB : fOff15 (encB op a b cond off15) = off15 := by
  change BitVec.extractLsb' (n := 6 + 4 + 4 + 3 + 15) 0 15 _ = _
  simp (disch := decide) only [encB, extractLsb'_append_eq_of_add_le, extractLsb'_eq_self]

@[simp] theorem fOp_encJ : fOp (encJ op d imm22) = op.toNat := by
  change (BitVec.extractLsb' (n := 6 + 4 + 22) 26 6 _).toNat = _
  simp (disch := decide) only [encJ, extractLsb'_append_eq_of_le, extractLsb'_eq_self, Nat.reduceSub]
@[simp] theorem fD_encJ : fD (encJ op d imm22) = d := by
  change BitVec.extractLsb' (n := 6 + 4 + 22) 22 4 _ = _
  simp (disch := decide) only [encJ, extractLsb'_append_eq_of_le, extractLsb'_append_eq_of_add_le, extractLsb'_eq_self, Nat.reduceSub]
@[simp] theorem fImm22_encJ : fImm22 (encJ op d imm22) = imm22 := by
  change BitVec.extractLsb' (n := 6 + 4 + 22) 0 22 _ = _
  simp (disch := decide) only [encJ, extractLsb'_append_eq_of_add_le, extractLsb'_eq_self]

theorem extractLsb'_encI {i n : Nat} (h : i + n ≤ 18) : (encI op d a imm).extractLsb' i n = imm.extractLsb' i n :=
  extractLsb'_append_eq_of_add_le h

end Fields

/-! ### A word is the assembly of its fields -/

section Assembly
variable (w : IWord)

theorem encR_fields : encR (w.extractLsb' 26 6) (fD w) (fA w) (fB w) (fFn w) (fX w) = w := by
  simp (disch := decide) only [encR, fD, fA, fB, fFn, fX, BitVec.extractLsb'_append_extractLsb'_eq_extractLsb']
  exact BitVec.extractLsb'_eq_self
theorem encI_fields : encI (w.extractLsb' 26 6) (fD w) (fA w) (fImm18 w) = w := by
  simp (disch := decide) only [encI, fD, fA, fImm18, BitVec.extractLsb'_append_extractLsb'_eq_extractLsb']
  exact BitVec.extractLsb'_eq_self
theorem encM_fields : encM (w.extractLsb' 26 6) (fD w) (fA w) (fSz w) (fOrd w) (fOff14 w) = w := by
  simp (disch := decide) only [encM, fD, fA, fSz, fOrd, fOff14, BitVec.extractLsb'_append_extractLsb'_eq_extractLsb']
  exact BitVec.extractLsb'_eq_self
theorem encB_fields : encB (w.extractLsb' 26 6) (fD w) (fA w) (fCond w) (fOff15 w) = w := by
  simp (disch := decide) only [encB, fD, fA, fCond, fOff15, BitVec.extractLsb'_append_extractLsb'_eq_extractLsb']
  exact BitVec.extractLsb'_eq_self
theorem encJ_fields : encJ (w.extractLsb' 26 6) (fD w) (fImm22 w) = w := by
  simp (disch := decide) only [encJ, fD, fImm22, BitVec.extractLsb'_append_extractLsb'_eq_extractLsb']
  exact BitVec.extractLsb'_eq_self
end Assembly

/-! ### Codes -/

@[simp] theorem sizeOf2_code (z : Size) : sizeOf2 z.code = z := by cases z <;> rfl
@[simp] theorem amoOrdOf_code (o : AmoOrd) : amoOrdOf o.code = o := by cases o <;> rfl
@[simp] theorem intTyOf_code (t : IntTy) : intTyOf t.code = t := by cases t <;> rfl
@[simp] theorem rmOf_code (r : Rm) : rmOf r.code = r := by cases r <;> rfl
@[simp] theorem code_sizeOf2 (z : BitVec 2) : (sizeOf2 z).code = z := by revert z; decide
@[simp] theorem code_amoOrdOf (o : BitVec 2) : (amoOrdOf o).code = o := by revert o; decide
@[simp] theorem code_intTyOf (t : BitVec 2) : (intTyOf t).code = t := by revert t; decide
@[simp] theorem code_rmOf (r : BitVec 2) : (rmOf r).code = r := by revert r; decide

@[simp] theorem needZero_eq_ok {ok : Bool} {i j : Instr} : needZero ok i = .ok j ↔ ok = true ∧ i = j := by
  cases ok <;> simp [needZero]

end Sys2Proof
end

section
/-! SUPPORT. Scalar words: decoding the encoding of an instruction gives it back (R27 to R39). -/

-- Proofs are elaborated one after another: side by side they would need more memory than a check has.
set_option Elab.async false

namespace Sys2Proof

/-! ### The major opcode picks the decoder (R27) -/

/-- The decoder of `decodeWord` for a major opcode. -/
noncomputable def decodeMajor (w : IWord) : Nat → Except DecodeError Instr
  | 0x01 => decodeOpr (fFn w) (fD w) (fA w) (fB w) (fX w)
  | 0x02 => .ok (.addi (fD w) (fA w) (fImm18 w))
  | 0x03 => .ok (.andi (fD w) (fA w) (fImm18 w))
  | 0x04 => .ok (.ori (fD w) (fA w) (fImm18 w))
  | 0x05 => .ok (.xori (fD w) (fA w) (fImm18 w))
  | 0x06 => .ok (.slti (fD w) (fA w) (fImm18 w))
  | 0x07 => .ok (.sltiu (fD w) (fA w) (fImm18 w))
  | 0x08 => decodeShi w
  | 0x09 => .ok (.addiw (fD w) (fA w) (fImm18 w))
  | 0x0A => .ok (.lui (fD w) (fImm22 w))
  | 0x0B => .ok (.auipc (fD w) (fImm22 w))
  | 0x0C => decodeMulDiv (fFn w) (fD w) (fA w) (fB w) (fX w)
  | 0x10 => decodeBr w
  | 0x11 => .ok (.jal (fD w) (fImm22 w))
  | 0x12 => .ok (.jalr (fD w) (fA w) (fImm18 w))
  | 0x14 => decodeLd w
  | 0x15 => decodeLdu w
  | 0x16 => decodeSt w
  | 0x17 => decodeFe (fFn w) (fD w) (fA w) (fB w) (fX w)
  | 0x18 => decodeAmo (fFn w) (fD w) (fA w) (fB w) (fX w)
  | 0x19 => decodeFence w
  | 0x1A => decodeHmem (fFn w) (fD w) (fA w) (fB w) (fX w)
  | 0x20 => decodeFp (fFn w) (fD w) (fA w) (fB w) (fX w)
  | 0x21 => decodeFma (fFn w) (fD w) (fA w) (fB w) (fX w)
  | 0x24 => decodeProc (fFn w) (fD w) (fA w) (fB w) (fX w)
  | 0x25 => decodeChan (fFn w) (fD w) (fA w) (fB w) (fX w)
  | 0x26 => decodeRing (fFn w) (fD w) (fA w) (fB w) (fX w)
  | 0x27 => decodeEngq (fFn w) (fD w) (fA w) (fB w) (fX w)
  | 0x28 => decodeAccf (fFn w) (fD w) (fA w) (fB w) (fX w)
  | 0x29 => decodeCsr w
  | 0x2A => decodeTokn (fFn w) (fD w) (fA w) (fB w) (fX w)
  | 0x2B => decodeKvm (fFn w) (fD w) (fA w) (fB w) (fX w)
  | 0x2C => decodePlcg (fFn w) (fD w) (fA w) (fB w) (fX w)
  | 0x2D => decodeSys (fFn w) (fD w) (fA w) (fB w) (fX w)
  | _ => .error .reservedOp

theorem decodeWord_eq_decodeMajor (w : IWord) : decodeWord w = decodeMajor w (fOp w) := rfl

theorem decodeWord_of_fOp {w : IWord} {k : Nat} {r : Except DecodeError Instr} (h : fOp w = k) (hr : decodeMajor w k = r) : decodeWord w = r :=
  (h ▸ decodeWord_eq_decodeMajor w).trans hr

section Major
variable (d a b x : Reg) (fn : BitVec 10)

/-- A decoder that the major opcode picks reads the fields of an R word back. -/
theorem decodeWord_encR {op : BitVec 6} {dec : BitVec 10 → Reg → Reg → Reg → Reg → Except DecodeError Instr}
    (h : ∀ w, decodeMajor w op.toNat = dec (fFn w) (fD w) (fA w) (fB w) (fX w)) : decodeWord (encR op d a b fn x) = dec fn d a b x :=
  decodeWord_of_fOp (fOp_encR ..) (by rw [h, fFn_encR, fD_encR, fA_encR, fB_encR, fX_encR])

/-- An instruction with an 18-bit constant that the major opcode names. -/
theorem decodeWord_encI {op : BitVec 6} {i : Reg → Reg → BitVec 18 → Instr} (imm : BitVec 18)
    (h : ∀ w, decodeMajor w op.toNat = .ok (i (fD w) (fA w) (fImm18 w))) : decodeWord (encI op d a imm) = .ok (i d a imm) :=
  decodeWord_of_fOp (fOp_encI ..) (by rw [h, fD_encI, fA_encI, fImm18_encI])

/-- An instruction with a 22-bit constant that the major opcode names. -/
theorem decodeWord_encJ {op : BitVec 6} {i : Reg → BitVec 22 → Instr} (imm : BitVec 22)
    (h : ∀ w, decodeMajor w op.toNat = .ok (i (fD w) (fImm22 w))) : decodeWord (encJ op d imm) = .ok (i d imm) :=
  decodeWord_of_fOp (fOp_encJ ..) (by rw [h, fD_encJ, fImm22_encJ])

theorem decodeWord_br (cond : BitVec 3) (off : BitVec 15) : decodeWord (encB 0x10 a b cond off) = decodeBr (encB 0x10 a b cond off) :=
  decodeWord_of_fOp (fOp_encB ..) rfl

theorem decodeWord_ld (sz ord : BitVec 2) (off : BitVec 14) : decodeWord (encM 0x14 d a sz ord off) = decodeLd (encM 0x14 d a sz ord off) :=
  decodeWord_of_fOp (fOp_encM ..) rfl

theorem decodeWord_ldu (sz ord : BitVec 2) (off : BitVec 14) :
    decodeWord (encM 0x15 d a sz ord off) = decodeLdu (encM 0x15 d a sz ord off) :=
  decodeWord_of_fOp (fOp_encM ..) rfl

theorem decodeWord_st (sz ord : BitVec 2) (off : BitVec 14) : decodeWord (encM 0x16 d a sz ord off) = decodeSt (encM 0x16 d a sz ord off) :=
  decodeWord_of_fOp (fOp_encM ..) rfl

theorem decodeWord_opr : decodeWord (encR 0x01 d a b fn x) = decodeOpr fn d a b x := decodeWord_encR _ _ _ _ _ fun _ => rfl
theorem decodeWord_mulDiv : decodeWord (encR 0x0C d a b fn x) = decodeMulDiv fn d a b x := decodeWord_encR _ _ _ _ _ fun _ => rfl
theorem decodeWord_fe : decodeWord (encR 0x17 d a b fn x) = decodeFe fn d a b x := decodeWord_encR _ _ _ _ _ fun _ => rfl
theorem decodeWord_amo : decodeWord (encR 0x18 d a b fn x) = decodeAmo fn d a b x := decodeWord_encR _ _ _ _ _ fun _ => rfl
theorem decodeWord_hmem : decodeWord (encR 0x1A d a b fn x) = decodeHmem fn d a b x := decodeWord_encR _ _ _ _ _ fun _ => rfl
theorem decodeWord_fp : decodeWord (encR 0x20 d a b fn x) = decodeFp fn d a b x := decodeWord_encR _ _ _ _ _ fun _ => rfl
theorem decodeWord_fma : decodeWord (encR 0x21 d a b fn x) = decodeFma fn d a b x := decodeWord_encR _ _ _ _ _ fun _ => rfl
theorem decodeWord_proc : decodeWord (encR 0x24 d a b fn x) = decodeProc fn d a b x := decodeWord_encR _ _ _ _ _ fun _ => rfl
theorem decodeWord_chan : decodeWord (encR 0x25 d a b fn x) = decodeChan fn d a b x := decodeWord_encR _ _ _ _ _ fun _ => rfl
theorem decodeWord_ring : decodeWord (encR 0x26 d a b fn x) = decodeRing fn d a b x := decodeWord_encR _ _ _ _ _ fun _ => rfl
theorem decodeWord_engq : decodeWord (encR 0x27 d a b fn x) = decodeEngq fn d a b x := decodeWord_encR _ _ _ _ _ fun _ => rfl
theorem decodeWord_accf : decodeWord (encR 0x28 d a b fn x) = decodeAccf fn d a b x := decodeWord_encR _ _ _ _ _ fun _ => rfl
theorem decodeWord_tokn : decodeWord (encR 0x2A d a b fn x) = decodeTokn fn d a b x := decodeWord_encR _ _ _ _ _ fun _ => rfl
theorem decodeWord_kvm : decodeWord (encR 0x2B d a b fn x) = decodeKvm fn d a b x := decodeWord_encR _ _ _ _ _ fun _ => rfl
theorem decodeWord_plcg : decodeWord (encR 0x2C d a b fn x) = decodePlcg fn d a b x := decodeWord_encR _ _ _ _ _ fun _ => rfl
theorem decodeWord_sys : decodeWord (encR 0x2D d a b fn x) = decodeSys fn d a b x := decodeWord_encR _ _ _ _ _ fun _ => rfl

end Major

/-! ### Fields inside fn, x and the constant -/

section Inner
open BitVec (extractLsb'_append_eq_of_le extractLsb'_append_eq_of_add_le extractLsb'_eq_self)
variable (d a : Reg) (sh : BitVec 6) (k : BitVec 2) (csr : BitVec 12) (f : AmoForm) (op : BitVec 4)

theorem fSz_encShi : fSz (encShi d a k sh) = k := by
  unfold fSz encShi
  rw [extractLsb'_encI _ _ _ _ (by decide)]
  change BitVec.extractLsb' (n := 2 + 10 + 6) 16 2 _ = _
  simp (disch := decide) only [extractLsb'_append_eq_of_le, extractLsb'_eq_self, Nat.reduceSub]

theorem mbz_encShi : (encShi d a k sh).extractLsb' 6 10 = 0 := by
  unfold encShi
  rw [extractLsb'_encI _ _ _ _ (by decide)]
  change BitVec.extractLsb' (n := 2 + 10 + 6) 6 10 _ = _
  simp (disch := decide) only [extractLsb'_append_eq_of_le, extractLsb'_append_eq_of_add_le, extractLsb'_eq_self, Nat.reduceSub]

theorem sh_encShi : (encShi d a k sh).extractLsb' 0 6 = sh := by
  unfold encShi
  rw [extractLsb'_encI _ _ _ _ (by decide)]
  change BitVec.extractLsb' (n := 2 + 10 + 6) 0 6 _ = _
  simp (disch := decide) only [extractLsb'_append_eq_of_add_le, extractLsb'_eq_self]

theorem fSz_encCsr : fSz (encCsr d a k csr) = k := by
  unfold fSz encCsr
  rw [extractLsb'_encI _ _ _ _ (by decide)]
  change BitVec.extractLsb' (n := 2 + 4 + 12) 16 2 _ = _
  simp (disch := decide) only [extractLsb'_append_eq_of_le, extractLsb'_eq_self, Nat.reduceSub]

theorem mbz_encCsr : (encCsr d a k csr).extractLsb' 12 4 = 0 := by
  unfold encCsr
  rw [extractLsb'_encI _ _ _ _ (by decide)]
  change BitVec.extractLsb' (n := 2 + 4 + 12) 12 4 _ = _
  simp (disch := decide) only [extractLsb'_append_eq_of_le, extractLsb'_append_eq_of_add_le, extractLsb'_eq_self, Nat.reduceSub]

theorem number_encCsr : (encCsr d a k csr).extractLsb' 0 12 = csr := by
  unfold encCsr
  rw [extractLsb'_encI _ _ _ _ (by decide)]
  change BitVec.extractLsb' (n := 2 + 4 + 12) 0 12 _ = _
  simp (disch := decide) only [extractLsb'_append_eq_of_add_le, extractLsb'_eq_self]

theorem size_fn : (f.fn op).extractLsb' 7 2 = f.size.code := by
  change BitVec.extractLsb' (n := 1 + 2 + 1 + 2 + 4) 7 2 _ = _
  simp (disch := decide) only [AmoForm.fn, extractLsb'_append_eq_of_le, extractLsb'_append_eq_of_add_le, extractLsb'_eq_self, Nat.reduceSub]

theorem ord_fn : (f.fn op).extractLsb' 4 2 = f.ord.code := by
  change BitVec.extractLsb' (n := 1 + 2 + 1 + 2 + 4) 4 2 _ = _
  simp (disch := decide) only [AmoForm.fn, extractLsb'_append_eq_of_le, extractLsb'_append_eq_of_add_le, extractLsb'_eq_self, Nat.reduceSub]

theorem trig_fn : (f.fn op).getLsbD 6 = f.trig := by
  change BitVec.getLsbD (w := 1 + 2 + 1 + 2 + 4) _ 6 = _
  simp only [AmoForm.fn, BitVec.getLsbD_append]
  simp

theorem mbz_fn : (f.fn op).getLsbD 9 = false := by
  change BitVec.getLsbD (w := 1 + 2 + 1 + 2 + 4) _ 9 = _
  simp only [AmoForm.fn, BitVec.getLsbD_append]
  simp

/-- The form of an AMO is read back from fn and the registers (R33). -/
theorem form_fn :
    (⟨f.d, f.a, f.b, sizeOf2 ((f.fn op).extractLsb' 7 2), (f.fn op).getLsbD 6, amoOrdOf ((f.fn op).extractLsb' 4 2)⟩ : AmoForm) = f := by
  rw [size_fn, trig_fn, ord_fn, sizeOf2_code, amoOrdOf_code]

theorem op_fn : (f.fn op).extractLsb' 0 4 = op := by
  change BitVec.extractLsb' (n := 1 + 2 + 1 + 2 + 4) 0 4 _ = _
  simp (disch := decide) only [AmoForm.fn, extractLsb'_append_eq_of_add_le, extractLsb'_eq_self]
end Inner

/-! ### Decoding inverts encoding -/

theorem decodeWord_shi (d a : Reg) (k : BitVec 2) (sh : BitVec 6) : decodeWord (encShi d a k sh) =
    match k.toNat with
    | 0 => .ok (.slli d a sh)
    | 1 => .ok (.srli d a sh)
    | 2 => .ok (.srai d a sh)
    | _ => .error .reservedCode := by
  have hd : fD (encShi d a k sh) = d := fD_encI ..
  have ha : fA (encShi d a k sh) = a := fA_encI ..
  have hmajor : decodeWord (encShi d a k sh) = decodeShi (encShi d a k sh) := decodeWord_of_fOp (fOp_encI ..) rfl
  have hk := fSz_encShi d a sh k
  have hz := mbz_encShi d a sh k
  have hsh := sh_encShi d a sh k
  rw [hmajor]
  generalize encShi d a k sh = w at hd ha hk hz hsh
  subst hd ha hk hsh
  unfold decodeShi
  rw [hz]
  rfl

theorem decodeWord_csr (d a : Reg) (k : BitVec 2) {csr : BitVec 12} (h : csrPresent csr = true) : decodeWord (encCsr d a k csr) =
    match k.toNat with
    | 0 => needZero (a == 0) (.csrr d csr)
    | 1 => .ok (.csrw d a csr)
    | 2 => .ok (.csrs d a csr)
    | _ => .ok (.csrc d a csr) := by
  have hd : fD (encCsr d a k csr) = d := fD_encI ..
  have ha : fA (encCsr d a k csr) = a := fA_encI ..
  have hmajor : decodeWord (encCsr d a k csr) = decodeCsr (encCsr d a k csr) := decodeWord_of_fOp (fOp_encI ..) rfl
  have hk := fSz_encCsr d a k csr
  have hz := mbz_encCsr d a k csr
  have hcsr := number_encCsr d a k csr
  rw [hmajor]
  generalize encCsr d a k csr = w at hd ha hk hz hcsr
  subst hd ha hk hcsr
  refine (if_pos h).trans ?_
  rw [hz]
  rfl

theorem decodeAmo_fn {f : AmoForm} (h : f.wf = true) (op : BitVec 4) (x : Reg) :
    decodeAmo (f.fn op) f.d f.a f.b x = match op.toNat with
      | 0 => needZero (x == 0) (.amoSwap f)
      | 1 => needZero (x == 0) (.amoAdd f)
      | 2 => needZero (x == 0) (.amoAnd f)
      | 3 => needZero (x == 0) (.amoOr f)
      | 4 => needZero (x == 0) (.amoXor f)
      | 5 => needZero (x == 0) (.amoMin f)
      | 6 => needZero (x == 0) (.amoMax f)
      | 7 => needZero (x == 0) (.amoMinu f)
      | 8 => needZero (x == 0) (.amoMaxu f)
      | 9 => .ok (.amoCas f x)
      | _ => .error .reservedCode := by
  have hform := form_fn f op
  have hop := op_fn f op
  have hz := mbz_fn f op
  unfold decodeAmo
  rw [hform, if_pos h, hop, hz]
  rfl

/-- The word of an instruction, if it has one, decodes to it. -/
theorem decodeWord_of_encodeWord {i : Instr} (hwf : i.wf = true) : (encodeWord i).elim True fun w => decodeWord w = .ok i := by
  induction i with
  | add | sub | and | or | xor | andn | orn | sll | srl | sra | slt | sltu | min | max | minu | maxu | addw | subw | sllw | srlw | sraw
  | clz | ctz | popc | brev =>
    exact decodeWord_opr ..
  | sext _ _ z | zext _ _ z => cases z <;> exact decodeWord_opr ..
  | mul | mulh | mulhu | mulhsu | div | divu | rem | remu => exact decodeWord_mulDiv ..
  | addi | andi | ori | xori | slti | sltiu | addiw | jalr => exact decodeWord_encI _ _ _ fun _ => rfl
  | lui | auipc | jal => exact decodeWord_encJ _ _ fun _ => rfl
  | slli | srli | srai => exact decodeWord_shi ..
  | beq | bne | blt | bge | bltu | bgeu => refine (decodeWord_br ..).trans ?_; unfold decodeBr; rw [fD_encB, fA_encB, fCond_encB, fOff15_encB]; rfl
  | ld | ldAcq => refine (decodeWord_ld ..).trans ?_; unfold decodeLd; rw [fD_encM, fA_encM, fSz_encM, fOrd_encM, fOff14_encM, sizeOf2_code]; rfl
  | ldu | lduAcq =>
    refine (decodeWord_ldu ..).trans ?_
    unfold decodeLdu
    rw [fD_encM, fA_encM, fSz_encM, fOrd_encM, fOff14_encM, sizeOf2_code]
    exact if_pos hwf
  | st | stRel => refine (decodeWord_st ..).trans ?_; unfold decodeSt; rw [fD_encM, fA_encM, fSz_encM, fOrd_encM, fOff14_encM, sizeOf2_code]; rfl
  | ldf | stf | sete => exact decodeWord_fe ..
  | waita => exact (decodeWord_fe ..).trans (if_pos hwf)
  | amoSwap f | amoAdd f | amoAnd f | amoOr f | amoXor f | amoMin f | amoMax f | amoMinu f | amoMaxu f | amoCas f =>
    exact (decodeWord_amo ..).trans (decodeAmo_fn hwf _ _)
  | fenceAcq s | fenceRel s | fenceFull s => cases s <;> rfl
  | hld _ _ z | hst _ _ z => cases z <;> exact decodeWord_hmem ..
  | fadd p | fsub p | fmul p | fdiv p | fsqrt p | fmin p | fmax p | fsgnj p | fsgnjn p | feq p | flt p | fle p | fclass p | fcvtSd p =>
    cases p <;> exact decodeWord_fp ..
  | fcvtI p _ _ t r => cases p <;> cases t <;> cases r <;> exact decodeWord_fp ..
  | fcvtF p _ _ t => cases p <;> cases t <;> exact decodeWord_fp ..
  | fmadd p | fmsub p | fnmadd p | fnmsub p => cases p <;> exact decodeWord_fma ..
  | spawn | spawna | endp | yield | join | prio | migrate | self | rgnnew | rgnend | bar | barck => exact decodeWord_proc ..
  | chanOut | chanIn | outw | inw | sel | selF | chinit | chclr => exact decodeWord_chan ..
  | rbinit | rbclaim | rbclaimNb | rbcommit | rbawait | rbawaitNb | rbretire | rbpeek => exact decodeWord_ring ..
  | enq | jwait | jpoll | jdrop => exact decodeWord_engq ..
  | acfg | apf | ard | awr | aclr => exact decodeWord_accf ..
  | csrr | csrw | csrs | csrc => exact decodeWord_csr _ _ _ hwf
  | tkreq | tkrel | tkstat => exact decodeWord_tokn ..
  | kmap | kunmap | ksplice | ktag | krepair | krdone => exact decodeWord_kvm ..
  | cgjoin | cgleave | cgstat | plxl => exact decodeWord_plcg ..
  | trap | brk | wfi | resume | killp | jrnl | rgnsusp | rgnresm => exact decodeWord_sys ..
  | _ => trivial

theorem decodeWord_encodeWord {i : Instr} {w : IWord} (hwf : i.wf = true) (h : encodeWord i = some w) : decodeWord w = .ok i := by
  have hi := decodeWord_of_encodeWord hwf
  rwa [h] at hi

end Sys2Proof
end

section
/-! SUPPORT. Scalar words: a word that decodes is well formed and is the encoding of what it decodes to (R27 to R39). -/

-- Proofs are elaborated one after another: side by side they would need more memory than a check has.
set_option Elab.async false

namespace Sys2Proof

/-- What decoding a word to an instruction has to give back: the instruction is well formed and the word is its encoding. -/
def Encodes (w : IWord) (i : Instr) : Prop := i.wf = true ∧ encodeWord i = some w

/-! ### Codes case by case -/

theorem eq_ofNat_of_toNat {n k : Nat} {v : BitVec n} (h : v.toNat = k) : v = BitVec.ofNat n k := by
  rw [← h, BitVec.ofNat_toNat, BitVec.setWidth_eq]

/-- A property of the numbers below a bound, one by one. -/
inductive Below (P : Nat → Prop) : Nat → Prop
  | zero : Below P 0
  | succ {m : Nat} (h : Below P m) (hm : P m) : Below P (m + 1)

theorem Below.of_lt {P : Nat → Prop} {m : Nat} (h : Below P m) {k : Nat} (hk : k < m) : P k := by
  induction h with
  | zero => exact absurd hk (Nat.not_lt_zero k)
  | succ _ hm ih =>
    rcases Nat.lt_succ_iff_lt_or_eq.1 hk with hk | rfl
    · exact ih hk
    · exact hm

/-- A property of every code: of those below a bound one by one, of the others, which the tables reserve, at once. -/
theorem forall_code {n m : Nat} {P : BitVec n → Prop} (low : Below (fun k => P (BitVec.ofNat n k)) m)
    (high : ∀ v k, v.toNat = k + m → P v) (v : BitVec n) : P v := by
  rcases Nat.lt_or_ge v.toNat m with h | h
  · rw [eq_ofNat_of_toNat (Eq.refl v.toNat)]
    exact low.of_lt h
  · exact high v (v.toNat - m) (Nat.sub_add_cancel h).symm

theorem forall_code_of_all {n m : Nat} {P : BitVec n → Prop} (hm : 2 ^ n = m) (low : Below (fun k => P (BitVec.ofNat n k)) m) (v : BitVec n) :
    P v :=
  forall_code low (fun v k hk => absurd v.isLt (Nat.not_lt.2 (by rw [hm, hk]; exact Nat.le_add_left ..))) v

section Decoders
variable {op : BitVec 6} {fn : BitVec 10} {d a b x : Reg} {ok : Bool} {c i : Instr} {w w' : IWord}

theorem not_of_error {e : DecodeError} {p : Prop} (h : (.error e : Except DecodeError Instr) = .ok i) : p := nomatch h

theorem encodes_of_ok (h : (.ok c : Except DecodeError Instr) = .ok i) (hwf : c.wf = true) (he : encodeWord c = some w) : Encodes w i := by
  cases h
  exact ⟨hwf, he⟩

/-- An instruction whose must-be-zero fields are checked is encoded by the word with zeros there. -/
theorem encodes_of_needZero (h : needZero ok c = .ok i) (hz : ok = true → w = w') (hwf : c.wf = true) (he : encodeWord c = some w') :
    Encodes w i := by
  obtain ⟨hok, rfl⟩ := needZero_eq_ok.1 h
  exact ⟨hwf, (hz hok).symm ▸ he⟩

/-! The must-be-zero fields of the formats (R28). -/

theorem zero_x (h : (x == 0) = true) : encR op d a b fn x = encR op d a b fn 0 := by rw [eq_of_beq h]
theorem zero_b (h : (b == 0) = true) : encR op d a b fn x = encR op d a 0 fn x := by rw [eq_of_beq h]
theorem zero_bx (h : (b == 0 && x == 0) = true) : encR op d a b fn x = encR op d a 0 fn 0 := by
  obtain ⟨hb, hx⟩ := Bool.and_eq_true_iff.1 h
  rw [eq_of_beq hb, eq_of_beq hx]
theorem zero_dx (h : (d == 0 && x == 0) = true) : encR op d a b fn x = encR op 0 a b fn 0 := by
  obtain ⟨hd, hx⟩ := Bool.and_eq_true_iff.1 h
  rw [eq_of_beq hd, eq_of_beq hx]
theorem zero_dbx (h : (d == 0 && b == 0 && x == 0) = true) : encR op d a b fn x = encR op 0 a 0 fn 0 := by
  obtain ⟨h, hx⟩ := Bool.and_eq_true_iff.1 h
  obtain ⟨hd, hb⟩ := Bool.and_eq_true_iff.1 h
  rw [eq_of_beq hd, eq_of_beq hb, eq_of_beq hx]
theorem zero_abx (h : (a == 0 && b == 0 && x == 0) = true) : encR op d a b fn x = encR op d 0 0 fn 0 := by
  obtain ⟨h, hx⟩ := Bool.and_eq_true_iff.1 h
  obtain ⟨ha, hb⟩ := Bool.and_eq_true_iff.1 h
  rw [eq_of_beq ha, eq_of_beq hb, eq_of_beq hx]
theorem zero_dabx (h : (d == 0 && a == 0 && b == 0 && x == 0) = true) : encR op d a b fn x = encR op 0 0 0 fn 0 := by
  obtain ⟨h, hx⟩ := Bool.and_eq_true_iff.1 h
  obtain ⟨h, hb⟩ := Bool.and_eq_true_iff.1 h
  obtain ⟨hd, ha⟩ := Bool.and_eq_true_iff.1 h
  rw [eq_of_beq hd, eq_of_beq ha, eq_of_beq hb, eq_of_beq hx]

theorem encodes_of_ext (mk : SrcWidth → Instr) (hwf : ∀ z, (mk z).wf = true) (he : ∀ z, encodeWord (mk z) = some (encR op d a 0 fn z.code)) :
    ∀ x : Reg, (match x.toNat with
      | 0 => needZero (b == 0) (mk .b)
      | 1 => needZero (b == 0) (mk .h)
      | 2 => needZero (b == 0) (mk .w)
      | _ => .error .reservedCode) = .ok i → Encodes (encR op d a b fn x) i := by
  refine forall_code (m := 3) ?_ fun x k hk h => ?_
  · exact .succ (.succ (.succ .zero fun h => encodes_of_needZero h zero_b (hwf _) (he _)) fun h => encodes_of_needZero h zero_b (hwf _) (he _))
      fun h => encodes_of_needZero h zero_b (hwf _) (he _)
  · rw [hk] at h
    exact not_of_error h

theorem encodes_of_opr : ∀ fn, decodeOpr fn d a b x = .ok i → Encodes (encR 0x01 d a b fn x) i := by
  refine forall_code (m := 38) ?_ fun fn k hk h => ?_
  · refine .succ ?_ fun h => encodes_of_needZero h zero_bx rfl rfl
    refine .succ ?_ (encodes_of_ext (.zext d a) (fun _ => rfl) (fun _ => rfl) x)
    refine .succ ?_ (encodes_of_ext (.sext d a) (fun _ => rfl) (fun _ => rfl) x)
    iterate 3 refine .succ ?_ fun h => encodes_of_needZero h zero_bx rfl rfl
    iterate 11 refine .succ ?_ fun h => not_of_error h
    iterate 21 refine .succ ?_ fun h => encodes_of_needZero h zero_x rfl rfl
    exact .zero
  · dsimp only [decodeOpr] at h
    rw [hk] at h
    exact not_of_error h

theorem encodes_of_mulDiv : ∀ fn, decodeMulDiv fn d a b x = .ok i → Encodes (encR 0x0C d a b fn x) i := by
  refine forall_code (m := 8) ?_ fun fn k hk h => ?_
  · iterate 8 refine .succ ?_ fun h => encodes_of_needZero h zero_x rfl rfl
    exact .zero
  · dsimp only [decodeMulDiv] at h
    rw [hk] at h
    exact not_of_error h

theorem encodes_of_waita (h : (if waitaWf a x = true then .ok (.waita d a b x) else .error .reservedCode : Except DecodeError Instr) = .ok i) :
    Encodes (encR 0x17 d a b 3 x) i := by
  split at h
  · exact encodes_of_ok h ‹_› rfl
  · exact not_of_error h

theorem encodes_of_fe : ∀ fn, decodeFe fn d a b x = .ok i → Encodes (encR 0x17 d a b fn x) i := by
  refine forall_code (m := 4) ?_ fun fn k hk h => ?_
  · refine .succ ?_ fun h => encodes_of_waita h
    refine .succ ?_ fun h => encodes_of_needZero h zero_dbx rfl rfl
    refine .succ ?_ fun h => encodes_of_needZero h zero_dx rfl rfl
    refine .succ ?_ fun h => encodes_of_needZero h zero_bx rfl rfl
    exact .zero
  · dsimp only [decodeFe] at h
    rw [hk] at h
    exact not_of_error h

/-! Fields inside fn, x and the constant are put together again. -/

theorem extractLsb'_one {n : Nat} (v : BitVec n) (k : Nat) : v.extractLsb' k 1 = BitVec.ofBool (v.getLsbD k) := by
  ext j hj
  obtain rfl : j = 0 := by lia
  simp

theorem append_fields {n : Nat} {v : BitVec n} {start len len' : Nat} (h : start = len') :
    v.extractLsb' start len ++ v.extractLsb' 0 len' = v.extractLsb' 0 (len + len') := by
  subst h
  exact BitVec.extractLsb'_append_extractLsb'_eq_extractLsb' (Nat.zero_add _).symm

theorem fn_of_form (h : fn.getLsbD 9 = false) :
    (⟨d, a, b, sizeOf2 (fn.extractLsb' 7 2), fn.getLsbD 6, amoOrdOf (fn.extractLsb' 4 2)⟩ : AmoForm).fn (fn.extractLsb' 0 4) = fn := by
  have h9 : (0 : BitVec 1) = fn.extractLsb' 9 1 := by rw [extractLsb'_one, h]; rfl
  simp (disch := decide) only [AmoForm.fn, code_sizeOf2, code_amoOrdOf, ← extractLsb'_one, h9,
    BitVec.extractLsb'_append_extractLsb'_eq_extractLsb']
  exact BitVec.extractLsb'_eq_self

theorem fpFn_of_fields : fpFn (fn.extractLsb' 1 9) (if fn.getLsbD 0 then .d else .s) = fn := by
  have h0 : Prec.code (if fn.getLsbD 0 then .d else .s) = fn.extractLsb' 0 1 := by
    rw [extractLsb'_one]
    cases fn.getLsbD 0 <;> rfl
  unfold fpFn
  rw [h0, append_fields rfl]
  exact BitVec.extractLsb'_eq_self

theorem fmaFn_of_fields (h : fn.extractLsb' 3 7 = 0) : fmaFn (if fn.getLsbD 2 then .d else .s) (fn.extractLsb' 0 2) = fn := by
  have h2 : Prec.code (if fn.getLsbD 2 then .d else .s) = fn.extractLsb' 2 1 := by
    rw [extractLsb'_one]
    cases fn.getLsbD 2 <;> rfl
  simp (disch := decide) only [fmaFn, h2, ← h, BitVec.extractLsb'_append_extractLsb'_eq_extractLsb']
  exact BitVec.extractLsb'_eq_self

theorem x_of_size (h : x.extractLsb' 2 2 = 0) : (0 : BitVec 2) ++ (sizeOf2 (x.extractLsb' 0 2)).code = x := by
  rw [← h, code_sizeOf2, append_fields rfl]
  exact BitVec.extractLsb'_eq_self

theorem x_of_intTy : (intTyOf (x.extractLsb' 2 2)).code ++ (rmOf (x.extractLsb' 0 2)).code = x := by
  rw [code_intTyOf, code_rmOf, append_fields rfl]
  exact BitVec.extractLsb'_eq_self

theorem encodes_of_amo (h : decodeAmo fn d a b x = .ok i) : Encodes (encR 0x18 d a b fn x) i := by
  dsimp only [decodeAmo] at h
  split at h
  case isFalse => exact not_of_error h
  rename_i hwf
  have hform (op : BitVec 4) (hop : op = fn.extractLsb' 0 4) (y : Reg) (hz : (!fn.getLsbD 9) = true) :
      encR 0x18 d a b fn y =
        encAmo ⟨d, a, b, sizeOf2 (fn.extractLsb' 7 2), fn.getLsbD 6, amoOrdOf (fn.extractLsb' 4 2)⟩ op y := by
    rw [hop]
    unfold encAmo
    rw [fn_of_form (by simpa using hz)]
  have hplain (op : BitVec 4) (hop : op = fn.extractLsb' 0 4) (hz : (!fn.getLsbD 9 && x == 0) = true) := by
    obtain ⟨hz, hx⟩ := Bool.and_eq_true_iff.1 hz
    exact (congrArg (encR 0x18 d a b fn) (eq_of_beq hx)).trans (hform op hop 0 hz)
  generalize AmoForm.mk d a b (sizeOf2 (fn.extractLsb' 7 2)) (fn.getLsbD 6) (amoOrdOf (fn.extractLsb' 4 2)) = f at h hwf hform hplain
  generalize fn.extractLsb' 0 4 = op at h hform hplain
  revert op
  refine forall_code (m := 10) ?_ fun op k hk h _ _ => ?_
  · refine .succ ?_ fun h hform _ => encodes_of_needZero h (hform _ rfl x) hwf rfl
    iterate 9 refine .succ ?_ fun h _ hplain => encodes_of_needZero h (hplain _ rfl) hwf rfl
    exact .zero
  · rw [hk] at h
    exact not_of_error h

theorem encodes_of_hmem : ∀ fn, decodeHmem fn d a b x = .ok i → Encodes (encR 0x1A d a b fn x) i := by
  have hx (h : (x.extractLsb' 2 2 == (0 : BitVec 2)) = true) : (0 : BitVec 2) ++ (sizeOf2 (x.extractLsb' 0 2)).code = x :=
    x_of_size (eq_of_beq h)
  have hb (h : (x.extractLsb' 2 2 == (0 : BitVec 2) && b == 0) = true) : encR 0x1A d a b 0 x =
      encR 0x1A d a 0 0 ((0 : BitVec 2) ++ (sizeOf2 (x.extractLsb' 0 2)).code) := by
    obtain ⟨hz, hb⟩ := Bool.and_eq_true_iff.1 h
    rw [hx hz, eq_of_beq hb]
  have hd (h : (x.extractLsb' 2 2 == (0 : BitVec 2) && d == 0) = true) : encR 0x1A d a b 1 x =
      encR 0x1A 0 a b 1 ((0 : BitVec 2) ++ (sizeOf2 (x.extractLsb' 0 2)).code) := by
    obtain ⟨hz, hd⟩ := Bool.and_eq_true_iff.1 h
    rw [hx hz, eq_of_beq hd]
  refine forall_code (m := 2) ?_ fun fn k hk h => ?_
  · exact .succ (.succ .zero fun h => encodes_of_needZero h hb rfl rfl) fun h => encodes_of_needZero h hd rfl rfl
  · dsimp only [decodeHmem] at h
    rw [hk] at h
    exact not_of_error h

theorem encodes_of_fp (h : decodeFp fn d a b x = .ok i) : Encodes (encR 0x20 d a b fn x) i := by
  dsimp only [decodeFp] at h
  have hfn : fpFn (fn.extractLsb' 1 9) (if fn.getLsbD 0 then .d else .s) = fn := fpFn_of_fields
  rw [← hfn]
  generalize (if fn.getLsbD 0 then Prec.d else Prec.s) = p at h ⊢
  generalize fn.extractLsb' 1 9 = op at h ⊢
  have hcvtI (f : BitVec 10) (h : (b == 0) = true) : encR 0x20 d a b f x =
      encR 0x20 d a 0 f ((intTyOf (x.extractLsb' 2 2)).code ++ (rmOf (x.extractLsb' 0 2)).code) := by rw [x_of_intTy, eq_of_beq h]
  have hcvtF (f : BitVec 10) (h : (b == 0 && x.extractLsb' 0 2 == (0 : BitVec 2)) = true) : encR 0x20 d a b f x =
      encR 0x20 d a 0 f ((intTyOf (x.extractLsb' 2 2)).code ++ (0 : BitVec 2)) := by
    obtain ⟨hb, hx⟩ := Bool.and_eq_true_iff.1 h
    rw [code_intTyOf, ← eq_of_beq hx, append_fields rfl, eq_of_beq hb, BitVec.extractLsb'_eq_self]
  revert op
  refine forall_code (m := 16) ?_ fun op k hk h => ?_
  · refine .succ ?_ fun h => encodes_of_needZero h zero_bx rfl rfl
    refine .succ ?_ fun h => encodes_of_needZero h (hcvtF _) rfl rfl
    refine .succ ?_ fun h => encodes_of_needZero h (hcvtI _) rfl rfl
    refine .succ ?_ fun h => encodes_of_needZero h zero_bx rfl rfl
    iterate 7 refine .succ ?_ fun h => encodes_of_needZero h zero_x rfl rfl
    refine .succ ?_ fun h => encodes_of_needZero h zero_bx rfl rfl
    iterate 4 refine .succ ?_ fun h => encodes_of_needZero h zero_x rfl rfl
    exact .zero
  · rw [hk] at h
    exact not_of_error h

theorem encodes_of_fma (h : decodeFma fn d a b x = .ok i) : Encodes (encR 0x21 d a b fn x) i := by
  dsimp only [decodeFma] at h
  have hop (op : BitVec 2) (hop : op = fn.extractLsb' 0 2) (hz : (fn.extractLsb' 3 7 == (0 : BitVec 7)) = true) :
      encR 0x21 d a b fn x = encR 0x21 d a b (fmaFn (if fn.getLsbD 2 then .d else .s) op) x := by
    rw [hop, fmaFn_of_fields (eq_of_beq hz)]
  generalize (if fn.getLsbD 2 then Prec.d else Prec.s) = p at h hop
  generalize fn.extractLsb' 0 2 = op at h hop
  revert op
  refine forall_code_of_all (m := 4) rfl ?_
  iterate 4 refine .succ ?_ fun h hop => encodes_of_needZero h (hop _ rfl) rfl rfl
  exact .zero

theorem encodes_of_proc : ∀ fn, decodeProc fn d a b x = .ok i → Encodes (encR 0x24 d a b fn x) i := by
  refine forall_code (m := 12) ?_ fun fn k hk h => ?_
  · iterate 2 refine .succ ?_ fun h => encodes_of_needZero h zero_abx rfl rfl
    iterate 3 refine .succ ?_ fun h => encodes_of_needZero h zero_bx rfl rfl
    refine .succ ?_ fun h => encodes_of_needZero h zero_x rfl rfl
    refine .succ ?_ fun h => encodes_of_needZero h zero_bx rfl rfl
    refine .succ ?_ fun h => encodes_of_needZero h zero_dbx rfl rfl
    iterate 2 refine .succ ?_ fun h => encodes_of_needZero h zero_dabx rfl rfl
    refine .succ ?_ fun h => encodes_of_needZero h zero_bx rfl rfl
    refine .succ ?_ fun h => encodes_of_needZero h zero_x rfl rfl
    exact .zero
  · dsimp only [decodeProc] at h
    rw [hk] at h
    exact not_of_error h

/-- CHAN and RING read x as a choice of two forms, plain or the other (R37). -/
theorem encodes_of_form {j : Instr} (h : (if x == 0 then .ok c else needZero (x == 1) j : Except DecodeError Instr) = .ok i) (hc : c.wf = true)
    (hec : encodeWord c = some (encR op d a b fn 0)) (hj : j.wf = true) (hej : encodeWord j = some (encR op d a b fn 1)) :
    Encodes (encR op d a b fn x) i := by
  split at h
  · rename_i hx
    rw [eq_of_beq hx]
    exact encodes_of_ok h hc hec
  · exact encodes_of_needZero h (fun hx => by rw [eq_of_beq hx]) hj hej

theorem encodes_of_chan : ∀ fn, decodeChan fn d a b x = .ok i → Encodes (encR 0x25 d a b fn x) i := by
  refine forall_code (m := 7) ?_ fun fn k hk h => ?_
  · refine .succ ?_ fun h => encodes_of_needZero h zero_bx rfl rfl
    refine .succ ?_ fun h => encodes_of_needZero h zero_x rfl rfl
    refine .succ ?_ fun h => encodes_of_form h rfl rfl rfl rfl
    refine .succ ?_ fun h => encodes_of_needZero h zero_bx rfl rfl
    iterate 3 refine .succ ?_ fun h => encodes_of_needZero h zero_x rfl rfl
    exact .zero
  · dsimp only [decodeChan] at h
    rw [hk] at h
    exact not_of_error h

theorem encodes_of_rbawait (h : (if x == 0 then needZero (b == 0) (.rbawait d a) else needZero (x == 1 && b == 0) (.rbawaitNb d a)) = .ok i) :
    Encodes (encR 0x26 d a b 3 x) i := by
  split at h
  · rename_i hx
    rw [eq_of_beq hx]
    exact encodes_of_needZero h zero_b rfl rfl
  · refine encodes_of_needZero h (fun hz => ?_) rfl rfl
    obtain ⟨hx, hb⟩ := Bool.and_eq_true_iff.1 hz
    rw [eq_of_beq hx, eq_of_beq hb]

theorem encodes_of_ring : ∀ fn, decodeRing fn d a b x = .ok i → Encodes (encR 0x26 d a b fn x) i := by
  refine forall_code (m := 6) ?_ fun fn k hk h => ?_
  · refine .succ ?_ fun h => encodes_of_needZero h zero_x rfl rfl
    refine .succ ?_ fun h => encodes_of_needZero h zero_dx rfl rfl
    refine .succ ?_ fun h => encodes_of_rbawait h
    refine .succ ?_ fun h => encodes_of_needZero h zero_dx rfl rfl
    refine .succ ?_ fun h => encodes_of_form h rfl rfl rfl rfl
    refine .succ ?_ fun h => encodes_of_needZero h zero_bx rfl rfl
    exact .zero
  · dsimp only [decodeRing] at h
    rw [hk] at h
    exact not_of_error h

theorem encodes_of_engq : ∀ fn, decodeEngq fn d a b x = .ok i → Encodes (encR 0x27 d a b fn x) i := by
  refine forall_code (m := 4) ?_ fun fn k hk h => ?_
  · iterate 3 refine .succ ?_ fun h => encodes_of_needZero h zero_bx rfl rfl
    refine .succ ?_ fun h => encodes_of_needZero h zero_x rfl rfl
    exact .zero
  · dsimp only [decodeEngq] at h
    rw [hk] at h
    exact not_of_error h

theorem encodes_of_accf : ∀ fn, decodeAccf fn d a b x = .ok i → Encodes (encR 0x28 d a b fn x) i := by
  refine forall_code (m := 5) ?_ fun fn k hk h => ?_
  · refine .succ ?_ fun h => encodes_of_needZero h zero_dbx rfl rfl
    refine .succ ?_ fun h => encodes_of_needZero h zero_dx rfl rfl
    refine .succ ?_ fun h => encodes_of_needZero h zero_bx rfl rfl
    refine .succ ?_ fun h => encodes_of_needZero h zero_dbx rfl rfl
    refine .succ ?_ fun h => encodes_of_needZero h zero_bx rfl rfl
    exact .zero
  · dsimp only [decodeAccf] at h
    rw [hk] at h
    exact not_of_error h

theorem encodes_of_tokn : ∀ fn, decodeTokn fn d a b x = .ok i → Encodes (encR 0x2A d a b fn x) i := by
  refine forall_code (m := 3) ?_ fun fn k hk h => ?_
  · iterate 2 refine .succ ?_ fun h => encodes_of_needZero h zero_abx rfl rfl
    refine .succ ?_ fun h => encodes_of_needZero h zero_bx rfl rfl
    exact .zero
  · dsimp only [decodeTokn] at h
    rw [hk] at h
    exact not_of_error h

theorem encodes_of_kvm : ∀ fn, decodeKvm fn d a b x = .ok i → Encodes (encR 0x2B d a b fn x) i := by
  refine forall_code (m := 6) ?_ fun fn k hk h => ?_
  · iterate 2 refine .succ ?_ fun h => encodes_of_needZero h zero_dx rfl rfl
    iterate 4 refine .succ ?_ fun h => encodes_of_needZero h zero_x rfl rfl
    exact .zero
  · dsimp only [decodeKvm] at h
    rw [hk] at h
    exact not_of_error h

theorem encodes_of_plcg : ∀ fn, decodePlcg fn d a b x = .ok i → Encodes (encR 0x2C d a b fn x) i := by
  refine forall_code (m := 4) ?_ fun fn k hk h => ?_
  · refine .succ ?_ fun h => encodes_of_needZero h zero_bx rfl rfl
    iterate 3 refine .succ ?_ fun h => encodes_of_needZero h zero_x rfl rfl
    exact .zero
  · dsimp only [decodePlcg] at h
    rw [hk] at h
    exact not_of_error h

theorem encodes_of_sys : ∀ fn, decodeSys fn d a b x = .ok i → Encodes (encR 0x2D d a b fn x) i := by
  refine forall_code (m := 8) ?_ fun fn k hk h => ?_
  · iterate 2 refine .succ ?_ fun h => encodes_of_needZero h zero_bx rfl rfl
    refine .succ ?_ fun h => encodes_of_needZero h zero_x rfl rfl
    refine .succ ?_ fun h => encodes_of_needZero h zero_bx rfl rfl
    refine .succ ?_ fun h => encodes_of_needZero h zero_x rfl rfl
    iterate 2 refine .succ ?_ fun h => encodes_of_needZero h zero_dabx rfl rfl
    refine .succ ?_ fun h => encodes_of_needZero h zero_dbx rfl rfl
    exact .zero
  · dsimp only [decodeSys] at h
    rw [hk] at h
    exact not_of_error h

theorem encI_shi_of_fields (h : w.extractLsb' 6 10 = 0) : fSz w ++ (0 : BitVec 10) ++ w.extractLsb' 0 6 = fImm18 w := by
  simp (disch := decide) only [fSz, fImm18, ← h, BitVec.extractLsb'_append_extractLsb'_eq_extractLsb']

theorem encI_csr_of_fields (h : w.extractLsb' 12 4 = 0) : fSz w ++ (0 : BitVec 4) ++ w.extractLsb' 0 12 = fImm18 w := by
  simp (disch := decide) only [fSz, fImm18, ← h, BitVec.extractLsb'_append_extractLsb'_eq_extractLsb']

theorem encI_fence_of_fields (h : w.extractLsb' 8 10 = 0) : (0 : BitVec 10) ++ w.extractLsb' 4 4 ++ fX w = fImm18 w := by
  simp (disch := decide) only [fX, fImm18, ← h, BitVec.extractLsb'_append_extractLsb'_eq_extractLsb']

theorem encodes_of_shi (h : decodeShi w = .ok i) : Encodes (encI 0x08 (fD w) (fA w) (fImm18 w)) i := by
  dsimp only [decodeShi] at h
  have hk (k : BitVec 2) (hk : k = fSz w) (hz : (w.extractLsb' 6 10 == (0 : BitVec 10)) = true) :
      encI 0x08 (fD w) (fA w) (fImm18 w) = encShi (fD w) (fA w) k (w.extractLsb' 0 6) := by
    rw [hk]
    unfold encShi
    rw [encI_shi_of_fields (eq_of_beq hz)]
  generalize fSz w = k at h hk
  revert k
  refine forall_code_of_all (m := 4) rfl ?_
  refine .succ ?_ fun h _ => not_of_error h
  iterate 3 refine .succ ?_ fun h hk => encodes_of_needZero h (hk _ rfl) rfl rfl
  exact .zero

theorem encodes_of_csr (h : decodeCsr w = .ok i) : Encodes (encI 0x29 (fD w) (fA w) (fImm18 w)) i := by
  dsimp only [decodeCsr] at h
  split at h
  case isFalse => exact not_of_error h
  rename_i hcsr
  have hk (k : BitVec 2) (hk : k = fSz w) (hz : (w.extractLsb' 12 4 == (0 : BitVec 4)) = true) :
      encI 0x29 (fD w) (fA w) (fImm18 w) = encCsr (fD w) (fA w) k (w.extractLsb' 0 12) := by
    rw [hk]
    unfold encCsr
    rw [encI_csr_of_fields (eq_of_beq hz)]
  have hread (k : BitVec 2) (hsz : k = fSz w) (hz : (w.extractLsb' 12 4 == (0 : BitVec 4) && fA w == 0) = true) :
      encI 0x29 (fD w) (fA w) (fImm18 w) = encCsr (fD w) 0 k (w.extractLsb' 0 12) := by
    obtain ⟨hz, ha⟩ := Bool.and_eq_true_iff.1 hz
    rw [hk k hsz hz, eq_of_beq ha]
  generalize fSz w = k at h hk hread
  revert k
  refine forall_code_of_all (m := 4) rfl ?_
  iterate 3 refine .succ ?_ fun h hk _ => encodes_of_needZero h (hk _ rfl) hcsr rfl
  exact .succ .zero fun h _ hread => encodes_of_needZero h (hread _ rfl) hcsr rfl

theorem encodes_of_fence (h : decodeFence w = .ok i) : Encodes (encI 0x19 (fD w) (fA w) (fImm18 w)) i := by
  dsimp only [decodeFence] at h
  have hz (s : Scope) (kind : BitVec 4) (hs : s.code = w.extractLsb' 4 4) (hk : kind = fX w)
      (hz : (fD w == 0 && fA w == 0 && w.extractLsb' 8 10 == (0 : BitVec 10)) = true) :
      encI 0x19 (fD w) (fA w) (fImm18 w) = encFence s kind := by
    obtain ⟨h, hz⟩ := Bool.and_eq_true_iff.1 hz
    obtain ⟨hd, ha⟩ := Bool.and_eq_true_iff.1 h
    rw [← encI_fence_of_fields (eq_of_beq hz), eq_of_beq hd, eq_of_beq ha, ← hs, ← hk, encFence]
  have hkind (s : Scope) (hs : s.code = w.extractLsb' 4 4) : ∀ x, x = fX w → (match x.toNat with
      | 1 => needZero (fD w == 0 && fA w == 0 && w.extractLsb' 8 10 == (0 : BitVec 10)) (.fenceAcq s)
      | 2 => needZero (fD w == 0 && fA w == 0 && w.extractLsb' 8 10 == (0 : BitVec 10)) (.fenceRel s)
      | 3 => needZero (fD w == 0 && fA w == 0 && w.extractLsb' 8 10 == (0 : BitVec 10)) (.fenceFull s)
      | _ => .error .reservedCode) = .ok i → Encodes (encI 0x19 (fD w) (fA w) (fImm18 w)) i := by
    refine forall_code (m := 4) ?_ fun x k hk _ h => ?_
    · iterate 3 refine .succ ?_ fun hx h => encodes_of_needZero h (hz s _ hs hx) rfl rfl
      exact .succ .zero fun _ h => not_of_error h
    · rw [hk] at h
      exact not_of_error h
  generalize w.extractLsb' 4 4 = s at h hkind
  revert s
  refine forall_code (m := 5) ?_ fun s k hk h _ => ?_
  · exact .succ (.succ (.succ (.succ (.succ .zero fun h hkind => hkind .tile rfl _ rfl h) fun h hkind => hkind .seg rfl _ rfl h)
      fun h hkind => hkind .mod rfl _ rfl h) fun h hkind => hkind .panel rfl _ rfl h) fun h hkind => hkind .sys rfl _ rfl h
  · rw [hk] at h
    exact not_of_error h

theorem encodes_of_br (h : decodeBr w = .ok i) : Encodes (encB 0x10 (fD w) (fA w) (fCond w) (fOff15 w)) i := by
  dsimp only [decodeBr] at h
  generalize fCond w = k at h ⊢
  revert k
  refine forall_code (m := 6) ?_ fun s k hk h => ?_
  · iterate 6 refine .succ ?_ fun h => encodes_of_ok h rfl rfl
    exact .zero
  · rw [hk] at h
    exact not_of_error h

theorem encodes_of_ld (h : decodeLd w = .ok i) : Encodes (encM 0x14 (fD w) (fA w) (fSz w) (fOrd w) (fOff14 w)) i := by
  unfold decodeLd at h
  rw [← code_sizeOf2 (fSz w)]
  generalize fOrd w = k at h ⊢
  revert k
  refine forall_code (m := 2) ?_ fun s k hk h => ?_
  · exact .succ (.succ .zero fun h => encodes_of_ok h rfl rfl) fun h => encodes_of_ok h rfl rfl
  · rw [hk] at h
    exact not_of_error h

theorem encodes_of_ldu (h : decodeLdu w = .ok i) : Encodes (encM 0x15 (fD w) (fA w) (fSz w) (fOrd w) (fOff14 w)) i := by
  unfold decodeLdu at h
  rw [← code_sizeOf2 (fSz w)]
  split at h
  case isFalse => exact not_of_error h
  rename_i hsz
  generalize fOrd w = k at h ⊢
  revert k
  refine forall_code (m := 2) ?_ fun s k hk h => ?_
  · exact .succ (.succ .zero fun h => encodes_of_ok h hsz rfl) fun h => encodes_of_ok h hsz rfl
  · rw [hk] at h
    exact not_of_error h

theorem encodes_of_st (h : decodeSt w = .ok i) : Encodes (encM 0x16 (fD w) (fA w) (fSz w) (fOrd w) (fOff14 w)) i := by
  unfold decodeSt at h
  rw [← code_sizeOf2 (fSz w)]
  generalize fOrd w = k at h ⊢
  revert k
  refine forall_code (m := 3) ?_ fun s k hk h => ?_
  · exact .succ (.succ (.succ .zero fun h => encodes_of_ok h rfl rfl) fun h => not_of_error h) fun h => encodes_of_ok h rfl rfl
  · rw [hk] at h
    exact not_of_error h

end Decoders

/-! ### All words -/

section Whole
variable {w : IWord} {i : Instr} {op : Nat}

theorem major_of_fOp (h : fOp w = op) : w.extractLsb' 26 6 = BitVec.ofNat 6 op := eq_ofNat_of_toNat h

theorem encodes_encR (hop : fOp w = op) (h : Encodes (encR (BitVec.ofNat 6 op) (fD w) (fA w) (fB w) (fFn w) (fX w)) i) : Encodes w i := by
  rwa [← major_of_fOp hop, encR_fields] at h

theorem encodes_encI (hop : fOp w = op) (h : Encodes (encI (BitVec.ofNat 6 op) (fD w) (fA w) (fImm18 w)) i) : Encodes w i := by
  rwa [← major_of_fOp hop, encI_fields] at h

theorem encodes_encM (hop : fOp w = op) (h : Encodes (encM (BitVec.ofNat 6 op) (fD w) (fA w) (fSz w) (fOrd w) (fOff14 w)) i) : Encodes w i := by
  rwa [← major_of_fOp hop, encM_fields] at h

theorem encodes_encB (hop : fOp w = op) (h : Encodes (encB (BitVec.ofNat 6 op) (fD w) (fA w) (fCond w) (fOff15 w)) i) : Encodes w i := by
  rwa [← major_of_fOp hop, encB_fields] at h

theorem encodes_encJ (hop : fOp w = op) (h : Encodes (encJ (BitVec.ofNat 6 op) (fD w) (fImm22 w)) i) : Encodes w i := by
  rwa [← major_of_fOp hop, encJ_fields] at h

/-- A word that decodes is well formed and is the encoding of what it decodes to. -/
theorem encodes_of_decodeWord (h : decodeWord w = .ok i) : Encodes w i := by
  have hmajor : Below (fun k => fOp w = k → decodeMajor w k = .ok i → Encodes w i) 46 := by
    refine .succ ?_ fun hop h => encodes_encR hop (encodes_of_sys _ h)
    refine .succ ?_ fun hop h => encodes_encR hop (encodes_of_plcg _ h)
    refine .succ ?_ fun hop h => encodes_encR hop (encodes_of_kvm _ h)
    refine .succ ?_ fun hop h => encodes_encR hop (encodes_of_tokn _ h)
    refine .succ ?_ fun hop h => encodes_encI hop (encodes_of_csr h)
    refine .succ ?_ fun hop h => encodes_encR hop (encodes_of_accf _ h)
    refine .succ ?_ fun hop h => encodes_encR hop (encodes_of_engq _ h)
    refine .succ ?_ fun hop h => encodes_encR hop (encodes_of_ring _ h)
    refine .succ ?_ fun hop h => encodes_encR hop (encodes_of_chan _ h)
    refine .succ ?_ fun hop h => encodes_encR hop (encodes_of_proc _ h)
    iterate 2 refine .succ ?_ fun _ h => not_of_error h
    refine .succ ?_ fun hop h => encodes_encR hop (encodes_of_fma h)
    refine .succ ?_ fun hop h => encodes_encR hop (encodes_of_fp h)
    iterate 5 refine .succ ?_ fun _ h => not_of_error h
    refine .succ ?_ fun hop h => encodes_encR hop (encodes_of_hmem _ h)
    refine .succ ?_ fun hop h => encodes_encI hop (encodes_of_fence h)
    refine .succ ?_ fun hop h => encodes_encR hop (encodes_of_amo h)
    refine .succ ?_ fun hop h => encodes_encR hop (encodes_of_fe _ h)
    refine .succ ?_ fun hop h => encodes_encM hop (encodes_of_st h)
    refine .succ ?_ fun hop h => encodes_encM hop (encodes_of_ldu h)
    refine .succ ?_ fun hop h => encodes_encM hop (encodes_of_ld h)
    refine .succ ?_ fun _ h => not_of_error h
    refine .succ ?_ fun hop h => encodes_encI hop (encodes_of_ok h rfl rfl)
    refine .succ ?_ fun hop h => encodes_encJ hop (encodes_of_ok h rfl rfl)
    refine .succ ?_ fun hop h => encodes_encB hop (encodes_of_br h)
    iterate 3 refine .succ ?_ fun _ h => not_of_error h
    refine .succ ?_ fun hop h => encodes_encR hop (encodes_of_mulDiv _ h)
    iterate 2 refine .succ ?_ fun hop h => encodes_encJ hop (encodes_of_ok h rfl rfl)
    refine .succ ?_ fun hop h => encodes_encI hop (encodes_of_ok h rfl rfl)
    refine .succ ?_ fun hop h => encodes_encI hop (encodes_of_shi h)
    iterate 6 refine .succ ?_ fun hop h => encodes_encI hop (encodes_of_ok h rfl rfl)
    refine .succ ?_ fun hop h => encodes_encR hop (encodes_of_opr _ h)
    refine .succ ?_ fun _ h => not_of_error h
    exact .zero
  rcases Nat.lt_or_ge (fOp w) 46 with hop | hop
  · exact hmajor.of_lt hop rfl h
  · obtain ⟨k, hk⟩ := Nat.exists_eq_add_of_le' hop
    rw [decodeWord_eq_decodeMajor, hk] at h
    exact not_of_error h

end Whole

end Sys2Proof
end

section
/-! SUPPORT. Command words: the fields of an assembled word, and a word as the assembly of its fields (R40 to R42). -/

-- Proofs are elaborated one after another: side by side they would need more memory than a check has.
set_option Elab.async false

namespace Sys2Proof

/-! ### Fields at their places -/

/-- A field of a command word: `bits` stands at bit `pos`. -/
structure Field where
  width : Nat
  pos : Nat
  bits : BitVec width

abbrev Field.at {n : Nat} (v : BitVec n) (p : Nat) : Field := ⟨n, p, v⟩

noncomputable def Field.word (f : Field) : CWord := f.bits.setWidth 256 <<< f.pos

/-- Place and width of a field. -/
abbrev Field.shape (f : Field) : Nat × Nat := (f.pos, f.width)

/-- The bits of a command word that a field of this place and width takes. -/
noncomputable def maskAt (p : Nat × Nat) : CWord := (BitVec.allOnes p.2).setWidth 256 <<< p.1

/-- Fields put into a word one after another. -/
noncomputable def assemble (w : CWord) (fs : List Field) : CWord := fs.foldl (fun v f => v ||| f.word) w

/-- Fields alone, as the encoder writes a body. -/
noncomputable def body : List Field → CWord
  | [] => 0#256
  | f :: fs => assemble f.word fs

noncomputable def maskOf (ps : List (Nat × Nat)) : CWord := ps.foldr (fun p m => maskAt p ||| m) 0#256

/-- The fields stand below bit `top`, each below the one before it. -/
noncomputable def fits (top : Nat) : List (Nat × Nat) → Bool
  | [] => true
  | p :: ps => decide (p.1 + p.2 ≤ top) && fits p.1 ps

noncomputable def readAll (w : CWord) (ps : List (Nat × Nat)) : List Field := ps.map fun p => .at (w.extractLsb' p.1 p.2) p.1

/-- Every field is read back from the word. -/
def AllRead (w : CWord) : List Field → Prop
  | [] => True
  | f :: fs => w.extractLsb' f.pos f.width = f.bits ∧ AllRead w fs

section Fields
variable {w z : CWord} {f : Field} {fs : List Field} {ps : List (Nat × Nat)} {q m top : Nat}

theorem Field.getLsbD_word (i : Nat) : f.word.getLsbD i = (decide (i < 256) && decide (f.pos ≤ i) && f.bits.getLsbD (i - f.pos)) := by
  unfold Field.word
  rw [BitVec.getLsbD_shiftLeft, BitVec.getLsbD_setWidth]
  rcases Nat.lt_or_ge i f.pos with h | h
  · simp [h]
  · rcases Nat.lt_or_ge i 256 with h' | h'
    · have : i - f.pos < 256 := (Nat.sub_le ..).trans_lt h'
      simp [h', Nat.not_lt.2 h, h, this]
    · simp [Nat.not_lt.2 h']

theorem Field.extract_word (h : f.pos + f.width ≤ 256) : f.word.extractLsb' f.pos f.width = f.bits := by
  apply BitVec.eq_of_getLsbD_eq
  intro i hi
  rw [BitVec.getLsbD_extractLsb', Field.getLsbD_word, decide_eq_true hi, decide_eq_true ((Nat.add_lt_add_left hi _).trans_le h),
    decide_eq_true (Nat.le_add_right ..),
    Nat.add_sub_cancel_left]
  rfl

theorem Field.extract_word_below (h : q + m ≤ f.pos) : f.word.extractLsb' q m = 0#m := by
  apply BitVec.eq_of_getLsbD_eq
  intro i hi
  rw [BitVec.getLsbD_extractLsb', Field.getLsbD_word, BitVec.getLsbD_zero, decide_eq_false (Nat.not_le.2 ((Nat.add_lt_add_left hi q).trans_le h)),
    Bool.and_false,    Bool.false_and, Bool.and_false]

theorem Field.extract_word_above (h : f.pos + f.width ≤ q) : f.word.extractLsb' q m = 0#m := by
  apply BitVec.eq_of_getLsbD_eq
  intro i hi
  rw [BitVec.getLsbD_extractLsb', Field.getLsbD_word, BitVec.getLsbD_zero,
    BitVec.getLsbD_of_ge f.bits _ (Nat.le_sub_of_add_le' (h.trans (Nat.le_add_right ..))), Bool.and_false, Bool.and_false]

theorem maskAt_eq_word (p : Nat × Nat) : maskAt p = (Field.at (BitVec.allOnes p.2) p.1).word := rfl

theorem Field.word_and_maskAt : f.word &&& maskAt f.shape = f.word := by
  apply BitVec.eq_of_getLsbD_eq
  intro i hi
  rw [BitVec.getLsbD_and, maskAt_eq_word, Field.getLsbD_word, Field.getLsbD_word, BitVec.getLsbD_allOnes]
  rcases Nat.lt_or_ge (i - f.pos) f.width with h | h
  · rw [decide_eq_true h, Bool.and_true, Bool.and_right_comm, Bool.and_self]
  · rw [BitVec.getLsbD_of_ge f.bits _ h, Bool.and_false, Bool.false_and]

/-- A field put back at its place is the word under the field's mask. -/
theorem word_extract (w : CWord) (p : Nat × Nat) : (Field.at (w.extractLsb' p.1 p.2) p.1).word = w &&& maskAt p := by
  apply BitVec.eq_of_getLsbD_eq
  intro i hi
  rw [BitVec.getLsbD_and, maskAt_eq_word, Field.getLsbD_word, Field.getLsbD_word, BitVec.getLsbD_allOnes, BitVec.getLsbD_extractLsb']
  rcases Nat.lt_or_ge i p.1 with h | h
  · rw [decide_eq_false (Nat.not_le.2 h), Bool.and_false, Bool.false_and, Bool.false_and, Bool.and_false]
  · rw [Nat.add_sub_cancel' h, decide_eq_true hi, decide_eq_true h, Bool.true_and, Bool.true_and, Bool.true_and, Bool.and_comm]

theorem assemble_or (w v : CWord) (fs : List Field) : assemble (w ||| v) fs = w ||| assemble v fs := by
  induction fs generalizing v with
  | nil => rfl
  | cons f fs ih => exact (congrArg (assemble · fs) (BitVec.or_assoc ..)).trans (ih _)

theorem or_body (w : CWord) (fs : List Field) : w ||| body fs = assemble w fs := by
  cases fs with
  | nil => exact BitVec.or_zero
  | cons f fs => exact (assemble_or ..).symm

theorem extract_assemble_above (h : fits top (fs.map Field.shape) = true) (hq : top ≤ q) :
    (assemble w fs).extractLsb' q m = w.extractLsb' q m := by
  induction fs generalizing w top with
  | nil => rfl
  | cons f fs ih =>
    obtain ⟨hf, hfs⟩ := Bool.and_eq_true_iff.1 h
    have hf : f.pos + f.width ≤ q := (of_decide_eq_true hf).trans hq
    refine (ih hfs (Nat.le_trans (Nat.le_add_right ..) hf)).trans ?_
    rw [BitVec.extractLsb'_or, Field.extract_word_above hf, BitVec.or_zero]

theorem allRead_assemble (hw : ∀ q m, q + m ≤ top → w.extractLsb' q m = 0#m) (htop : top ≤ 256) (h : fits top (fs.map Field.shape) = true) :
    AllRead (assemble w fs) fs := by
  induction fs generalizing w top with
  | nil => trivial
  | cons f fs ih =>
    obtain ⟨hf, hfs⟩ := Bool.and_eq_true_iff.1 h
    replace hf : f.pos + f.width ≤ top := of_decide_eq_true hf
    have hself : (w ||| f.word).extractLsb' f.pos f.width = f.bits := by
      rw [BitVec.extractLsb'_or, hw _ _ hf, Field.extract_word (hf.trans htop), BitVec.zero_or]
    have hpos : f.pos ≤ top := (Nat.le_add_right ..).trans hf
    refine ⟨(extract_assemble_above hfs (Nat.le_refl _)).trans hself, ih (fun q m hq => ?_) (hpos.trans htop) hfs⟩
    rw [BitVec.extractLsb'_or, hw q m (Nat.le_trans hq hpos), Field.extract_word_below hq, BitVec.zero_or]

theorem assemble_and_eq_zero (hw : w &&& z = 0#256) (h : maskOf (fs.map Field.shape) &&& z = 0#256) : assemble w fs &&& z = 0#256 := by
  induction fs generalizing w with
  | nil => exact hw
  | cons f fs ih =>
    rw [List.map_cons] at h
    unfold maskOf at h
    rw [List.foldr_cons, BitVec.and_or_distrib_right, BitVec.or_eq_zero_iff] at h
    obtain ⟨hf, hfs⟩ := h
    refine ih ?_ hfs
    rw [BitVec.and_or_distrib_right, hw, BitVec.zero_or, ← Field.word_and_maskAt, BitVec.and_assoc, hf, BitVec.and_zero]

theorem assemble_readAll (v w : CWord) (ps : List (Nat × Nat)) : assemble v (readAll w ps) = v ||| (w &&& maskOf ps) := by
  induction ps generalizing v with
  | nil => unfold maskOf; rw [List.foldr_nil, BitVec.and_zero, BitVec.or_zero]; rfl
  | cons p ps ih =>
    have hp : maskOf (p :: ps) = maskAt p ||| maskOf ps := rfl
    rw [hp, BitVec.and_or_distrib_left, ← BitVec.or_assoc, ← word_extract w p]
    exact ih _

theorem allRead_append {gs : List Field} : AllRead w (fs ++ gs) ↔ AllRead w fs ∧ AllRead w gs := by
  induction fs with
  | nil => exact (iff_of_eq (true_and _)).symm
  | cons f fs ih => exact (and_congr_right fun _ => ih).trans and_assoc.symm

end Fields

/-! ### The envelope (R40, R269) -/

noncomputable def envFields (eop : BitVec 8) (kind : BitVec 3) (e : Envelope) : List Field :=
  [.at eop 248, .at kind 245, .at (BitVec.ofBool e.cmpl) 244, .at e.prio 242, .at e.cwa 192]

noncomputable def envShape : List (Nat × Nat) := [(248, 8), (245, 3), (244, 1), (242, 2), (192, 48)]

theorem word_append {n m p : Nat} (x : BitVec n) (y : BitVec m) :
    (Field.at (x ++ y) p).word = (Field.at x (p + m)).word ||| (Field.at y p).word := by
  apply BitVec.eq_of_getLsbD_eq
  intro i hi
  rw [BitVec.getLsbD_or, Field.getLsbD_word, Field.getLsbD_word, Field.getLsbD_word]
  dsimp only
  rw [BitVec.getLsbD_append, decide_eq_true hi]
  rcases Nat.lt_or_ge i (p + m) with h | h
  · rw [decide_eq_false (Nat.not_le.2 h)]
    rcases Nat.lt_or_ge i p with h' | h'
    · rw [decide_eq_false (Nat.not_le.2 h')]; rfl
    · rw [if_pos (Nat.sub_lt_left_of_lt_add h' h)]; rfl
  · rw [decide_eq_true h, decide_eq_true (Nat.le_trans (Nat.le_add_right ..) h), if_neg (Nat.not_lt.2 (Nat.le_sub_of_add_le' h)),
      BitVec.getLsbD_of_ge y _ (Nat.le_sub_of_add_le' h),
      Nat.sub_sub, Bool.and_false, Bool.or_false]

theorem word_zero (n p : Nat) : (Field.at 0#n p).word = 0#256 := by unfold Field.word; rw [BitVec.setWidth_zero, BitVec.zero_shiftLeft]

theorem encEnv_eq_assemble (eop : BitVec 8) (kind : BitVec 3) (e : Envelope) :
    encEnv eop kind e = assemble 0#256 (envFields eop kind e) := by
  have hself : encEnv eop kind e = (Field.at (encEnv eop kind e) 0).word := by unfold Field.word; rw [BitVec.setWidth_eq, BitVec.shiftLeft_zero]
  rw [hself]
  unfold encEnv
  refine (word_append (n := 8 + 3 + 1 + 2 + 2 + 48) _ _).trans ?_
  rw [word_append, word_append, word_append, word_append, word_append]
  have hz (a b c d e z z' : CWord) (h : z = 0#256) (h' : z' = 0#256) :
      a ||| b ||| c ||| d ||| z ||| e ||| z' = 0#256 ||| a ||| b ||| c ||| d ||| e := by
    rw [h, h', BitVec.or_zero, BitVec.or_zero, BitVec.zero_or]
  exact hz _ _ _ _ _ _ _ (word_zero ..) (word_zero ..)

theorem assemble_envFields (w : CWord) :
    envFields (w.extractLsb' 248 8) (w.extractLsb' 245 3) (cEnv w) = readAll w envShape := by
  unfold envFields cEnv cCmpl
  rw [← extractLsb'_one]
  rfl

/-! ### Bodies -/

/-- How the body of a command word is laid out: the encoder writes these fields, the decoder reads them, and the must-be-zero bits are the
bits outside them and the envelope. -/
structure Layout {C : Type} (read : CWord → C) (bits : C → CWord) (mbz : CWord) (fields : C → List Field) (ps : List (Nat × Nat)) :
    Prop where
  bits_eq : ∀ c, bits c = body (fields c)
  shape_eq : ∀ c, (fields c).map Field.shape = ps
  fields_read : ∀ w, fields (read w) = readAll w ps
  read_eq : ∀ w c, AllRead w (fields c) → read w = c
  fits : fits 256 (envShape ++ ps) = true
  mask_eq : maskOf (envShape ++ ps) = ~~~ mbz

theorem layout_cpy : Layout cpyOf cpyBits cpyMbz (fun c => [.at c.dst 144, .at c.src 96, .at c.len 64])
    [(144, 48), (96, 48), (64, 32)] where
  bits_eq _ := rfl
  shape_eq _ := rfl
  fields_read _ := rfl
  read_eq := by
    rintro _ ⟨⟩ h
    dsimp only [AllRead] at h
    obtain ⟨rfl, rfl, rfl, -⟩ := h
    rfl
  fits := rfl
  mask_eq := by decide

theorem layout_cpy2 : Layout cpy2Of cpy2Bits cpy2Mbz (fun c => [.at c.dst 144, .at c.src 96, .at c.dstride 72, .at c.sstride 48,
      .at c.nrows 32, .at c.rowlen 12])
    [(144, 48), (96, 48), (72, 24), (48, 24), (32, 16), (12, 20)] where
  bits_eq _ := rfl
  shape_eq _ := rfl
  fields_read _ := rfl
  read_eq := by
    rintro _ ⟨⟩ h
    dsimp only [AllRead] at h
    obtain ⟨rfl, rfl, rfl, rfl, rfl, rfl, -⟩ := h
    rfl
  fits := rfl
  mask_eq := by decide

theorem layout_gath : Layout gathOf gathBits gathMbz (fun c => [.at c.dst 144, .at c.tbl 96, .at c.idx 48, .at c.nidx 32, .at c.iw 31,
      .at c.rowlen 10])
    [(144, 48), (96, 48), (48, 48), (32, 16), (31, 1), (10, 20)] where
  bits_eq _ := rfl
  shape_eq _ := rfl
  fields_read _ := rfl
  read_eq := by
    rintro _ ⟨⟩ h
    dsimp only [AllRead] at h
    obtain ⟨rfl, rfl, rfl, rfl, rfl, rfl, -⟩ := h
    rfl
  fits := rfl
  mask_eq := by decide

theorem layout_scat : Layout scatOf scatBits scatMbz (fun c => [.at c.tbl 144, .at c.src 96, .at c.idx 48, .at c.nidx 32, .at c.iw 31,
      .at c.rowlen 10])
    [(144, 48), (96, 48), (48, 48), (32, 16), (31, 1), (10, 20)] where
  bits_eq _ := rfl
  shape_eq _ := rfl
  fields_read _ := rfl
  read_eq := by
    rintro _ ⟨⟩ h
    dsimp only [AllRead] at h
    obtain ⟨rfl, rfl, rfl, rfl, rfl, rfl, -⟩ := h
    rfl
  fits := rfl
  mask_eq := by decide

theorem layout_fill : Layout fillOf fillBits fillMbz (fun c => [.at c.dst 144, .at c.len 112, .at c.pattern 0])
    [(144, 48), (112, 32), (0, 64)] where
  bits_eq _ := rfl
  shape_eq _ := rfl
  fields_read _ := rfl
  read_eq := by
    rintro _ ⟨⟩ h
    dsimp only [AllRead] at h
    obtain ⟨rfl, rfl, rfl, -⟩ := h
    rfl
  fits := rfl
  mask_eq := by decide

theorem layout_coll : Layout collOf collBits collMbz (fun c => [.at c.dst 144, .at c.src 96, .at c.grp 80, .at c.seq 48, .at c.count 20,
      .at c.fmt 15, .at c.op 12])
    [(144, 48), (96, 48), (80, 16), (48, 32), (20, 28), (15, 5), (12, 3)] where
  bits_eq _ := rfl
  shape_eq _ := rfl
  fields_read _ := rfl
  read_eq := by
    rintro _ ⟨⟩ h
    dsimp only [AllRead] at h
    obtain ⟨rfl, rfl, rfl, rfl, rfl, rfl, rfl, -⟩ := h
    rfl
  fits := rfl
  mask_eq := by decide

theorem layout_mma : Layout mmaOf mmaBits mmaMbz (fun c => [.at c.aaddr 144, .at c.astride 120, .at c.ct 113, .at c.boff 96,
      .at c.bcol 90, .at c.m1 84, .at c.n1 78, .at c.g 66, .at c.ck 65, .at c.zc 64])
    [(144, 48), (120, 24), (113, 7), (96, 17), (90, 6), (84, 6), (78, 6), (66, 12), (65, 1), (64, 1)] where
  bits_eq _ := rfl
  shape_eq _ := rfl
  fields_read _ := rfl
  read_eq := by
    rintro _ ⟨⟩ h
    dsimp only [AllRead] at h
    obtain ⟨rfl, rfl, rfl, rfl, rfl, rfl, rfl, rfl, rfl, rfl, -⟩ := h
    rfl
  fits := rfl
  mask_eq := by decide

theorem layout_mmap : Layout mmapOf mmapBits mmapMbz (fun c => [.at c.aaddr 144, .at c.astride 120, .at c.ct 113, .at c.boff 96,
      .at c.bcol 90, .at c.m1 84, .at c.n1 78, .at c.g 66, .at c.init 65, .at c.iv 32])
    [(144, 48), (120, 24), (113, 7), (96, 17), (90, 6), (84, 6), (78, 6), (66, 12), (65, 1), (32, 32)] where
  bits_eq _ := rfl
  shape_eq _ := rfl
  fields_read _ := rfl
  read_eq := by
    rintro _ ⟨⟩ h
    dsimp only [AllRead] at h
    obtain ⟨rfl, rfl, rfl, rfl, rfl, rfl, rfl, rfl, rfl, rfl, -⟩ := h
    rfl
  fits := rfl
  mask_eq := by decide

theorem layout_bload : Layout bloadOf bloadBits bloadMbz (fun c => [.at c.src 144, .at c.sstride 120, .at c.boff 103, .at c.bcol 97,
      .at c.n1 91, .at c.len32 78])
    [(144, 48), (120, 24), (103, 17), (97, 6), (91, 6), (78, 13)] where
  bits_eq _ := rfl
  shape_eq _ := rfl
  fields_read _ := rfl
  read_eq := by
    rintro _ ⟨⟩ h
    dsimp only [AllRead] at h
    obtain ⟨rfl, rfl, rfl, rfl, rfl, rfl, -⟩ := h
    rfl
  fits := rfl
  mask_eq := by decide

theorem layout_mred : Layout mredOf mredBits mredMbz (fun c => [.at c.maddr 144, .at c.mstride 120, .at c.dt 113, .at c.ns 110,
      .at c.s0 103, .at c.s1 96, .at c.s2 89, .at c.s3 82, .at c.m1 76, .at c.n1 70, .at c.mmode 68])
    [(144, 48), (120, 24), (113, 7), (110, 3), (103, 7), (96, 7), (89, 7), (82, 7), (76, 6), (70, 6), (68, 2)] where
  bits_eq _ := rfl
  shape_eq _ := rfl
  fields_read _ := rfl
  read_eq := by
    rintro _ ⟨⟩ h
    dsimp only [AllRead] at h
    obtain ⟨rfl, rfl, rfl, rfl, rfl, rfl, rfl, rfl, rfl, rfl, rfl, -⟩ := h
    rfl
  fits := rfl
  mask_eq := by decide

theorem layout_spmm : Layout spmmOf spmmBits spmmMbz (fun c => [.at c.smd 144, .at c.xaddr 96, .at c.xstride 72, .at c.ct 65,
      .at c.row0 49, .at c.m1 43, .at c.n1 37, .at c.zc 36])
    [(144, 48), (96, 48), (72, 24), (65, 7), (49, 16), (43, 6), (37, 6), (36, 1)] where
  bits_eq _ := rfl
  shape_eq _ := rfl
  fields_read _ := rfl
  read_eq := by
    rintro _ ⟨⟩ h
    dsimp only [AllRead] at h
    obtain ⟨rfl, rfl, rfl, rfl, rfl, rfl, rfl, rfl, -⟩ := h
    rfl
  fits := rfl
  mask_eq := by decide

theorem layout_sddmm : Layout sddmmOf sddmmBits sddmmMbz (fun c => [.at c.smd 144, .at c.paddr 96, .at c.qaddr 48, .at c.row0 32,
      .at c.m1 26, .at c.g 14])
    [(144, 48), (96, 48), (48, 48), (32, 16), (26, 6), (14, 12)] where
  bits_eq _ := rfl
  shape_eq _ := rfl
  fields_read _ := rfl
  read_eq := by
    rintro _ ⟨⟩ h
    dsimp only [AllRead] at h
    obtain ⟨rfl, rfl, rfl, rfl, rfl, rfl, -⟩ := h
    rfl
  fits := rfl
  mask_eq := by decide

theorem layout_spgath : Layout spgathOf spgathBits spgathMbz (fun c => [.at c.dst 144, .at c.tbl 96, .at c.idx 48, .at c.nidx 32,
      .at c.iw 31, .at c.rowlen 18])
    [(144, 48), (96, 48), (48, 48), (32, 16), (31, 1), (18, 13)] where
  bits_eq _ := rfl
  shape_eq _ := rfl
  fields_read _ := rfl
  read_eq := by
    rintro _ ⟨⟩ h
    dsimp only [AllRead] at h
    obtain ⟨rfl, rfl, rfl, rfl, rfl, rfl, -⟩ := h
    rfl
  fits := rfl
  mask_eq := by decide

theorem layout_segred : Layout segredOf segredBits segredMbz (fun c => [.at c.keys 144, .at c.vals 96, .at c.dst 48, .at c.n 32,
      .at c.rowlen 19, .at c.op 16])
    [(144, 48), (96, 48), (48, 48), (32, 16), (19, 13), (16, 3)] where
  bits_eq _ := rfl
  shape_eq _ := rfl
  fields_read _ := rfl
  read_eq := by
    rintro _ ⟨⟩ h
    dsimp only [AllRead] at h
    obtain ⟨rfl, rfl, rfl, rfl, rfl, rfl, -⟩ := h
    rfl
  fits := rfl
  mask_eq := by decide

theorem layout_sortkv : Layout sortkvOf sortkvBits sortkvMbz (fun c => [.at c.src 144, .at c.dst 96, .at c.n 83, .at c.kt 81,
      .at c.desc 80])
    [(144, 48), (96, 48), (83, 13), (81, 2), (80, 1)] where
  bits_eq _ := rfl
  shape_eq _ := rfl
  fields_read _ := rfl
  read_eq := by
    rintro _ ⟨⟩ h
    dsimp only [AllRead] at h
    obtain ⟨rfl, rfl, rfl, rfl, rfl, -⟩ := h
    rfl
  fits := rfl
  mask_eq := by decide

theorem layout_topk : Layout topkOf topkBits topkMbz (fun c => [.at c.src 144, .at c.oidx 96, .at c.oval 48, .at c.nrows 32, .at c.l 19,
      .at c.k 12])
    [(144, 48), (96, 48), (48, 48), (32, 16), (19, 13), (12, 7)] where
  bits_eq _ := rfl
  shape_eq _ := rfl
  fields_read _ := rfl
  read_eq := by
    rintro _ ⟨⟩ h
    dsimp only [AllRead] at h
    obtain ⟨rfl, rfl, rfl, rfl, rfl, rfl, -⟩ := h
    rfl
  fits := rfl
  mask_eq := by decide

theorem layout_attn : Layout attnOf attnBits attnMbz (fun c => [.at c.adesc 144, .at c.qaddr 96, .at c.oaddr 48, .at c.layer 40,
      .at c.nq1 34, .at c.qpos 10, .at c.causal 9])
    [(144, 48), (96, 48), (48, 48), (40, 8), (34, 6), (10, 24), (9, 1)] where
  bits_eq _ := rfl
  shape_eq _ := rfl
  fields_read _ := rfl
  read_eq := by
    rintro _ ⟨⟩ h
    dsimp only [AllRead] at h
    obtain ⟨rfl, rfl, rfl, rfl, rfl, rfl, rfl, -⟩ := h
    rfl
  fits := rfl
  mask_eq := by decide

theorem layout_kvapp : Layout kvappOf kvappBits kvappMbz (fun c => [.at c.adesc 144, .at c.ksrc 96, .at c.vsrc 48, .at c.layer 40,
      .at c.entry 28, .at c.slot0 23, .at c.nt 17, .at c.rot 16, .at c.ext 15])
    [(144, 48), (96, 48), (48, 48), (40, 8), (28, 12), (23, 5), (17, 6), (16, 1), (15, 1)] where
  bits_eq _ := rfl
  shape_eq _ := rfl
  fields_read _ := rfl
  read_eq := by
    rintro _ ⟨⟩ h
    dsimp only [AllRead] at h
    obtain ⟨rfl, rfl, rfl, rfl, rfl, rfl, rfl, rfl, rfl, -⟩ := h
    rfl
  fits := rfl
  mask_eq := by decide

theorem layout_kvdev : Layout kvdevOf kvdevBits kvdevMbz (fun c => [.at c.adesc 144, .at c.fresh 96, .at c.devout 48, .at c.entry 36,
      .at c.slot0 31, .at c.nt 25])
    [(144, 48), (96, 48), (48, 48), (36, 12), (31, 5), (25, 6)] where
  bits_eq _ := rfl
  shape_eq _ := rfl
  fields_read _ := rfl
  read_eq := by
    rintro _ ⟨⟩ h
    dsimp only [AllRead] at h
    obtain ⟨rfl, rfl, rfl, rfl, rfl, rfl, -⟩ := h
    rfl
  fits := rfl
  mask_eq := by decide

theorem layout_arot : Layout arotOf arotBits arotMbz (fun c => [.at c.addr 144, .at c.stride 120, .at c.pos0 96, .at c.nrows 80,
      .at c.dh 71, .at c.nh1 65])
    [(144, 48), (120, 24), (96, 24), (80, 16), (71, 9), (65, 6)] where
  bits_eq _ := rfl
  shape_eq _ := rfl
  fields_read _ := rfl
  read_eq := by
    rintro _ ⟨⟩ h
    dsimp only [AllRead] at h
    obtain ⟨rfl, rfl, rfl, rfl, rfl, rfl, -⟩ := h
    rfl
  fits := rfl
  mask_eq := by decide

theorem layout_velt : Layout veltOf veltBits veltMbz (fun c => [.at c.dst 144, .at c.a 96, .at c.b 48, .at c.n 24, .at c.op 18,
      .at c.bs 17])
    [(144, 48), (96, 48), (48, 48), (24, 24), (18, 6), (17, 1)] where
  bits_eq _ := rfl
  shape_eq _ := rfl
  fields_read _ := rfl
  read_eq := by
    rintro _ ⟨⟩ h
    dsimp only [AllRead] at h
    obtain ⟨rfl, rfl, rfl, rfl, rfl, rfl, -⟩ := h
    rfl
  fits := rfl
  mask_eq := by decide

theorem layout_vred : Layout vredOf vredBits vredMbz (fun c => [.at c.dst 144, .at c.src 96, .at c.sstride 72, .at c.n 48,
      .at c.nrows 32, .at c.op 29])
    [(144, 48), (96, 48), (72, 24), (48, 24), (32, 16), (29, 3)] where
  bits_eq _ := rfl
  shape_eq _ := rfl
  fields_read _ := rfl
  read_eq := by
    rintro _ ⟨⟩ h
    dsimp only [AllRead] at h
    obtain ⟨rfl, rfl, rfl, rfl, rfl, rfl, -⟩ := h
    rfl
  fits := rfl
  mask_eq := by decide

theorem layout_vscan : Layout vscanOf vscanBits vscanMbz (fun c => [.at c.dst 144, .at c.src 96, .at c.n 72, .at c.op 69, .at c.excl 68])
    [(144, 48), (96, 48), (72, 24), (69, 3), (68, 1)] where
  bits_eq _ := rfl
  shape_eq _ := rfl
  fields_read _ := rfl
  read_eq := by
    rintro _ ⟨⟩ h
    dsimp only [AllRead] at h
    obtain ⟨rfl, rfl, rfl, rfl, rfl, -⟩ := h
    rfl
  fits := rfl
  mask_eq := by decide

theorem layout_vcvt : Layout vcvtOf vcvtBits vcvtMbz (fun c => [.at c.dst 144, .at c.src 96, .at c.rowlen 72, .at c.nrows 48])
    [(144, 48), (96, 48), (72, 24), (48, 24)] where
  bits_eq _ := rfl
  shape_eq _ := rfl
  fields_read _ := rfl
  read_eq := by
    rintro _ ⟨⟩ h
    dsimp only [AllRead] at h
    obtain ⟨rfl, rfl, rfl, rfl, -⟩ := h
    rfl
  fits := rfl
  mask_eq := by decide

theorem layout_vnorm : Layout vnormOf vnormBits vnormMbz (fun c => [.at c.dst 144, .at c.src 96, .at c.prm 48, .at c.n 35,
      .at c.nrows 19, .at c.mode 18])
    [(144, 48), (96, 48), (48, 48), (35, 13), (19, 16), (18, 1)] where
  bits_eq _ := rfl
  shape_eq _ := rfl
  fields_read _ := rfl
  read_eq := by
    rintro _ ⟨⟩ h
    dsimp only [AllRead] at h
    obtain ⟨rfl, rfl, rfl, rfl, rfl, rfl, -⟩ := h
    rfl
  fits := rfl
  mask_eq := by decide

theorem layout_vtrn : Layout vtrnOf vtrnBits vtrnMbz (fun c => [.at c.dst 144, .at c.src 96, .at c.rows 80, .at c.cols 64,
      .at c.sstride 40, .at c.dstride 16])
    [(144, 48), (96, 48), (80, 16), (64, 16), (40, 24), (16, 24)] where
  bits_eq _ := rfl
  shape_eq _ := rfl
  fields_read _ := rfl
  read_eq := by
    rintro _ ⟨⟩ h
    dsimp only [AllRead] at h
    obtain ⟨rfl, rfl, rfl, rfl, rfl, rfl, -⟩ := h
    rfl
  fits := rfl
  mask_eq := by decide

theorem layout_vidx : Layout vidxOf vidxBits vidxMbz (fun c => [.at c.dst 144, .at c.src 96, .at c.base 64, .at c.step 32, .at c.n 8,
      .at c.mode 6])
    [(144, 48), (96, 48), (64, 32), (32, 32), (8, 24), (6, 2)] where
  bits_eq _ := rfl
  shape_eq _ := rfl
  fields_read _ := rfl
  read_eq := by
    rintro _ ⟨⟩ h
    dsimp only [AllRead] at h
    obtain ⟨rfl, rfl, rfl, rfl, rfl, rfl, -⟩ := h
    rfl
  fits := rfl
  mask_eq := by decide

/-! ### Decoding inverts encoding, and the other way -/

/-- The decoder of `decodeCmd` for an EOP. -/
noncomputable def decodeEop (w : CWord) : Nat → Except DecodeError Instr
  | 0x01 => needClear cpyMbz w (.cpy (cEnv w) (cpyOf w))
  | 0x02 => needClear cpy2Mbz w (.cpy2 (cEnv w) (cpy2Of w))
  | 0x03 => needClear gathMbz w (.gath (cEnv w) (gathOf w))
  | 0x04 => needClear scatMbz w (.scat (cEnv w) (scatOf w))
  | 0x05 => needClear fillMbz w (.fill (cEnv w) (fillOf w))
  | 0x50 => needClear collMbz w (.callr (cEnv w) (collOf w))
  | 0x51 => needClear collMbz w (.cagth (cEnv w) (collOf w))
  | 0x52 => needClear collMbz w (.crsct (cEnv w) (collOf w))
  | 0x10 => needClear mmaMbz w (.mma (cEnv w) (mmaOf w))
  | 0x11 => needClear mmapMbz w (.mmap (cEnv w) (mmapOf w))
  | 0x12 => needClear bloadMbz w (.bload (cEnv w) (bloadOf w))
  | 0x13 => needClear mredMbz w (.mred (cEnv w) (mredOf w))
  | 0x20 => needClear spmmMbz w (.spmm (cEnv w) (spmmOf w))
  | 0x21 => needClear sddmmMbz w (.sddmm (cEnv w) (sddmmOf w))
  | 0x22 => needClear spgathMbz w (.spgath (cEnv w) (spgathOf w))
  | 0x23 => needClear segredMbz w (.segred (cEnv w) (segredOf w))
  | 0x24 => needClear sortkvMbz w (.sortkv (cEnv w) (sortkvOf w))
  | 0x25 => needClear topkMbz w (.topk (cEnv w) (topkOf w))
  | 0x30 => needClear attnMbz w (.attn (cEnv w) (attnOf w))
  | 0x31 => needClear attnMbz w (.adec (cEnv w) (attnOf w))
  | 0x32 => needClear kvappMbz w (.kvapp (cEnv w) (kvappOf w))
  | 0x33 => needClear kvdevMbz w (.kvdev (cEnv w) (kvdevOf w))
  | 0x34 => needClear arotMbz w (.arot (cEnv w) (arotOf w))
  | 0x40 => needClear veltMbz w (.vbin (cEnv w) (veltOf w))
  | 0x41 => needClear veltMbz w (.vun (cEnv w) (veltOf w))
  | 0x42 => needClear veltMbz w (.vfma (cEnv w) (veltOf w))
  | 0x43 => needClear vredMbz w (.vred (cEnv w) (vredOf w))
  | 0x44 => needClear vscanMbz w (.vscan (cEnv w) (vscanOf w))
  | 0x45 => needClear vcvtMbz w (.vcvt (cEnv w) (vcvtOf w))
  | 0x46 => needClear veltMbz w (.vsel (cEnv w) (veltOf w))
  | 0x47 => needClear vnormMbz w (.vnorm (cEnv w) (vnormOf w))
  | 0x48 => needClear vtrnMbz w (.vtrn (cEnv w) (vtrnOf w))
  | 0x49 => needClear vidxMbz w (.vidx (cEnv w) (vidxOf w))
  | _ => .error .unknownEop

theorem decodeCmd_of_cEop {w : CWord} (h : kindOfEop (cEop w) = some (cKind w)) : decodeCmd w = decodeEop w (cEop w) := by
  unfold decodeCmd
  rw [h]
  exact if_pos (beq_self_eq_true _)

theorem kind_of_decodeCmd {w : CWord} {i : Instr} (h : decodeCmd w = .ok i) : kindOfEop (cEop w) = some (cKind w) := by
  unfold decodeCmd at h
  cases hk : kindOfEop (cEop w) with
  | none =>
    rw [hk] at h
    exact not_of_error h
  | some k =>
    rw [hk] at h
    cases hc : cKind w == k with
    | true => rw [eq_of_beq hc]
    | false => exact not_of_error ((if_neg (hc ▸ Bool.false_ne_true)).symm.trans h)

namespace Layout
variable {C : Type} {read : CWord → C} {bits : C → CWord} {mbz : CWord} {fields : C → List Field} {ps : List (Nat × Nat)}
  (L : Layout read bits mbz fields ps) {eop : BitVec 8} {kind : BitVec 3} {e : Envelope} {c : C}
include L

theorem word_eq (eop : BitVec 8) (kind : BitVec 3) (e : Envelope) (c : C) :
    encEnv eop kind e ||| bits c = assemble 0#256 (envFields eop kind e ++ fields c) := by
  rw [L.bits_eq, or_body, encEnv_eq_assemble]
  unfold assemble
  rw [List.foldl_append]

theorem shape_word : (envFields eop kind e ++ fields c).map Field.shape = envShape ++ ps := by
  rw [List.map_append, L.shape_eq]
  rfl

theorem allRead_word (eop : BitVec 8) (kind : BitVec 3) (e : Envelope) (c : C) :
    AllRead (encEnv eop kind e ||| bits c) (envFields eop kind e) ∧ AllRead (encEnv eop kind e ||| bits c) (fields c) := by
  rw [← allRead_append, L.word_eq]
  exact allRead_assemble (fun _ _ _ => BitVec.extractLsb'_zero) (Nat.le_refl 256) (L.shape_word.symm ▸ L.fits)

theorem word_clear (eop : BitVec 8) (kind : BitVec 3) (e : Envelope) (c : C) : (encEnv eop kind e ||| bits c) &&& mbz = 0#256 := by
  rw [L.word_eq]
  refine assemble_and_eq_zero BitVec.zero_and ?_
  rw [L.shape_word, L.mask_eq, BitVec.and_comm]
  exact BitVec.and_not_self _

/-- A word without a must-be-zero bit is the assembly of its fields. -/
theorem word_of_fields {w : CWord} (h : w &&& mbz = 0#256) :
    encEnv (w.extractLsb' 248 8) (w.extractLsb' 245 3) (cEnv w) ||| bits (read w) = w := by
  have hread : readAll w envShape ++ readAll w ps = readAll w (envShape ++ ps) :=
    (List.map_append ..).symm
  rw [L.word_eq, assemble_envFields, L.fields_read, hread, assemble_readAll, L.mask_eq, BitVec.zero_or]
  calc w &&& ~~~mbz = (w &&& ~~~mbz) ||| (w &&& mbz) := by rw [h, BitVec.or_zero]
    _ = w := by rw [← BitVec.and_or_distrib_left, BitVec.or_comm, BitVec.or_not_self, BitVec.and_allOnes]

/-- Decoding an assembled command word, for a command whose EOP and KIND lead the decoder to its body. -/
theorem decode (mk : Envelope → C → Instr) (e : Envelope) (c : C) (hwf : e.wf = true) (hkind : kindOfEop eop.toNat = some kind.toNat)
    (hdec : ∀ w, decodeEop w eop.toNat = needClear mbz w (mk (cEnv w) (read w))) : decodeCmd (encEnv eop kind e ||| bits c) = .ok (mk e c) := by
  obtain ⟨⟨heop, hk, hcmpl, hprio, hcwa, -⟩, hbody⟩ := L.allRead_word eop kind e c
  have hz := L.word_clear eop kind e c
  generalize encEnv eop kind e ||| bits c = w at heop hk hcmpl hprio hcwa hbody hz
  have heop : cEop w = eop.toNat := congrArg BitVec.toNat heop
  have hk : cKind w = kind.toNat := congrArg BitVec.toNat hk
  have henv : cEnv w = e := by
    unfold Field.at at hcmpl
    rw [extractLsb'_one] at hcmpl
    unfold cEnv cCmpl
    rw [BitVec.ofBool_eq_iff_eq.1 hcmpl]
    unfold cPrio
    rw [hprio]
    unfold cCwa
    rw [hcwa]
  rw [decodeCmd_of_cEop (by rw [heop, hk, hkind]), heop, hdec]
  unfold needClear
  rw [hz, henv, hwf, L.read_eq w c hbody]
  rfl

end Layout

/-- The word of a command decodes to it. -/
theorem decodeCmd_of_encodeCmd {i : Instr} (hwf : i.wf = true) : (encodeCmd i).elim True fun w => decodeCmd w = .ok i := by
  induction i with
  | cpy e c => exact layout_cpy.decode .cpy e c hwf rfl (fun _ => rfl)
  | cpy2 e c => exact layout_cpy2.decode .cpy2 e c hwf rfl (fun _ => rfl)
  | gath e c => exact layout_gath.decode .gath e c hwf rfl (fun _ => rfl)
  | scat e c => exact layout_scat.decode .scat e c hwf rfl (fun _ => rfl)
  | fill e c => exact layout_fill.decode .fill e c hwf rfl (fun _ => rfl)
  | callr e c => exact layout_coll.decode .callr e c hwf rfl (fun _ => rfl)
  | cagth e c => exact layout_coll.decode .cagth e c hwf rfl (fun _ => rfl)
  | crsct e c => exact layout_coll.decode .crsct e c hwf rfl (fun _ => rfl)
  | mma e c => exact layout_mma.decode .mma e c hwf rfl (fun _ => rfl)
  | mmap e c => exact layout_mmap.decode .mmap e c hwf rfl (fun _ => rfl)
  | bload e c => exact layout_bload.decode .bload e c hwf rfl (fun _ => rfl)
  | mred e c => exact layout_mred.decode .mred e c hwf rfl (fun _ => rfl)
  | spmm e c => exact layout_spmm.decode .spmm e c hwf rfl (fun _ => rfl)
  | sddmm e c => exact layout_sddmm.decode .sddmm e c hwf rfl (fun _ => rfl)
  | spgath e c => exact layout_spgath.decode .spgath e c hwf rfl (fun _ => rfl)
  | segred e c => exact layout_segred.decode .segred e c hwf rfl (fun _ => rfl)
  | sortkv e c => exact layout_sortkv.decode .sortkv e c hwf rfl (fun _ => rfl)
  | topk e c => exact layout_topk.decode .topk e c hwf rfl (fun _ => rfl)
  | attn e c => exact layout_attn.decode .attn e c hwf rfl (fun _ => rfl)
  | adec e c => exact layout_attn.decode .adec e c hwf rfl (fun _ => rfl)
  | kvapp e c => exact layout_kvapp.decode .kvapp e c hwf rfl (fun _ => rfl)
  | kvdev e c => exact layout_kvdev.decode .kvdev e c hwf rfl (fun _ => rfl)
  | arot e c => exact layout_arot.decode .arot e c hwf rfl (fun _ => rfl)
  | vbin e c => exact layout_velt.decode .vbin e c hwf rfl (fun _ => rfl)
  | vun e c => exact layout_velt.decode .vun e c hwf rfl (fun _ => rfl)
  | vfma e c => exact layout_velt.decode .vfma e c hwf rfl (fun _ => rfl)
  | vred e c => exact layout_vred.decode .vred e c hwf rfl (fun _ => rfl)
  | vscan e c => exact layout_vscan.decode .vscan e c hwf rfl (fun _ => rfl)
  | vcvt e c => exact layout_vcvt.decode .vcvt e c hwf rfl (fun _ => rfl)
  | vsel e c => exact layout_velt.decode .vsel e c hwf rfl (fun _ => rfl)
  | vnorm e c => exact layout_vnorm.decode .vnorm e c hwf rfl (fun _ => rfl)
  | vtrn e c => exact layout_vtrn.decode .vtrn e c hwf rfl (fun _ => rfl)
  | vidx e c => exact layout_vidx.decode .vidx e c hwf rfl (fun _ => rfl)
  | _ => trivial

theorem decodeCmd_encodeCmd {i : Instr} {w : CWord} (hwf : i.wf = true) (h : encodeCmd i = some w) : decodeCmd w = .ok i := by
  have hi := decodeCmd_of_encodeCmd hwf
  rwa [h] at hi

theorem of_needClear_eq_ok {mbz w : CWord} {i j : Instr} (h : needClear mbz w i = .ok j) :
    (w &&& mbz = 0#256 ∧ (cEnv w).wf = true) ∧ i = j := by
  unfold needClear at h
  split at h
  · rename_i hok
    obtain ⟨hz, he⟩ := Bool.and_eq_true_iff.1 hok
    exact ⟨⟨eq_of_beq hz, he⟩, Except.ok.inj h⟩
  · exact not_of_error h

/-- A command word that passes the checks of its body is the encoding of the envelope and the fields read from it. -/
theorem Layout.encode {C : Type} {read : CWord → C} {bits : C → CWord} {mbz : CWord} {fields : C → List Field} {ps : List (Nat × Nat)}
    (L : Layout read bits mbz fields ps) {w : CWord} {i j : Instr} {eop : Nat} (h : needClear mbz w i = .ok j) (heop : cEop w = eop)
    (hkind : kindOfEop eop = some (cKind w)) (hwf : i.wf = (cEnv w).wf)
    (henc : encodeCmd i = some (encEnv (BitVec.ofNat 8 eop) (BitVec.ofNat 3 ((kindOfEop eop).getD 0)) (cEnv w) ||| bits (read w))) :
    j.wf = true ∧ encodeCmd j = some w := by
  obtain ⟨⟨hz, he⟩, rfl⟩ := of_needClear_eq_ok h
  have hk : BitVec.ofNat 3 ((kindOfEop eop).getD 0) = w.extractLsb' 245 3 := by rw [hkind]; exact (eq_ofNat_of_toNat rfl).symm
  rw [hwf, henc, hk, ← eq_ofNat_of_toNat heop, L.word_of_fields hz]
  exact ⟨he, rfl⟩

theorem encodes_of_decodeCmd {w : CWord} {i : Instr} (h : decodeCmd w = .ok i) : i.wf = true ∧ encodeCmd i = some w := by
  have heop : Below (fun k => cEop w = k → kindOfEop k = some (cKind w) → decodeEop w k = .ok i → i.wf = true ∧ encodeCmd i = some w) 83 := by
    iterate 3 refine .succ ?_ fun he hk h => layout_coll.encode h he hk rfl rfl
    iterate 6 refine .succ ?_ fun _ _ h => not_of_error h
    refine .succ ?_ fun he hk h => layout_vidx.encode h he hk rfl rfl
    refine .succ ?_ fun he hk h => layout_vtrn.encode h he hk rfl rfl
    refine .succ ?_ fun he hk h => layout_vnorm.encode h he hk rfl rfl
    refine .succ ?_ fun he hk h => layout_velt.encode h he hk rfl rfl
    refine .succ ?_ fun he hk h => layout_vcvt.encode h he hk rfl rfl
    refine .succ ?_ fun he hk h => layout_vscan.encode h he hk rfl rfl
    refine .succ ?_ fun he hk h => layout_vred.encode h he hk rfl rfl
    iterate 3 refine .succ ?_ fun he hk h => layout_velt.encode h he hk rfl rfl
    iterate 11 refine .succ ?_ fun _ _ h => not_of_error h
    refine .succ ?_ fun he hk h => layout_arot.encode h he hk rfl rfl
    refine .succ ?_ fun he hk h => layout_kvdev.encode h he hk rfl rfl
    refine .succ ?_ fun he hk h => layout_kvapp.encode h he hk rfl rfl
    iterate 2 refine .succ ?_ fun he hk h => layout_attn.encode h he hk rfl rfl
    iterate 10 refine .succ ?_ fun _ _ h => not_of_error h
    refine .succ ?_ fun he hk h => layout_topk.encode h he hk rfl rfl
    refine .succ ?_ fun he hk h => layout_sortkv.encode h he hk rfl rfl
    refine .succ ?_ fun he hk h => layout_segred.encode h he hk rfl rfl
    refine .succ ?_ fun he hk h => layout_spgath.encode h he hk rfl rfl
    refine .succ ?_ fun he hk h => layout_sddmm.encode h he hk rfl rfl
    refine .succ ?_ fun he hk h => layout_spmm.encode h he hk rfl rfl
    iterate 12 refine .succ ?_ fun _ _ h => not_of_error h
    refine .succ ?_ fun he hk h => layout_mred.encode h he hk rfl rfl
    refine .succ ?_ fun he hk h => layout_bload.encode h he hk rfl rfl
    refine .succ ?_ fun he hk h => layout_mmap.encode h he hk rfl rfl
    refine .succ ?_ fun he hk h => layout_mma.encode h he hk rfl rfl
    iterate 10 refine .succ ?_ fun _ _ h => not_of_error h
    refine .succ ?_ fun he hk h => layout_fill.encode h he hk rfl rfl
    refine .succ ?_ fun he hk h => layout_scat.encode h he hk rfl rfl
    refine .succ ?_ fun he hk h => layout_gath.encode h he hk rfl rfl
    refine .succ ?_ fun he hk h => layout_cpy2.encode h he hk rfl rfl
    refine .succ ?_ fun he hk h => layout_cpy.encode h he hk rfl rfl
    refine .succ ?_ fun _ _ h => not_of_error h
    exact .zero
  have hkind := kind_of_decodeCmd h
  rw [decodeCmd_of_cEop hkind] at h
  rcases Nat.lt_or_ge (cEop w) 83 with he | he
  · exact heop.of_lt he rfl hkind h
  · obtain ⟨k, hk⟩ := Nat.exists_eq_add_of_le' he
    rw [hk] at h
    exact not_of_error h

/-! ### Bytes -/

theorem wordOfBytes_extract (w : IWord) :
    wordOfBytes (w.extractLsb' 0 8) (w.extractLsb' 8 8) (w.extractLsb' 16 8) (w.extractLsb' 24 8) = w := by
  simp (disch := decide) only [wordOfBytes, BitVec.extractLsb'_append_extractLsb'_eq_extractLsb']
  exact BitVec.extractLsb'_eq_self

/-- Bytes decode as the word of the first four does. -/
theorem decodeBytes_cons (b0 b1 b2 b3 : BitVec 8) (rest : List (BitVec 8)) :
    decodeBytes (b0 :: b1 :: b2 :: b3 :: rest) =
      match decodeWord (wordOfBytes b0 b1 b2 b3) with
      | .ok i => .ok (i, rest)
      | .error e => .error e := rfl

theorem decodeBytes_encode {i : Instr} {w : IWord} (hwf : i.wf = true) (h : encodeWord i = some w) (rest : List Byte) :
    decodeBytes (encode i ++ rest) = .ok (i, rest) := by
  have hbytes : encode i ++ rest = w.extractLsb' 0 8 :: w.extractLsb' 8 8 :: w.extractLsb' 16 8 :: w.extractLsb' 24 8 :: rest := by
    unfold encode
    rw [h]
    rfl
  rw [hbytes, decodeBytes_cons, wordOfBytes_extract, decodeWord_encodeWord hwf h]

/-- Settles O40. Forward, each instruction's word leads the decoder to its row; backward, a word is the assembly of the fields that its row
reads, for scalar words by concatenation, for command words by the masks of the layout. -/
theorem encodeDecode : Obligations.EncodeDecode :=
  ⟨fun _ _ => decodeWord_encodeWord, fun _ _ => decodeCmd_encodeCmd, fun _ _ => encodes_of_decodeWord, fun _ _ => encodes_of_decodeCmd,
    fun _ _ rest hwf h => decodeBytes_encode hwf h rest⟩

end Sys2Proof
end

section
/-! SUPPORT. Proofs of the statements about reset, written-out words and the dispatch of a step (R24, R39, R84, R86, R161). -/

-- Proofs are elaborated one after another: side by side they would need more memory than a check has.
set_option Elab.async false

namespace Sys2Proof.Machine

open Sys2Proof.Claims

/-- Every tile lies on one of the twelve sites (R365). -/
theorem siteOf_lt {t : Nat} (h : t < 12544) : siteOf t < 12 := by
  unfold siteOf rimModule
  split
  · next hg =>
    have hrow : t / 128 / 48 < 2 := by
      rw [Nat.div_div_eq_div_mul]
      exact Nat.div_lt_of_lt_mul hg
    have hcol : t % 128 / 64 < 2 := Nat.div_lt_of_lt_mul (Nat.mod_lt t (by decide))
    exact Nat.lt_of_le_of_lt (Nat.add_le_add (Nat.mul_le_mul_left 2 (Nat.le_of_lt_succ hrow)) (Nat.le_of_lt_succ hcol)) (by decide)
  · have hrim : (t - gridTiles) / 32 < 8 := Nat.div_lt_of_lt_mul (Nat.sub_lt_left_of_lt_add (by lia) h)
    exact Nat.add_lt_add_left hrim 4

/-- A hole bit that the panel's map sets and no broadcast changes is set for every tile of the site (R161). -/
theorem holeBit_of_allOnes {s : State} (src : Nat) {t : Nat} (hs : s.holeSites = BitVec.allOnes 12) (ha : (getTile s src).holeAhead = 0)
    (h : t < 12544) : holeBit s src t = true := by
  have hbit : (holeSitesOf s src).getLsbD (siteOf t) = true := by
    unfold holeSitesOf
    rw [hs, ha, BitVec.ofNat_eq_ofNat, BitVec.xor_zero, BitVec.getLsbD_allOnes, decide_eq_true (siteOf_lt h)]
  unfold holeBit
  rw [hbit, Bool.true_or]

theorem dwAt_reset (a : Nat) : dwAt State.reset a = 0 := by
  have hslot (w : Nat) : residentOf State.reset w = none := rfl
  have hsnoop : snoopOf State.reset a = none := by
    unfold snoopOf
    rw [hslot, hslot]
    split <;> rfl
  have hmem (n b : Nat) : memLE State.reset.mem b n = 0 := by
    induction n generalizing b with
    | zero => rfl
    | succ n ih => rw [memLE, ih]; rfl
  unfold dwAt
  rw [hsnoop]
  simp only [hmem]
  rfl

/-- Settles O38. The tables of the reset state are empty, so that every unit has its reset value; the bytes are those of an empty memory that
no slot serves. -/
theorem resetState : Obligations.ResetState := by
  unfold Obligations.ResetState
  refine ⟨rfl, rfl, fun a => ⟨?_, by simp [State.reset], by simp [State.reset], by simp [State.reset]⟩, fun _ => rfl, rfl, rfl, rfl, rfl,
    fun _ => rfl, rfl, rfl, rfl, fun i => ?_, rfl, rfl, rfl, rfl, rfl, by decide, fun _ => rfl, rfl, rfl, rfl, rfl, fun _ => ⟨rfl, rfl⟩,
    fun src t h => holeBit_of_allOnes src rfl rfl h, fun n => ?_⟩
  · unfold byteAt
    rw [dwAt_reset]
    simp
  · unfold slotAt
    rw [show Core.reset.slots = Vector.replicate 4 none from rfl]
    cases h : (Vector.replicate 4 (none : Option Slot))[i]? with
    | none => rfl
    | some o =>
      obtain ⟨hi, ho⟩ := Vector.getElem?_eq_some_iff.1 h
      rw [← ho, Vector.getElem_replicate]
      rfl
  · by_cases h : n = 9 <;> simp [csrReset, h]

/-- Settles O39: closed decodings. -/
theorem decodeWords : Obligations.DecodeWords := by
  unfold Obligations.DecodeWords
  decide

end Sys2Proof.Machine
end

section
/-! SUPPORT. What a read leaves alone: the relation of two states that differ in what the machine keeps for itself about reads alone (event
counters, copies and translations that caches hold, corrected errors, fresh values and orders). -/

-- Proofs are elaborated one after another: side by side they would need more memory than a check has.
set_option Elab.async false

namespace Sys2Proof.Machine

/-- Core `k` with the counters, caches, translations, latch and acquire marks of `l`. -/
noncomputable def coreNotes (k l : Core) : Core :=
  { k with hpm := l.hpm, latmsg := l.latmsg, tlb := l.tlb, l1d := l.l1d, l1i := l.l1i, acqTile := l.acqTile, acqSeg := l.acqSeg,
           acqMod := l.acqMod, acqPanel := l.acqPanel, jobSeen := l.jobSeen, latch := l.latch }

/-- Tile `k` with the corrected errors and translations of `l`. -/
noncomputable def tileNotes (k l : Tile) : Tile := { k with cecnt := l.cecnt, tlb := l.tlb }

/-- Nothing has changed but what the machine keeps for itself about reads. -/
structure Quiet (s t : State) : Prop where
  rest : t = { s with cores := t.cores, tiles := t.tiles, l2 := t.l2, weak := t.weak, stackCe := t.stackCe, nonce := t.nonce, order := t.order }
  core : ∀ c, getCore t c = coreNotes (getCore s c) (getCore t c)
  tile : ∀ n, getTile t n = tileNotes (getTile s n) (getTile t n)
  anyTile : ∀ p : Tile → Bool, (∀ k l, p (tileNotes k l) = p k) → p Tile.reset = false → (t.tiles.any fun e => p e.2) = s.tiles.any fun e => p e.2

theorem mem_of_amGet {α : Type} {l : AMap α} {k : Nat} {v : α} (h : amGet l k = some v) : (k, v) ∈ l := by
  induction l with
  | nil => cases h
  | cons e l ih =>
    obtain ⟨j, x⟩ := e
    rw [amGet] at h
    split at h
    · next hj =>
      cases h
      exact hj ▸ List.mem_cons_self
    · exact List.mem_cons_of_mem _ (ih h)

/-- Replacing an entry by one that a test does not tell from it leaves what the test finds among all entries. -/
theorem any_amSet {α : Type} {p : α → Bool} {l : AMap α} {k : Nat} {v w d : α} (hd : p d = false) (hv : (amGet l k).getD d = v) (hw : p w = p v) :
    ((amSet l k w).any fun e => p e.2) = l.any fun e => p e.2 := by
  induction l with
  | nil =>
    obtain rfl : d = v := hv
    simp [amSet, hw, hd]
  | cons e l ih =>
    obtain ⟨j, x⟩ := e
    rw [amGet] at hv
    rw [amSet]
    split at hv
    · obtain rfl : x = v := hv
      rename_i hj
      rw [if_neg (by lia), if_pos hj.symm]
      simp [hw]
    · rename_i hj
      rw [if_neg (Ne.symm hj)]
      split
      · have hin : p w = true → l.any (fun e => p e.2) = true := by
          intro h
          cases hg : amGet l k with
          | none =>
            rw [hg] at hv
            obtain rfl : d = v := hv
            rw [hw, hd] at h
            cases h
          | some y =>
            rw [hg] at hv
            obtain rfl : y = v := hv
            exact List.any_eq_true.2 ⟨_, mem_of_amGet hg, (hw ▸ h : p y = true)⟩
        cases h : p w with
        | false => simp [h]
        | true => simp [hin h]
      · rw [List.any_cons, List.any_cons, ih hv]

theorem coreNotes_trans {k l m : Core} (h₁ : l = coreNotes k l) (h₂ : m = coreNotes l m) : m = coreNotes k m := by
  rw [h₁] at h₂
  exact h₂

theorem tileNotes_trans {k l m : Tile} (h₁ : l = tileNotes k l) (h₂ : m = tileNotes l m) : m = tileNotes k m := by
  rw [h₁] at h₂
  exact h₂

namespace Quiet
variable {s t u : State}

theorem refl (s : State) : Quiet s s := ⟨rfl, fun _ => rfl, fun _ => rfl, fun _ _ _ => rfl⟩

theorem trans (h₁ : Quiet s t) (h₂ : Quiet t u) : Quiet s u where
  rest := by
    have h := h₂.rest
    rw [h₁.rest] at h
    exact h
  core c := coreNotes_trans (h₁.core c) (h₂.core c)
  tile n := tileNotes_trans (h₁.tile n) (h₂.tile n)
  anyTile p hp hd := (h₂.anyTile p hp hd).trans (h₁.anyTile p hp hd)


/-! ### Single updates -/

/-- A change of the bookkeeping of core `c` alone. -/
theorem modCore (s : State) (c : Nat) {f : Core → Core} (hf : ∀ k, f k = coreNotes k (f k)) : Quiet s (modCore s c f) where
  rest := rfl
  core d := by
    by_cases h : d = c
    · subst h
      rw [getCore_modCore_self]
      exact hf _
    · rw [getCore_modCore_ne _ _ _ _ h]
      rfl
  tile _ := rfl
  anyTile _ _ _ := rfl

theorem getTile_modTile_ne (s : State) (t u : Nat) (f : Tile → Tile) (h : u ≠ t) : getTile (modTile s t f) u = getTile s u :=
  getTile_putTile_ne s t u _ h

/-- A change of the bookkeeping of tile `t` alone. -/
theorem modTile (s : State) (t : Nat) {f : Tile → Tile} (hf : ∀ k, f k = tileNotes k (f k)) : Quiet s (modTile s t f) where
  rest := rfl
  core _ := rfl
  tile n := by
    by_cases h : n = t
    · subst h
      rw [getTile_modTile_self]
      exact hf _
    · rw [getTile_modTile_ne _ _ _ _ h]
      rfl
  anyTile p hp hd := any_amSet (v := getTile s t) hd rfl (by rw [hf, hp])

/-- A change of the model's counters, of correctable words, of a stack's count and of copies in the L2s. -/
theorem counters (s : State) (l2 : AMap (List Copy)) (weak : List Nat) (ce : AMap Nat) (nonce order : Nat) :
    Quiet s { s with l2 := l2, weak := weak, stackCe := ce, nonce := nonce, order := order } :=
  ⟨rfl, fun _ => rfl, fun _ => rfl, fun _ _ _ => rfl⟩

theorem foldl {α : Type} {f : State → α → State} (hf : ∀ s a, Quiet s (f s a)) (l : List α) (s : State) : Quiet s (l.foldl f s) := by
  induction l generalizing s with
  | nil => exact refl s
  | cons a l ih => exact (hf s a).trans (ih _)

theorem of_ite {p : Prop} [Decidable p] (ht : Quiet s t) (hu : Quiet s u) : Quiet s (if p then t else u) := by
  split
  · exact ht
  · exact hu

/-! ### The operations of reads -/

theorem tick (s : State) : Quiet s (tick s) := counters s _ _ _ _ _

theorem freshChoice (s : State) : Quiet s (freshChoice s).2 := counters s _ _ _ _ _

theorem countAt (s : State) (c code n : Nat) : Quiet s (countAt s c code n) :=
  modCore s c fun k => by
    rw [countEvent_fields]
    rfl

theorem noteMsg (s : State) (c dst : Nat) : Quiet s (noteMsg s c dst) := by
  unfold Machine.noteMsg
  exact of_ite (refl s) ((modCore s c fun _ => rfl).trans (counters _ _ _ _ _ _))

theorem noteAt (s : State) (c pa : Nat) : Quiet s (noteAt s c pa) := by
  unfold Machine.noteAt
  refine of_ite (noteMsg s c _) ?_
  split
  · exact noteMsg s c _
  · exact refl s

theorem addCe (s : State) (t : Nat) : Quiet s (addCe s t) := modTile s t fun _ => rfl

theorem countCe (s : State) (pa : Nat) : Quiet s (countCe s pa) := by
  unfold Machine.countCe
  refine of_ite (counters s _ _ _ _ _) ?_
  split
  · exact addCe s _
  · exact refl s

theorem countCorrected (s : State) (pa n : Nat) : Quiet s (countCorrected s pa n) :=
  foldl (fun s a => of_ite ((counters s _ _ _ _ _).trans (countCe _ a)) (refl s)) _ s

theorem countWalk (s : State) (t tenant va : Nat) : Quiet s (countWalk s t tenant va) :=
  foldl (fun s a => of_ite (countCorrected s a 8) (refl s)) _ s

theorem tileTlbFill (s : State) (t tenant : Nat) (l : Leaf) : Quiet s (tileTlbFill s t tenant l) :=
  (modTile s t fun _ => rfl).trans (counters _ _ _ _ _ _)

theorem tlbFill (s : State) (c tenant : Nat) (l : Leaf) : Quiet s (tlbFill s c tenant l) :=
  ((modCore s c fun _ => rfl).trans (counters _ _ _ _ _ _)).trans (tileTlbFill _ _ _ _)

theorem translate (s : State) (c tenant va : Nat) : Quiet s (translate s c tenant va).1 := by
  have hfill (u : State) (w : Walk) : Quiet u (match w with | .leaf l => (Machine.tlbFill u c tenant l, w) | _ => (u, w)).1 := by
    split
    · exact tlbFill u c tenant _
    · exact refl u
  unfold Machine.translate
  lift_lets
  intro tl fresh inCore hit s1 s2 missed
  have h1 : Quiet s s1 := of_ite (countAt s c 5 1) (refl s)
  have h2 : Quiet s s2 := h1.trans (of_ite (countAt s1 c 6 1) (refl s1))
  clear_value s2
  clear_value hit
  split
  · split
    · exact h2.trans (of_ite (tlbFill s2 c tenant _) (refl s2))
    · dsimp only
      have h3 := h2.trans (freshChoice s2)
      split
      · exact h3
      · exact ((h3.trans (modCore _ c fun _ => rfl)).trans ((modTile _ tl fun _ => rfl).trans (countWalk _ _ _ _))).trans (hfill _ _)
  · exact (h2.trans (countWalk s2 tl tenant va)).trans (hfill _ _)

/-- The checks of an access change bookkeeping alone (R198). -/
theorem memCheck (s : State) (c : Nat) (r : Running) (ea : Word) (n : Nat) (kind : Kind) (row : Row) (posted : Bool) :
    Quiet s (memCheck s c r ea n kind row posted).1 := by
  unfold Machine.memCheck
  dsimp only
  split
  · split
    · exact refl s
    · split
      · exact refl s
      · exact refl s
  · rename_i tenant _
    have h := translate s c tenant ea.toNat
    split
    · exact refl s
    · split
      · exact refl s
      · split
        all_goals
          rename_i ht
          rw [ht] at h
        · split
          · exact h
          · exact h
        · exact h
        · exact h

theorem sawWord (s : State) (c upTo a : Nat) : Quiet s (sawWord s c upTo a) := by
  unfold Machine.sawWord
  split
  · exact modCore s c fun _ => rfl
  · exact refl s

theorem correctAt (s : State) (c pa n : Nat) : Quiet s (correctAt s c pa n) := by
  have h := (countAt s c 0x10 ((codesOf pa n).countP fun a => s.weak.contains a)).trans (countCorrected _ pa n)
  exact of_ite h (h.trans (foldl (fun s a => sawWord s c s.order a) _ _))

theorem pickOld_cons (s : State) (e : JobOld) (l : List JobOld) : pickOld s (e :: l) =
    match Machine.freshChoice s with
    | (true, s) => (s, some e)
    | (false, s) => pickOld s l := rfl

theorem pickOld (s : State) (l : List JobOld) : Quiet s (pickOld s l).1 := by
  induction l generalizing s with
  | nil => exact refl s
  | cons e l ih =>
    unfold Machine.pickOld
    have h := freshChoice s
    split
    · rename_i hc
      rw [hc] at h
      exact h
    · rename_i hc
      rw [hc] at h
      exact h.trans (ih _)

theorem plainBytes (s : State) (c pa n : Nat) : Quiet s (plainBytes s c pa n).1 := by
  unfold Machine.plainBytes
  have h := pickOld s (oldsOf s c (pa / 8 * 8))
  dsimp only
  split
  · rename_i hp
    rw [hp] at h
    exact h.trans (sawWord _ _ _ _)
  · rename_i hp
    rw [hp] at h
    exact h.trans (correctAt _ _ _ _)

/-! ### Fills of caches -/

theorem keepL1 (s : State) (c : Nat) (x : Copy) : Quiet s (keepL1 s c x) :=
  (modCore s c fun _ => rfl).trans (counters _ _ _ _ _ _)

theorem keepL2 (s : State) (g : Nat) (x : Copy) : Quiet s (keepL2 s g x) := counters s _ _ _ _ _

theorem dropL2 (s : State) (g pa : Nat) : Quiet s (dropL2 s g pa) := counters s _ _ _ _ _

theorem fillLine (s : State) (c pa : Nat) : Quiet s (fillLine s c pa) :=
  of_ite (modCore s c fun _ => rfl) (((countCorrected s _ 32).trans (tick _)).trans (keepL1 _ c _))

theorem fillBlock (s : State) (g pa : Nat) : Quiet s (fillBlock s g pa) :=
  of_ite (dropL2 s g pa) (((countCorrected s _ 256).trans (tick _)).trans (keepL2 _ g _))

theorem fillCopies (s : State) (c pa : Nat) : Quiet s (fillCopies s c pa) := by
  unfold Machine.fillCopies
  split
  · exact (fillBlock s _ pa).trans (fillLine _ c pa)
  · exact fillLine s c pa

theorem fillL1i (s : State) (c pa : Nat) (b : List Byte) : Quiet s (fillL1i s c pa b) :=
  (tick s).trans (modCore _ c fun _ => rfl)

theorem dropOwnCopies (s : State) (c pa : Nat) : Quiet s (dropOwnCopies s c pa) := by
  refine of_ite (refl s) ?_
  dsimp only
  split
  · exact (modCore s c fun _ => rfl).trans (dropL2 _ _ pa)
  · exact modCore s c fun _ => rfl

theorem acquireDone (s : State) (c : Nat) (sc : Scope) : Quiet s (acquireDone s c sc) := by
  unfold Machine.acquireDone
  refine (tick s).trans (modCore (Machine.tick s) c fun k => ?_)
  cases sc <;> rfl

/-! ### Fields that a quiet change leaves -/

section Fields
variable (q : Quiet s t)
include q

theorem mem_eq : t.mem = s.mem := by rw [q.rest]
theorem full_eq : t.full = s.full := by rw [q.rest]
theorem bad_eq : t.bad = s.bad := by rw [q.rest]
theorem jobOld_eq : t.jobOld = s.jobOld := by rw [q.rest]
theorem procs_eq : t.procs = s.procs := by rw [q.rest]
theorem queues_eq : t.queues = s.queues := by rw [q.rest]
theorem regions_eq : t.regions = s.regions := by rw [q.rest]
theorem areas_eq : t.areas = s.areas := by rw [q.rest]
theorem selects_eq : t.selects = s.selects := by rw [q.rest]
theorem msgs_eq : t.msgs = s.msgs := by rw [q.rest]
theorem cur_eq : t.cur = s.cur := by rw [q.rest]

theorem slots_eq (c : Nat) : (getCore t c).slots = (getCore s c).slots := by rw [q.core]; rfl
theorem run_eq (c : Nat) : (getCore t c).run = (getCore s c).run := by rw [q.core]; rfl
theorem wfi_eq (c : Nat) : (getCore t c).wfi = (getCore s c).wfi := by rw [q.core]; rfl
theorem stall_eq (c : Nat) : (getCore t c).stall = (getCore s c).stall := by rw [q.core]; rfl
theorem sbuf_eq (c : Nat) : (getCore t c).sbuf = (getCore s c).sbuf := by rw [q.core]; rfl
theorem journal_eq (c : Nat) : (getCore t c).journal = (getCore s c).journal := by rw [q.core]; rfl
theorem instret_eq (c : Nat) : (getCore t c).instret = (getCore s c).instret := by rw [q.core]; rfl
theorem tseq_eq (c : Nat) : (getCore t c).tseq = (getCore s c).tseq := by rw [q.core]; rfl

theorem watches_eq (n : Nat) : (getTile t n).watches = (getTile s n).watches := by rw [q.tile]; rfl
theorem held_eq (n : Nat) : (getTile t n).held = (getTile s n).held := by rw [q.tile]; rfl
theorem trapQ_eq (n : Nat) : (getTile t n).trapQ = (getTile s n).trapQ := by rw [q.tile]; rfl

theorem me_run : (me t).run = (me s).run := by unfold me; rw [q.cur_eq, q.run_eq]

theorem issuer_eq : issuer t = issuer s := by
  unfold issuer
  simp only [q.cur_eq, q.run_eq, q.wfi_eq, q.stall_eq]

theorem slotAt_eq (c i : Nat) : slotAt (getCore t c) i = slotAt (getCore s c) i := slotAt_congr (q.slots_eq c) i

theorem holders_eq (c i : Nat) : holders (getCore t c) i = holders (getCore s c) i := by rw [holders, q.slotAt_eq, holders]

theorem slotOf_eq (c w : Nat) : slotOf (getCore t c) w = slotOf (getCore s c) w := slotOf_congr (q.holders_eq c) w

theorem residentOf_eq (w : Nat) : residentOf t w = residentOf s w := residentOf_congr q.holders_eq w

theorem slotReg_eq (c i n : Nat) : slotReg t c i n = slotReg s c i n := by unfold slotReg; rw [q.slotAt_eq]

theorem slotCsr_eq (c i n : Nat) : slotCsr t c i n = slotCsr s c i n := by unfold slotCsr; rw [q.slotAt_eq]

theorem hw_eq (a : Nat) : hw t a = hw s a := hw_congr q.mem_eq a

theorem regRd_eq (c w : Nat) (d : Reg) : regRd t c w d = regRd s c w d := by
  unfold regRd
  simp only [q.slotOf_eq, q.slotReg_eq, q.hw_eq]

theorem xcOf_eq (c w : Nat) : xcOf t c w = xcOf s c w := by
  unfold xcOf
  simp only [q.run_eq, q.mem_eq]

theorem pcsrRd_eq (c w n : Nat) : pcsrRd t c w n = pcsrRd s c w n := by
  unfold pcsrRd
  simp only [q.slotOf_eq, q.slotCsr_eq, q.xcOf_eq, q.hw_eq]

theorem reg_eq (r : Running) (d : Reg) : reg t r d = reg s r d := by unfold reg; rw [q.cur_eq, q.regRd_eq]

theorem pcsr_eq (r : Running) (n : Nat) : pcsr t r n = pcsr s r n := by unfold pcsr; rw [q.cur_eq, q.pcsrRd_eq]

theorem snoopOf_eq (a : Nat) : snoopOf t a = snoopOf s a := by
  unfold snoopOf
  simp only [q.residentOf_eq, q.run_eq]

theorem dwAt_eq (a : Nat) : dwAt t a = dwAt s a := by
  unfold dwAt
  simp only [q.snoopOf_eq, q.slotReg_eq, q.slotCsr_eq, q.run_eq, q.mem_eq]

theorem byteAt_eq (a : Nat) : byteAt t a = byteAt s a := by unfold byteAt; rw [q.dwAt_eq]

theorem bytesAt_eq (a n : Nat) : bytesAt t a n = bytesAt s a n := by
  unfold bytesAt
  simp only [q.byteAt_eq]

theorem getProc_eq (w : Nat) : getProc t w = getProc s w := getProc_congr q.procs_eq w

theorem markAt_eq (a : Nat) : markAt t a = markAt s a := by
  unfold markAt
  simp only [q.areas_eq, q.getProc_eq]

theorem inFlight_eq (c i : Nat) : inFlight t c i = inFlight s c i := by
  rw [inFlight, q.msgs_eq, q.anyTile (fun k => k.held.any (·.by_ == .store c i)) (fun _ _ => rfl) rfl]
  rfl

theorem outstanding_eq (c : Nat) : outstanding t c = outstanding s c := by
  unfold outstanding
  simp only [q.journal_eq, q.inFlight_eq]

theorem ownStoresOver_eq (c pa n : Nat) : ownStoresOver t c pa n = ownStoresOver s c pa n := by
  unfold ownStoresOver
  simp only [q.sbuf_eq, q.journal_eq, q.inFlight_eq]

theorem isFull_eq (a : Nat) : isFull t a = isFull s a := by unfold isFull; rw [q.full_eq, q.markAt_eq]

theorem slotBad_eq (a : Nat) : slotBad t a = slotBad s a := by
  unfold slotBad
  simp only [q.snoopOf_eq, q.slotAt_eq]

theorem uncorrectable_eq (pa n : Nat) : uncorrectable t pa n = uncorrectable s pa n := by
  have hcode : codeBad t = codeBad s := funext fun a => by unfold codeBad; rw [q.slotBad_eq, q.bad_eq]
  unfold uncorrectable
  rw [hcode]

theorem issues {r : Running} (h : Issues s r) : Issues t r :=
  ⟨q.issuer_eq.trans h.running, by rw [q.cur_eq, q.slotOf_eq]; exact h.resident⟩

theorem placed {r : Running} (h : Placed s r) : Placed t r :=
  ⟨q.issues h.toIssues, by rw [q.getProc_eq, q.cur_eq]; exact h.known, h.base, h.pcOk, by rw [q.queues_eq]; exact h.noEntry,
    by rw [q.selects_eq]; exact h.noSelect⟩

theorem roomToTrap (h : RoomToTrap s) : RoomToTrap t := by
  unfold RoomToTrap
  rw [q.cur_eq, freeSlots_congr q.trapQ_eq]
  exact h

end Fields

end Quiet

end Sys2Proof.Machine
end

section
/-! SUPPORT. The checks of an access in physical space (R152, R155, R198), and the fetch of a system process (R24, R86). -/

-- Proofs are elaborated one after another: side by side they would need more memory than a check has.
set_option Elab.async false

namespace Sys2Proof.Machine

open Sys2Proof.Claims

/-! ### Bits above a limit -/

theorem bits_top_eq_zero_iff (v : Word) {lo : Nat} (h : lo ≤ 63) : bits v 63 lo = 0 ↔ v.toNat < 2 ^ lo := by
  have hv := v.isLt
  have hlt : v.toNat / 2 ^ lo < 2 ^ (63 + 1 - lo) := by
    rw [Nat.div_lt_iff_lt_mul (by positivity), ← Nat.pow_add, Nat.sub_add_cancel (h.trans (by decide))]
    exact hv
  unfold bits
  rw [Nat.shiftRight_eq_div_pow, Nat.mod_eq_of_lt hlt, Nat.div_eq_zero_iff]
  simp

/-! ### The executing tile's own TLM -/

section OwnTlm
variable {t a : Nat} (hlo : t * 0x400000 ≤ a) (hhi : a < t * 0x400000 + 0x300000) (ht : t < 12544)
include hlo hhi ht

omit hlo in
theorem own_lt : a < 2 ^ 48 :=
  (hhi.trans_le (Nat.add_le_add_right (Nat.mul_le_mul_right _ ht.le) _)).trans (by decide)

theorem spaceOf_ownTlm : spaceOf a = 0 := by
  unfold spaceOf
  rw [Nat.div_eq_of_lt (own_lt hhi ht)]

theorem tile_ownTlm : spaceOff a / tlmWindow = t ∧ spaceOff a % tlmWindow < tlmBytes := by
  unfold spaceOff
  rw [Nat.mod_eq_of_lt (own_lt hhi ht)]
  obtain ⟨b, rfl⟩ : ∃ b, a = b + t * tlmWindow := Nat.exists_eq_add_of_le' hlo
  have hb : b < tlmBytes := Nat.lt_of_add_lt_add_left (Nat.add_comm .. ▸ hhi)
  have hwin : b < tlmWindow := Nat.lt_trans hb (by decide)
  rw [Nat.add_mul_div_right b t (by decide), Nat.div_eq_of_lt hwin, Nat.zero_add, Nat.add_mul_mod_self_right, Nat.mod_eq_of_lt hwin]
  exact ⟨rfl, hb⟩

theorem homeTile_ownTlm : homeTile a = some t := by
  unfold homeTile
  rw [spaceOf_ownTlm hlo hhi ht]
  exact congrArg some (tile_ownTlm hlo hhi ht).1

theorem neverPopulated_ownTlm (dark : Nat → Bool) : neverPopulated dark a = dark t := by
  obtain ⟨htile, hr⟩ := tile_ownTlm hlo hhi ht
  have hpop : neverPopulated dark a = (decide (allTiles ≤ spaceOff a / tlmWindow) || decide (tlmBytes ≤ spaceOff a % tlmWindow) ||
      dark (spaceOff a / tlmWindow)) := by
    unfold neverPopulated
    rw [spaceOf_ownTlm hlo hhi ht]
    rfl
  rw [hpop, htile, decide_eq_false (Nat.not_le.2 hr), decide_eq_false (show ¬allTiles ≤ t from Nat.not_le.2 ht)]
  rfl

end OwnTlm

/-! ### Checks in physical space (R198) -/

/-- The executing process names physical addresses: it runs in system mode with tenant 0 and VIDSEL clear (R155). -/
theorem addrSpace_physical {s : State} {c : Nat} {r : Running} (hsm : r.sm = true) (hv : bit (getCore s c).vidsel 12 = false)
    (ht : rcbTenant s r.rcb = 0) : addrSpace s c r = none := by
  simp [addrSpace, hsm, hv, ht]

theorem spaceDenied_tlm {row : Row} (hrow : row ≠ .hmem) (n : Nat) {pa : Nat} (h : spaceOf pa = 0) (sm : Bool) : spaceDenied sm row n pa = none := by
  unfold spaceDenied
  simp [h, hrow]

theorem markDenied_system (s : State) (c : Nat) (row : Row) (kind : Kind) (pa : Nat) : markDenied s c true row kind pa = false := rfl

/-- A system-mode access of the executing tile's own TLM passes what follows translation. -/
theorem afterTranslation_ownTlm {s : State} {c : Nat} {row : Row} {pa : Nat} (hrow : row ≠ .hmem) (ht : coreTile c < 12544)
    (hlo : coreTile c * 0x400000 ≤ pa) (hhi : pa < coreTile c * 0x400000 + 0x300000) (hdark : isDark s (coreTile c) = false)
    (tenant : Nat) (kind : Kind) (posted : Bool) (n : Nat) (nc : Bool) :
    afterTranslation s c true tenant row kind posted n pa nc = .ok pa nc := by
  have hhome := homeTile_ownTlm hlo hhi ht
  have hsp := spaceOf_ownTlm hlo hhi ht
  have hhole : holeCheck s (coreTile c) pa = .clear := by
    simp [holeCheck, hsp, hhome]
  simp only [afterTranslation, spaceDenied_tlm hrow n hsp, neverPopulated_ownTlm hlo hhi ht, hdark, hhome, hhole, ite_self, beq_self_eq_true,
    Bool.true_or, markDenied_system]
  rfl

theorem memCheck_physical {s : State} {c : Nat} {r : Running} (hsp : addrSpace s c r = none) (ea : Word) (n : Nat) (kind : Kind) (row : Row)
    (posted : Bool) :
    memCheck s c r ea n kind row posted =
      if 2 ^ 52 ≤ ea.toNat then (s, .trap .bound)
      else if ea.toNat % n ≠ 0 then (s, .trap .align)
      else (s, afterTranslation s c r.sm (accessTenant s c r) row kind posted n ea.toNat false) := by
  have hb : (bits ea 63 52 != 0) = decide (2 ^ 52 ≤ ea.toNat) := by
    rw [Bool.eq_iff_iff]
    simpa using (bits_top_eq_zero_iff ea (by decide : 52 ≤ 63)).not
  simp only [memCheck, hsp, hb, decide_eq_true_eq, bne_iff_ne]

/-- An aligned system-mode access of the executing tile's own TLM passes with itself as physical address. -/
theorem memCheck_ownTlm {s : State} {c : Nat} {r : Running} {ea : Word} {n : Nat} {row : Row} (hsm : r.sm = true)
    (hv : bit (getCore s c).vidsel 12 = false) (htn : rcbTenant s r.rcb = 0) (hrow : row ≠ .hmem) (ht : coreTile c < 12544)
    (hlo : coreTile c * 0x400000 ≤ ea.toNat) (hhi : ea.toNat < coreTile c * 0x400000 + 0x300000) (hdark : isDark s (coreTile c) = false)
    (hal : ea.toNat % n = 0) (kind : Kind) (posted : Bool) : memCheck s c r ea n kind row posted = (s, .ok ea.toNat false) := by
  rw [memCheck_physical (addrSpace_physical hsm hv htn), if_neg (Nat.not_le.2 ((own_lt hhi ht).trans (by decide))), if_neg fun h => h hal, hsm,
    afterTranslation_ownTlm hrow ht hlo hhi hdark]

/-- What an access checks before it translates (R198): its address lies in its space, and is a multiple of its size. -/
theorem memCheck_high {s : State} {c : Nat} {r : Running} {ea : Word} {n : Nat} {kind : Kind} {row : Row} {posted : Bool}
    (h : 2 ^ (if addrSpace s c r = none then 52 else 48) ≤ ea.toNat) : memCheck s c r ea n kind row posted = (s, .trap .bound) := by
  cases hsp : addrSpace s c r with
  | none =>
    rw [hsp] at h
    rw [memCheck_physical hsp]
    exact if_pos h
  | some tenant =>
    rw [hsp] at h
    have hb : (bits ea 63 48 != 0) = true := bne_iff_ne.2 ((bits_top_eq_zero_iff ea (by decide)).not.2 (Nat.not_lt.2 h))
    simp only [memCheck, hsp, hb, ↓reduceIte]

theorem memCheck_misaligned {s : State} {c : Nat} {r : Running} {ea : Word} {n : Nat} {kind : Kind} {row : Row} {posted : Bool}
    (h : ea.toNat < 2 ^ (if addrSpace s c r = none then 52 else 48)) (hal : ea.toNat % n ≠ 0) :
    memCheck s c r ea n kind row posted = (s, .trap .align) := by
  cases hsp : addrSpace s c r with
  | none =>
    rw [hsp] at h
    rw [memCheck_physical hsp]
    exact (if_neg (Nat.not_le.2 h)).trans (if_pos hal)
  | some tenant =>
    rw [hsp] at h
    have hb : (bits ea 63 48 != 0) = false := bne_eq_false_iff_eq.2 ((bits_top_eq_zero_iff ea (by decide)).2 h)
    have hne : (ea.toNat % n != 0) = true := bne_iff_ne.2 hal
    simp only [memCheck, hsp, hb, hne, ↓reduceIte, Bool.false_eq_true]

/-! ### Accesses (R128, R165) -/

theorem bytesOfSize_eq (sz : Size) : bytesOfSize sz = sizeBytes sz := by cases sz <;> rfl

theorem effective_eq (v : Word) (off : BitVec 14) (sz : Size) : effective v off sz = v + off14 off sz := by
  unfold effective off14
  rw [bytesOfSize_eq, BitVec.ofInt_mul]
  rfl

theorem loadInstr_next {s : State} {r : Running} (h : Issues s r) (signed acq : Bool) (d a : Reg) (sz : Size) (off : BitVec 14) :
    loadInstr signed acq d a sz off s = .next (access s s.cur r (reg s r a + off14 off sz) (sizeBytes sz) .read .ldst false fun t pa nc =>
      if spaceOf pa == 8 then loadHost t s.cur (reg s r a + off14 off sz) pa d (sizeBytes sz) signed acq
      else if spaceOf pa == 15 then loadDevice t s.cur r d pa (sizeBytes sz) signed acq
      else loadMem t s.cur r d pa (sizeBytes sz) signed acq nc) :=
  onCore_issues h _

theorem storeInstr_next {s : State} {r : Running} (h : Issues s r) (rel : Bool) (d a : Reg) (sz : Size) (off : BitVec 14) :
    ∃ k, storeInstr rel d a sz off s = .next (access s s.cur r (reg s r a + off14 off sz) (sizeBytes sz) .write .store true k) :=
  ⟨_, onCore_issues h _⟩

theorem amoInstr_next {s : State} {r : Running} (h : Issues s r) (fn : AmoFn) (code : Nat) (f : AmoForm) (x : Reg) :
    ∃ row k, amoInstr fn code f x s = .next (access s s.cur r (reg s r f.a) (sizeBytes f.size) .write row false k) :=
  ⟨_, _, onCore_issues h _⟩

theorem execLdf_next {s : State} {r : Running} (h : Issues s r) (d a : Reg) :
    execLdf d a s = .next (access s s.cur r (reg s r a) 8 .read .fe false fun t pa _ => readBlock t s.cur r pa 8 fun t =>
      if isFull t pa then finish (acquireDone t s.cur .panel) s.cur r d (dwAt t pa)
      else watchAndWait t s.cur r (src t s.cur r a) pa 8 5 0 (.ldf d)) :=
  onCore_issues h _

theorem execJoin_next {s : State} {r : Running} (h : Issues s r) (a : Reg) :
    execJoin a s = .next (access s s.cur r (reg s r a) 8 .read .fe false fun t pa _ => readBlock t s.cur r pa 8 fun t =>
      if dwAt t pa == 0 then retire (acquireDone t s.cur .panel) s.cur r
      else watchAndWait t s.cur r (src t s.cur r a) pa 8 7 0 .join) :=
  onCore_issues h _

theorem execStf_next {s : State} {r : Running} (h : Issues s r) (a b : Reg) :
    ∃ k, execStf a b s = .next (access s s.cur r (reg s r a) 8 .write .fe true k) :=
  ⟨_, onCore_issues h _⟩

theorem execSete_next {s : State} {r : Running} (h : Issues s r) (a : Reg) :
    ∃ k, execSete a s = .next (access s s.cur r (reg s r a) 8 .write .fe true k) :=
  ⟨_, onCore_issues h _⟩

theorem execWaita_next {s : State} {r : Running} (h : Issues s r) {d a b x : Reg} (ha : a ≠ 0) :
    ∃ k, execWaita d a b x s = .next (access s s.cur r (reg s r a) 8 .read .fe false k) :=
  ⟨_, (onCore_issues h _).trans (congrArg _ (if_neg ha))⟩

/-- The instruction is one access of `n` bytes at `ea`. -/
def IsAccess (s : State) (r : Running) (i : Instr) (ea : Word) (n : Nat) : Prop :=
  ∃ kind row posted k, exec i s = .next (access s s.cur r ea n kind row posted k)

section Classes
variable {s : State} {r : Running} (h : Issues s r) {i : Instr}
include h

theorem isAccess_load {signed acq : Bool} {d a : Reg} {sz : Size} {off : BitVec 14} (hi : exec i s = loadInstr signed acq d a sz off s) :
    IsAccess s r i (effective (reg s r a) off sz) (bytesOfSize sz) := by
  rw [effective_eq, bytesOfSize_eq]
  exact ⟨_, _, _, _, hi.trans (loadInstr_next h ..)⟩

theorem isAccess_store {rel : Bool} {d a : Reg} {sz : Size} {off : BitVec 14} (hi : exec i s = storeInstr rel d a sz off s) :
    IsAccess s r i (effective (reg s r a) off sz) (bytesOfSize sz) := by
  rw [effective_eq, bytesOfSize_eq]
  obtain ⟨k, hk⟩ := storeInstr_next h rel d a sz off
  exact ⟨_, _, _, k, hi.trans hk⟩

theorem isAccess_amo {fn : AmoFn} {code : Nat} {f : AmoForm} {x : Reg} (hi : exec i s = amoInstr fn code f x s) :
    IsAccess s r i (reg s r f.a) (bytesOfSize f.size) := by
  rw [bytesOfSize_eq]
  obtain ⟨row, k, hk⟩ := amoInstr_next h fn code f x
  exact ⟨_, row, _, k, hi.trans hk⟩

/-- Every load, store, full/empty access, JOIN and atomic is one access of the address and size that `accessOf` names; a load is what
`loadOf` says. -/
theorem exec_classes (i : Instr) :
    ((loadOf i).elim True fun p => ∀ s, exec i s = loadInstr p.1 p.2.1 p.2.2.1 p.2.2.2.1 p.2.2.2.2.1 p.2.2.2.2.2 s) ∧
      (accessOf (reg s r) i).elim True fun p => IsAccess s r i p.1 p.2 := by
  induction i with
  | ld | ldAcq | ldu | lduAcq => exact ⟨fun _ => rfl, isAccess_load h rfl⟩
  | st | stRel => exact ⟨trivial, isAccess_store h rfl⟩
  | amoSwap | amoAdd | amoAnd | amoOr | amoXor | amoMin | amoMax | amoMinu | amoMaxu | amoCas => exact ⟨trivial, isAccess_amo h rfl⟩
  | ldf d a => exact ⟨trivial, _, _, _, _, execLdf_next h d a⟩
  | stf a b => exact ⟨trivial, _, _, _, execStf_next h a b⟩
  | sete a => exact ⟨trivial, _, _, _, execSete_next h a⟩
  | join a => exact ⟨trivial, _, _, _, _, execJoin_next h a⟩
  | waita d a b x =>
    refine ⟨trivial, ?_⟩
    change Option.elim (if a = 0 then none else some (reg s r a, 8)) True _
    split
    · trivial
    · next ha => exact ⟨_, _, _, execWaita_next h ha⟩
  | _ => exact (⟨trivial, trivial⟩ : True ∧ True)

theorem exec_access {ea : Word} {n : Nat} (hi : accessOf (reg s r) i = some (ea, n)) : IsAccess s r i ea n := by
  have hx := (exec_classes h i).2
  rwa [hi] at hx

theorem exec_loadOf {signed acq : Bool} {d a : Reg} {sz : Size} {off : BitVec 14} (hi : loadOf i = some (signed, acq, d, a, sz, off)) :
    exec i s = loadInstr signed acq d a sz off s := by
  have hx := (exec_classes h i).1
  rw [hi] at hx
  exact hx s

end Classes

/-- A check of an access that fails traps at the instruction, with the address as it named it. -/
theorem access_trapped {s : State} {r : Running} (h : Placed s r) (hroom : RoomToTrap s) {ea : Word} {n : Nat} {kind : Kind} {row : Row}
    {posted : Bool} {x : Cause} (hchk : memCheck s s.cur r ea n kind row posted = (s, .trap x)) (k : State → Nat → Bool → State) :
    Trapped s (access s s.cur r ea n kind row posted k) r x 0 ea r.pc := by
  unfold access
  rw [hchk]
  exact trapped_takeTrap h hroom x 0 ea 0 false

/-- Settles O5: the address checks come before translation (`memCheck_high`, `memCheck_misaligned`), and every access is one of them
(`exec_access`). -/
theorem addressChecks : Obligations.AddressChecks := by
  unfold Obligations.AddressChecks
  refine ⟨fun s r ea n kind row posted hsm hv ht => ?_, fun i s r ea n hi h hroom => ?_⟩
  · have hsp := addrSpace_physical hsm hv ht
    have hlim : (if addrSpace s s.cur r = none then 52 else 48) = 52 := by rw [if_pos hsp]
    exact ⟨fun hb => memCheck_high (by rwa [hlim]), fun hb hal => memCheck_misaligned (by rwa [hlim]) hal,
      fun hrow htile hlo hhi hdark hal => memCheck_ownTlm hsm hv ht hrow htile hlo hhi hdark hal kind posted⟩
  · obtain ⟨kind, row, posted, k, hx⟩ := exec_access h.toIssues hi
    exact ⟨fun hb => ⟨_, hx, access_trapped h hroom (memCheck_high hb) k⟩,
      fun hb hal => ⟨_, hx, access_trapped h hroom (memCheck_misaligned hb hal) k⟩⟩

/-! ### Fetch (R24, R157) -/

theorem ofBytes_cons (b : Byte) (l : List Byte) : ofBytes (b :: l) = b.toNat + 256 * ofBytes l := rfl

theorem ofBytes_lt (l : List Byte) : ofBytes l < 256 ^ l.length := by
  induction l with
  | nil => exact Nat.one_pos
  | cons b l ih =>
    rw [ofBytes_cons, List.length_cons, Nat.pow_succ']
    exact Nat.lt_of_lt_of_le (Nat.add_lt_add_right b.isLt _) (Nat.add_comm 256 _ ▸ Nat.mul_le_mul_left 256 ih)

theorem ofBytes_four (b0 b1 b2 b3 : Byte) : BitVec.ofNat 32 (ofBytes [b0, b1, b2, b3]) = wordOfBytes b0 b1 b2 b3 := by
  apply BitVec.eq_of_toNat_eq
  have happ {m n : Nat} (x : BitVec m) (y : BitVec n) : (x ++ y).toNat = x.toNat * 2 ^ n + y.toNat := by
    rw [BitVec.toNat_append, ← Nat.shiftLeft_add_eq_or_of_lt y.isLt, Nat.shiftLeft_eq]
  have hlt : ofBytes [b0, b1, b2, b3] < 256 ^ 4 := ofBytes_lt _
  unfold wordOfBytes
  rw [BitVec.toNat_ofNat, happ, happ, happ, show 2 ^ 32 = 256 ^ 4 from rfl, Nat.mod_eq_of_lt hlt]
  show b0.toNat + 256 * (b1.toNat + 256 * (b2.toNat + 256 * (b3.toNat + 256 * 0))) = _
  lia

/-- The word that four bytes of memory stand for decodes as the bytes do. -/
theorem decodeWord_ofBytes {s : State} {pa : Nat} {i : Instr} (h : decodeBytes (bytesAt s pa 4) = .ok (i, [])) :
    decodeWord (BitVec.ofNat 32 (ofBytes (bytesAt s pa 4))) = .ok i := by
  have hb : bytesAt s pa 4 = [byteAt s pa, byteAt s (pa + 1), byteAt s (pa + 2), byteAt s (pa + 3)] := rfl
  rw [hb, decodeBytes_cons] at h
  rw [hb, ofBytes_four]
  cases hd : decodeWord (wordOfBytes (byteAt s pa) (byteAt s (pa + 1)) (byteAt s (pa + 2)) (byteAt s (pa + 3))) with
  | ok j =>
    rw [hd] at h
    cases h
    rfl
  | error e =>
    rw [hd] at h
    cases h

theorem Quiet.fetchMsg (s : State) (c pa : Nat) : Quiet s (fetchMsg s c pa) := by
  unfold Machine.fetchMsg
  split
  · exact of_ite (noteAt s c pa) (noteMsg s c _)
  · exact noteAt s c pa

/-- A word of code fetched at its home is the bytes there, and only bookkeeping changes. -/
theorem fetchHome_word {s : State} {c pa : Nat} {nc : Bool} (h : uncorrectable s pa 4 = false) :
    ∃ t, fetchHome s c pa nc = (t, wordOf (bytesAt s pa 4)) ∧ Quiet s t := by
  have hc := Quiet.correctAt s c pa 4
  unfold fetchHome
  rw [if_neg (by simp [h])]
  dsimp only
  split
  · exact ⟨_, rfl, hc⟩
  · split
    · exact ⟨_, rfl, (hc.trans (Quiet.of_ite (Quiet.refl _) (Quiet.fillBlock _ _ _))).trans (Quiet.fillL1i _ _ _ _)⟩
    · exact ⟨_, rfl, hc.trans (Quiet.fillL1i _ _ _ _)⟩

/-- A fetch that no cache serves, of an address whose checks pass, takes the bytes at the home. -/
theorem fetch_home {s : State} {c : Nat} {r : Running} {pa : Nat}
    (hchk : Machine.memCheck s c r (r.pc.setWidth 64) 4 .fetch .fetch false = (s, .ok pa false)) (hsp : spaceOf pa = 0)
    (hl1 : l1iCopy (getCore s c) pa = none) (hl2 : l2Code s c pa = none) (hbad : uncorrectable s pa 4 = false) :
    ∃ t, fetch s c r = (t, wordOf (bytesAt s pa 4)) ∧ Quiet s t := by
  have hmsg := Quiet.fetchMsg s c pa
  obtain ⟨t, ht, hq⟩ := fetchHome_word (c := c) (nc := false) (hmsg.uncorrectable_eq pa 4 ▸ hbad)
  refine ⟨t, ?_, hmsg.trans hq⟩
  rw [hmsg.bytesAt_eq] at ht
  simp only [fetch, hchk, fetchAt, hl1, fetchMiss, hl2, hsp, ht]
  rfl

/-! ### Steps (R24, R39; log entry 2) -/

/-- The turn of a core issues its next instruction and runs it. -/
theorem step_core {s : State} {c : Nat} {rest : List Turn} (h : s.agenda = .core c :: rest) (hc : c < 4 * 12544) :
    step s = exec (issueInstr { s with agenda := rest } c).2 (issueInstr { s with agenda := rest } c).1 := by
  rw [step_agenda h, runTurn, if_pos (show c < allCores from hc)]

/-- An event due at the boundary comes before the instruction. -/
theorem issueInstr_event {s : State} {c : Nat} {rest : List Turn} {e : Instr} (h : boundaryEvent (atTurn s c rest) c = some e) :
    issueInstr { s with agenda := rest } c = (atTurn s c rest, e) := by
  have h' : boundaryEvent { s with agenda := rest, cur := c, yielded := true } c = some e := h
  simp only [issueInstr, h', atTurn]

section NoEvent
variable {s s1 : State} {c : Nat} {rest : List Turn} {r : Running} (hi : issuer (atTurn s c rest) = some r)
  (hb : boundaryEvent (atTurn s c rest) c = none)
include hi hb

/-- With no event due, the word that the fetch answers is the instruction. -/
theorem issueInstr_word {w : IWord} (hf : fetch (atTurn s c rest) c r = (s1, .word w)) :
    issueInstr { s with agenda := rest } c = (s1, instrOf w) := by
  have hb' : boundaryEvent { s with agenda := rest, cur := c, yielded := true } c = none := hb
  have hi' : issuer { s with agenda := rest, cur := c, yielded := true } = some r := hi
  have hf' : fetch { s with agenda := rest, cur := c, yielded := true } c r = (s1, .word w) := hf
  simp only [issueInstr, hb', hi', hf']

theorem issueInstr_fails (hf : fetch (atTurn s c rest) c r = (s1, .fails)) :
    issueInstr { s with agenda := rest } c = (atTurn s c rest, .fetchFault r.pc) := by
  have hb' : boundaryEvent { s with agenda := rest, cur := c, yielded := true } c = none := hb
  have hi' : issuer { s with agenda := rest, cur := c, yielded := true } = some r := hi
  have hf' : fetch { s with agenda := rest, cur := c, yielded := true } c r = (s1, .fails) := hf
  simp only [issueInstr, hb', hi', hf', atTurn]

end NoEvent

theorem step_noAgenda {s : State} (h : s.agenda = []) : step s = runTurn (nextTurn s) (countTurn s) := by
  simp only [step, h]

/-- Settles O41: by the turn and by what `issueInstr` answers. -/
theorem stepRunsDecoded : Obligations.StepRunsDecoded := by
  unfold Obligations.StepRunsDecoded
  refine ⟨fun s c rest r hag hc hi => ⟨fun hb => ⟨?_, ?_, ?_⟩, ?_, ?_⟩, ?_, ?_, ?_, ?_⟩
  · intro s1 w i hf hd
    rw [step_core hag hc, issueInstr_word hi hb hf, instrOf, hd]
  · intro s1 w e hf hd
    rw [step_core hag hc, issueInstr_word hi hb hf, instrOf, hd]
  · intro s1 hf
    rw [step_core hag hc, issueInstr_fails hi hb hf]
  · intro e hb
    rw [step_core hag hc, issueInstr_event hb]
  · intro i hb hsm hv htn hlo hhi hal hdark hbad hl1 hl2 hdec
    have hpc : (r.pc.setWidth 64).toNat = r.pc.toNat := by
      have := r.pc.isLt
      rw [BitVec.toNat_setWidth, Nat.mod_eq_of_lt (this.trans (by decide))]
    have ht : coreTile c < 12544 := by
      exact Nat.div_lt_of_lt_mul hc
    have hchk := memCheck_ownTlm (s := atTurn s c rest) (ea := r.pc.setWidth 64) (n := 4) (row := .fetch) hsm hv htn (by decide) ht
      (by rw [hpc]; exact hlo) (by rw [hpc]; exact hhi) hdark (by rw [hpc]; exact hal) .fetch false
    rw [hpc] at hchk
    obtain ⟨u, hu, hq⟩ := fetch_home hchk (spaceOf_ownTlm hlo hhi ht) hl1 hl2 hbad
    refine ⟨u, ?_, hq.cur_eq, hq.issuer_eq.trans hi, hq.mem_eq, hq.regRd_eq c r.wptr, hq.pcsrRd_eq c r.wptr⟩
    rw [step_core hag hc, issueInstr_word hi hb hu, instrOf, decodeWord_ofBytes (s := atTurn s c rest) hdec]
  · intro s i rest hag
    rw [step_agenda hag, runTurn]
  · intro s pa rest hag i hcmd
    have h : commandAt { s with agenda := rest } pa = some i := hcmd
    simp only [step_agenda hag, runTurn, h]
  · intro s hag hy c hc
    rw [step_noAgenda hag, step_agenda rfl, nextTurn, if_neg (by simp [hy]), hc, countTurn, hag]
  · intro s hag hy
    rw [step_noAgenda hag, step_agenda rfl, nextTurn, if_pos hy, countTurn, hag]

end Sys2Proof.Machine
end

section
/-! SUPPORT. Instructions that read and answer: a quiet change, then W[d] and retirement; loads at their home (R177, R189, R201), loads of HBM
(R215) and of device space (R434). -/

-- Proofs are elaborated one after another: side by side they would need more memory than a check has.
set_option Elab.async false

namespace Sys2Proof.Machine

open Sys2Proof.Claims

/-! ### Answers after a quiet change -/

theorem retire_eq_finish (s : State) (c : Nat) (r : Running) : retire s c r = finish s c r 0 0 := by simp [finish, regWr]

section Finish
variable {s u : State} {r : Running} (h : Issues s r) (q : Quiet s u)
include h q

theorem Quiet.regStep_finish (d : Reg) (v : Word) : RegStep u (finish u s.cur r d v) r d v (r.pc + 4) := by
  have hu := Machine.regStep_finish (q.issues h) d v
  rwa [q.cur_eq] at hu

theorem Quiet.answers (d : Reg) (v : Word) : Answers s (finish u s.cur r d v) r d v := by
  have hu := q.regStep_finish h d v
  have hcur : (finish u s.cur r d v).cur = s.cur := by rw [hu.frame.rest]; exact q.cur_eq
  refine ⟨hcur, hu.dest, hu.zero, fun e he => (hu.regs e he).trans (q.reg_eq r e), hu.pc, hu.retired.trans ?_⟩
  unfold me
  rw [q.cur_eq, q.instret_eq]

theorem Quiet.readsOnly (d : Reg) (v : Word) : ReadsOnly s (finish u s.cur r d v) r d := by
  have hu := q.regStep_finish h d v
  generalize finish u s.cur r d v = t at hu
  obtain ⟨hrest, hothers⟩ := hu.frame
  have hme : me u = coreNotes (me s) (me u) := by
    have hc := q.core s.cur
    rwa [me, me, q.cur_eq]
  have hcore := hu.core
  rw [hme] at hcore
  refine ⟨fun n => (hu.csrs n).trans (q.pcsr_eq r n), ?_, ?_, ?_, ?_, fun a ha hd => (hu.bytes a ha hd).trans (q.byteAt_eq a), ?_, fun c hc => ?_⟩
  · rw [hcore]; exact ⟨rfl, rfl, rfl, rfl⟩
  · rw [hcore]; exact ⟨rfl, rfl, rfl, rfl⟩
  · rw [hcore]; exact ⟨rfl, rfl⟩
  · rw [hrest]; exact ⟨q.mem_eq, q.full_eq, q.areas_eq⟩
  · rw [hrest]; exact ⟨q.procs_eq, q.regions_eq, q.queues_eq⟩
  · rw [hothers c (by rwa [q.cur_eq])]; exact ⟨q.run_eq c, q.slots_eq c⟩

end Finish

/-! ### Values of loads -/

theorem rdN_succ (s : State) (a n : Nat) : rdN s a (n + 1) = (byteAt s a).toNat + 256 * rdN s (a + 1) n := rfl

theorem bytesOf_succ (n v : Nat) : bytesOf (n + 1) v = BitVec.ofNat 8 v :: bytesOf n (v / 256) := rfl

theorem rdN_eq_ofBytes (s : State) (a n : Nat) : rdN s a n = ofBytes (bytesAt s a n) := by
  induction n generalizing a with
  | zero => rfl
  | succ n ih =>
    have htail : (List.range n).map (fun i => byteAt s (a + (i + 1))) = bytesAt s (a + 1) n :=
      List.map_congr_left fun i _ => by rw [Nat.add_right_comm, Nat.add_assoc]
    have hcons : bytesAt s a (n + 1) = byteAt s a :: bytesAt s (a + 1) n := by
      rw [← htail]
      unfold bytesAt
      rw [List.range_succ_eq_map, List.map_cons, List.map_map]
      rfl
    rw [rdN_succ, ih, hcons, ofBytes_cons]

theorem ofBytes_bytesOf (n v : Nat) : ofBytes (bytesOf n v) = v % 256 ^ n := by
  induction n generalizing v with
  | zero => rw [Nat.pow_zero, Nat.mod_one]; rfl
  | succ n ih => rw [bytesOf_succ, ofBytes_cons, ih, BitVec.toNat_ofNat, show (2 : Nat) ^ 8 = 256 from rfl, Nat.pow_succ', Nat.mod_mul]

theorem bytesOf_drop (n k v : Nat) : (bytesOf n v).drop k = bytesOf (n - k) (v / 256 ^ k) := by
  induction k generalizing n v with
  | zero => simp
  | succ k ih =>
    cases n with
    | zero => rw [Nat.zero_sub]; rfl
    | succ n => rw [bytesOf_succ, List.drop_succ_cons, ih, Nat.add_sub_add_right, Nat.div_div_eq_div_mul, Nat.pow_succ']

theorem bytesOf_take (n k v : Nat) : (bytesOf n v).take k = bytesOf (min k n) v := by
  induction k generalizing n v with
  | zero => rw [Nat.zero_min]; rfl
  | succ k ih =>
    cases n with
    | zero => rfl
    | succ n => rw [bytesOf_succ, List.take_succ_cons, ih, Nat.succ_min_succ, bytesOf_succ]

/-- The `n` bytes from byte `k` of a doubleword on. -/
theorem ofBytes_old (v : Word) {k : Nat} (hk : k < 8) (n : Nat) :
    ofBytes (((bytesOf 8 v.toNat).drop k).take n) = v.toNat / 256 ^ k % 256 ^ n := by
  rw [bytesOf_drop, bytesOf_take, ofBytes_bytesOf]
  rcases Nat.le_total n (8 - k) with h | h
  · rw [Nat.min_eq_left h]
  · have hlt : v.toNat / 256 ^ k < 256 ^ (8 - k) := by
      rw [Nat.div_lt_iff_lt_mul (by positivity), ← Nat.pow_add, Nat.sub_add_cancel hk.le]
      exact v.isLt
    rw [Nat.min_eq_right h, Nat.mod_eq_of_lt hlt, Nat.mod_eq_of_lt (lt_of_lt_of_le hlt (Nat.pow_le_pow_right (by decide) h))]

/-- `x` as a load of size `sz` extends it (R201). -/
theorem extendN_signed (sz : Size) (x : Nat) : (extendN true (sizeBytes sz) x).toInt = sx x (8 * bytesOfSize sz) := by
  rw [bytesOfSize_eq]
  unfold extendN
  rw [if_pos rfl]
  apply ofI_toInt
  rw [sx_eq_toInt _ _ (by cases sz <;> decide)]
  have hlo := BitVec.le_toInt (BitVec.ofNat (8 * sizeBytes sz) x)
  have hhi := BitVec.toInt_lt (x := BitVec.ofNat (8 * sizeBytes sz) x)
  have hpow : (2 : Int) ^ (8 * sizeBytes sz - 1) ≤ 2 ^ 63 := by cases sz <;> decide
  exact ⟨(Int.neg_le_neg hpow).trans hlo, hhi.trans_le hpow⟩

theorem extendN_unsigned (sz : Size) (x : Nat) : (extendN false (sizeBytes sz) x).toNat = x % 256 ^ bytesOfSize sz := by
  have hlt : x % 2 ^ (8 * sizeBytes sz) < 2 ^ 64 := lt_of_lt_of_le (Nat.mod_lt _ (by positivity)) (by cases sz <;> decide)
  unfold extendN
  rw [if_neg (by decide), word_toNat hlt, bytesOfSize_eq, Nat.pow_mul]

/-! ### Old and present values (R189) -/

/-- What a plain load of a doubleword may return: its bytes, or those of an old value of it. -/
def Returned (s : State) (pa n : Nat) (b : List Byte) : Prop :=
  b = bytesAt s pa n ∨ ∃ e ∈ s.jobOld, e.addr = pa / 8 * 8 ∧ b = ((bytesOf 8 e.old.toNat).drop (pa % 8)).take n

theorem pickOld_mem {s u : State} {l : List JobOld} {e : JobOld} (h : pickOld s l = (u, some e)) : e ∈ l := by
  induction l generalizing s with
  | nil => cases h
  | cons a l ih =>
    rw [Quiet.pickOld_cons] at h
    split at h
    · cases h
      exact List.mem_cons_self
    · exact List.mem_cons_of_mem a (ih h)

theorem mem_oldsOf {s : State} {c a : Nat} {e : JobOld} (h : e ∈ oldsOf s c a) : e ∈ s.jobOld ∧ e.addr = a := by
  unfold oldsOf at h
  split at h
  · cases h
  · obtain ⟨hm, hc⟩ := List.mem_filter.1 h
    simp only [Bool.and_eq_true, beq_iff_eq] at hc
    exact ⟨hm, hc.1.1⟩

/-- A plain read at the home returns the bytes or those of an old value; without an old value, the bytes. -/
theorem plainBytes_returned (s : State) (c pa n : Nat) :
    Returned s pa n (plainBytes s c pa n).2 ∧ (NoOld s pa → (plainBytes s c pa n).2 = bytesAt s pa n) := by
  have hq := Quiet.pickOld s (oldsOf s c (pa / 8 * 8))
  rw [plainBytes]
  split
  · rename_i u e hp
    obtain ⟨hm, ha⟩ := mem_oldsOf (pickOld_mem hp)
    exact ⟨.inr ⟨e, hm, ha, rfl⟩, fun hno => absurd ha (hno e hm)⟩
  · rename_i u hp
    rw [hp] at hq
    exact ⟨.inl (hq.bytesAt_eq pa n), fun _ => hq.bytesAt_eq pa n⟩

theorem overlay_nil (a : Nat) (b : List Byte) : overlay [] a b = b := by
  induction b generalizing a with
  | nil => rfl
  | cons x b ih => exact congrArg (x :: ·) (ih (a + 1))

/-! ### A load at its home (R177, R201) -/

theorem Quiet.returned_eq {s t : State} (q : Quiet s t) (pa n : Nat) (b : List Byte) : Returned t pa n b = Returned s pa n b := by
  rw [Returned, q.bytesAt_eq, q.jobOld_eq, Returned]

theorem Quiet.noOld_eq {s t : State} (q : Quiet s t) (pa : Nat) : NoOld t pa = NoOld s pa := by rw [NoOld, q.jobOld_eq, NoOld]

/-- The result of a load reads what may be returned, and changes bookkeeping alone. -/
structure Serves (s : State) (pa n : Nat) (acq : Bool) (x : State × LoadRes) : Prop where
  quiet : Quiet s x.1
  bytes : ∃ b, x.2 = .bytes b ∧ Returned s pa n b ∧ (acq = true ∨ NoOld s pa → b = bytesAt s pa n)

section Home
variable {s t : State} {pa n : Nat} {acq : Bool}

theorem Serves.of_quiet (q : Quiet s t) {x : State × LoadRes} (h : Serves t pa n acq x) : Serves s pa n acq x where
  quiet := q.trans h.quiet
  bytes := by
    have hb := h.bytes
    simpa only [q.returned_eq, q.noOld_eq, q.bytesAt_eq] using hb

theorem serves_plainBytes (s : State) (c pa n : Nat) {fill : State → State} (hfill : ∀ u, Quiet u (fill u)) :
    Serves s pa n false (fill (plainBytes s c pa n).1, .bytes (overlay [] pa (plainBytes s c pa n).2)) := by
  obtain ⟨hret, hno⟩ := plainBytes_returned s c pa n
  rw [overlay_nil]
  exact ⟨(Quiet.plainBytes s c pa n).trans (hfill _), _, rfl, hret, fun h => hno (h.resolve_left (by decide))⟩

theorem serves_loadAt {c : Nat} {fill : State → State} (hbad : uncorrectable s pa n = false) (hfill : ∀ u, Quiet u (fill u)) :
    Serves s pa n false (loadAt s c [] pa n fill) := by
  unfold loadAt
  rw [hbad]
  exact serves_plainBytes s c pa n hfill

/-- A load in the core's segment, an acquire or an uncached load reads at the home (R177, R179). -/
theorem serves_loadHome {c : Nat} {nc : Bool} (ht : (homeTile pa).isSome = true) (hwhere : inSegment c pa = true ∨ acq = true ∨ nc = true)
    (hown : outstanding s c = []) (hbad : uncorrectable s pa n = false) : Serves s pa n acq (loadHome s c pa n acq nc) := by
  obtain ⟨t, ht⟩ := Option.isSome_iff_exists.1 ht
  have hmsg := Quiet.noteMsg s c t
  unfold loadHome
  rw [ht, hown]
  dsimp only
  split
  · rw [hbad, overlay_nil]
    have hq := Quiet.correctAt s c pa n
    have hkeep (u : State) : Quiet u (if inSegment c pa && (getCore u c).l1d.any (·.addr == pa / 32 * 32) then u
        else dropOwnCopies (noteMsg u c t) c pa) := Quiet.of_ite (Quiet.refl _) ((Quiet.noteMsg _ c t).trans (Quiet.dropOwnCopies _ c pa))
    refine ⟨hq.trans (hkeep _), _, rfl, ?_⟩
    have hb := (hq.trans (hkeep _)).bytesAt_eq pa n
    exact ⟨.inl hb, fun _ => hb⟩
  · rename_i hacq
    obtain rfl : acq = false := by simpa using hacq
    split
    · exact serves_loadAt hbad Quiet.refl
    · split
      · exact (serves_loadAt (hmsg.uncorrectable_eq pa n ▸ hbad) fun u => Quiet.dropOwnCopies u c pa).of_quiet hmsg
      · rename_i hnc
        have hseg : inSegment c pa = true := by
          rcases hwhere with h | h | h
          · exact h
          · cases h
          · simp [h] at hnc
        rw [if_pos hseg]
        unfold loadNear
        split
        · exact serves_plainBytes s c pa n (fill := id) Quiet.refl
        · have hq := (Quiet.countAt s c 3 1).trans (Quiet.noteMsg _ c t)
          exact (serves_loadAt (hq.uncorrectable_eq pa n ▸ hbad) fun u => Quiet.fillLine u c pa).of_quiet hq

end Home

/-! ### Loads that no own store covers (R201) -/

theorem youngest_of_apart {l : List StoreEnt} {pa n i : Nat} (h : (l.any fun e => decide (e.pa < pa + n) && decide (pa < e.pa + e.n)) = false)
    (hi : i < n) : youngest l (pa + i) = none := by
  have hnone : (l.filter fun e => storeHas e (pa + i)) = [] := by
    rw [List.filter_eq_nil_iff]
    intro e he hhas
    obtain ⟨hfrom, hto⟩ := Bool.and_eq_true_iff.1 hhas
    have hle : e.pa ≤ pa + i := of_decide_eq_true (Bool.and_eq_true_iff.1 hfrom).2
    have hlt : pa + i < e.pa + e.n := of_decide_eq_true hto
    exact List.any_eq_false.1 h e he (Bool.and_eq_true_iff.2 ⟨decide_eq_true (hle.trans_lt (Nat.add_lt_add_left hi pa)),
      decide_eq_true ((Nat.le_add_right ..).trans_lt hlt)⟩)
  unfold youngest
  rw [hnone]
  rfl

theorem uncovered_of_settled {s : State} {c pa n : Nat} (h : ownStoresOver s c pa n = false) (hn : 0 < n) :
    covered (getCore s c).sbuf pa n = false ∧ uncovered (getCore s c).sbuf pa n = true := by
  have hbuf := (Bool.or_eq_false_iff.1 h).1
  constructor
  · unfold covered
    rw [List.all_eq_false]
    exact ⟨0, List.mem_range.2 hn, by rw [youngest_of_apart hbuf hn]; decide⟩
  · unfold uncovered
    rw [List.all_eq_true]
    intro i hi
    rw [youngest_of_apart hbuf (List.mem_range.1 hi)]
    rfl

theorem sizeBytes_pos (sz : Size) : 0 < sizeBytes sz := by cases sz <;> decide

/-- A load at its home completes with what its home serves. -/
theorem loadMem_home {s : State} {c : Nat} {r : Running} {d : Reg} {pa n : Nat} {signed acq nc : Bool} (hn : 0 < n)
    (ht : (homeTile pa).isSome = true) (hacc : accLoadHeld s pa = false) (hwhere : inSegment c pa = true ∨ acq = true ∨ nc = true)
    (hown : ownStoresOver s c pa n = false) (hout : outstanding s c = []) (hbad : uncorrectable s pa n = false) :
    ∃ u b, loadMem s c r d pa n signed acq nc = finish u c r d (extendN signed n (ofBytes b)) ∧ Quiet s u ∧ Returned s pa n b ∧
      (acq = true ∨ NoOld s pa → b = bytesAt s pa n) := by
  obtain ⟨hq, b, hb, hret, hnew⟩ := serves_loadHome (acq := acq) (nc := nc) ht hwhere hout hbad
  obtain ⟨hcov, huncov⟩ := uncovered_of_settled hown hn
  refine ⟨if acq then acquireDone (loadHome s c pa n acq nc).1 c .panel else (loadHome s c pa n acq nc).1, b, ?_,
    hq.trans (Quiet.of_ite (Quiet.acquireDone _ c .panel) (Quiet.refl _)), hret, hnew⟩
  unfold loadMem
  simp only [hown, hcov, huncov, hacc, Bool.and_false, Bool.false_and, Bool.false_eq_true, ↓reduceIte, Bool.not_true]
  generalize loadHome s c pa n acq nc = x at hb ⊢
  obtain ⟨u, res⟩ := x
  obtain rfl : res = .bytes b := hb
  rfl

/-! ### What the checks leave of a load's conditions -/

theorem Quiet.settled {s t : State} (q : Quiet s t) {pa n : Nat} (h : Settled s pa n) :
    ownStoresOver t s.cur pa n = false ∧ outstanding t s.cur = [] := by
  rw [q.ownStoresOver_eq, q.outstanding_eq]
  exact h

section Order

theorem countCorrected_order (s : State) (pa n : Nat) : (countCorrected s pa n).order = s.order := by
  have hce (s : State) (a : Nat) : (countCe s a).order = s.order := by
    unfold countCe
    split
    · rfl
    · split
      · rfl
      · rfl
  unfold countCorrected
  induction codesOf pa n generalizing s with
  | nil => rfl
  | cons a l ih =>
    rw [List.foldl_cons, ih]
    split
    · exact hce _ a
    · rfl

theorem countWalk_order (s : State) (t tenant va : Nat) : (countWalk s t tenant va).order = s.order := by
  unfold countWalk
  generalize walkReads s t tenant va = l
  suffices h : ∀ u : State, (l.foldl (fun u a => if holeCheck u t a == .clear then countCorrected u a 8 else u) u).order = u.order from h s
  induction l with
  | nil => exact fun _ => rfl
  | cons a l ih =>
    intro u
    rw [List.foldl_cons, ih]
    split
    · exact countCorrected_order u a 8
    · rfl

theorem translate_order (s : State) (c tenant va : Nat) : (translate s c tenant va).1.order = s.order := by
  have hfill (u : State) (w : Walk) : (match w with | .leaf l => (tlbFill u c tenant l, w) | _ => (u, w)).1.order = u.order := by
    split
    · rfl
    · rfl
  unfold translate
  lift_lets
  intro tl fresh inCore hit s1 s2 missed
  have h2 : s2.order = s.order := by
    simp only [s2, s1]
    split
    · split
      · rfl
      · rfl
    · split
      · rfl
      · rfl
  clear_value s2
  clear_value hit
  split
  · split
    · split
      · exact h2
      · exact h2
    · dsimp only
      split
      · exact h2
      · exact (hfill _ _).trans ((countWalk_order _ _ _ _).trans h2)
  · exact (hfill _ _).trans ((countWalk_order _ _ _ _).trans h2)

/-- The checks of an access take no place in the order of what the machine does. -/
theorem memCheck_order (s : State) (c : Nat) (r : Running) (ea : Word) (n : Nat) (kind : Kind) (row : Row) (posted : Bool) :
    (memCheck s c r ea n kind row posted).1.order = s.order := by
  unfold memCheck
  dsimp only
  split
  · split
    · rfl
    · split
      · rfl
      · rfl
  · rename_i tenant _
    have h := translate_order s c tenant ea.toNat
    split
    · rfl
    · split
      · rfl
      · split
        all_goals
          rename_i ht
          rw [ht] at h
        · split
          · exact h
          · exact h
        · exact h
        · exact h

theorem ancestors_succ (s : State) (n r : Nat) : ancestors s (n + 1) r = if r == 0 then [] else r :: ancestors s n (rcbParent s r) := rfl

theorem Quiet.suspendedRegion_eq {s t : State} (q : Quiet s t) (r : Nat) : suspendedRegion t r = suspendedRegion s r := by
  have hstate (r : Nat) : rcbState t r = rcbState s r := by rw [rcbState, rcbField, q.hw_eq, rcbState, rcbField]
  have hanc (n r : Nat) : ancestors t n r = ancestors s n r := by
    induction n generalizing r with
    | zero => rfl
    | succ n ih => rw [ancestors_succ, ancestors_succ, rcbParent, rcbField, q.hw_eq, ih]; rfl
  unfold suspendedRegion ancestorsOf
  simp only [hstate, hanc, q.areas_eq]

theorem Quiet.accLoadHeld_eq {s t : State} (q : Quiet s t) (ho : t.order = s.order) (pa : Nat) : accLoadHeld t pa = accLoadHeld s pa := by
  have hbusy (i j : Nat) : accBusySys t i j = accBusySys s i j := by
    unfold accBusySys tileJobs getQueue
    simp only [q.queues_eq, q.suspendedRegion_eq]
  have hheld (i j : Nat) : accHeld t i j = accHeld s i j := by unfold accHeld tileJobs getQueue; simp only [q.queues_eq]
  have hdue (i j n : Nat) : accDue t i j n = accDue s i j n := by
    have hst (w : Nat) : pstate t w = pstate s w := pstate_congr q.mem_eq w
    have hb : accBusy t i j = accBusy s i j := by unfold accBusy tileJobs getQueue; simp only [q.queues_eq]
    unfold accDue
    rw [q.procs_eq]
    refine congrArg (List.any s.procs) (funext fun e => ?_)
    cases e.2.wait with
    | acc u op n =>
      dsimp only
      rw [hst, hb, hheld]
    | accLd u i d sz sg n =>
      dsimp only
      rw [hst, hbusy]
    | _ => rfl
  have hturn (b : HeldBy) : storeTurn t b = storeTurn s b := by
    cases b with
    | store c i =>
      delta storeTurn
      dsimp only
      rw [q.journal_eq, ho]
    | _ => exact congrArg (· + 1) ho
  unfold accLoadHeld storeDue
  simp only [hbusy, hheld, hdue, hturn, q.held_eq, ho]

end Order

/-! ### Loads (R177, R180, R196, R201, R434) -/

/-- The numbers that a load may return of the bytes it may return (R189). -/
theorem Returned.number {s : State} {pa n : Nat} {b : List Byte} (h : Returned s pa n b) :
    ofBytes b % 256 ^ n = ofBytes b ∧
      (ofBytes b = rdN s pa n ∨ ∃ e ∈ s.jobOld, e.addr = pa / 8 * 8 ∧ ofBytes b = e.old.toNat / 256 ^ (pa % 8) % 256 ^ n) := by
  rcases h with rfl | ⟨e, he, ha, rfl⟩
  · have hlen : (bytesAt s pa n).length = n := by simp [bytesAt]
    exact ⟨Nat.mod_eq_of_lt (lt_of_lt_of_eq (ofBytes_lt _) (by rw [hlen])), .inl (rdN_eq_ofBytes s pa n).symm⟩
  · have hold := ofBytes_old e.old (Nat.mod_lt pa (by decide)) n
    exact ⟨by rw [hold, Nat.mod_mod], .inr ⟨e, he, ha, hold⟩⟩

/-- A load whose checks pass goes on at its physical address, by its space. -/
theorem exec_load {i : Instr} {signed acq : Bool} {d a : Reg} {sz : Size} {off : BitVec 14} (hi : loadOf i = some (signed, acq, d, a, sz, off))
    {s s1 : State} {r : Running} {pa : Nat} {nc : Bool} (h : Issues s r)
    (hchk : memCheck s s.cur r (effective (reg s r a) off sz) (bytesOfSize sz) .read .ldst false = (s1, .ok pa nc)) :
    exec i s = .next (if spaceOf pa == 8 then loadHost s1 s.cur (effective (reg s r a) off sz) pa d (bytesOfSize sz) signed acq
      else if spaceOf pa == 15 then loadDevice s1 s.cur r d pa (bytesOfSize sz) signed acq
      else loadMem s1 s.cur r d pa (bytesOfSize sz) signed acq nc) := by
  rw [effective_eq, bytesOfSize_eq] at *
  rw [exec_loadOf h hi, loadInstr_next h]
  unfold access
  rw [hchk]

theorem homeTile_isSome {pa : Nat} (h : spaceOf pa = 0 ∨ spaceOf pa = 1) : (homeTile pa).isSome = true := by
  rcases h with h | h
  · unfold homeTile
    rw [h]; rfl
  · unfold homeTile
    rw [h]; rfl

theorem memCheck_quiet {s s1 : State} {c : Nat} {r : Running} {ea : Word} {n : Nat} {kind : Kind} {row : Row} {posted : Bool} {x : Chk}
    (h : memCheck s c r ea n kind row posted = (s1, x)) : Quiet s s1 ∧ s1.order = s.order := by
  have hq := Quiet.memCheck s c r ea n kind row posted
  have ho := memCheck_order s c r ea n kind row posted
  rw [h] at hq ho
  exact ⟨hq, ho⟩

theorem Quiet.devValue (s : State) (x : DevReg) : Quiet s (devValue s x).2 := by
  cases x with
  | map g i =>
    rcases i with _ | _ | i
    all_goals exact counters s _ _ _ _ _
  | wq q i =>
    rcases i with _ | _ | _ | _ | i
    all_goals exact counters s _ _ _ _ _
  | site n i =>
    rcases i with _ | _ | _ | _ | _ | i
    all_goals exact counters s _ _ _ _ _
  | _ => exact counters s _ _ _ _ _

theorem Quiet.setLatch (s : State) (c : Nat) (l : Nat × BitVec 32) : Quiet s (Machine.setLatch s (.core c) l) :=
  modCore (f := fun k => { k with latch := some l }) s c fun _ => rfl

theorem Quiet.devRead (s : State) (c pa n : Nat) : Quiet s (devRead s (.core c) pa n).2 := by
  unfold Machine.devRead
  split
  · exact refl s
  · rename_i x _
    have hv := devValue s x
    dsimp only
    split
    · exact hv
    · split
      · refine hv.trans ?_
        unfold energyHalf
        split
        · exact setLatch _ c _
        · split
          · split
            · exact refl _
            · exact refl _
          · exact refl _
      · exact hv

/-- A load of device space answers what the register reads as. -/
theorem loadDevice_reads {s : State} {c : Nat} {r : Running} {d : Reg} {pa n : Nat} {signed acq : Bool}
    (hbuf : ∀ e ∈ (getCore s c).sbuf, spaceOf e.pa ≠ 15) :
    ∃ u, loadDevice s c r d pa n signed acq = finish u c r d (extendN signed n (Machine.devRead s (.core c) pa n).1) ∧ Quiet s u := by
  have hany : ((getCore s c).sbuf.any fun e => spaceOf e.pa == 15) = false := by
    rw [List.any_eq_false]
    exact fun e he => by simpa using hbuf e he
  have hmsg (u : State) : Quiet u (match homeTile pa with | some t => noteMsg u c t | none => u) := by
    split
    · exact Quiet.noteMsg u c _
    · exact Quiet.refl u
  unfold loadDevice
  rw [hany]
  exact ⟨_, rfl, ((Quiet.devRead s c pa n).trans (hmsg _)).trans (Quiet.of_ite (Quiet.acquireDone _ c .panel) (Quiet.refl _))⟩

/-- Settles O6: a load reads what its home serves (`loadMem_home`), the register of device space, or nothing yet. -/
theorem loadsRead : Obligations.LoadsRead := by
  unfold Obligations.LoadsRead
  refine ⟨fun i signed acq d a sz off hi s r s1 pa nc h hchk hsp hwhere hset hbad => ?_,
    fun i signed acq d a sz off hi s r s1 pa nc h hchk => ⟨fun hsp hbuf => ?_, fun hsp hlink => ?_⟩⟩
  all_goals obtain ⟨q, ho⟩ := memCheck_quiet hchk
  · have hacc : accLoadHeld s1 pa = false := by
      rcases hsp with hsp | ⟨-, hsp⟩
      · simp [accLoadHeld, hsp]
      · rw [q.accLoadHeld_eq ho, hsp]
    have hne : (spaceOf pa == 8) = false ∧ (spaceOf pa == 15) = false := by
      rcases hsp with hsp | ⟨hsp, -⟩
      · rw [hsp]; decide
      · rw [hsp]; decide
    obtain ⟨hown, hout⟩ := q.settled hset
    rw [exec_load hi h hchk, hne.1, hne.2, bytesOfSize_eq] at *
    obtain ⟨u, b, hload, hu, hret, hnew⟩ := loadMem_home (r := r) (d := d) (signed := signed) (sizeBytes_pos sz)
      (homeTile_isSome (hsp.imp_right And.left)) hacc hwhere hown hout ((q.uncorrectable_eq pa _).trans hbad)
    rw [q.returned_eq] at hret
    rw [q.noOld_eq, q.bytesAt_eq] at hnew
    obtain ⟨hmod, hnum⟩ := hret.number
    refine ⟨_, _, ofBytes b, congrArg _ hload, (q.trans hu).answers h d _, (q.trans hu).readsOnly h d _, ?_, ?_, fun ha => ?_, hnum⟩
    · rintro rfl
      exact bytesOfSize_eq sz ▸ extendN_signed sz _
    · rintro rfl
      rw [extendN_unsigned, bytesOfSize_eq, hmod]
    · rw [rdN_eq_ofBytes, hnew ha]
  · obtain ⟨u, hload, hu⟩ := loadDevice_reads (c := s.cur) (r := r) (d := d) (pa := pa) (n := bytesOfSize sz) (signed := signed) (acq := acq)
      (s := s1) (by rw [q.sbuf_eq]; exact hbuf)
    rw [exec_load hi h hchk, hsp]
    refine ⟨_, _, congrArg _ hload, (q.trans hu).answers h d _, ((q.trans hu).readsOnly h d _).mem.1, ?_⟩
    rintro rfl
    rw [bytesOfSize_eq, extendN_unsigned, bytesOfSize_eq]
  · have hlink : linkStores s1 s.cur pa = false := by unfold linkStores; rw [q.sbuf_eq]; exact hlink
    have hnote := q.trans (Quiet.noteAt s1 s.cur pa)
    have hcur := hnote.cur_eq
    rw [exec_load hi h hchk, hsp]
    refine ⟨_, congrArg _ ((if_pos rfl).trans (if_neg (by rw [hlink]; decide))), ?_⟩
    dsimp only
    generalize noteAt s1 s.cur pa = u at hnote hcur
    have hme (hs : Hosts) (f : Core → Core) : me { modCore u s.cur f with hosts := hs } = f (getCore u s.cur) := by
      show getCore (modCore u s.cur f) u.cur = _
      rw [hcur, getCore_modCore_self]
    refine ⟨hnote.mem_eq, ?_, fun e => reg_congr h (by exact hcur) ?_ e, List.mem_append_right _ (List.mem_singleton.2 rfl), ?_⟩
    · rw [hme]
      exact (hnote.run_eq s.cur).trans (issuer_run h.running)
    · rw [hme]
      exact hnote.slots_eq s.cur
    · rw [hme]

/-! ### Loads of HBM (R39, R215) -/

/-- HLD on a memory core completes with what a plain read of its home returns. -/
theorem hld_next {s s1 : State} {r : Running} {d a : Reg} {sz : Size} {pa : Nat} {nc : Bool} (h : Issues s r) (hcore : isMemCore s.cur = true)
    (hchk : memCheck s s.cur r (reg s r a) (sizeBytes sz) .read .hmem false = (s1, .ok pa nc)) (hset : Settled s pa (sizeBytes sz))
    (hbad : uncorrectable s pa (sizeBytes sz) = false) :
    ∃ u b, exec (.hld d a sz) s = .next (finish u s.cur r d (extendN true (sizeBytes sz) (ofBytes b))) ∧ Quiet s u ∧
      Returned s pa (sizeBytes sz) b ∧ (NoOld s pa → b = bytesAt s pa (sizeBytes sz)) := by
  obtain ⟨q, -⟩ := memCheck_quiet hchk
  obtain ⟨hown, hout⟩ := q.settled hset
  obtain ⟨hcov, huncov⟩ := uncovered_of_settled hown (sizeBytes_pos sz)
  have hbad1 : uncorrectable s1 pa (sizeBytes sz) = false := (q.uncorrectable_eq pa _).trans hbad
  obtain ⟨v, hv, hmsg⟩ : ∃ v, (match homeTile pa with | some t => noteMsg s1 s.cur t | none => s1) = v ∧ Quiet s1 v := by
    split
    · exact ⟨_, rfl, Quiet.noteMsg s1 s.cur _⟩
    · exact ⟨_, rfl, Quiet.refl s1⟩
  have hout : outstanding v s.cur = [] := (hmsg.outstanding_eq _).trans hout
  obtain ⟨hret, hno⟩ := plainBytes_returned v s.cur pa (sizeBytes sz)
  rw [(q.trans hmsg).returned_eq] at hret
  rw [(q.trans hmsg).noOld_eq, (q.trans hmsg).bytesAt_eq] at hno
  refine ⟨_, _, ?_, (q.trans hmsg).trans (Quiet.plainBytes v s.cur pa (sizeBytes sz)), hret, hno⟩
  have hx : exec (.hld d a sz) s = execHld d a sz s := rfl
  rw [hx]
  unfold execHld
  rw [onCore_issues h]
  have hreg : src s s.cur r a = reg s r a := rfl
  unfold access
  simp only [hcore, ↓reduceIte, hreg, hchk, hown, hcov, huncov, hbad1, Bool.and_false, Bool.false_eq_true, Bool.not_true]
  rw [← overlay_nil pa (plainBytes v s.cur pa (sizeBytes sz)).2, ← hout, ← hv] <;> rfl

/-- Settles O8: HLD reads what its home serves (`hld_next`); elsewhere HLD and HST trap before any check. -/
theorem hbmAccess : Obligations.HbmAccess := by
  unfold Obligations.HbmAccess
  refine ⟨fun d a sz s r s1 pa nc h hcore hchk hset hbad => ?_, fun d a b sz s r h hroom hcore => ⟨?_, ?_⟩⟩
  · rw [bytesOfSize_eq] at *
    obtain ⟨u, b, hx, hu, hret, hnew⟩ := hld_next h hcore hchk hset hbad
    exact ⟨_, _, ofBytes b, hx, hu.answers h d _, hu.readsOnly h d _, bytesOfSize_eq sz ▸ extendN_signed sz _,
      fun hno => by rw [rdN_eq_ofBytes, hnew hno], hret.number.2⟩
  · exact ⟨_, _, (onCore_issues h.toIssues _ : execHld d a sz s = _).trans (congrArg _ (if_neg (by rw [hcore]; decide))),
      trapped_takeTrap h hroom ..⟩
  · exact ⟨_, _, (onCore_issues h.toIssues _ : execHst a b sz s = _).trans (congrArg _ (if_neg (by rw [hcore]; decide))),
      trapped_takeTrap h hroom ..⟩

end Sys2Proof.Machine
end

section
/-! SUPPORT. Instructions that wait at their place or leave their core to wait: full/empty words, WAITA and JOIN (R204 to R208, R224), fences
(R182, R197). -/

-- Proofs are elaborated one after another: side by side they would need more memory than a check has.
set_option Elab.async false

namespace Sys2Proof.Machine

open Sys2Proof.Claims

/-! ### Leaving the core to wait (R217) -/

theorem placed_congr {s t : State} {r : Running} (h : Placed s r) (hcores : t.cores = s.cores) (hcur : t.cur = s.cur) (hprocs : t.procs = s.procs)
    (hqueues : t.queues = s.queues) (hsel : t.selects = s.selects) : Placed t r := by
  have hcore (c : Nat) : getCore t c = getCore s c := getCore_congr hcores c
  refine ⟨⟨?_, ?_⟩, ?_, h.base, h.pcOk, hqueues ▸ h.noEntry, hsel ▸ h.noSelect⟩
  · unfold issuer
    rw [hcur, hcore]
    exact h.running
  · rw [hcur, hcore]
    exact h.resident
  · rw [getProc_congr hprocs, hcur]
    exact h.known

theorem waits_waitHere {s : State} {r : Running} (h : Placed s r) {st arg : Nat} (hst : st < 16) (harg : arg < 256) (i : WaitInfo) :
    Waits s (waitHere s s.cur r st arg i) r st arg i := by
  have hleft := left_leaveCore (issuer_run h.running) r.pc
  unfold waitHere
  generalize leaveCore s s.cur r.pc = u at hleft
  have hmem : (modProc (setPstate u r.wptr st arg) r.wptr fun p => { p with wait := i, waitClocks := 0 }).mem = (setPstate u r.wptr st arg).mem :=
    modProc_mem _ _ _
  have hcur : (modProc (setPstate u r.wptr st arg) r.wptr fun p => { p with wait := i, waitClocks := 0 }).cur = s.cur := by
    rw [modProc_cur, setPstate_cur, hleft.cur]
  have hme : me (modProc (setPstate u r.wptr st arg) r.wptr fun p => { p with wait := i, waitClocks := 0 }) = leftCore (me s) := by
    rw [me, hcur, getCore_congr (modProc_cores _ _ _), getCore_congr (setPstate_cores _ _ _ _), hleft.core, me]
  obtain ⟨p, hp, -⟩ := h.known
  refine ⟨hcur, ?_, ?_, ?_, ?_, ?_, fun e => ?_, ?_⟩
  · rw [hme]; rfl
  · rw [pstate_congr hmem, pstate_setPstate _ _ hst harg]
  · rw [parg_congr hmem, parg_setPstate _ _ hst harg]
  · rw [resumePc_congr hmem, resumePc_setPstate _ _ _ _ ((by decide : 8 ≤ 128).trans h.base.2)]
    unfold resumePc resumeAt
    rw [hleft.resume, bits_resumeWord _ _ _ h.pcOk, BitVec.ofNat_toNat, BitVec.setWidth_eq]
  · rw [getProc_modProc_self, getProc_congr (setPstate_procs _ _ _ _), getProc_congr hleft.procs, hp]
    rfl
  · exact reg_congr h.toIssues hcur (by rw [hme]; rfl) e
  · rw [hme]; rfl

/-- An access that a port held is forgotten: nothing else of a tile changes. -/
theorem getTile_dropHeldAcc_held (s : State) (who : HeldBy) (n : Nat) :
    getTile (dropHeldAcc s who) n = { getTile s n with held := (getTile (dropHeldAcc s who) n).held } := by
  unfold dropHeldAcc
  split
  · unfold getTile
    simp only [amGet_map_snd s.tiles (fun q => { q with held := q.held.filter (·.by_ != who) })]
    cases amGet s.tiles n <;> rfl
  · rfl

theorem tiles_waitHere {s : State} {r : Running} (h : Issues s r) (st arg : Nat) (i : WaitInfo) (n : Nat) :
    (getTile (waitHere s s.cur r st arg i) n).watches = (getTile s n).watches := by
  unfold waitHere
  rw [leaveCore_of_run (issuer_run h.running), getTile_congr (modProc_tiles _ _ _), getTile_congr (setPstate_tiles _ _ _ _),
    getTile_congr (modCore_tiles _ _ _), getTile_congr (putHw_tiles _ _ _), getTile_dropHeldAcc_held]

/-- What a wait rests on: the registers, the retired instructions and the core of the state it begins from. -/
theorem waits_from {s u t : State} {r : Running} {st arg : Nat} {i : WaitInfo} (h : Waits u t r st arg i) (hcur : u.cur = s.cur)
    (hregs : ∀ e, reg u r e = reg s r e) (hret : (me u).instret = (me s).instret) : Waits s t r st arg i :=
  ⟨h.cur.trans hcur, h.idle, h.state, h.arg, h.pc, h.info, fun e => (h.regs e).trans (hregs e), h.retired.trans hret⟩

/-- A later change of process records that leaves what the process waits for. -/
theorem waits_modProc {s t : State} {r : Running} {st arg : Nat} {i : WaitInfo} (h : Waits s t r st arg i) {f : Proc → Proc}
    (hf : ∀ p, (f p).wait = p.wait) : Waits s (modProc t r.wptr f) r st arg i := by
  have hmem := modProc_mem t r.wptr f
  have hcore (c : Nat) : getCore (modProc t r.wptr f) c = getCore t c := getCore_congr (modProc_cores t r.wptr f) c
  have hcur := modProc_cur t r.wptr f
  have hme : me (modProc t r.wptr f) = me t := by rw [me, hcur, hcore, me]
  have hreg (e : Reg) : reg (modProc t r.wptr f) r e = reg t r e := by
    unfold reg regRd slotReg
    simp only [hcur, hcore, hw_congr hmem]
  refine ⟨hcur.trans h.cur, hme ▸ h.idle, (pstate_congr hmem _).trans h.state, (parg_congr hmem _).trans h.arg, (resumePc_congr hmem _).trans h.pc,
    ?_, fun e => (hreg e).trans (h.regs e), hme ▸ h.retired⟩
  rw [getProc_modProc_self, Option.map_map, show (fun p : Proc => p.wait) ∘ f = (·.wait) from funext hf, h.info]

/-- A watch entry of the home is free: the process waits with one more watch there (R204). -/
theorem waits_watchAndWait {s : State} {r : Running} (h : Placed s r) {pa home st arg : Nat} (hh : homeTile pa = some home)
    (hfree : (getTile s home).watches.length < 64) (hst : st < 16) (harg : arg < 256) (ea : Word) (len : Nat) (i : WaitInfo) :
    Waits s (watchAndWait s s.cur r ea pa len st arg i) r st arg i ∧
      (getTile (watchAndWait s s.cur r ea pa len st arg i) home).watches = (getTile s home).watches ++ [⟨r.wptr, pa, len⟩] := by
  have hu : Placed (modTile s home fun k => { k with watches := k.watches ++ [⟨r.wptr, pa, len⟩] }) r := placed_congr h rfl rfl rfl rfl rfl
  have hw := waits_from (s := s) (waits_waitHere hu hst harg i) rfl (fun _ => rfl) rfl
  have ht := tiles_waitHere hu.toIssues st arg i home
  rw [getTile_modTile_self] at ht
  unfold watchAndWait
  simp only [hh]
  rw [if_neg (Nat.not_le.2 hfree)]
  exact ⟨waits_modProc hw fun _ => rfl, (congrArg Tile.watches (getTile_congr (modProc_tiles _ _ _) home)).trans ht⟩

/-! ### The instruction stands (log entry 2) -/

theorem held_holdHere {s : State} {r : Running} (h : Issues s r) : Held s (holdHere s) r := by
  have hrun : (getCore { s with yielded := true } s.cur).run = some r := issuer_run h.running
  rw [Held, holdHere, modCore, hrun]
  rfl

/-! ### Full/empty words, WAITA and JOIN (R204 to R208, R224) -/

theorem readBlock_home {s : State} {c pa n : Nat} {r : Running} (hown : ownStoresOver s c pa n = false) (hbad : uncorrectable s pa n = false)
    (k : State → State) : ∃ u, readBlock s c r pa n k = k u ∧ Quiet s u := by
  have hq := Quiet.correctAt s c pa n
  unfold readBlock
  rw [hown, hbad]
  refine ⟨_, rfl, ?_⟩
  split
  · exact Quiet.of_ite hq ((hq.trans (Quiet.noteMsg _ c _)).trans (Quiet.foldl (fun u i => Quiet.dropOwnCopies u c _) _ _))
  · exact hq

/-- A read of a full/empty word whose checks pass goes on at its home. -/
theorem access_read {s s1 : State} {r : Running} {ea : Word} {pa : Nat} {nc : Bool}
    (hchk : memCheck s s.cur r ea 8 .read .fe false = (s1, .ok pa nc)) (hown : ownStoresOver s s.cur pa 8 = false)
    (hbad : uncorrectable s pa 8 = false) (k : Nat → State → State) :
    ∃ u, access s s.cur r ea 8 .read .fe false (fun t pa _ => readBlock t s.cur r pa 8 (k pa)) = k pa u ∧ Quiet s u := by
  obtain ⟨q, -⟩ := memCheck_quiet hchk
  obtain ⟨u, hu, hq⟩ := readBlock_home (s := s1) (c := s.cur) (pa := pa) (n := 8) (r := r) ((q.ownStoresOver_eq _ _ _).trans hown)
    ((q.uncorrectable_eq pa 8).trans hbad) (k pa)
  unfold access
  rw [hchk]
  exact ⟨u, hu, q.trans hq⟩

theorem execWaita_zero {s : State} {r : Running} (h : Issues s r) {a : Reg} (ha : a ≠ 0) (d b : Reg) :
    execWaita d a b 0 s = .next (access s s.cur r (reg s r a) 8 .read .fe false fun t pa _ => readBlock t s.cur r pa 8 fun t =>
      if dwAt t pa == src t s.cur r b && true then watchAndWait t s.cur r (src t s.cur r a) pa 8 6 0 (.waita d (dwAt t pa) none)
      else finish (if t.rels.contains pa then acquireDone t s.cur .panel else t) s.cur r d (dwAt t pa)) :=
  (onCore_issues h _).trans (congrArg _ (if_neg ha))

/-- A state that reads alone have made is one that the process waits from. -/
theorem waits_from_quiet {s u : State} {r : Running} (h : Placed s r) (q : Quiet s u) {pa home st : Nat} (hh : homeTile pa = some home)
    (hfree : (getTile s home).watches.length < 64) (hst : st < 16) (ea : Word) (i : WaitInfo) :
    Waits s (watchAndWait u s.cur r ea pa 8 st 0 i) r st 0 i ∧
      (getTile (watchAndWait u s.cur r ea pa 8 st 0 i) home).watches = (getTile s home).watches ++ [⟨r.wptr, pa, 8⟩] := by
  have hw := waits_watchAndWait (q.placed h) hh (by rwa [q.watches_eq]) hst (arg := 0) (by decide) ea 8 i
  rw [q.cur_eq, q.watches_eq] at hw
  exact ⟨waits_from hw.1 q.cur_eq (q.reg_eq r) (by unfold me; rw [q.cur_eq, q.instret_eq]), hw.2⟩

/-- Settles O10: each of the three reads its word at its home (`access_read`) and answers or takes a watch there (`waits_from_quiet`). -/
theorem fullEmptyAndWaits : Obligations.FullEmptyAndWaits := by
  unfold Obligations.FullEmptyAndWaits
  refine fun s r h => ⟨fun i d a hi s1 pa nc home hchk hown hbad hh hfree => ?_, fun d b x hx0 => ?_⟩
  · rcases hi with rfl | ⟨rfl, rfl⟩ | ⟨b, ha, rfl⟩
    · obtain ⟨u, hu, q⟩ := access_read hchk hown hbad fun pa t =>
        if isFull t pa then finish (acquireDone t s.cur .panel) s.cur r d (dwAt t pa)
        else watchAndWait t s.cur r (src t s.cur r a) pa 8 5 0 (.ldf d)
      have hx := (execLdf_next h.toIssues d a).trans (congrArg _ hu)
      have qa := q.trans (Quiet.acquireDone u s.cur .panel)
      rw [q.isFull_eq, q.dwAt_eq] at hx
      refine ⟨fun hcase => ?_, fun st info hcase => ?_⟩
      · have hfull : isFull s pa = true := by simpa using hcase
        rw [if_pos hfull] at hx
        exact ⟨_, hx, qa.answers h.toIssues d _, qa.readsOnly h.toIssues d _⟩
      · obtain ⟨hempty, rfl, rfl⟩ : isFull s pa = false ∧ st = 5 ∧ info = .ldf d := by simpa using hcase
        rw [if_neg (by rw [hempty]; decide)] at hx
        exact ⟨_, hx, waits_from_quiet h q hh hfree (by decide) _ _⟩
    · obtain ⟨u, hu, q⟩ := access_read hchk hown hbad fun pa t =>
        if dwAt t pa == 0 then retire (acquireDone t s.cur .panel) s.cur r
        else watchAndWait t s.cur r (src t s.cur r a) pa 8 7 0 .join
      have hx := (execJoin_next h.toIssues a).trans (congrArg _ hu)
      have qa := q.trans (Quiet.acquireDone u s.cur .panel)
      rw [q.dwAt_eq] at hx
      refine ⟨fun hcase => ?_, fun st info hcase => ?_⟩
      · have hzero : dwAt s pa = 0 := by simpa using hcase
        rw [if_pos (by rw [hzero]; rfl), retire_eq_finish] at hx
        exact ⟨_, hx, hzero ▸ qa.answers h.toIssues 0 0, qa.readsOnly h.toIssues 0 0⟩
      · obtain ⟨hne, rfl, rfl⟩ : dwAt s pa ≠ 0 ∧ st = 7 ∧ info = .join := by simpa using hcase
        rw [if_neg (by simpa using hne)] at hx
        exact ⟨_, hx, waits_from_quiet h q hh hfree (by decide) _ _⟩
    · obtain ⟨u, hu, q⟩ := access_read hchk hown hbad fun pa t =>
        if dwAt t pa == src t s.cur r b && true then watchAndWait t s.cur r (src t s.cur r a) pa 8 6 0 (.waita d (dwAt t pa) none)
        else finish (if t.rels.contains pa then acquireDone t s.cur .panel else t) s.cur r d (dwAt t pa)
      have hx := (execWaita_zero h.toIssues ha d b).trans (congrArg _ hu)
      have qa := q.trans (Quiet.of_ite (p := u.rels.contains pa = true) (Quiet.acquireDone u s.cur .panel) (Quiet.refl u))
      have hb : src u s.cur r b = reg s r b := q.regRd_eq s.cur r.wptr b
      rw [q.dwAt_eq, hb] at hx
      refine ⟨fun hcase => ?_, fun st info hcase => ?_⟩
      · have hne : dwAt s pa ≠ reg s r b := by simpa using hcase
        rw [if_neg (by simpa using hne)] at hx
        exact ⟨_, hx, qa.answers h.toIssues d _, qa.readsOnly h.toIssues d _⟩
      · obtain ⟨heq, rfl, rfl⟩ : dwAt s pa = reg s r b ∧ st = 6 ∧ info = .waita d (dwAt s pa) none := by simpa using hcase
        rw [if_pos (by simpa using heq)] at hx
        exact ⟨_, hx, waits_from_quiet h q hh hfree (by decide) _ _⟩
  · have hx : exec (.waita d 0 b x) s = .next (waitTime s s.cur r d b x) := (onCore_issues h.toIssues _ : execWaita d 0 b x s = _)
    rw [hx]
    unfold waitTime
    rw [if_neg hx0]
    refine ⟨fun hlt => ⟨_, congrArg _ (if_pos (decide_eq_true hlt)), waits_waitHere h (by decide) (by decide) _⟩,
      fun hle => ⟨_, congrArg _ (if_neg (mt of_decide_eq_true (Nat.not_lt.2 hle))), regStep_finish h.toIssues d _⟩⟩

/-! ### Fences (R181, R182, R197) -/

/-- A release with nothing outstanding goes on, and otherwise stands at its place. -/
theorem releaseWait_done {s : State} {c : Nat} {r : Running} {sc : Scope} (href : refusedIn s c r.wptr sc = none) (hbuf : (getCore s c).sbuf = [])
    (hack : unackedIn s c r.wptr sc = false) (k : State → State) : releaseWait s c r sc k = k s := by
  unfold releaseWait
  rw [href, hbuf, hack]
  rfl

theorem releaseWait_held {s : State} {c : Nat} {r : Running} {sc : Scope} (href : refusedIn s c r.wptr sc = none)
    (hout : (getCore s c).sbuf ≠ [] ∨ unackedIn s c r.wptr sc = true) (k : State → State) : releaseWait s c r sc k = holdHere s := by
  unfold releaseWait
  rw [href]
  exact if_pos (by simpa using hout)

/-- A fence that releases: its end is a quiet change and retirement. -/
theorem exec_releaseFence {i : Instr} {sc : Scope} (hi : i = .fenceRel sc ∨ i = .fenceFull sc) {s : State} {r : Running} (h : Issues s r) :
    ∃ f : State → State, (∀ u, Quiet u (f u)) ∧ exec i s = .next (fenceWait s s.cur r sc fun u => finish (f u) s.cur r 0 0) := by
  rcases hi with rfl | rfl
  · refine ⟨id, Quiet.refl, ?_⟩
    simp only [← retire_eq_finish]
    exact (onCore_issues h _ : execFenceRel sc s = _)
  · refine ⟨fun u => acquireDone u s.cur sc, fun u => Quiet.acquireDone u s.cur sc, ?_⟩
    simp only [← retire_eq_finish]
    exact (onCore_issues h _ : execFenceFull sc s = _)

theorem fenceWait_done {s : State} {r : Running} {sc : Scope} (href : refusedIn s s.cur r.wptr sc = none) (hbuf : (me s).sbuf = [])
    (hack : unackedIn s s.cur r.wptr sc = false) (hlink : sc = .sys → (me s).linksUsed = 0) (k : State → State) :
    fenceWait s s.cur r sc k = k s := by
  unfold fenceWait
  rw [releaseWait_done href hbuf hack]
  split
  · next hsc => exact if_pos (hlink (by simpa using hsc))
  · rfl

/-- Settles O12: FENCE.ACQ is an acquire; the releases go through `releaseWait`, and for SYS through `linkFlush`. -/
theorem fencesOrder : Obligations.FencesOrder := by
  unfold Obligations.FencesOrder
  refine fun s r h sc => ⟨?_, fun i hi href => ?_⟩
  · have q := Quiet.acquireDone s s.cur sc
    have hx : exec (.fenceAcq sc) s = .next (retire (acquireDone s s.cur sc) s.cur r) := (onCore_issues h _ : execFenceAcq sc s = _)
    rw [retire_eq_finish] at hx
    exact ⟨_, hx, q.answers h 0 0, q.readsOnly h 0 0⟩
  · obtain ⟨f, hf, hx⟩ := exec_releaseFence hi h
    refine ⟨fun hbuf hack hlink => ?_, fun hout => ?_, fun hbuf hack hsc hlink => ?_⟩
    · rw [fenceWait_done href hbuf hack hlink] at hx
      exact ⟨_, hx, (hf s).answers h 0 0, (hf s).readsOnly h 0 0⟩
    · unfold fenceWait at hx
      rw [releaseWait_held href hout] at hx
      exact ⟨_, hx, held_holdHere h⟩
    · subst hsc
      unfold fenceWait at hx
      rw [releaseWait_done href hbuf hack] at hx
      refine ⟨_, hx.trans (congrArg _ ((if_pos rfl).trans (if_neg hlink))), rfl, ?_⟩
      exact getCore_modCore_self ..

end Sys2Proof.Machine
end

section
/-! SUPPORT. Numbers that words pack from fields, the lowest first. -/

-- Proofs are elaborated one after another: side by side they would need more memory than a check has.
set_option Elab.async false

namespace Sys2Proof.Machine

/-- The number of fields, each of a width in bits and a value, the lowest first. -/
noncomputable def packed : List (Nat × Nat) → Nat
  | [] => 0
  | (w, x) :: l => x + 2 ^ w * packed l

/-- Every field holds its value. -/
def Fits : List (Nat × Nat) → Prop
  | [] => True
  | (w, x) :: l => x < 2 ^ w ∧ Fits l

/-- Width of all fields. -/
noncomputable def widths : List (Nat × Nat) → Nat
  | [] => 0
  | (w, _) :: l => w + widths l

theorem packed_cons (w x : Nat) (l : List (Nat × Nat)) : packed ((w, x) :: l) = x + 2 ^ w * packed l := rfl

theorem widths_cons (w x : Nat) (l : List (Nat × Nat)) : widths ((w, x) :: l) = w + widths l := rfl

theorem packed_lt : ∀ {l : List (Nat × Nat)}, Fits l → packed l < 2 ^ widths l
  | [], _ => Nat.one_pos
  | (w, x) :: l, h => by
    have hl := packed_lt h.2
    rw [packed_cons, widths_cons, Nat.pow_add, Nat.add_comm]
    calc 2 ^ w * packed l + x < 2 ^ w * packed l + 2 ^ w := Nat.add_lt_add_left h.1 _
      _ = 2 ^ w * (packed l + 1) := rfl
      _ ≤ 2 ^ w * 2 ^ widths l := Nat.mul_le_mul_left _ hl

theorem packed_low {w x : Nat} {l : List (Nat × Nat)} (h : Fits ((w, x) :: l)) : packed ((w, x) :: l) % 2 ^ w = x := by
  rw [packed_cons, Nat.add_mul_mod_self_left, Nat.mod_eq_of_lt h.1]

/-- A field is what stands in its bits. -/
theorem packed_field {l : List (Nat × Nat)} (n : Nat) (h : Fits l) {w x : Nat} (hn : l[n]? = some (w, x)) :
    packed l / 2 ^ widths (l.take n) % 2 ^ w = x := by
  induction l generalizing n with
  | nil => cases hn
  | cons p l ih =>
    obtain ⟨v, y⟩ := p
    cases n with
    | zero =>
      cases hn
      exact (congrArg (· % 2 ^ w) (Nat.div_one _)).trans (packed_low h)
    | succ n =>
      rw [List.take_succ_cons, widths_cons, packed_cons, Nat.pow_add, ← Nat.div_div_eq_div_mul, Nat.add_mul_div_left _ _ (Nat.two_pow_pos v),
        Nat.div_eq_of_lt h.1, Nat.zero_add]
      exact ih n h.2 hn

theorem bits_packed {v : Word} {l : List (Nat × Nat)} (hv : v.toNat = packed l) (hl : Fits l) (n : Nat) {w x hi lo : Nat}
    (hn : l[n]? = some (w, x)) (hlo : widths (l.take n) = lo) (hw : hi + 1 - lo = w) : bits v hi lo = x := by
  subst hlo hw
  unfold bits
  rw [hv, Nat.shiftRight_eq_div_pow]
  exact packed_field n hl hn

theorem word_packed {l : List (Nat × Nat)} {m : Nat} (hm : packed l = m) (hl : Fits l) (h : widths l ≤ 64) : (word m).toNat = packed l := by
  rw [← hm]
  exact word_toNat ((packed_lt hl).trans_le (Nat.pow_le_pow_right (by decide) h))

/-- The fields as the model adds them up, highest first. -/
noncomputable def sumDown (off : Nat) : List (Nat × Nat) → Nat
  | [] => 0
  | [(_, x)] => x * 2 ^ off
  | (w, x) :: y :: l => sumDown (off + w) (y :: l) + x * 2 ^ off

/-- The fields added up lowest first. -/
noncomputable def sumUp (sum off : Nat) : List (Nat × Nat) → Nat
  | [] => sum
  | (w, x) :: l => sumUp (sum + x * 2 ^ off) (off + w) l

theorem sumDown_eq (off : Nat) (l : List (Nat × Nat)) : sumDown off l = packed l * 2 ^ off := by
  induction l generalizing off with
  | nil => exact (Nat.zero_mul _).symm
  | cons p l ih =>
    obtain ⟨w, x⟩ := p
    cases l with
    | nil => rfl
    | cons y l =>
      have hcons : sumDown off ((w, x) :: y :: l) = sumDown (off + w) (y :: l) + x * 2 ^ off := rfl
      rw [hcons, ih, Nat.pow_add', packed_cons w x, Nat.add_mul, Nat.add_comm, ← Nat.mul_assoc, Nat.mul_comm (2 ^ w)]

theorem sumUp_eq (sum off : Nat) (l : List (Nat × Nat)) : sumUp sum off l = sum + packed l * 2 ^ off := by
  induction l generalizing sum off with
  | nil => exact (congrArg (sum + ·) (Nat.zero_mul _)).symm
  | cons p l ih =>
    obtain ⟨w, x⟩ := p
    have hcons : sumUp sum off ((w, x) :: l) = sumUp (sum + x * 2 ^ off) (off + w) l := rfl
    rw [hcons, ih, Nat.pow_add', packed_cons, Nat.add_mul, Nat.add_assoc, ← Nat.mul_assoc, Nat.mul_comm (2 ^ w)]

theorem packed_down {w x : Nat} {l : List (Nat × Nat)} : packed ((w, x) :: l) = sumDown w l + x := by
  rw [sumDown_eq, packed_cons, Nat.add_comm, Nat.mul_comm]

theorem packed_up {w x : Nat} {l : List (Nat × Nat)} : packed ((w, x) :: l) = sumUp x w l := by
  rw [sumUp_eq, packed_cons, Nat.mul_comm]

/-- The field on top is what the number is divided by the place of. -/
theorem packed_top {l : List (Nat × Nat)} (n : Nat) (h : Fits l) {w x : Nat} (hn : l[n]? = some (w, x))
    (hw : widths (l.take n) + w = widths l) : packed l / 2 ^ widths (l.take n) = x := by
  have hlt : packed l / 2 ^ widths (l.take n) < 2 ^ w := Nat.div_lt_of_lt_mul (by rw [← Nat.pow_add, hw]; exact packed_lt h)
  rw [← Nat.mod_eq_of_lt hlt]
  exact packed_field n h hn

end Sys2Proof.Machine
end

section
/-! SUPPORT. Run queues (R218): a process put at the tail of its queue; YIELD, PRIO and SELF (R225, R227, R229). -/

-- Proofs are elaborated one after another: side by side they would need more memory than a check has.
set_option Elab.async false

namespace Sys2Proof.Machine

open Sys2Proof.Claims

/-! ### Links of a queue -/

theorem writeLinks_rest (s : State) (q : List Nat) : writeLinks s q = { s with mem := (writeLinks s q).mem } := by
  induction q generalizing s with
  | nil => rfl
  | cons w q ih =>
    cases q with
    | nil => rfl
    | cons v q => exact (ih _).trans rfl

/-- The links of a queue stand in the link words of its processes: a word apart from them keeps its value. -/
theorem hw_writeLinks {a : Nat} {q : List Nat} (h : ∀ x ∈ q, a + 8 ≤ x - 32 ∨ x - 32 + 8 ≤ a) (s : State) :
    hw (writeLinks s q) a = hw s a := by
  induction q generalizing s with
  | nil => rfl
  | cons w q ih =>
    have hw := h w List.mem_cons_self
    cases q with
    | nil => exact hw_putHw_apart _ _ _ _ hw
    | cons v q => exact (ih (fun x hx => h x (List.mem_cons_of_mem _ hx)) _).trans (hw_putHw_apart _ _ _ _ hw)

/-- A core whose run queue of one priority has been replaced. -/
noncomputable def withQueue (hp : Bool) (q : List Nat) (k : Core) : Core := if hp then { k with highQ := q } else { k with lowQ := q }

theorem runQueue_withQueue (hp : Bool) (q : List Nat) (k : Core) : runQueue (withQueue hp q k) hp = q := by cases hp <;> rfl

theorem withQueue_fields (hp : Bool) (q : List Nat) (k : Core) :
    withQueue hp q k = { k with highQ := (withQueue hp q k).highQ, lowQ := (withQueue hp q k).lowQ } := by cases hp <;> rfl

theorem getCore_putRunQueue (s : State) (c : Nat) (hp : Bool) (q : List Nat) :
    getCore (putRunQueue s c hp q) c = withQueue hp q (getCore s c) := by
  have hcores (u : State) : (writeLinks u q).cores = u.cores := by rw [writeLinks_rest]
  unfold putRunQueue
  rw [getCore_congr (hcores _), getCore_modCore_self]
  rfl

/-- A word of the workspace of `v` meets no word of the head of `w`, nor its WAIT word. -/
theorem word_apart {v w a x : Nat} (h : Apart v w) (ha : w ≤ a + 8) (ha' : a ≤ w + 120) (hx : v ≤ x + 128) (hx' : x ≤ v + 120) :
    a + 8 ≤ x ∨ x + 8 ≤ a := by
  rcases h with h | h
  · refine .inr ((Nat.add_le_add_right hx' 8).trans ((Nat.add_le_add_left (by decide : 128 ≤ 248) v).trans ?_))
    exact Nat.le_of_add_le_add_right (b := 8) (h.trans ha)
  · exact .inl ((Nat.add_le_add_right ha' 8).trans (Nat.le_of_add_le_add_right (b := 128) (h.trans hx)))

/-- The WAIT word stands before the resume word. -/
theorem wait_apart {w : Nat} (h : 128 ≤ w) : w + 8 ≤ w - 8 ∨ w - 8 + 8 ≤ w := .inr (Nat.sub_add_cancel ((by decide : 8 ≤ 128).trans h)).le

theorem word_ne_apart {a b : Nat} (ha : 8 ∣ a) (hb : 8 ∣ b) (h : a ≠ b) : a + 8 ≤ b ∨ b + 8 ≤ a := by
  obtain ⟨a, rfl⟩ := ha
  obtain ⟨b, rfl⟩ := hb
  rcases Nat.lt_or_gt_of_ne h with h | h
  · exact .inl (Nat.mul_le_mul_left 8 (Nat.lt_of_mul_lt_mul_left h))
  · exact .inr (Nat.mul_le_mul_left 8 (Nat.lt_of_mul_lt_mul_left h))

theorem sub_mod_workspace {x b : Nat} (hx : x % 128 = 0) (hx' : 128 ≤ x) (hb : b ≤ 128) : (x - b) % 128 = (128 - b) % 128 := by
  obtain ⟨k, rfl⟩ := Nat.exists_eq_add_of_le' hx'
  rw [Nat.add_mod_right] at hx
  rw [Nat.add_sub_assoc hb, Nat.add_mod, hx, Nat.zero_add, Nat.mod_mod]

/-- The link word of an aligned workspace is neither the WAIT word nor the resume word of one. -/
theorem link_apart {x w a : Nat} (hx : x % 128 = 0 ∧ 128 ≤ x) (hw : w % 128 = 0 ∧ 128 ≤ w) (ha : a = w - 8 ∨ a = w) :
    a + 8 ≤ x - 32 ∨ x - 32 + 8 ≤ a := by
  have hlink : (x - 32) % 128 = 96 := sub_mod_workspace hx.1 hx.2 (by decide)
  have hword : a % 128 = 120 ∨ a % 128 = 0 := by
    rcases ha with rfl | rfl
    · exact .inl (sub_mod_workspace hw.1 hw.2 (by decide))
    · exact .inr hw.1
  have h8 {z : Nat} (h : z % 128 % 8 = 0) : 8 ∣ z := Nat.dvd_of_mod_eq_zero (by rwa [Nat.mod_mod_of_dvd _ (by decide)] at h)
  refine word_ne_apart (h8 ?_) (h8 (by rw [hlink])) fun h => ?_
  · rcases hword with h | h <;> rw [h]
  · rw [h, hlink] at hword
    exact absurd hword (by decide)

theorem le_link_add (x : Nat) : x ≤ x - 32 + 128 := le_tsub_add.trans (Nat.add_le_add_left (by decide) _)

/-- The links of a queue leave what such words hold. -/
theorem hw_writeLinks_head {q : List Nat} {w a : Nat} (h : QueueApart q w) (ha : w ≤ a + 8) (ha' : a ≤ w + 120) (s : State) :
    hw (writeLinks s q) a = hw s a := by
  refine hw_writeLinks (fun x hx => ?_) s
  obtain ⟨-, hb, hx⟩ := h x hx
  exact word_apart hx ha ha' (le_link_add x) (Nat.le_add_right_of_le (Nat.sub_le ..))

/-- Link words of an aligned process's queue fellows stand apart from its own resume and WAIT words. -/
theorem apart_of_queueApart {q : List Nat} {w a : Nat} (hw : 128 ≤ w) (h : QueueApart q w) (ha : w - 8 ≤ a) (ha' : a ≤ w) :
    ∀ x ∈ q ++ [w], a + 8 ≤ x - 32 ∨ x - 32 + 8 ≤ a := by
  intro x hx
  rcases List.mem_append.1 hx with hx | hx
  · obtain ⟨-, hb, hx⟩ := h x hx
    exact word_apart hx (Nat.sub_le_iff_le_add.1 ha) (Nat.le_add_right_of_le ha') (le_link_add x) (Nat.le_add_right_of_le (Nat.sub_le ..))
  · obtain rfl := List.mem_singleton.1 hx
    obtain ⟨k, rfl⟩ := Nat.exists_eq_add_of_le' hw
    rw [Nat.add_sub_assoc (by decide)] at ha
    rw [Nat.add_sub_assoc (by decide)]
    exact .inr ((Nat.add_le_add_left (by decide : 128 - 32 + 8 ≤ 128 - 8) k).trans ha)

section Enqueue
variable {s : State} {w c : Nat} {hp : Bool} (hc : procCore s w = c) (hhp : bit (resumeAt s w) 62 = hp)
include hc hhp

theorem getCore_enqueueTail :
    getCore (enqueueTail s w) c = { withQueue hp (runQueue (getCore s c) hp ++ [w]) (getCore s c) with wfi := false } := by
  unfold enqueueTail
  rw [hc, hhp]
  exact (getCore_modCore_self ..).trans (congrArg (fun k : Core => { k with wfi := false }) (getCore_putRunQueue ..))

theorem hw_enqueueTail {a : Nat} (h : ∀ x ∈ runQueue (getCore s c) hp ++ [w], a + 8 ≤ x - 32 ∨ x - 32 + 8 ≤ a) :
    hw (enqueueTail s w) a = hw s a := by
  unfold enqueueTail
  rw [hc, hhp]
  exact (hw_writeLinks h _).trans rfl

end Enqueue

theorem enqueueTail_cur (s : State) (w : Nat) : (enqueueTail s w).cur = s.cur := by
  unfold enqueueTail putRunQueue wakeCore
  rw [modCore_cur, writeLinks_rest]
  rfl

/-! ### Leaving the core for the tail of the queue -/

theorem bit_resumeWord_hp (sm hp xc : Bool) (pc : PC) : bit (resumeWord sm hp xc pc) 62 = hp := by
  have hb (b : Bool) : b2n b < 2 ^ 1 := by cases b <;> decide
  have hfits : Fits [(61, pc.toNat / 4 * 4), (1, b2n xc), (1, b2n hp), (1, b2n sm)] :=
    ⟨Nat.lt_of_le_of_lt (Nat.div_mul_le_self _ _) (Nat.lt_trans pc.isLt (by decide)), hb xc, hb hp, hb sm, trivial⟩
  have hword : (resumeWord sm hp xc pc).toNat = packed _ := word_packed packed_down hfits (Nat.le_refl 64)
  have hfield : packed _ / 2 ^ 62 % 2 = b2n hp := packed_field 2 hfits rfl
  unfold bit
  rw [BitVec.getLsbD, Nat.testBit_eq_decide_div_mod_eq, hword, hfield]
  cases hp <;> rfl

/-- Process `w` stands READY at the tail of its queue of core `c` with `pc` in its resume word. -/
structure Queued (s t : State) (c w : Nat) (hp : Bool) (pc : PC) : Prop where
  cur : t.cur = s.cur
  core : getCore t c = { withQueue hp (runQueue (getCore s c) hp ++ [w]) (leftCore (getCore s c)) with wfi := false }
  state : pstate t w = 1
  pc : resumePc t w = pc

/-- The running process goes to the tail of its queue (R218, R225). -/
theorem queued_leaveCore {s : State} {c : Nat} {r : Running} {pc : PC} (hrun : (getCore s c).run = some r) (hc : procCore s r.wptr = c)
    (hbase : 128 ≤ r.wptr) (hpc : pc.toNat % 4 = 0) (hq : QueueApart (runQueue (getCore s c) r.hp) r.wptr) :
    Queued s (enqueueTail (setPstate (leaveCore s c pc) r.wptr 1 0) r.wptr) c r.wptr r.hp pc := by
  have hleft := left_leaveCore hrun pc
  generalize leaveCore s c pc = u at hleft
  have hresume : resumeAt (setPstate u r.wptr 1 0) r.wptr = resumeWord r.sm r.hp r.xc pc := by
    unfold resumeAt setPstate
    rw [hw_putHw_apart _ _ _ _ (wait_apart hbase), hleft.resume]
  have hcore : procCore (setPstate u r.wptr 1 0) r.wptr = c := by
    unfold procCore
    rw [getProc_congr (setPstate_procs _ _ _ _), getProc_congr hleft.procs]
    exact hc
  have hbit : bit (resumeAt (setPstate u r.wptr 1 0) r.wptr) 62 = r.hp := by rw [hresume, bit_resumeWord_hp]
  have hk : getCore (setPstate u r.wptr 1 0) c = leftCore (getCore s c) := by rw [getCore_congr (setPstate_cores _ _ _ _), hleft.core]
  have hqueue : runQueue (leftCore (getCore s c)) r.hp = runQueue (getCore s c) r.hp := rfl
  have hword {a : Nat} (ha : r.wptr - 8 ≤ a) (ha' : a ≤ r.wptr) :=
    hw_enqueueTail hcore hbit (a := a) (by rw [hk, hqueue]; exact apart_of_queueApart hbase hq ha ha')
  refine ⟨?_, ?_, ?_, ?_⟩
  · rw [enqueueTail_cur, setPstate_cur, hleft.cur]
  · rw [getCore_enqueueTail hcore hbit, hk, hqueue]
  · unfold pstate waitAt
    rw [hword (Nat.le_refl _) (Nat.sub_le ..)]
    exact pstate_setPstate _ _ (by decide) (by decide)
  · unfold resumePc resumeAt
    rw [hword (Nat.sub_le ..) (Nat.le_refl _), ← resumeAt, hresume, bits_resumeWord _ _ _ hpc, BitVec.ofNat_toNat, BitVec.setWidth_eq]

/-! ### YIELD, PRIO and SELF -/

theorem getCore_retireTo {s : State} {c : Nat} {r : Running} (h : (getCore s c).run = some r) (pc : PC) :
    getCore (retireTo s c pc) c = { getCore s c with
      run := some { r with pc := pc, held := false, seen := [] }, bufStall := false, hostWord := none, instret := (getCore s c).instret + 1
      hpm := (getCore (retireTo s c pc) c).hpm } := by
  have hk : getCore (retireTo s c pc) c = retireCount { getCore s c with
      run := some { r with pc := pc, held := false, seen := [] }, bufStall := false, hostWord := none } := by
    unfold retireTo
    rw [getCore_modCore_self, h]
  rw [hk, retireCount_fields]

theorem reg_of_slots {s t : State} (hcur : t.cur = s.cur) (hslots : (me t).slots = (me s).slots) (hmem : t.mem = s.mem) (r : Running) (e : Reg) :
    reg t r e = reg s r e := by
  unfold me at hslots
  rw [hcur] at hslots
  have hat (i : Nat) : slotAt (getCore t s.cur) i = slotAt (getCore s s.cur) i := slotAt_congr hslots i
  have hof : slotOf (getCore t s.cur) r.wptr = slotOf (getCore s s.cur) r.wptr := slotOf_congr (fun i => by rw [holders, hat, holders]) _
  unfold reg
  rw [hcur]
  unfold regRd
  rw [hof, hw_congr hmem]
  simp only [slotReg, hat]

theorem yieldTo_stays {s : State} {c : Nat} {r : Running} (h : (runQueue (getCore (retire s c r) c) r.hp).isEmpty = true)
    (h' : r.hp = true ∨ (getCore (retire s c r) c).highQ = []) : yieldTo s c r = retire s c r := by
  rw [yieldTo, h]
  refine if_pos ?_
  rcases h' with h' | h'
  · rw [h']; rfl
  · rw [h', Bool.true_and]; exact Bool.or_true _

theorem finish_of_zero {s : State} {r : Running} (h : Issues s r) : RegStep s (retire s s.cur r) r 0 0 (r.pc + 4) := by
  rw [retire_eq_finish]
  exact regStep_finish h 0 0

theorem runQueue_retire {s : State} {r : Running} (h : (me s).run = some r) (hp : Bool) :
    runQueue (getCore (retire s s.cur r) s.cur) hp = runQueue (me s) hp ∧ (getCore (retire s s.cur r) s.cur).highQ = (me s).highQ := by
  unfold retire
  rw [getCore_retireTo h]
  exact ⟨by cases hp <;> rfl, rfl⟩

theorem execYield_next {s : State} {r : Running} (h : Issues s r) : exec .yield s = .next (yieldTo s s.cur r) := onCore_issues h _

theorem pc4_aligned {pc : PC} (h : pc.toNat % 4 = 0) : (pc + 4).toNat % 4 = 0 := by
  rw [BitVec.toNat_add, Nat.mod_mod_of_dvd _ (by decide : 4 ∣ 2 ^ 48), Nat.add_mod, h]
  rfl

theorem yield_stays {s : State} {r : Running} (h : Issues s r) (hq : runQueue (me s) r.hp = []) (hq' : r.hp = true ∨ (me s).highQ = []) :
    yieldTo s s.cur r = retire s s.cur r := by
  obtain ⟨hrun, hhigh⟩ := runQueue_retire (issuer_run h.running) r.hp
  exact yieldTo_stays (by rw [hrun, hq]; rfl) (by rwa [hhigh])

theorem yield_leaves {s : State} {r : Running} (h : Placed s r) (hne : runQueue (me s) r.hp ≠ [] ∨ (r.hp = false ∧ (me s).highQ ≠ []))
    (hq : QueueApart (runQueue (me s) r.hp) r.wptr) :
    Queued (retire s s.cur r) (yieldTo s s.cur r) s.cur r.wptr r.hp (r.pc + 4) := by
  obtain ⟨hrun, hhigh⟩ := runQueue_retire (issuer_run h.running) r.hp
  have hcond : ((runQueue (getCore (retire s s.cur r) s.cur) r.hp).isEmpty &&
      (r.hp || (getCore (retire s s.cur r) s.cur).highQ.isEmpty)) = false := by
    rw [hrun, hhigh]
    rcases hne with hne | ⟨hp, hne⟩
    · rw [List.isEmpty_eq_false_iff.2 hne]; rfl
    · rw [hp, List.isEmpty_eq_false_iff.2 hne]; exact Bool.and_false _
  have hy : yieldTo s s.cur r = enqueueTail (setPstate (leaveCore (retire s s.cur r) s.cur (r.pc + 4)) r.wptr 1 0) r.wptr := by
    unfold yieldTo
    exact if_neg (by rw [hcond]; exact Bool.false_ne_true)
  rw [hy]
  have hrun' : (getCore (retire s s.cur r) s.cur).run = some { r with pc := r.pc + 4, held := false, seen := [] } := by
    unfold retire
    rw [getCore_retireTo (issuer_run h.running)]
  refine queued_leaveCore (r := { r with pc := r.pc + 4, held := false, seen := [] }) hrun' ?_ h.base.2 (pc4_aligned h.pcOk) (by rwa [hrun])
  exact (procCore_of_placed h : procCore s r.wptr = s.cur)

theorem Quiet.openTval (s : State) : Quiet s (openTval s).2 := Quiet.counters s _ _ _ _ _

theorem execPrio_next {s : State} {r : Running} (h : Issues s r) (d a : Reg) : exec (.prio d a) s = .next
    (if bit (reg s r a) 0 == r.hp then finish s s.cur r d (boolW r.hp)
    else yieldTo (modCore (regWr s s.cur r.wptr d (boolW r.hp)) s.cur fun k => { k with run := some { r with hp := bit (reg s r a) 0 } }) s.cur
      { r with hp := bit (reg s r a) 0 }) := (onCore_issues h _ : execPrio d a s = _)

theorem execSelf_next {s : State} {r : Running} (h : Issues s r) (d a : Reg) : exec (.self d a) s = .next
    (if reg s r a = 0 then finish s s.cur r d (word r.wptr)
    else if reg s r a = 1 then
      match if r.rcb = 0 then none else logicalOf s r.rcb (coreTile s.cur) with
      | some (lx, ly) => finish s s.cur r d (word (coreIdx s.cur * 2 ^ 16 + ly * 2 ^ 8 + lx))
      | none => finish (openTval s).2 s.cur r d (openTval s).1
    else if reg s r a = 2 then finish s s.cur r d (word r.rcb)
    else trapHere s r .bound (reg s r a)) := (onCore_issues h _ : execSelf d a s = _)

/-- A register write changes nothing but the slots of the core. -/
theorem regWr_core {s : State} {r : Running} (h : Issues s r) (d : Reg) (v : Word) :
    me (regWr s s.cur r.wptr d v) = { me s with slots := (me (regWr s s.cur r.wptr d v)).slots } ∧ (regWr s s.cur r.wptr d v).cur = s.cur ∧
      (regWr s s.cur r.wptr d v).mem = s.mem := by
  obtain ⟨i, hi⟩ := Option.isSome_iff_exists.1 h.resident
  obtain ⟨-, sl, hs, -⟩ := slotOf_spec hi
  by_cases hd : d = 0
  · have hu : regWr s s.cur r.wptr d v = s := by rw [hd]; rfl
    rw [hu]
    exact ⟨rfl, rfl, rfl⟩
  · rw [regWr_slot hi hs d v hd]
    unfold me
    rw [putCore_cur, getCore_putCore_self]
    exact ⟨rfl, rfl, rfl⟩

/-- PRIO on a core whose queues are empty: the process goes on at its new priority. -/
theorem prio_changes {s : State} {r : Running} (h : Issues s r) (d : Reg) (v : Word) (hp : Bool) (hhigh : (me s).highQ = [])
    (hlow : (me s).lowQ = []) :
    let t := yieldTo (modCore (regWr s s.cur r.wptr d v) s.cur fun k => { k with run := some { r with hp := hp } }) s.cur { r with hp := hp }
    (me t).run = some { r with hp := hp, pc := r.pc + 4, held := false, seen := [] } ∧ (∀ e, reg t r e = reg (finish s s.cur r d v) r e) ∧
      t.mem = s.mem := by
  obtain ⟨hcore, hcur, hmem⟩ := regWr_core h d v
  unfold finish
  generalize regWr s s.cur r.wptr d v = u at hcore hcur hmem
  unfold me at hcore
  rw [hcur] at hcore
  have hrun : (getCore u s.cur).run = some r := by rw [hcore]; exact issuer_run h.running
  have hw : getCore (modCore u s.cur fun k => { k with run := some { r with hp := hp } }) s.cur =
      { getCore u s.cur with run := some { r with hp := hp } } := getCore_modCore_self ..
  have hret := getCore_retireTo (congrArg Core.run hw) (r.pc + 4)
  have hf := getCore_retireTo hrun (r.pc + 4)
  have hqueue (b : Bool) : runQueue (getCore (retire (modCore u s.cur fun k => { k with run := some { r with hp := hp } }) s.cur { r with hp := hp })
      s.cur) b = [] := by
    rw [retire, hret, hw, hcore]
    cases b
    · exact hlow
    · exact hhigh
  intro t
  have ht : t = retire (modCore u s.cur fun k => { k with run := some { r with hp := hp } }) s.cur { r with hp := hp } :=
    yieldTo_stays (by rw [hqueue]; rfl) (.inr (hqueue true))
  have htcur : t.cur = s.cur := by rw [ht]; exact hcur
  have hfcur : (retire u s.cur r).cur = s.cur := hcur
  unfold me
  rw [htcur, ht]
  have hslots : (getCore (retire (modCore u s.cur fun k => { k with run := some { r with hp := hp } }) s.cur { r with hp := hp }) s.cur).slots =
      (getCore (retire u s.cur r) s.cur).slots := by rw [retire, hret, hw, retire, hf]
  refine ⟨by unfold retire; rw [hret], fun e => reg_of_slots ?_ ?_ ?_ r e, hmem⟩
  · exact hcur.trans hfcur.symm
  · unfold me
    rw [hfcur, ← hslots]
    exact congrArg (fun c => (getCore _ c).slots) hcur
  · rfl

/-- Settles O23. YIELD and a PRIO that changes stay or go to the tail of the queue by `yieldTo`; SELF answers what its selector names. -/
theorem yieldPrioAndSelf : Obligations.YieldPrioAndSelf := by
  intro s r h
  have hi := h.toIssues
  refine ⟨fun hq hq' => ⟨_, execYield_next hi, ?_⟩, fun hne hq => ⟨_, execYield_next hi, ?_⟩,
    fun d a hhp => ⟨_, execPrio_next hi d a, ?_⟩,
    fun d a hhp hhigh hlow => ⟨_, execPrio_next hi d a, ?_⟩, fun d a hv => ⟨_, execSelf_next hi d a, ?_⟩,
    fun d a lx ly hv hr hl => ⟨_, execSelf_next hi d a, ?_⟩, fun d a hv hl => ⟨_, (openTval s).1, execSelf_next hi d a, ?_⟩,
    fun d a hv => ⟨_, execSelf_next hi d a, ?_⟩, fun d a hv hroom => ⟨_, execSelf_next hi d a, ?_⟩⟩
  · rw [yield_stays hi hq hq']
    exact finish_of_zero hi
  · have ht := yield_leaves h hne hq
    have hcur : (yieldTo s s.cur r).cur = s.cur := ht.cur
    have hu := getCore_retireTo (issuer_run hi.running) (r.pc + 4)
    have hcore := ht.core
    unfold retire at hcore
    rw [hu] at hcore
    have hme : me (yieldTo s s.cur r) = getCore (yieldTo s s.cur r) s.cur := congrArg (getCore _) hcur
    refine ⟨?_, ht.state, ht.pc, ?_, ?_, fun e => reg_congr hi hcur ?_ e⟩
    · rw [hme, hcore, withQueue_fields]; rfl
    · rw [hme, hcore]
      exact (runQueue_withQueue r.hp _ _).trans (by cases r.hp <;> rfl)
    · rw [hme, hcore, withQueue_fields]; rfl
    · rw [hme, hcore, withQueue_fields]; rfl
  · rw [hhp, beq_self_eq_true, if_pos rfl]
    exact regStep_finish hi d _
  · rw [if_neg (by simpa using hhp)]
    have hbit : bit (reg s r a) 0 = !r.hp := by revert hhp; cases bit (reg s r a) 0 <;> cases r.hp <;> decide
    rw [hbit]
    obtain ⟨hrun, hregs, hmem⟩ := prio_changes hi d (boolW r.hp) (!r.hp) hhigh hlow
    have hstep := regStep_finish hi d (boolW r.hp)
    exact ⟨hrun, fun hd => (hregs d).trans (hstep.dest hd), fun e he => (hregs e).trans (hstep.regs e he), hmem⟩
  · rw [if_pos hv]
    exact regStep_finish hi d _
  · rw [hv, if_neg (by decide), if_pos rfl, if_neg hr, hl]
    exact regStep_finish hi d _
  · rw [hv, if_neg (by decide), if_pos rfl]
    have hnone : (if r.rcb = 0 then none else logicalOf s r.rcb (coreTile s.cur)) = none := by
      rcases hl with hl | hl
      · rw [if_pos hl]
      · rw [hl]; exact ite_self _
    rw [hnone]
    exact (Quiet.openTval s).regStep_finish hi d _
  · rw [hv, if_neg (by decide), if_neg (by decide), if_pos rfl]
    exact regStep_finish hi d _
  · rw [if_neg (by rintro hz; rw [hz] at hv; exact absurd hv (by decide)), if_neg (by rintro hz; rw [hz] at hv; exact absurd hv (by decide)),
      if_neg (by rintro hz; rw [hz] at hv; exact absurd hv (by decide))]
    exact trapped_takeTrap h hroom .bound 0 _ 0 false

end Sys2Proof.Machine
end

section
/-! SUPPORT. Instructions that answer beside a change of their own: WFI and JRNL (R132, R352). -/

-- Proofs are elaborated one after another: side by side they would need more memory than a check has.
set_option Elab.async false

namespace Sys2Proof.Machine

open Sys2Proof.Claims

/-! ### An answer beside another change -/

/-- What an answer rests on: the registers and the retired instructions of the state that it begins from. -/
theorem answers_from {s u t : State} {r : Running} {d : Reg} {v : Word} (h : Answers u t r d v) (hcur : u.cur = s.cur)
    (hregs : ∀ e, reg u r e = reg s r e) (hret : (me u).instret = (me s).instret) : Answers s t r d v :=
  ⟨h.cur.trans hcur, h.dest, h.zero, fun e he => (h.regs e he).trans (hregs e), h.pc, h.retired.trans (hret ▸ rfl)⟩

/-- A later change of a core that leaves its slots, its process and INSTRET. -/
theorem answers_modCore {s t : State} {r : Running} {d : Reg} {v : Word} (h : Answers s t r d v) (c : Nat) {f : Core → Core}
    (hslots : ∀ k, (f k).slots = k.slots) (hrun : ∀ k, (f k).run = k.run) (hret : ∀ k, (f k).instret = k.instret) :
    Answers s (modCore t c f) r d v := by
  have hme {α : Type} {g : Core → α} (hg : ∀ k, g (f k) = g k) : g (me (modCore t c f)) = g (me t) := by
    by_cases hc : t.cur = c
    · rw [me, modCore_cur, hc, getCore_modCore_self, hg, me, hc]
    · rw [me, modCore_cur, getCore_modCore_ne _ _ _ _ hc, me]
  have hreg (e : Reg) : reg (modCore t c f) r e = reg t r e := reg_of_slots (s := t) (t := modCore t c f) rfl (hme hslots) rfl r e
  exact ⟨h.cur, fun hd => (hreg d).trans (h.dest hd), (hreg 0).trans h.zero, fun e he => (hreg e).trans (h.regs e he), (hme hrun).trans h.pc,
    (hme hret).trans h.retired⟩

/-- A change of cores alone. -/
def CoresOnly (s t : State) : Prop := t = { s with cores := t.cores }

theorem CoresOnly.trans {s u t : State} (h : CoresOnly u t) (hu : CoresOnly s u) : CoresOnly s t := by
  unfold CoresOnly at *
  rw [hu] at h
  exact h

theorem coresOnly_modCore (s : State) (c : Nat) (f : Core → Core) : CoresOnly s (modCore s c f) := rfl

theorem answers_of_regStep {s t : State} {r : Running} {d : Reg} {v : Word} (h : RegStep s t r d v (r.pc + 4)) : Answers s t r d v :=
  ⟨by rw [h.frame.rest], h.dest, h.zero, h.regs, h.pc, h.retired⟩

/-- A change of the executing core that leaves what an issue rests on. -/
theorem issues_congr {s u : State} {r : Running} (h : Issues s r) (hcur : u.cur = s.cur) (hrun : (getCore u s.cur).run = (getCore s s.cur).run)
    (hwfi : (getCore u s.cur).wfi = (getCore s s.cur).wfi) (hstall : (getCore u s.cur).stall = (getCore s s.cur).stall)
    (hslots : (getCore u s.cur).slots = (getCore s s.cur).slots) : Issues u r := by
  have hat (i : Nat) : slotAt (getCore u s.cur) i = slotAt (getCore s s.cur) i := slotAt_congr hslots i
  have hof : slotOf (getCore u s.cur) r.wptr = slotOf (getCore s s.cur) r.wptr := slotOf_congr (fun i => by rw [holders, hat, holders]) _
  refine ⟨?_, ?_⟩
  · rw [issuer, hcur, hrun, hwfi, hstall]
    exact h.running
  · rw [hcur, hof]
    exact h.resident

/-- A message to another core ends a WFI there, and leaves the executing core. -/
theorem issues_wakeCore {s : State} {r : Running} {c : Nat} (h : Issues s r) (hc : c ≠ s.cur) :
    me (wakeCore s c) = me s ∧ Issues (wakeCore s c) r := by
  have hme : getCore (wakeCore s c) s.cur = getCore s s.cur := getCore_modCore_ne _ _ _ _ hc.symm
  exact ⟨hme, issues_congr h rfl (by rw [hme]) (by rw [hme]) (by rw [hme]) (by rw [hme])⟩

/-! ### WFI (R132) -/

/-- A core that has stopped issue. -/
noncomputable def asleep (k : Core) : Core := { k with wfi := true }

theorem issuer_of_wfi {s : State} (h : (me s).wfi = true) : issuer s = none := by
  have hwfi : (getCore s s.cur).wfi = true := h
  unfold issuer
  dsimp only
  rw [hwfi, Bool.true_or]
  split <;> rfl

theorem execWfi_next {s : State} {r : Running} (h : Issues s r) : exec .wfi s = .next
    (if wakePending s s.cur r then retire s s.cur r else modCore (retire s s.cur r) s.cur asleep) :=
  (onCore_issues h _ : execWfi s = _)

/-! ### JRNL (R352) -/

theorem amGet_amErase_self {α : Type} (m : AMap α) (k : Nat) : amGet (amErase m k) k = none := by
  induction m with
  | nil => rfl
  | cons p m ih =>
    obtain ⟨j, v⟩ := p
    have hcons : amErase ((j, v) :: m) k = if j = k then amErase m k else (j, v) :: amErase m k := rfl
    rw [hcons]
    split
    · exact ih
    · next h => exact (if_neg h).trans ih

/-- The state in which JRNL answers: its message has ended a WFI of another core. -/
noncomputable def journalAsked (s : State) (k : Nat) : State := if k == s.cur then s else wakeCore s k

theorem journal_asked (s : State) (k : Nat) : (getCore (journalAsked s k) k).journal = (getCore s k).journal := by
  unfold journalAsked
  split
  · rfl
  · unfold wakeCore
    rw [getCore_modCore_self]

/-- An entry is freed. -/
noncomputable def unlisted (i : Nat) (k : Core) : Core := { k with journal := amErase k.journal i }

/-- A refused entry is freed when asked. -/
noncomputable def entryFreed (m : Word) (k i : Nat) (e : JEnt) (t : State) : State := if bit m 2 && e.rf then modCore t k (unlisted i) else t

/-- JRNL's answer of entry `i` of core `k`, and what its selector asks. -/
noncomputable def jrnlEntry (s : State) (r : Running) (d : Reg) (m : Word) (k i : Nat) : State :=
  match amGet (getCore (journalAsked s k) k).journal i with
  | none => finish (journalAsked s k) s.cur r d 0
  | some e => entryFreed m k i e (finish (journalAsked s k) s.cur r d (if bits m 1 0 == 3 then 0 else journalWord e (bits m 1 0)))

/-- JRNL of an address word. -/
noncomputable def jrnlAt (s : State) (r : Running) (d : Reg) (v m : Word) : State :=
  if bits v 63 30 != 0 || bits v 15 10 != 0 || bits v 7 5 != 0 then finish s s.cur r d 0
  else jrnlEntry s r d m (coreNo (bits v 29 16) (bits v 9 8)) (bits v 4 0)

theorem execJrnl_issues {s : State} {r : Running} (h : Issues s r) (hsm : r.sm = true) (d a b : Reg) :
    exec (.jrnl d a b) s = .next (jrnlAt s r d (reg s r a) (reg s r b)) :=
  (onCore_issues h _ : execJrnl d a b s = _).trans (congrArg Host.Outcome.next (if_pos hsm))

/-- The fields of a word that names entry `i` of core `k`. -/
theorem jrnlAt_eq {v : Word} {k i : Nat} (hv : v.toNat = k / 4 * 2 ^ 16 + k % 4 * 2 ^ 8 + i) (hi : i < 32) (hk : k / 4 < 2 ^ 14) (s : State)
    (r : Running) (d : Reg) (m : Word) : jrnlAt s r d v m = jrnlEntry s r d m k i := by
  have hfits : Fits [(5, i), (3, 0), (2, k % 4), (6, 0), (14, k / 4), (34, 0)] :=
    ⟨hi, by decide, Nat.mod_lt _ (by decide), by decide, hk, by decide, trivial⟩
  have hval : v.toNat = packed [(5, i), (3, 0), (2, k % 4), (6, 0), (14, k / 4), (34, 0)] := by
    rw [hv]
    simp only [packed]
    lia
  unfold jrnlAt coreNo
  rw [(bits_packed hval hfits 5 rfl rfl rfl : bits v 63 30 = 0), (bits_packed hval hfits 3 rfl rfl rfl : bits v 15 10 = 0),
    (bits_packed hval hfits 1 rfl rfl rfl : bits v 7 5 = 0), (bits_packed hval hfits 4 rfl rfl rfl : bits v 29 16 = k / 4),
    (bits_packed hval hfits 2 rfl rfl rfl : bits v 9 8 = k % 4), (bits_packed hval hfits 0 rfl rfl rfl : bits v 4 0 = i), Nat.div_add_mod]
  rfl

theorem execJrnl_next {s : State} {r : Running} (h : Issues s r) (hsm : r.sm = true) {d a b : Reg} {k i : Nat}
    (ha : (reg s r a).toNat = k / 4 * 2 ^ 16 + k % 4 * 2 ^ 8 + i) (hi : i < 32) (hk : k / 4 < 2 ^ 14) (hb : (reg s r b).toNat % 4 ≠ 3) :
    (amGet (getCore s k).journal i).elim (exec (.jrnl d a b) s = .next (finish (journalAsked s k) s.cur r d 0)) fun e =>
      exec (.jrnl d a b) s = .next (entryFreed (reg s r b) k i e (finish (journalAsked s k) s.cur r d (journalWord e ((reg s r b).toNat % 4)))) := by
  have hword : bits (reg s r b) 1 0 = (reg s r b).toNat % 4 := by unfold bits; rw [Nat.shiftRight_zero]; rfl
  rw [execJrnl_issues h hsm, jrnlAt_eq ha hi hk]
  unfold jrnlEntry
  rw [journal_asked, hword]
  cases amGet (getCore s k).journal i with
  | none => rfl
  | some e =>
    have hv : (if (reg s r b).toNat % 4 == 3 then 0 else journalWord e ((reg s r b).toNat % 4)) = journalWord e ((reg s r b).toNat % 4) :=
      if_neg (mt eq_of_beq hb)
    exact congrArg (fun v => Host.Outcome.next (entryFreed (reg s r b) k i e (finish (journalAsked s k) s.cur r d v))) hv

theorem journalAsked_issues {s : State} {r : Running} (h : Issues s r) (k : Nat) :
    Issues (journalAsked s k) r ∧ me (journalAsked s k) = me s ∧ CoresOnly s (journalAsked s k) := by
  unfold journalAsked
  by_cases hk : k = s.cur
  · rw [if_pos (beq_of_eq hk)]
    exact ⟨h, rfl, rfl⟩
  · rw [if_neg fun hb => hk (eq_of_beq hb)]
    obtain ⟨hme, hw⟩ := issues_wakeCore h hk
    exact ⟨hw, hme, rfl⟩

/-- A core whose WFI has ended. -/
noncomputable def awake (k : Core) : Core := { k with wfi := false }

/-- JRNL's answer, whatever it reads. -/
theorem answers_journal {s : State} {r : Running} (h : Issues s r) (k : Nat) (d : Reg) (v : Word) :
    Answers s (finish (journalAsked s k) s.cur r d v) r d v ∧ CoresOnly s (finish (journalAsked s k) s.cur r d v) ∧
      (k ≠ s.cur → getCore (finish (journalAsked s k) s.cur r d v) k = awake (getCore s k)) ∧
      (getCore (finish (journalAsked s k) s.cur r d v) k).journal = (getCore s k).journal := by
  obtain ⟨hi, hme, hrest⟩ := journalAsked_issues h k
  have hj := journal_asked s k
  have hasked (hk : k ≠ s.cur) : getCore (journalAsked s k) k = awake (getCore s k) := by
    unfold journalAsked
    rw [if_neg fun hb => hk (eq_of_beq hb)]
    exact getCore_modCore_self ..
  have hcur : (journalAsked s k).cur = s.cur := by rw [hrest]
  obtain ⟨u, hu⟩ : ∃ u, journalAsked s k = u := ⟨_, rfl⟩
  rw [hu] at hi hme hrest hj hasked hcur ⊢
  have hstep := regStep_finish hi d v
  rw [hcur] at hstep
  have hothers : ∀ c, c ≠ s.cur → getCore (finish u s.cur r d v) c = getCore u c := hcur ▸ hstep.frame.others
  refine ⟨answers_from (answers_of_regStep hstep) hcur (reg_of_slots hcur (by rw [hme]) (by rw [hrest]) r) (by rw [hme]),
    CoresOnly.trans hstep.frame.rest hrest, fun hk => (hothers k hk).trans (hasked hk), ?_⟩
  by_cases hk : k = s.cur
  · subst hk
    have hcore := hstep.core
    unfold me at hcore
    rw [show (finish u s.cur r d v).cur = s.cur by rw [hstep.frame.rest]; exact hcur, hcur] at hcore
    rw [hcore]
    exact hj
  · rw [hothers k hk, hj]

theorem journalWord_fields (e : JEnt) : (journalWord0 e).toNat / 2 ^ 63 = 1 ∧ ((journalWord0 e).toNat / 2 ^ 62 % 2 = 1 ↔ e.rf = true) ∧
    (journalWord0 e).toNat % 2 ^ 48 = e.store.va % 2 ^ 48 := by
  have hsize : sizeCode e.store.n < 4 := by
    unfold sizeCode
    split <;> decide
  have hkind : stKindCode e.store.kind < 4 := by cases e.store.kind <;> decide
  have hcause : (if e.rf then causeCode e.cause else 0) < 2 ^ 10 := by
    split
    · cases e.cause <;> decide
    · decide
  have hrf : b2n e.rf ≤ 1 ∧ (b2n e.rf = 1 ↔ e.rf = true) := by cases e.rf <;> decide
  have hfits : Fits [(48, e.store.va % 2 ^ 48), (10, if e.rf then causeCode e.cause else 0), (2, stKindCode e.store.kind),
      (2, sizeCode e.store.n), (1, b2n e.rf), (1, 1)] :=
    ⟨Nat.mod_lt _ (by decide), hcause, hkind, hsize, Nat.lt_succ_of_le hrf.1, by decide, trivial⟩
  have hword : (journalWord0 e).toNat = packed _ := word_packed packed_down hfits (Nat.le_refl 64)
  have hbit : packed _ / 2 ^ 62 % 2 = b2n e.rf := packed_field 4 hfits rfl
  rw [hword]
  exact ⟨packed_top 5 hfits rfl rfl, by rw [hbit, hrf.2], packed_low hfits⟩

/-- What selectors 0 to 2 answer of an entry. -/
theorem journalWord_value (e : JEnt) (n : Nat) : (n = 1 → journalWord e n = e.store.data) ∧
    (n = 2 → (journalWord e n).toNat = e.store.wptr % 2 ^ 64) ∧
    (n = 0 → (journalWord e n).toNat / 2 ^ 63 = 1 ∧ ((journalWord e n).toNat / 2 ^ 62 % 2 = 1 ↔ e.rf = true) ∧
      (journalWord e n).toNat % 2 ^ 48 = e.store.va % 2 ^ 48) := by
  refine ⟨?_, ?_, ?_⟩
  · rintro rfl
    rfl
  · rintro rfl
    exact BitVec.toNat_ofNat ..
  · rintro rfl
    exact journalWord_fields e

/-- What JRNL leaves of the entry that it reads. -/
theorem entryFreed_journal {t : State} {m : Word} {k i : Nat} {e : JEnt} (h : amGet (getCore t k).journal i = some e) :
    (bit m 2 = true → e.rf = true → amGet (getCore (entryFreed m k i e t) k).journal i = none) ∧
    (¬(bit m 2 = true ∧ e.rf = true) → amGet (getCore (entryFreed m k i e t) k).journal i = some e) := by
  unfold entryFreed
  rw [← Bool.and_eq_true_iff]
  split
  case isTrue hb =>
    refine ⟨fun _ _ => ?_, absurd hb⟩
    rw [getCore_modCore_self]
    exact amGet_amErase_self _ _
  case isFalse hb => exact ⟨fun hm hr => absurd (Bool.and_eq_true_iff.2 ⟨hm, hr⟩) hb, fun _ => h⟩

theorem entryFreed_rest {s t : State} {r : Running} {d : Reg} {v : Word} (h : Answers s t r d v) (ht : CoresOnly s t) (m : Word)
    (k i : Nat) (e : JEnt) :
    Answers s (entryFreed m k i e t) r d v ∧ CoresOnly s (entryFreed m k i e t) ∧ (getCore (entryFreed m k i e t) k).wfi = (getCore t k).wfi := by
  unfold entryFreed
  split
  · exact ⟨answers_modCore h k (fun _ => rfl) (fun _ => rfl) fun _ => rfl, (coresOnly_modCore t k _).trans ht, by rw [getCore_modCore_self]; rfl⟩
  · exact ⟨h, ht, rfl⟩

/-- Settles O18. WFI and its wake change one bit of the core beside retirement; JRNL answers by `answers_journal`. -/
theorem wfiAndJournal : Obligations.WfiAndJournal := by
  refine ⟨⟨fun s r h hw => ⟨fun hp => ⟨_, execWfi_next h, ?_⟩, fun hp => ⟨_, execWfi_next h, ?_⟩⟩,
    fun s c => ⟨fun hr => ?_, fun r hr => ⟨fun hp => ?_,
    fun hp => ⟨wakeCore s c, ?_, rfl, fun e he => getCore_modCore_ne _ _ _ _ he, getCore_modCore_self ..⟩⟩⟩⟩,
    fun d a b s r k i e h hsm ha hi hk hb => ?_⟩
  · have hwfi : (me (modCore (retire s s.cur r) s.cur asleep)).wfi = true := congrArg Core.wfi (getCore_modCore_self _ s.cur asleep)
    rw [hp, if_neg Bool.false_ne_true]
    exact ⟨answers_modCore (answers_of_regStep (finish_of_zero h)) s.cur (fun _ => rfl) (fun _ => rfl) fun _ => rfl, hwfi, issuer_of_wfi hwfi⟩
  · rw [hp, if_pos rfl]
    exact finish_of_zero h
  · show execWfiWake c s = .next s
    unfold execWfiWake
    rw [hr]
  · show execWfiWake c s = .next s
    unfold execWfiWake
    rw [hr]
    exact congrArg _ (if_neg (hp ▸ Bool.false_ne_true))
  · show execWfiWake c s = .next (wakeCore s c)
    unfold execWfiWake
    rw [hr]
    exact congrArg _ (if_pos hp)
  · have hx := execJrnl_next h hsm (d := d) (b := b) ha hi hk hb
    refine ⟨fun hj => ?_, fun hj => ?_⟩
    · rw [hj] at hx
      obtain ⟨hans, hrest, hother, -⟩ := answers_journal h k d 0
      exact ⟨_, hx, hans, hrest, hother⟩
    · rw [hj] at hx
      obtain ⟨hans, hrest, hother, hjour⟩ := answers_journal h k d (journalWord e ((reg s r b).toNat % 4))
      obtain ⟨h1, h2, h0⟩ := journalWord_value e ((reg s r b).toNat % 4)
      obtain ⟨hans, hrest, hwfi⟩ := entryFreed_rest hans hrest (reg s r b) k i e
      obtain ⟨hfreed, hkept⟩ := entryFreed_journal (m := reg s r b) ((congrArg (amGet · i) hjour).trans hj)
      exact ⟨_, _, hx, hans, hrest, fun hk => hwfi.trans (congrArg Core.wfi (hother hk)), h1, h2, h0, hfreed, hkept⟩

end Sys2Proof.Machine
end

section
/-! SUPPORT. Tokens and places: TKREQ, TKREL, TKSTAT and PLXL (R37, R374, R403). -/

-- Proofs are elaborated one after another: side by side they would need more memory than a check has.
set_option Elab.async false

namespace Sys2Proof.Machine

open Sys2Proof.Claims

/-- What a trap rests on: the registers and TSEQ of the state that it begins from. -/
theorem trapped_from {s u t : State} {r : Running} {cause : Cause} {sub : Nat} {tval : Word} {back : PC} (h : Trapped u t r cause sub tval back)
    (hcur : u.cur = s.cur) (hregs : ∀ e, reg u r e = reg s r e) (hseq : (me u).tseq = (me s).tseq) : Trapped s t r cause sub tval back :=
  ⟨h.cur.trans hcur, h.idle, h.state, h.resume, h.info, fun e => (h.regs e).trans (hregs e), h.tcause, h.tval, h.tpc, h.tseq.trans (hseq ▸ rfl)⟩

/-- A trap whose TVAL the manual leaves open (log entry 22). -/
theorem trapped_trapOpen {s : State} {r : Running} (h : Placed s r) (hroom : RoomToTrap s) (cause : Cause) :
    Trapped s (trapOpen s r cause) r cause 0 (openTval s).1 r.pc :=
  have q := Quiet.openTval s
  trapped_from (trapped_takeTrap (q.placed h) (q.roomToTrap hroom) cause 0 _ 0 false) q.cur_eq (q.reg_eq r)
    (by unfold me; rw [q.cur_eq, q.tseq_eq])

/-! ### Tokens -/

noncomputable def withRequest (x : Option (Nat × Nat)) (k : Core) : Core := { k with request := x }

/-- An answer after the request to the region has changed. -/
theorem answers_withRequest {s : State} {r : Running} (h : Issues s r) (x : Option (Nat × Nat)) (d : Reg) (v : Word) :
    let t := finish (modCore s s.cur (withRequest x)) s.cur r d v
    Answers s t r d v ∧ t.mem = s.mem ∧ (me t).request = x := by
  have hcore : getCore (modCore s s.cur (withRequest x)) s.cur = withRequest x (getCore s s.cur) := getCore_modCore_self ..
  have hslots : (me (modCore s s.cur (withRequest x))).slots = (me s).slots := by unfold me; rw [modCore_cur, hcore]; rfl
  have hret : (me (modCore s s.cur (withRequest x))).instret = (me s).instret := by unfold me; rw [modCore_cur, hcore]; rfl
  have hi : Issues (modCore s s.cur (withRequest x)) r :=
    issues_congr h rfl (by rw [hcore]; rfl) (by rw [hcore]; rfl) (by rw [hcore]; rfl) (by rw [hcore]; rfl)
  have hreg (e : Reg) : reg (modCore s s.cur (withRequest x)) r e = reg s r e := reg_of_slots (by rfl) hslots (by rfl) r e
  have hstep : RegStep (modCore s s.cur (withRequest x)) (finish (modCore s s.cur (withRequest x)) s.cur r d v) r d v (r.pc + 4) :=
    regStep_finish hi d v
  refine ⟨answers_from (answers_of_regStep hstep) rfl hreg hret, ?_, ?_⟩
  · rw [hstep.frame.rest]
    rfl
  · rw [hstep.core]
    unfold me
    rw [modCore_cur, hcore]
    rfl

theorem execTkreq_next {s : State} {r : Running} (h : Issues s r) (d a : Reg) : exec (.tkreq d a) s = .next
    (if isRim (coreTile s.cur) then trapOpen s r .far
    else if bits (reg s r a) 63 3 != 0 then trapHere s r .bound (reg s r a)
    else finish (modCore s s.cur (withRequest (some (classNeed (bits (reg s r a) 2 0), r.rcb)))) s.cur r d
      (word (Min.min (classNeed (bits (reg s r a) 2 0)) (if r.rcb == 0 then 0xFFFF else rcbTokcap s r.rcb) * 2 ^ 16 +
        (getTile s (coreTile s.cur)).tkheld))) := (onCore_issues h _ : execTkreq d a s = _)

theorem execTkrel_next {s : State} {r : Running} (h : Issues s r) (d : Reg) : exec (.tkrel d) s = .next
    (if isRim (coreTile s.cur) then trapOpen s r .far
    else finish (modCore s s.cur (withRequest none)) s.cur r d (word (((me s).request.map Prod.fst).getD 0))) := by
  refine (onCore_issues h _ : execTkrel d s = _).trans (congrArg Host.Outcome.next (if_congr Iff.rfl rfl ?_))
  unfold me
  cases (getCore s s.cur).request <;> rfl

theorem execTkstat_next {s : State} {r : Running} (h : Issues s r) (d : Reg) : exec (.tkstat d) s = .next
    (if isRim (coreTile s.cur) then trapOpen s r .far
    else finish s s.cur r d (word ((getTile s (coreTile s.cur)).tkheld % 2 ^ 16 + (getTile s (coreTile s.cur)).tkneed % 2 ^ 16 * 2 ^ 16 +
      (getSeg s (gridSeg (coreTile s.cur))).free % 2 ^ 16 * 2 ^ 32 + tilePoint s (coreTile s.cur) % 16 * 2 ^ 48 +
      tileCeiling s (coreTile s.cur) % 16 * 2 ^ 52))) := (onCore_issues h _ : execTkstat d s = _)

theorem tkstat_fields (a b c e f : Nat) :
    ∀ v, v = word (a % 2 ^ 16 + b % 2 ^ 16 * 2 ^ 16 + c % 2 ^ 16 * 2 ^ 32 + e % 16 * 2 ^ 48 + f % 16 * 2 ^ 52) →
    v.toNat % 2 ^ 16 = a % 2 ^ 16 ∧ v.toNat / 2 ^ 16 % 2 ^ 16 = b % 2 ^ 16 ∧ v.toNat / 2 ^ 32 % 2 ^ 16 = c % 2 ^ 16 ∧
      v.toNat / 2 ^ 48 % 2 ^ 4 = e % 2 ^ 4 ∧ v.toNat / 2 ^ 52 % 2 ^ 4 = f % 2 ^ 4 := by
  intro v hv
  have hfits : Fits [(16, a % 2 ^ 16), (16, b % 2 ^ 16), (16, c % 2 ^ 16), (4, e % 16), (4, f % 16)] :=
    ⟨Nat.mod_lt _ (by decide), Nat.mod_lt _ (by decide), Nat.mod_lt _ (by decide), Nat.mod_lt _ (by decide), Nat.mod_lt _ (by decide),
      trivial⟩
  have hword : v.toNat = packed _ := (congrArg BitVec.toNat hv).trans (word_packed packed_up hfits (by decide : 56 ≤ 64))
  rw [hword]
  exact ⟨packed_low hfits, packed_field 1 hfits rfl, packed_field 2 hfits rfl, packed_field 3 hfits rfl,
    packed_field 4 hfits rfl⟩

/-! ### Places -/

theorem tileKind_lt (t : Nat) : tileKind t < 16 := by
  have hrows : ∀ i < 8, ∀ j < 8, (kindRows.getD i []).getD j 0 < 16 := by decide
  unfold tileKind
  split
  · exact hrows _ (Nat.mod_lt _ (by decide)) _ (Nat.mod_lt _ (by decide))
  · decide

theorem tileX_lt {t : Nat} (h : t < 2 ^ 14) : tileX t < 2 ^ 13 := by
  have hplace {m : Nat} (hm : m ≤ rimModule t) : 32 * m + rimIndex t < 2 ^ 13 := by
    have hmod : m < 256 := Nat.lt_of_le_of_lt hm (Nat.div_lt_of_lt_mul (Nat.lt_of_le_of_lt (Nat.sub_le_sub_right h.le _) (by decide)))
    exact Nat.lt_of_lt_of_le (Nat.add_lt_add_left (Nat.mod_lt _ (by decide)) _) ((Nat.mul_le_mul_left 32 hmod).trans (by decide))
  unfold tileX
  split
  · exact Nat.lt_trans (Nat.mod_lt t (by decide)) (by decide)
  · split
    · exact hplace (Nat.le_refl _)
    · exact hplace (Nat.sub_le ..)

theorem placeWord_fields {t k : Nat} (ht : t < 2 ^ 14) (hk : k < 4) :
    (placeWord t k).toNat % 2 ^ 14 = t ∧ (placeWord t k).toNat / 2 ^ 20 % 4 = k ∧ (placeWord t k).toNat / 2 ^ 63 = 1 := by
  have hy : patI (tileY t) 8 < 2 ^ 8 := by exact (Int.toNat_lt (Int.emod_nonneg _ (by decide))).2 (Int.emod_lt_of_pos _ (by decide))
  have hx := tileX_lt ht
  have hfits : Fits [(14, t), (2, 0), (4, tileKind t), (2, k), (10, 0), (31, tileX t + patI (tileY t) 8 * 2 ^ 8), (1, 1)] :=
    ⟨ht, by decide, tileKind_lt t, hk, by decide,
      (Nat.add_lt_add hx (Nat.mul_lt_mul_of_pos_right hy (by decide))).trans (by decide), by decide, trivial⟩
  have hword : (placeWord t k).toNat = packed _ := word_packed (by simp only [packed]; lia) hfits (Nat.le_refl 64)
  rw [hword]
  exact ⟨packed_low hfits, packed_field 3 hfits rfl, packed_top 6 hfits rfl rfl⟩

theorem execPlxl_next {s : State} {r : Running} (h : Issues s r) {d a : Reg} {t k : Nat} (hfree : mapFrozen s r.rcb = false)
    (hp : resolvePlace s r.rcb (coreTile s.cur) (reg s r a) (some (coreIdx s.cur)) r.sm = .ok t k) :
    exec (.plxl d a) s = .next (finish s s.cur r d (placeWord t k)) := by
  have hsrc : src s s.cur r a = reg s r a := rfl
  refine (onCore_issues h _ : execPlxl d a s = _).trans (congrArg Host.Outcome.next ?_)
  rw [unlessFrozen, hfree, hsrc, hp]
  rfl

/-- Settles O33. The token instructions answer beside the request they change; PLXL answers the word of its place. -/
theorem tokensAndPlaces : Obligations.TokensAndPlaces := by
  intro s r h
  refine ⟨fun hrim => ⟨fun d a ha => ?_, fun d => ?_, fun d => ?_⟩, fun d a t k hfree hp ht hk => ?_, fun hpl hroom => ⟨fun d a hrim ha => ?_,
    fun hrim i hi => ?_⟩⟩
  · have hsel : bits (reg s r a) 63 3 = 0 := (bits_top_eq_zero_iff _ (by decide)).2 ha
    have hclass : bits (reg s r a) 2 0 = (reg s r a).toNat := Nat.mod_eq_of_lt ha
    have hx := execTkreq_next h d a
    rw [hrim, if_neg Bool.false_ne_true, hsel, hclass, if_neg (by decide)] at hx
    obtain ⟨hans, hmem, hreq⟩ := answers_withRequest h (some (classNeed (reg s r a).toNat, r.rcb)) d
      (word (Min.min (classNeed (reg s r a).toNat) (if r.rcb == 0 then 0xFFFF else rcbTokcap s r.rcb) * 2 ^ 16 +
        (getTile s (coreTile s.cur)).tkheld))
    refine ⟨_, _, hx, hans, hmem, ?_, hreq⟩
    have hcap : (if r.rcb = 0 then 0xFFFF else rcbTokcap s r.rcb) = if r.rcb == 0 then 0xFFFF else rcbTokcap s r.rcb := by
      simp only [beq_iff_eq]
    rw [hcap]
    exact BitVec.toNat_ofNat ..
  · have hx := execTkrel_next h d
    rw [hrim, if_neg Bool.false_ne_true] at hx
    obtain ⟨hans, hmem, hreq⟩ := answers_withRequest h none d (word (((me s).request.map Prod.fst).getD 0))
    exact ⟨_, _, hx, hans, hmem, hreq, fun n q hq => by rw [hq]; exact BitVec.toNat_ofNat .., fun hq => by rw [hq]; rfl⟩
  · have hx := execTkstat_next h d
    rw [hrim, if_neg Bool.false_ne_true] at hx
    exact ⟨_, _, hx, regStep_finish h d _, tkstat_fields _ _ _ _ _ _ rfl⟩
  · exact ⟨_, _, execPlxl_next h hfree hp, regStep_finish h d _, placeWord_fields ht hk⟩
  · have hx := execTkreq_next h d a
    have hsel : (bits (reg s r a) 63 3 != 0) = true := bne_iff_ne.2 (mt (bits_top_eq_zero_iff _ (by decide)).1 (Nat.not_lt.2 ha))
    rw [hrim, if_neg Bool.false_ne_true, hsel, if_pos rfl] at hx
    exact ⟨_, hx, trapped_takeTrap hpl hroom .bound 0 _ 0 false⟩
  · have htrap := trapped_trapOpen hpl hroom .far
    rcases hi with ⟨d, a, rfl⟩ | ⟨d, rfl⟩ | ⟨d, rfl⟩
    · exact ⟨_, _, (execTkreq_next h d a).trans (congrArg _ (if_pos hrim)), htrap⟩
    · exact ⟨_, _, (execTkrel_next h d).trans (congrArg _ (if_pos hrim)), htrap⟩
    · exact ⟨_, _, (execTkstat_next h d).trans (congrArg _ (if_pos hrim)), htrap⟩

end Sys2Proof.Machine
end

section
/-! SUPPORT. JWAIT, JPOLL and JDROP by an identifier (R272, R273). -/

-- Proofs are elaborated one after another: side by side they would need more memory than a check has.
set_option Elab.async false

namespace Sys2Proof.Machine

open Sys2Proof.Claims

/-- The fields of an identifier (R262). -/
structure NamesEntry (id : Word) (key gen : Nat) : Prop where
  tile : bits id 49 36 = key / 128
  queue : bits id 35 34 = key / 32 % 4
  slot : bits id 4 0 = key % 32
  gen : bits id 31 16 = gen
  high : bits id 62 50 = 0
  middle : bits id 33 32 = 0
  low : bits id 15 5 = 0

theorem namesEntry {id : Word} {key gen : Nat}
    (h : id.toNat = 2 ^ 63 + key / 128 * 2 ^ 36 + key / 32 % 4 * 2 ^ 34 + gen * 2 ^ 16 + key % 32) (ht : key / 128 < 2 ^ 14) (hg : gen < 2 ^ 16) :
    NamesEntry id key gen := by
  have hid : id.toNat = packed [(5, key % 32), (11, 0), (16, gen), (2, 0), (2, key / 32 % 4), (14, key / 128), (13, 0), (1, 1)] := by
    rw [h]
    simp only [packed]
    lia
  have hfits : Fits [(5, key % 32), (11, 0), (16, gen), (2, 0), (2, key / 32 % 4), (14, key / 128), (13, 0), (1, 1)] :=
    ⟨Nat.mod_lt _ (by decide), by decide, hg, by decide, Nat.mod_lt _ (by decide), ht, by decide, by decide, trivial⟩
  exact ⟨bits_packed hid hfits 5 rfl rfl rfl, bits_packed hid hfits 4 rfl rfl rfl, bits_packed hid hfits 0 rfl rfl rfl,
    bits_packed hid hfits 2 rfl rfl rfl, bits_packed hid hfits 6 rfl rfl rfl, bits_packed hid hfits 3 rfl rfl rfl,
    bits_packed hid hfits 1 rfl rfl rfl⟩

/-- An identifier that reaches its entry leads to the instruction's own part. -/
theorem jobInstr_reaches {s : State} {r : Running} {id : Word} {key gen : Nat} (h : IdReaches s r id key gen) (k : State → Nat → State) :
    jobInstr s s.cur r id k = k s key ∧ jobCurrent s key id = ((entryAt s key).gen.toNat == gen) ∧ bits id 31 16 = gen := by
  obtain ⟨hid, ht, hg, hqueue, hslot, hq, hhole, hlosing, hfwd, hjob, hres⟩ := h
  obtain ⟨htile, hqsel, hs, hgen, hhigh, hmid, hlow⟩ := namesEntry hid ht hg
  have hkey : jobKey s id = key := by
    rw [jobKey, htile, hqsel, hs, ← Nat.div_div_eq_div_mul key 32 4, Nat.div_add_mod, Nat.div_add_mod', hfwd]
  have hcheck : (bits id 62 50 != 0 || bits id 33 32 != 0 || bits id 15 5 != 0 || bits id 35 34 == 3 || !hasQueue (bits id 49 36) (bits id 35 34) ||
      decide (queueDepth (bits id 35 34) ≤ bits id 4 0)) = false := by
    rw [hhigh, hmid, hlow, htile, hqsel, hs, hqueue, beq_eq_false_iff_ne.2 hq, decide_eq_false (Nat.not_le.2 hslot)]
    rfl
  have hfar : (bits id 49 36 != coreTile s.cur && holeBit s (coreTile s.cur) (bits id 49 36)) = false := by
    rw [htile]
    rcases hhole with hhole | hhole
    · rw [hhole, bne_self_eq_false, Bool.false_and]
    · rw [hhole, Bool.and_false]
  refine ⟨?_, by unfold jobCurrent; rw [hgen], hgen⟩
  simp only [jobInstr]
  rw [hcheck, if_neg Bool.false_ne_true, hfar, if_neg Bool.false_ne_true, htile, hlosing, if_neg Bool.false_ne_true, hkey]
  cases hj : (entryAt s key).job with
  | some j =>
    refine if_neg ?_
    rw [hjob j hj, bne_self_eq_false, Bool.and_false]
    exact Bool.false_ne_true
  | none =>
    refine if_neg ?_
    cases hv : (entryAt s key).result with
    | none => rw [Option.isSome_none, Bool.and_false, Bool.false_and]; exact Bool.false_ne_true
    | some v =>
      rw [hres v hj hv, bne_self_eq_false, Bool.and_false]
      exact Bool.false_ne_true

section Job
variable {s : State} {r : Running} {a : Reg} {key gen : Nat} (h : Issues s r) (hid : IdReaches s r (reg s r a) key gen)
include h hid

/-- What JWAIT comes to at its entry. -/
theorem execJwait_next (d : Reg) : exec (.jwait d a) s = .next
    (if !((entryAt s key).gen.toNat == gen) then finish s s.cur r d 0
    else if (entryAt s key).job.isSome then waitHere s s.cur r 4 0 (.job d key gen)
    else ((entryAt s key).result.elim (finish s s.cur r d 0) fun v => finish (acquireDone s s.cur .panel) s.cur r d v)) := by
  refine (onCore_issues h _ : execJwait d a s = _).trans (congrArg Host.Outcome.next ?_)
  refine (jobInstr_reaches hid _).1.trans ?_
  obtain ⟨-, hcur, hgen⟩ := jobInstr_reaches hid fun s _ => s
  have hsrc : src s s.cur r a = reg s r a := rfl
  simp only [hsrc, hcur, hgen]
  cases (entryAt s key).result <;> rfl

theorem execJpoll_next (d : Reg) : exec (.jpoll d a) s = .next
    (if !((entryAt s key).gen.toNat == gen) then finish s s.cur r d 0
    else (entryAt s key).job.elim
      ((entryAt s key).result.elim (finish s s.cur r d 0) fun v => finish (acquireDone s s.cur .panel) s.cur r d v)
      fun j => finish s s.cur r d (match j.st with | .queued => 1 | .running => 2 | _ => 3)) := by
  refine (onCore_issues h _ : execJpoll d a s = _).trans (congrArg Host.Outcome.next ?_)
  refine (jobInstr_reaches hid _).1.trans ?_
  obtain ⟨-, hcur, -⟩ := jobInstr_reaches hid fun s _ => s
  have hsrc : src s s.cur r a = reg s r a := rfl
  simp only [hsrc, hcur]
  cases (entryAt s key).job
  · cases (entryAt s key).result <;> rfl
  · rfl

theorem execJdrop_next (d : Reg) : exec (.jdrop d a) s = .next
    (if !((entryAt s key).gen.toNat == gen) then finish s s.cur r d 2
    else (entryAt s key).job.elim (finish s s.cur r d 2) fun j =>
      if j.st == .queued && !j.last then settle (finish (endJob s key 0x0A) s.cur r d 0)
      else if j.st == .queued then finish s s.cur r d 2
      else finish s s.cur r d 1) := by
  refine (onCore_issues h _ : execJdrop d a s = _).trans (congrArg Host.Outcome.next ?_)
  refine (jobInstr_reaches hid _).1.trans ?_
  obtain ⟨-, hcur, -⟩ := jobInstr_reaches hid fun s _ => s
  have hsrc : src s s.cur r a = reg s r a := rfl
  simp only [hsrc, hcur]
  cases (entryAt s key).job <;> rfl

end Job

/-- Settles O37. The identifier reaches its entry (`jobInstr_reaches`), whose use count and job decide the answer. -/
theorem jobInstructions : Obligations.JobInstructions := by
  intro d a s r key gen h hid
  have hwait := execJwait_next h hid d
  have hpoll := execJpoll_next h hid d
  have hdrop := execJdrop_next h hid d
  have hans (v : Word) : Answers s (finish s s.cur r d v) r d v := answers_of_regStep (regStep_finish h d v)
  have hacq (v : Word) : Answers s (finish (acquireDone s s.cur .panel) s.cur r d v) r d v := (Quiet.acquireDone s s.cur .panel).answers h d v
  generalize entryAt s key = e at *
  refine ⟨fun hg => ?_, fun v hg hj hv => ?_, fun j hg hj => ?_⟩
  · rw [beq_eq_false_iff_ne.2 hg, Bool.not_false, if_pos rfl] at hwait hpoll hdrop
    exact ⟨⟨_, hwait, hans 0⟩, ⟨_, hpoll, hans 0⟩, ⟨_, hdrop, hans 2⟩⟩
  · rw [hg, beq_self_eq_true, if_neg (by decide), hj] at hwait hpoll hdrop
    rw [hv] at hwait hpoll
    exact ⟨⟨_, hwait, hacq v⟩, ⟨_, hpoll, hacq v⟩, ⟨_, hdrop, hans 2⟩⟩
  · rw [hg, beq_self_eq_true, if_neg (by decide), hj] at hwait hpoll hdrop
    refine ⟨fun hp => ⟨_, hwait, waits_waitHere hp (by decide) (by decide) _⟩, ⟨_, hpoll, ?_⟩,
      fun hst => ⟨_, hdrop, ?_⟩, fun hst hlast => ⟨s, ?_, rfl, rfl⟩⟩
    · rw [Option.elim_some]
      generalize j.st = st
      cases st <;> exact hans _
    · rw [Option.elim_some, beq_eq_false_iff_ne.2 hst]
      exact hans 1
    · rw [hdrop, Option.elim_some, hst, hlast]
      rfl

end Sys2Proof.Machine
end

section
/-! SUPPORT. Dispatch (R93, R218): the process at the head of a queue becomes resident and runs; the end of a timeslice. -/

-- Proofs are elaborated one after another: side by side they would need more memory than a check has.
set_option Elab.async false

namespace Sys2Proof.Machine

open Sys2Proof.Claims

/-! ### The head of a workspace, kept -/

/-- The head and the WAIT word of workspace `w`, the cores and the processes are as before. -/
structure HeadKept (w : Nat) (s t : State) : Prop where
  cores : t.cores = s.cores
  procs : t.procs = s.procs
  words : ∀ a, w - 8 ≤ a → a ≤ w + 120 → hw t a = hw s a

theorem HeadKept.refl (w : Nat) (s : State) : HeadKept w s s := ⟨rfl, rfl, fun _ _ _ => rfl⟩

theorem HeadKept.trans {w : Nat} {s t u : State} (h : HeadKept w s t) (k : HeadKept w t u) : HeadKept w s u :=
  ⟨k.cores.trans h.cores, k.procs.trans h.procs, fun a ha ha' => (k.words a ha ha').trans (h.words a ha ha')⟩

theorem headKept_foldl {α : Type} {w : Nat} {f : State → α → State} {l : List α} (h : ∀ s, ∀ n ∈ l, HeadKept w s (f s n)) (s : State) :
    HeadKept w s (l.foldl f s) :=
  List.foldlRecOn l f (HeadKept.refl w s) fun _ ht n hn => ht.trans (h _ n hn)

theorem headKept_countCorrected (w : Nat) (s : State) (pa n : Nat) : HeadKept w s (countCorrected s pa n) := by
  refine headKept_foldl (fun s a _ => ?_) s
  split
  · unfold countCe
    split
    · exact ⟨rfl, rfl, fun _ _ _ => rfl⟩
    · split
      · exact ⟨rfl, rfl, fun _ _ _ => rfl⟩
      · exact ⟨rfl, rfl, fun _ _ _ => rfl⟩
  · exact HeadKept.refl w s

/-- What a slot of another workspace writes back meets neither this head nor its WAIT word. -/
theorem headKept_flushSlot {w : Nat} {sl : Slot} (h : Apart sl.wptr w) (s : State) : HeadKept w s (flushSlot s sl) := by
  have hback (s : State) {a : Nat} (v : Word) (b : Bool) (ha : sl.wptr ≤ a + 128) (ha' : a ≤ sl.wptr + 120) :
      HeadKept w s (writeBack s a v b) := by
    exact ⟨rfl, rfl, fun x hx hx' => hw_putHw_apart _ _ _ _ (word_apart h (Nat.sub_le_iff_le_add.1 hx) hx' ha ha')⟩
  refine (headKept_foldl (fun s n hn => ?_) s).trans (headKept_foldl (fun s n hn => ?_) _)
  · have hn : 8 * n ≤ 8 * 15 := Nat.mul_le_mul_left 8 (Nat.le_of_lt_succ (List.mem_range.1 hn))
    split
    · exact hback s _ _ (Nat.le_add_right_of_le (Nat.le_add_right ..)) (Nat.add_le_add_left hn _)
    · exact HeadKept.refl w s
  · have hn : 8 * n ≤ 8 * 11 := Nat.mul_le_mul_left 8 (Nat.le_of_lt_succ (List.mem_range.1 hn))
    split
    · exact hback s _ _ ((Nat.le_add_right ..).trans le_tsub_add) ((Nat.sub_le ..).trans (Nat.add_le_add_left (hn.trans (by decide)) _))
    · exact HeadKept.refl w s

/-! ### A process becomes resident -/

theorem victim_lt (k : Core) : victim k < 4 := by
  unfold victim
  split
  case h_1 i hi =>
    exact List.mem_range.1 (List.mem_of_find?_eq_some hi : i ∈ List.range 4)
  case h_2 =>
    refine List.foldlRecOn (motive := (· < 4)) _ _ (by decide) fun b hb i hi => ?_
    have hi4 : i < 4 := List.mem_range.1 (List.mem_cons_of_mem 0 hi : i ∈ List.range 4)
    split
    · split
      · exact hi4
      · exact hb
    · exact hb

theorem holder_of_slotOf_none {k : Core} {w i : Nat} (h : slotOf k w = none) (hi : i < 4) : holders k i ≠ some w := by
  intro hk
  obtain ⟨sl, hs, hsl⟩ := Option.map_eq_some_iff.1 hk
  have hno := List.find?_eq_none.1 h i (List.mem_range.2 hi : i ∈ List.range 4)
  rw [hs] at hno
  exact hno (beq_iff_eq.2 hsl)

/-- Where no slot holds the process, it is found in the slot that it is given. -/
theorem slotOf_given {k l : Core} {w i : Nat} (hi : i < 4) (h : slotOf k w = none) (hself : holders l i = some w)
    (hne : ∀ j, j ≠ i → holders l j = holders k j) : slotOf l w = some i := by
  cases hl : slotOf l w with
  | none => exact absurd hself (holder_of_slotOf_none hl hi)
  | some j =>
    obtain ⟨hj, sl, hs, hsl⟩ := slotOf_spec hl
    by_cases hji : j = i
    · rw [hji]
    · refine absurd ?_ (holder_of_slotOf_none h hj)
      rw [← hne j hji]
      unfold holders
      rw [hs, Option.map_some, hsl]

/-- Workspace `w` is resident on core `c`, and its registers, its head and the run queues of the core read as before. -/
structure Resident (s t : State) (c w : Nat) : Prop where
  queues : ∀ hp, runQueue (getCore t c) hp = runQueue (getCore s c) hp
  procs : t.procs = s.procs
  words : ∀ a, w - 8 ≤ a → a ≤ w + 120 → hw t a = hw s a
  slot : (slotOf (getCore t c) w).isSome = true
  regs : ∀ d, regRd t c w d = regRd s c w d

theorem headKept_evictSlot {s : State} {c i w : Nat} (h : ∀ sl, slotAt (getCore s c) i = some sl → Apart sl.wptr w ∧ 128 ≤ sl.wptr) :
    (∀ j, j ≠ i → slotAt (getCore (evictSlot s c i) c) j = slotAt (getCore s c) j) ∧
    (∀ hp, runQueue (getCore (evictSlot s c i) c) hp = runQueue (getCore s c) hp) ∧
    (evictSlot s c i).procs = s.procs ∧ ∀ a, w - 8 ≤ a → a ≤ w + 120 → hw (evictSlot s c i) a = hw s a := by
  unfold evictSlot
  split
  case h_1 => exact ⟨fun _ _ => rfl, fun _ => rfl, rfl, fun _ _ _ => rfl⟩
  case h_2 sl hs =>
    obtain ⟨hap, hb⟩ := h sl hs
    have hk := headKept_flushSlot hap (modCore s c fun k => countEvent 0x0A (writeBacks (getCore s c) i) (setSlot k i none))
    have hcore := (getCore_congr hk.cores c).trans (getCore_modCore_self ..)
    rw [countEvent_fields] at hcore
    refine ⟨fun j hj => ?_, fun hp => ?_, hk.procs, hk.words⟩
    · rw [hcore]
      exact slotAt_setSlot_ne _ _ _ _ hj
    · rw [hcore]
      rfl

/-- A slot holds the registers of workspace `w` as its head does. -/
def HeadSlot (s : State) (w : Nat) (sl : Slot) : Prop := sl.wptr = w ∧ ∀ d : Reg, d ≠ 0 → (sl.regs[d.toNat]?).getD 0 = hw s (w + 8 * d.toNat)

theorem resident_given {s u : State} {c i w : Nat} {sl : Slot} (hi : i < 4) (hno : slotOf (getCore s c) w = none)
    (hslots : ∀ j, j ≠ i → slotAt (getCore u c) j = slotAt (getCore s c) j)
    (hqueues : ∀ hp, runQueue (getCore u c) hp = runQueue (getCore s c) hp) (hprocs : u.procs = s.procs)
    (hwords : ∀ a, w - 8 ≤ a → a ≤ w + 120 → hw u a = hw s a) (hsl : HeadSlot s w sl) :
    Resident s (modCore u c fun k => setSlot k i (some sl)) c w := by
  obtain ⟨hwptr, hregs⟩ := hsl
  have hget := getCore_modCore_self u c fun k => setSlot k i (some sl)
  have hself : slotAt (setSlot (getCore u c) i (some sl)) i = some sl := slotAt_setSlot_self _ _ _ hi
  have hof : slotOf (setSlot (getCore u c) i (some sl)) w = some i := by
    refine slotOf_given hi hno ?_ fun j hj => ?_
    · unfold holders
      rw [hself, Option.map_some, hwptr]
    · rw [holders, slotAt_setSlot_ne _ _ _ _ hj, hslots j hj, holders]
  refine ⟨fun hp => ?_, hprocs, hwords, ?_, fun d => ?_⟩
  · rw [hget, ← hqueues hp]
    rfl
  · rw [hget, hof]
    rfl
  · by_cases hd : d = 0
    · unfold regRd
      rw [if_pos hd, if_pos hd]
    · have hreg : slotReg (modCore u c fun k => setSlot k i (some sl)) c i d.toNat = hw s (w + 8 * d.toNat) := by
        unfold slotReg
        rw [hget, hself]
        exact hregs d hd
      unfold regRd
      rw [if_neg hd, if_neg hd, hget, hof, hno]
      exact hreg

theorem resident_loaded {s : State} {c i w : Nat} (hi : i < 4) (hno : slotOf (getCore s c) w = none)
    (h : ∀ sl, slotAt (getCore s c) i = some sl → Apart sl.wptr w ∧ 128 ≤ sl.wptr) :
    Resident s (loadSlot (evictSlot s c i) c i w) c w := by
  obtain ⟨hslots, hqueues, hprocs, hwords⟩ := headKept_evictSlot h
  generalize evictSlot s c i = u at *
  have hk : HeadKept w u (countCorrected (if bit (resumeAt u w) 61 then countCorrected u (w - 128) 96 else u) w 128) := by
    refine HeadKept.trans ?_ (headKept_countCorrected ..)
    split
    · exact headKept_countCorrected ..
    · exact HeadKept.refl ..
  rw [loadSlot]
  generalize countCorrected _ w 128 = v at *
  have hwords' (a : Nat) (ha : w - 8 ≤ a) (ha' : a ≤ w + 120) : hw v a = hw s a := (hk.words a ha ha').trans (hwords a ha ha')
  refine resident_given hi hno (fun j hj => ?_) (fun hp => ?_) (hk.procs.trans hprocs) hwords' ⟨rfl, fun d hd => ?_⟩
  · rw [getCore_congr hk.cores, hslots j hj]
  · rw [getCore_congr hk.cores, hqueues]
  · have hlt := d.isLt
    have hne : d.toNat ≠ 0 := fun h0 => hd (BitVec.eq_of_toNat_eq h0)
    rw [Vector.getElem?_ofFn, dif_pos hlt, Option.getD_some, if_neg (by simpa using hne)]
    exact hwords' (w + 8 * d.toNat) ((Nat.sub_le ..).trans (Nat.le_add_right ..))
      (Nat.add_le_add_left (Nat.mul_le_mul_left 8 (Nat.le_of_lt_succ hlt) : 8 * d.toNat ≤ 8 * 15) w)

/-- The slot that a process has run in last is the youngest. -/
noncomputable def stampSlot (n i : Nat) (k : Core) : Core :=
  match slotAt k i with
  | some sl => setSlot k i (some { sl with stamp := n })
  | none => k

theorem stampSlot_some {k : Core} {i : Nat} {sl : Slot} (h : slotAt k i = some sl) (n : Nat) :
    stampSlot n i k = setSlot k i (some { sl with stamp := n }) := by unfold stampSlot; rw [h]

theorem makeResident_held {s : State} {c w i : Nat} (hi : slotOf (getCore s c) w = some i) :
    makeResident s c w = modCore (tick s) c (stampSlot (tick s).order i) := by
  have htick : slotOf (getCore (tick s) c) w = some i := hi
  unfold makeResident
  rw [hi]
  dsimp only
  rw [htick]
  rfl

theorem makeResident_loads {s : State} {c w i : Nat} (hno : slotOf (getCore s c) w = none)
    (hi : slotOf (getCore (loadSlot (evictSlot s c (victim (getCore s c))) c (victim (getCore s c)) w) c) w = some i) :
    makeResident s c w = modCore (tick (loadSlot (evictSlot s c (victim (getCore s c))) c (victim (getCore s c)) w)) c
      (stampSlot (tick (loadSlot (evictSlot s c (victim (getCore s c))) c (victim (getCore s c)) w)).order i) := by
  unfold makeResident
  rw [hno]
  dsimp only
  generalize loadSlot _ _ _ _ = u at *
  have htick : slotOf (getCore (tick u) c) w = some i := hi
  rw [htick]
  rfl

theorem resident_stamp {s u : State} {c w i : Nat} (h : Resident s u c w) (hi : slotOf (getCore u c) w = some i) (n : Nat) :
    Resident s (modCore (tick u) c (stampSlot n i)) c w := by
  obtain ⟨hqueues, hprocs, hwords, -, hregs⟩ := h
  obtain ⟨hlt, sl, hs, hsl⟩ := slotOf_spec hi
  have hget : getCore (modCore (tick u) c (stampSlot n i)) c = setSlot (getCore u c) i (some { sl with stamp := n }) :=
    (getCore_modCore_self ..).trans (stampSlot_some hs n)
  have hself : slotAt (setSlot (getCore u c) i (some { sl with stamp := n })) i = some { sl with stamp := n } := slotAt_setSlot_self _ _ _ hlt
  have hof : slotOf (setSlot (getCore u c) i (some { sl with stamp := n })) w = some i := by
    rw [← hi]
    refine slotOf_congr (fun j => ?_) w
    by_cases hj : j = i
    · rw [hj, holders, hself, holders, hs, Option.map_some, Option.map_some]
    · rw [holders, slotAt_setSlot_ne _ _ _ _ hj, holders]
  refine ⟨fun hp => ?_, hprocs, hwords, ?_, fun d => ?_⟩
  · rw [hget, ← hqueues hp]
    rfl
  · rw [hget, hof]
    rfl
  · rw [← hregs d]
    unfold regRd
    rw [hget, hof, hi]
    simp only [slotReg, hget, hself, hs]

theorem resident_makeResident {s : State} {c w : Nat}
    (h : ∀ i sl, slotAt (getCore s c) i = some sl → sl.wptr ≠ w → Apart sl.wptr w ∧ 128 ≤ sl.wptr) :
    Resident s (makeResident s c w) c w := by
  cases hno : slotOf (getCore s c) w with
  | some i =>
    rw [makeResident_held hno]
    exact resident_stamp ⟨fun _ => rfl, rfl, fun _ _ _ => rfl, by rw [hno]; rfl, fun _ => rfl⟩ hno _
  | none =>
    have hi := victim_lt (getCore s c)
    have hload : Resident s (loadSlot (evictSlot s c (victim (getCore s c))) c (victim (getCore s c)) w) c w := by
      refine resident_loaded hi hno fun sl hs => h _ sl hs fun hw => ?_
      exact holder_of_slotOf_none hno hi (by rw [holders, hs, Option.map_some, hw])
    obtain ⟨j, hj⟩ := Option.isSome_iff_exists.1 hload.slot
    rw [makeResident_loads hno hj]
    exact resident_stamp hload hj _

/-! ### The process runs -/

/-- The switch to process `w` is counted, and its slice of an earlier run is used up. -/
noncomputable def switched (u : State) (c w : Nat) : State :=
  modProc (if (getCore u c).lastRan == w then u else countAt u c 9 1) w fun p => { p with slice := none }

/-- A core that begins to run `r`. -/
noncomputable def dispatched (r : Running) (k : Core) : Core :=
  { k with run := some r, lastRan := r.wptr, prefetch := if k.lastRan == r.wptr then k.prefetch else [] }

theorem switched_kept (u : State) (c w : Nat) : (switched u c w).mem = u.mem ∧ (getCore (switched u c w) c).slots = (getCore u c).slots ∧
    ∀ hp, runQueue (getCore (switched u c w) c) hp = runQueue (getCore u c) hp := by
  unfold switched
  rw [getCore_congr (modProc_cores ..), modProc_mem]
  split
  · exact ⟨rfl, rfl, fun _ => rfl⟩
  · unfold countAt
    rw [getCore_modCore_self, countEvent_fields]
    exact ⟨rfl, rfl, fun _ => rfl⟩

/-- What the resume word of `w` says of the run. -/
noncomputable def runOf (v : Word) (w : Nat) (pc : PC) (rcb slice : Nat) : Running := ⟨w, bit v 63, bit v 62, bit v 61, pc, rcb, slice, false, []⟩

theorem runProc_eq {s u : State} {c w : Nat} {p : Proc} (hp : getProc s w = some p) (hu : makeResident (setPstate s w 0 0) c w = u) :
    ∃ slice, runProc s c w = modCore (switched u c w) c (dispatched (runOf (resumeAt u w) w (resumePc (switched u c w) w) p.rcb slice)) := by
  unfold runProc
  rw [hp]
  dsimp only
  rw [hu]
  exact ⟨_, rfl⟩

theorem regRd_of_slots {s t : State} {c w : Nat} (hslots : (getCore t c).slots = (getCore s c).slots)
    (hword : ∀ a, w ≤ a → a ≤ w + 120 → hw t a = hw s a) (d : Reg) : regRd t c w d = regRd s c w d := by
  have hat (i : Nat) : slotAt (getCore t c) i = slotAt (getCore s c) i := slotAt_congr hslots i
  have hof : slotOf (getCore t c) w = slotOf (getCore s c) w := slotOf_congr (fun i => by rw [holders, hat, holders]) _
  have hd : 8 * d.toNat ≤ 8 * 15 := Nat.mul_le_mul_left 8 (Nat.le_of_lt_succ d.isLt)
  unfold regRd
  rw [hof, hword _ (Nat.le_add_right ..) (Nat.add_le_add_left hd w)]
  simp only [slotReg, hat]

theorem wait_before {w a : Nat} (hb : 128 ≤ w) (ha : w ≤ a) : a + 8 ≤ w - 8 ∨ w - 8 + 8 ≤ a :=
  .inr (Nat.sub_add_cancel ((by decide : 8 ≤ 128).trans hb) ▸ ha)

theorem runProc_runs {s : State} {c w : Nat} {p : Proc} (hp : getProc s w = some p) (hb : 128 ≤ w)
    (h : ∀ i sl, slotAt (getCore s c) i = some sl → sl.wptr ≠ w → Apart sl.wptr w ∧ 128 ≤ sl.wptr) :
    ∃ slice, (getCore (runProc s c w) c).run = some (runOf (resumeAt s w) w (resumePc s w) p.rcb slice) ∧
      pstate (runProc s c w) w = 0 ∧ (∀ hp, runQueue (getCore (runProc s c w) c) hp = runQueue (getCore s c) hp) ∧
      (slotOf (getCore (runProc s c w) c) w).isSome = true ∧ ∀ d, regRd (runProc s c w) c w d = regRd s c w d := by
  have hhead (a : Nat) (ha : w ≤ a) : hw (setPstate s w 0 0) a = hw s a := hw_putHw_apart _ _ _ _ (wait_before hb ha)
  obtain ⟨hqueues, -, hwords, hslot, hregs⟩ : Resident (setPstate s w 0 0) (makeResident (setPstate s w 0 0) c w) c w :=
    resident_makeResident h
  obtain ⟨slice, heq⟩ := runProc_eq hp rfl (c := c)
  generalize makeResident (setPstate s w 0 0) c w = u at *
  obtain ⟨hmem, hslots, hqueues'⟩ := switched_kept u c w
  generalize switched u c w = v at *
  have hres : resumeAt u w = resumeAt s w := (hwords w (Nat.sub_le ..) (Nat.le_add_right ..)).trans (hhead w (Nat.le_refl w))
  have hpc : resumePc v w = resumePc s w := by rw [resumePc_congr hmem, resumePc, hres, resumePc]
  have hcore := getCore_modCore_self v c (dispatched (runOf (resumeAt s w) w (resumePc s w) p.rcb slice))
  rw [hres, hpc] at heq
  rw [heq]
  refine ⟨slice, ?_, ?_, fun hp => ?_, ?_, fun d => ?_⟩
  · rw [hcore]
    rfl
  · unfold pstate waitAt
    rw [hw_congr (s := u) (by exact hmem), hwords _ (Nat.le_refl _) (Nat.le_add_right_of_le (Nat.sub_le ..))]
    exact pstate_setPstate s w (by decide) (by decide)
  · rw [hcore, ← show runQueue (getCore (setPstate s w 0 0) c) hp = runQueue (getCore s c) hp from rfl, ← hqueues hp, ← hqueues' hp]
    rfl
  · rw [hcore]
    rw [slotOf_congr (k := getCore u c) (fun i => by rw [holders, slotAt_congr (by exact hslots), holders])]
    exact hslot
  · have hslots' : (getCore (modCore v c (dispatched (runOf (resumeAt s w) w (resumePc s w) p.rcb slice))) c).slots = (getCore u c).slots := by
      rw [hcore]
      exact hslots
    exact (regRd_of_slots hslots' (fun a _ _ => hw_congr (s := u) hmem a) d).trans
      ((hregs d).trans (regRd_of_slots (getCore_congr (setPstate_cores s w 0 0) c ▸ rfl) (fun a ha _ => hhead a ha) d))

/-- The head of a process reads as before when it has left its queue. -/
theorem hw_putRunQueue_head {s : State} {c w : Nat} {q : List Nat} (hq : QueueApart q w) (hp : Bool) {a : Nat} (ha : w ≤ a)
    (ha' : a ≤ w + 120) : hw (putRunQueue s c hp q) a = hw s a := by
  exact (hw_writeLinks_head hq (Nat.le_add_right_of_le ha) ha' _).trans rfl

theorem execDispatch_head {s : State} {c w : Nat} {rest : List Nat} {hp : Bool} (hidle : (getCore s c).run = none)
    (hq : (hp = true ∧ (getCore s c).highQ = w :: rest) ∨ (hp = false ∧ (getCore s c).highQ = [] ∧ (getCore s c).lowQ = w :: rest)) :
    execDispatch c s = .next (settle (runProc (putRunQueue s c hp rest) c w)) := by
  rw [execDispatch, hidle]
  rcases hq with ⟨rfl, hq⟩ | ⟨rfl, hhigh, hq⟩
  · rw [hq]
    rfl
  · rw [hhigh, hq]
    rfl

section Timeslice
variable {s : State} {c : Nat} {r : Running} (hrun : (getCore s c).run = some r) (hlow : r.hp = false) (hslice : r.slice = 0)
    (hbet : betweenInstrs (getCore s c) = true)
include hrun hlow hslice hbet

/-- A core that starts a new slice of its process. -/
noncomputable def newSlice (r : Running) (k : Core) : Core := { k with run := some { r with slice := bits k.tslice 31 0 }, wfi := false }

theorem execTimesliceExpiry_alone (h : (getCore s c).lowQ = []) : execTimesliceExpiry c s = .next (modCore s c (newSlice r)) := by
  have hcond : (r.hp || r.slice != 0 || !betweenInstrs (getCore s c)) = false := by rw [hlow, hslice, hbet]; rfl
  rw [execTimesliceExpiry, hrun]
  dsimp only
  rw [hcond, h]
  rfl

theorem execTimesliceExpiry_others (h : (getCore s c).lowQ ≠ []) :
    execTimesliceExpiry c s = .next (settle (enqueueTail (setPstate (leaveCore s c r.pc) r.wptr 1 0) r.wptr)) := by
  have hcond : (r.hp || r.slice != 0 || !betweenInstrs (getCore s c)) = false := by rw [hlow, hslice, hbet]; rfl
  rw [execTimesliceExpiry, hrun]
  dsimp only
  rw [hcond, List.isEmpty_eq_false_iff.2 h]
  rfl

end Timeslice

/-- Settles O24: the process dispatched is resident (`resident_makeResident`) with the head that its queue left as it was; at the end of a
timeslice it is queued as YIELD queues it (`queued_leaveCore`). -/
theorem dispatchAndTimeslice : Obligations.DispatchAndTimeslice := by
  unfold Obligations.DispatchAndTimeslice
  refine ⟨fun s c w rest hp p hidle hq hproc _ hb hqa hsl => ?_, fun s c r p hrun hlow hslice hbet =>
    ⟨fun hemp => ?_, fun hne hpr hcore _ hb hpc hqa => ?_⟩⟩
  · have hcore := getCore_putRunQueue s c hp rest
    have hslots : (getCore (putRunQueue s c hp rest) c).slots = (getCore s c).slots := by rw [hcore, withQueue_fields]
    have hprocs : (putRunQueue s c hp rest).procs = s.procs := by unfold putRunQueue; rw [writeLinks_rest]; rfl
    have hhead : hw (putRunQueue s c hp rest) w = hw s w := hw_putRunQueue_head hqa hp (Nat.le_refl w) (Nat.le_add_right w 120)
    obtain ⟨slice, hrun, hst, hqs, hslot, hregs⟩ := runProc_runs (c := c) ((getProc_congr hprocs w).trans hproc) hb
      fun i sl hs => hsl i sl ((slotAt_congr hslots i).symm.trans hs)
    refine ⟨_, _, execDispatch_head hidle hq, hrun, rfl, ?_, ?_, ?_, ?_, rfl, hst, ?_, hslot, fun d => ?_⟩
    · exact congrArg (fun v : Word => BitVec.ofNat 48 (bits v 47 2 * 4)) hhead
    · exact congrArg (bit · 63) hhead
    · exact congrArg (bit · 62) hhead
    · exact congrArg (bit · 61) hhead
    · rw [hqs, hcore, runQueue_withQueue]
    · exact (hregs d).trans (regRd_of_slots hslots (fun a => hw_putRunQueue_head hqa hp) d)
  · refine ⟨_, execTimesliceExpiry_alone hrun hlow hslice hbet hemp, ?_, rfl⟩
    rw [getCore_modCore_self]
    rfl
  · have hq := queued_leaveCore hrun (by unfold procCore; rw [hpr]; exact hcore) hb hpc (by rw [hlow]; exact hqa)
    rw [hlow] at hq
    refine ⟨_, execTimesliceExpiry_others hrun hlow hslice hbet hne, ?_, ?_, hq.state, hq.pc⟩
    · rw [hq.core]
      rfl
    · rw [hq.core]
      rfl

end Sys2Proof.Machine
end

section
/-! SUPPORT. The record of a trap and what a trap leaves (R128, R342 to R344). -/

-- Proofs are elaborated one after another: side by side they would need more memory than a check has.
set_option Elab.async false

namespace Sys2Proof.Machine

open Sys2Proof.Claims

/-! ### The first doubleword of a record (R343) -/

theorem isPrecise_iff (c : Cause) (sub : Nat) : isPrecise c sub = true ↔ Precise c sub := by
  have hc : isPrecise c sub =
      (decide (c ∈ [Cause.illop, .priv, .align, .prot, .far, .bound, .hole, .tenant, .page, .swtrap, .brk, .ringsize, .reporder]) ||
        (c == .chan && (sub == 1 || sub == 4))) := by
    cases c <;> rfl
  rw [hc]
  unfold Precise
  rw [Bool.or_eq_true, decide_eq_true_iff, Bool.and_eq_true, Bool.or_eq_true, beq_iff_eq, beq_iff_eq, beq_iff_eq]

theorem causeCode_lt (c : Cause) : causeCode c < 2 ^ 8 := by cases c <;> decide

theorem causesByCode_causeCode (c : Cause) : causesByCode[causeCode c - 1]? = some c := by cases c <;> rfl

theorem recordWord_fields (seq : Word) (c : Cause) (sub : Nat) (hsub : sub < 256) :
    ∀ w, w = word (seq.toNat % 2 ^ 32 * 2 ^ 32) ||| causeWord c sub →
      causesByCode[w.toNat % 256 - 1]? = some c ∧ w.toNat / 2 ^ 8 % 2 ^ 8 = sub ∧ (Precise c sub → w.toNat / 2 ^ 16 % 2 ^ 16 = 0) ∧
        (¬Precise c sub → w.toNat / 2 ^ 16 % 2 ^ 16 = 1) ∧ w.toNat / 2 ^ 32 = seq.toNat % 2 ^ 32 := by
  rintro _ rfl
  have has : b2n (!isPrecise c sub) < 2 ^ 16 := by cases isPrecise c sub <;> decide
  have hlow : Fits [(8, causeCode c), (8, sub), (16, b2n (!isPrecise c sub))] := ⟨causeCode_lt c, hsub, has, trivial⟩
  have hfits : Fits [(8, causeCode c), (8, sub), (16, b2n (!isPrecise c sub)), (32, seq.toNat % 2 ^ 32)] :=
    ⟨causeCode_lt c, hsub, has, Nat.mod_lt _ (by decide), trivial⟩
  have hlt : packed [(8, causeCode c), (8, sub), (16, b2n (!isPrecise c sub))] < 2 ^ 32 := packed_lt hlow
  have hcause : (causeWord c sub).toNat = packed [(8, causeCode c), (8, sub), (16, b2n (!isPrecise c sub))] := by
    have hsum : b2n (!isPrecise c sub) * 2 ^ 16 + sub % 256 * 2 ^ 8 + causeCode c =
        packed [(8, causeCode c), (8, sub), (16, b2n (!isPrecise c sub))] := by
      rw [Nat.mod_eq_of_lt hsub]
      simp only [packed]
      lia
    unfold causeWord
    rw [hsum]
    exact word_toNat (Nat.lt_trans hlt (by decide))
  have hseq : (word (seq.toNat % 2 ^ 32 * 2 ^ 32)).toNat = 2 ^ 32 * (seq.toNat % 2 ^ 32) := by
    rw [Nat.mul_comm, word_toNat]
    exact Nat.mul_lt_mul_of_pos_left (Nat.mod_lt _ (by decide)) (by decide)
  have hword : (word (seq.toNat % 2 ^ 32 * 2 ^ 32) ||| causeWord c sub).toNat =
      packed [(8, causeCode c), (8, sub), (16, b2n (!isPrecise c sub)), (32, seq.toNat % 2 ^ 32)] := by
    rw [BitVec.toNat_or, hseq, hcause, ← Nat.two_pow_add_eq_or_of_lt hlt]
    simp only [packed]
    lia
  have hprecise : packed _ / 2 ^ 16 % 2 ^ 16 = b2n (!isPrecise c sub) := packed_field 2 hfits rfl
  have hcode : packed _ % 256 = causeCode c := packed_low hfits
  rw [hword, hprecise, hcode]
  refine ⟨causesByCode_causeCode c, packed_field 1 hfits rfl, fun hp => ?_, fun hp => ?_, packed_top 3 hfits rfl rfl⟩
  · rw [(isPrecise_iff c sub).2 hp]
    rfl
  · rw [Bool.eq_false_iff.2 fun h => hp ((isPrecise_iff c sub).1 h)]
    rfl

/-! ### What a trap leaves -/

/-- A tile that has queued record `x` in slot `k`. -/
noncomputable def queuedRecord (k : Nat) (x : TrapSlot) (q : Tile) : Tile :=
  { q with trapQ := q.trapQ.setIfInBounds k (some x), trapOrder := q.trapOrder ++ [k] }

/-- The record takes the first free slot of the tile's queue. -/
theorem queueRecords_first {s : State} {t : Nat} (h : freeSlots s t ≠ []) (x : TrapSlot) (rcb : Nat) :
    ∃ k ∈ freeSlots s t, queueRecords s t [x] rcb = modTile s t (queuedRecord k x) := by
  obtain ⟨k, ks, hk⟩ := List.exists_cons_of_ne_nil h
  have hroom : [x].length ≤ (k :: ks).length := Nat.succ_le_succ (Nat.zero_le _)
  refine ⟨k, hk ▸ List.mem_cons_self, ?_⟩
  unfold queueRecords
  simp only [hk]
  rw [if_pos hroom, List.zip_cons_cons, List.zip_nil_left, List.foldl_cons, List.foldl_nil]
  rfl

/-- Beside process `w` and its core, what the process leaves: the other cores, the bytes outside its resume and WAIT words, the trap queues
and the time are as before. -/
structure LeftAlone (s t : State) (c w : Nat) : Prop where
  cores : ∀ d, d ≠ c → getCore t d = getCore s d
  mem : ∀ a, a < w - 8 ∨ w + 8 ≤ a → memGet t.mem a = memGet s.mem a
  queue : ∀ n, (getTile t n).trapQ = (getTile s n).trapQ ∧ (getTile t n).trapOrder = (getTile s n).trapOrder
  time : t.time = s.time

theorem leftAlone_dropHeldAcc (s : State) (who : HeldBy) (c w : Nat) : LeftAlone s (dropHeldAcc s who) c w := by
  unfold dropHeldAcc
  split
  · refine ⟨fun _ _ => rfl, fun _ _ => rfl, fun n => ?_, rfl⟩
    simp only [getTile, amGet_map_snd s.tiles (fun q => { q with held := q.held.filter (·.by_ != who) })]
    cases amGet s.tiles n <;> exact ⟨rfl, rfl⟩
  · exact ⟨fun _ _ => rfl, fun _ _ => rfl, fun _ => ⟨rfl, rfl⟩, rfl⟩

theorem modProc_time (s : State) (w : Nat) (f : Proc → Proc) : (modProc s w f).time = s.time := by
  obtain ⟨ps, h⟩ := modProc_eq s w f
  rw [h]

/-- A process that has left its core is trapped: its words and its core alone have changed. -/
theorem leftAlone_trapState {s : State} {c : Nat} {r : Running} (hrun : (getCore s c).run = some r) (back : PC) (cause : Cause) (sub : Nat)
    (tval : Word) : LeftAlone s (trapState (leaveCore s c back) c r cause sub tval) c r.wptr := by
  obtain ⟨hcores, hmem, hqueue, htime⟩ := leftAlone_dropHeldAcc s (.instr c) c r.wptr
  rw [leaveCore_of_run hrun]
  unfold trapState
  generalize dropHeldAcc s (.instr c) = u at *
  refine ⟨fun d hd => ?_, fun a ha => ?_, fun n => ?_, ?_⟩
  · rw [getCore_modCore_ne _ _ _ _ hd, getCore_congr (modProc_cores ..), getCore_congr (setPstate_cores ..), getCore_modCore_ne _ _ _ _ hd,
      getCore_congr (putHw_cores ..)]
    exact hcores d hd
  · rw [modCore_mem, modProc_mem]
    unfold setPstate
    rw [putHw_mem, memGet_memPut_out _ _ _ _ _ (ha.imp_right (Nat.add_le_add_right (Nat.sub_le ..) 8).trans), modCore_mem, putHw_mem,
      memGet_memPut_out _ _ _ _ _ (ha.imp_left fun h => Nat.lt_of_lt_of_le h (Nat.sub_le ..))]
    exact hmem a ha
  · rw [getTile_congr (modCore_tiles ..), getTile_congr (modProc_tiles ..), getTile_congr (setPstate_tiles ..), getTile_congr (modCore_tiles ..),
      getTile_congr (putHw_tiles ..)]
    exact hqueue n
  · rw [modCore_time, modProc_time]
    unfold setPstate
    rw [putHw_time, modCore_time, putHw_time]
    exact htime

/-- A trap of an executing process, and its record. -/
theorem takeTrap_record {s : State} {r : Running} (h : Placed s r) (hroom : RoomToTrap s) (cause : Cause) (sub : Nat) (tval aux : Word)
    (next : Bool) : ∃ v : State, LeftAlone s v s.cur r.wptr ∧ (me v).slots = (me s).slots ∧ v.cur = s.cur ∧
      ∃ k ∈ freeSlots s (coreTile s.cur), ∃ x, takeTrap s r.wptr cause sub tval aux next = modTile v (coreTile s.cur) (queuedRecord k x) ∧
        x.words = trapRecord (me s).tseq cause sub r.wptr r.pc tval (placeOf s.cur) (procRegion s r.wptr) aux s.time ∧
        x.rcb = procRegion s r.wptr := by
  have hgone := giveUp_of_placed h
  have halone : LeftAlone s (trapState (leaveCore (dropTaken (leaveStep s r.wptr) r.wptr) s.cur (if next then r.pc + 4 else r.pc)) s.cur r cause
      sub tval) s.cur r.wptr := by
    rw [hgone]
    obtain ⟨hcores, hmem, hqueue, htime⟩ := leftAlone_trapState (s := { s with msgs := s.msgs.filter fun m => !chanMsgOf r.wptr m })
      (issuer_run h.running) (if next then r.pc + 4 else r.pc) cause sub tval
    exact ⟨hcores, hmem, hqueue, htime⟩
  have hleft := left_giveUp h (if next then r.pc + 4 else r.pc)
  simp only [takeTrap, takeTrapWith, procCore_of_placed h, isRunning_of_placed h, pcAt_of_placed h, if_true]
  generalize leaveCore _ _ _ = u at hleft halone ⊢
  have hcur : (trapState u s.cur r cause sub tval).cur = s.cur := by simp [trapState, hleft.cur]
  have hfree : freeSlots (trapState u s.cur r cause sub tval) = freeSlots s := freeSlots_congr fun n => (halone.queue n).1
  have htime : (trapState u s.cur r cause sub tval).time = s.time := halone.time
  obtain ⟨k, hk, heq⟩ := queueRecords_first (s := trapState u s.cur r cause sub tval) (t := coreTile s.cur) (hfree ▸ hroom)
    ⟨trapRecord (me s).tseq cause sub r.wptr r.pc tval (placeOf s.cur) (procRegion s r.wptr) aux (trapState u s.cur r cause sub tval).time,
      procRegion s r.wptr, consumedAt (coreTile s.cur) cause sub tval, false⟩ (procRegion s r.wptr)
  refine ⟨_, halone, ?_, hcur, k, hfree ▸ hk, _, heq, by rw [htime], rfl⟩
  unfold me
  rw [hcur, getCore_trapState, hleft.core, trapCore_fields]
  rfl

/-- A resident process's CSRs are those of its slot. -/
theorem pcsr_congr {s t : State} {r : Running} (h : Issues s r) (hcur : t.cur = s.cur) (hslots : (me t).slots = (me s).slots) (n : Nat) :
    pcsr t r n = pcsr s r n := by
  unfold me at hslots
  rw [hcur] at hslots
  have hat (i : Nat) : slotAt (getCore t s.cur) i = slotAt (getCore s s.cur) i := slotAt_congr hslots i
  have hof : slotOf (getCore t s.cur) r.wptr = slotOf (getCore s s.cur) r.wptr := slotOf_congr (fun i => by rw [holders, hat, holders]) _
  obtain ⟨i, hi⟩ := Option.isSome_iff_exists.mp h.resident
  simp only [pcsr, pcsrRd, hcur, hof, hi, slotCsr, hat]

/-- Settles O13: beside the process's own words and core a trap changes the queue that its record enters (`takeTrap_record`). -/
theorem takingATrap : Obligations.TakingATrap := by
  intro s r cause sub tval aux next h hroom hsub t
  obtain ⟨v, halone, hslots, hcur, k, hk, x, heq, hwords, hrcb⟩ := takeTrap_record h hroom cause sub tval aux next
  have hk8 : k < 8 := List.mem_range.1 (List.mem_of_mem_filter hk)
  have ht : t = modTile v (coreTile s.cur) (queuedRecord k x) := heq
  have htile : getTile t (coreTile s.cur) = queuedRecord k x (getTile v (coreTile s.cur)) := by rw [ht, getTile_modTile_self]
  refine ⟨trapped_takeTrap h hroom cause sub tval aux next, ⟨k, x, hk, ?_, ?_, hrcb, _, hwords,
      recordWord_fields (me s).tseq cause sub hsub _ rfl⟩,
    fun c hc => ?_, fun a ha => ?_, fun n => ?_⟩
  · rw [htile]
    unfold queuedRecord
    rw [Vector.getElem?_setIfInBounds_self_of_lt hk8]
    rfl
  · rw [htile]
    exact congrArg (· ++ [k]) (halone.queue _).2
  · rw [ht, getCore_congr (modTile_cores ..)]
    exact halone.cores c hc
  · rw [ht, modTile_mem]
    exact halone.mem a ha
  · refine pcsr_congr h.toIssues (by rw [ht, modTile_cur, hcur]) ?_ n
    rw [ht]
    unfold me
    rw [getCore_congr (modTile_cores ..)]
    exact hslots

end Sys2Proof.Machine
end

section
/-! SUPPORT. RESUME (R133, R134): a trapped process goes back to its queue. -/

-- Proofs are elaborated one after another: side by side they would need more memory than a check has.
set_option Elab.async false

namespace Sys2Proof.Machine

open Sys2Proof.Claims

/-! ### The resume word with another PC -/

theorem setBits_pc_fields (v : Word) {x : Nat} (hx : x < 2 ^ 48) :
    (setBits v 47 0 x).toNat % 2 ^ 48 = x ∧ (setBits v 47 0 x).toNat / 2 ^ 48 = v.toNat / 2 ^ 48 := by
  have hfits : Fits [(48, x), (16, v.toNat / 2 ^ 48)] := ⟨hx, Nat.div_lt_of_lt_mul v.isLt, trivial⟩
  have hsum : v.toNat - v.toNat % 2 ^ 48 * 1 + x % 2 ^ 48 * 1 = packed [(48, x), (16, v.toNat / 2 ^ 48)] := by
    rw [Nat.mod_eq_of_lt hx, Nat.mul_one, Nat.mul_one, Nat.sub_eq_of_eq_add (Nat.div_add_mod v.toNat (2 ^ 48)).symm, Nat.add_comm]
    rfl
  have hword : (setBits v 47 0 x).toNat = packed _ := word_packed hsum.symm hfits (Nat.le_refl 64)
  rw [hword]
  exact ⟨packed_low hfits, packed_top 1 hfits rfl rfl⟩

theorem resumePc_setResumePc (s : State) (w : Nat) {pc : PC} (h : pc.toNat % 4 = 0) : resumePc (setResumePc s w pc) w = pc := by
  obtain ⟨hlow, -⟩ := setBits_pc_fields (resumeAt s w) pc.isLt
  have hbits : bits (setBits (resumeAt s w) 47 0 pc.toNat) 47 2 * 4 = pc.toNat := by
    unfold bits
    rw [Nat.shiftRight_eq_div_pow, show 2 ^ (47 + 1 - 2) = 2 ^ 46 from rfl, ← Nat.mod_mul_right_div_self, show 2 ^ 2 * 2 ^ 46 = 2 ^ 48 from rfl,
      hlow, Nat.div_mul_cancel (Nat.dvd_of_mod_eq_zero h)]
  unfold resumePc resumeAt setResumePc
  rw [hw_putHw_self, hbits, BitVec.ofNat_toNat, BitVec.setWidth_eq]

theorem bit_setResumePc (s : State) (w : Nat) (pc : PC) : bit (resumeAt (setResumePc s w pc) w) 62 = bit (resumeAt s w) 62 := by
  obtain ⟨-, hhigh⟩ := setBits_pc_fields (resumeAt s w) pc.isLt
  rw [resumeAt, setResumePc, hw_putHw_self, bit, BitVec.getLsbD, Nat.testBit_eq_decide_div_mod_eq, bit, BitVec.getLsbD,
    Nat.testBit_eq_decide_div_mod_eq, show 2 ^ 62 = 2 ^ 48 * 2 ^ 14 from rfl, ← Nat.div_div_eq_div_mul, hhigh, Nat.div_div_eq_div_mul]

/-! ### What resuming leaves of a core -/

/-- A core that keeps its process, its slots and its count of instructions. -/
structure RunsOn (k l : Core) : Prop where
  slots : l.slots = k.slots
  run : l.run = k.run
  instret : l.instret = k.instret

theorem runsOn_enqueueTail (s : State) (w c : Nat) : RunsOn (getCore s c) (getCore (enqueueTail s w) c) := by
  generalize hhp : bit (resumeAt s w) 62 = hp
  by_cases hc : c = procCore s w
  · rw [hc, getCore_enqueueTail rfl hhp, withQueue_fields]
    exact ⟨rfl, rfl, rfl⟩
  · unfold enqueueTail wakeCore
    rw [getCore_modCore_ne _ _ _ _ hc]
    unfold putRunQueue
    rw [writeLinks_rest]
    have hk := getCore_modCore_ne s (procCore s w) c
      (withQueue (bit (resumeAt s w) 62) (runQueue (getCore s (procCore s w)) (bit (resumeAt s w) 62) ++ [w])) hc
    exact ⟨congrArg Core.slots hk, congrArg Core.run hk, congrArg Core.instret hk⟩

/-- An answer stands while the core runs on. -/
theorem answers_later {s t u : State} {r : Running} {d : Reg} {v : Word} (h : Answers s t r d v) (hcur : u.cur = t.cur)
    (hres : (slotOf (me t) r.wptr).isSome = true) (hk : RunsOn (me t) (me u)) : Answers s u r d v := by
  have hreg (e : Reg) : reg u r e = reg t r e := by
    have hslots := hk.slots
    unfold me at hslots
    rw [hcur] at hslots
    have hat (i : Nat) : slotAt (getCore u t.cur) i = slotAt (getCore t t.cur) i := slotAt_congr hslots i
    have hof : slotOf (getCore u t.cur) r.wptr = slotOf (getCore t t.cur) r.wptr := slotOf_congr (fun i => by rw [holders, hat, holders]) _
    obtain ⟨i, hi⟩ := Option.isSome_iff_exists.mp hres
    unfold me at hi
    unfold reg
    rw [hcur]
    unfold regRd
    rw [hof, hi]
    simp only [slotReg, hat]
  exact ⟨hcur.trans h.cur, fun hd => (hreg d).trans (h.dest hd), (hreg 0).trans h.zero, fun e he => (hreg e).trans (h.regs e he),
    hk.run.trans h.pc, hk.instret.trans h.retired⟩

/-! ### A trapped process goes back (R134) -/

/-- The state with a new PC in the resume word of `w`, where one is given. -/
noncomputable def redirected (s : State) (w : Nat) (pc : Option PC) : State := pc.elim s (setResumePc s w)

theorem resumeProc_eq (s : State) (w : Nat) (pc : Option PC) : resumeProc s w pc =
    if suspendedRegion (redirected s w pc) (procRegion (redirected s w pc) w) then
      setPstate (wakeCore (redirected s w pc) (procCore (redirected s w pc) w)) w 11 1
    else enqueueTail (setPstate (redirected s w pc) w 1 0) w := by
  cases pc <;> rfl

theorem redirected_rest (s : State) (w : Nat) (pc : Option PC) : redirected s w pc = { s with mem := (redirected s w pc).mem } := by
  cases pc <;> rfl

theorem hw_redirected {s : State} {w : Nat} (pc : Option PC) {a : Nat} (h : a + 8 ≤ w ∨ w + 8 ≤ a) : hw (redirected s w pc) a = hw s a := by
  cases pc with
  | none => rfl
  | some pc => exact hw_putHw_apart _ _ _ _ h

section Resumed
variable {s : State} {w : Nat} {p : Proc} (hp : getProc s w = some p) (hal : w % 128 = 0) (hb : 128 ≤ w)
    (pc : Option PC) (hpc : ∀ x ∈ pc, x.toNat % 4 = 0)
include hp

theorem procs_redirected : procCore (redirected s w pc) w = p.core ∧ procRegion (redirected s w pc) w = p.rcb := by
  have hproc : getProc (redirected s w pc) w = some p := by rw [redirected_rest]; exact hp
  unfold procCore procRegion
  rw [hproc]
  exact ⟨rfl, rfl⟩

include hal

omit hp in
theorem suspended_redirected (h : p.rcb % 256 = 0) :
    (rcbState s p.rcb = 0 → suspendedRegion (redirected s w pc) p.rcb = false) ∧
    (p.rcb ≠ 0 → rcbState s p.rcb = 1 → suspendedRegion (redirected s w pc) p.rcb = true) := by
  have hrcb : 128 ∣ p.rcb := Dvd.dvd.trans (by decide) (Nat.dvd_of_mod_eq_zero h)
  have hw : 128 ∣ w := Nat.dvd_of_mod_eq_zero hal
  have hne : p.rcb + 8 ≠ w := fun he => absurd ((Nat.dvd_add_right hrcb).1 (he ▸ hw)) (by decide)
  have hapart := word_ne_apart (Nat.dvd_add (Dvd.dvd.trans (by decide) hrcb) (dvd_refl 8)) (Dvd.dvd.trans (by decide) hw) hne
  have hstate : rcbState (redirected s w pc) p.rcb = rcbState s p.rcb := by
    rw [rcbState, rcbField, hw_redirected pc hapart, rcbState, rcbField]
  unfold suspendedRegion
  rw [hstate]
  refine ⟨fun h0 => ?_, fun hne h1 => ?_⟩
  · rw [h0]
    exact Bool.and_false _
  · rw [h1, bne_iff_ne.2 hne]
    rfl

include hb hpc

theorem resumed {high : Bool} (hhp : bit (resumeAt s w) 62 = high) (hlive : suspendedRegion (redirected s w pc) p.rcb = false)
    (hq : ∀ x ∈ runQueue (getCore s p.core) high, x % 128 = 0 ∧ 128 ≤ x) :
    pstate (resumeProc s w pc) w = 1 ∧ resumePc (resumeProc s w pc) w = pc.getD (resumePc s w) ∧
      runQueue (getCore (resumeProc s w pc) p.core) high = runQueue (getCore s p.core) high ++ [w] ∧
      (resumeProc s w pc).cur = s.cur ∧ ∀ c, RunsOn (getCore s c) (getCore (resumeProc s w pc) c) := by
  obtain ⟨hcore, hrcb⟩ := procs_redirected hp pc
  rw [resumeProc_eq, hrcb, hlive, if_neg Bool.false_ne_true]
  have hcores (c : Nat) : getCore (setPstate (redirected s w pc) w 1 0) c = getCore s c := by
    rw [getCore_congr (setPstate_cores ..), redirected_rest]
    rfl
  have hbit : bit (resumeAt (setPstate (redirected s w pc) w 1 0) w) 62 = high := by
    unfold resumeAt setPstate
    rw [hw_putHw_apart _ _ _ _ (wait_apart hb), ← hhp]
    cases pc with
    | none => rfl
    | some pc => exact bit_setResumePc s w pc
  have hresume : resumePc (setPstate (redirected s w pc) w 1 0) w = pc.getD (resumePc s w) := by
    rw [resumePc_setPstate _ _ _ _ ((by decide : 8 ≤ 128).trans hb)]
    cases pc with
    | none => rfl
    | some pc => exact resumePc_setResumePc s w (hpc pc rfl)
  have hstate : pstate (setPstate (redirected s w pc) w 1 0) w = 1 := pstate_setPstate _ _ (by decide) (by decide)
  have hcur : (setPstate (redirected s w pc) w 1 0).cur = s.cur := by
    rw [setPstate_cur, redirected_rest]
  have hown : procCore (setPstate (redirected s w pc) w 1 0) w = p.core := hcore
  generalize setPstate (redirected s w pc) w 1 0 = u at *
  have hlinks {a : Nat} (ha : a = w - 8 ∨ a = w) : hw (enqueueTail u w) a = hw u a := by
    refine hw_enqueueTail hown hbit fun x hx => ?_
    rw [hcores] at hx
    rcases List.mem_append.1 hx with hx | hx
    · exact link_apart (hq x hx) ⟨hal, hb⟩ ha
    · exact link_apart (List.mem_singleton.1 hx ▸ ⟨hal, hb⟩) ⟨hal, hb⟩ ha
  refine ⟨?_, ?_, ?_, (enqueueTail_cur u w).trans hcur, fun c => hcores c ▸ runsOn_enqueueTail u w c⟩
  · unfold pstate waitAt
    rw [hlinks (.inl rfl)]
    exact hstate
  · unfold resumePc resumeAt
    rw [hlinks (.inr rfl)]
    exact hresume
  · rw [getCore_enqueueTail hown hbit, hcores]
    exact runQueue_withQueue _ _ _

end Resumed

theorem resumed_suspended {s : State} {w : Nat} {p : Proc} (hp : getProc s w = some p) (pc : Option PC)
    (hsusp : suspendedRegion (redirected s w pc) p.rcb = true) :
    pstate (resumeProc s w pc) w = 11 ∧ (resumeProc s w pc).cur = s.cur ∧ ∀ c, RunsOn (getCore s c) (getCore (resumeProc s w pc) c) := by
  obtain ⟨hcore, hrcb⟩ := procs_redirected hp pc
  rw [resumeProc_eq, hrcb, hsusp, if_pos rfl, hcore]
  refine ⟨pstate_setPstate _ _ (by decide) (by decide), ?_, fun c => ?_⟩
  · rw [setPstate_cur]
    unfold wakeCore
    rw [modCore_cur, redirected_rest]
  · rw [getCore_congr (setPstate_cores ..)]
    unfold wakeCore
    rw [redirected_rest]
    by_cases hc : c = p.core
    · rw [hc, getCore_modCore_self]
      exact ⟨rfl, rfl, rfl⟩
    · rw [getCore_modCore_ne _ _ _ _ hc]
      exact ⟨rfl, rfl, rfl⟩

/-! ### RESUME (R133) -/

theorem sysAddrStatus_aligned {s : State} {c n : Nat} {a : Word} (h : sysAddrStatus s c a n = 0) : a.toNat % n = 0 := by
  rw [sysAddrStatus] at h
  by_contra hne
  rw [if_pos (bne_iff_ne.2 hne)] at h
  repeat' split at h
  all_goals cases h

theorem issues_wakeAny {s : State} {r : Running} (h : Issues s r) (c : Nat) : Issues (wakeCore s c) r := by
  by_cases hc : c = s.cur
  · have hwfi : (getCore s s.cur).wfi = false := by
      have hr := h.running
      unfold issuer at hr
      cases hw : (getCore s s.cur).wfi with
      | false => rfl
      | true => simp [hw, issuer_run h.running] at hr
    have hcore := getCore_modCore_self s s.cur fun k => { k with wfi := false }
    rw [hc]
    unfold wakeCore
    exact issues_congr h rfl (by rw [hcore]) (by rw [hcore, hwfi]) (by rw [hcore]) (by rw [hcore])
  · exact (issues_wakeCore h hc).2

section Instr
variable {s : State} {r : Running} (h : Issues s r) (hsm : r.sm = true) {a : Reg} {w : Nat} (ha : (reg s r a).toNat = w)
    (hst : sysAddrStatus s s.cur (reg s r a) 128 = 0)
include h hsm ha hst

/-- What RESUME comes to where its operand is an address that it takes. -/
theorem execResume_next (d b : Reg) : exec (.resume d a b) s = .next
    (if (getProc s w).isNone then finish s s.cur r d (if pstate s w == 12 then 1 else 2)
    else if pstate s w != 10 then finish (wakeCore s (procCore s w)) s.cur r d 1
    else if b != 0 && !pcValid (reg s r b) then finish (wakeCore s (procCore s w)) s.cur r d 3
    else if !(me s).sbuf.isEmpty || unackedIn s s.cur r.wptr .panel || killing s w then holdHere s
    else settle (resumeProc (acquireDone (finish s s.cur r d 0) (procCore s w) .panel) w
      (if b = 0 then none else some ((reg s r b).setWidth 48)))) := by
  have hsrc (e : Reg) : src s s.cur r e = reg s r e := rfl
  refine (onCore_issues h _ : execResume d a b s = _).trans (congrArg Host.Outcome.next ?_)
  unfold systemOnly
  rw [hsm, if_pos rfl]
  simp only [hsrc, hst, ha]
  rfl

variable {p : Proc} (hp : getProc s w = some p) (htrap : pstate s w = 10) {b : Reg} (hpc : b = 0 ∨ pcValid (reg s r b) = true)
include hp htrap hpc

theorem execResume_held (d : Reg) (hheld : p.killed = true ∨ (me s).sbuf ≠ [] ∨ unackedIn s s.cur r.wptr .panel = true) :
    exec (.resume d a b) s = .next (holdHere s) := by
  have hvalid : (b != 0 && !pcValid (reg s r b)) = false := by
    rcases hpc with hpc | hpc
    · rw [hpc]; rfl
    · rw [hpc]; exact Bool.and_false _
  have hkill : killing s w = p.killed := by unfold killing; rw [hp]
  rw [execResume_next h hsm ha hst d b, hp, htrap, hvalid, hkill, Option.isNone_some, if_neg Bool.false_ne_true, if_neg (by decide),
    if_neg Bool.false_ne_true]
  refine congrArg Host.Outcome.next (if_pos ?_)
  rcases hheld with hk | hs | hu
  · rw [hk, Bool.or_true]
  · rw [List.isEmpty_eq_false_iff.2 hs]
    rfl
  · rw [hu, Bool.or_true, Bool.true_or]

theorem execResume_done (d : Reg) (hkill : p.killed = false) (hdr : Drained s) :
    exec (.resume d a b) s = .next (settle (resumeProc (acquireDone (finish s s.cur r d 0) p.core .panel) w
      (if b = 0 then none else some ((reg s r b).setWidth 48)))) := by
  obtain ⟨hbuf, hjournal⟩ := hdr
  have hvalid : (b != 0 && !pcValid (reg s r b)) = false := by
    rcases hpc with hpc | hpc
    · rw [hpc]; rfl
    · rw [hpc]; exact Bool.and_false _
  have hk : killing s w = false := by unfold killing; rw [hp]; exact hkill
  have hack : unackedIn s s.cur r.wptr .panel = false := by
    unfold me at hjournal
    unfold unackedIn
    rw [hjournal]
    rfl
  rw [execResume_next h hsm ha hst d b]
  unfold procCore
  rw [hp, htrap, hvalid, hk, hbuf, hack]
  rfl

end Instr

/-- The state in which RESUME moves its process: the answer stands, and that process is as before. -/
theorem finish_acquired {s : State} {r : Running} (h : Issues s r) (d : Reg) (c : Nat) :
    Answers s (acquireDone (finish s s.cur r d 0) c .panel) r d 0 ∧
      (slotOf (me (acquireDone (finish s s.cur r d 0) c .panel)) r.wptr).isSome = true ∧
      (acquireDone (finish s s.cur r d 0) c .panel).mem = s.mem ∧ (acquireDone (finish s s.cur r d 0) c .panel).procs = s.procs ∧
      ∀ e hp, runQueue (getCore (acquireDone (finish s s.cur r d 0) c .panel) e) hp = runQueue (getCore s e) hp := by
  have hq := Quiet.acquireDone (finish s s.cur r d 0) c .panel
  have hstep := regStep_finish h d 0
  obtain ⟨i, hi⟩ := Option.isSome_iff_exists.mp h.resident
  obtain ⟨-, sl, hs, -⟩ := slotOf_spec hi
  have hf := finish_finished (issuer_run h.running) hi hs d 0 (r.pc + 4)
  have hcur : (finish s s.cur r d 0).cur = s.cur := by rw [hstep.frame.rest]
  have hslot : slotOf (me (finish s s.cur r d 0)) r.wptr = some i := by
    unfold me
    rw [hcur]
    exact (slotOf_finished hf hs s.cur r.wptr).trans hi
  have hmem : (finish s s.cur r d 0).mem = s.mem := by rw [hstep.frame.rest]
  have hprocs : (finish s s.cur r d 0).procs = s.procs := by rw [hstep.frame.rest]
  have hqueue (e : Nat) (hp : Bool) : runQueue (getCore (finish s s.cur r d 0) e) hp = runQueue (getCore s e) hp := by
    by_cases he : e = s.cur
    · have hcore : getCore (finish s s.cur r d 0) s.cur = _ := hf.core
      rw [he, hcore]
      rfl
    · rw [hstep.frame.others e he]
  have hans : Answers s (finish s s.cur r d 0) r d 0 := answers_of_regStep hstep
  generalize finish s s.cur r d 0 = u at *
  generalize acquireDone u c .panel = t at *
  have hof : slotOf (me t) r.wptr = some i := by unfold me; rw [hq.cur_eq, hq.slotOf_eq]; exact hslot
  refine ⟨answers_later hans hq.cur_eq (by rw [hslot]; rfl) ?_, by rw [hof]; rfl, hq.mem_eq.trans hmem, hq.procs_eq.trans hprocs, fun e hp => ?_⟩
  · unfold me
    rw [hq.cur_eq]
    exact ⟨hq.slots_eq _, hq.run_eq _, hq.instret_eq _⟩
  · rw [hq.core, ← hqueue e hp]
    rfl

theorem pcValid_aligned {v : Word} (h : pcValid v = true) : (v.setWidth 48).toNat % 4 = 0 := by
  obtain ⟨hlow, -⟩ := (Bool.and_eq_true ..).mp h
  have hmod : v.toNat % 4 = 0 := beq_iff_eq.1 hlow
  rw [BitVec.toNat_setWidth, Nat.mod_mod_of_dvd _ (by decide), hmod]

/-- Settles O16: the issuer's answer stands while the process goes back to its queue (`resumed`) or stays suspended (`resumed_suspended`). -/
theorem resumeReturns : Obligations.ResumeReturns := by
  intro d a b s r w hpl hsm ha hst hb hne
  have h := hpl.toIssues
  have hx := execResume_next h hsm ha hst d b
  have hal : w % 128 = 0 := ha ▸ sysAddrStatus_aligned hst
  refine ⟨fun p hp htrap hpc hk hdr hq => ?_,
    fun p hp htrap hpc hheld => ⟨_, execResume_held h hsm ha hst hp htrap hpc d hheld, held_holdHere h⟩,
    fun hp hst => ?_, fun hp hst => ?_, fun hp hst hb0 hpc => ?_⟩
  · have hdone := execResume_done h hsm ha hst hp htrap hpc d hk hdr
    obtain ⟨hans, hslot, hmem, hprocs, hqueues⟩ := finish_acquired h d p.core
    generalize acquireDone (finish s s.cur r d 0) p.core .panel = t at *
    have hp' : getProc t w = some p := (getProc_congr hprocs w).trans hp
    have hregion : rcbState t p.rcb = rcbState s p.rcb := congrArg (bits · 63 60) (hw_congr hmem (p.rcb + 8))
    have hpc4 : ∀ x ∈ (if b = 0 then none else some ((reg s r b).setWidth 48)), x.toNat % 4 = 0 := by
      intro x hx
      split at hx
      · cases hx
      · cases hx
        exact pcValid_aligned (hpc.resolve_left ‹_›)
    refine ⟨fun hrcb => ?_, fun hne0 hrcb hsusp => ?_⟩
    · have hlive : suspendedRegion (redirected t w (if b = 0 then none else some ((reg s r b).setWidth 48))) p.rcb = false := by
        rcases hrcb with h0 | ⟨hal', hlive⟩
        · rw [h0]
          rfl
        · exact (suspended_redirected hal _ hal').1 (hregion.trans hlive)
      obtain ⟨hstate, hback, hqueue, hcur, hruns⟩ := resumed hp' hal hb _ hpc4 (congrArg (bit · 62) (hw_congr hmem w)) hlive (hqueues .. ▸ hq)
      refine ⟨_, hdone, answers_later hans hcur hslot ?_, hstate, ?_, hqueue.trans (congrArg (· ++ [w]) (hqueues ..))⟩
      · unfold me
        rw [hcur]
        exact hruns _
      · rw [hback, resumePc_congr hmem]
        split <;> rfl
    · obtain ⟨hstate, hcur, hruns⟩ := resumed_suspended hp' (if b = 0 then none else some ((reg s r b).setWidth 48))
        ((suspended_redirected hal _ hrcb).2 hne0 (hregion.trans hsusp))
      refine ⟨_, hdone, answers_later hans hcur hslot ?_, hstate⟩
      unfold me
      rw [hcur]
      exact hruns _
  · rw [hp, if_pos Option.isNone_none, if_neg (by simpa using hst)] at hx
    exact ⟨_, hx, regStep_finish h d 2⟩
  · rw [Option.isNone_eq_false_iff.2 hp, if_neg Bool.false_ne_true, if_pos (bne_iff_ne.2 hst)] at hx
    exact ⟨_, hx, regStep_finish (issues_wakeAny h _) d 1⟩
  · rw [Option.isNone_eq_false_iff.2 hp, if_neg Bool.false_ne_true, hst, if_neg (by decide), if_pos (by rw [bne_iff_ne.2 hb0, hpc]; rfl)] at hx
    exact ⟨_, hx, regStep_finish (issues_wakeAny h _) d 3⟩

end Sys2Proof.Machine
end

section
/-! SUPPORT. The rows of a site's bring-up (R365, R366, R422). -/

-- Proofs are elaborated one after another: side by side they would need more memory than a check has.
set_option Elab.async false

namespace Sys2Proof.Machine

open Sys2Proof.Claims

/-! ### Site blocks and event records -/

theorem getSite_modSite_ne (s : State) (n m : Nat) (f : Site → Site) (h : m ≠ n) : getSite (modSite s n f) m = getSite s m :=
  congrArg (·.getD Site.reset) (amGet_amSet_ne _ _ _ _ h)

theorem sendRecords_eq (gs : List Nat) (s : State) (c : Cause) (sub : Nat) (v : Word) :
    gs.foldl (fun s g => sendRecord s g c sub v) s = { s with records := s.records ++ gs.map fun g => (g, handlerRecord s c sub v) } := by
  induction gs generalizing s with
  | nil => rw [List.foldl_nil, List.map_nil, List.append_nil]
  | cons g gs ih =>
    rw [List.foldl_cons, ih, List.map_cons]
    simp only [sendRecord, List.append_assoc, List.singleton_append]
    rfl

/-- A site block that enters STATE `st`. -/
noncomputable def enters (st : SiteState) (time : Word) (k : Site) : Site := { k with st := st, stime := time }

theorem siteGo_eq (s : State) (n : Nat) (st : SiteState) : siteGo s n st = { modSite s n (enters st s.time) with
    records := s.records ++ eventSegs.map fun g => (g, handlerRecord s .sitelost (siteCode st) (word n)) } :=
  sendRecords_eq ..

theorem getSite_siteGo (s : State) (n : Nat) (st : SiteState) : getSite (siteGo s n st) n = enters st s.time (getSite s n) := by
  rw [siteGo_eq]
  exact getSite_modSite_self ..

theorem siteMoves_siteGo {s t : State} {n : Nat} (htime : t.time = s.time) (hothers : ∀ m, m ≠ n → getSite t m = getSite s m) (st : SiteState) :
    SiteMoves s (siteGo t n st) n st := by
  refine ⟨?_, ?_, fun m hm => ?_, fun y hy => ?_⟩
  · rw [getSite_siteGo]
    rfl
  · rw [getSite_siteGo]
    exact htime
  · rw [siteGo_eq]
    exact (getSite_modSite_ne _ _ _ _ hm).trans (hothers m hm)
  · rw [siteGo_eq, ← htime]
    exact List.mem_append_right _ (List.mem_map_of_mem (List.mem_map_of_mem (List.mem_range.2 hy)))

theorem siteMoves_modSite {s t : State} {n : Nat} (htime : t.time = s.time) (hothers : ∀ m, m ≠ n → getSite t m = getSite s m)
    (f : Site → Site) (st : SiteState) : SiteMoves s (siteGo (modSite t n f) n st) n st :=
  siteMoves_siteGo (t := modSite t n f) htime (fun m hm => (getSite_modSite_ne t n m f hm).trans (hothers m hm)) st

theorem onlySites_siteGo (s : State) (n : Nat) (f : Site → Site) (st : SiteState) : OnlySites s (siteGo (modSite s n f) n st) := by
  unfold OnlySites
  rw [siteGo_eq]
  generalize State.records _ ++ _ = rs
  rfl

theorem getSite_siteGo_modSite (s : State) (n : Nat) (f : Site → Site) (st : SiteState) :
    getSite (siteGo (modSite s n f) n st) n = enters st s.time (f (getSite s n)) := by
  rw [getSite_siteGo, getSite_modSite_self]
  rfl

/-! ### Tiles of a site -/

theorem amGet_map {α : Type} (m : AMap α) (f : Nat → α → α) (k : Nat) :
    amGet (m.map fun p => (p.1, f p.1 p.2)) k = (amGet m k).map (f k) := by
  induction m with
  | nil => rfl
  | cons p m ih =>
    obtain ⟨j, v⟩ := p
    rw [List.map_cons, amGet, amGet]
    split
    · next hj => rw [hj]; rfl
    · exact ih

/-- A change of every tile, and of those that stand at reset by it too. -/
theorem getTile_map {s t : State} (f : Nat → Tile → Tile) (h : t.tiles = s.tiles.map fun e => (e.1, f e.1 e.2)) (u : Nat)
    (hreset : f u Tile.reset = Tile.reset) : getTile t u = f u (getTile s u) := by
  rw [getTile, h, amGet_map, getTile]
  cases amGet s.tiles u with
  | none => exact hreset.symm
  | some k => rfl

theorem getTile_recallHole (s : State) (n u : Nat) :
    getTile (recallHole s n) u = { getTile s u with holeAhead := (getTile s u).holeAhead &&& ~~~(1#12 <<< n) } := by
  refine getTile_map (s := s) (fun _ k => { k with holeAhead := k.holeAhead &&& ~~~(1#12 <<< n) }) rfl u ?_
  exact congrArg (fun x => { Tile.reset with holeAhead := x }) (BitVec.zero_and ..)

/-- A tile of the site without the defects of a module. -/
noncomputable def cleared (n u : Nat) (k : Tile) : Tile :=
  if decide (u < allTiles) && siteOf u == n then { k with dark := false, routerDead := false, deadLinks := [] } else k

theorem dark_clearDefects (s : State) {n u : Nat} (hu : u < 12544) (hn : siteOf u = n) : (getTile (clearDefects s n) u).dark = false := by
  have hsite : (decide (u < allTiles) && siteOf u == n) = true := by
    rw [decide_eq_true (show u < allTiles from hu), hn, beq_self_eq_true]
    rfl
  have hclear (k : Tile) : cleared n u k = { k with dark := false, routerDead := false, deadLinks := [] } := if_pos hsite
  rw [getTile_map (s := s) (cleared n) rfl u (by rw [hclear]; rfl), hclear]

theorem getTile_modTile (s : State) (t u : Nat) (f : Tile → Tile) : getTile (modTile s t f) u = if u = t then f (getTile s u) else getTile s u := by
  split
  · next h => rw [h, getTile_modTile_self]
  · next h => exact congrArg (·.getD Tile.reset) (amGet_amSet_ne _ _ _ _ h)

/-- The defects that a map marks are dark beside those that were. -/
theorem dark_marked (ds : List Defect) (s : State) (u : Nat) :
    (getTile (ds.foldl (fun s d => modTile s d.tile fun k => { k with dark := true, routerDead := d.routerDead }) s) u).dark = true ↔
      (∃ d ∈ ds, d.tile = u) ∨ (getTile s u).dark = true := by
  induction ds generalizing s with
  | nil => simp
  | cons d ds ih =>
    rw [List.foldl_cons, ih, getTile_modTile]
    split
    · next h => exact iff_of_true (.inr rfl) (.inl ⟨d, List.mem_cons_self, h.symm⟩)
    · next h => simp [Ne.symm h]

theorem marked_frame (ds : List Defect) (s : State) :
    ds.foldl (fun s d => modTile s d.tile fun k => { k with dark := true, routerDead := d.routerDead }) s =
      { s with tiles := (ds.foldl (fun s d => modTile s d.tile fun k => { k with dark := true, routerDead := d.routerDead }) s).tiles } := by
  induction ds generalizing s with
  | nil => rfl
  | cons d ds ih => exact (ih _).trans rfl

theorem readDefects_frame (s : State) (n : Nat) (ds : List Defect) : readDefects s n ds = { s with tiles := (readDefects s n ds).tiles } :=
  (marked_frame _ _).trans rfl

theorem dark_readDefects (s : State) {n u : Nat} (ds : List Defect) (hu : u < 12544) (hn : siteOf u = n) :
    (getTile (readDefects s n ds) u).dark = true ↔ ∃ d ∈ ds, d.tile = u := by
  unfold readDefects
  rw [dark_marked, dark_clearDefects s hu hn]
  refine ⟨fun h => ?_, fun ⟨d, hd, hdu⟩ => .inl ⟨d, List.mem_filter.2 ⟨hd, ?_⟩, hdu⟩⟩
  · obtain ⟨d, hd, hdu⟩ := h.resolve_right Bool.false_ne_true
    exact ⟨d, List.mem_of_mem_filter hd, hdu⟩
  · rw [hdu, decide_eq_true (show u < allTiles from hu), hn, beq_self_eq_true]
    rfl

/-! ### Admission -/

/-- The other sites' blocks, this site's count of admissions and the time are as before. -/
structure SiteStands (n : Nat) (s t : State) : Prop where
  others : ∀ m, m ≠ n → getSite t m = getSite s m
  agen : (getSite t n).agen = (getSite s n).agen
  time : t.time = s.time

theorem SiteStands.trans {n : Nat} {s t u : State} (h : SiteStands n s t) (k : SiteStands n t u) : SiteStands n s u :=
  ⟨fun m hm => (k.others m hm).trans (h.others m hm), k.agen.trans h.agen, k.time.trans h.time⟩

theorem siteStands_of {s t : State} (n : Nat) (hsites : t.sites = s.sites) (htime : t.time = s.time) : SiteStands n s t := by
  have hsite (m : Nat) : getSite t m = getSite s m := by rw [getSite, hsites, getSite]
  exact ⟨fun m _ => hsite m, congrArg Site.agen (hsite n), htime⟩

theorem siteStands_foldl {α : Type} {n : Nat} {f : State → α → State} (l : List α) (s : State) (h : ∀ s x, SiteStands n s (f s x)) :
    SiteStands n s (l.foldl f s) :=
  List.foldlRecOn l f (siteStands_of n rfl rfl) fun _ ht x _ => ht.trans (h _ x)

theorem siteStands_modSite (s : State) (n : Nat) (f : Site → Site) (h : ∀ k, (f k).agen = k.agen) : SiteStands n s (modSite s n f) :=
  ⟨fun _ hm => getSite_modSite_ne _ _ _ _ hm, by rw [getSite_modSite_self, h], rfl⟩

/-- A site whose clocks run from `c` on. -/
noncomputable def clockedFrom (c : Word) (k : Site) : Site := { k with clock0 := c }

/-- A site that has been admitted once more. -/
noncomputable def admittedAgain (k : Site) : Site := { k with agen := k.agen + 1 }

theorem siteStands_healSite (s : State) (n : Nat) : SiteStands n s (healSite s n) := by
  have hranges : SiteStands n s (healRanges s n) := by
    unfold healRanges
    split <;> exact siteStands_of n rfl rfl
  unfold healSite
  generalize healRanges s n = u at *
  have hclock := (hranges.trans (siteStands_of (t := recallHole { u with holeSites := u.holeSites &&& ~~~(1#12 <<< n) } n) n rfl rfl)).trans
    (siteStands_modSite _ n (clockedFrom u.clocks) fun _ => rfl)
  split
  · refine hclock.trans (.trans ?_ (siteStands_foldl _ _ fun s g => ?_))
    · exact siteStands_of n rfl rfl
    · exact siteStands_of n rfl rfl
  · exact hclock

theorem siteStands_installBitmaps (s : State) (n : Nat) : SiteStands n s (installBitmaps s n) := by
  unfold installBitmaps
  split
  · exact siteStands_foldl _ _ fun s e => siteStands_foldl _ _ fun s t => siteStands_of n rfl rfl
  · exact siteStands_foldl _ _ fun s t => siteStands_of n rfl rfl

theorem siteStands_installRoutes (s : State) (n : Nat) : SiteStands n s (installRoutes s n) := by
  have htables : SiteStands n s (installTables s fun t => decide (t < allTiles) && siteOf t == n) := by
    unfold installTables
    refine .trans ?_ (siteStands_foldl _ _ fun s x => ?_)
    · exact siteStands_of n rfl rfl
    · exact siteStands_of n rfl rfl
  exact htables.trans (siteStands_of n rfl rfl)

theorem siteMoves_admitSite {s t : State} {n : Nat} (h : SiteStands n s t) :
    SiteMoves s (admitSite t n) n .admitted ∧ (getSite (admitSite t n) n).agen = (getSite s n).agen + 1 := by
  have hin := h.trans ((siteStands_healSite t n).trans ((siteStands_installRoutes _ n).trans (siteStands_installBitmaps _ n)))
  have hadmit : admitSite t n = siteGo (modSite (installBitmaps (installRoutes (healSite t n) n) n) n admittedAgain) n .admitted := rfl
  rw [hadmit]
  generalize installBitmaps _ n = u at *
  refine ⟨siteMoves_modSite hin.time hin.others _ _, ?_⟩
  rw [getSite_siteGo_modSite]
  exact congrArg (· + 1) hin.agen

/-! ### The sense pin opens -/

theorem moduleDropped_frame (gs : List Nat) (s : State) (f : Seg → Seg) :
    gs.foldl (fun s g => modSeg s g f) s = { s with segs := (gs.foldl (fun s g => modSeg s g f) s).segs } := by
  induction gs generalizing s with
  | nil => rfl
  | cons g gs ih => exact (ih _).trans rfl

/-- A segment in the list has taken the change, where the change can be made again. -/
theorem getSeg_dropped (gs : List Nat) (s : State) {f : Seg → Seg} {p : Seg → Prop} (hf : ∀ k, p (f k)) {g : Nat}
    (h : g ∈ gs ∨ p (getSeg s g)) : p (getSeg (gs.foldl (fun s g => modSeg s g f) s) g) := by
  induction gs generalizing s with
  | nil => exact h.resolve_left List.not_mem_nil
  | cons j gs ih =>
    refine ih _ ?_
    by_cases hj : g = j
    · exact .inr (by rw [hj, getSeg_modSeg_self]; exact hf _)
    · refine h.imp (fun h => (List.mem_cons.1 h).resolve_left hj) fun h => ?_
      have hne : getSeg (modSeg s j f) g = getSeg s g := congrArg (·.getD Seg.reset) (amGet_amSet_ne _ _ _ _ hj)
      exact hne ▸ h

/-- What a module takes with it. -/
noncomputable def withoutModule (k : Seg) : Seg := { k with failed := 0, contactBad := [] }

theorem dropModule_eq (s : State) (n : Nat) :
    dropModule s n = if n < 4 then (moduleSegs n).foldl (fun s g => modSeg s g withoutModule) (clearDefects s n) else clearDefects s n := rfl

theorem dropModule_frame (s : State) (n : Nat) : dropModule s n = { s with tiles := (clearDefects s n).tiles, segs := (dropModule s n).segs } := by
  rw [dropModule_eq]
  split
  · exact (moduleDropped_frame _ _ _).trans rfl
  · rfl

theorem mem_moduleSegs {n g : Nat} (hg : g < 192) (hn : segModule g = n) : g ∈ moduleSegs n :=
  List.mem_filter.2 ⟨List.mem_range.2 hg, beq_iff_eq.2 hn⟩

/-- A site block without its module. -/
noncomputable def vacated (k : Site) : Site :=
  { k with pinClosed := false, powerOn := false, serial := 0, clampClosed := false, clampLocked := false, defects := [] }

theorem emptySite_eq (s : State) (n : Nat) : emptySite s n = siteGo (dropModule (modSite (recallHole s n) n vacated) n) n .empty := rfl

/-! ### The rows of the table -/

/-- A site block whose contacts have passed their test. -/
noncomputable def clamped (k : Site) : Site := { k with clampClosed := true, clampLocked := true, pinClosed := true }

/-- A site block whose contacts have failed it. -/
noncomputable def contactsBad (k : Site) : Site := { k with clampClosed := true, pinClosed := true, clampLocked := false, fail := 2 }

noncomputable def poweredOn (k : Site) : Site := { k with powerOn := true }

noncomputable def attestedAs (serial : Word) (ds : List Defect) (k : Site) : Site := { k with serial := serial, defects := ds }

/-- A site block whose bring-up step has failed. -/
noncomputable def stepFailed (code : Nat) (k : Site) : Site := { k with powerOn := false, fail := code }

section Rows
variable {s : State} {n : Nat} (hn : n < 12)
include hn

theorem isSite_of_lt : isSite n = true := decide_eq_true hn

theorem exec_siteSeated (h : (getSite s n).st = .empty) :
    exec (.siteSeated n true) s = .next (siteGo (modSite s n clamped) n .seated) ∧
      exec (.siteSeated n false) s = .next (modSite s n contactsBad) := by
  have hseat (ok : Bool) : seatSite s n ok = if ok then siteGo (modSite s n clamped) n .seated else modSite s n contactsBad := by
    unfold seatSite
    rw [isSite_of_lt hn, h]
    rfl
  exact ⟨congrArg Host.Outcome.next ((hseat true).trans (if_pos rfl)),
    congrArg Host.Outcome.next ((hseat false).trans (if_neg Bool.false_ne_true))⟩

theorem exec_sitePowered (h : (getSite s n).st = .seated) : exec (.sitePowered n) s =
    .next (if 3 ≤ s.pmc.stage then siteGo (modSite s n poweredOn) n .powered else s) := by
  refine (?_ : execSitePowered n s = _)
  unfold execSitePowered
  rw [isSite_of_lt hn, h, apply_ite Host.Outcome.next]
  exact if_congr decide_eq_true_iff rfl rfl

theorem exec_siteAttested (h : (getSite s n).st = .powered) (serial : Word) (ds : List Defect) : exec (.siteAttested n serial ds) s =
    .next (siteGo (modSite (readDefects s n ds) n (attestedAs serial ds)) n .attested) := by
  refine (?_ : execSiteAttested n serial ds s = _)
  unfold execSiteAttested
  rw [isSite_of_lt hn, h]
  rfl

theorem exec_siteLinked (h : (getSite s n).st = .attested) : exec (.siteLinked n) s =
    .next (if s.pmc.stage == 3 then admitSite (siteGo (computeTables s (siteTiles n)) n .linked) n
      else siteGo (computeTables s (siteTiles n)) n .linked) := by
  refine (?_ : execSiteLinked n s = _)
  have hstage : (siteGo (computeTables s (siteTiles n)) n .linked).pmc.stage = s.pmc.stage := by
    rw [siteGo_eq]
    rfl
  unfold execSiteLinked
  rw [isSite_of_lt hn, h, ← hstage]
  rfl

theorem exec_siteStepFail (h : inBringUp (getSite s n).st = true) : exec (.siteStepFail n) s =
    .next (if (getSite s n).st == .seated then modSite (recallHole s n) n (stepFailed (stepFail (getSite s n).st))
      else siteGo (modSite (recallHole s n) n (stepFailed (stepFail (getSite s n).st))) n .seated) := by
  refine (?_ : execSiteStepFail n s = _)
  have hcond : (isSite n && inBringUp (getSite s n).st) = true := by
    rw [isSite_of_lt hn, h]
    rfl
  exact if_pos hcond

theorem exec_sensePinOpen (h : inBringUp (getSite s n).st = true ∨ (getSite s n).st = .lost ∨ (getSite s n).st = .released) :
    exec (.sensePinOpen n) s = .next (emptySite s n) := by
  refine (?_ : execSensePinOpen n s = _)
  have hcond : (isSite n && (inBringUp (getSite s n).st || (getSite s n).st == .lost || (getSite s n).st == .released)) = true := by
    rw [isSite_of_lt hn, Bool.true_and]
    rcases h with h | h | h
    · rw [h]
      rfl
    · rw [h]
      rfl
    · rw [h]
      rfl
  exact if_pos hcond

end Rows

/-- FAIL of a step, as the table gives it. -/
theorem stepFail_eq (st : SiteState) : stepFail st = if st = .seated then 4 else if st = .powered then 5 else 6 := by
  cases st <;> rfl

/-- Settles O53. -/
theorem sitesComeUp : Obligations.SitesComeUp := by
  intro s n hn
  have hmoves (f : Site → Site) (st : SiteState) : SiteMoves s (siteGo (modSite s n f) n st) n st :=
    siteMoves_modSite (t := s) rfl (fun _ _ => rfl) f st
  have hblock (f : Site → Site) (st : SiteState) := getSite_siteGo_modSite s n f st
  refine ⟨fun h => ?_, fun h => ?_, fun h serial ds => ?_, fun h => ?_, fun h => ?_, fun h => ?_⟩
  · obtain ⟨hok, hbad⟩ := exec_siteSeated hn h
    refine ⟨⟨_, hok, hmoves clamped _, onlySites_siteGo .., ?_⟩, ⟨_, hbad, rfl, ?_⟩⟩
    · rw [hblock]
      rfl
    · rw [getSite_modSite_self]
      exact ⟨h, rfl, rfl⟩
  · have hx := exec_sitePowered hn h
    refine ⟨fun hs => ⟨_, hx.trans (congrArg _ (if_pos hs)), hmoves poweredOn _, onlySites_siteGo .., ?_⟩,
      fun hs => hx.trans (congrArg _ (if_neg (Nat.not_le.2 hs)))⟩
    rw [hblock]
    rfl
  · have hframe := readDefects_frame s n ds
    have htiles (u : Nat) : getTile (siteGo (modSite (readDefects s n ds) n (attestedAs serial ds)) n .attested) u =
        getTile (readDefects s n ds) u := by
      rw [siteGo_eq]
      rfl
    refine ⟨_, exec_siteAttested hn h serial ds, siteMoves_modSite ?_ (fun m _ => ?_) _ _, ?_, ?_,
      fun d hd ht hsite => ?_, fun u hu hsite hno => ?_⟩
    · rw [hframe]
    · rw [hframe]
      rfl
    · rw [getSite_siteGo_modSite]
      rfl
    · rw [siteGo_eq, hframe]
      rfl
    · rw [htiles]
      exact (dark_readDefects s ds ht hsite).2 ⟨d, hd, rfl⟩
    · rw [htiles]
      exact Bool.eq_false_iff.2 fun hdark => by
        obtain ⟨d, hd, hdu⟩ := (dark_readDefects s ds hu hsite).1 hdark
        exact hno d hd hdu
  · have hx := exec_siteLinked hn h
    have hlinked : SiteMoves s (siteGo (computeTables s (siteTiles n)) n .linked) n .linked :=
      siteMoves_siteGo (s := s) (t := computeTables s (siteTiles n)) rfl (fun _ _ => rfl) _
    have hstands : SiteStands n s (siteGo (computeTables s (siteTiles n)) n .linked) := by
      refine ⟨hlinked.others, ?_, ?_⟩
      · rw [getSite_siteGo]
        rfl
      · rw [siteGo_eq]
        rfl
    refine ⟨fun hs => ?_, fun hs => ?_⟩
    · rw [if_neg (by simpa using hs)] at hx
      refine ⟨_, hx, hlinked, ?_⟩
      rw [siteGo_eq]
      rfl
    · rw [if_pos (by simpa using hs)] at hx
      exact ⟨_, hx, siteMoves_admitSite hstands⟩
  · have hx := exec_siteStepFail hn h
    have hfail := stepFail_eq (getSite s n).st
    generalize stepFail (getSite s n).st = code at *
    by_cases hseat : (getSite s n).st = .seated
    · rw [if_pos (beq_iff_eq.2 hseat)] at hx
      refine ⟨_, hx, ⟨rfl, getTile_recallHole s n⟩, ?_, ?_, fun hne => absurd hseat hne, fun _ => ?_⟩
      · rw [getSite_modSite_self]
        rfl
      · rw [getSite_modSite_self, ← hfail]
        rfl
      · rw [getSite_modSite_self]
        exact ⟨hseat, rfl, rfl⟩
    · rw [if_neg (by simpa using hseat)] at hx
      refine ⟨_, hx, ⟨?_, fun u => ?_⟩, ?_, ?_, fun _ => siteMoves_modSite (s := s) (t := recallHole s n) rfl (fun _ _ => rfl) _ _,
        fun h => absurd h hseat⟩
      · rw [siteGo_eq]
        rfl
      · rw [siteGo_eq]
        exact getTile_recallHole s n u
      · rw [getSite_siteGo_modSite]
        rfl
      · rw [getSite_siteGo_modSite, ← hfail]
        rfl
  · have hx := exec_sensePinOpen hn h
    rw [emptySite_eq] at hx
    have hframe := dropModule_frame (modSite (recallHole s n) n vacated) n
    have hsite : getSite (siteGo (dropModule (modSite (recallHole s n) n vacated) n) n .empty) n =
        enters .empty s.time (vacated (getSite s n)) := by
      rw [getSite_siteGo, hframe]
      exact congrArg (enters .empty s.time) (getSite_modSite_self (recallHole s n) n vacated)
    refine ⟨_, hx, siteMoves_siteGo ?_ (fun m hm => ?_) _, ?_, by rw [hsite]; rfl, by rw [hsite]; rfl,
      fun u hu hsite => ?_, fun g h4 hg hmod => ?_⟩
    · rw [hframe]
      rfl
    · rw [hframe]
      exact getSite_modSite_ne (recallHole s n) n m vacated hm
    · rw [siteGo_eq, hframe]
      rfl
    · rw [siteGo_eq, hframe]
      exact dark_clearDefects (modSite (recallHole s n) n vacated) hu hsite
    · rw [siteGo_eq]
      refine (?_ : (getSeg (dropModule (modSite (recallHole s n) n vacated) n) g).failed = 0)
      rw [dropModule_eq, if_pos h4]
      exact getSeg_dropped (p := fun k => k.failed = 0) _ _ (fun _ => rfl) (.inl (mem_moduleSegs hg hmod))

end Sys2Proof.Machine
end

section
/-! SUPPORT. Rounding that is exact, and the floating-point operations on NaNs (R58 to R60, R108 to R116). -/

-- Proofs are elaborated one after another: side by side they would need more memory than a check has.
set_option Elab.async false

namespace Sys2Proof.Machine

open Sys2Proof.Claims

/-! ### Patterns and what they decode to (R58) -/

section Patterns
variable {f : Fmt} (heb : 1 ≤ f.eb) (s : Bool)
include heb

theorem pattern_fields {e m : Nat} (he : e < 2 ^ f.eb) (hm : m < 2 ^ f.fb) :
    ((fSign f s + (e * 2 ^ f.fb + m)) / 2 ^ (f.eb + f.fb) % 2 == 1) = s ∧ (fSign f s + (e * 2 ^ f.fb + m)) / 2 ^ f.fb % 2 ^ f.eb = e ∧
      (fSign f s + (e * 2 ^ f.fb + m)) % 2 ^ f.fb = m := by
  have hfits : Fits [(f.fb, m), (f.eb, e), (1, b2n s)] := ⟨hm, he, by cases s <;> decide, trivial⟩
  have hsum : fSign f s + (e * 2 ^ f.fb + m) = packed [(f.fb, m), (f.eb, e), (1, b2n s)] := by
    have hsign : fSign f s = 2 ^ f.fb * (2 ^ f.eb * b2n s) := by
      rw [← Nat.mul_assoc, ← Nat.pow_add, Nat.add_comm]
      cases s
      · exact (Nat.mul_zero _).symm
      · exact (Nat.mul_one _).symm
    simp only [packed, hsign]
    ring
  have hs : packed [(f.fb, m), (f.eb, e), (1, b2n s)] / 2 ^ (f.fb + (f.eb + 0)) % 2 = b2n s := packed_field 2 hfits rfl
  rw [hsum, Nat.add_comm f.eb f.fb]
  refine ⟨?_, packed_field 1 hfits rfl, packed_low hfits⟩
  rw [show f.fb + f.eb = f.fb + (f.eb + 0) from rfl, hs]
  cases s <;> rfl

theorem fDecode_subnormal {q : Nat} (hq : q < 2 ^ f.fb) : fDecode f (fSign f s + q) = .fin s q (fUlp f) := by
  obtain ⟨hs, he, hm⟩ := pattern_fields heb s (Nat.two_pow_pos f.eb) hq
  rw [Nat.zero_mul, Nat.zero_add] at hs he hm
  have htop : 0 ≠ 2 ^ f.eb - 1 := (Nat.sub_pos_of_lt (Nat.one_lt_two_pow (Nat.one_le_iff_ne_zero.1 heb))).ne
  unfold fDecode
  rw [hs, he, hm]
  simp only [beq_iff_eq, if_neg htop, if_true]

theorem fDecode_normal {x q : Nat} (hx : 1 ≤ x) (hx' : x < 2 ^ f.eb - 1) (hq : 2 ^ f.fb ≤ q) (hq' : q < 2 ^ (f.fb + 1)) :
    fDecode f (fSign f s + (x * 2 ^ f.fb + (q - 2 ^ f.fb))) = .fin s q (fUlp f + (x : Int) - 1) := by
  have hlow : q - 2 ^ f.fb < 2 ^ f.fb := Nat.sub_lt_left_of_lt_add hq (by rwa [← Nat.two_mul, ← Nat.pow_succ'])
  obtain ⟨hs, he, hm⟩ := pattern_fields heb s (Nat.lt_of_lt_of_le hx' (Nat.sub_le ..)) hlow
  unfold fDecode
  rw [hs, he, hm]
  simp only [beq_iff_eq, if_neg hx'.ne, if_neg (Nat.one_le_iff_ne_zero.1 hx), Nat.sub_add_cancel hq]

end Patterns

/-! ### Equal dyadic magnitudes -/

/-- `q` · 2^u = `m` · 2^e. -/
def SameValue (q : Nat) (u : Int) (m : Nat) (e : Int) : Prop := q * 2 ^ (u - e).toNat = m * 2 ^ (e - u).toNat

theorem sameValue_shift {q m : Nat} (j : Int) (c a : Nat) : SameValue q (j + c) m (j + a) ↔ q * 2 ^ c = m * 2 ^ a := by
  unfold SameValue
  rw [add_sub_add_left_eq_sub, add_sub_add_left_eq_sub, Int.toNat_sub, Int.toNat_sub]
  rcases Nat.le_total a c with h | h
  · rw [Nat.sub_eq_zero_of_le h, ← Nat.pow_sub_mul_pow 2 h, ← Nat.mul_assoc, Nat.mul_left_inj (Nat.two_pow_pos a).ne', Nat.pow_zero, Nat.mul_one]
  · rw [Nat.sub_eq_zero_of_le h, ← Nat.pow_sub_mul_pow 2 h, ← Nat.mul_assoc, Nat.mul_left_inj (Nat.two_pow_pos c).ne', Nat.pow_zero, Nat.mul_one]

theorem SameValue.scaled {q m : Nat} {u e j : Int} (h : SameValue q u m e) (hu : j ≤ u) (he : j ≤ e) :
    q * 2 ^ (u - j).toNat = m * 2 ^ (e - j).toNat := by
  obtain ⟨c, rfl⟩ := Int.le.dest hu
  obtain ⟨a, rfl⟩ := Int.le.dest he
  rw [add_sub_cancel_left, add_sub_cancel_left]
  exact (sameValue_shift j c a).1 h

/-! ### Exact rounding (R60, R108) -/

theorem roundShift_exact {rm : Rm} {s : Bool} {m q : Nat} {e u : Int} (h : roundShift rm s m (e - u) = (q, false)) : SameValue q u m e := by
  unfold roundShift at h
  split at h
  · next hle =>
    obtain ⟨n, rfl⟩ := Int.le.dest (Int.sub_nonneg.1 hle)
    rw [add_sub_cancel_left] at h
    have hv := (sameValue_shift u 0 n).2 ((Nat.mul_one q).trans (Prod.mk.inj h).1.symm)
    rwa [Nat.cast_zero, Int.add_zero] at hv
  · next hle =>
    obtain ⟨n, rfl⟩ := Int.le.dest (Int.not_le.1 (mt Int.sub_nonneg.2 hle)).le
    dsimp only at h
    rw [show -(e - (e + n)) = (n : Int) by ring, Int.toNat_natCast] at h
    split at h
    · next hr =>
      have hq := (Nat.div_mul_cancel (Nat.dvd_of_mod_eq_zero (eq_of_beq hr))).symm
      rw [(Prod.mk.inj h).1] at hq
      have hv := (sameValue_shift e n 0).2 (hq.symm.trans (Nat.mul_one m).symm)
      rwa [Nat.cast_zero, Int.add_zero] at hv
    · exact absurd (Prod.mk.inj h).2 (by decide)

theorem bitLen_bounds {m : Nat} (h : m ≠ 0) : ∃ b, bitLen m = b + 1 ∧ 2 ^ b ≤ m ∧ m < 2 ^ (b + 1) :=
  ⟨Nat.log2 m, if_neg h, Nat.log2_self_le h, Nat.lt_log2_self⟩

/-- A number of `b + 1` bits in units of the place `p` below its length has `p + 1` bits. -/
theorem SameValue.bits {q m b : Nat} {u e : Int} (h : SameValue q u m e) (hlo : 2 ^ b ≤ m) (hhi : m < 2 ^ (b + 1)) (p : Nat) :
    (u + p ≤ e + b → 2 ^ p ≤ q) ∧ (e + b ≤ u + p → q < 2 ^ (p + 1)) := by
  obtain ⟨c, hc⟩ := Int.le.dest (min_le_left u e)
  obtain ⟨a, ha⟩ := Int.le.dest (min_le_right u e)
  generalize min u e = j at hc ha
  subst hc ha
  rw [sameValue_shift] at h
  constructor
  · intro hu
    have hu : p + c ≤ b + a := by lia
    have hle : 2 ^ (p + c) ≤ q * 2 ^ c :=
      calc 2 ^ (p + c) ≤ 2 ^ b * 2 ^ a := Nat.pow_add .. ▸ Nat.pow_le_pow_right (by decide) hu
        _ ≤ q * 2 ^ c := h ▸ Nat.mul_le_mul_right _ hlo
    rw [Nat.pow_add] at hle
    exact Nat.le_of_mul_le_mul_right hle (Nat.two_pow_pos _)
  · intro hu
    have hu : b + 1 + a ≤ p + 1 + c := by lia
    have hlt : q * 2 ^ c < 2 ^ (p + 1 + c) :=
      calc q * 2 ^ c < 2 ^ (b + 1) * 2 ^ a := h ▸ Nat.mul_lt_mul_of_pos_right hhi (Nat.two_pow_pos _)
        _ ≤ 2 ^ (p + 1 + c) := Nat.pow_add .. ▸ Nat.pow_le_pow_right (by decide) hu
    rw [Nat.pow_add] at hlt
    exact Nat.lt_of_mul_lt_mul_right hlt

/-- What rounding makes of a magnitude `x.1` in units of 2^`x.2`, with the flags of an inexact result. -/
noncomputable def rounded (f : Fmt) (rm : Rm) (s : Bool) (x : Nat × Int) (fl : Nat) : Nat × Nat :=
  if decide (2 ^ f.fb ≤ x.1) && decide (2 ^ f.eb - 1 ≤ (x.2 - fUlp f + 1).toNat) then (fOverflow f rm s, flagOF + flagNX)
  else (fSign f s + (if x.1 < 2 ^ f.fb then x.1 else (x.2 - fUlp f + 1).toNat * 2 ^ f.fb + (x.1 - 2 ^ f.fb)), fl)

/-- Rounding of a number that is not zero: to the place of its leading bits, or of the subnormals. -/
theorem fRound_eq (f : Fmt) (rm : Rm) (s : Bool) {m : Nat} (hm : m ≠ 0) (e : Int) : ∃ tiny q u ix,
    u = max (e + (bitLen m : Int) - ((f.fb + 1 : Nat) : Int)) (fUlp f) ∧ roundShift rm s m (e - u) = (q, ix) ∧
      fRound f rm s m e = rounded f rm s (if q == 2 ^ (f.fb + 1) then (q / 2, u + 1) else (q, u))
        ((if ix = true then flagNX else 0) + if (ix && tiny) = true then flagUF else 0) := by
  generalize hu : max (e + (bitLen m : Int) - ((f.fb + 1 : Nat) : Int)) (fUlp f) = u
  refine ⟨decide ((bitLen (roundShift rm s m (e - (e + bitLen m - (f.fb + 1 : Nat)))).1 : Int) + (e + bitLen m - (f.fb + 1 : Nat)) <
    ((f.fb + 1 : Nat) : Int) + fUlp f), (roundShift rm s m (e - u)).1, u, (roundShift rm s m (e - u)).2, rfl, rfl, ?_⟩
  unfold fRound
  rw [if_neg (fun h0 => hm (eq_of_beq h0))]
  subst hu
  exact rfl

theorem rounded_inexact (f : Fmt) (rm : Rm) (s : Bool) (x : Nat × Int) (tiny : Bool) :
    (rounded f rm s x (flagNX + if tiny = true then flagUF else 0)).2 % 2 = 1 := by
  unfold rounded
  split
  · exact (show (flagOF + flagNX) % 2 = 1 by decide)
  · cases tiny
    · exact (show flagNX % 2 = 1 by decide)
    · exact (show (flagNX + flagUF) % 2 = 1 by decide)

theorem fDecode_rounded {f : Fmt} (heb : 1 ≤ f.eb) {rm : Rm} {s : Bool} {q n fl : Nat} (hfl : (rounded f rm s (q, fUlp f + n) fl).2 % 2 = 0)
    (hq : q < 2 ^ (f.fb + 1)) (hn : q < 2 ^ f.fb → n = 0) : fDecode f (rounded f rm s (q, fUlp f + n) fl).1 = .fin s q (fUlp f + n) := by
  have hexp : (fUlp f + n - fUlp f + 1).toNat = n + 1 := by rw [add_sub_cancel_left]; rfl
  unfold rounded at hfl ⊢
  rw [hexp] at hfl ⊢
  split at hfl
  · exact absurd hfl (show ¬ 5 % 2 = 0 by decide)
  · next hov =>
    rw [if_neg hov]
    split
    · next hlt =>
      rw [hn hlt, Nat.cast_zero, add_zero]
      exact fDecode_subnormal heb s hlt
    · next hge =>
      have hx : n + 1 < 2 ^ f.eb - 1 := by
        rw [decide_eq_true (Nat.not_lt.1 hge), Bool.true_and, decide_eq_true_eq] at hov
        exact Nat.not_le.1 hov
      refine (fDecode_normal heb s (Nat.succ_pos n) hx (Nat.not_lt.1 hge) hq).trans (congrArg (FV.fin s q) ?_)
      rw [Nat.cast_succ, ← add_assoc, add_sub_cancel_right]

/-- Rounding without NX keeps the value. -/
theorem fRound_exact {f : Fmt} (heb : 1 ≤ f.eb) {rm : Rm} {s : Bool} {m : Nat} {e : Int} (h : (fRound f rm s m e).2 % 2 = 0) :
    ∃ q u, fDecode f (fRound f rm s m e).1 = .fin s q u ∧ SameValue q u m e := by
  by_cases hm : m = 0
  · subst hm
    exact ⟨0, fUlp f, fDecode_subnormal heb s (Nat.two_pow_pos _), by unfold SameValue; rw [Nat.zero_mul, Nat.zero_mul]⟩
  · obtain ⟨b, hb, hlo, hhi⟩ := bitLen_bounds hm
    obtain ⟨tiny, q, u, ix, hu, hsh, heq⟩ := fRound_eq f rm s hm e
    have hun : e + (bitLen m : Int) - ((f.fb + 1 : Nat) : Int) = e + b - f.fb := by rw [hb, Nat.cast_succ, Nat.cast_succ]; ring
    rw [heq] at h ⊢
    rw [hun] at hu
    cases ix with
    | true => exact absurd ((rounded_inexact f rm s _ tiny).symm.trans h) (by decide)
    | false =>
      have hv := roundShift_exact hsh
      obtain ⟨n, hn⟩ := Int.le.dest (hu ▸ le_max_right _ _ : fUlp f ≤ u)
      have hlt : q < 2 ^ (f.fb + 1) := (hv.bits hlo hhi f.fb).2 (sub_le_iff_le_add.1 (hu ▸ le_max_left _ _))
      rw [if_neg (fun h0 => hlt.ne (eq_of_beq h0)), ← hn] at h ⊢
      refine ⟨q, fUlp f + n, fDecode_rounded heb h hlt fun hq => ?_, hn ▸ hv⟩
      rcases max_choice (e + b - (f.fb : Int)) (fUlp f) with hc | hc
      · exact absurd ((hv.bits hlo hhi f.fb).1 (by rw [hu, hc, sub_add_cancel])) (Nat.not_le.2 hq)
      · rw [hu, hc] at hn
        exact Nat.cast_eq_zero.1 (add_eq_left.1 hn)

/-! ### Sums and products without NX are exact (R113) -/

noncomputable def signOf (s : Bool) : Int := if s then -1 else 1

theorem inUnits_eq {k m : Int} {v : FV} (h : inUnits k v = some m) :
    ∃ s a e, v = .fin s a e ∧ k ≤ e ∧ m = signOf s * ((a * 2 ^ (e - k).toNat : Nat) : Int) := by
  cases v with
  | fin s a e =>
    rw [inUnits] at h
    split at h
    · next hk => exact ⟨s, a, e, rfl, hk, (Option.some.inj h).symm⟩
    · cases h
  | _ => cases h

theorem two_pow_split {j k e : Int} (hj : j ≤ k) (hk : k ≤ e) : 2 ^ (e - j).toNat = 2 ^ (e - k).toNat * 2 ^ (k - j).toNat := by
  obtain ⟨a, rfl⟩ := Int.le.dest hj
  obtain ⟨b, rfl⟩ := Int.le.dest hk
  rw [add_sub_cancel_left, add_sub_cancel_left, add_assoc, add_sub_cancel_left, ← Nat.pow_add, Nat.add_comm]
  rfl

section Values
variable {f : Fmt} (heb : 1 ≤ f.eb) {rm : Rm} {j q : Int}
include heb

theorem fRound_value {s : Bool} {m : Nat} {e : Int} (h : (fRound f rm s m e).2 % 2 = 0) (hj : j ≤ e)
    (hq : inUnits j (fDecode f (fRound f rm s m e).1) = some q) : q = signOf s * ((m * 2 ^ (e - j).toNat : Nat) : Int) := by
  obtain ⟨a, u, hd, hv⟩ := fRound_exact heb h
  rw [hd] at hq
  obtain ⟨_, _, _, hfin, hu, rfl⟩ := inUnits_eq hq
  cases hfin
  rw [hv.scaled hu hj]

theorem fRoundInt_value {z e : Int} {zs : Bool} (h : (fRoundInt f rm z e zs).2 % 2 = 0) (hj : j ≤ e)
    (hq : inUnits j (fDecode f (fRoundInt f rm z e zs).1) = some q) : q = z * ((2 ^ (e - j).toNat : Nat) : Int) := by
  unfold fRoundInt at h hq
  split at hq
  · next hz =>
    have hzero : q = signOf zs * ((0 * 2 ^ (e - j).toNat : Nat) : Int) := fRound_value heb (rm := rm) (m := 0) rfl hj hq
    rw [hzero, hz, Nat.zero_mul, Int.zero_mul, Nat.cast_zero, Int.mul_zero]
  · next hz =>
    rw [if_neg hz] at h
    rw [fRound_value heb h hj hq, Nat.cast_mul, ← Int.mul_assoc]
    refine congrArg (· * _) ?_
    rcases Int.lt_or_le z 0 with hneg | hpos
    · rw [decide_eq_true hneg, Int.ofNat_natAbs_of_nonpos hneg.le]
      exact Int.neg_mul_neg 1 z ▸ Int.one_mul z
    · rw [decide_eq_false (Int.not_lt.2 hpos), Int.natAbs_of_nonneg hpos]
      exact Int.one_mul z

theorem fAddV_value {a b : FV} {k m n : Int} (ha : inUnits k a = some m) (hb : inUnits k b = some n) (h : (fAddV f rm a b).2 % 2 = 0)
    (hj : j ≤ k) (hq : inUnits j (fDecode f (fAddV f rm a b).1) = some q) : q = (m + n) * 2 ^ (k - j).toNat := by
  obtain ⟨s1, m1, e1, rfl, hk1, rfl⟩ := inUnits_eq ha
  obtain ⟨s2, m2, e2, rfl, hk2, rfl⟩ := inUnits_eq hb
  have hk := le_min hk1 hk2
  have hsum : q = (dyAdd s1 m1 e1 s2 m2 e2).1 * ((2 ^ (min e1 e2 - j).toNat : Nat) : Int) := fRoundInt_value heb h (hj.trans hk) hq
  have hsign (s : Bool) (x : Int) : (if s then -x else x) = signOf s * x := by
    cases s
    · exact (Int.one_mul x).symm
    · exact Int.neg_eq_neg_one_mul x
  rw [hsum, dyAdd, hsign, hsign, two_pow_split hj hk, two_pow_split hk (min_le_left ..), two_pow_split hk (min_le_right ..)]
  push_cast
  ring

theorem fMulV_value {a b : FV} {k m n : Int} (ha : inUnits k a = some m) (hb : inUnits k b = some n) (h : (fMulV f rm a b).2 % 2 = 0)
    (hj : j ≤ k + k) (hq : inUnits j (fDecode f (fMulV f rm a b).1) = some q) : q = m * n * 2 ^ (k + k - j).toNat := by
  obtain ⟨s1, m1, e1, rfl, hk1, rfl⟩ := inUnits_eq ha
  obtain ⟨s2, m2, e2, rfl, hk2, rfl⟩ := inUnits_eq hb
  have hk := Int.add_le_add hk1 hk2
  have hprod : q = signOf (s1 != s2) * ((m1 * m2 * 2 ^ (e1 + e2 - j).toNat : Nat) : Int) := fRound_value heb h (hj.trans hk) hq
  have hsign : signOf (s1 != s2) = signOf s1 * signOf s2 := by cases s1 <;> cases s2 <;> rfl
  have hpow : (e1 + e2 - (k + k)).toNat = (e1 - k).toNat + (e2 - k).toNat := by
    rw [add_sub_add_comm, Int.toNat_add (Int.sub_nonneg.2 hk1) (Int.sub_nonneg.2 hk2)]
  rw [hprod, hsign, two_pow_split hj hk, hpow, Nat.pow_add]
  push_cast
  ring

end Values

theorem inUnits_fNegV {k n : Int} {v : FV} (h : inUnits k v = some n) : inUnits k (fNegV v) = some (-n) := by
  obtain ⟨s, a, e, rfl, hk, rfl⟩ := inUnits_eq h
  have hs : signOf (!s) = -signOf s := by cases s <;> rfl
  exact (if_pos hk).trans (congrArg some ((congrArg (· * _) hs).trans (Int.neg_mul ..)))

theorem fmtOf_eb (p : Prec) : 1 ≤ (fmtOf p).eb := by cases p <;> decide

/-! ### NaNs (R59, R110, R114, R116) -/

theorem isNan_fNegV (v : FV) : isNan (fNegV v) = isNan v ∧ isSig (fNegV v) = isSig v := by cases v <;> exact ⟨rfl, rfl⟩

theorem nv_isSig (q : Bool) (v : FV) : nv (q || isSig v) = if q = true ∨ v = .nan true then flagNV else 0 := by
  cases v with
  | nan b => cases q <;> cases b <;> rfl
  | _ => cases q <;> rfl

section NanValues
variable (f : Fmt) (rm : Rm) {a b : FV} (h : (isNan a || isNan b) = true)
include h

theorem fAddV_nan : fAddV f rm a b = (fNaN f, nv (isSig a || isSig b)) := if_pos h

theorem fMulV_nan : fMulV f rm a b = (fNaN f, nv (isSig a || isSig b)) := if_pos h

theorem fDivV_nan : fDivV f rm a b = (fNaN f, nv (isSig a || isSig b)) := if_pos h

theorem fFmaV_nan_factor (c : FV) : (fFmaV f rm a b c).1 = fNaN f := by
  have hnan : (isNan a || isNan b || isNan c) = true := by rw [h, Bool.true_or]
  exact congrArg Prod.fst (if_pos (Bool.or_eq_true_iff.2 (.inl hnan)))

end NanValues

theorem fFmaV_nan_addend (f : Fmt) (rm : Rm) (a b : FV) {c : FV} (h : isNan c = true) : (fFmaV f rm a b c).1 = fNaN f := by
  have hnan : (isNan a || isNan b || isNan c) = true := by rw [h, Bool.or_true]
  exact congrArg Prod.fst (if_pos (Bool.or_eq_true_iff.2 (.inl hnan)))

section Nans
variable {p : Prec} {x : Word} {b : Bool} (hx : fRead p x = .nan b)
include hx

theorem isNan_read : isNan (fRead p x) = true ∧ isSig (fRead p x) = b := by
  rw [hx]
  exact ⟨rfl, rfl⟩

theorem arith_nan (rm : Rm) (y : Word) {op : FpOp} (hop : op = .add ∨ op = .sub ∨ op = .mul ∨ op = .div) :
    fpValue op p rm x y = (fNaN (fmtOf p), nv (b || isSig (fRead p y))) ∧ fpValue op p rm y x = (fNaN (fmtOf p), nv (b || isSig (fRead p y))) := by
  obtain ⟨hn, hs⟩ := isNan_read hx
  have hl : (isNan (fRead p x) || isNan (fRead p y)) = true := by rw [hn, Bool.true_or]
  have hr : (isNan (fRead p y) || isNan (fRead p x)) = true := by rw [hn, Bool.or_true]
  rw [← hs]
  rcases hop with rfl | rfl | rfl | rfl
  · exact ⟨fAddV_nan _ rm hl, Bool.or_comm .. ▸ fAddV_nan _ rm hr⟩
  · rw [← (isNan_fNegV (fRead p y)).1] at hl
    rw [← (isNan_fNegV (fRead p x)).1] at hr
    exact ⟨(isNan_fNegV (fRead p y)).2 ▸ fAddV_nan _ rm hl, Bool.or_comm .. ▸ (isNan_fNegV (fRead p x)).2 ▸ fAddV_nan _ rm hr⟩
  · exact ⟨fMulV_nan _ rm hl, Bool.or_comm .. ▸ fMulV_nan _ rm hr⟩
  · exact ⟨fDivV_nan _ rm hl, Bool.or_comm .. ▸ fDivV_nan _ rm hr⟩

theorem minMax_nan (rm : Rm) {y : Word} (hy : ∀ u, fRead p y ≠ .nan u) {op : FpOp} (hop : op = .min ∨ op = .max) :
    (fpValue op p rm x y).1 = y.toNat % 2 ^ fWidth (fmtOf p) ∧ (fpValue op p rm y x).1 = y.toNat % 2 ^ fWidth (fmtOf p) := by
  have hnum : isNan (fRead p y) = false := by
    cases hv : fRead p y with
    | nan u => exact absurd hv (hy u)
    | _ => rfl
  obtain ⟨hn, -⟩ := isNan_read hx
  have hvalue (hi : Bool) : (fMinMax (fmtOf p) hi (x.toNat % 2 ^ fWidth (fmtOf p)) (y.toNat % 2 ^ fWidth (fmtOf p)) (fRead p x) (fRead p y)).1 =
      y.toNat % 2 ^ fWidth (fmtOf p) ∧
      (fMinMax (fmtOf p) hi (y.toNat % 2 ^ fWidth (fmtOf p)) (x.toNat % 2 ^ fWidth (fmtOf p)) (fRead p y) (fRead p x)).1 =
      y.toNat % 2 ^ fWidth (fmtOf p) := by
    unfold fMinMax
    rw [hn, hnum]
    exact ⟨rfl, rfl⟩
  rcases hop with rfl | rfl
  · exact hvalue false
  · exact hvalue true

theorem fcmp_nan (op : FpCmp) (y : Word) : (fcmpValue op p x y).1 = false ∧ (fcmpValue op p y x).1 = false ∧
    (fcmpValue op p x y).2 = if op ≠ .eq ∨ b = true ∨ fRead p y = .nan true then flagNV else 0 := by
  have hflag : nv (if op == .eq then b || isSig (fRead p y) else true) = if op ≠ .eq ∨ b = true ∨ fRead p y = .nan true then flagNV else 0 := by
    cases op with
    | eq => simpa using nv_isSig b (fRead p y)
    | _ => rfl
  obtain ⟨hn, hs⟩ := isNan_read hx
  have hl : (isNan (fRead p x) || isNan (fRead p y)) = true := by rw [hn, Bool.true_or]
  have hr : (isNan (fRead p y) || isNan (fRead p x)) = true := by rw [hn, Bool.or_true]
  unfold fcmpValue
  rw [if_pos hl, if_pos hr, hs]
  exact ⟨rfl, rfl, hflag⟩

end Nans

/-- Settles O4. Rounding keeps the value where it raises no NX (`fRound_exact`), so sums and products are exact; the NaN clauses follow the
cases of each operation. -/
theorem floatExactAndNans : Obligations.FloatExactAndNans := by
  refine ⟨fun p rm x y k m n hx hy => ⟨fun v fl hv hfl j q hj hq => ?_, fun v fl hv hfl j q hj hq => ?_, fun v fl hv hfl j q hj hq => ?_⟩,
    fun p rm x y q hx => ⟨fun op hop => ?_, ?_, fun hy op hop => minMax_nan hx rm hy hop, fun op => fcmp_nan hx op y, fun ty m => ?_,
      fun z => ⟨?_, fFmaV_nan_factor _ rm ?_ _, fFmaV_nan_factor _ rm ?_ _, fFmaV_nan_addend _ rm _ _ (isNan_read hx).1⟩⟩⟩
  · obtain ⟨rfl, rfl⟩ := Prod.mk.inj hv
    exact fAddV_value (fmtOf_eb p) hx hy hfl hj hq
  · obtain ⟨rfl, rfl⟩ := Prod.mk.inj hv
    exact fAddV_value (fmtOf_eb p) hx (inUnits_fNegV hy) hfl hj hq
  · obtain ⟨rfl, rfl⟩ := Prod.mk.inj hv
    exact fMulV_value (fmtOf_eb p) hx hy hfl hj hq
  · rw [← nv_isSig]
    exact arith_nan hx rm y hop
  · unfold fpValue
    rw [hx]
    cases q <;> rfl
  · unfold fcvtIValue
    rw [hx]
  · cases p <;> rfl
  · exact Bool.or_eq_true_iff.2 (.inl (isNan_read hx).1)
  · exact Bool.or_eq_true_iff.2 (.inr (isNan_read hx).1)

end Sys2Proof.Machine
end

section
/-! SUPPORT. Completions of requests to a host (R196, R197, R199, R212): a stopped core answers, or its process traps. -/

-- Proofs are elaborated one after another: side by side they would need more memory than a check has.
set_option Elab.async false

namespace Sys2Proof.Machine

open Sys2Proof.Claims

/-! ### A core that answers its process (R201) -/

/-- Core `l` is core `k` with issue restarted. -/
structure Freed (k l : Core) : Prop where
  slots : l.slots = k.slots
  run : l.run = k.run
  instret : l.instret = k.instret
  stall : l.stall = none

theorem getCore_unstallCore (s : State) (c : Nat) : getCore (unstallCore s c) c = { getCore s c with stall := none } :=
  getCore_modCore_self s c fun k => { k with stall := none }

theorem freed_unstallCore (s : State) (c : Nat) : Freed (getCore s c) (getCore (unstallCore s c) c) := by
  rw [getCore_unstallCore]
  exact ⟨rfl, rfl, rfl, rfl⟩

theorem Freed.of_quiet {k : Core} {u v : State} {c : Nat} (h : Freed k (getCore u c)) (q : Quiet u v) : Freed k (getCore v c) := by
  rw [q.core]
  exact ⟨h.slots, h.run, h.instret, h.stall⟩

/-- W[d] and the other registers after the common end of a register instruction. -/
theorem regRd_finished {s t : State} {c w i : Nat} {r : Running} {sl : Slot} {d : Reg} {v : Word} {pc : PC}
    (hi : slotOf (getCore s c) w = some i) (hs : slotAt (getCore s c) i = some sl) (f : Finished s t c r i sl (withReg sl d v) pc) :
    (d ≠ 0 → regRd t c w d = v) ∧ ∀ e, e ≠ d → regRd t c w e = regRd s c w e := by
  have hof : slotOf (getCore t c) w = some i := (slotOf_finished f hs c w).trans hi
  refine ⟨fun hd => ?_, fun e he => ?_⟩
  · unfold regRd
    rw [if_neg hd, hof]
    simp only [slotReg, f.slot, withReg_regs_self _ _ _ hd, Option.getD_some]
  · unfold regRd
    rw [hof, hi]
    have hne : e.toNat ≠ d.toNat := fun h => he (BitVec.eq_of_toNat_eq h)
    simp only [slotReg, f.slot, hs, withReg_regs _ _ _ _ hne]

/-- The process of core `c` in a slot, on a core that restarts: its instruction completes. -/
theorem hostAnswered_finish {s u : State} {c : Nat} {r : Running} {st : Stall} (h : AwaitsHost s c r st) (hu : Freed (getCore s c) (getCore u c))
    (hslots : ∀ e, regRd u c r.wptr e = regRd s c r.wptr e) (d : Reg) (v : Word) :
    HostAnswered s (finish u c r d v) c r d v ∧ finish u c r d v = { u with cores := (finish u c r d v).cores } := by
  have hof : slotOf (getCore u c) r.wptr = slotOf (getCore s c) r.wptr := slotOf_congr (fun i => by rw [holders, slotAt_congr hu.slots, holders]) _
  obtain ⟨i, hi⟩ := Option.isSome_iff_exists.1 h.resident
  rw [← hof] at hi
  obtain ⟨-, sl, hs, -⟩ := slotOf_spec hi
  have f := finish_finished (hu.run.trans h.running) hi hs d v (r.pc + 4)
  obtain ⟨hdest, hregs⟩ := regRd_finished hi hs f
  refine ⟨⟨hdest, fun e he => (hregs e he).trans (hslots e), f.run, ?_, f.instret.trans (congrArg (· + 1) hu.instret)⟩, f.rest⟩
  have hcore := f.core
  rw [show getCore (finish u c r d v) c = _ from hcore]
  exact hu.stall

theorem regRd_freed {s u : State} {c w : Nat} (hu : Freed (getCore s c) (getCore u c)) (hmem : u.mem = s.mem) (e : Reg) :
    regRd u c w e = regRd s c w e :=
  regRd_of_slots hu.slots (fun a _ _ => hw_congr hmem a) e

theorem pcieReply_eq {s : State} {c : Nat} {r : Running} {st : Stall} (h : AwaitsHost s c r st) (data : Option Word) :
    pcieReply s c data = data.elim (pcieFails s c r st) (pcieAnswers s c r st) := by
  unfold pcieReply
  simp only [h.running, h.stalled]
  cases data <;> rfl

theorem exec_completed {s : State} {c : Nat} {r : Running} {st : Stall} (h : AwaitsHost s c r st) (data : Word) :
    exec (.pcieCompletion c .ok data) s = .next (settle (pcieAnswers s c r st data)) :=
  congrArg (fun t => Host.Outcome.next (settle t)) (pcieReply_eq h (some data))

/-- The acquire that ends a load or an AtomicOp (R180). -/
noncomputable def acquired (acq : Bool) (s : State) (c : Nat) : State := if acq then acquireDone s c .panel else s

theorem quiet_acquired (acq : Bool) (s : State) (c : Nat) : Quiet s (acquired acq s c) := Quiet.of_ite (Quiet.acquireDone s c .panel) (Quiet.refl s)

theorem acquired_hosts (acq : Bool) (s : State) (c : Nat) : (acquired acq s c).hosts = s.hosts := by cases acq <;> rfl

/-- An answer of a core that restarts, past its acquire. -/
theorem hostAnswered_acquired {s u : State} {c : Nat} {r : Running} {st : Stall} (h : AwaitsHost s c r st)
    (hu : Freed (getCore s c) (getCore u c)) (hmem : u.mem = s.mem) (acq : Bool) (d : Reg) (v : Word) :
    HostAnswered s (finish (acquired acq u c) c r d v) c r d v ∧ (finish (acquired acq u c) c r d v).mem = s.mem ∧
      (finish (acquired acq u c) c r d v).hosts = u.hosts := by
  have q := quiet_acquired acq u c
  have hv := hu.of_quiet q
  obtain ⟨hans, hrest⟩ := hostAnswered_finish h hv (regRd_freed hv (q.mem_eq.trans hmem)) d v
  refine ⟨hans, ?_, ?_⟩
  · rw [hrest]
    exact q.mem_eq.trans hmem
  · rw [hrest]
    exact acquired_hosts acq u c

/-! ### Values (R201, R210) -/

theorem size_of_bytes {n : Nat} (h : n = 1 ∨ n = 2 ∨ n = 4 ∨ n = 8) : ∃ sz : Size, sizeBytes sz = n := by
  rcases h with rfl | rfl | rfl | rfl
  · exact ⟨.b, rfl⟩
  · exact ⟨.h, rfl⟩
  · exact ⟨.w, rfl⟩
  · exact ⟨.d, rfl⟩

theorem extendN_value {n : Nat} (h : n = 1 ∨ n = 2 ∨ n = 4 ∨ n = 8) (x : Nat) :
    (extendN true n (x % 2 ^ (8 * n))).toInt = sx x (8 * n) ∧ (extendN false n (x % 2 ^ (8 * n))).toNat = x % 256 ^ n := by
  obtain ⟨sz, rfl⟩ := size_of_bytes h
  refine ⟨?_, ?_⟩
  · rw [extendN_signed, bytesOfSize_eq, sx_mod _ _ _ (Nat.le_refl _)]
  · rw [extendN_unsigned, bytesOfSize_eq, Nat.pow_mul]
    exact Nat.mod_mod ..

/-! ### The hosts' memory (R199) -/

/-- Writing a list of bytes from `a` on. -/
noncomputable def putAll (m : AMap Byte) (a : Nat) (l : List (Byte × Nat)) : AMap Byte := l.foldl (fun m x => amSet m (a + x.2) x.1) m

theorem amGet_putAll_out (b : List Byte) (a j k : Nat) (m : AMap Byte) (h : k < j) : amGet (putAll m a (b.zipIdx j)) (a + k) = amGet m (a + k) := by
  induction b generalizing j m with
  | nil => rfl
  | cons x b ih =>
    rw [List.zipIdx_cons]
    unfold putAll
    rw [List.foldl_cons]
    refine (ih (j + 1) _ (Nat.lt_succ_of_lt h)).trans (amGet_amSet_ne _ _ _ _ fun he => ?_)
    exact h.ne (Nat.add_left_cancel he)

theorem amGet_putAll (b : List Byte) (a j k : Nat) (m : AMap Byte) (h : k < b.length) : amGet (putAll m a (b.zipIdx j)) (a + (j + k)) = b[k]? := by
  induction b generalizing j k m with
  | nil => cases h
  | cons x b ih =>
    rw [List.zipIdx_cons]
    unfold putAll
    rw [List.foldl_cons]
    cases k with
    | zero => exact (amGet_putAll_out b a (j + 1) j _ (Nat.lt_succ_self j)).trans (amGet_amSet_self ..)
    | succ k =>
      rw [show j + (k + 1) = j + 1 + k by rw [Nat.add_right_comm]; rfl]
      exact ih (j + 1) k _ (Nat.lt_of_succ_lt_succ h)

theorem bytesOf_getElem? {n k : Nat} (v : Nat) (h : k < n) : (bytesOf n v)[k]? = some (BitVec.ofNat 8 (v / 256 ^ k)) := by
  rw [← List.head?_drop, bytesOf_drop]
  obtain ⟨m, hm⟩ := Nat.exists_eq_add_of_lt h
  rw [hm, Nat.add_assoc, Nat.add_sub_cancel_left]
  rfl

theorem bytesOf_length (n v : Nat) : (bytesOf n v).length = n := by
  induction n generalizing v with
  | zero => rfl
  | succ n ih => exact congrArg (· + 1) (ih _)

theorem hostGet_hostPut (s : State) (pa v : Nat) {n k : Nat} (h : k < n) :
    (hostGet (hostPut s pa (bytesOf n v)) (pa + k)).toNat = v / 256 ^ k % 256 := by
  have hget := amGet_putAll (bytesOf n v) pa 0 k s.hosts.mem (by rwa [bytesOf_length])
  rw [Nat.zero_add, bytesOf_getElem? v h] at hget
  exact (congrArg (fun b => (Option.getD b (Config.hostByte (pa + k))).toNat) hget).trans (BitVec.toNat_ofNat ..)

theorem byte_of_mod {n k : Nat} (x : Nat) (h : k < n) : x % 2 ^ (8 * n) / 256 ^ k % 256 = x / 256 ^ k % 256 := by
  obtain ⟨m, rfl⟩ := Nat.exists_eq_add_of_lt h
  rw [Nat.pow_mul, show (2 : Nat) ^ 8 = 256 from rfl, Nat.add_assoc, Nat.pow_add, Nat.mod_mul_right_div_self,
    Nat.mod_mod_of_dvd _ (Dvd.intro_left (256 ^ m) rfl : 256 ∣ 256 ^ (m + 1))]

/-! ### What a request is answered with (R199) -/

theorem intervalTouch_rest (s : State) (rg pa : Nat) : ∃ g, intervalTouch s rg pa = { s with regions := g } := by
  unfold intervalTouch
  split
  · split
    · split
      · exact ⟨_, rfl⟩
      · exact ⟨_, rfl⟩
    · split
      · exact ⟨_, rfl⟩
      · exact ⟨_, rfl⟩
  · exact ⟨_, rfl⟩

/-- A host window after an AtomicOp, which may have written `new`. -/
noncomputable def amoHost (s : State) (rg pa n : Nat) (x : Nat × Bool) : State :=
  if x.2 then hostPut (intervalTouch s rg pa) pa (bytesOf n x.1) else s

theorem pcieAnswers_amo (s : State) (c : Nat) (r : Running) (ea : Word) (pa : Nat) (d : Reg) (n op : Nat) (b x : Word) (acq : Bool) (data : Word) :
    pcieAnswers s c r (.pcieAmo ea pa d n op b x acq) data =
      finish (acquired acq (amoHost (unstallCore s c) r.rcb pa n (amoValue (hostAmoFn op) (8 * n) (data.toNat % 2 ^ (8 * n))
        (b.toNat % 2 ^ (8 * n)) (x.toNat % 2 ^ (8 * n)))) c) c r d (extendN true n (data.toNat % 2 ^ (8 * n))) := rfl

theorem amoHost_rest (s : State) (rg pa n : Nat) (x : Nat × Bool) :
    (amoHost s rg pa n x).cores = s.cores ∧ (amoHost s rg pa n x).mem = s.mem := by
  obtain ⟨g, hg⟩ := intervalTouch_rest s rg pa
  unfold amoHost
  rw [hg]
  split <;> exact ⟨rfl, rfl⟩

/-- The byte that an AtomicOp of the hosts leaves. -/
theorem amoHost_byte {s : State} {rg pa n k op : Nat} {old b x : Nat} (hop : op = 0 ∨ op = 1 ∨ op = 9) (hk : k < n)
    (hcas : op ≠ 9 ∨ old % 256 ^ n = x % 256 ^ n) :
    (hostGet (amoHost s rg pa n (amoValue (hostAmoFn op) (8 * n) (old % 2 ^ (8 * n)) (b % 2 ^ (8 * n)) (x % 2 ^ (8 * n)))) (pa + k)).toNat =
      (if op = 1 then old + b else b) / 256 ^ k % 256 := by
  have hwritten (v : Nat) (hv : v = (if op = 1 then old + b else b) % 2 ^ (8 * n)) :
      (hostGet (amoHost s rg pa n (v, true)) (pa + k)).toNat = (if op = 1 then old + b else b) / 256 ^ k % 256 := by
    unfold amoHost
    rw [if_pos rfl, hostGet_hostPut _ _ _ hk, hv, byte_of_mod _ hk]
  rcases hop with rfl | rfl | rfl
  · exact hwritten _ rfl
  · exact hwritten _ (Nat.add_mod ..).symm
  · have heq : old % 2 ^ (8 * n) = x % 2 ^ (8 * n) := by
      rw [Nat.pow_mul]
      exact hcas.resolve_left (fun h => h rfl)
    have hv : amoValue (hostAmoFn 9) (8 * n) (old % 2 ^ (8 * n)) (b % 2 ^ (8 * n)) (x % 2 ^ (8 * n)) = (b % 2 ^ (8 * n), true) := if_pos heq
    rw [hv]
    exact hwritten _ rfl

theorem amoHost_kept {s : State} {rg pa n : Nat} {old b x : Nat} (h : old % 256 ^ n ≠ x % 256 ^ n) :
    amoHost s rg pa n (amoValue (hostAmoFn 9) (8 * n) (old % 2 ^ (8 * n)) (b % 2 ^ (8 * n)) (x % 2 ^ (8 * n))) = s := by
  have hne : old % 2 ^ (8 * n) ≠ x % 2 ^ (8 * n) := by rwa [Nat.pow_mul]
  have hv : amoValue (hostAmoFn 9) (8 * n) (old % 2 ^ (8 * n)) (b % 2 ^ (8 * n)) (x % 2 ^ (8 * n)) = (old % 2 ^ (8 * n), false) := if_neg hne
  rw [hv]
  rfl

/-- The word of a fetch, kept as the copy of its address or for the one fetch that awaits it. -/
theorem keepHostCode_kept (s : State) (c pa : Nat) (b : List Byte) (nc : Bool) :
    (keepHostCode s c pa b nc).mem = s.mem ∧ (getCore (keepHostCode s c pa b nc) c).run = (getCore s c).run ∧
      (getCore (keepHostCode s c pa b nc) c).stall = (getCore s c).stall ∧
      (nc = false → ∃ y, l1iCopy (getCore (keepHostCode s c pa b nc) c) pa = some y ∧ y.bytes = b) ∧
      (nc = true → (getCore (keepHostCode s c pa b nc) c).l1i = (getCore s c).l1i ∧
        (getCore (keepHostCode s c pa b nc) c).hostWord = some (pa, b)) := by
  cases nc with
  | true =>
    have hcore := getCore_modCore_self s c fun k => { k with hostWord := some (pa, b) }
    unfold keepHostCode
    rw [if_pos rfl, hcore]
    exact ⟨rfl, rfl, rfl, nofun, fun _ => ⟨rfl, rfl⟩⟩
  | false =>
    have hcore := getCore_modCore_self (tick s) c fun k => { k with l1i := (⟨pa, b, s.order + 1⟩ :: k.l1i.filter (·.addr != pa)).take 16384 }
    have hl2 (u : State) (h : u.mem = s.mem) (hk : getCore u c = getCore (fillL1i s c pa b) c) : u.mem = s.mem ∧
        (getCore u c).run = (getCore s c).run ∧
        (getCore u c).stall = (getCore s c).stall ∧ (false = false → ∃ y, l1iCopy (getCore u c) pa = some y ∧ y.bytes = b) ∧
        (false = true → (getCore u c).l1i = (getCore s c).l1i ∧ (getCore u c).hostWord = some (pa, b)) := by
      rw [hk]
      unfold fillL1i
      rw [hcore]
      exact ⟨h, rfl, rfl, fun _ => ⟨_, List.find?_cons_of_pos (beq_self_eq_true pa), rfl⟩, nofun⟩
    unfold keepHostCode
    rw [if_neg Bool.false_ne_true]
    dsimp only
    split
    · exact hl2 _ rfl rfl
    · exact hl2 _ rfl rfl

theorem linkRead_kept (s : State) (c : Nat) (links : BitVec 4) :
    (linkRead s c links).mem = s.mem ∧ (getCore (linkRead s c links) c).run = (getCore s c).run ∧
      (getCore (linkRead s c links) c).stall = if links &&& (links - 1) = 0 then none else some (.pcieRelease (links &&& (links - 1))) := by
  have hq := Quiet.noteMsg s c (hostRouter (((List.range 4).find? fun i => links.getLsbD i).getD 0))
  rw [linkRead]
  generalize noteMsg s c _ = u at *
  have hv := getCore_modCore_self u c fun k => { k with linksUsed := k.linksUsed &&& ~~~(links ^^^ (links &&& (links - 1))) }
  have hmem : (modCore u c fun k => { k with linksUsed := k.linksUsed &&& ~~~(links ^^^ (links &&& (links - 1))) }).mem = s.mem := hq.mem_eq
  generalize modCore u c (fun k => { k with linksUsed := k.linksUsed &&& ~~~(links ^^^ (links &&& (links - 1))) }) = v at *
  have hrun : (getCore v c).run = (getCore s c).run := by
    rw [hv]
    exact hq.run_eq c
  split
  · have hfree := freed_unstallCore v c
    exact ⟨hmem, hfree.run.trans hrun, hfree.stall⟩
  · have hcore := getCore_modCore_self v c fun k => { k with stall := some (.pcieRelease (links &&& (links - 1))) }
    rw [hcore]
    exact ⟨hmem, hrun, rfl⟩

/-! ### A request that fails (R199) -/

section Fails
variable {s : State} {c : Nat} {r : Running} {p : Proc} (hrun : (getCore s c).run = some r) (hp : getProc s r.wptr = some p) (hc : p.core = c)
include hrun hp hc

/-- Any core's process takes a trap, as the executing one does (`takeTrap_of_placed`). -/
theorem takeTrap_at (hsel : ∀ e ∈ s.selects, e.2.wptr ≠ r.wptr) (hent : ∀ q ∈ s.queues, ∀ e ∈ q.2.entries, e.2.taken ≠ some r.wptr)
    (hroom : freeSlots s (coreTile c) ≠ []) (cause : Cause) (tval : Word) :
    ∃ u, Left s u c r.wptr (resumeWord r.sm r.hp r.xc r.pc) ∧
      ∃ f, takeTrap s r.wptr cause 0 tval 0 false = modTile (trapState u c r cause 0 tval) (coreTile c) f := by
  have hcore : procCore s r.wptr = c := by unfold procCore; rw [hp]; exact hc
  have hrunning : isRunning s r.wptr = true := by unfold isRunning; rw [hcore, hrun]; exact beq_self_eq_true _
  have hpc : pcAt s r.wptr = r.pc := by unfold pcAt; rw [hcore, hrun]; exact if_pos (beq_self_eq_true _)
  have hup : dropTaken (leaveStep s r.wptr) r.wptr = { s with msgs := s.msgs.filter fun m => !chanMsgOf r.wptr m } := by
    rw [leaveStep_of_noSelect hsel]
    exact dropTaken_of_noEntry hent
  have hleft : Left s (leaveCore (dropTaken (leaveStep s r.wptr) r.wptr) c r.pc) c r.wptr (resumeWord r.sm r.hp r.xc r.pc) := by
    rw [hup]
    generalize s.msgs.filter _ = ms
    obtain ⟨h1, h2, h3, h4, h5⟩ := left_leaveCore (s := { s with msgs := ms }) hrun r.pc
    exact ⟨h1, h2, h3, h4, h5⟩
  simp only [takeTrap, takeTrapWith, hcore, hrunning, hpc, if_true, Bool.false_eq_true, if_false]
  generalize leaveCore _ _ _ = u at hleft ⊢
  have hfree : freeSlots (trapState u c r cause 0 tval) (coreTile c) ≠ [] := by
    rw [freeSlots_congr fun n => congrArg Tile.trapQ (getTile_congr (trapState_tiles u c r cause 0 tval) n), hleft.queue]
    exact hroom
  exact ⟨u, hleft, queueRecords_of_room hfree _ _⟩

/-- What such a trap leaves. -/
theorem trapped_at (hres : (slotOf (getCore s c) r.wptr).isSome = true) (hsel : ∀ e ∈ s.selects, e.2.wptr ≠ r.wptr)
    (hent : ∀ q ∈ s.queues, ∀ e ∈ q.2.entries, e.2.taken ≠ some r.wptr) (hroom : freeSlots s (coreTile c) ≠ []) (hb : 128 ≤ r.wptr)
    (hpc : r.pc.toNat % 4 = 0) {cause : Cause} {tval : Word} {t : State} (ht : takeTrap s r.wptr cause 0 tval 0 false = t) :
    pstate t r.wptr = 10 ∧ resumePc t r.wptr = r.pc ∧ (getCore t c).run = none ∧ (getCore t c).stall = none ∧
      (getCore t c).tcause = causeWord cause 0 ∧ (getCore t c).tval = tval ∧ ∀ e, regRd t c r.wptr e = regRd s c r.wptr e := by
  obtain ⟨u, hleft, f, hu⟩ := takeTrap_at hrun hp hc hsel hent hroom cause tval
  rw [hu] at ht
  have hmem : t.mem = (setPstate u r.wptr 10 0).mem := by
    rw [← ht, modTile_mem]
    unfold trapState
    rw [modCore_mem, modProc_mem]
  have hcore : getCore t c = trapCore r cause 0 tval (leftCore (getCore s c)) := by
    rw [← ht, getCore_congr (modTile_cores ..), getCore_trapState, hleft.core]
  have hslots : (getCore t c).slots = (getCore s c).slots := by
    rw [hcore, trapCore_fields]
    rfl
  refine ⟨?_, ?_, ?_, ?_, ?_, ?_, fun e => ?_⟩
  · rw [pstate_congr hmem, pstate_setPstate _ _ (by decide) (by decide)]
  · rw [resumePc_congr hmem, resumePc_setPstate _ _ _ _ ((by decide : 8 ≤ 128).trans hb)]
    unfold resumePc resumeAt
    rw [hleft.resume, bits_resumeWord _ _ _ hpc, BitVec.ofNat_toNat, BitVec.setWidth_eq]
  · rw [hcore, trapCore_fields]
    rfl
  · rw [hcore, trapCore_fields]
    rfl
  · rw [hcore, trapCore_fields]
  · rw [hcore, trapCore_fields]
  · have hof : slotOf (getCore t c) r.wptr = slotOf (getCore s c) r.wptr :=
      slotOf_congr (fun i => by rw [holders, slotAt_congr hslots, holders]) _
    obtain ⟨i, hi⟩ := Option.isSome_iff_exists.1 hres
    unfold regRd
    rw [hof, hi]
    simp only [slotReg, slotAt_congr hslots]

end Fails

theorem pcieFails_eq {s : State} {c : Nat} {r : Running} {st : Stall} {ea : Word} (h : requestEa r st = some ea) :
    pcieFails s c r st = takeTrap (unstallCore s c) r.wptr .prot 0 ea 0 false := by
  cases st <;> cases h <;> rfl

/-- Settles O50. A completion answers the stopped instruction (`hostAnswered_acquired`), keeps the fetched word (`keepHostCode_kept`) or ends
a link's read (`linkRead_kept`); a failure traps (`trapped_at`). -/
theorem hostCompletions : Obligations.HostCompletions := by
  refine ⟨fun s c r ea pa d n signed acq data h hn => ?_, fun s c r ea pa d n op b x acq data h hn hop => ?_, fun s c r pa nc data h => ?_,
    fun s c r links i h hi => ?_, fun s c r st ea p i h hst hi hp hc _ hb hpc hsel hent hroom => ?_⟩
  · obtain ⟨hans, hmem, -⟩ := hostAnswered_acquired h (freed_unstallCore s c) rfl acq d (extendN signed n (data.toNat % 2 ^ (8 * n)))
    obtain ⟨hs, hu⟩ := extendN_value hn data.toNat
    exact ⟨_, _, exec_completed h data, hans, hmem, fun hsg => hsg ▸ hs, fun hsg => hsg ▸ hu⟩
  · have hv := (extendN_value (.inr (.inr hn)) data.toNat).1
    have hx := (exec_completed h data).trans (congrArg (fun t => Host.Outcome.next (settle t)) (pcieAnswers_amo ..))
    generalize hnew : amoValue (hostAmoFn op) (8 * n) (data.toNat % 2 ^ (8 * n)) (b.toNat % 2 ^ (8 * n)) (x.toNat % 2 ^ (8 * n)) = y at hx
    obtain ⟨hcores, hmem⟩ := amoHost_rest (unstallCore s c) r.rcb pa n y
    obtain ⟨hans, hmem', hhosts⟩ := hostAnswered_acquired h (u := amoHost (unstallCore s c) r.rcb pa n y)
      (by rw [getCore_congr hcores]; exact freed_unstallCore s c) hmem acq d (extendN true n (data.toNat % 2 ^ (8 * n)))
    refine ⟨_, _, hx, hans, hmem', hv, fun k hk hcas => ?_, fun hop9 hne => ?_⟩
    · have hbyte := amoHost_byte (s := unstallCore s c) (rg := r.rcb) (pa := pa) hop hk hcas (b := b.toNat)
      rw [hnew] at hbyte
      unfold hostGet
      rw [hhosts]
      exact hbyte
    · rw [hhosts, ← hnew, hop9, amoHost_kept hne]
      rfl
  · obtain ⟨hmem, hrun, hstall, hcopy, hword⟩ := keepHostCode_kept (unstallCore s c) c pa (bytesOf 4 data.toNat) nc
    have hfree := freed_unstallCore s c
    refine ⟨_, exec_completed h data, hmem, (hrun.trans hfree.run).trans h.running, hstall.trans hfree.stall, fun hnc => ?_,
      fun hnc => ⟨?_, _, (hword hnc).2, ofBytes_bytesOf 4 _⟩⟩
    · obtain ⟨y, hy, hb⟩ := hcopy hnc
      exact ⟨y, hy, hb ▸ ofBytes_bytesOf 4 _⟩
    · refine (hword hnc).1.trans ?_
      rw [getCore_unstallCore]
  · obtain ⟨hmem, hrun, hstall⟩ := linkRead_kept s c links
    have hx : ∃ data, exec i s = .next (settle (pcieReply s c data)) := by
      rcases hi with ⟨status, data, rfl⟩ | rfl
      · exact ⟨_, rfl⟩
      · exact ⟨none, rfl⟩
    obtain ⟨data, hx⟩ := hx
    have hread : pcieReply s c data = linkRead s c links := by
      rw [pcieReply_eq h]
      cases data <;> rfl
    exact ⟨_, hx.trans (by rw [hread]), hmem, hrun.trans h.running, hstall⟩
  · have hx : exec i s = .next (settle (pcieReply s c none)) := by
      rcases hi with ⟨status, data, rfl, hne⟩ | rfl
      · exact congrArg (fun x => Host.Outcome.next (settle (pcieReply s c x))) (if_neg hne)
      · rfl
    rw [pcieReply_eq h, Option.elim_none, pcieFails_eq hst] at hx
    have hfree := freed_unstallCore s c
    have hof : slotOf (getCore (unstallCore s c) c) r.wptr = slotOf (getCore s c) r.wptr :=
      slotOf_congr (fun i => by rw [holders, slotAt_congr hfree.slots, holders]) _
    obtain ⟨hstate, hpc', hnone, hstall, hcause, hval, hregs⟩ := trapped_at (s := unstallCore s c) (hfree.run.trans h.running) hp hc
      (hof ▸ h.resident) hsel hent hroom hb hpc rfl
    exact ⟨_, hx, hstate, hpc', hnone, hstall, hcause, hval, fun e => (hregs e).trans (regRd_freed hfree rfl e)⟩

end Sys2Proof.Machine
end

section
/-! SUPPORT. A write performed at its home, to words that no slot serves and that keep every bit (R94, R191, R203). -/

-- Proofs are elaborated one after another: side by side they would need more memory than a check has.
set_option Elab.async false

namespace Sys2Proof.Machine

open Sys2Proof.Claims

/-! ### Digits of doublewords -/

theorem memLE_digit (m : Memory) (a : Nat) {n j : Nat} (h : j < n) : memLE m a n / 256 ^ j % 256 = (memGet m (a + j)).toNat := by
  have hb (x : Nat) : (memGet m x).toNat < 256 := (memGet m x).isLt
  induction j generalizing a n with
  | zero =>
    obtain ⟨n, rfl⟩ := Nat.exists_eq_succ_of_ne_zero h.ne'
    rw [memLE, Nat.pow_zero, Nat.div_one, Nat.add_mul_mod_self_left, Nat.mod_eq_of_lt (hb _), Nat.add_zero]
  | succ j ih =>
    obtain ⟨n, rfl⟩ := Nat.exists_eq_succ_of_ne_zero (Nat.ne_zero_of_lt h)
    rw [memLE, Nat.pow_succ', ← Nat.div_div_eq_div_mul, Nat.add_mul_div_left _ _ (by decide), Nat.div_eq_of_lt (hb _), Nat.zero_add,
      ih _ (Nat.lt_of_succ_lt_succ h), Nat.add_right_comm, Nat.add_assoc]

theorem memLE_lt (m : Memory) (a n : Nat) : memLE m a n < 256 ^ n := by
  induction n generalizing a with
  | zero => exact Nat.one_pos
  | succ n ih =>
    have hb : (memGet m a).toNat < 256 := (memGet m a).isLt
    rw [memLE, Nat.pow_succ']
    calc (memGet m a).toNat + 256 * memLE m (a + 1) n < 256 + 256 * memLE m (a + 1) n := Nat.add_lt_add_right hb _
      _ = 256 * (memLE m (a + 1) n + 1) := by rw [Nat.mul_succ, Nat.add_comm]
      _ ≤ 256 * 256 ^ n := Nat.mul_le_mul_left _ (ih _)

theorem memGet_memPut_in (m : Memory) (a v : Nat) {n j : Nat} (h : j < n) :
    memGet (memPut m a n v) (a + j) = BitVec.ofNat 8 (v / 256 ^ j) := by
  induction j generalizing m a v n with
  | zero =>
    obtain ⟨n, rfl⟩ := Nat.exists_eq_succ_of_ne_zero h.ne'
    rw [Nat.add_zero, memPut, memGet_memPut_out _ _ _ _ _ (.inl (Nat.lt_add_one a)), memGet_memSet_self, Nat.pow_zero, Nat.div_one]
  | succ j ih =>
    obtain ⟨n, rfl⟩ := Nat.exists_eq_succ_of_ne_zero (Nat.ne_zero_of_lt h)
    rw [memPut, ← Nat.succ_add_eq_add_succ a j, ih _ _ _ (Nat.lt_of_succ_lt_succ h), Nat.div_div_eq_div_mul, Nat.pow_succ']

/-- A number with digit `x` between what lies above and below it. -/
noncomputable def withDigit (i hi x lo : Nat) : Nat := 256 ^ i * (256 * hi + x) + lo

section Digit
variable {i hi x lo : Nat} (hlo : lo < 256 ^ i)
include hlo

theorem withDigit_self (hx : x < 256) : withDigit i hi x lo / 256 ^ i % 256 = x := by
  unfold withDigit
  rw [Nat.mul_add_div (by positivity), Nat.div_eq_of_lt hlo, Nat.add_zero, Nat.mul_add_mod, Nat.mod_eq_of_lt hx]

theorem withDigit_other {j y : Nat} (hx : x < 256) (hy : y < 256) (hij : j ≠ i) :
    withDigit i hi x lo / 256 ^ j % 256 = withDigit i hi y lo / 256 ^ j % 256 := by
  rcases Nat.lt_or_gt_of_ne hij with h | h
  · have hlow (x : Nat) : withDigit i hi x lo / 256 ^ j % 256 = lo / 256 ^ j % 256 := by
      obtain ⟨k, rfl⟩ := Nat.exists_eq_add_of_lt h
      unfold withDigit
      rw [Nat.pow_succ, Nat.pow_add, Nat.mul_assoc, Nat.mul_assoc, Nat.mul_add_div (by positivity), Nat.mul_left_comm, Nat.mul_add_mod]
    rw [hlow, hlow]
  · have hhigh {x : Nat} (hx : x < 256) : withDigit i hi x lo / 256 ^ j = hi / 256 ^ (j - i - 1) := by
      obtain ⟨k, rfl⟩ := Nat.exists_eq_add_of_lt h
      rw [show i + k + 1 = i + (1 + k) by rw [Nat.add_assoc, Nat.add_comm k], Nat.pow_add, Nat.pow_add, ← Nat.div_div_eq_div_mul,
        ← Nat.div_div_eq_div_mul]
      unfold withDigit
      rw [Nat.mul_add_div (by positivity), Nat.div_eq_of_lt hlo, Nat.add_zero, Nat.pow_one, Nat.mul_add_div (by decide), Nat.div_eq_of_lt hx,
        Nat.add_zero, Nat.add_sub_cancel_left, Nat.add_sub_cancel_left]
    rw [hhigh hx, hhigh hy]

end Digit

theorem withDigit_split (n i : Nat) : withDigit i (n / 256 ^ i / 256) (n / 256 ^ i % 256) (n % 256 ^ i) = n := by
  unfold withDigit
  rw [Nat.div_add_mod, Nat.div_add_mod]

theorem withDigit_replace (i hi x y lo : Nat) : withDigit i hi x lo - x * 256 ^ i + y * 256 ^ i = withDigit i hi y lo := by
  unfold withDigit
  rw [Nat.mul_comm x, Nat.mul_comm y, Nat.mul_add, Nat.mul_add, Nat.add_right_comm, Nat.add_sub_cancel]
  exact Nat.add_right_comm ..

/-- A byte of a doubleword is a digit of its number. -/
theorem withByte_toNat (v : Word) {i : Nat} (hi : i < 8) (b : Byte) :
    (withByte v i b).toNat = withDigit i (v.toNat / 256 ^ i / 256) b.toNat (v.toNat % 256 ^ i) := by
  have hv := withDigit_split v.toNat i
  have hb : b.toNat < 256 := b.isLt
  have hp : 2 ^ (8 * i) = 256 ^ i := Nat.pow_mul ..
  have hlt : withDigit i (v.toNat / 256 ^ i / 256) b.toNat (v.toNat % 256 ^ i) < 2 ^ 64 := by
    have hhigh : v.toNat / 256 ^ i / 256 < 256 ^ (7 - i) := by
      rw [Nat.div_div_eq_div_mul, ← Nat.pow_succ, Nat.div_lt_iff_lt_mul (by positivity), ← Nat.pow_add, Nat.succ_eq_add_one,
        ← Nat.add_assoc, Nat.sub_add_cancel (Nat.le_of_lt_succ hi)]
      exact v.isLt
    calc withDigit i (v.toNat / 256 ^ i / 256) b.toNat (v.toNat % 256 ^ i)
        < 256 ^ i * (256 * (v.toNat / 256 ^ i / 256) + b.toNat) + 256 ^ i := Nat.add_lt_add_left (Nat.mod_lt _ (by positivity)) _
      _ = 256 ^ i * (256 * (v.toNat / 256 ^ i / 256) + b.toNat + 1) := (Nat.mul_succ ..).symm
      _ ≤ 256 ^ i * (256 * 256 ^ (7 - i)) := by
        refine Nat.mul_le_mul_left _ ((Nat.add_lt_add_left hb _).trans_le ?_)
        exact (Nat.mul_succ ..).symm.trans_le (Nat.mul_le_mul_left _ hhigh)
      _ = 2 ^ 64 := by
        rw [← Nat.pow_succ', ← Nat.pow_add, Nat.succ_eq_add_one, ← Nat.add_assoc, Nat.add_sub_cancel' (Nat.le_of_lt_succ hi)]
        rfl
  have hmod : bits v (8 * i + 7) (8 * i) = v.toNat / 256 ^ i % 256 := by
    unfold bits
    rw [Nat.shiftRight_eq_div_pow, hp, Nat.add_assoc, Nat.add_sub_cancel_left]
    rfl
  have hsub : v.toNat - v.toNat / 256 ^ i % 256 * 256 ^ i + b.toNat * 256 ^ i =
      withDigit i (v.toNat / 256 ^ i / 256) b.toNat (v.toNat % 256 ^ i) := by
    have hr := withDigit_replace i (v.toNat / 256 ^ i / 256) (v.toNat / 256 ^ i % 256) b.toNat (v.toNat % 256 ^ i)
    rwa [hv] at hr
  unfold withByte setBits
  rw [hmod, BitVec.toNat_ofNat, hp, Nat.add_assoc, Nat.add_sub_cancel_left, Nat.mod_eq_of_lt (show b.toNat < 2 ^ 8 from hb), hsub,
    Nat.mod_eq_of_lt hlt]

theorem withByte_digit (v : Word) {i : Nat} (hi : i < 8) (b : Byte) (j : Nat) :
    (withByte v i b).toNat / 256 ^ j % 256 = if j = i then b.toNat else v.toNat / 256 ^ j % 256 := by
  have hlo : v.toNat % 256 ^ i < 256 ^ i := Nat.mod_lt _ (by positivity)
  rw [withByte_toNat v hi]
  split
  · next h =>
    rw [h]
    exact withDigit_self hlo b.isLt
  · next h =>
    refine (withDigit_other (y := v.toNat / 256 ^ i % 256) hlo b.isLt (Nat.mod_lt _ (by decide)) h).trans ?_
    rw [withDigit_split]

/-! ### Bytes that memory itself holds -/

/-- Memory holds the byte: no slot serves its doubleword, and no bit of it is fixed. -/
def Unserved (s : State) (a : Nat) : Prop := snoopOf s (a / 8 * 8) = none ∧ workMask s (a / 8 * 8) = BitVec.allOnes 64

theorem word_memLE_toNat (m : Memory) (a : Nat) : (word (memLE m a 8)).toNat = memLE m a 8 := word_toNat (memLE_lt m a 8)

theorem byteAt_unserved {s : State} {a : Nat} (h : snoopOf s (a / 8 * 8) = none) : byteAt s a = memGet s.mem a := by
  apply BitVec.eq_of_toNat_eq
  unfold byteAt dwAt
  rw [h, BitVec.toNat_ofNat, word_memLE_toNat, Nat.shiftRight_eq_div_pow, Nat.pow_mul]
  refine (memLE_digit s.mem (a / 8 * 8) (Nat.mod_lt a (by decide))).trans ?_
  rw [Nat.div_add_mod']

noncomputable def withMem (s : State) (m : Memory) : State := { s with mem := m }

/-- The memory with one byte written. -/
noncomputable def memByte (m : Memory) (a : Nat) (b : Byte) : Memory :=
  memPut m (a / 8 * 8) 8 (withByte (word (memLE m (a / 8 * 8) 8)) (a % 8) b).toNat

theorem putByte_unserved {s : State} {a : Nat} (h : Unserved s a) (b : Byte) : putByte s a b = withMem s (memByte s.mem a b) := by
  obtain ⟨hsnoop, hmask⟩ := h
  unfold putByte putDw dwAt
  rw [hsnoop, hmask, BitVec.and_allOnes]
  rfl

theorem memGet_memByte (m : Memory) (a : Nat) (b : Byte) (x : Nat) : memGet (memByte m a b) x = if x = a then b else memGet m x := by
  have ha := Nat.div_add_mod' a 8
  have hx := Nat.div_add_mod' x 8
  by_cases h : x / 8 = a / 8
  · rw [h] at hx
    have hlt : x % 8 < 8 := Nat.mod_lt x (by decide)
    have hiff : x % 8 = a % 8 ↔ x = a := ⟨fun he => by rw [← hx, he, ha], fun he => by rw [he]⟩
    rw [← hx]
    unfold memByte
    rw [memGet_memPut_in _ _ _ hlt, hx]
    apply BitVec.eq_of_toNat_eq
    rw [BitVec.toNat_ofNat]
    refine (withByte_digit _ (Nat.mod_lt a (by decide)) b _).trans ?_
    rw [word_memLE_toNat, memLE_digit m _ hlt, hx]
    simp only [hiff]
    split
    · rfl
    · rfl
  · rw [if_neg fun he => h (by rw [he])]
    unfold memByte
    rw [memGet_memPut_out]
    rcases Nat.lt_or_gt_of_ne h with h | h
    · exact .inl ((Nat.div_lt_iff_lt_mul (by decide)).1 h)
    · exact .inr ((Nat.succ_mul ..).symm.trans_le ((Nat.le_div_iff_mul_le (by decide)).1 h))

/-- The memory after a write of `n` bytes from `a` on. -/
noncomputable def memBytes (m : Memory) (a : Nat) : Nat → Nat → Memory
  | 0, _ => m
  | n + 1, v => memBytes (memByte m a (BitVec.ofNat 8 v)) (a + 1) n (v / 256)

theorem memBytes_succ (m : Memory) (a n v : Nat) : memBytes m a (n + 1) v = memBytes (memByte m a (BitVec.ofNat 8 v)) (a + 1) n (v / 256) := rfl

theorem putN_succ (s : State) (a n v : Nat) : putN s a (n + 1) v = putN (putByte s a (BitVec.ofNat 8 v)) (a + 1) n (v / 256) := rfl

theorem putN_unserved {s : State} {a n : Nat} (v : Nat) (h : ∀ k, k < n → Unserved s (a + k)) :
    putN s a n v = withMem s (memBytes s.mem a n v) := by
  induction n generalizing s a v with
  | zero => rfl
  | succ n ih =>
    rw [putN_succ, putByte_unserved (a := a) (h 0 n.succ_pos)]
    refine ih (s := withMem s (memByte s.mem a (BitVec.ofNat 8 v))) _ fun k hk => ?_
    have hk := h (k + 1) (Nat.succ_lt_succ hk)
    rwa [← Nat.succ_add_eq_add_succ a k] at hk

theorem memGet_memBytes_out {m : Memory} {a n x : Nat} (v : Nat) (h : x < a ∨ a + n ≤ x) : memGet (memBytes m a n v) x = memGet m x := by
  induction n generalizing m a v with
  | zero => rfl
  | succ n ih =>
    have hne : x ≠ a := by
      rintro rfl
      exact h.elim (Nat.lt_irrefl x) fun h => absurd h (Nat.not_le.2 (Nat.lt_add_of_pos_right n.succ_pos))
    rw [memBytes_succ, ih _ (h.imp Nat.lt_succ_of_lt fun h => (Nat.succ_add_eq_add_succ a n).trans_le h), memGet_memByte, if_neg hne]

theorem memGet_memBytes_in (m : Memory) (a v : Nat) {n k : Nat} (h : k < n) :
    memGet (memBytes m a n v) (a + k) = BitVec.ofNat 8 (v / 256 ^ k) := by
  induction n generalizing m a v k with
  | zero => exact absurd h (Nat.not_lt_zero k)
  | succ n ih =>
    rw [memBytes_succ]
    cases k with
    | zero =>
      refine (memGet_memBytes_out (x := a) _ (.inl (Nat.lt_add_one a))).trans ?_
      rw [memGet_memByte, if_pos rfl, Nat.pow_zero, Nat.div_one]
    | succ k => rw [← Nat.succ_add_eq_add_succ a k, ih _ _ _ (Nat.lt_of_succ_lt_succ h), Nat.div_div_eq_div_mul, Nat.pow_succ']

/-! ### Slots, runs and the executing core -/

/-- No slot, run or stall has changed, the same core executes, and the tiles' watches and trigger tables are as before. -/
structure Steady (s t : State) : Prop where
  cur : t.cur = s.cur
  slots : ∀ c, (getCore t c).slots = (getCore s c).slots
  run : ∀ c, (getCore t c).run = (getCore s c).run
  wfi : ∀ c, (getCore t c).wfi = (getCore s c).wfi
  stall : ∀ c, (getCore t c).stall = (getCore s c).stall
  instret : ∀ c, (getCore t c).instret = (getCore s c).instret
  watches : ∀ n, (getTile t n).watches = (getTile s n).watches
  trigBase : ∀ n, (getTile t n).trigBase = (getTile s n).trigBase
  bindings : ∀ n, (getTile t n).bindings = (getTile s n).bindings
  procs : t.procs = s.procs

namespace Steady
variable {s t u : State}

theorem refl (s : State) : Steady s s :=
  ⟨rfl, fun _ => rfl, fun _ => rfl, fun _ => rfl, fun _ => rfl, fun _ => rfl, fun _ => rfl, fun _ => rfl, fun _ => rfl, rfl⟩

theorem trans (h₁ : Steady s t) (h₂ : Steady t u) : Steady s u :=
  ⟨h₂.cur.trans h₁.cur, fun c => (h₂.slots c).trans (h₁.slots c), fun c => (h₂.run c).trans (h₁.run c), fun c => (h₂.wfi c).trans (h₁.wfi c),
    fun c => (h₂.stall c).trans (h₁.stall c), fun c => (h₂.instret c).trans (h₁.instret c), fun n => (h₂.watches n).trans (h₁.watches n),
    fun n => (h₂.trigBase n).trans (h₁.trigBase n), fun n => (h₂.bindings n).trans (h₁.bindings n), h₂.procs.trans h₁.procs⟩

theorem of_quiet (q : Quiet s t) : Steady s t :=
  ⟨q.cur_eq, q.slots_eq, q.run_eq, q.wfi_eq, q.stall_eq, q.instret_eq, q.watches_eq, fun n => by rw [q.tile]; rfl,
    fun n => by rw [q.tile]; rfl, q.procs_eq⟩

/-- A change of what is neither a core nor a tile nor a process. -/
theorem of_core (hcur : t.cur = s.cur) (hcores : t.cores = s.cores) (htiles : t.tiles = s.tiles) (hprocs : t.procs = s.procs) : Steady s t := by
  have hc (c : Nat) := getCore_congr hcores c
  have ht (n : Nat) := getTile_congr htiles n
  exact ⟨hcur, fun c => by rw [hc], fun c => by rw [hc], fun c => by rw [hc], fun c => by rw [hc], fun c => by rw [hc], fun n => by rw [ht],
    fun n => by rw [ht], fun n => by rw [ht], hprocs⟩

theorem dropHeldAcc (s : State) (who : HeldBy) : Steady s (dropHeldAcc s who) where
  cur := dropHeldAcc_cur s who
  slots c := congrArg Core.slots (getCore_congr (dropHeldAcc_cores s who) c)
  run c := congrArg Core.run (getCore_congr (dropHeldAcc_cores s who) c)
  wfi c := congrArg Core.wfi (getCore_congr (dropHeldAcc_cores s who) c)
  stall c := congrArg Core.stall (getCore_congr (dropHeldAcc_cores s who) c)
  instret c := congrArg Core.instret (getCore_congr (dropHeldAcc_cores s who) c)
  watches n := by rw [getTile_dropHeldAcc_held]
  trigBase n := by rw [getTile_dropHeldAcc_held]
  bindings n := by rw [getTile_dropHeldAcc_held]
  procs := dropHeldAcc_procs s who

variable (h : Steady s t)
include h

theorem slotAt_eq (c i : Nat) : slotAt (getCore t c) i = slotAt (getCore s c) i := slotAt_congr (h.slots c) i

theorem holders_eq (c i : Nat) : holders (getCore t c) i = holders (getCore s c) i := by rw [holders, h.slotAt_eq, holders]

theorem slotOf_eq (c w : Nat) : slotOf (getCore t c) w = slotOf (getCore s c) w := slotOf_congr (h.holders_eq c) w

theorem slotReg_eq (c i n : Nat) : slotReg t c i n = slotReg s c i n := by rw [slotReg, h.slotAt_eq, slotReg]

theorem slotCsr_eq (c i n : Nat) : slotCsr t c i n = slotCsr s c i n := by rw [slotCsr, h.slotAt_eq, slotCsr]

theorem snoopOf_eq (a : Nat) : snoopOf t a = snoopOf s a := by simp only [snoopOf, residentOf_congr h.holders_eq, h.run]

theorem unserved {a : Nat} (hu : Unserved s a) : Unserved t a := by
  have hm : workMask t (a / 8 * 8) = workMask s (a / 8 * 8) := by simp only [workMask, getProc_congr h.procs]
  unfold Unserved
  rw [h.snoopOf_eq, hm]
  exact hu

/-- A byte reads as before where memory holds it as before. -/
theorem byteAt_eq {a : Nat} (hmem : memGet t.mem a = memGet s.mem a) : byteAt t a = byteAt s a := by
  cases hs : snoopOf s (a / 8 * 8) with
  | none => rw [byteAt_unserved hs, byteAt_unserved ((h.snoopOf_eq _).trans hs), hmem]
  | some x =>
    rw [byteAt, dwAt, h.snoopOf_eq, byteAt, dwAt, hs]
    cases x with
    | reg c i n => exact congrArg (fun v : Word => BitVec.ofNat 8 (v.toNat >>> (8 * (a % 8)))) (h.slotReg_eq c i n)
    | csr c i n => exact congrArg (fun v : Word => BitVec.ofNat 8 (v.toNat >>> (8 * (a % 8)))) (h.slotCsr_eq c i n)
    | resume c => simp only [h.run]

theorem slotBad_eq (a : Nat) : slotBad t a = slotBad s a := by simp only [slotBad, h.snoopOf_eq, h.slotAt_eq]

theorem uncorrectable_eq (hbad : t.bad = s.bad) (pa n : Nat) : uncorrectable t pa n = uncorrectable s pa n := by
  have hcode : codeBad t = codeBad s := funext fun a => by unfold codeBad; rw [h.slotBad_eq, hbad]
  unfold uncorrectable
  rw [hcode]

theorem issues {r : Running} (hi : Issues s r) : Issues t r := by
  refine ⟨?_, ?_⟩
  · have hr := hi.running
    simp only [issuer, h.cur, h.run, h.wfi, h.stall] at hr ⊢
    exact hr
  · rw [h.cur, h.slotOf_eq]
    exact hi.resident

theorem reg_eq {r : Running} (hi : Issues s r) (e : Reg) : reg t r e = reg s r e := by
  obtain ⟨i, hs⟩ := Option.isSome_iff_exists.1 hi.resident
  unfold reg
  rw [h.cur]
  unfold regRd
  rw [h.slotOf_eq, hs]
  simp only [h.slotReg_eq]

/-- An instruction that retires after changes elsewhere answers as before them. -/
theorem answers {r : Running} (hi : Issues s r) (d : Reg) (v : Word) : Answers s (finish t s.cur r d v) r d v := by
  have hu := regStep_finish (h.issues hi) d v
  rw [h.cur] at hu
  refine ⟨by rw [hu.frame.rest]; exact h.cur, hu.dest, hu.zero, fun e he => (hu.regs e he).trans (h.reg_eq hi e), hu.pc, hu.retired.trans ?_⟩
  unfold me
  rw [h.cur, h.instret]

theorem bytes_finish {r : Running} (hi : Issues s r) (d : Reg) (v : Word) : BytesBut t (finish t s.cur r d v) r d := by
  have hu := (regStep_finish (h.issues hi) d v).bytes
  rwa [h.cur] at hu

/-- A byte of memory itself reads as before after the end of an instruction. -/
theorem byteAt_finish {r : Running} (hi : Issues s r) (d : Reg) (v : Word) {a : Nat} (ha : snoopOf s (a / 8 * 8) = none) :
    byteAt (finish t s.cur r d v) a = memGet t.mem a := by
  have hrun : (getCore t s.cur).run = some r := (h.run _).trans (issuer_run hi.running)
  obtain ⟨i, hi⟩ := Option.isSome_iff_exists.1 hi.resident
  replace hi := (h.slotOf_eq s.cur r.wptr).trans hi
  obtain ⟨-, sl, hs, -⟩ := slotOf_spec hi
  have hf : Finished t (finish t s.cur r d v) s.cur r i sl (withReg sl d v) (r.pc + 4) := finish_finished hrun hi hs d v _
  have hsnoop : snoopOf (finish t s.cur r d v) (a / 8 * 8) = none := by
    rw [← ha, ← h.snoopOf_eq, snoopOf, residentOf_congr (finished_holders hf hs), residentOf_congr (finished_holders hf hs), snoopOf]
    generalize residentOf t (headBase (a / 8 * 8)) = x
    cases x with
    | none => rfl
    | some x =>
      by_cases hc : x.1 = s.cur
      · dsimp only
        rw [hc, hf.run, hrun]
      · dsimp only
        rw [hf.others _ hc]
  rw [byteAt_unserved hsnoop, hf.rest]

end Steady

theorem rdN_unserved {s : State} {a n : Nat} (h : ∀ k, k < n → Unserved s (a + k)) : rdN s a n = memLE s.mem a n := by
  induction n generalizing a with
  | zero => rfl
  | succ n ih =>
    rw [rdN_succ, memLE, byteAt_unserved (a := a) (h 0 n.succ_pos).1, ih fun k hk => ?_]
    rw [Nat.add_right_comm, Nat.add_assoc]
    exact h (k + 1) (Nat.succ_lt_succ hk)

theorem rdN_congr {s t : State} (h : ∀ a, byteAt t a = byteAt s a) (a n : Nat) : rdN t a n = rdN s a n := by
  induction n generalizing a with
  | zero => rfl
  | succ n ih => rw [rdN_succ, rdN_succ, h, ih]

/-- The bytes of an aligned access of a size that divides a doubleword lie in one. -/
theorem div_of_aligned {a n k : Nat} (hn : n ∣ 8) (ha : a % n = 0) (hk : k < n) : (a + k) / 8 = a / 8 := by
  obtain ⟨m, hm⟩ := hn
  obtain ⟨q, rfl⟩ := Nat.dvd_of_mod_eq_zero ha
  have hpos := Nat.zero_lt_of_lt hk
  rw [hm, ← Nat.div_div_eq_div_mul, ← Nat.div_div_eq_div_mul, Nat.mul_add_div hpos, Nat.div_eq_of_lt hk, Nat.add_zero, Nat.mul_div_cancel_left _ hpos]

theorem intervalRegion_congr {s t : State} (hmem : t.mem = s.mem) (hareas : t.areas = s.areas) (hregions : t.regions = s.regions) (n : Nat) :
    intervalRegion t n = intervalRegion s n := by
  have hf (r o hi lo : Nat) : rcbField t r o hi lo = rcbField s r o hi lo := by rw [rcbField, hw_congr hmem, rcbField]
  have hanc (k r : Nat) : ancestors t k r = ancestors s k r := by
    induction k generalizing r with
    | zero => rfl
    | succ k ih => rw [ancestors_succ, ancestors_succ, rcbParent, hf, ih]; rfl
  have hroot (r : Nat) : rootOrigin t r = rootOrigin s r := by
    simp only [rootOrigin, ancestorsOf, hanc, hareas, rcbParent, rcbOrgX, rcbOrgY, hf]
    rfl
  have htiles (r : Nat) : regionTiles t r = regionTiles s r := by
    simp only [regionTiles, mapWord, mapWordAddr, hroot, rcbPmap, rcbLW, rcbLH, hf, hmem]
  simp only [intervalRegion, htiles, hregions]

/-! ### Where an access stands when it reaches its home -/

/-- Checks, caches, held accesses and corrected errors are past, and nothing else has changed. -/
structure AtHome (s t : State) : Prop extends Steady s t where
  mem : t.mem = s.mem
  bad : t.bad = s.bad
  areas : t.areas = s.areas
  regions : t.regions = s.regions
  msgs : t.msgs = s.msgs

namespace AtHome
variable {s t u : State}

theorem trans (h₁ : AtHome s t) (h₂ : AtHome t u) : AtHome s u :=
  ⟨h₁.toSteady.trans h₂.toSteady, h₂.mem.trans h₁.mem, h₂.bad.trans h₁.bad, h₂.areas.trans h₁.areas, h₂.regions.trans h₁.regions,
    h₂.msgs.trans h₁.msgs⟩

theorem of_quiet (q : Quiet s t) : AtHome s t :=
  ⟨Steady.of_quiet q, q.mem_eq, q.bad_eq, q.areas_eq, q.regions_eq, q.msgs_eq⟩

theorem dropHeldAcc (s : State) (who : HeldBy) : AtHome s (dropHeldAcc s who) := by
  obtain ⟨ts, hts⟩ := dropHeldAcc_eq s who
  exact ⟨Steady.dropHeldAcc s who, by rw [hts], by rw [hts], by rw [hts], by rw [hts], by rw [hts]⟩

variable (h : AtHome s t)
include h

theorem byteAt_eq (a : Nat) : byteAt t a = byteAt s a := h.toSteady.byteAt_eq (by rw [h.mem])

theorem uncorrectable_eq (pa n : Nat) : uncorrectable t pa n = uncorrectable s pa n := h.toSteady.uncorrectable_eq h.bad pa n

theorem interval_eq (rg : Nat) : (getRegion t rg).interval = (getRegion s rg).interval := by rw [getRegion, h.regions, getRegion]

theorem unwatched {pa n : Nat} (hw : Unwatched s pa n) : Unwatched t pa n :=
  ⟨fun u hu => (intervalRegion_congr h.mem h.areas h.regions u).trans (hw.1 u hu), fun u hu => by rw [h.watches]; exact hw.2 u hu⟩

end AtHome

/-! ### A write at its home (R191, R203) -/

/-- Core `k` with the lines `l` in its first-level cache. -/
noncomputable def withLines (k : Core) (l : List Copy) : Core := { k with l1d := l }

/-- The core of entry `i` after the directory of tile `t` has invalidated its lines. -/
noncomputable def dropLines (t pa n i : Nat) (k : Core) : Core :=
  if segOf (coreTile i) == segOf t then withLines k (k.l1d.filter fun x => decide (x.addr + 32 ≤ pa) || decide (pa + n ≤ x.addr)) else k

/-- What a change of every core keeps of each is as before. -/
theorem field_of_map (s : State) {α : Type} {f : Nat → Core → Core} {p : Core → α} (hp : ∀ c k, p (f c k) = p k) (c : Nat) :
    p ((amGet (s.cores.map fun e => (e.1, f e.1 e.2)) c).getD Core.reset) = p (getCore s c) := by
  rw [amGet_map]
  unfold getCore
  cases amGet s.cores c with
  | none => rfl
  | some k => exact hp c k

theorem steady_of_map {s t : State} {f : Nat → Core → Core}
    (ht : t = { s with cores := s.cores.map fun e => (e.1, f e.1 e.2), l2 := t.l2, chanWords := t.chanWords })
    (hf : ∀ c k, ∃ d i, f c k = { k with l1d := d, l1i := i }) : Steady s t := by
  have hfield {α : Type} {p : Core → α} (hp : ∀ k d i, p { k with l1d := d, l1i := i } = p k) (c : Nat) : p (getCore t c) = p (getCore s c) := by
    rw [ht]
    refine field_of_map s (fun c k => ?_) c
    obtain ⟨d, i, h⟩ := hf c k
    rw [h]
    exact hp k d i
  have htiles (n : Nat) : getTile t n = getTile s n := getTile_congr (by rw [ht]) n
  exact ⟨by rw [ht], hfield fun _ _ _ => rfl, hfield fun _ _ _ => rfl, hfield fun _ _ _ => rfl, hfield fun _ _ _ => rfl, hfield fun _ _ _ => rfl,
    fun n => by rw [htiles], fun n => by rw [htiles], fun n => by rw [htiles], by rw [ht]⟩

theorem steady_dirInvalidate (s : State) (pa n : Nat) :
    Steady s (dirInvalidate s pa n) ∧ (dirInvalidate s pa n).mem = s.mem ∧ (dirInvalidate s pa n).bad = s.bad := by
  unfold dirInvalidate
  split
  · next t _ =>
    split
    · refine ⟨steady_of_map (f := dropLines t pa n) rfl fun c k => ?_, rfl, rfl⟩
      unfold dropLines
      split
      · exact ⟨_, _, rfl⟩
      · exact ⟨_, _, rfl⟩
    · exact ⟨Steady.refl s, rfl, rfl⟩
  · exact ⟨Steady.refl s, rfl, rfl⟩

section Write
variable {s : State} {pa n : Nat}

theorem codeBad_of_uncorrectable (hbad : uncorrectable s pa n = false) : ∀ a ∈ codesOf pa n, codeBad s a = false :=
  fun a ha => Bool.eq_false_iff.2 (List.any_eq_false.1 hbad a ha)

/-- Where no word is uncorrectable, the check codes of a write change bookkeeping and the lists of codes alone. -/
theorem steady_writeCodes (hbad : uncorrectable s pa n = false) : Steady s (writeCodes s pa n) ∧ (writeCodes s pa n).mem = s.mem := by
  have hfold (l : List Nat) (hl : ∀ a ∈ l, codeBad s a = false) (u : State) (hu : Quiet s u) :
      Quiet s (l.foldl (fun s a => if codeBad s a then countMerge s a else countCorrected s a (codeUnit pa)) u) := by
    induction l generalizing u with
    | nil => exact hu
    | cons a l ih =>
      have ha : codeBad u a = false := by
        unfold codeBad
        rw [hu.slotBad_eq, hu.bad_eq]
        exact hl a List.mem_cons_self
      rw [List.foldl_cons, ha]
      exact ih (fun b hb => hl b (List.mem_cons_of_mem _ hb)) _ (hu.trans (Quiet.countCorrected _ _ _))
  unfold writeCodes
  have hq := hfold ((codesOf pa n).filter fun a => !(decide (pa ≤ a) && decide (a + codeUnit pa ≤ pa + n)))
    (fun a ha => codeBad_of_uncorrectable hbad a (List.mem_of_mem_filter ha)) s (Quiet.refl s)
  exact ⟨(Steady.of_quiet hq).trans (Steady.of_core rfl rfl rfl rfl),
    hq.mem_eq⟩

theorem undoLog_unlogged (h : ∀ t, undoTile pa = some t → intervalRegion s t = none) : undoLog s pa n = s := by
  unfold undoLog
  split
  · next t ht => rw [h t ht]
  · rfl

theorem sendNotices_unwatched (h : ∀ t, homeTile pa = some t → ∀ w ∈ (getTile s t).watches, w.pa + w.len ≤ pa ∨ pa + n ≤ w.pa) (rel : Bool) :
    sendNotices s pa n rel = s := by
  unfold sendNotices
  split
  · next t ht =>
    have hw := h t ht
    generalize (getTile s t).watches = l at hw ⊢
    induction l with
    | nil => rfl
    | cons w l ih =>
      have hout : (decide (w.pa < pa + n) && decide (pa < w.pa + w.len)) = false := by
        rcases hw w List.mem_cons_self with h | h
        · rw [decide_eq_false (Nat.not_lt.2 h), Bool.and_false]
        · rw [decide_eq_false (Nat.not_lt.2 h), Bool.false_and]
      rw [List.foldl_cons, hout]
      exact ih fun x hx => hw x (List.mem_cons_of_mem _ hx)
  · rfl

/-- The check codes of a write after the directory's invalidations. -/
noncomputable def readied (s : State) (pa n : Nat) : State := writeCodes (dirInvalidate (endOld s pa n) pa n) pa n

/-- The bytes of a write, with the words that it leaves poisoned. -/
noncomputable def placed (s : State) (pa n v : Nat) : State := (spoiledParts s pa n).foldl spoilSlot (putN s pa n v)

/-- The words of releases after a write. -/
noncomputable def released (s : State) (pa n : Nat) (rel : Bool) : State :=
  let old := s.rels.filter fun a => n == 0 || decide (a + 8 ≤ pa) || decide (pa + n ≤ a)
  { s with rels := if rel then setInsert old (pa / 8 * 8) else old }

theorem performWrite_eq (hn : 0 < n) (s : State) (pa v rg : Nat) (rel : Bool) : performWrite s pa n v none rel rg =
    sendNotices (released (placed (readied (undoLog (intervalTouch s rg pa) pa n) pa n) pa n v) pa n rel) pa n rel := by
  obtain ⟨n, rfl⟩ := Nat.exists_eq_succ_of_ne_zero hn.ne'
  rfl

theorem steady_readied (hbad : uncorrectable s pa n = false) : Steady s (readied s pa n) ∧ (readied s pa n).mem = s.mem := by
  have hold : Steady s (endOld s pa n) := Steady.of_core rfl rfl rfl rfl
  obtain ⟨hdir, hdirMem, hdirBad⟩ := steady_dirInvalidate (endOld s pa n) pa n
  replace hdir := hold.trans hdir
  obtain ⟨hcodes, hcodesMem⟩ := steady_writeCodes ((hdir.uncorrectable_eq hdirBad pa n).trans hbad)
  exact ⟨hdir.trans hcodes, hcodesMem.trans hdirMem⟩

theorem spoiledParts_nil {w : State} (h : Steady s w) (hbad : uncorrectable s pa n = false) : spoiledParts w pa n = [] := by
  unfold spoiledParts
  rw [List.filter_eq_nil_iff]
  intro a ha hslot
  have hgood := codeBad_of_uncorrectable hbad a ha
  rw [h.slotBad_eq, Bool.and_eq_true, beq_iff_eq] at hslot
  unfold codeBad at hgood
  rw [hslot.1] at hgood
  cases hgood

/-- A write performed at its home writes its bytes there and leaves all other memory, every slot and every run. -/
theorem performWrite_unserved (hn : 0 < n) (hun : ∀ k, k < n → Unserved s (pa + k)) (hwatch : Unwatched s pa n) {rg : Nat}
    (hint : (getRegion s rg).interval = none) (hbad : uncorrectable s pa n = false) (v : Nat) (rel : Bool) :
    Steady s (performWrite s pa n v none rel rg) ∧ (performWrite s pa n v none rel rg).mem = memBytes s.mem pa n v := by
  have htouch : intervalTouch s rg pa = s := by unfold intervalTouch; rw [hint]; rfl
  rw [performWrite_eq hn, htouch, undoLog_unlogged hwatch.1]
  obtain ⟨hw, hmem⟩ := steady_readied hbad
  generalize readied s pa n = w at hw hmem
  unfold placed
  rw [spoiledParts_nil hw hbad, List.foldl_nil, putN_unserved v fun k hk => hw.unserved (hun k hk), hmem]
  have hx : Steady s (released (withMem w (memBytes s.mem pa n v)) pa n rel) := hw.trans (Steady.of_core rfl rfl rfl rfl)
  have hsend := sendNotices_unwatched (s := released (withMem w (memBytes s.mem pa n v)) pa n rel) (pa := pa) (n := n)
    (fun t ht => by rw [hx.watches]; exact hwatch.2 t ht) rel
  rw [hsend]
  exact ⟨hx, rfl⟩

end Write

end Sys2Proof.Machine
end

section
/-! SUPPORT. Atomics at their home (R210, R211, R213). -/

-- Proofs are elaborated one after another: side by side they would need more memory than a check has.
set_option Elab.async false

namespace Sys2Proof.Machine

open Sys2Proof.Claims

/-! ### The value of each operation (R210) -/

/-- On values of `n` bytes the operation gives a new value of the relation, and one that it does not write is the old one. -/
def AmoSpec (fn : AmoFn) (rel : Nat → Nat → Nat → Nat → Nat → Prop) : Prop :=
  ∀ n old b e, rel n old b e (amoValue fn (8 * n) old b e).1 ∧ ((amoValue fn (8 * n) old b e).2 = false → (amoValue fn (8 * n) old b e).1 = old)

/-- What `amoOf` names is an atomic of one operation, with its reach and its value. -/
def IsAmo (i : Instr) (p : AmoForm × Reg × Bool × (Nat → Nat → Nat → Nat → Nat → Prop)) : Prop :=
  ∃ fn code, (∀ s, exec i s = amoInstr fn code p.1 p.2.1 s) ∧ amoToHost fn p.1.trig = (!p.1.trig && p.2.2.1) ∧ AmoSpec fn p.2.2.2

theorem ite_cases {P : Nat → Prop} {c : Prop} [Decidable c] {x y : Nat} (hx : c → P x) (hy : ¬c → P y) : P (if c then x else y) := by
  split
  · next h => exact hx h
  · next h => exact hy h

theorem true_ne_false {P : Prop} (h : true = false) : P := Bool.noConfusion h

theorem exec_amo (i : Instr) : (amoOf i).elim True (IsAmo i) := by
  induction i with
  | amoSwap f => exact ⟨.swap, 0, fun _ => rfl, (Bool.and_true _).symm ▸ Bool.and_true _, fun _ _ _ _ => ⟨rfl, true_ne_false⟩⟩
  | amoAdd f =>
    refine ⟨.add, 1, fun _ => rfl, rfl, fun n old b e => ⟨?_, true_ne_false⟩⟩
    exact congrArg ((old + b) % ·) (Nat.pow_mul ..)
  | amoAnd f => exact ⟨.and, 2, fun _ => rfl, rfl, fun n old b e => ⟨fun k => Nat.testBit_and .., true_ne_false⟩⟩
  | amoOr f => exact ⟨.or, 3, fun _ => rfl, rfl, fun n old b e => ⟨fun k => Nat.testBit_or .., true_ne_false⟩⟩
  | amoXor f => exact ⟨.xor, 4, fun _ => rfl, rfl, fun n old b e => ⟨fun k => Nat.testBit_xor .., true_ne_false⟩⟩
  | amoMin f =>
    exact ⟨.min, 5, fun _ => rfl, rfl, fun n old b e => ⟨ite_cases (fun h => ⟨.inl rfl, Int.le_refl _, h⟩)
      fun h => ⟨.inr rfl, (Int.not_le.1 h).le, Int.le_refl _⟩, true_ne_false⟩⟩
  | amoMax f =>
    exact ⟨.max, 6, fun _ => rfl, rfl, fun n old b e => ⟨ite_cases (fun h => ⟨.inl rfl, Int.le_refl _, h⟩)
      fun h => ⟨.inr rfl, (Int.not_le.1 h).le, Int.le_refl _⟩, true_ne_false⟩⟩
  | amoMinu f => exact ⟨.minu, 7, fun _ => rfl, rfl, fun n old b e => ⟨Nat.min_def.symm, true_ne_false⟩⟩
  | amoMaxu f =>
    exact ⟨.maxu, 8, fun _ => rfl, rfl, fun n old b e => ⟨ite_cases (P := (· = max old b)) (fun h => (Nat.max_eq_left h).symm)
      fun h => (Nat.max_eq_right (Nat.le_of_not_ge h)).symm, true_ne_false⟩⟩
  | amoCas f x =>
    refine ⟨.cas, 9, fun _ => rfl, rfl, fun n old b e => ?_⟩
    have hv : amoValue .cas (8 * n) old b e = if old = e then (b, true) else (old, false) := rfl
    rw [hv]
    split
    · next h => exact ⟨(if_pos h).symm, true_ne_false⟩
    · next h => exact ⟨(if_neg h).symm, fun _ => rfl⟩
  | _ => exact trivial

/-! ### One step at the home (R211) -/

/-- The write of an atomic, where it writes. -/
noncomputable def amoWrites (s : State) (pa n rg : Nat) (rel : Bool) (x : Nat × Bool) : State :=
  if x.2 then performWrite s pa n x.1 none rel rg else s

/-- What an atomic does after its write: triggers, copies, the router's count and the acquire. -/
noncomputable def amoAfter (s : State) (c pa : Nat) (fires acq : Bool) : State :=
  let s := if fires then fireTriggers s pa else s
  let s := dropOwnCopies s c pa
  let s := match homeTile pa with | some t => noteMsg s c t | none => s
  if acq then acquireDone s c .panel else s

theorem amoAtHome_eq (fn : AmoFn) (f : AmoForm) (x : Reg) (s : State) (c : Nat) (r : Running) (pa n : Nat) :
    ∃ u v, u = correctAt s c pa n ∧
      v = amoValue fn (8 * n) (rdN u pa n) ((src u c r f.b).toNat % 2 ^ (8 * n)) ((src u c r x).toNat % 2 ^ (8 * n)) ∧
      amoAtHome fn f x s c r pa n = finish (amoAfter (amoWrites u pa n r.rcb (ordRel f.ord) v) c pa (f.trig && v.2 && v.1 == 0) (ordAcq f.ord))
        c r f.d (extendN true n (rdN u pa n)) :=
  ⟨_, _, rfl, rfl, rfl⟩

theorem quiet_amoAfter {s : State} {pa : Nat} {fires : Bool}
    (h : fires = true → ∀ t, homeTile pa = some t → bit (getTile s t).trigBase 0 = false) (c : Nat) (acq : Bool) :
    Quiet s (amoAfter s c pa fires acq) := by
  have hfire : (if fires then fireTriggers s pa else s) = s := by
    split
    · next hf =>
      unfold fireTriggers
      split
      · next t ht => rw [trigMatches, h hf t ht]; rfl
      · rfl
    · rfl
  unfold amoAfter
  rw [hfire]
  refine (Quiet.dropOwnCopies s c pa).trans (Quiet.trans (t := match homeTile pa with
    | some t => noteMsg (dropOwnCopies s c pa) c t
    | none => dropOwnCopies s c pa) ?_ (Quiet.of_ite (Quiet.acquireDone _ c .panel) (Quiet.refl _)))
  split
  · exact Quiet.noteMsg _ c _
  · exact Quiet.refl _

/-- The bytes of memory after an atomic. -/
theorem amoWrites_unserved {s : State} {pa n rg : Nat} (hn : 0 < n) (hun : ∀ k, k < n → Unserved s (pa + k)) (hwatch : Unwatched s pa n)
    (hint : (getRegion s rg).interval = none) (hbad : uncorrectable s pa n = false) (rel : Bool) {x : Nat × Bool}
    (hx : x.2 = false → x.1 = rdN s pa n) :
    Steady s (amoWrites s pa n rg rel x) ∧ (∀ k, k < n → memGet (amoWrites s pa n rg rel x).mem (pa + k) = BitVec.ofNat 8 (x.1 / 256 ^ k)) ∧
      ∀ a, a < pa ∨ pa + n ≤ a → memGet (amoWrites s pa n rg rel x).mem a = memGet s.mem a := by
  obtain ⟨v, w⟩ := x
  cases w with
  | true =>
    obtain ⟨hs, hm⟩ := performWrite_unserved hn hun hwatch hint hbad v rel
    refine ⟨hs, fun k hk => ?_, fun a ha => ?_⟩
    · exact (congrArg (memGet · _) hm).trans (memGet_memBytes_in _ _ _ hk)
    · exact (congrArg (memGet · _) hm).trans (memGet_memBytes_out _ ha)
  | false =>
    refine ⟨Steady.refl s, fun k hk => BitVec.eq_of_toNat_eq ?_, fun _ _ => rfl⟩
    rw [hx rfl, rdN_unserved hun]
    exact (memLE_digit s.mem pa hk).symm

/-! ### The instruction (R210) -/

theorem Quiet.portHolds_eq {s t : State} (q : Quiet s t) (pa n : Nat) (who : HeldBy) (sm : Bool) :
    portHolds t pa n who sm = portHolds s pa n who sm := by
  have hguards (n : Nat) : (getTile t n).guards = (getTile s n).guards := by rw [q.tile]; rfl
  have htransfers : t.transfers = s.transfers := by rw [q.rest]
  have hjob (k : Nat) : jobAt t k = jobAt s k := by rw [jobAt, getQueue, q.queues_eq]; rfl
  have hmid (a m : Nat) : midInstr t a m = midInstr s a m := by unfold midInstr; simp only [q.run_eq, q.stall_eq]
  have hmove (b : HeldBy) : moveExempt t b = moveExempt s b := by
    cases b with
    | move w => funext g; unfold moveExempt; simp only [htransfers, hjob]
    | _ => rfl
  have hguard (a m : Nat) (b : HeldBy) (sm : Bool) : guardHoldsFor t a m b sm = guardHoldsFor s a m b sm := by
    unfold guardHoldsFor guardHoldsBut
    simp only [hmove, hmid, hguards, hjob]
  unfold portHolds heldBefore
  simp only [hguard, q.held_eq]

/-- With no store outstanding, an atomic whose checks pass and that no port holds takes its step at the home. -/
theorem amoInstr_home {s s1 : State} {r : Running} {fn : AmoFn} {code : Nat} {f : AmoForm} {x : Reg} {pa : Nat} {nc : Bool} (h : Issues s r)
    (hchk : memCheck s s.cur r (reg s r f.a) (sizeBytes f.size) .write (.amo (amoToHost fn f.trig)) false = (s1, .ok pa nc)) (hsp : spaceOf pa = 0)
    (hbuf : (me s).sbuf = []) (hj : (me s).journal = []) (hport : portHolds s pa (sizeBytes f.size) (.instr s.cur) r.sm = false)
    (hbad : uncorrectable s pa (sizeBytes f.size) = false) :
    amoInstr fn code f x s = .next (amoAtHome fn f x (dropHeldAcc s1 (.instr s.cur)) s.cur r pa (sizeBytes f.size)) := by
  have q := (memCheck_quiet hchk).1
  replace hbuf := (q.sbuf_eq s.cur).trans hbuf
  replace hj := (q.journal_eq s.cur).trans hj
  have hport := (q.portHolds_eq pa (sizeBytes f.size) (.instr s.cur) r.sm).trans hport
  have hbad : uncorrectable (dropHeldAcc s1 (.instr s.cur)) pa (sizeBytes f.size) = false := by
    rw [(AtHome.dropHeldAcc s1 _).uncorrectable_eq, q.uncorrectable_eq, hbad]
  have hsrc : src s s.cur r f.a = reg s r f.a := rfl
  unfold amoInstr
  rw [onCore_issues h]
  unfold access releaseWait refusedIn unackedIn segStoresDone ownStoresOver atPort
  simp only [hsrc, hchk, hbuf, hj, hport, hbad, hsp, List.isEmpty_nil, List.any_nil, List.find?_nil, Bool.not_true, Bool.not_false,
    Bool.or_self, Bool.false_eq_true, ↓reduceIte, ite_self, Nat.reduceBEq]

/-- Settles O11: what `amoOf` names is an atomic (`exec_amo`), which takes its step at the home (`amoInstr_home`); there it reads, writes
(`amoWrites_unserved`), and what follows changes bookkeeping alone (`quiet_amoAfter`). -/
theorem atomicResults : Obligations.AtomicResults := by
  unfold Obligations.AtomicResults
  intro i f x host rel hi s r s1 pa nc h hchk hsp hbuf hj hport hbad hal htrig hsnoop hmask hwatch hint
  have hamo := exec_amo i
  rw [hi] at hamo
  obtain ⟨fn, code, hexec, hreach, hspec⟩ := hamo
  simp only [bytesOfSize_eq] at *
  rw [← hreach] at hchk
  have hpos := sizeBytes_pos f.size
  have hdvd : sizeBytes f.size ∣ 8 := by cases f.size <;> decide
  obtain ⟨u, v, hu, hv, he⟩ := amoAtHome_eq fn f x (dropHeldAcc s1 (.instr s.cur)) s.cur r pa (sizeBytes f.size)
  have hat : AtHome s u := hu ▸ ((AtHome.of_quiet (memCheck_quiet hchk).1).trans (.dropHeldAcc ..)).trans (.of_quiet (.correctAt ..))
  have hold : rdN u pa (sizeBytes f.size) = rdN s pa (sizeBytes f.size) := rdN_congr hat.byteAt_eq pa (sizeBytes f.size)
  have hb : src u s.cur r f.b = reg s r f.b := (congrArg (regRd u · r.wptr f.b) hat.cur).symm.trans (hat.reg_eq h f.b)
  have hx : src u s.cur r x = reg s r x := (congrArg (regRd u · r.wptr x) hat.cur).symm.trans (hat.reg_eq h x)
  have hun (k : Nat) (hk : k < sizeBytes f.size) : Unserved s (pa + k) := by
    unfold Unserved
    rw [div_of_aligned hdvd hal hk]
    exact ⟨hsnoop, hmask⟩
  rw [hold, hb, hx, Nat.pow_mul] at hv
  obtain ⟨hval, hkeep⟩ := hspec (sizeBytes f.size) (rdN s pa (sizeBytes f.size)) ((reg s r f.b).toNat % 256 ^ sizeBytes f.size)
    ((reg s r x).toNat % 256 ^ sizeBytes f.size)
  have hxv : v.2 = false → v.1 = rdN u pa (sizeBytes f.size) := fun hw =>
    (congrArg Prod.fst hv).trans ((hkeep ((congrArg Prod.snd hv).symm.trans hw)).trans hold.symm)
  obtain ⟨hw, hin, hout⟩ := amoWrites_unserved hpos (fun k hk => hat.unserved (hun k hk)) (hat.unwatched hwatch)
    ((hat.interval_eq r.rcb).trans hint) ((hat.uncorrectable_eq pa (sizeBytes f.size)).trans hbad) (ordRel f.ord) hxv
  have hfires : (f.trig && v.2 && v.1 == 0) = true → ∀ t, homeTile pa = some t →
      bit (getTile (amoWrites u pa (sizeBytes f.size) r.rcb (ordRel f.ord) v) t).trigBase 0 = false := by
    intro hf t ht
    rw [hw.trigBase, hat.trigBase]
    exact htrig t ht (Bool.and_eq_true_iff.1 (Bool.and_eq_true_iff.1 hf).1).1
  have q := quiet_amoAfter hfires s.cur (ordAcq f.ord)
  have hsteady := (hat.toSteady.trans hw).trans (Steady.of_quiet q)
  refine ⟨_, _, v.1, (hexec s).trans ((amoInstr_home h hchk hsp hbuf hj hport hbad).trans (congrArg _ he)),
    hsteady.answers h f.d _, ?_, ?_, fun k hk => ?_, fun a ha h0 hd => ?_⟩
  · rw [hold, extendN_signed, bytesOfSize_eq]
  · rw [hv]
    exact hval
  · rw [hsteady.byteAt_finish h _ _ (hun k hk).1, q.mem_eq, hin k hk, BitVec.toNat_ofNat]
  · rw [hsteady.bytes_finish h _ _ a h0 hd]
    exact hsteady.byteAt_eq (by rw [q.mem_eq, hout a ha, hat.mem])

end Sys2Proof.Machine
end

section
/-! SUPPORT. Setting channels up and clearing them (R242, R244, R254, R255). -/

-- Proofs are elaborated one after another: side by side they would need more memory than a check has.
set_option Elab.async false

namespace Sys2Proof.Machine

open Sys2Proof.Claims

/-! ### What a write at its home reads back as -/

theorem memLE_of_digits {m : Memory} {a n v : Nat} (h : ∀ k, k < n → memGet m (a + k) = BitVec.ofNat 8 (v / 256 ^ k)) :
    memLE m a n = v % 256 ^ n := by
  induction n generalizing a v with
  | zero => exact (Nat.mod_one v).symm
  | succ n ih =>
    have htail : memLE m (a + 1) n = v / 256 % 256 ^ n := ih fun k hk => by
      rw [Nat.succ_add_eq_add_succ a k, h _ (Nat.succ_lt_succ hk), Nat.pow_succ', Nat.div_div_eq_div_mul]
    have hhead := h 0 n.succ_pos
    rw [Nat.add_zero, Nat.pow_zero, Nat.div_one] at hhead
    rw [memLE, htail, hhead, Nat.pow_succ', Nat.mod_mul]
    rfl

theorem hw_memBytes {s : State} {m : Memory} {pa v : Nat} (hm : s.mem = memBytes m pa 8 v) : hw s pa = word v := by
  apply BitVec.eq_of_toNat_eq
  unfold hw
  rw [hm, word_memLE_toNat, memLE_of_digits fun k hk => memGet_memBytes_in m pa v hk]
  exact (BitVec.toNat_ofNat v 64).symm

namespace Steady
variable {s t : State} (h : Steady s t) {r : Running}
include h

theorem finish_rest (hi : Issues s r) (d : Reg) (v : Word) :
    (finish t s.cur r d v).mem = t.mem ∧ (finish t s.cur r d v).tiles = t.tiles := by
  have hu := (regStep_finish (h.issues hi) d v).frame.rest
  rw [h.cur] at hu
  exact ⟨by rw [hu], by rw [hu]⟩

end Steady

/-! ### The word of an idle channel (R241, R242) -/

section Idle
variable {v : Word} (hgood : chanMalformed v = false) (hhead : chanHead v = 0)

include hgood hhead in
theorem chanSt_idle : chanSt v = 0 := by
  by_contra h
  rw [chanMalformed, hhead, show (chanSt v != 0) = true from bne_iff_ne.2 h] at hgood
  simp at hgood

theorem setBits_same {hi lo : Nat} (h : bits v hi lo = 0) : setBits v hi lo 0 = v := by
  rw [setBits, h, Nat.zero_mul, Nat.zero_mod, Nat.zero_mul]
  exact BitVec.ofNat_toNat 64 v

/-- What is left of a word once its waiters and its LOST bit are cleared: whether it is bound. -/
noncomputable def boundBit (v : Word) : Word := setBits (setBits (setBits v 63 62 0) 51 0 0) 61 61 0 &&& (1 <<< 60)

include hgood hhead in
theorem bit_boundBit : bit (boundBit v) 60 = bit v 60 := by
  have hst : setBits v 63 62 0 = v := setBits_same (chanSt_idle hgood hhead)
  have hlow : setBits v 51 0 0 = v := setBits_same hhead
  have hdiv (x : Nat) : x / 2 ^ 60 % 2 = x % 2 ^ 61 / 2 ^ 60 := (Nat.mod_mul_right_div_self x (2 ^ 60) 2).symm
  unfold boundBit
  rw [hst, hlow]
  unfold bit
  rw [BitVec.getLsbD_and]
  refine (Bool.and_true _).trans ?_
  rw [BitVec.getLsbD, BitVec.getLsbD, Nat.testBit_eq_decide_div_mod_eq, Nat.testBit_eq_decide_div_mod_eq, hdiv, hdiv]
  have hle : bits v 61 61 * 2 ^ 61 ≤ v.toNat := by
    unfold bits
    rw [Nat.shiftRight_eq_div_pow]
    exact (Nat.mul_le_mul_right _ (Nat.mod_le _ _)).trans (Nat.div_mul_le_self _ _)
  rw [setBits, Nat.zero_mod, Nat.zero_mul, Nat.add_zero, BitVec.toNat_ofNat, Nat.mod_eq_of_lt ((Nat.sub_le _ _).trans_lt v.isLt),
    Nat.mul_comm, Nat.sub_mul_mod ((Nat.mul_comm ..).trans_le hle)]

theorem boundBit_rest : chanLost (boundBit v) = false ∧ chanHead (boundBit v) = 0 := by
  have hone (k : Nat) : (boundBit v).toNat.testBit k = (_ && (2 ^ 60 : Nat).testBit k) := Nat.testBit_and ..
  refine ⟨(hone 61).trans (Bool.and_false _), Nat.eq_of_testBit_eq fun k => ?_⟩
  unfold chanHead bits
  rw [Nat.shiftRight_zero, Nat.testBit_mod_two_pow, hone, Nat.zero_testBit, Nat.testBit_two_pow]
  by_cases hk : k < 52
  · rw [decide_eq_false (show 60 ≠ k from (Nat.lt_trans hk (by decide)).ne'), Bool.and_false, Bool.and_false]
  · rw [decide_eq_false (show ¬k < 51 + 1 - 0 from hk), Bool.false_and]

end Idle

/-! ### The channel's address and its word at home (R244, R245) -/

/-- A core without its copies of a range. -/
noncomputable def dropRange (lo n _core : Nat) (k : Core) : Core :=
  let keep (x : Copy) : Bool := decide (x.addr + x.bytes.length ≤ lo) || decide (lo + n ≤ x.addr)
  { k with l1d := k.l1d.filter keep, l1i := k.l1i.filter keep }

theorem atHome_asChannel (s : State) (pa : Nat) : AtHome s (asChannel s pa) := by
  unfold asChannel
  split
  · exact AtHome.of_quiet (Quiet.refl s)
  · exact ⟨steady_of_map (f := dropRange pa 8) rfl fun _ _ => ⟨_, _, rfl⟩, rfl, rfl, rfl, rfl, rfl⟩

theorem channelAddr_ok {s : State} {c pa : Nat} {nc : Bool} {r : Running} {ea : Word}
    (hchk : memCheck s c r ea 8 .write .block false = (s, .ok pa nc)) (hsp : spaceOf pa = 0) (k : State → Nat → State) :
    channelAddr s c r ea k = k s pa := by
  unfold channelAddr
  simp only [hchk, hsp, BEq.rfl, ↓reduceIte]

theorem wordHeld_congr {s t : State} (h : t.msgs = s.msgs) (pa : Nat) : wordHeld t pa = wordHeld s pa := by rw [wordHeld, h, wordHeld]

/-! ### CHINIT (R254) -/

section Word
variable {s u : State} {r : Running} {pa : Nat}

theorem newBindings_mem {l l' : List Binding} {wr rd : Nat} (h : newBindings l pa wr rd = some l') : ⟨pa, wr, rd⟩ ∈ l' ↔ ¬(wr = 0 ∧ rd = 0) := by
  rw [newBindings] at h
  by_cases h0 : wr = 0 ∧ rd = 0
  · obtain ⟨rfl, rfl⟩ := h0
    obtain rfl := Option.some.inj h
    refine iff_of_false (fun hm => ?_) (not_not_intro ⟨rfl, rfl⟩)
    have hne : (pa != pa) = true := (List.mem_filter.1 hm).2
    exact bne_iff_ne.1 hne rfl
  · have hb : (wr == 0 && rd == 0) = false := by
      rw [Bool.eq_false_iff, ne_eq, Bool.and_eq_true, beq_iff_eq, beq_iff_eq]
      exact h0
    rw [hb] at h
    refine iff_of_true ?_ h0
    split at h
    · next hf => cases hf
    · split at h
      · obtain rfl := Option.some.inj h
        exact List.mem_cons_self
      · cases h

variable (hi : Issues s r) (hbad : uncorrectable s pa 8 = false) (hgood : chanMalformed (hw s pa) = false)

include hi hbad hgood in
/-- CHINIT of a word with a waiter answers 1. -/
theorem chinitAt_waited (hat : AtHome s u) (hhead : chanHead (hw s pa) ≠ 0) (d : Reg) (wr rd t : Nat) :
    Answers s (chinitStep.chinitAt u s.cur r d pa wr rd (hw s pa) t) r d 1 ∧
      (chinitStep.chinitAt u s.cur r d pa wr rd (hw s pa) t).mem = s.mem := by
  have hne : (chanHead (hw s pa) != 0) = true := bne_iff_ne.2 hhead
  have he : chinitStep.chinitAt u s.cur r d pa wr rd (hw s pa) t = finish u s.cur r d 1 := by
    unfold chinitStep.chinitAt
    rw [hat.uncorrectable_eq, hbad, hgood, hne]
    rfl
  rw [he]
  exact ⟨hat.toSteady.answers hi d 1, (hat.finish_rest hi d 1).1.trans hat.mem⟩

/-- A new binding table for a tile. -/
noncomputable def withBindings (l : List Binding) (k : Tile) : Tile := { k with bindings := l }

variable (hsp : spaceOf pa = 0) (hun : ∀ k, k < 8 → Unserved s (pa + k)) (hwatch : Unwatched s pa 8)

include hi hbad hgood hsp hun hwatch in
/-- CHINIT of a word without waiters writes the bound bit alone and the new binding. -/
theorem chinitAt_idle (hint : (getRegion s r.rcb).interval = none) (hat : AtHome s u) (hhead : chanHead (hw s pa) = 0) (d : Reg) {wr rd : Nat}
    {l : List Binding} (hl : newBindings (getTile s (pa / tlmWindow)).bindings pa wr rd = some l) :
    ∃ t, chinitStep.chinitAt u s.cur r d pa wr rd (hw s pa) (pa / tlmWindow) = t ∧ Answers s t r d 0 ∧ (getTile t (pa / tlmWindow)).bindings = l ∧
      hw t pa = word (if wr == 0 && rd == 0 then 0 else 2 ^ 60) := by
  have hne : (chanHead (hw s pa) != 0) = false := by rw [hhead]; rfl
  have hlog : logBinding u (pa / tlmWindow) pa = u := by
    have hu := (hat.unwatched hwatch).1 (pa / tlmWindow) (by unfold undoTile; rw [hsp]; rfl)
    unfold logBinding undoTable
    rw [hu]
  obtain ⟨w, hwd⟩ : ∃ w, w = modTile u (pa / tlmWindow) (withBindings l) := ⟨_, rfl⟩
  obtain ⟨x, hx⟩ : ∃ x, x = performWrite w pa 8 (if wr == 0 && rd == 0 then 0 else 2 ^ 60) none false r.rcb := ⟨_, rfl⟩
  have he : chinitStep.chinitAt u s.cur r d pa wr rd (hw s pa) (pa / tlmWindow) = finish x s.cur r d 0 := by
    unfold chinitStep.chinitAt
    rw [hat.uncorrectable_eq, hbad, hgood, hne, hat.bindings, hl, hx, hwd]
    dsimp only
    rw [hlog]
    rfl
  have hwatched (n : Nat) : (getTile w n).watches = (getTile u n).watches := by
    rw [hwd]
    by_cases hn : n = pa / tlmWindow
    · rw [hn, getTile_modTile_self]
      rfl
    · rw [Quiet.getTile_modTile_ne _ _ _ _ hn]
  have hun' : ∀ k, k < 8 → Unserved w (pa + k) := fun k hk => hwd ▸ hat.unserved (hun k hk)
  have hwatch' : Unwatched w pa 8 :=
    ⟨fun n hn =>
      (intervalRegion_congr (s := u) (t := w) (by rw [hwd]; rfl) (by rw [hwd]; rfl) (by rw [hwd]; rfl) n).trans ((hat.unwatched hwatch).1 n hn),
      fun n hn => (hwatched n).symm ▸ (hat.unwatched hwatch).2 n hn⟩
  have hint' : (getRegion w r.rcb).interval = none := hwd ▸ ((hat.interval_eq r.rcb).trans hint :)
  have hbad' : uncorrectable w pa 8 = false := hwd ▸ ((hat.uncorrectable_eq pa 8).trans hbad :)
  obtain ⟨hsteady, hmem⟩ := performWrite_unserved (by decide) hun' hwatch' hint' hbad' (if wr == 0 && rd == 0 then 0 else 2 ^ 60) false
  rw [← hx] at hsteady hmem
  have hiw : Issues w r := hwd ▸ issues_congr (u := modTile u (pa / tlmWindow) (withBindings l)) (hat.issues hi) rfl rfl rfl rfl rfl
  have hcur : w.cur = s.cur := hwd ▸ hat.cur
  have hregs (e : Reg) : reg w r e = reg s r e := hwd ▸ hat.reg_eq hi e
  have hret : (me w).instret = (me s).instret := by
    rw [me, hcur, me, ← hat.instret, hwd]
    rfl
  obtain ⟨hfin, htiles⟩ := hsteady.finish_rest hiw d 0
  rw [hcur] at hfin htiles
  refine ⟨_, he, answers_from (hcur ▸ hsteady.answers hiw d 0) hcur hregs hret, ?_, hw_memBytes (hfin.trans hmem)⟩
  rw [getTile_congr htiles, hsteady.bindings, hwd, getTile_modTile_self]
  rfl

omit hsp hun hwatch in
/-- The step of CHINIT reaches the word at its home. -/
theorem chinitStep_home {t : State} (hat : AtHome s t) (hheld : wordHeld s pa = false) (d : Reg) (wr rd : Nat) :
    ∃ u, chinitStep t s.cur r d pa wr rd = chinitStep.chinitAt u s.cur r d pa wr rd (hw s pa) (pa / tlmWindow) ∧ AtHome s u := by
  have ha := hat.trans (atHome_asChannel t pa)
  refine ⟨_, ?_, ha.trans (.of_quiet (.noteMsg _ s.cur (pa / tlmWindow)))⟩
  rw [chinitStep, wordHeld_congr ha.msgs, hheld, hw_congr ha.mem]
  rfl

end Word

/-! ### CHINIT and CHCLR (R254, R255) -/

/-- CHINIT reads the binding that W[b] names, if any, and takes its step at the word. -/
theorem execChinit_home {s : State} {r : Running} (hi : Issues s r) {d a b : Reg} {pa : Nat} {nc : Bool}
    (hchk : memCheck s s.cur r (reg s r a) 8 .write .block false = (s, .ok pa nc)) (hsp : spaceOf pa = 0) {wr rd : Nat}
    (hb : (reg s r b = 0 ∧ wr = 0 ∧ rd = 0) ∨ (reg s r b ≠ 0 ∧ ∃ p q x y, memCheck s s.cur r (reg s r b) 8 .read .block false = (s, .ok p x) ∧
      memCheck s s.cur r (reg s r b + 8) 8 .read .block false = (s, .ok q y) ∧ Readable s p 8 ∧ Readable s q 8 ∧
      wr = (dwAt s p).toNat % 2 ^ 52 ∧ rd = (dwAt s q).toNat % 2 ^ 52)) :
    ∃ t, exec (.chinit d a b) s = .next (chinitStep t s.cur r d pa wr rd) ∧ AtHome s t := by
  have hexec := (onCore_issues hi _ : execChinit d a b s = _)
  rw [show src s s.cur r a = reg s r a from rfl, channelAddr_ok hchk hsp] at hexec
  rcases hb with ⟨hb, rfl, rfl⟩ | ⟨hb, p, q, x, y, hp, hq, hrp, hrq, rfl, rfl⟩
  · exact ⟨s, hexec.trans (congrArg _ (if_pos hb)), .of_quiet (.refl s)⟩
  · obtain ⟨u, hu, hsu⟩ := readBlock_home (r := r) hrp.1 hrp.2 fun t => readBlock t s.cur r q 8 fun t =>
      chinitStep t s.cur r d pa (bits (dwAt t p) 51 0) (bits (dwAt t q) 51 0)
    obtain ⟨v, hv, huv⟩ := readBlock_home (s := u) (c := s.cur) (r := r) ((hsu.ownStoresOver_eq _ _ _).trans hrq.1)
      ((hsu.uncorrectable_eq _ _).trans hrq.2) fun t => chinitStep t s.cur r d pa (bits (dwAt t p) 51 0) (bits (dwAt t q) 51 0)
    have hsv := hsu.trans huv
    rw [hsv.dwAt_eq, hsv.dwAt_eq] at hv
    refine ⟨v, (hexec.trans (congrArg _ (if_neg hb))).trans (congrArg _ ?_), .of_quiet hsv⟩
    rw [show src s s.cur r b = reg s r b from rfl, access, hp]
    dsimp only
    rw [access, hq]
    exact hu.trans hv

section Clear
variable {s u : State} {pa : Nat} (hgood : chanMalformed (hw s pa) = false) (hhead : chanHead (hw s pa) = 0)

include hhead in
theorem chainOf_idle : chainOf s pa = [] := by
  unfold chainOf
  rw [hhead]
  unfold chainFuel
  rfl

include hhead in
theorem clearWaiters_idle : clearWaiters s pa = (performWrite s pa 8 (boundBit (hw s pa)).toNat none false 0, 0) := by
  rw [clearWaiters, chainOf_idle hhead]
  split
  · rfl
  · rfl

end Clear

/-- CHCLR of a word without waiters ends after a write of its bound bit. -/
theorem execChclr_idle {s : State} {r : Running} (hi : Issues s r) (d : Reg) {a : Reg} {pa : Nat} {nc : Bool}
    (hchk : memCheck s s.cur r (reg s r a) 8 .write .block false = (s, .ok pa nc)) (hsp : spaceOf pa = 0)
    (hbad : uncorrectable s pa 8 = false) (hhead : chanHead (hw s pa) = 0) (hheld : wordHeld s pa = false)
    (hmove : ∀ t ∈ s.transfers, t.word ≠ pa) :
    ∃ u, exec (.chclr d a) s = .next (settle (finish (performWrite u pa 8 (boundBit (hw s pa)).toNat none false 0) s.cur r d 0)) ∧ AtHome s u := by
  have ha := atHome_asChannel s pa
  have hu := ha.trans (.of_quiet (.noteMsg _ s.cur (pa / tlmWindow)))
  have htr : (asChannel s pa).transfers = s.transfers := by
    unfold asChannel
    split
    · rfl
    · rfl
  have hany : s.transfers.any (·.word == pa) = false := List.any_eq_false.2 fun t ht => by
    rw [beq_iff_eq]
    exact hmove t ht
  have hclaim : claimBusy (asChannel s pa) pa = false := by
    unfold claimBusy
    rw [chainOf_idle (by rw [hw_congr ha.mem, hhead])]
    rfl
  refine ⟨_, ((onCore_issues hi _ : execChclr d a s = _).trans (congrArg _ ?_)), hu⟩
  rw [show src s s.cur r a = reg s r a from rfl, channelAddr_ok hchk hsp]
  dsimp only
  rw [htr, hany, wordHeld_congr ha.msgs, hheld, hclaim, ha.uncorrectable_eq, hbad, clearWaiters_idle (by rw [hw_congr hu.mem, hhead]),
    hw_congr hu.mem]
  rfl

/-- Settles O30: CHINIT reads the binding (`execChinit_home`) and takes its step (`chinitAt_waited`, `chinitAt_idle`); CHCLR of an idle channel is
one write (`execChclr_idle`), which leaves the bound bit alone (`bit_boundBit`, `boundBit_rest`). -/
theorem channelSetUp : Obligations.ChannelSetUp := by
  unfold Obligations.ChannelSetUp
  intro d a s r pa nc hi _ hchk hsp hbad hgood hplain hsnoop hal hwatch hheld hint hint0
  have hun (k : Nat) (hk : k < 8) : Unserved s (pa + k) := by
    refine ⟨?_, (hplain k hk).2.2⟩
    rw [div_of_aligned (Nat.dvd_refl 8) hal hk, Nat.div_mul_cancel (Nat.dvd_of_mod_eq_zero hal)]
    exact hsnoop
  refine ⟨fun b wr rd hb => ?_, fun hhead hmove => ?_⟩
  · obtain ⟨t, hexec, hat⟩ := execChinit_home hi hchk hsp hb (d := d)
    obtain ⟨u, hu, hat⟩ := chinitStep_home hat hheld d wr rd (r := r)
    rw [hu] at hexec
    refine ⟨fun hhead => ⟨_, hexec, chinitAt_waited hi hbad hgood hat hhead d wr rd _⟩, fun l hhead hl => ?_⟩
    obtain ⟨x, hx, hans, hbind, hword⟩ := chinitAt_idle hi hbad hgood hsp hun hwatch hint hat hhead d hl
    refine ⟨x, hexec.trans (congrArg _ hx), hans, hbind, newBindings_mem hl, hword.trans ?_⟩
    by_cases hw0 : wr = 0 ∧ rd = 0
    · rw [if_pos hw0, hw0.1, hw0.2]
      rfl
    · rw [if_neg hw0, if_neg]
      · rfl
      · rw [Bool.and_eq_true, beq_iff_eq, beq_iff_eq]
        exact hw0
  · obtain ⟨u, hexec, hat⟩ := execChclr_idle hi d hchk hsp hbad hhead hheld hmove
    obtain ⟨hsteady, hmem⟩ := performWrite_unserved (by decide) (fun k hk => hat.unserved (hun k hk)) (hat.unwatched hwatch)
      ((hat.interval_eq 0).trans hint0) ((hat.uncorrectable_eq pa 8).trans hbad) (boundBit (hw s pa)).toNat false
    replace hsteady := hat.toSteady.trans hsteady
    have hword := hw_memBytes ((hsteady.finish_rest hi d 0).1.trans hmem)
    rw [show word (boundBit (hw s pa)).toNat = boundBit (hw s pa) from BitVec.ofNat_toNat ..] at hword
    refine ⟨_, hexec, hsteady.answers hi d 0, ?_⟩
    rw [hword]
    exact ⟨boundBit_rest.1, boundBit_rest.2, bit_boundBit hgood hhead⟩

end Sys2Proof.Machine
end

section
/-! SUPPORT. CSR instructions (R121 to R127). -/

-- Proofs are elaborated one after another: side by side they would need more memory than a check has.
set_option Elab.async false

namespace Sys2Proof.Machine

open Sys2Proof.Claims

/-! ### What every write of a CSR leaves -/

/-- After a write of CSR `n` the process still issues, with its registers and its other per-process CSRs. -/
structure CsrWritten (s u : State) (r : Running) (n : Nat) : Prop where
  cur : u.cur = s.cur
  issues : ∃ b, Issues u { r with xc := b }
  regs : ∀ e, reg u r e = reg s r e
  pcsrs : ∀ m, m ≠ n → pcsr u r m = pcsr s r m

section Written
variable {s u : State} {r : Running} (h : Issues s r)
include h

theorem pcsr_of_slotOf {i : Nat} (hi : slotOf (getCore s s.cur) r.wptr = some i) (m : Nat) : pcsr s r m = slotCsr s s.cur i m := by
  unfold pcsr pcsrRd
  rw [hi]

/-- A change of other fields of the executing core. -/
theorem csrWritten_of_core (hcur : u.cur = s.cur) (hmem : u.mem = s.mem) (hslots : (getCore u s.cur).slots = (getCore s s.cur).slots)
    (hrun : (getCore u s.cur).run = (getCore s s.cur).run) (hwfi : (getCore u s.cur).wfi = (getCore s s.cur).wfi)
    (hstall : (getCore u s.cur).stall = (getCore s s.cur).stall) (n : Nat) : CsrWritten s u r n where
  cur := hcur
  issues := ⟨r.xc, issues_congr h hcur hrun hwfi hstall hslots⟩
  regs := reg_of_slots hcur (by rw [me, hcur, hslots, me]) hmem r
  pcsrs m _ := by
    have hu := issues_congr h hcur hrun hwfi hstall hslots
    have hat (i : Nat) : slotAt (getCore u s.cur) i = slotAt (getCore s s.cur) i := slotAt_congr hslots i
    have hof : slotOf (getCore u s.cur) r.wptr = slotOf (getCore s s.cur) r.wptr := slotOf_congr (fun i => by rw [holders, hat, holders]) _
    obtain ⟨i, hi⟩ := Option.isSome_iff_exists.1 h.resident
    rw [pcsr_of_slotOf h hi, pcsr_of_slotOf hu (by rw [hcur, hof, hi]), hcur]
    unfold slotCsr
    rw [hat]

theorem csrWritten_modCore {f : Core → Core} (hslots : ∀ k, (f k).slots = k.slots) (hrun : ∀ k, (f k).run = k.run)
    (hwfi : ∀ k, (f k).wfi = k.wfi) (hstall : ∀ k, (f k).stall = k.stall) (n : Nat) : CsrWritten s (modCore s s.cur f) r n := by
  have hg {α : Type} {g : Core → α} (hk : ∀ k, g (f k) = g k) : g (getCore (modCore s s.cur f) s.cur) = g (getCore s s.cur) :=
    (congrArg g (getCore_modCore_self s s.cur f)).trans (hk _)
  exact csrWritten_of_core (u := modCore s s.cur f) h rfl rfl (hg hslots) (hg hrun) (hg hwfi) (hg hstall) n

end Written

/-! ### Per-process CSRs (R91, R124) -/

/-- Slot `i` of a core taken by `sl`. -/
noncomputable def slotted (i : Nat) (sl : Slot) (k : Core) : Core := setSlot k i (some sl)

/-- A core whose running process is `r`. -/
noncomputable def runs (r : Running) (k : Core) : Core := { k with run := some r }

theorem setXc_running {s : State} {c : Nat} {r : Running} (hrun : (getCore s c).run = some r) :
    setXc s c r.wptr = modCore s c (runs { r with xc := true }) := by
  unfold setXc
  rw [hrun]
  exact if_pos BEq.rfl

/-- A slot with a per-process CSR written. -/
noncomputable def csrSlot (s : State) (c : Nat) (sl : Slot) (n : Nat) (v : Word) : Slot :=
  { sl with
    csrs := sl.csrs.setIfInBounds n v
    dirtyC := if xcOf s c sl.wptr then sl.dirtyC ||| (1 <<< n) else BitVec.allOnes 12
    badC := sl.badC &&& ~~~(1#12 <<< n) }

theorem putSlotCsr_eq {s : State} {c i : Nat} {sl : Slot} (hs : slotAt (getCore s c) i = some sl) (n : Nat) (v : Word) :
    putSlotCsr s c i n v = setXc (modCore s c (slotted i (csrSlot s c sl n v))) c sl.wptr := by
  unfold putSlotCsr
  rw [hs]
  rfl

/-- The core once slot `i` holds `sl` and the running process has its extension. -/
noncomputable def extended (i : Nat) (sl : Slot) (r : Running) (k : Core) : Core := runs { r with xc := true } (slotted i sl k)

theorem getCore_putSlotCsr {s : State} {c i : Nat} {r : Running} {sl : Slot} (hrun : (getCore s c).run = some r)
    (hs : slotAt (getCore s c) i = some sl) (hw : sl.wptr = r.wptr) (n : Nat) (v : Word) :
    getCore (putSlotCsr s c i n v) c = extended i (csrSlot s c sl n v) r (getCore s c) ∧ (putSlotCsr s c i n v).cur = s.cur := by
  have hcore := getCore_modCore_self s c (slotted i (csrSlot s c sl n v))
  have hrun' : (getCore (modCore s c (slotted i (csrSlot s c sl n v))) c).run = some r := (congrArg Core.run hcore).trans hrun
  rw [putSlotCsr_eq hs, hw, setXc_running hrun']
  exact ⟨(getCore_modCore_self ..).trans (congrArg _ hcore), rfl⟩

/-- A write of a per-process CSR of a resident process. -/
theorem csrWritten_pcsrWr {s : State} {r : Running} (h : Issues s r) {n : Nat} (hn : n < 12) (v : Word) :
    CsrWritten s (pcsrWr s s.cur r.wptr n v) r n ∧ pcsr (pcsrWr s s.cur r.wptr n v) r n = v := by
  obtain ⟨i, hi⟩ := Option.isSome_iff_exists.1 h.resident
  obtain ⟨hlt, sl, hs, hw⟩ := slotOf_spec hi
  obtain ⟨hcore, hcur⟩ := getCore_putSlotCsr (issuer_run h.running) hs hw n v
  obtain ⟨x, hx⟩ : ∃ x, x = csrSlot s s.cur sl n v := ⟨_, rfl⟩
  have hcsrs : x.csrs = sl.csrs.setIfInBounds n v := hx ▸ rfl
  have hholders : x.wptr = sl.wptr ∧ x.regs = sl.regs := hx ▸ ⟨rfl, rfl⟩
  rw [← hx] at hcore
  have he : pcsrWr s s.cur r.wptr n v = putSlotCsr s s.cur i n v := by unfold pcsrWr; rw [hi]
  rw [he]
  generalize putSlotCsr s s.cur i n v = u at hcore hcur
  have hself : slotAt (getCore u s.cur) i = some x := by
    rw [hcore]
    exact slotAt_setSlot_self _ _ _ hlt
  have hother (j : Nat) (hj : j ≠ i) : slotAt (getCore u s.cur) j = slotAt (getCore s s.cur) j := by
    rw [hcore]
    exact slotAt_setSlot_ne _ _ _ _ hj
  have hof : slotOf (getCore u s.cur) r.wptr = some i := by
    refine (slotOf_congr (fun j => ?_) _).trans hi
    by_cases hj : j = i
    · rw [hj]
      unfold holders
      rw [hself, hs, Option.map_some, Option.map_some, hholders.1]
    · unfold holders
      rw [hother j hj]
  have hissues : Issues u { r with xc := true } := by
    refine ⟨?_, by rw [hcur, hof]; rfl⟩
    have hr := h.running
    rw [issuer, issuer_run hr] at hr
    dsimp only at hr
    have hgo : ((getCore s s.cur).wfi || (getCore s s.cur).stall.isSome) = false := by
      rw [Bool.eq_false_iff]
      intro hgo
      rw [if_pos hgo] at hr
      cases hr
    unfold issuer
    rw [hcur, hcore]
    exact if_neg (Bool.eq_false_iff.1 hgo)
  have hpc (m : Nat) : pcsr u r m = (x.csrs[m]?).getD 0 := by
    unfold pcsr
    rw [hcur]
    unfold pcsrRd
    rw [hof]
    dsimp only
    unfold slotCsr
    rw [hself]
  have hps (m : Nat) : pcsr s r m = (sl.csrs[m]?).getD 0 := by
    rw [pcsr_of_slotOf h hi]
    unfold slotCsr
    rw [hs]
  refine ⟨⟨hcur, ⟨true, hissues⟩, fun e => ?_, fun m hm => ?_⟩, ?_⟩
  · unfold reg
    rw [hcur]
    unfold regRd
    rw [hof, hi]
    dsimp only
    unfold slotReg
    rw [hself, hs]
    dsimp only
    rw [hholders.2]
  · rw [hpc, hps, hcsrs, Vector.getElem?_setIfInBounds_ne hm.symm]
  · rw [hpc, hcsrs, Vector.getElem?_setIfInBounds_self_of_lt hn]
    rfl

/-! ### What `csrWrite` does (R122 to R127) -/

theorem csrWritten_ite {s x y : State} {r : Running} {n : Nat} {p : Prop} [Decidable p] (hx : p → CsrWritten s x r n) (hy : CsrWritten s y r n) :
    CsrWritten s (if p then x else y) r n := by
  split
  · next hp => exact hx hp
  · exact hy

theorem csrWritten_csrWrite {s : State} {r : Running} (h : Issues s r) (n : Nat) (v set : Word) : CsrWritten s (csrWrite s s.cur r n v set) r n := by
  have hid : CsrWritten s s r n := csrWritten_of_core h rfl rfl rfl rfl rfl rfl n
  have hcore {f : Core → Core} (hslots : ∀ k, (f k).slots = k.slots) (hrun : ∀ k, (f k).run = k.run) (hwfi : ∀ k, (f k).wfi = k.wfi)
      (hstall : ∀ k, (f k).stall = k.stall) : CsrWritten s (modCore s s.cur f) r n := csrWritten_modCore h hslots hrun hwfi hstall n
  have htile (f : Tile → Tile) : CsrWritten s (modTile s (coreTile s.cur) f) r n :=
    csrWritten_of_core (u := modTile s (coreTile s.cur) f) h rfl rfl rfl rfl rfl rfl n
  unfold csrWrite
  refine csrWritten_ite (fun hn => (csrWritten_pcsrWr h (Nat.lt_succ_of_le hn) _).1) ?_
  refine csrWritten_ite (fun _ => hcore (fun _ => rfl) (fun _ => rfl) (fun _ => rfl) fun _ => rfl) ?_
  refine csrWritten_ite (fun _ => hcore (fun _ => rfl) (fun _ => rfl) (fun _ => rfl) fun _ => rfl) ?_
  refine csrWritten_ite (fun _ => hcore (fun _ => rfl) (fun _ => rfl) (fun _ => rfl) fun _ => rfl) ?_
  refine csrWritten_ite (fun _ => hcore (fun _ => rfl) (fun _ => rfl) (fun _ => rfl) fun _ => rfl) ?_
  refine csrWritten_ite (fun _ => hcore (fun _ => rfl) (fun _ => rfl) (fun _ => rfl) fun _ => rfl) ?_
  refine csrWritten_ite (fun _ => hcore (fun _ => rfl) (fun _ => rfl) (fun _ => rfl) fun _ => rfl) ?_
  refine csrWritten_ite (fun _ => hcore (fun _ => rfl) (fun _ => rfl) (fun _ => rfl) fun _ => rfl) ?_
  refine csrWritten_ite (fun _ => hcore (fun _ => rfl) (fun _ => rfl) (fun _ => rfl) fun _ => rfl) ?_
  refine csrWritten_ite (fun _ => hcore (fun _ => rfl) (fun _ => rfl) (fun _ => rfl) fun _ => rfl) ?_
  refine csrWritten_ite (fun _ => hcore (fun _ => rfl) (fun _ => rfl) (fun _ => rfl) fun _ => rfl) ?_
  refine csrWritten_ite (fun _ => hcore (fun _ => rfl) (fun _ => rfl) (fun _ => rfl) fun _ => rfl) ?_
  refine csrWritten_ite (fun _ => hcore (fun _ => rfl) (fun _ => rfl) (fun _ => rfl) fun _ => rfl) ?_
  refine csrWritten_ite (fun _ => htile _) ?_
  refine csrWritten_ite (fun _ => htile _) ?_
  refine csrWritten_ite (fun _ => htile _) ?_
  refine csrWritten_ite (fun _ => csrWritten_of_core (u := writeTrigArm s _ r v set) h rfl rfl rfl rfl rfl rfl n) ?_
  refine csrWritten_ite (fun _ => htile _) ?_
  refine csrWritten_ite (fun _ => htile _) ?_
  refine csrWritten_ite (fun _ => htile _) ?_
  refine csrWritten_ite (fun _ => ?_) hid
  split
  · next g _ => exact csrWritten_of_core (u := modSeg s g _) h rfl rfl rfl rfl rfl rfl n
  · exact hid

/-! ### Reading (R122, R123) -/

theorem quiet_read {s : State} {p : Prop} [Decidable p] {v : Word} {x : Word × State} (hx : Quiet s x.2) :
    Quiet s (if p then (v, s) else x).2 := by
  split
  · exact Quiet.refl s
  · exact hx

theorem quiet_csrRead (s : State) (c : Nat) (r : Running) (n : Nat) : Quiet s (csrRead s c r n).2 := by
  unfold csrRead
  repeat refine quiet_read ?_
  split
  · exact quiet_read (quiet_read (Quiet.refl s))
  · exact Quiet.counters s _ _ _ _ _

/-! ### The instruction (R122) -/

theorem exec_csr (i : Instr) : (csrOf i).elim True fun p => ∀ s, exec i s = csrInstr p.1 p.2.1 p.2.2.1 p.2.2.2 s := by
  induction i with
  | csrr d n => exact fun _ => rfl
  | csrw d a n => exact fun _ => rfl
  | csrs d a n => exact fun _ => rfl
  | csrc d a n => exact fun _ => rfl
  | _ => exact trivial

theorem isSome_csrNew (op : CsrOp) (a : Reg) (old w : Word) : (csrNew op a old w).isSome = !(op == .read || (op != .write && a == 0)) := by
  cases op with
  | read => rfl
  | write => rfl
  | set =>
    by_cases h : a = 0
    · rw [h]; rfl
    · unfold csrNew
      rw [if_neg h, show (a == 0) = false from beq_eq_false_iff_ne.2 h]; rfl
  | clear =>
    by_cases h : a = 0
    · rw [h]; rfl
    · rw [csrNew, if_neg h, show (a == 0) = false from beq_eq_false_iff_ne.2 h]; rfl

/-- The state after the access that a granted CSR instruction makes. -/
theorem csrInstr_granted {s : State} {r : Running} (h : Issues s r) (op : CsrOp) (d a : Reg) {n : BitVec 12} (hp : csrPresent n = true)
    (hg : csrGranted n.toNat r.sm (csrNew op a 0 0).isSome = true) : ∃ set, csrInstr op d a n s = .next
      (finish ((csrNew op a (csrRead s s.cur r n.toNat).1 (reg s r a)).elim (csrRead s s.cur r n.toNat).2
        fun v => csrWrite (csrRead s s.cur r n.toNat).2 s.cur r n.toNat v set) s.cur r d (csrRead s s.cur r n.toNat).1) := by
  rw [isSome_csrNew] at hg
  unfold csrInstr
  rw [onCore_issues h, hp]
  dsimp only
  rw [hg]
  cases op with
  | read => exact ⟨0, rfl⟩
  | write => exact ⟨_, rfl⟩
  | set =>
    by_cases ha : a = 0
    · unfold csrNew
      rw [if_pos ha, ha]
      exact ⟨0, rfl⟩
    · unfold csrNew
      rw [if_neg ha, show (a == 0) = false from beq_eq_false_iff_ne.2 ha]
      exact ⟨_, rfl⟩
  | clear =>
    by_cases ha : a = 0
    · unfold csrNew
      rw [if_pos ha, ha]
      exact ⟨0, rfl⟩
    · rw [csrNew, if_neg ha, show (a == 0) = false from beq_eq_false_iff_ne.2 ha]
      exact ⟨_, rfl⟩

theorem csrInstr_denied {s : State} {r : Running} (h : Issues s r) (op : CsrOp) (d a : Reg) {n : BitVec 12} (hp : csrPresent n = true)
    (hg : csrGranted n.toNat r.sm (csrNew op a 0 0).isSome = false) :
    csrInstr op d a n s = .next (trapHere s r .priv ((encCsr d a (csrCode op) n).setWidth 64)) := by
  rw [isSome_csrNew] at hg
  unfold csrInstr
  rw [onCore_issues h, hp]
  dsimp only
  rw [hg]
  rfl

/-! ### What a write leaves (R125 to R127) -/

theorem kept_full {x v : Word} (h : x = v) : x.toNat = v.toNat &&& (2 ^ 64 - 1) := by
  rw [h, Nat.and_two_pow_sub_one_of_lt_two_pow v.isLt]

theorem kept_mask {x v m : Word} (h : x = v &&& m) : x.toNat = v.toNat &&& m.toNat := by
  rw [h, BitVec.toNat_and]

/-- State `t` is `u` after the retirement of core `c`'s instruction. -/
def Retired (u t : State) (c : Nat) : Prop :=
  (∀ g : Core → Word,
    (∀ k slots run instret hpm, g { k with slots := slots, run := run, instret := instret, hpm := hpm, bufStall := false, hostWord := none } = g k) →
      g (getCore t c) = g (getCore u c)) ∧ t = { u with cores := t.cores }

theorem Retired.tile {u t : State} {c : Nat} (h : Retired u t c) (n : Nat) : getTile t n = getTile u n := getTile_congr (by rw [h.2]) n

/-- CSR `n`, written with `v`, reads as the bits `k` of it once the instruction has retired. -/
def ReadsBack (u : State) (c : Nat) (r : Running) (v set : Word) (n k : Nat) : Prop :=
  ∀ t, Retired (csrWrite u c r n v set) t c → (n ≤ 11 → pcsrRd t c r.wptr n = v &&& pcsrMask n) → (csrRead t c r n).1.toNat = v.toNat &&& k

theorem ReadsBack.of_value {u : State} {c : Nat} {r : Running} {w set : Word} {n m k v : Nat} {y : ¬n = m → Option Nat}
    (hm : ReadsBack u c r w set m v) (hy : ∀ h, y h = some k → ReadsBack u c r w set n k)
    (hk : dite (n = m) (Eq.ndrec_symm (motive := fun _ => Option Nat) (some v)) y = some k) : ReadsBack u c r w set n k := by
  by_cases h : n = m
  · subst h
    rw [dif_pos rfl] at hk
    exact Option.some.inj hk ▸ hm
  · exact hy h ((dif_neg h).symm.trans hk)

theorem of_dite_none {P : Prop} {n m : Nat} (hne : n ≠ m) {x : n = m → Option Nat} {y : ¬n = m → Option Nat} {z : Option Nat}
    (hy : ∀ h, y h = z → P) (hk : dite (n = m) x y = z) : P := hy hne ((dif_neg hne).symm.trans hk)

section Kept
variable {u : State} {r : Running} {v set : Word}

/-- CYCLE keeps its difference to the panel's clocks. -/
theorem readsBack_cycle (c : Nat) : ReadsBack u c r v set 0x102 (2 ^ 64 - 1) := by
  intro t ht _
  have hclock : cycleNow t c = cycleNow u c := by rw [ht.2]; rfl
  have hoff : (getCore t c).cycleOff = v - cycleNow u c :=
    (ht.1 Core.cycleOff fun _ _ _ _ _ => rfl).trans (congrArg Core.cycleOff (getCore_putCore_self u c _))
  exact kept_full ((congr (congrArg HAdd.hAdd hclock) hoff).trans ((BitVec.add_comm ..).trans (BitVec.sub_add_cancel ..)))

theorem readsBack (n k : Nat) (hret : n ≠ 0x103) (c : Nat) : keptBits n = some k → ReadsBack u c r v set n k := by
  unfold keptBits keptBits.match_1
  refine .of_value ?_ fun _ => ?_
  · exact fun t ht hp => kept_mask (hp (by decide))
  refine .of_value ?_ fun _ => ?_
  · exact fun t ht hp => kept_mask (hp (by decide))
  refine .of_value ?_ fun _ => ?_
  · exact fun t ht hp => kept_mask (hp (by decide))
  refine .of_value ?_ fun _ => ?_
  · exact fun t ht hp => kept_mask (hp (by decide))
  refine .of_value ?_ fun _ => ?_
  · exact fun t ht hp => kept_mask (hp (by decide))
  refine .of_value ?_ fun _ => ?_
  · exact fun t ht hp => kept_mask (hp (by decide))
  refine .of_value ?_ fun _ => ?_
  · exact fun t ht hp => kept_mask (hp (by decide))
  refine .of_value ?_ fun _ => ?_
  · exact fun t ht hp => kept_mask (hp (by decide))
  refine .of_value ?_ fun _ => ?_
  · exact fun t ht hp => kept_mask (hp (by decide))
  refine .of_value ?_ fun _ => ?_
  · exact fun t ht hp => kept_mask (hp (by decide))
  refine .of_value ?_ fun _ => ?_
  · exact fun t ht hp => kept_mask (hp (by decide))
  refine .of_value (readsBack_cycle c) fun _ => ?_
  refine of_dite_none hret fun _ => ?_
  refine .of_value ?_ fun _ => ?_
  · exact fun t ht hp => kept_mask (m := 7) ((ht.1 Core.opreq fun _ _ _ _ _ => rfl).trans (congrArg Core.opreq (getCore_putCore_self u c _)))
  refine .of_value ?_ fun _ => ?_
  · exact fun t ht hp => kept_mask (m := 0x1FFF) ((ht.1 Core.vidsel fun _ _ _ _ _ => rfl).trans (congrArg Core.vidsel (getCore_putCore_self u c _)))
  refine .of_value ?_ fun _ => ?_
  · exact fun t ht hp => kept_mask (m := 0x1FFFF) ((ht.1 Core.tcause fun _ _ _ _ _ => rfl).trans (congrArg Core.tcause (getCore_putCore_self u c _)))
  refine .of_value ?_ fun _ => ?_
  · exact fun t ht hp => kept_full ((ht.1 Core.tval fun _ _ _ _ _ => rfl).trans (congrArg Core.tval (getCore_putCore_self u c _)))
  refine .of_value ?_ fun _ => ?_
  · exact fun t ht hp => kept_mask (m := 0xFFFFFFFFFFFF) ((ht.1 Core.tpc fun _ _ _ _ _ => rfl).trans (congrArg Core.tpc (getCore_putCore_self u c _)))
  refine .of_value ?_ fun _ => ?_
  · exact fun t ht hp => kept_mask (m := 0xFFFFFFFF) ((ht.1 Core.tseq fun _ _ _ _ _ => rfl).trans (congrArg Core.tseq (getCore_putCore_self u c _)))
  refine .of_value ?_ fun _ => ?_
  · exact fun t ht hp => kept_mask (m := 0x8000FFFFFFFFFFFF) (congrArg Tile.energy ((ht.tile _).trans (getTile_putTile_self u (coreTile c) _)))
  refine .of_value ?_ fun _ => ?_
  · exact fun t ht hp => kept_mask (m := 0x3FFC01) (congrArg Tile.trigBase ((ht.tile _).trans (getTile_putTile_self u (coreTile c) _)))
  refine .of_value ?_ fun _ => ?_
  · exact fun t ht hp => kept_mask (m := 0xFFF) (congrArg Tile.tenant ((ht.tile _).trans (getTile_putTile_self u (coreTile c) _)))
  refine .of_value ?_ fun _ => ?_
  · exact fun t ht hp => kept_mask (m := 0xFFFFFFFFFFE01) (congrArg Tile.ptroot ((ht.tile _).trans (getTile_putTile_self u (coreTile c) _)))
  refine .of_value ?_ fun _ => ?_
  · exact fun t ht hp => kept_mask (m := 0xFFFFFFFFFC001) (congrArg Tile.wrevtab ((ht.tile _).trans (getTile_putTile_self u (coreTile c) _)))
  exact fun hk => nomatch hk

end Kept

/-! ### Access (R121) -/

section Access
variable {k : Nat}

theorem csrGranted_read : csrGranted k false false = true ↔ k ≠ 0x10A ∧ k ≠ 0x281 ∧ k ≠ 0x282 := by
  unfold csrGranted
  split
  · next h =>
    rw [Bool.or_eq_true, Bool.or_eq_true, beq_iff_eq, beq_iff_eq, beq_iff_eq] at h
    refine iff_of_false Bool.false_ne_true fun hn => ?_
    obtain ⟨h1, h2, h3⟩ := hn
    exact h.elim (Or.rec h1 h2) h3
  · next h =>
    rw [Bool.or_eq_true, Bool.or_eq_true, beq_iff_eq, beq_iff_eq, beq_iff_eq, not_or, not_or, and_assoc] at h
    exact iff_of_true rfl h

theorem csrGranted_write : csrGranted k false true = true ↔ k ≤ 0x00B ∨ k = 0x107 ∨ k = 0x110 ∨ (0x118 ≤ k ∧ k ≤ 0x11F) ∨ k = 0x207 := by
  unfold csrGranted
  split
  · next h =>
    rw [Bool.or_eq_true, Bool.or_eq_true, beq_iff_eq, beq_iff_eq, beq_iff_eq] at h
    rcases h with (rfl | rfl) | rfl
    · decide
    · decide
    · decide
  · have hiff : (decide (k ≤ 0x00B) || k == 0x107 || k == 0x110 || (decide (0x118 ≤ k) && decide (k ≤ 0x11F)) || k == 0x207) = true ↔
        k ≤ 0x00B ∨ k = 0x107 ∨ k = 0x110 ∨ (0x118 ≤ k ∧ k ≤ 0x11F) ∨ k = 0x207 := by
      simp only [Bool.or_eq_true, Bool.and_eq_true, decide_eq_true_iff, beq_iff_eq, or_assoc]
    rw [← hiff]
    refine (iff_of_eq (congrArg (· = true) (if_neg Bool.false_ne_true))).trans ?_
    split
    · next h => exact iff_of_true rfl h
    · next h =>
      refine iff_of_false ?_ h
      split
      · exact Bool.false_ne_true
      · exact Bool.false_ne_true

theorem csrGranted_system : csrGranted k true false = true := by
  unfold csrGranted
  split
  · rfl
  · rfl

end Access

/-- The end of an instruction that has written CSR `n`. -/
theorem finish_csrWrite {s : State} {r : Running} (h : Issues s r) (n : Nat) (d : Reg) (old v set : Word) :
    ∃ b, RegStep (csrWrite s s.cur r n v set) (finish (csrWrite s s.cur r n v set) s.cur r d old) { r with xc := b } d old (r.pc + 4) ∧
      (∀ k, n ≠ 0x103 → keptBits n = some k →
        (csrRead (finish (csrWrite s s.cur r n v set) s.cur r d old) s.cur r n).1.toNat = v.toNat &&& k) := by
  have hw := csrWritten_csrWrite h n v set
  have hp : n ≤ 11 → pcsr (csrWrite s s.cur r n v set) r n = v &&& pcsrMask n := fun hn => by
    unfold csrWrite
    rw [if_pos hn]
    exact (csrWritten_pcsrWr h (Nat.lt_succ_of_le hn) _).2
  obtain ⟨b, hissues⟩ := hw.issues
  have hcur := hw.cur
  have hback (k : Nat) (hne : n ≠ 0x103) (hk : keptBits n = some k) (t : State) : Retired (csrWrite s s.cur r n v set) t s.cur →
      (n ≤ 11 → pcsrRd t s.cur r.wptr n = v &&& pcsrMask n) → (csrRead t s.cur r n).1.toNat = v.toNat &&& k := readsBack n k hne s.cur hk t
  generalize csrWrite s s.cur r n v set = w at *
  have hstep : RegStep w (finish w s.cur r d old) { r with xc := b } d old (r.pc + 4) := hcur ▸ regStep_finish hissues d old
  generalize finish w s.cur r d old = t at *
  have htcur : t.cur = s.cur := by
    rw [hstep.frame.rest]
    exact hcur
  refine ⟨b, hstep, fun k hne hk => hback k hne hk _ ⟨fun g hg => ?_, hstep.frame.rest⟩ fun hn => ?_⟩
  · have hcore := congrArg g hstep.core
    unfold me at hcore
    rw [htcur, hcur] at hcore
    exact hcore.trans (hg ..)
  · have hcsr := (hstep.csrs n).trans (hp hn)
    unfold pcsr at hcsr
    rwa [htcur] at hcsr

/-- Settles O20: a denied access traps (`csrInstr_denied`); a granted one reads (`quiet_csrRead`), writes (`csrWritten_csrWrite`) and retires, and
what it wrote reads back (`finish_csrWrite`, `readsBack`). -/
theorem csrInstructions : Obligations.CsrInstructions := by
  unfold Obligations.CsrInstructions
  refine ⟨fun i op d a n hi hp s r => ?_, fun n _ => ?_⟩
  · have hexec := exec_csr i
    rw [hi] at hexec
    replace hexec : exec i s = csrInstr op d a n s := hexec s
    refine ⟨fun h hroom hg => ⟨_, hexec.trans (csrInstr_denied h.toIssues op d a hp hg), trapped_takeTrap h hroom _ _ _ _ _⟩, fun h hg => ?_⟩
    obtain ⟨set, hset⟩ := csrInstr_granted h op d a hp hg
    have q := quiet_csrRead s s.cur r n.toNat
    rw [hset] at hexec
    generalize (csrRead s s.cur r n.toNat).2 = u at hexec q
    generalize (csrRead s s.cur r n.toNat).1 = old at hexec ⊢
    cases hnew : csrNew op a old (reg s r a) with
    | none =>
      rw [hnew] at hexec
      have hans := (Steady.of_quiet q).answers h d old
      have hstep := regStep_finish (q.issues h) d old
      rw [q.cur_eq] at hstep
      refine ⟨finish u s.cur r d old, hexec, hans.dest, hans.regs, congrArg (Option.map Running.pc) hans.pc,
        fun _ => ⟨hans, ?_, fun k => (hstep.csrs k).trans (q.pcsr_eq r k)⟩, ?_⟩
      · exact ((Steady.of_quiet q).finish_rest h d old).1.trans q.mem_eq
      · intro v k hv
        cases hv
    | some v =>
      rw [hnew] at hexec
      obtain ⟨b, hstep, hkept⟩ := finish_csrWrite (q.issues h) n.toNat d old v set
      have hw := csrWritten_csrWrite (q.issues h) n.toNat v set
      rw [q.cur_eq] at hstep hkept hw
      refine ⟨_, hexec, hstep.dest, fun e he => (hstep.regs e he).trans ((hw.regs e).trans (q.reg_eq r e)),
        congrArg (Option.map Running.pc) hstep.pc, ?_, ?_⟩
      · intro hv
        cases hv
      · intro v' k hv hk hne
        obtain rfl := Option.some.inj hv
        exact ⟨hkept k (fun he => hne (BitVec.eq_of_toNat_eq he)) hk,
          fun m _ hm => (hstep.csrs m).trans ((hw.pcsrs m hm).trans (q.pcsr_eq r m))⟩
  · have heq (k : BitVec 12) : n = k ↔ n.toNat = k.toNat := BitVec.toNat_inj.symm
    have hne (k : BitVec 12) : n ≠ k ↔ n.toNat ≠ k.toNat := not_congr (heq k)
    rw [heq, heq, heq, hne, hne, hne]
    exact ⟨csrGranted_read, csrGranted_write, csrGranted_system⟩

end Sys2Proof.Machine
end

section
/-! SUPPORT. The accumulator file: AWR of a workspace that lies in it (R90, R144, R147). -/

-- Proofs are elaborated one after another: side by side they would need more memory than a check has.
set_option Elab.async false

namespace Sys2Proof.Machine

open Sys2Proof.Claims

/-- A process whose workspace lies in the accumulator file of tile 0, its WAIT word at offset 120. -/
noncomputable def accWptr : Nat := 2 ^ 48 + 128

/-- It runs on core 0, with W1 = 120. -/
noncomputable def accRun : Running := { bootRun 0 with wptr := accWptr }

/-- Its registers, with W1 = 120. -/
noncomputable def accSlot : Slot := { bootSlot 0 with wptr := accWptr, regs := (bootSlot 0).regs.setIfInBounds 1 120 }

/-- A job that writes accumulator tile 0. -/
noncomputable def accJob : Job := { captured State.reset 0 accRun 0 0 with accW := 1 }

/-- The file's first tile is live, and the job holds it. -/
noncomputable def accState : State :=
  let s := putProc State.reset accWptr (bootProc 0)
  let s := modCore s 0 fun k => { k with run := some accRun, slots := k.slots.setIfInBounds 0 (some accSlot) }
  let s := modTile s 0 fun k => { k with accLive := 1 }
  putEntry s 0 ⟨0, none, some accJob, none, none, 0⟩

/-- A byte as the state after an instruction reads it. -/
noncomputable def byteAfter (o : Host.Outcome State Fault Refusal) (a : Nat) : Byte :=
  match o with
  | .next t => byteAt t a
  | _ => 0

/-- Refutes O32: where the workspace of the process lies in the file itself, AWR's wait
writes the WAIT word, which is the doubleword that it names. -/
theorem not_accumulatorFile : ¬ Obligations.AccumulatorFile := by
  intro h
  obtain ⟨-, hbusy, -⟩ := h
  have hplaced : Placed accState accRun := ⟨⟨rfl, rfl⟩, ⟨_, rfl, rfl⟩, by decide +kernel, rfl, by decide +kernel,
    fun _ he => absurd he List.not_mem_nil⟩
  obtain ⟨-, hawr⟩ := hbusy accState accRun 1 0 120 hplaced ⟨rfl, rfl, rfl⟩ rfl (by decide) (by decide) (by decide +kernel)
    (by decide +kernel)
  obtain ⟨t, ht, -, hkept⟩ := hawr 2
  have hwritten : byteAfter (exec (.awr 1 2) accState) (2 ^ 48 + 120) = 4 := by decide +kernel
  rw [ht] at hwritten
  have hzero : byteAt accState (2 ^ 48 + 120) = 0 := by decide +kernel
  have h : byteAt t (2 ^ 48 + 120) = 0 := hkept.trans hzero
  rw [show byteAt t (2 ^ 48 + 120) = 4 from hwritten] at h
  exact absurd h (by decide)

end Sys2Proof.Machine
end

section
/-! SUPPORT. The panel management controller (R385, R422 to R433). -/

-- Proofs are elaborated one after another: side by side they would need more memory than a check has.
set_option Elab.async false

namespace Sys2Proof.Machine

open Sys2Proof.Claims

/-! ### Bring-up (R422) -/

/-- A change of the PMC alone. -/
def PmcOnly (s t : State) : Prop := t = { s with pmc := t.pmc }

/-- An event that changes the PMC alone. -/
theorem next_modPmc {i : Instr} {s : State} {f : Pmc → Pmc} {P : State → Prop} (h : exec i s = .next (modPmc s f)) (hp : P (modPmc s f)) :
    ∃ t, exec i s = .next t ∧ PmcOnly s t ∧ P t := ⟨_, h, rfl, hp⟩

/-- What the PMC does at the end of stage `n`. -/
noncomputable def stageEnd (r : BootReport) (s : State) : Nat → Host.Outcome State Fault Refusal
  | 1 => .next (modPmc s fun p => { p with stage := 2 })
  | 2 => if s.pmc.fault == 2 then .next s else .next (bootSlots s r)
  | 3 => .next (modPmc s fun p => { p with adm := admBits s, stage := 4 })
  | 4 => .next (bootSegments s r)
  | 5 => .next (modPmc s fun p => { p with stage := 6 })
  | _ => .next (rebootSegment s r)

theorem exec_bootStage (r : BootReport) {s : State} {n : Nat} (h : s.pmc.stage = n) : exec (.bootStage r) s = stageEnd r s n := by
  subst h
  rfl

/-- The panel boots from a slot, with FAULT the slot's number. -/
noncomputable def bootFrom (r : BootReport) (slot : Nat) (image : List Byte) (s : State) : State :=
  { modPmc s fun p => { loadConfig r p with slot := slot, fault := slot, stage := 3, image := image } with time := 0 }

/-- The PMC stays in recovery. -/
noncomputable def unbooted (p : Pmc) : Pmc := { p with fault := 2 }

theorem bootSlots_eq (s : State) (r : BootReport) : bootSlots s r =
    if r.slotA then bootFrom r 0 s.pmc.flashA s else if r.slotB then bootFrom r 1 s.pmc.flashB s else modPmc s unbooted := rfl

section Slots
variable (s : State) {r : BootReport}

/-- A change of the PMC and of TIME. -/
def PmcTimeOnly (s t : State) : Prop := t = { s with pmc := t.pmc, time := t.time }

theorem bootSlots_rest (r : BootReport) : PmcTimeOnly s (bootSlots s r) := by
  rw [bootSlots_eq]
  split
  · exact rfl
  · split
    · exact rfl
    · exact rfl

theorem bootSlots_A (h : r.slotA = true) : (bootSlots s r).pmc.slot = 0 ∧ (bootSlots s r).pmc.fault = 0 ∧ (bootSlots s r).pmc.stage = 3 ∧
    (bootSlots s r).pmc.image = s.pmc.flashA ∧ (bootSlots s r).time = 0 := by
  rw [bootSlots_eq, if_pos h]
  exact ⟨rfl, rfl, rfl, rfl, rfl⟩

theorem bootSlots_B (ha : r.slotA = false) (hb : r.slotB = true) : (bootSlots s r).pmc.slot = 1 ∧ (bootSlots s r).pmc.fault = 1 ∧
    (bootSlots s r).pmc.stage = 3 ∧ (bootSlots s r).pmc.image = s.pmc.flashB ∧ (bootSlots s r).time = 0 := by
  rw [bootSlots_eq, if_neg (ne_true_of_eq_false ha), if_pos hb]
  exact ⟨rfl, rfl, rfl, rfl, rfl⟩

theorem bootSlots_none (h : s.pmc.stage = 2) (ha : r.slotA = false) (hb : r.slotB = false) : (bootSlots s r).pmc.fault = 2 ∧
    (bootSlots s r).pmc.stage = 2 ∧ (bootSlots s r).time = s.time := by
  rw [bootSlots_eq, if_neg (ne_true_of_eq_false ha), if_neg (ne_true_of_eq_false hb)]
  exact ⟨rfl, h, rfl⟩

/-- The flash configuration is loaded whichever slot boots. -/
theorem bootSlots_loads (h : r.slotA = true ∨ r.slotB = true) : ∃ slot image, bootSlots s r = bootFrom r slot image s := by
  rw [bootSlots_eq]
  split
  · exact ⟨_, _, rfl⟩
  case isFalse ha => exact ⟨_, _, if_pos (h.resolve_left ha)⟩

theorem bootSlots_noConfig (h : r.slotA = true ∨ r.slotB = true) (hc : r.config = none) :
    (bootSlots s r).pmc.panelid = 0 ∧ (bootSlots s r).pmc.fabric = [] := by
  obtain ⟨slot, image, hx⟩ := bootSlots_loads s h
  rw [hx]
  change (loadConfig r s.pmc).panelid = 0 ∧ (loadConfig r s.pmc).fabric = []
  unfold loadConfig
  rw [hc]
  exact ⟨rfl, rfl⟩

theorem bootSlots_config {n : Nat} (h : r.slotA = true ∨ r.slotB = true) (hc : r.config = some (n, [])) :
    (bootSlots s r).pmc.panelid = n % 256 ∧ (bootSlots s r).pmc.fabric = [] := by
  obtain ⟨slot, image, hx⟩ := bootSlots_loads s h
  rw [hx]
  change (loadConfig r s.pmc).panelid = n % 256 ∧ (loadConfig r s.pmc).fabric = []
  unfold loadConfig
  rw [hc]
  exact ⟨rfl, rfl⟩

end Slots

theorem getSite_powerCycle (s : State) (n : Nat) : getSite (powerCycle s) n = ((amGet s.sites n).map sensedSite).getD Site.reset := by
  unfold getSite
  rw [show (powerCycle s).sites = s.sites.map fun e => (e.1, sensedSite e.2) from rfl, amGet_map_snd]

theorem sensedSite_st (k : Site) : ((sensedSite k).st = .seated ↔ k.clampClosed = true ∧ k.pinClosed = true) ∧
    ((sensedSite k).st ≠ .seated → (sensedSite k).st = .empty) := by
  unfold sensedSite
  dsimp only
  rw [← Bool.and_eq_true_iff]
  split
  case isTrue h => exact ⟨iff_of_true rfl h, absurd rfl⟩
  case isFalse h => exact ⟨iff_of_false SiteState.noConfusion h, fun _ => rfl⟩

/-- What the PMC senses of a site at the next power-on. -/
theorem sensed_powerCycle (s : State) (n : Nat) : (getSite (powerCycle s) n).powerOn = false ∧
    ((getSite (powerCycle s) n).st = .seated ↔ (getSite s n).clampClosed = true ∧ (getSite s n).pinClosed = true) ∧
    ((getSite (powerCycle s) n).st ≠ .seated → (getSite (powerCycle s) n).st = .empty) := by
  rw [getSite_powerCycle]
  unfold getSite
  cases amGet s.sites n with
  | none => exact ⟨rfl, by decide, fun _ => rfl⟩
  | some k => exact ⟨rfl, sensedSite_st k⟩

/-- A bit of a fold that sets bit `j` for every `j` with `p j`. -/
theorem getLsbD_setBits (p : Nat → Bool) (n : Nat) (l : List Nat) (b : BitVec 12) :
    (l.foldl (fun b j => if p j then b ||| (1#12 <<< j) else b) b).getLsbD n =
      (b.getLsbD n || l.any fun j => p j && (decide (j < 12) && decide (j = n))) := by
  induction l generalizing b with
  | nil => exact (Bool.or_false _).symm
  | cons j l ih =>
    rw [List.foldl_cons, ih, List.any_cons, ← Bool.or_assoc]
    congr 1
    cases p j
    · exact (Bool.or_false _).symm
    · exact (BitVec.getLsbD_or ..).trans (congrArg _ (BitVec.getLsbD_twoPow j n))

theorem admBits_iff (s : State) {n : Nat} (hn : n < 12) : (admBits s).getLsbD n = true ↔ (getSite s n).st = .admitted := by
  rw [show (admBits s).getLsbD n = _ from getLsbD_setBits (fun n => (getSite s n).st == .admitted) n _ 0,
    show (0 : BitVec 12).getLsbD n = false from BitVec.getLsbD_zero, Bool.false_or, List.any_eq_true]
  constructor
  · rintro ⟨j, -, hj⟩
    obtain ⟨hst, hj⟩ := Bool.and_eq_true_iff.1 hj
    obtain rfl := of_decide_eq_true (Bool.and_eq_true_iff.1 hj).2
    exact eq_of_beq hst
  · intro h
    exact ⟨n, List.mem_range.2 hn, Bool.and_eq_true_iff.2 ⟨beq_of_eq h, Bool.and_eq_true_iff.2 ⟨decide_eq_true hn, decide_eq_true rfl⟩⟩⟩

/-- The end of stage 4, with the segments whose image failed. -/
noncomputable def segmentsDone (bad : List Nat) (s : State) : State :=
  modPmc (startSegments (bad.foldl segDown s)) fun p => { p with darkseg := bad.length, fault := if bad.isEmpty then p.fault else 3, stage := 5 }

theorem bootSegments_eq (s : State) (r : BootReport) :
    bootSegments s r = segmentsDone (r.failedSegs.eraseDups.filter fun z => decide (z < 192) && (getSeg s z).powered) s := rfl

theorem bootSegments_none (s : State) {r : BootReport} (h : r.failedSegs = []) :
    (bootSegments s r).pmc.darkseg = 0 ∧ PmcOnly (startSegments s) (bootSegments s r) := by
  rw [bootSegments_eq, h]
  exact ⟨rfl, rfl⟩

theorem bootSegments_one {s : State} {r : BootReport} {z : Nat} (h : r.failedSegs = [z]) (hz : z < 192) (hp : (getSeg s z).powered = true) :
    PmcOnly (startSegments (segDown s z)) (bootSegments s r) ∧ (bootSegments s r).pmc.darkseg = 1 ∧ (bootSegments s r).pmc.fault = 3 := by
  have hbad : ([z].eraseDups.filter fun z => decide (z < 192) && (getSeg s z).powered) = [z] :=
    List.filter_cons_of_pos (l := []) (by rw [hp, decide_eq_true hz]; rfl)
  rw [bootSegments_eq, h, hbad]
  exact ⟨rfl, rfl, rfl⟩

theorem getSeg_assignPager (s : State) (z y : Nat) : getSeg (assignPager s z) y = getSeg s y := by
  unfold assignPager
  split
  · dsimp only
    split <;> rfl
  · rfl

theorem rebootSegment_cons {s : State} (r : BootReport) {z : Nat} {l : List Nat} (h : s.pmc.reboots = z :: l) :
    rebootSegment s r = if !(getSeg s z).powered then modPmc s fun p => { p with reboots := l }
      else if r.failedSegs.contains z then modPmc (segDown (modPmc s fun p => { p with reboots := l }) z) fun p =>
        { p with darkseg := p.darkseg + 1, fault := 3 }
      else startSegment (modPmc s fun p => { p with reboots := l }) z := by
  unfold rebootSegment
  rw [h]
  rfl

/-- The default fault handler's channel of segment `z`, from its offset in the image. -/
noncomputable def handled (z o : Nat) (k : Seg) : Seg := { k with defaultHandler := segTile z * tlmWindow + o % tlmWindow }

/-- The segment's handler and pager, once its processes have started. -/
noncomputable def started (z : Nat) (im : Config.SegImage) (s : State) : State :=
  assignPager (match im.handler with
    | some o => modSeg s z (handled z o)
    | none => s) z

theorem startSegment_some {s : State} {z : Nat} {im : Config.SegImage} (h : imageOf s z = some im) : ∃ u, startSegment s z = started z im u := by
  obtain ⟨u, hu⟩ : ∃ u, u = modPmc s fun p => { p with images := setInsert p.images z } := ⟨_, rfl⟩
  have hx : startSegment s z = match imageOf u z with
      | none => u
      | some im => started z im (startProcs (im.bytes.foldl (placeBytes (segTile z)) u) z z) := by
    subst hu
    rfl
  rw [hx, show imageOf u z = some im by rw [hu]; exact h]
  exact ⟨_, rfl⟩

/-- The default handler of a segment that starts is its image's (log entry 89). -/
theorem defaultHandler_startSegment (s : State) (z : Nat) : match (imageOf s z).bind (·.handler) with
    | some o => (getSeg (startSegment s z) z).defaultHandler = segTile z * 0x400000 + o % 0x400000
    | none => True := by
  cases h : (imageOf s z).bind (·.handler) with
  | none => trivial
  | some o =>
    obtain ⟨im, him, hh⟩ := Option.bind_eq_some_iff.1 h
    obtain ⟨u, hu⟩ := startSegment_some him
    change (getSeg (startSegment s z) z).defaultHandler = _
    unfold started at hu
    rw [hu, hh, getSeg_assignPager, getSeg_modSeg_self]
    rfl

/-! ### Requests of the management ports -/

theorem signedRequest_served {s : State} (h : recovering s = false) (f : State → State) :
    signedRequest s true false f = modPmc (f s) fun p => { p with csts := 0 :: p.csts } := by
  unfold signedRequest
  rw [h]
  rfl

/-- The PMC with an image uploaded to the slot that did not boot. -/
noncomputable def uploaded (image : List Byte) (p : Pmc) : Pmc := if p.slot == 0 then { p with flashB := image } else { p with flashA := image }

theorem uploaded_csts (image : List Byte) (p : Pmc) : (uploaded image p).csts = p.csts := by
  unfold uploaded
  split <;> rfl

theorem uploaded_slots (image : List Byte) (p : Pmc) : (p.slot = 0 → (uploaded image p).flashB = image ∧ (uploaded image p).flashA = p.flashA) ∧
    (p.slot ≠ 0 → (uploaded image p).flashA = image ∧ (uploaded image p).flashB = p.flashB) := by
  unfold uploaded
  split
  case isTrue h => exact ⟨fun _ => ⟨rfl, rfl⟩, absurd (eq_of_beq h)⟩
  case isFalse h => exact ⟨fun h' => absurd (beq_of_eq h') h, fun _ => ⟨rfl, rfl⟩⟩

theorem bits_one (v : Word) (i : Nat) : bits v i i = b2n (bit v i) := by
  unfold bits bit BitVec.getLsbD
  rw [Nat.testBit_eq_decide_div_mod_eq, Nat.shiftRight_eq_div_pow, Nat.add_sub_cancel_left]
  change v.toNat / 2 ^ i % 2 = _
  obtain h | h := Nat.mod_two_eq_zero_or_one (v.toNat / 2 ^ i)
  · rw [h]
    rfl
  · rw [h]
    rfl

theorem b2n_inj : ∀ {a b : Bool}, b2n a = b2n b → a = b := by decide

theorem b2n_lt : ∀ b, b2n b < 2 ^ 1 := by decide

theorem fabricWord_bits (v : Word) : bit (fabricWord v) 63 = bit v 63 ∧ bits (fabricWord v) 62 12 = 0 ∧
    bits (fabricWord v) 11 0 = bits v 11 0 := by
  have hfits : Fits [(12, bits v 11 0), (51, 0), (1, b2n (bit v 63))] := ⟨Nat.mod_lt _ (by decide), by decide, b2n_lt _, trivial⟩
  have hsum : packed [(12, bits v 11 0), (51, 0), (1, b2n (bit v 63))] = b2n (bit v 63) * 2 ^ 63 + bits v 11 0 := by
    unfold packed packed packed packed
    rw [Nat.mul_zero, Nat.add_zero, Nat.zero_add, Nat.add_comm, ← Nat.mul_assoc, Nat.mul_comm]
    rfl
  have hword : (fabricWord v).toNat = packed _ := word_packed hsum hfits (by decide : 64 ≤ 64)
  exact ⟨b2n_inj ((bits_one _ 63).symm.trans (bits_packed hword hfits 2 rfl rfl rfl)), bits_packed hword hfits 1 rfl rfl rfl,
    bits_packed hword hfits 0 rfl rfl rfl⟩

theorem mem_allSegs {z : Nat} (h : z < 192) : z ∈ allSegs := List.mem_range.2 h

/-- A segment with no boost. -/
noncomputable def unboosted (k : Seg) : Seg := { k with boost := 0 }

theorem boost_zero {s u : State} (h : u.segs = s.segs.map fun e => (e.1, unboosted e.2)) (z : Nat) : (getSeg u z).boost = 0 := by
  unfold getSeg
  rw [h, amGet_map_snd]
  cases amGet s.segs z with
  | none => rfl
  | some k => rfl

/-! ### Scrubbing and rollback (R156, R425, R430) -/

/-- A state with other counts of corrected errors. -/
noncomputable def withCounts (s : State) (tiles : AMap Tile) (ce : AMap Nat) : State := { s with tiles := tiles, stackCe := ce }

theorem countCe_eq (s : State) (a : Nat) : countCe s a =
    if spaceOf a == 4 then withCounts s s.tiles (amSet s.stackCe (stackOf a) ((amGet s.stackCe (stackOf a)).getD 0 + 1))
    else match homeTile a with
      | some t => addCe s t
      | none => s := rfl

theorem countCe_counts (s : State) (a : Nat) : ∃ x y, countCe s a = withCounts s x y := by
  rw [countCe_eq]
  split
  · exact ⟨s.tiles, _, rfl⟩
  · split
    · exact ⟨_, s.stackCe, rfl⟩
    · exact ⟨s.tiles, s.stackCe, rfl⟩

theorem foldl_countCe_counts (l : List Nat) (s : State) : ∃ x y, l.foldl countCe s = withCounts s x y := by
  induction l generalizing s with
  | nil => exact ⟨s.tiles, s.stackCe, rfl⟩
  | cons a l ih =>
    obtain ⟨x, y, h⟩ := countCe_counts s a
    rw [List.foldl_cons, h]
    exact ih (withCounts s x y)

/-- What the firmware does with a region in which an uncorrectable error was consumed. -/
theorem exec_rollback (s : State) (r : Nat) : exec (.rollback r) s = if isRcb s r && (getRegion s r).eccu then
    match (getRegion s r).interval with
    | some v => if rcbCkpt s r == 1 then .next (settle (rollBack s r v)) else .next (settle (abortRegion s r 2))
    | none => .next (settle (abortRegion s r 2))
    else .next s := rfl

theorem foldl_mem {α : Type} {f : State → α → State} (hf : ∀ s a, (f s a).mem = s.mem) (l : List α) (s : State) :
    (l.foldl f s).mem = s.mem := by
  induction l generalizing s with
  | nil => rfl
  | cons a l ih => rw [List.foldl_cons, ih, hf]

theorem writeCodes_mem (s : State) (pa n : Nat) : (writeCodes s pa n).mem = s.mem := by
  refine foldl_mem (fun s a => ?_) _ s
  split
  · unfold countMerge
    split <;> rfl
  · exact (Quiet.countCorrected s a _).mem_eq

/-- Undoing a log entry puts the old bytes of its granule back. -/
theorem memGet_applyEntry (s : State) (t k : Nat) {i : Nat} (hi : i < 64) (hg : memLE s.mem (undoEntry t k) 8 < 2 ^ 62) :
    memGet (applyEntry s t k).mem (memLE s.mem (undoEntry t k) 8 + i) = memGet s.mem (undoEntry t k + 8 + i) := by
  unfold applyEntry
  rw [if_neg (Nat.not_le.2 (hg.trans (by decide))), if_neg (Nat.not_le.2 hg)]
  change memGet (writeCodes _ _ 64).mem _ = _
  rw [writeCodes_mem, memGet_memPut_in _ _ _ hi]
  apply BitVec.eq_of_toNat_eq
  rw [BitVec.toNat_ofNat]
  exact memLE_digit s.mem _ hi

/-- Settles O60: each event's clauses hold by its definition and the lemmas above. -/
theorem thePanelIsManaged : Obligations.ThePanelIsManaged := by
  refine ⟨fun s => ⟨fun h => ?_, fun h => ?_⟩, fun s r => ⟨fun h => ?_, fun h hf => ?_, fun h => ?_, fun h => ?_,
    fun z _ => defaultHandler_startSegment s z,
    fun h => ?_, fun z l h hl => ?_⟩, fun s image v n => ⟨?_, ?_, fun h => ?_, fun h => ?_, fun h hn => ?_⟩, fun s inlet outlet flow => ?_,
    fun s => ⟨?_, ?_⟩, fun s store => ?_, fun s r v hr => ⟨fun h => ?_, fun h hi => ?_, fun h hi hc => ?_⟩,
    fun s t k i hi hg => memGet_applyEntry s t k hi hg⟩
  · have hx : exec .powerOn s = .next (modPmc s fun p => { p with inputGood := true, stage := 1 }) := if_neg (ne_true_of_eq_false h)
    exact next_modPmc hx ⟨rfl, rfl⟩
  · have hx : exec .powerOn s = .next (powerCycle s) := if_pos h
    exact ⟨_, hx, rfl, rfl, rfl, rfl, rfl, rfl, rfl, rfl, rfl, rfl, rfl, rfl, sensed_powerCycle s⟩
  · exact next_modPmc (exec_bootStage r h) rfl
  · have hx : exec (.bootStage r) s = .next (bootSlots s r) := (exec_bootStage r h).trans (if_neg fun hb => hf (eq_of_beq hb))
    exact ⟨_, hx, bootSlots_rest s r, bootSlots_A s, bootSlots_noConfig s, fun n => bootSlots_config s, bootSlots_B s, bootSlots_none s h⟩
  · exact next_modPmc (exec_bootStage r h) ⟨rfl, fun n hn => admBits_iff s hn⟩
  · have hx : exec (.bootStage r) s = .next (bootSegments s r) := exec_bootStage r h
    exact ⟨_, hx, rfl, bootSegments_none s, fun z => bootSegments_one⟩
  · exact next_modPmc (exec_bootStage r h) rfl
  · have hx : exec (.bootStage r) s = .next (rebootSegment s r) := exec_bootStage r h
    rw [rebootSegment_cons r hl] at hx
    refine ⟨fun hp => hx.trans (congrArg _ (if_pos (by rw [hp]; rfl))), fun hf hp => hx.trans (congrArg _ ?_), fun hf hp => ?_⟩
    · rw [hp, hf]
      rfl
    · rw [hp, hf] at hx
      exact ⟨_, hx, rfl, _, rfl, rfl, rfl⟩
  · rintro i (rfl | rfl | rfl)
    · exact ⟨_, rfl, rfl⟩
    · exact ⟨_, rfl, rfl⟩
    · exact ⟨_, rfl, rfl⟩
  · exact next_modPmc (f := fun p => let q := uploaded image p; { q with csts := 0 :: q.csts }) rfl
      ⟨congrArg _ (uploaded_csts image s.pmc), uploaded_slots image s.pmc⟩
  · have hx (f : State → State) : signedRequest s true false f = s := if_pos h
    exact ⟨congrArg Host.Outcome.next (hx _), congrArg Host.Outcome.next (hx _)⟩
  · exact next_modPmc (f := fun p => { p with panelid := bits v 7 0, csts := 0 :: p.csts })
      (congrArg Host.Outcome.next (signedRequest_served h _)) ⟨rfl, rfl⟩
  · refine ⟨_, fabricWord v, congrArg Host.Outcome.next ((signedRequest_served h _).trans (congrArg (modPmc · _) (if_pos hn))), rfl, rfl,
      amGet_amSet_self _ n _,
      fabricWord_bits v⟩
  · exact next_modPmc rfl ⟨rfl, fun z hz => List.mem_map_of_mem (mem_allSegs hz), fun n hn => List.mem_map_of_mem (List.mem_range.2 hn)⟩
  · exact ⟨_, rfl, rfl, rfl, rfl, boost_zero rfl⟩
  · exact next_modPmc rfl ⟨rfl, rfl⟩
  · obtain ⟨x, y, h⟩ := foldl_countCe_counts (s.weak.filter (scrubbed store)) { s with weak := s.weak.filter fun a => !scrubbed store a }
    exact ⟨_, congrArg Host.Outcome.next h, rfl, fun a => List.mem_filter.trans (and_congr_right fun _ => Bool.not_eq_eq_eq_not)⟩
  · exact (exec_rollback s r).trans (if_neg fun hb => ne_true_of_eq_false h (Bool.and_eq_true_iff.1 hb).2)
  · have hx := (exec_rollback s r).trans (if_pos (Bool.and_eq_true_iff.2 ⟨hr, h⟩))
    obtain hi | ⟨hi, hc⟩ := hi
    · rw [hx, hi]
    · rw [hx, hi]
      exact if_neg fun hb => hc (eq_of_beq hb)
  · have hx := (exec_rollback s r).trans (if_pos (Bool.and_eq_true_iff.2 ⟨hr, h⟩))
    rw [hx, hi]
    exact if_pos (beq_of_eq hc)

end Sys2Proof.Machine
end
